-- ==== Sys2Proof/Word.lean ====
section
/-! DEFINITION. The words of the ETA10 and their plain arithmetic (spec/00_scope.md R7, R8: bit 0 is the
left-most, most significant bit; sizes of a byte, half word and full word). -/

namespace Sys2Proof

/-- Eight bits: one byte of memory, or one designator of an instruction. -/
abbrev Byte := BitVec 8

/-- A half word: 32 bits. -/
abbrev Half := BitVec 32

/-- A full word: 64 bits. -/
abbrev Word := BitVec 64

/-- A bit address: 48 bits (R15, R19). -/
abbrev Addr := BitVec 48

end Sys2Proof
end

