-- ==== Sys2Proof/Machine/Bits.lean ====
section
/-! DEFINITION. Bit fields in the numbering of the spec: bit 0 is the left-most, most significant bit (R7). -/

namespace Sys2Proof.Machine

/-- The field of `len` bits that begins at bit `lo`: `x[lo : lo+len-1]`. -/
def field {w : Nat} (x : BitVec w) (lo len : Nat) : BitVec len := x.extractLsb' (w - lo - len) len

/-- Bit `i`. -/
def bitAt {w : Nat} (x : BitVec w) (i : Nat) : Bool := x.getMsbD i

/-- The word whose only one bit is bit `i`. -/
def oneBit (w i : Nat) : BitVec w := 1#w <<< (w - 1 - i)

/-- `x` with bit `i` replaced by `v`. -/
def setBitAt {w : Nat} (x : BitVec w) (i : Nat) (v : Bool) : BitVec w :=
  if v then x ||| oneBit w i else x &&& ~~~(oneBit w i)

/-- `Len`: the left-most 16 bits of a descriptor (R19). -/
def lenPart (x : Word) : BitVec 16 := x.extractLsb' 48 16

/-- `Addr`: the right-most 48 bits of a descriptor (R19). -/
def addrPart (x : Word) : Addr := x.extractLsb' 0 48

/-- A word with these left-most 16 and right-most 48 bits. -/
def joinLen (l : BitVec 16) (a : Addr) : Word := l ++ a

/-- The left and the right half of a word. -/
def leftHalf (x : Word) : Half := x.extractLsb' 32 32
def rightHalf (x : Word) : Half := x.extractLsb' 0 32

/-- `x` with its right-most 5 bits cleared: an instruction address (R16). -/
def halfAligned (a : Addr) : Addr := a &&& 0xFFFFFFFFFFE0

/-- `x` with its right-most 6 bits cleared: a full-word address (R65). -/
def wordAligned (a : Addr) : Addr := a &&& 0xFFFFFFFFFFC0

/-- `x` with its right-most 3 bits cleared: a byte address (R65). -/
def byteAligned (a : Addr) : Addr := a &&& 0xFFFFFFFFFFF8

/-- `x <<< k` as an offset in bits of an item count in items of `2 ^ k` bits (R71). -/
def scaled (k : Nat) (count : Addr) : Addr := count <<< k

end Sys2Proof.Machine
end

