-- ==== Sys2Proof/Config.lean ====
section
/-! DEFINITION. What an implementation fixes: the parameters of spec/92_eei_decisions.md section 2 that are plain data
(`Params`, carried in State so that a statement holds for every value of them), and the functions and free values the
spec leaves open, which are opaque: no proof can see their values. -/

namespace Sys2Proof

/-- A field of a two-word record: `width` bits beginning `start` bits from the record's left-most bit. -/
structure Field where
  start : Nat
  width : Nat
deriving DecidableEq, Repr

/-- `SemLayout` (spec/49_string_cb.md R617): the address fields of a two-word semaphore (`head`, `tail`) and of a
one-word process word (`link`). The wait count and the value returned are bits 0 to 31. The default is decision D52. -/
structure SemLayout where
  head : Field := ⟨32, 32⟩
  tail : Field := ⟨64, 32⟩
  link : Field := ⟨32, 32⟩
deriving DecidableEq, Repr

/-- The word numbers of the fields of the Invisible Package, the Domain Package and the Stacked Domain Package. The
spec gives only that the DFR is word 4 (R27); the other places are PRESUMED and parameters (unsafe: log entry 9). -/
structure Layout where
  /-- The program address, in the right-most 48 bits. -/
  pWord : Nat := 0
  /-- The breakpoint register. -/
  bkptWord : Nat := 1
  /-- Keys and page-size selects, in the format of register R of #0F. -/
  keysWord : Nat := 2
  /-- The Illegal Instruction Mask, in the left half. -/
  iimWord : Nat := 3
  /-- Bit 0: the ASCII/EBCDIC bit; bits 32 to 63: the Job Interval Timer. -/
  jitWord : Nat := 5
  /-- Stack Index (bits 0 to 12), Stack Limit (16 to 28), previous and current domain (32 to 38, 48 to 54). -/
  domWord : Nat := 6
  /-- The Forward Domain Change Mask, two words. -/
  maskWord : Nat := 8
  /-- The four BLAPs, two words each. -/
  blapWord : Nat := 16
  /-- The eight instrumentation counters. -/
  icWord : Nat := 24
  /-- How many words a package has. -/
  size : Nat := 32
deriving DecidableEq, Repr

/-- The word of a package that holds the Data Flag Register (R27, decision D9). -/
def Layout.dfrWord : Nat := 4

/-- The parameters of one machine. -/
structure Params where
  /-- CPM_BITS is `2 ^ cpmLog` (R61: a power of two). -/
  cpmLog : Nat := 28
  /-- CPU_ID (R632): the number of this CPU, one of CONFIGURED_CPUS. -/
  cpuId : BitVec 3 := 0
  /-- CONFIGURED_CPUS and CONFIGURED_IOUS: the assigned ones among IR bits 0 to 7 and 16 to 41 (R28, R631). -/
  configured : Word := 0xFF00FFC0FFC00000
  /-- CB_SIZE in bits. -/
  cbBits : Nat := 2 ^ 26
  /-- How many words the page table has after its first 16 entries (R68). -/
  pageTableWords : Nat := 1024
  /-- RTC_RATE and JIT_RATE, in ticks for each second (R34, R35). -/
  rtcRate : Nat := 1
  jitRate : Nat := 1
  sem : SemLayout := {}
  layout : Layout := {}
deriving DecidableEq, Repr

/-- CPM_BITS is at least large enough for #0 to #43FF and for no more than a 48-bit address (spec/92_eei_decisions.md
section 2), CPU_ID is one of CONFIGURED_CPUS, the clock rates are positive, no two fields of a package share a word, and
the package fits into CP memory. -/
def Params.ok (p : Params) : Bool :=
  15 ≤ p.cpmLog && p.cpmLog ≤ 48 && 0x4400 + 64 * p.pageTableWords ≤ 2 ^ p.cpmLog &&
  p.configured.getMsbD p.cpuId.toNat && 0 < p.rtcRate && 0 < p.jitRate &&
  (let l := p.layout
   [l.pWord, l.bkptWord, l.keysWord, l.iimWord, 4, l.jitWord, l.domWord, l.maskWord, l.maskWord + 1,
    l.blapWord, l.blapWord + 1, l.blapWord + 2, l.blapWord + 3, l.blapWord + 4, l.blapWord + 5, l.blapWord + 6,
    l.blapWord + 7, l.icWord, l.icWord + 1, l.icWord + 2, l.icWord + 3, l.icWord + 4, l.icWord + 5, l.icWord + 6,
    l.icWord + 7].Nodup && [l.pWord, l.bkptWord, l.keysWord, l.iimWord, 4, l.jitWord, l.domWord, l.maskWord + 1,
    l.blapWord + 7, l.icWord + 7].all (· < l.size) && 64 * l.size ≤ 2 ^ p.cpmLog)

/-- What an access wants of a page. The spec does not name the access kinds (R76); DESIGN CHOICE, log entry 7. -/
inductive Access where
  | read | write | fetch | translate
deriving DecidableEq, Repr

/-- The four virtual address keys and the page-size selects (R38). -/
structure Keys where
  key   : Vector (BitVec 12) 4
  small : BitVec 2
  large : BitVec 2
deriving DecidableEq, Repr

/-- A page table entry that answers a search: its index (0 to 15: the associative registers), the absolute address of
its page, and, in the places `Config.codeBits` of a word, the size, alteration and reference code that a Job access leaves
in the entry (R75 (5)). -/
structure Hit where
  index : Nat
  page  : Addr
  code  : Word
deriving DecidableEq, Repr

/-- One base/limit/access pair: communication buffer bit addresses and the two access rights (R43, R86). -/
structure Blap where
  base : Addr
  limit : Addr
  read : Bool
  write : Bool
deriving DecidableEq, Repr

/-- How a base/limit/access pair is packed into its two memory words. The spec keeps this encoding abstract (R86; 92 section
2, `BLAP` encoding); a pair that is stored is loaded again as it was (DEDUCED, log entry 9). -/
structure BlapCode where
  words : Blap → Word × Word
  ofWords : Word → Word → Blap
  ofWords_words : ∀ b, ofWords (words b).1 (words b).2 = b

/-- An encoding, which shows that two words have room for a pair. It is no claim about the hardware's. -/
def BlapCode.possible : BlapCode where
  words b := ((if b.read then 1#16 else 0#16) ++ b.base, (if b.write then 1#16 else 0#16) ++ b.limit)
  ofWords w v := ⟨w.extractLsb' 0 48, v.extractLsb' 0 48, w.getLsbD 48, v.getLsbD 48⟩
  ofWords_words b := by
    cases b with
    | mk base limit read write =>
      simp only [Blap.mk.injEq, BitVec.extractLsb'_append_eq_right, BitVec.getLsbD_append, true_and]
      cases read <;> cases write <;> simp

/-- The encoding of the BLAPs. Nothing but `BlapCode.ofWords_words` is known of it: it does not depend, as far as a proof
can see, on the one that shows that there is one. -/
opaque Config.blapCode (_ : Inhabited BlapCode) : BlapCode

/-- A free value: nothing constrains it (guide: an undefined value is not an undefined instruction). Log entry 11. -/
opaque Config.freeWord : Nat → Word

/-- How many cycles beyond the first an instruction takes: a free value (R36, R691). Log entry 16. -/
opaque Config.cycles : Nat → Nat

/-- A finite delay that the spec does not bound: a free value (R206, R691). Log entries 13 and 14. -/
opaque Config.delay : Nat → Nat

/-- The search of the page table for a small page (R75 (1)): virtual page number, access, keys and selects, and the
contents of the page table, the associative registers first. Its formats are in PUB-1005 only. Log entry 7. -/
opaque Config.smallPage : BitVec 48 → Access → Keys → List Word → Option Hit

/-- The search of the page table for a large page (R75 (1)). Log entry 7. -/
opaque Config.largePage : BitVec 48 → Access → Keys → List Word → Option Hit

/-- The places of the three bits of an associative word that hold its size, alteration and reference code (R37, R75 (5));
the source does not give them. Log entry 7. -/
opaque Config.codeBits : Fin 64 × Fin 64 × Fin 64

/-- The Domain Package number that register T of #36 selects (R653: the field's position is not in the source). -/
opaque Config.domainNumber : Word → BitVec 7

/-- Where the Domain Package of a number lies, for the job whose Invisible Package is at an address (R653). -/
opaque Config.domainPackage : BitVec 7 → Addr → Addr

/-- Where the stacked domain package of a stack index lies (R653). -/
opaque Config.stackedPackage : BitVec 13 → Addr → Addr

/-- `CBSide` (R87): which half of a divided communication buffer an address is in. -/
opaque Config.cbSide : Nat → Bool

end Sys2Proof
end

