-- ==== Sys2Proof/Machine/State.lean ====
section
/-! DEFINITION. The state of one ETA10 CPU (spec/10_state.md; INVENTORY.md lists it), the reasons a step can stop, and
the machine after Master Clear. State is plain data. -/

namespace Sys2Proof.Machine

/-- The mode (R17, R650). -/
inductive Mode where
  | monitor | job
deriving DecidableEq, Repr

/-- Force Execution mode, an input of the Service Unit (R31). -/
inductive ForceExec where
  | none | serial | parallel
deriving DecidableEq, Repr

/-- The link state after #56 (R46). -/
inductive Link where
  | none | ra | rb | both
deriving DecidableEq, Repr

/-- The domain registers (R41), the Illegal Instruction Mask (R42), the BLAPs (R43) and the ASCII/EBCDIC bit (R44). -/
structure Domain where
  stackIndex : BitVec 13
  stackLimit : BitVec 13
  prev : BitVec 7
  cur : BitVec 7
  changeMask : BitVec 128
  iim : Half
  blaps : Vector Blap 4
  ebcdic : Bool
deriving DecidableEq, Repr

/-- The shared-memory transfer registers (R40). `fatal` is FatalStatus, its left-most bit the status bit 2. -/
structure Transfer where
  cqta : Half
  iqha : Half
  iqta : Half
  trbsa : Half
  iqvf : Bool
  busy : Bool
  fatal : Byte
deriving DecidableEq, Repr

/-- What a CPU that runs no instruction waits for: the end of an Idle (R200, R665), or a Master Clear after a Type One
illegal instruction in Monitor mode (R633). -/
inductive Wait where
  | running | interrupt | masterClear
deriving DecidableEq, Repr

/-- What the other agents do between two instructions (R60, R630, R691; log entry 13). -/
structure Input where
  /-- Interrupt bits that arrive; only the asynchronous ones of R631 have an effect. -/
  irq : Word := 0
  /-- Nanoseconds of environment time that pass (R691). -/
  nanos : Nat := 0
  /-- Bytes another agent stores into CP memory: byte address and value. -/
  memWrites : List (Nat × Byte) := []
  /-- Bytes another agent stores into the communication buffer. -/
  cbWrites : List (Nat × Byte) := []
  /-- New contents of the shared-memory transfer registers (R80). -/
  transfer : Option Transfer := none
  /-- A change of Force Execution mode (R31). -/
  force : Option ForceExec := none
  /-- A Master Clear signal (R680). -/
  masterClear : Bool := false
deriving DecidableEq, Repr

/-- The state of the CPU and of what it reaches. -/
structure State where
  params : Params
  mode : Mode
  /-- The program address P (R15). -/
  pc : Addr
  /-- The register file (R10). -/
  regs : Vector Word 256
  /-- The Data Flag Register with its derived bits as they stand (R20, R22). -/
  dfr : Word
  /-- The Interrupt Register (R28). -/
  ir : Word
  /-- The breakpoint register (R30). -/
  bkpt : Word
  /-- Serial execution mode (R31). -/
  serial : Bool
  forceExec : ForceExec
  /-- The fault-test register (R32). -/
  faultTest : Byte
  /-- The Monitor Interval Timer (R33). -/
  mit : Half
  /-- The Job Interval Timer (R34). -/
  jit : Half
  /-- The Real-Time Clock (R35). -/
  rtc : Addr
  /-- The instrumentation counters; counter 7 counts cycles (R36). -/
  ic : Vector (BitVec 48) 8
  /-- The associative registers (R37). -/
  ar : Vector Word 16
  arValid : Bool
  keys : Keys
  /-- JobRFAddr and InvPkgAddr (R39). -/
  jobRF : Addr
  invPkg : Addr
  xfer : Transfer
  dom : Domain
  link : Link
  /-- The instruction stack (R45): half-word numbers of CP memory with a content they had before a store since the
  stack was last voided. A fetch may still see such a content (R93). -/
  stale : List (Nat × Half)
  /-- Is the CPU idle, or does it wait for a Master Clear (R200, R633)? -/
  waits : Wait
  /-- The control words that #08 has transmitted, the latest first (R632). -/
  sent : List Word
  /-- How many of `sent` the interrupt network has taken up (log entry 14). -/
  taken : Nat
  /-- The delays of the interrupts this CPU has sent to itself that have not arrived yet (R206, R632). -/
  arrivals : List Nat
  /-- CP memory, by byte address (R61), in canonical form. -/
  mem : List Host.Cell
  /-- The communication buffer, by byte address (R85), in canonical form. -/
  cb : List Host.Cell
  /-- The inputs still to come. -/
  env : List Input
  /-- The environment clock, in nanoseconds (R691). -/
  time : Nat
  /-- How many more instructions may end before the environment clock advances by itself (R691, log entry 13). -/
  lag : Nat
  /-- How many free values have been drawn (log entry 11). -/
  free : Nat
deriving DecidableEq, Repr

/-- A stop of the machine itself. -/
inductive Fault where
  /-- A communication buffer instruction whose address passes its BLAP check lies outside the CB_SIZE bits the buffer
  has: raised by #FA to #FF. Safe: the spec gives no effect (log entry 28). -/
  | outsideCommunicationBuffer
deriving DecidableEq, Repr

/-- The named cases that the spec calls undefined and for which spec/93_implementation_defined.md says `refuse`.
All of them are safe: the model has no successor state. -/
inductive Refusal where
  /-- No meaning yet, by the mnemonic of the opcode table. Raised by `exec`. -/
  | notModelled (mnemonic : String)
  /-- A non-zero bit in an unused instruction field (R116, U33). Raised by `step`, #09, #B7, #BA, #BB, #BC, #BD. -/
  | unusedFieldNonZero
  /-- Must-be-zero bits set in an operand of #04, #08, #0F, #6D, #6E (R202, R206, R212, R373). -/
  | reservedBitsNonZero
  /-- A shift count of #54, #74 beyond the coefficient's width (R180, U34). -/
  | adjsCount
  /-- #09 in Monitor mode with the fault-test register not zero (R688). -/
  | faultTestAtExchange
  /-- Overlapping packages, or job storage, of #09 (R207, R641). -/
  | exchangeOverlap
  /-- A package address of #09 that is no multiple of 64 words (R207). -/
  | exchangeAlign
  /-- The associative registers are used while they are not loaded (R687): #09, #0C, #0F. -/
  | assocRegsNotLoaded
  /-- #17 or #36's domain change in Monitor mode (R237, R283). -/
  | domainChangeInMonitor
  /-- #17 with an empty domain stack (R654). -/
  | domainStackUnderflow
  /-- Two designators that must differ are equal: #B0 to #B5 (R494). -/
  | sameRegister
  /-- #1C, #1D with length R above length S (R242, R243). -/
  | maskLength
  /-- The unassigned qualifier pair 01 of a branch address (R293, R491). -/
  | branchQualifier
  /-- #36 with R = S, R not #00 (R283). -/
  | branchRegisterSame
  /-- #37 in Monitor mode (R284). -/
  | jitInMonitor
  /-- #7D beyond register #FF (R389). -/
  | swapRange
  /-- #7D with overlapping fields of different bases (R389). -/
  | swapOverlap
  /-- A vector offset of 2^16 or more (R411, R413). -/
  | vectorOffsetRange
  /-- Qualifier `o` with an odd C (R413). -/
  | oddCWithOffset
  /-- #56 is not followed by a pair it can link (R419). -/
  | linkInvalid
  /-- `fwc` with `h` in #B0 to #B5 (R492). -/
  | compareQualifier
  /-- `b` with `grp`, or `grp` with `rf`, in #B7, #BA (R508, R510). -/
  | scatterGatherQualifier
  /-- `rf` with an element at or above #4000 (R508). -/
  | rfRange
  /-- Both sources broadcast where that is forbidden: #C0 to #C3, #DC (R575, R580). -/
  | broadcastBoth
  /-- Semaphore and process word on different sides of the communication buffer (R611). -/
  | cbSideMismatch
deriving DecidableEq, Repr

/-- The registers after Master Clear: DESIGN CHOICE (unsafe, log entry 3): `Reg[3]`, where the program begins, is #8000
and every other register is 0. -/
def resetRegs : Vector Word 256 := (Vector.replicate 256 0).set 3 0x8000

/-- The machine right after Master Clear (R48, R680), with nothing placed in memory. The fields the spec gives no value
are DESIGN CHOICE (unsafe: log entries 1 to 5, 11, 13, 14). -/
def State.reset : State where
  params := {}
  mode := .monitor
  pc := 0x8000
  regs := resetRegs
  dfr := 0
  ir := 0
  bkpt := 0
  serial := false
  forceExec := .none
  faultTest := 0
  mit := 0
  jit := 0
  rtc := 0
  ic := Vector.replicate 8 0
  ar := Vector.replicate 16 0
  arValid := false
  keys := ⟨Vector.replicate 4 0, 0, 0⟩
  jobRF := 0
  invPkg := 0
  xfer := ⟨0, 0, 0, 0, false, false, 0⟩
  dom := ⟨0, 0, 0, 0, 0, 0, Vector.replicate 4 ⟨0, 0, false, false⟩, false⟩
  link := .none
  stale := []
  waits := .running
  sent := []
  taken := 0
  arrivals := []
  mem := []
  cb := []
  env := []
  time := 0
  lag := 0
  free := 0

/-- Does the CPU run no instruction? -/
def State.stopped (s : State) : Bool := s.waits != .running

end Sys2Proof.Machine
end

