-- ==== Sys2Proof/Machine/Flags.lean ====
section
/-! DEFINITION. The Data Flag Register (spec/10_state.md R20 to R27, R49) and the flag sets of the arithmetic
(spec/40_fp_arithmetic.md R190 to R195). -/

namespace Sys2Proof.Machine

/-- The product bits 3 to 15. -/
def productMask : Word := 0x1FFF000000000000

/-- The bits of the DFR that are undefined: 0-2, 16-18, 32-34, 48-50 (R20). -/
def undefinedMask : Word := 0xE000E000E000E000

/-- Bits 40 and 44, the inclusive ORs of flags 37, 38, 39 and of flags 41, 42, 43 (R22). -/
def deriveSums (x : Word) : Word :=
  let x := setBitAt x 40 (bitAt x 37 || bitAt x 38 || bitAt x 39)
  setBitAt x 44 (bitAt x 41 || bitAt x 42 || bitAt x 43)

/-- The product field: each bit is the logical product of its data flag and its mask bit (R22). -/
def products (x : Word) : Word := (x <<< 16) &&& (x <<< 32) &&& productMask

/-- The register with its derived bits 3-15, 40, 44 and 51 recomputed (R22). -/
def deriveDfr (x : Word) : Word :=
  let x := deriveSums x
  setBitAt ((x &&& ~~~productMask) ||| products x) 51 (products x != 0)

/-- Assign the DFR: the derived bits follow the stored ones (R22, decision D6). -/
def State.setDfr (s : State) (x : Word) : State := { s with dfr := deriveDfr x }

/-- `SetFlag(i)` (R22), and its opposite. -/
def State.setFlag (s : State) (i : Nat) (v : Bool) : State := s.setDfr (setBitAt s.dfr i v)

/-- A set of arithmetic data flags: 41, 42, 43, 45 and 46. -/
structure FpFlags where
  divide : Bool := false
  overflow : Bool := false
  zero : Bool := false
  root : Bool := false
  indefinite : Bool := false
deriving DecidableEq, Repr

/-- The union of two flag sets. -/
def FpFlags.or (f g : FpFlags) : FpFlags :=
  ⟨f.divide || g.divide, f.overflow || g.overflow, f.zero || g.zero, f.root || g.root, f.indefinite || g.indefinite⟩

/-- No flag at all. -/
def FpFlags.isEmpty (f : FpFlags) : Bool := !(f.divide || f.overflow || f.zero || f.root || f.indefinite)

/-- The flags as bits 41, 42, 43, 45, 46 of the DFR. -/
def FpFlags.bits (f : FpFlags) : Word :=
  (if f.divide then oneBit 64 41 else 0) ||| (if f.overflow then oneBit 64 42 else 0) |||
  (if f.zero then oneBit 64 43 else 0) ||| (if f.root then oneBit 64 45 else 0) |||
  (if f.indefinite then oneBit 64 46 else 0)

/-- The duplicates 59 to 63 that a vector instruction sets (R25). -/
def FpFlags.pipeBits (f : FpFlags) : Word :=
  (if f.divide then oneBit 64 59 else 0) ||| (if f.overflow then oneBit 64 60 else 0) |||
  (if f.zero then oneBit 64 61 else 0) ||| (if f.root then oneBit 64 62 else 0) |||
  (if f.indefinite then oneBit 64 63 else 0)

/-- How an instruction applies its flag set (R195): as a scalar one, as a scalar convert, divide or square root (bit 58
too, R25), or as a vector one. -/
inductive FlagKind where
  | scalar | convert | vector
deriving DecidableEq, Repr

/-- The bits of the DFR that a flag set raises. -/
def raisedBits (k : FlagKind) (f : FpFlags) : Word :=
  match k with
  | .scalar => f.bits
  | .convert => f.bits ||| (if f.isEmpty then 0 else oneBit 64 58)
  | .vector => f.bits ||| f.pipeBits

/-- Apply a flag set (R195): flags are sticky. -/
def State.raiseFlags (s : State) (k : FlagKind) (f : FpFlags) : State := s.setDfr (s.dfr ||| raisedBits k f)

end Sys2Proof.Machine
end

