-- ==== Sys2Proof/Machine/Arith.lean ====
section
/-! DEFINITION. Floating-point formats and arithmetic functions (spec/40_fp_arithmetic.md). An operand is carried in a
`Word`; a 32-bit one is right-justified. Coefficients and exponents are computed as integers without bound and narrowed
at the end. -/

namespace Sys2Proof.Machine

/-- The two operand widths (R150). -/
inductive Width where
  | w32 | w64
deriving DecidableEq, Repr

/-- `n`: coefficient bits excluding the sign (R150). -/
def Width.n : Width → Nat
  | .w32 => 23
  | .w64 => 47

/-- `CB` and `EB`: the widths of the coefficient and of the exponent. -/
def Width.cb : Width → Nat
  | .w32 => 24
  | .w64 => 48

def Width.eb : Width → Nat
  | .w32 => 8
  | .w64 => 16

/-- `EMAX` and `EMIN` (R150). -/
def Width.emax : Width → Int
  | .w32 => 111
  | .w64 => 28671

def Width.emin : Width → Int
  | .w32 => -112
  | .w64 => -28672

/-- Operand size in bits, and the scale of an item count (R71). -/
def Width.bits : Width → Nat
  | .w32 => 32
  | .w64 => 64

def Width.shift : Width → Nat
  | .w32 => 5
  | .w64 => 6

/-- A classified operand (R152); a normal one has its exponent and coefficient. -/
inductive Num where
  | ind
  | mz
  | normal (e c : Int)
deriving DecidableEq, Repr

/-- A word from exponent and coefficient, each truncated to its field (R151). -/
def pack (w : Width) (e c : Int) : Word :=
  match w with
  | .w32 => 0#32 ++ BitVec.ofInt 8 e ++ BitVec.ofInt 24 c
  | .w64 => BitVec.ofInt 16 e ++ BitVec.ofInt 48 c

/-- The exponent field `E(x)` and the coefficient field `C(x)` (R151). -/
def expOf (w : Width) (x : Word) : Int :=
  match w with
  | .w32 => (x.extractLsb' 24 8).toInt
  | .w64 => (x.extractLsb' 48 16).toInt

def coefOf (w : Width) (x : Word) : Int :=
  match w with
  | .w32 => (x.extractLsb' 0 24).toInt
  | .w64 => (x.extractLsb' 0 48).toInt

/-- `fp_class` and the fields (R152): the exponent alone decides. -/
def unpack (w : Width) (x : Word) : Num :=
  if w.emax < expOf w x then .ind
  else if expOf w x < w.emin then .mz
  else .normal (expOf w x) (coefOf w x)

/-- `MZ(W)` and `IND(W)` (R153). -/
def machineZero : Width → Word
  | .w32 => 0x80000000
  | .w64 => 0x8000000000000000

def indefinite : Width → Word
  | .w32 => 0x70000000
  | .w64 => 0x7000000000000000

/-- A result with the data flags it raises. -/
structure FpResult where
  value : Word
  flags : FpFlags := {}
deriving DecidableEq, Repr

/-- The flag sets that occur: {46}, {43}, {42, 46}, {41, 46}. -/
def flagInd : FpFlags := { indefinite := true }
def flagZero : FpFlags := { zero := true }
def flagOvf : FpFlags := { overflow := true, indefinite := true }
def flagDiv : FpFlags := { divide := true, indefinite := true }

/-- The results `IND(W)` with flag 46 and `MZ(W)` with flag 43. -/
def resInd (w : Width) : FpResult := ⟨indefinite w, flagInd⟩
def resZero (w : Width) : FpResult := ⟨machineZero w, flagZero⟩

/-- How many bits a number has. -/
def bitLength (m : Nat) : Nat := if m = 0 then 0 else Nat.log2 m + 1

/-- How many bits of a signed coefficient differ from copies of its sign: the significant bit count before the range of
the width is taken into account (R154). -/
def magnitudeBits (c : Int) : Nat := bitLength (if 0 ≤ c then c.toNat else (-c - 1).toNat)

/-- `normcount(c)` for a coefficient of `n` bits excluding the sign (R154). -/
def normCount (n : Nat) (c : Int) : Nat := n - magnitudeBits c

/-- `sig(c)` (R154): 0 for an all-zero or all-one coefficient. -/
def sig (c : Int) : Nat := magnitudeBits c

/-- `asr(v, k) = floor(v / 2^k)` (R154). -/
def asr (v : Int) (k : Nat) : Int := v / (2 ^ k : Nat)

/-- `v * 2^k`. -/
def shl (v : Int) (k : Nat) : Int := v * (2 ^ k : Nat)

/-- `neg(E, c)` and `fix8000(E, c)` (R154). -/
def negate (n : Nat) (e c : Int) : Int × Int :=
  if c = -(2 ^ n : Nat) then (e + 1, (2 ^ (n - 1) : Nat)) else (e, -c)

def fix8000 (n : Nat) (e c : Int) : Int × Int :=
  if c = -(2 ^ n : Nat) then (e + 1, -(2 ^ (n - 1) : Nat)) else (e, c)

/-- `fp_finish` (R155). -/
def finish (w : Width) (e c : Int) : FpResult :=
  if w.emax < e then ⟨indefinite w, flagOvf⟩
  else if e < w.emin then resZero w
  else ⟨pack w e c, {}⟩

/-- `fp_normalize` (R162). -/
def normalize (w : Width) (e c : Int) : FpResult :=
  if c = 0 then resZero w
  else finish w (e - normCount w.n c) (shl c (normCount w.n c))

/-- Which result an operation stores: upper, lower, normalized or significant. -/
inductive Kind where
  | upper | lower | norm | signif
deriving DecidableEq, Repr

/-- Steps 4 and 5 of R160 on double-length coefficients of `2n` bits excluding the sign: alignment, sum, right
normalization. -/
def addExact (n : Nat) (p q : Int × Int) : Int × Int :=
  let e := max p.1 q.1
  let sum := asr p.2 (e - p.1).toNat + asr q.2 (e - q.1).toNat
  if (2 ^ (2 * n) : Nat) ≤ sum ∨ sum < -(2 ^ (2 * n) : Nat) then (e + 1, asr sum 1) else (e, sum)

/-- Steps 6 to 9 of R160: the stored part of the exact sum. -/
def addResult (w : Width) (k : Kind) (e sum : Int) : FpResult :=
  let cu := asr sum w.n
  let cl := sum % (2 ^ w.n : Nat)
  match k with
  | .lower =>
    if w.emax < e then ⟨pack w (w.emax + 1 - w.n) cl, {}⟩
    else if e - w.n < w.emin then resZero w
    else ⟨pack w (e - w.n) cl, {}⟩
  | .norm => normalize w e cu
  | _ => finish w e cu

/-- Step 2 of R160: kind N takes an all-zero coefficient for machine zero. -/
def zeroAsMz (k : Kind) : Num → Num
  | .normal e c => if k = .norm ∧ c = 0 then .mz else .normal e c
  | x => x

/-- `fp_add` (R160). -/
def fpAdd (w : Width) (k : Kind) (r s : Num) : FpResult :=
  match zeroAsMz k r, zeroAsMz k s with
  | .ind, _ => resInd w
  | _, .ind => resInd w
  | .mz, .mz => resZero w
  | .mz, .normal e c => addResult w k e (shl c w.n)
  | .normal e c, .mz => addResult w k e (shl c w.n)
  | .normal er cr, .normal es cs =>
    let sum := addExact w.n (er, shl cr w.n) (es, shl cs w.n)
    addResult w k sum.1 sum.2

/-- The complement of an operand (R154, R186): classes other than normal are unchanged, and an exponent raised above
EMAX makes the operand indefinite. -/
def negateNum (w : Width) : Num → Num
  | .normal e c => if w.emax < (negate w.n e c).1 then .ind else .normal (negate w.n e c).1 (negate w.n e c).2
  | x => x

/-- `fp_sub` (R161). Where complementing the subtrahend overflows its exponent, flags 42 and 46; an indefinite operand
raises no flag 42 (R191). -/
def fpSub (w : Width) (k : Kind) (r s : Num) : FpResult :=
  match r, s, negateNum w s with
  | .ind, _, _ => resInd w
  | _, .normal _ _, .ind => ⟨indefinite w, flagOvf⟩
  | _, _, s' => fpAdd w k r s'

/-- `fp_sig_adjust` (R175) and the coefficient it returns: `v` has `width` bits excluding the sign, `n` of them are the
upper result, and the count of significant bits becomes `sIn`. -/
def sigAdjust (n width : Nat) (e v : Int) (sIn : Nat) : Int × Int :=
  let sRes : Int := if v = 0 ∨ v = -1 then 0 else (magnitudeBits v : Int) - (width - n : Nat)
  let d := (sIn : Int) - sRes
  let moved := if 0 ≤ d then shl v d.toNat else asr v (-d).toNat
  (e - d, if width = n then moved else asr moved n)

/-- `fp_mul` (R165); `sIn` is the smaller significant bit count of the operands as read. -/
def fpMul (w : Width) (k : Kind) (sIn : Nat) (r s : Num) : FpResult :=
  match r, s with
  | .ind, _ => resInd w
  | _, .ind => resInd w
  | .mz, _ => resZero w
  | _, .mz => resZero w
  | .normal er cr, .normal es cs =>
    let a := fix8000 w.n er cr
    let b := fix8000 w.n es cs
    let p := a.2 * b.2
    match k with
    | .lower => finish w (a.1 + b.1) (p % (2 ^ w.n : Nat))
    | .signif =>
      let q := sigAdjust w.n (2 * w.n) (a.1 + b.1 + w.n) p sIn
      finish w q.1 q.2
    | _ => finish w (a.1 + b.1 + w.n) (asr p w.n)

/-- `fp_div` (R168): `r` is the dividend. -/
def fpDiv (w : Width) (k : Kind) (sIn : Nat) (r s : Num) : FpResult :=
  match r, s with
  | .ind, _ => resInd w
  | _, .ind => resInd w
  | _, .mz => ⟨indefinite w, flagDiv⟩
  | .mz, .normal _ cs => if cs = 0 then ⟨indefinite w, flagDiv⟩ else resZero w
  | .normal er cr, .normal es cs =>
    if cs = 0 then ⟨indefinite w, flagDiv⟩
    else
      let a := fix8000 w.n er cr
      let b := fix8000 w.n es cs
      let count := normCount w.n b.2
      let q := Int.tdiv (shl a.2 (w.n - 1)) (shl b.2 count)
      let e := a.1 - b.1 - ((w.n - 1 : Nat) - count)
      match k with
      | .signif =>
        let p := sigAdjust w.n w.n e q sIn
        finish w p.1 p.2
      | _ => finish w e q

/-- The bits of an integer square root, from bit `b - 1` down. -/
def rootBits (v : Nat) : Nat → Nat → Nat
  | 0, acc => acc
  | b + 1, acc => if (acc + 2 ^ b) * (acc + 2 ^ b) ≤ v then rootBits v b (acc + 2 ^ b) else rootBits v b acc

/-- `floor(sqrt(v))` for `v` below `2^100`. -/
def floorRoot (v : Nat) : Nat := rootBits v 50 0

/-- Steps 3 to 7 of R170 for the positive form of the operand; `flip` complements the result. -/
def rootOf (w : Width) (flip : Bool) (sIn : Nat) (e c : Int) : FpResult :=
  if c = 0 then finish w (asr e 1) 0
  else
    let e' := if e % 2 = 0 then e else e - 1
    let c' := if e % 2 = 0 then c else 2 * c
    let q : Int := floorRoot (shl c' (w.n - 1)).toNat
    let r := sigAdjust w.n w.n (e' / 2 - ((w.n - 1) / 2 : Nat)) (if flip then -q else q) sIn
    finish w r.1 r.2

/-- `fp_sqrt` (R170); `sIn` is the significant bit count of the operand as read. -/
def fpSqrt (w : Width) (sIn : Nat) : Num → FpResult
  | .ind => resInd w
  | .mz => resZero w
  | .normal e c =>
    if c < 0 then
      let f := fix8000 w.n e c
      let p := negate w.n f.1 f.2
      let r := rootOf w true sIn p.1 p.2
      { r with flags := r.flags.or { root := true } }
    else rootOf w false sIn e c

/-- Truncate, floor and ceiling. -/
inductive Rounding where
  | trunc | floor | ceil
deriving DecidableEq, Repr

/-- `fp_trunc`, `fp_floor`, `fp_ceil` (R178). -/
def fpRound (w : Width) (m : Rounding) (x : Word) : FpResult :=
  match unpack w x with
  | .mz => ⟨0, {}⟩
  | .ind => ⟨x, flagInd⟩
  | .normal e c =>
    if 0 ≤ e then ⟨x, {}⟩
    else
      let k := (-e).toNat
      match m with
      | .trunc => ⟨pack w 0 (if 0 ≤ c then asr c k else -(asr (-c) k)), {}⟩
      | .floor => ⟨pack w 0 (asr c k), {}⟩
      | .ceil => ⟨pack w 0 (-(asr (-c) k)), {}⟩

/-- `fp_adjs` (R180); none where the count is larger than the coefficient is wide. -/
def fpAdjs (w : Width) (x : Word) (count : Int) : Option FpResult :=
  match unpack w x with
  | .ind => some (resInd w)
  | .mz => some (resZero w)
  | .normal e c =>
    if (w.n : Int) < count ∨ count < -(w.n : Int) then none
    else if 0 ≤ count then
      let k := if c = 0 then count.toNat else min count.toNat (normCount w.n c)
      some (finish w (e - k) (shl c k))
    else some (finish w (e - count) (asr c (-count).toNat))

/-- `fp_adje` (R181). It has a result for every difference of the exponents, also for #75, which 93 U34 names beside #54
and #74 (DEDUCED, log entry 39). -/
def fpAdje (w : Width) (r s : Num) : FpResult :=
  match r, s with
  | .normal er cr, .normal es _ =>
    if cr = 0 then ⟨pack w es 0, {}⟩
    else
      let d := er - es
      if 0 < d then
        if (normCount w.n cr : Int) < d then ⟨indefinite w, flagOvf⟩ else ⟨pack w es (shl cr d.toNat), {}⟩
      else ⟨pack w es (asr cr (-d).toNat), {}⟩
  | _, _ => resInd w

/-- `fp_contract` and `fp_rcontract` (R183, R184): 64 bits to 32. -/
def fpContract (round : Bool) (x : Word) : FpResult :=
  let e := expOf .w64 x
  let c := coefOf .w64 x
  if 28671 < e then resInd .w32
  else if 87 < e then ⟨indefinite .w32, flagOvf⟩
  else if e < -136 then resZero .w32
  else if round then
    let t := c + (2 ^ 23 : Nat)
    if (2 ^ 47 : Nat) ≤ t then finish .w32 (e + 1 + 24) (asr (asr t 1) 24)
    else finish .w32 (e + 24) (asr t 24)
  else ⟨pack .w32 (e + 24) (asr c 24), {}⟩

/-- `fp_extend` (R185): 32 bits to 64. -/
def fpExtend (x : Word) : FpResult :=
  match unpack .w32 x with
  | .ind => resInd .w64
  | .mz => resZero .w64
  | .normal e c => ⟨pack .w64 (e - 24) (shl c 24), {}⟩

/-- `fp_index_extend` (R185). -/
def fpIndexExtend (x : Word) : FpResult :=
  match unpack .w32 x with
  | .ind => resInd .w64
  | .mz => resZero .w64
  | .normal e c => ⟨pack .w64 e c, {}⟩

/-- `fp_abs` (R185). -/
def fpAbs (w : Width) (x : Word) : FpResult :=
  match unpack w x with
  | .ind => resInd w
  | .mz => resZero w
  | .normal e c => if 0 ≤ c then ⟨x, {}⟩ else finish w (negate w.n e c).1 (negate w.n e c).2

/-- `fp_exp` (R185): the exponent as a coefficient with exponent 0. -/
def fpExp (w : Width) (x : Word) : Word := pack w 0 (expOf w x)

/-- `fp_pack` (R185): exponent from the right end of `a`, coefficient from the right end of `b`. -/
def fpPack (w : Width) (a b : Word) : Word :=
  match w with
  | .w32 => 0#32 ++ a.extractLsb' 0 8 ++ b.extractLsb' 0 24
  | .w64 => a.extractLsb' 0 16 ++ b.extractLsb' 0 48

/-! ### Sign control (R120, R186) -/

/-- The three sign control bits: G-bits 5, 6, 7. -/
structure Sign where
  g5 : Bool := false
  g6 : Bool := false
  g7 : Bool := false
deriving DecidableEq, Repr

/-- The magnitude of an operand's coefficient. -/
def magnitudeNum (w : Width) : Num → Num
  | .normal e c => if c < 0 then negateNum w (.normal e c) else .normal e c
  | x => x

/-- An operand whose coefficient is not positive. -/
def negativeNum (w : Width) : Num → Num
  | .normal e c => if 0 < c then negateNum w (.normal e c) else .normal e c
  | x => x

/-- Sign control on an A stream operand: `ma`, `c`, or `n` where both bits are set. -/
def Sign.onA (g : Sign) (w : Width) (x : Num) : Num :=
  if g.g5 && g.g6 then negativeNum w x
  else if g.g5 then magnitudeNum w x
  else if g.g6 then negateNum w x
  else x

/-- Sign control on a B stream operand: `mb`. -/
def Sign.onB (g : Sign) (w : Width) (x : Num) : Num := if g.g7 then magnitudeNum w x else x

/-- The two-operand operations of #40 to #4F, #60 to #6F, #80 to #8F and #A0 to #AF. -/
inductive FpOp where
  | add (k : Kind)
  | sub (k : Kind)
  | mul (k : Kind)
  | div (k : Kind)
deriving DecidableEq, Repr

/-- The significant bit count of an operand as read. -/
def sigOf (w : Width) (x : Word) : Nat := sig (coefOf w x)

/-- An operation on two operands as read, with sign control. -/
def fpBinary (w : Width) (op : FpOp) (g : Sign) (x y : Word) : FpResult :=
  let a := g.onA w (unpack w x)
  let b := g.onB w (unpack w y)
  let sIn := min (sigOf w x) (sigOf w y)
  match op with
  | .add k => fpAdd w k a b
  | .sub k => fpSub w k a b
  | .mul k => fpMul w k sIn a b
  | .div k => fpDiv w k sIn a b

/-! ### Comparison (R188) -/

/-- The four truth values of a comparison, and whether it had an indefinite operand. -/
structure Cmp where
  eq : Bool
  ne : Bool
  ge : Bool
  lt : Bool
  flag : Bool := false
deriving DecidableEq, Repr

/-- The truth values for "equal", "r greater" and "r less". -/
def Cmp.equal : Cmp := ⟨true, false, true, false, false⟩
def Cmp.greater : Cmp := ⟨false, true, true, false, false⟩
def Cmp.less : Cmp := ⟨false, true, false, true, false⟩

/-- The comparison of a number with machine zero, by its coefficient. -/
def Cmp.ofSign (c : Int) : Cmp := if c = 0 then .equal else if 0 < c then .greater else .less

/-- `fp_cmp` (R188). -/
def fpCmp (w : Width) (r s : Num) : Cmp :=
  match r, s with
  | .ind, .ind => { Cmp.equal with flag := true }
  | .ind, _ => ⟨false, false, false, false, true⟩
  | _, .ind => ⟨false, false, false, false, true⟩
  | .mz, .mz => .equal
  | .normal _ c, .mz => .ofSign c
  | .mz, .normal _ c => .ofSign (-c)
  | .normal er cr, .normal es cs =>
    if 0 ≤ cr ∧ cs < 0 then .greater
    else if cr < 0 ∧ 0 ≤ cs then .less
    else
      let t := negate w.n es cs
      let sum := addExact w.n (er, shl cr w.n) (t.1, shl t.2 w.n)
      .ofSign (asr sum.2 w.n)

/-- The comparison of two operands as read. -/
def fpCompare (w : Width) (x y : Word) : Cmp := fpCmp w (unpack w x) (unpack w y)

/-- The flag set of a comparison: flag 46 with an indefinite operand. -/
def Cmp.flags (c : Cmp) : FpFlags := { indefinite := c.flag }

end Sys2Proof.Machine
end

