-- ==== Sys2Proof/Machine/Ops.lean ====
section
/-! DEFINITION. The shared operations: memory, registers, translation, the breakpoint compare, the instruction stack,
taking an exception and returning from one, domain changes, timers and the other agents' inputs. -/

namespace Sys2Proof.Machine

/-! ### Memory as a canonical list of cells -/

/-- What an unlisted byte reads as: DESIGN CHOICE, unsafe (log entries 1 and 2). -/
def Memory.unlisted : Byte := 0

/-- The byte at byte address `a`. -/
def Memory.byte : List Host.Cell → Nat → Byte
  | [], _ => Memory.unlisted
  | (k, v) :: rest, a => if k = a then v else Memory.byte rest a

/-- Store byte `v` at byte address `a`; the canonical form is kept. -/
def Memory.setByte : List Host.Cell → Nat → Byte → List Host.Cell
  | [], a, v => if v = Memory.unlisted then [] else [(a, v)]
  | (k, u) :: rest, a, v =>
    if a < k then (if v = Memory.unlisted then (k, u) :: rest else (a, v) :: (k, u) :: rest)
    else if a = k then (if v = Memory.unlisted then rest else (a, v) :: rest)
    else (k, u) :: Memory.setByte rest a v

/-- The canonical form: addresses strictly rising, and no entry equal to what an unlisted address reads as. -/
def Memory.wf : List Host.Cell → Bool
  | [] => true
  | [(_, v)] => v != Memory.unlisted
  | (k, v) :: (k', v') :: rest => v != Memory.unlisted && decide (k < k') && Memory.wf ((k', v') :: rest)

/-- The half word at byte address `a`, most significant byte first (R63). -/
def Memory.half (m : List Host.Cell) (a : Nat) : Half :=
  Memory.byte m a ++ Memory.byte m (a + 1) ++ Memory.byte m (a + 2) ++ Memory.byte m (a + 3)

/-- The full word at byte address `a` (R63). -/
def Memory.word (m : List Host.Cell) (a : Nat) : Word := Memory.half m a ++ Memory.half m (a + 4)

/-- Store a half word, most significant byte first. -/
def Memory.setHalf (m : List Host.Cell) (a : Nat) (v : Half) : List Host.Cell :=
  Memory.setByte (Memory.setByte (Memory.setByte (Memory.setByte m a (v.extractLsb' 24 8))
    (a + 1) (v.extractLsb' 16 8)) (a + 2) (v.extractLsb' 8 8)) (a + 3) (v.extractLsb' 0 8)

/-- Store a full word. -/
def Memory.setWord (m : List Host.Cell) (a : Nat) (v : Word) : List Host.Cell :=
  Memory.setHalf (Memory.setHalf m a (leftHalf v)) (a + 4) (rightHalf v)

/-! ### The register file (R10 to R14) -/

/-- `Reg[n]`. -/
def State.reg (s : State) (n : Byte) : Word := s.regs[n.toNat]'n.isLt

/-- `Reg[n] <- v`. -/
def State.setReg (s : State) (n : Byte) (v : Word) : State := { s with regs := s.regs.set n.toNat v n.isLt }

/-- The number of the 64-bit register that holds 32-bit register `d` (R12). -/
def halfOf (d : Byte) : Byte := d >>> 1

/-- `Reg32[d]`: the half word at register-file bit address `32 d` (R12, decision D1). -/
def State.reg32 (s : State) (d : Byte) : Half :=
  if bitAt d 7 then rightHalf (s.reg (halfOf d)) else leftHalf (s.reg (halfOf d))

/-- `Reg32[d] <- v`; the other half is unchanged (R12). -/
def State.setReg32 (s : State) (d : Byte) (v : Half) : State :=
  let old := s.reg (halfOf d)
  s.setReg (halfOf d) (if bitAt d 7 then leftHalf old ++ v else v ++ rightHalf old)

/-- The machine-zero constants (R153). -/
def mz64 : Word := 0x8000000000000000
def mz32 : Half := 0x80000000

/-- A source register where designator #00 provides machine zero (R13). -/
def State.regOrMz (s : State) (n : Byte) : Word := if n = 0 then mz64 else s.reg n
def State.reg32OrMz (s : State) (n : Byte) : Half := if n = 0 then mz32 else s.reg32 n

/-- `Len(r)` and `Addr(r)` (R19). -/
def State.len (s : State) (n : Byte) : Nat := (lenPart (s.reg n)).toNat
def State.addr (s : State) (n : Byte) : Addr := addrPart (s.reg n)

/-- `pc <- a`, the low five bits masked (R16, decision D4). -/
def State.goto (s : State) (a : Addr) : State := { s with pc := halfAligned a }

/-- Go on behind a 32-bit or a 64-bit instruction (R16). -/
def State.next32 (s : State) : State := s.goto (s.pc + 32)
def State.next64 (s : State) : State := s.goto (s.pc + 64)

/-! ### Instructions as computations that may stop -/

/-- Why an instruction was not completed. -/
inductive Stop where
  /-- An access interrupt; the instruction has no effect. `free` is how many free values it had drawn (R636). -/
  | access (free : Nat)
  /-- An access interrupt inside a multi-element instruction, which leaves `left` (R636). -/
  | partly (left : State)
  /-- A Type One and a Type Two illegal instruction (R633, R634). -/
  | typeOne
  | typeTwo
  /-- A communication buffer instruction is locked out, or fails the base/limit check, or both (R637). -/
  | buffer (lockout limit : Bool)
  /-- A case the spec calls undefined. -/
  | refuse (r : Refusal)
  /-- The model's fault. -/
  | fault (f : Fault)

/-- A computation over the state that may stop. -/
abbrev M (α : Type) := StateT State (Except Stop) α

/-- Stop. -/
def stop {α : Type} (r : Stop) : M α := fun _ => .error r

/-- Stop in a case the spec calls undefined. -/
def refuse {α : Type} (r : Refusal) : M α := stop (.refuse r)

/-- Refuse if `b`. -/
def refuseIf (b : Bool) (r : Refusal) : M Unit := if b then refuse r else pure ()

/-- Change the state. -/
def update (f : State → State) : M Unit := fun s => .ok ((), f s)

/-- A free value (log entry 11). -/
def drawFree : M Word := fun s => .ok (Config.freeWord s.free, { s with free := s.free + 1 })

/-! ### Addresses (R61, R62, R75) -/

/-- A physical bit address: beyond the maximum it wraps around (R61). -/
def State.wrap (s : State) (a : Nat) : Nat := a % 2 ^ s.params.cpmLog

/-- How many bits of a bit address lie within a small page: selects 00, 10, 11 are 1K, 2K, 8K words (R38; the unit
"words" is PRESUMED, log entry 8); 01 is undefined. -/
def smallBits (sel : BitVec 2) : Option Nat :=
  if sel = 0 then some 16 else if sel = 2 then some 17 else if sel = 3 then some 19 else none

/-- The same for a large page: selects 00 and 01 are 64K and 256K words; bit 32 must be zero (R38). -/
def largeBits (sel : BitVec 2) : Option Nat :=
  if sel = 0 then some 22 else if sel = 1 then some 24 else none

/-- The entry of the two that stands first in the page table. -/
def firstHit (small large : Option Hit) (sb lb : Nat) : Option (Hit × Nat) :=
  match small, large with
  | none, none => none
  | some h, none => some (h, sb)
  | none, some h => some (h, lb)
  | some h, some k => if h.index ≤ k.index then some (h, sb) else some (k, lb)

/-- Where the page table goes on in CP memory: byte address of absolute bit address #4400 (R68). -/
def tableBase : Nat := 0x4400 / 8

/-- Entry `i` of the page table (R75, R68). -/
def State.entry (s : State) (i : Nat) : Word :=
  if h : i < 16 then s.ar[i] else Memory.word s.mem (tableBase + 8 * (i - 16))

/-- The contents of the page table (R75, R68): the associative registers, then the words in CP memory from #4400 on, which
the source calls the Space Table (DEDUCED, log entry 7). -/
def State.pageTable (s : State) : List Word := (List.range (16 + s.params.pageTableWords)).map s.entry

/-- The page table entry that translates `va`, and how many bits lie within its page (R75 (1)). An index beyond the
end of the page table is no hit. -/
def State.search (s : State) (kind : Access) (va : Addr) (sb lb : Nat) : Option (Hit × Nat) :=
  (firstHit (Config.smallPage (va >>> sb) kind s.keys s.pageTable) (Config.largePage (va >>> lb) kind s.keys s.pageTable)
    sb lb).filter fun h => decide (h.1.index < 16 + s.params.pageTableWords)

/-- The absolute address for a hit: within the page the offset is preserved (R75 (2)). -/
def hitAddress (h : Hit) (bits : Nat) (va : Addr) : Nat := h.page.toNat / 2 ^ bits * 2 ^ bits + va.toNat % 2 ^ bits

/-- Move `n` words of the page table at byte address `a` down one place, `carry` in front. -/
def pushTable (m : List Host.Cell) (a : Nat) : Nat → Word → List Host.Cell
  | 0, _ => m
  | n + 1, carry => pushTable (Memory.setWord m a carry) (a + 8) n (Memory.word m a)

/-- Before a store into the `n` half words from half-word number `h`: the instruction stack may hold what they held
(R93). In serial mode every instruction voids the stack, so nothing is kept (R31). -/
def State.keepStale (s : State) (h n : Nat) : State :=
  if s.serial then s
  else { s with stale := (List.range n).map (fun k => (h + k, Memory.half s.mem (4 * (h + k)))) ++ s.stale }

/-- The entry `i` moves, as `w`, to the top of the page table and those above it move down (R75 (3), R212). The words of
the table in CP memory are stored into like any other: the instruction stack may hold what they held (R93). -/
def State.pushDown (s : State) (i : Nat) (w : Word) : State :=
  { s.keepStale (tableBase / 4) (2 * (i - 15)) with
    ar := Vector.ofFn fun k => if k.val = 0 then w else if k.val ≤ i then s.ar[k.val - 1] else s.ar[k.val]
    mem := pushTable s.mem tableBase (i - 15) s.ar[15] }

/-- The bits of an associative word that hold its size, alteration and reference code (R37). -/
def codeMask : Word :=
  oneBit 64 Config.codeBits.1.val ||| oneBit 64 Config.codeBits.2.1.val ||| oneBit 64 Config.codeBits.2.2.val

/-- An associative word with the code of `code`; every other bit is as it was (R75 (5)). -/
def withCode (word code : Word) : Word := (word &&& ~~~codeMask) ||| (code &&& codeMask)

/-- A Job access to the page of `h` (R75 (3), (5)): its entry, with the code that the access leaves in it, goes to the
top. -/
def State.useEntry (s : State) (h : Hit) : State := s.pushDown h.index (withCode (s.entry h.index) h.code)

/-- The physical bit address for an access at `va` (R62): absolute in Monitor mode; in Job mode through the page table,
where a miss is an access interrupt (R69, R636) and a hit uses its entry. -/
def physical (kind : Access) (va : Addr) : M Nat := fun s =>
  match s.mode with
  | .monitor => .ok (s.wrap va.toNat, s)
  | .job =>
    if s.arValid then
      match smallBits s.keys.small, largeBits s.keys.large with
      | some sb, some lb =>
        match s.search kind va sb lb with
        | some (h, bits) => .ok (s.wrap (hitAddress h bits va), s.useEntry h)
        | none => .error (.access s.free)
      | _, _ => .error (.refuse .reservedBitsNonZero)
    else .error (.refuse .assocRegsNotLoaded)

/-! ### Reads and writes of CP memory (R63 to R70, R93) -/

/-- Does an access at address `ea` as the instruction forms it match the breakpoint register (R30, R70): bits 16 to 58, and
usage bit 61 for writes, 62 for reads? -/
def State.breaks (s : State) (write : Bool) (ea : Addr) : Bool :=
  bitAt s.bkpt (if write then 61 else 62) && (s.bkpt.extractLsb' 5 43 == ea.extractLsb' 5 43)

/-- The breakpoint compare of an access (R70): a match sets data flag 47. -/
def State.breakpoint (s : State) (write : Bool) (ea : Addr) : State := if s.breaks write ea then s.setFlag 47 true else s

/-- Empty the instruction stack (R93). -/
def State.voidStack (s : State) : State := { s with stale := [] }

/-- Read the full word at `va`; the low six bits are ignored (R65). -/
def readWord (va : Addr) : M Word := do
  let p ← physical .read (wordAligned va)
  update (·.breakpoint false (wordAligned va))
  return Memory.word (← get).mem (p / 8)

/-- Read the half word at `va`; the low five bits are ignored (R65). -/
def readHalf (va : Addr) : M Half := do
  let p ← physical .read (halfAligned va)
  update (·.breakpoint false (halfAligned va))
  return Memory.half (← get).mem (p / 8)

/-- Read the byte at `va`; the low three bits are ignored (R65). -/
def readByte (va : Addr) : M Byte := do
  let p ← physical .read (byteAligned va)
  update (·.breakpoint false (byteAligned va))
  return Memory.byte (← get).mem (p / 8)

/-- `MemBit(va)` (R246). -/
def readBit (va : Addr) : M Bool := do
  let p ← physical .read va
  update (·.breakpoint false va)
  return bitAt (Memory.byte (← get).mem (p / 8)) (p % 8)

/-- Store a full word at physical bit address `p`. -/
def State.putWord (s : State) (p : Nat) (v : Word) : State :=
  let s := s.keepStale (p / 32) 2
  { s with mem := Memory.setWord s.mem (p / 8) v }

/-- Store a half word at physical bit address `p`. -/
def State.putHalf (s : State) (p : Nat) (v : Half) : State :=
  let s := s.keepStale (p / 32) 1
  { s with mem := Memory.setHalf s.mem (p / 8) v }

/-- Store a byte at physical bit address `p`. -/
def State.putByte (s : State) (p : Nat) (v : Byte) : State :=
  let s := s.keepStale (p / 32) 1
  { s with mem := Memory.setByte s.mem (p / 8) v }

/-- Store one bit at physical bit address `p`. -/
def State.putBit (s : State) (p : Nat) (v : Bool) : State :=
  s.putByte p (setBitAt (Memory.byte s.mem (p / 8)) (p % 8) v)

/-- Write the full word at `va`. -/
def writeWord (va : Addr) (v : Word) : M Unit := do
  let p ← physical .write (wordAligned va)
  update (·.breakpoint true (wordAligned va))
  update (·.putWord p v)

/-- Write the half word at `va`. -/
def writeHalf (va : Addr) (v : Half) : M Unit := do
  let p ← physical .write (halfAligned va)
  update (·.breakpoint true (halfAligned va))
  update (·.putHalf p v)

/-- Write the byte at `va`. -/
def writeByte (va : Addr) (v : Byte) : M Unit := do
  let p ← physical .write (byteAligned va)
  update (·.breakpoint true (byteAligned va))
  update (·.putByte p v)

/-- `MemSetBit(va, v)` (R246). -/
def writeBit (va : Addr) (v : Bool) : M Unit := do
  let p ← physical .write va
  update (·.breakpoint true va)
  update (·.putBit p v)

/-- Absolute accesses of the hardware's own sequences: physical in both modes, no breakpoint compare (R62, R70). -/
def State.absWord (s : State) (a : Nat) : Word := Memory.word s.mem (s.wrap a / 8)
def State.setAbsWord (s : State) (a : Nat) (v : Word) : State := s.putWord (s.wrap a) v

/-- A content of half-word number `h` that a fetch may see (R93): memory's, or one the instruction stack still holds. -/
def State.fetchable (s : State) (h : Nat) : List Half :=
  Memory.half s.mem (4 * h) :: (s.stale.filter (·.1 == h)).map (·.2)

/-- Fetch the half word at `va` (R66): no breakpoint compare (decision D14). Where the stack holds other contents the
choice is a free value (U32). -/
def fetchHalf (va : Addr) : M Half := do
  let p ← physical .fetch va
  match (← get).fetchable (p / 32) with
  | [v] => return v
  | vs => do
    let k ← drawFree
    return vs.getD (k.toNat % vs.length) 0

/-! ### Loops over elements (R72, R636) -/

/-- `b 0`, `b 1`, …, `b (n-1)` in this order, handing a value on. -/
def upTo {α : Type} : Nat → (Nat → α → M α) → α → M α
  | 0, _, x => pure x
  | n + 1, b, x => do
    let y ← upTo n b x
    b n y

/-- How many of the first `n` elements are completed before one stops. -/
def completed {α : Type} (b : Nat → α → M α) (x : α) (s : State) : Nat → Nat
  | 0 => 0
  | n + 1 =>
    match upTo (n + 1) b x s with
    | .ok _ => n + 1
    | .error _ => completed b x s n

/-- The flags after an abandoned instruction: those raised may or may not be set (R636). -/
def someFlags (old new choice : Word) : Word := deriveDfr (old ||| (new &&& choice))

/-- The loop of a multi-element instruction. On an access interrupt some leading elements are stored, how many is a
free value, and their flags may or may not be set (R636, U35, decision D55). The free data flags 53 to 55 are as before
the instruction, also where it clears them first: DESIGN CHOICE, log entry 18. -/
def elements {α : Type} (n : Nat) (b : Nat → α → M α) (x : α) : M α := fun s =>
  match upTo n b x s with
  | .error (.access free) =>
    match upTo ((Config.freeWord free).toNat % (completed b x s n + 1)) b x s with
    | .ok (_, t) =>
      .error (.partly { t with dfr := someFlags s.dfr t.dfr (Config.freeWord (free + 1)), free := free + 2, regs := s.regs })
    | .error e => .error e
  | r => r

/-! ### Packages (R27, R39, R641; the layout is a parameter, log entry 9) -/

/-- The keys in the format of register R of #0F (R38). -/
def keysWord (k : Keys) : Word :=
  k.small.extractLsb' 1 1 ++ 0#3 ++ k.key[0] ++ k.small.extractLsb' 0 1 ++ 0#3 ++ k.key[1] ++
  k.large.extractLsb' 1 1 ++ 0#3 ++ k.key[2] ++ k.large.extractLsb' 0 1 ++ 0#3 ++ k.key[3]

/-- Keys and page-size selects from a word in the format of register R of #0F (R38). -/
def keysOfWord (w : Word) : Keys :=
  ⟨#v[field w 4 12, field w 20 12, field w 36 12, field w 52 12], field w 0 1 ++ field w 16 1, field w 32 1 ++ field w 48 1⟩

/-- The two words of a BLAP, and the BLAP of two words, in the encoding that the spec keeps abstract (R86). -/
def blapWords (b : Blap) : Word × Word := (Config.blapCode ⟨BlapCode.possible⟩).words b
def blapOfWords (w v : Word) : Blap := (Config.blapCode ⟨BlapCode.possible⟩).ofWords w v

/-- The word of the domain registers: Stack Index, Stack Limit, previous and current domain. -/
def Domain.word (d : Domain) : Word := d.stackIndex ++ 0#3 ++ d.stackLimit ++ 0#3 ++ d.prev ++ 0#9 ++ d.cur ++ 0#9

/-- Word `n` of the package at `base`. -/
def State.pkgWord (s : State) (base : Addr) (n : Nat) : Word := s.absWord (base.toNat + 64 * n)

/-- Store numbered words into the package at `base`. -/
def State.storePkg (s : State) (base : Addr) : List (Nat × Word) → State
  | [] => s
  | (n, v) :: rest => (s.setAbsWord (base.toNat + 64 * n) v).storePkg base rest

/-- What describes the access rights of a domain: keys, mask, BLAPs (R653). -/
def State.rightsWords (s : State) : List (Nat × Word) :=
  let l := s.params.layout
  [(l.keysWord, keysWord s.keys), (l.iimWord, s.dom.iim ++ 0#32),
   (l.maskWord, s.dom.changeMask.extractLsb' 64 64), (l.maskWord + 1, s.dom.changeMask.extractLsb' 0 64),
   (l.blapWord, (blapWords s.dom.blaps[0]).1), (l.blapWord + 1, (blapWords s.dom.blaps[0]).2),
   (l.blapWord + 2, (blapWords s.dom.blaps[1]).1), (l.blapWord + 3, (blapWords s.dom.blaps[1]).2),
   (l.blapWord + 4, (blapWords s.dom.blaps[2]).1), (l.blapWord + 5, (blapWords s.dom.blaps[2]).2),
   (l.blapWord + 6, (blapWords s.dom.blaps[3]).1), (l.blapWord + 7, (blapWords s.dom.blaps[3]).2)]

/-- The contents of the invisible package of the running job, with program address `saved` (R642). -/
def State.invisibleWords (s : State) (saved : Addr) : List (Nat × Word) :=
  let l := s.params.layout
  [(l.pWord, joinLen 0 saved), (l.bkptWord, s.bkpt), (Layout.dfrWord, s.dfr),
   (l.jitWord, BitVec.ofBool s.dom.ebcdic ++ 0#31 ++ s.jit), (l.domWord, s.dom.word)] ++ s.rightsWords

/-- Load keys, Illegal Instruction Mask, Forward Domain Change Mask and BLAPs from the package at `base`. -/
def State.loadRights (s : State) (base : Addr) : State :=
  let l := s.params.layout
  let w := s.pkgWord base
  { s with
    keys := keysOfWord (w l.keysWord)
    dom := { s.dom with
      iim := leftHalf (w l.iimWord)
      changeMask := w l.maskWord ++ w (l.maskWord + 1)
      blaps := #v[blapOfWords (w l.blapWord) (w (l.blapWord + 1)), blapOfWords (w (l.blapWord + 2)) (w (l.blapWord + 3)),
        blapOfWords (w (l.blapWord + 4)) (w (l.blapWord + 5)), blapOfWords (w (l.blapWord + 6)) (w (l.blapWord + 7))] } }

/-- Load everything the invisible package at `base` holds (R641). Bit 0 of its word `jitWord` is the ASCII/EBCDIC bit; that
a one means EBCDIC is the model's choice (R231, 91 N22; PRESUMED, log entry 9). -/
def State.loadInvisible (s : State) (base : Addr) : State :=
  let l := s.params.layout
  let w := s.pkgWord base
  let d := w l.domWord
  (({ s with
      bkpt := w l.bkptWord
      jit := rightHalf (w l.jitWord)
      dom := { s.dom with stackIndex := field d 0 13, stackLimit := field d 16 13, prev := field d 32 7,
                          cur := field d 48 7, ebcdic := bitAt (w l.jitWord) 0 } }).setDfr (w Layout.dfrWord)).loadRights base
    |>.goto (addrPart (w l.pWord))

/-- Store registers `n-1` to 0 of the file at absolute bit address `base`. -/
def State.storeRegs (s : State) (base : Nat) : Nat → State
  | 0 => s
  | n + 1 => (s.setAbsWord (base + 64 * n) (s.reg (BitVec.ofNat 8 n))).storeRegs base n

/-- Load the register file from absolute bit address `base`. -/
def State.loadRegs (s : State) (base : Nat) : State :=
  { s with regs := Vector.ofFn fun n => s.absWord (base + 64 * n.val) }

/-! ### Taking an exception, and the return from one (R640 to R642) -/

/-- Set bit `b` of the Interrupt Register (R630). -/
def State.post (s : State) (b : Nat) : State := { s with ir := setBitAt s.ir b true }

/-- The exchange from Job to Monitor mode with program address `saved` (R642): the invisible package and the job's
register file are stored, the Monitor's register file is loaded, DFR and breakpoint register are cleared, the
instruction stack is voided and execution goes on at the address in register #03. -/
def State.toMonitor (s : State) (saved : Addr) : State :=
  let s := s.storePkg s.invPkg (s.invisibleWords saved)
  let s := if s.jobRF = 0 then s else (s.storeRegs s.jobRF.toNat 256).loadRegs 0
  let s := ({ s with bkpt := 0, mode := .monitor, link := .none }).setDfr 0
  s.voidStack.goto (s.addr 3)

/-- The exchange from Monitor to Job mode (R641): the register file at `rf` (none if zero) and the invisible package at
`pkg`. -/
def State.toJob (s : State) (rf pkg : Addr) : State :=
  let s := { s with jobRF := rf, invPkg := pkg }
  let s := if rf = 0 then s else (s.storeRegs 0 256).loadRegs rf.toNat
  ({ s.loadInvisible pkg with mode := .job }).voidStack

/-- A Type One illegal instruction at `s.pc` (R633): in Job mode the exchange follows, in Monitor mode the CPU waits for
a Master Clear. -/
def State.typeOne (s : State) : State :=
  match s.mode with
  | .job => (s.post 58).toMonitor s.pc
  | .monitor => { s.post 58 with waits := .masterClear }

/-- A Type Two illegal instruction at `s.pc` (R634). -/
def State.typeTwo (s : State) : State := (s.post 59).toMonitor s.pc

/-- An access interrupt that leaves `left`, of the instruction at `pc` (R636, R640). -/
def State.accessInterrupt (left : State) (pc : Addr) : State := (left.post 61).toMonitor pc

/-- A failing communication buffer check (R637): in Job mode the exchange follows; in Monitor mode the bit stays
pending and execution goes on with the next instruction. -/
def State.bufferFault (s : State) (lockout limit : Bool) : State :=
  let t := if lockout then s.post 55 else s
  let t := if limit then t.post 56 else t
  match s.mode with
  | .job => t.toMonitor s.pc
  | .monitor => t.next64

/-- What an instruction at state `s` that was run as `r` comes to (R630, R640). -/
def settle (s : State) (r : Except Stop (Unit × State)) : Host.Outcome State Fault Refusal :=
  match r with
  | .ok (_, t) => .next t
  | .error (.access free) => .next (State.accessInterrupt { s with free := free } s.pc)
  | .error (.partly left) => .next (left.accessInterrupt s.pc)
  | .error .typeOne => .next s.typeOne
  | .error .typeTwo => .next s.typeTwo
  | .error (.buffer lockout limit) => .next (s.bufferFault lockout limit)
  | .error (.refuse r) => .refused r
  | .error (.fault f) => .fault f

/-- Run an instruction. -/
def run (m : M Unit) (s : State) : Host.Outcome State Fault Refusal := settle s (m s)

/-! ### Legality (R652) -/

/-- A Monitor-only instruction (R634). -/
def monitorOnly : M Unit := fun s => if s.mode = .job then .error .typeTwo else .ok ((), s)

/-- Does bit `b` of the Illegal Instruction Mask forbid the instruction? It has no effect in Monitor mode (R42). -/
def State.forbidden (s : State) (b : Nat) : Bool := s.mode = .job && bitAt s.dom.iim b

/-- An instruction with bit `b` of the Illegal Instruction Mask (R652). -/
def maskedBy (b : Nat) : M Unit := fun s => if s.forbidden b then .error .typeTwo else .ok ((), s)

/-- Bit of the Illegal Instruction Mask for a function code (R652). -/
def maskBit (f : Nat) : Option Nat :=
  match f with
  | 0x07 => some 3 | 0x08 => some 4 | 0x09 => some 5
  | 0x18 => some 10 | 0x19 => some 11 | 0x1A => some 12 | 0x1B => some 13
  | 0x57 => some 15
  | 0xFA => some 26 | 0xFB => some 27 | 0xFC => some 28 | 0xFD => some 29 | 0xFE => some 30 | 0xFF => some 31
  | _ => none

/-- Is function code `f` a Type Two illegal instruction at `s` (R634, R652)? -/
def State.isTypeTwo (s : State) (f : Nat) : Bool :=
  s.mode = .job && ([0x00, 0x0A, 0x0C, 0x0D, 0x0E, 0x0F].contains f ||
    match maskBit f with
    | some b => bitAt s.dom.iim b
    | none => false)

/-! ### Domain changes (R653, R654; their mechanics are in PUB-1005: log entry 10) -/

/-- The instrumentation counters as package words. -/
def State.counterWords (s : State) : List (Nat × Word) :=
  (List.finRange 8).map fun k => (s.params.layout.icWord + k.val, joinLen 0 s.ic[k])

/-- The breakpoint register is stored into the current invisible package at a domain change (R30, R202). -/
def State.saveBreakpoint (s : State) : State := s.storePkg s.invPkg [(s.params.layout.bkptWord, s.bkpt)]

/-- The forward domain change to the domain that `t` selects (R653); refused changes are Type Two illegal (R635). Bit `n`
from the left of the Forward Domain Change Mask belongs to Domain Package `n`: the spec does not say which bit does (91
N10); DESIGN CHOICE, log entry 10. -/
def forwardDomain (t : Word) : M Unit := fun s =>
  let target := Config.domainNumber t
  if !decide (s.dom.stackIndex.toNat < s.dom.stackLimit.toNat) then .error .typeTwo
  else if !bitAt s.dom.changeMask target.toNat then .error .typeTwo
  else
    let l := s.params.layout
    let stack := Config.stackedPackage s.dom.stackIndex s.invPkg
    let u := s.saveBreakpoint.storePkg stack
      [(l.pWord, joinLen 0 (s.pc + 32)), (l.bkptWord, s.bkpt), (Layout.dfrWord, s.dfr), (l.domWord, s.dom.word)]
    let u := u.storePkg (Config.domainPackage s.dom.cur s.invPkg) s.counterWords
    let u := { u with bkpt := 0, dom := { u.dom with
      stackIndex := s.dom.stackIndex + 1, prev := s.dom.cur, cur := target } }
    let base := Config.domainPackage target s.invPkg
    let u := (u.loadRights base).setDfr (u.pkgWord base Layout.dfrWord)
    .ok ((), u.voidStack.goto (addrPart (u.pkgWord base l.pWord)))

/-- The backward domain change (R654). -/
def backwardDomain : M Unit := fun s =>
  if s.dom.stackIndex = 0 then .error (.refuse .domainStackUnderflow)
  else
    let s := s.saveBreakpoint
    let l := s.params.layout
    let w := s.pkgWord (Config.stackedPackage (s.dom.stackIndex - 1) s.invPkg)
    let cur := field (w l.domWord) 48 7
    let base := Config.domainPackage cur s.invPkg
    let u := ({ s with
      bkpt := w l.bkptWord
      ic := Vector.ofFn fun k => addrPart (s.pkgWord base (l.icWord + k.val))
      dom := { s.dom with stackIndex := s.dom.stackIndex - 1, prev := field (w l.domWord) 32 7, cur := cur } }).loadRights base
    .ok ((), (u.setDfr (w Layout.dfrWord)).voidStack.goto (addrPart (w l.pWord)))

/-! ### Between two instructions -/

/-- A data flag branch that is due (R645): the return address goes to register #01, bit 52 is cleared and the program
goes on at the address in register #02. -/
def State.dataFlagBranch (s : State) : State :=
  if bitAt s.dfr 51 && bitAt s.dfr 52 then
    ((s.setReg 1 (joinLen 0 s.pc)).setFlag 52 false).goto (s.addr 2)
  else s

/-- The external interrupt bits of the configured CPUs and IOUs (R28, R206, R631). -/
def State.external (s : State) : Word := s.params.configured &&& 0xFF00FFC0FFC00000

/-- The IR bits that other agents set (R631): the external ones but this CPU's own, bits 53, 54 and 57, and bit 63 of
the Service Unit. Bit 60 is the Monitor Interval Timer's, the others are synchronous. -/
def State.asynchronous (s : State) : Word := setBitAt s.external s.params.cpuId.toNat false ||| 0x641

/-- The Monitor Interval Timer after `n` microseconds, and whether it reached zero (R660). -/
def State.tickMit (s : State) (n : Nat) : State :=
  if s.mit = 0 then s
  else if s.mit.toNat ≤ n then { s with mit := 0 }.post 60
  else { s with mit := s.mit - BitVec.ofNat 32 n }

/-- The Job Interval Timer after `n` ticks: it runs in Job mode and sets flag 36 on reaching zero (R34, decision D10). -/
def State.tickJit (s : State) (n : Nat) : State :=
  if s.mode = .monitor ∨ s.jit = 0 then s
  else if s.jit.toNat ≤ n then { s with jit := 0 }.setFlag 36 true
  else { s with jit := s.jit - BitVec.ofNat 32 n }

/-- How often a clock of `rate` ticks for each second ticks from `t` to `u` nanoseconds. -/
def clockTicks (rate t u : Nat) : Nat := u * rate / 10 ^ 9 - t * rate / 10 ^ 9

/-- `n` nanoseconds of environment time pass (R691): the Real-Time Clock runs at RTC_RATE, the Monitor Interval Timer at
1 MHz, the Job Interval Timer at JIT_RATE (R33 to R35, R660). -/
def State.passTime (s : State) (n : Nat) : State :=
  let u := { s with time := s.time + n
                    rtc := s.rtc + BitVec.ofNat 48 (clockTicks s.params.rtcRate s.time (s.time + n)) }
  (u.tickMit (clockTicks 1000000 s.time (s.time + n))).tickJit (clockTicks s.params.jitRate s.time (s.time + n))

/-- The interrupt network takes up the control words that #08 has sent: one that selects this CPU will arrive after a
finite delay, a free value (R206, R632; log entry 14). -/
def State.takeUp (s : State) : State :=
  let n := (s.sent.take (s.sent.length - s.taken)).countP (bitAt · s.params.cpuId.toNat)
  { s with taken := s.sent.length
           free := s.free + n
           arrivals := s.arrivals ++ (List.range n).map fun k => Config.delay (s.free + k) }

/-- Own interrupts on their way come one instruction nearer; one that arrives sets the bit of its sender, this CPU
(R632). -/
def State.arrive (s : State) : State :=
  let u := { s with arrivals := (s.arrivals.filter (· != 0)).map (· - 1) }
  if s.arrivals.contains 0 then u.post s.params.cpuId.toNat else u

/-- Bytes that another agent stores into CP memory; the instruction stack may keep what was there (R685). -/
def State.otherStores (s : State) : List (Nat × Byte) → State
  | [] => s
  | (a, v) :: rest => (s.putByte (s.wrap (8 * a)) v).otherStores rest

/-- Bytes that another agent stores into the communication buffer. -/
def State.otherBuffer (s : State) : List (Nat × Byte) → State
  | [] => s
  | (a, v) :: rest => { s with cb := Memory.setByte s.cb a v }.otherBuffer rest

/-- A change of Force Execution mode selects serial or parallel mode (R31). The spec does not say which mode is selected
when Force Execution mode ends: the one last forced stays (DESIGN CHOICE, log entry 34). -/
def State.forceMode (s : State) (f : ForceExec) : State :=
  match f with
  | .none => { s with forceExec := .none }
  | .serial => { s with forceExec := .serial, serial := true }.voidStack
  | .parallel => { s with forceExec := .parallel, serial := false }

/-- Master Clear (R680, decision D12). Everything else stays as it stands, the register file, both memories, the Job
Interval Timer, keys and domain registers among it: R48 and U1 leave these values open (DESIGN CHOICE, log entry 43). -/
def State.masterClear (s : State) : State :=
  (({ s with
      ir := 0, mit := 0, serial := s.forceExec = ForceExec.serial, mode := .monitor, link := .none, bkpt := 0, faultTest := 0,
      arValid := false, waits := .running, xfer := { s.xfer with busy := false, iqvf := false } }).setDfr 0).voidStack.goto
    (s.addr 3)

/-- What one entry of the tape of inputs does (R60, R630, R691). -/
def State.receive (s : State) (e : Input) : State :=
  let s := { s with ir := s.ir ||| (e.irq &&& s.asynchronous) }
  let s := ((s.passTime e.nanos).otherStores e.memWrites).otherBuffer e.cbWrites
  let s := match e.transfer with
    | some x => { s with xfer := x }
    | none => s
  let s := match e.force with
    | some f => s.forceMode f
    | none => s
  if e.masterClear then s.masterClear else s

/-- Read the next entry of the tape of inputs; an empty tape brings nothing. -/
def State.inputs (s : State) : State :=
  match s.env with
  | [] => s
  | e :: rest => { s with env := rest }.receive e

/-- The cycles of an instruction pass. The cycle counter goes on by a positive amount, a free value (R36). After at most
`lag` more instructions, a number that is a free value, the environment clock goes on by a nanosecond, so that a loaded
timer reaches zero after finitely many instructions (R691, decision D54; log entry 13). Interrupts of this CPU to itself
are on their way (R632). -/
def State.countCycles (s : State) : State :=
  (State.passTime { s with
      ic := s.ic.set 7 (s.ic[7] + 1 + BitVec.ofNat 48 (Config.cycles s.free))
      lag := if s.lag = 0 then Config.delay s.free else s.lag - 1
      free := s.free + 1 } (if s.lag = 0 then 1 else 0)).takeUp.arrive

/-- In Job mode a non-zero Interrupt Register causes the exchange to Monitor mode (R630, R640). -/
def State.interrupts (s : State) : State :=
  if s.mode = .job ∧ s.ir ≠ 0 then s.toMonitor s.pc else s

/-- The end of an instruction: time and the other agents, a data flag branch that is due, then interrupts (R643). -/
def State.between (s : State) : State :=
  s.countCycles.inputs.dataFlagBranch.interrupts

/-- What ends an Idle at `s` (R200, R665): the Trace Register gets its address, and the program goes on at the address in
register #03. -/
def State.endIdle (s : State) : State := (s.setReg 0 (joinLen 0 s.pc)).goto (s.addr 3)

/-- An idle CPU goes on when its Interrupt Register is not zero (R200). -/
def State.wake (s : State) : State :=
  if s.waits = .interrupt ∧ s.ir ≠ 0 then State.dataFlagBranch { s.endIdle with waits := .running } else s

end Sys2Proof.Machine
end

