-- ==== Sys2Proof/Machine/Operands.lean ====
section
/-! DEFINITION. Operand forms shared by the scalar instructions: results into registers, branch targets, the
subfunction `bboo0aa0`, shifts, bit strings. -/

namespace Sys2Proof.Machine

/-- What a meaning answers. -/
abbrev Result := Host.Outcome State Fault Refusal

/-! ### Results into registers -/

/-- `Reg[t] <- v`, then on to the next 32-bit instruction. -/
def State.put (s : State) (t : Byte) (v : Word) : Result := .next (s.setReg t v).next32

/-- `Reg32[t] <- v`, then on. -/
def State.put32 (s : State) (t : Byte) (v : Half) : Result := .next (s.setReg32 t v).next32

/-- A floating-point result into `Reg[t]` (R360): the value, the flags, on. -/
def State.putFp (s : State) (k : FlagKind) (t : Byte) (r : FpResult) : Result :=
  .next ((s.setReg t r.value).raiseFlags k r.flags).next32

/-- A 32-bit floating-point result into `Reg32[t]` (R310). -/
def State.putFp32 (s : State) (k : FlagKind) (t : Byte) (r : FpResult) : Result :=
  .next ((s.setReg32 t (rightHalf r.value)).raiseFlags k r.flags).next32

/-- A 32-bit register as an operand of the arithmetic, right-justified. -/
def State.operand32 (s : State) (n : Byte) : Word := 0#32 ++ s.reg32 n

/-- Is the operation a divide (its flags also set bit 58, R25)? -/
def FpOp.kind : FpOp → FlagKind
  | .div _ => .convert
  | _ => .scalar

/-- The scalar operations of two operands (R310, R360). -/
def State.binary64 (s : State) (op : FpOp) (r sd t : Byte) : Result :=
  s.putFp op.kind t (fpBinary .w64 op {} (s.reg r) (s.reg sd))

def State.binary32 (s : State) (op : FpOp) (r sd t : Byte) : Result :=
  s.putFp32 op.kind t (fpBinary .w32 op {} (s.operand32 r) (s.operand32 sd))

/-- A free value into `Reg[t]` (log entry 11). -/
def State.putFree (s : State) (t : Byte) : Result := { s with free := s.free + 1 }.put t (Config.freeWord s.free)

/-- A free value into `Reg32[t]`. -/
def State.putFree32 (s : State) (t : Byte) : Result :=
  { s with free := s.free + 1 }.put32 t (rightHalf (Config.freeWord s.free))

/-- The free data flags 53, 54, 55 (R24): each gets the given value, or a free value where the spec leaves it
undefined (U30). -/
def State.setFreeFlags (s : State) (f53 f54 f55 : Option Bool) : State :=
  let w := Config.freeWord s.free
  let d := setBitAt s.dfr 53 (f53.getD (bitAt w 53))
  let d := setBitAt d 54 (f54.getD (bitAt w 54))
  { s with free := s.free + 1 }.setDfr (setBitAt d 55 (f55.getD (bitAt w 55)))

/-! ### Branches (R260) -/

/-- `(base + (count << 5)) mod 2^48`. -/
def indexed (base count : Addr) : Addr := base + scaled 5 count

/-- Branch to `a` if `b`, else on to the next 32-bit instruction. -/
def State.branchIf (s : State) (b : Bool) (a : Addr) : Result := .next (if b then s.goto a else s.next32)

/-- Compare-and-branch #20 to #27: `sel` is the truth value the branch is taken on (R261). -/
def State.compareBranch (s : State) (c : Cmp) (sel : Cmp → Bool) (t : Byte) : Result :=
  (s.raiseFlags .scalar c.flags).branchIf (sel c) (s.addr t)

/-! ### The subfunction `bboo0aa0` (R293) -/

/-- Is the branch taken, with object bit `ob`? -/
def branchTaken (g : Byte) (ob : Bool) : Bool :=
  match bitAt g 0, bitAt g 1 with
  | false, false => false
  | false, true => true
  | true, false => ob
  | true, true => !ob

/-- The object bit after the alteration, none where there is no alteration. -/
def altered (g : Byte) (ob : Bool) : Option Bool :=
  match bitAt g 2, bitAt g 3 with
  | false, false => none
  | false, true => some (!ob)
  | true, false => some true
  | true, true => some false

/-- The branch target by the qualifiers `aa`; none where they are the unassigned pair 01. -/
def branchTarget (g : Byte) (pc absolute count : Addr) : Option Addr :=
  match bitAt g 5, bitAt g 6 with
  | false, false => some absolute
  | true, false => some (pc + scaled 5 count)
  | true, true => some (pc - scaled 5 count)
  | false, true => none

/-- Where the program goes on after a 32-bit instruction with subfunction `bboo0aa0`; none where that is undefined. -/
def afterBranch (g : Byte) (ob : Bool) (pc absolute count : Addr) : Option Addr :=
  if branchTaken g ob then branchTarget g pc absolute count else some (pc + 32)

/-! ### Shifts (R277, R281) -/

/-- The shift of #30, #34 and #8A: end-around left for counts 0 to #3F, right with sign extension for counts #C1 to
#FF; none for the counts between, whose result is undefined. -/
def shiftWord (v : Word) (count : Nat) : Option Word :=
  if count ≤ 0x3F then some (v.rotateLeft count)
  else if 0xC1 ≤ count then some (v.sshiftRight (256 - count))
  else none

/-- A value, or a free value where there is none, into `Reg[t]`. -/
def State.putOpt (s : State) (t : Byte) (v : Option Word) : Result :=
  match v with
  | some v => s.put t v
  | none => s.putFree t

/-! ### Immediates (R123) -/

/-- A signed immediate as a number of the right-most 48 bits, and as one of the right-most 24 bits. -/
def imm48of (im : BitVec 16) : BitVec 48 := im.signExtend 48
def imm24of (im : BitVec 16) : BitVec 24 := im.signExtend 24

/-! ### Memory computations that end an instruction -/

/-- Run `m`, then go on to the next 32-bit or 64-bit instruction. -/
def run32 (m : M Unit) (s : State) : Result := run (do m; update State.next32) s
def run64 (m : M Unit) (s : State) : Result := run (do m; update State.next64) s

/-- Write bits `src 0`, `src 1`, … to the `n` bits from `dst` (R246). -/
def fillBits (n : Nat) (dst : Addr) (src : Nat → M Bool) : M Unit :=
  elements n (fun k _ => do writeBit (dst + BitVec.ofNat 48 k) (← src k)) ()

end Sys2Proof.Machine
end

