-- ==== Sys2Proof/Machine/BitByte.lean ====
section
/-! DEFINITION. Instructions #10 to #1F: BCD conversion, byte access, bit fields, domain return, shared-memory control
(spec/42_bit_byte_sm.md). -/

namespace Sys2Proof.Machine

/-- Digit `k` of a BCD number, the most significant being digit 0 (R247). -/
def bcdDigit (b : Word) (k : Nat) : Nat := (field b (4 * k) 4).toNat

/-- The decimal value of the first `n` digits (R247). -/
def bcdValue (b : Word) : Nat → Nat
  | 0 => 0
  | n + 1 => 10 * bcdValue b n + bcdDigit b n

/-- Every digit is at most 9 and the sign code at least 10 (R230). -/
def bcdValid (b : Word) : Bool := (List.range 15).all (fun k => bcdDigit b k ≤ 9) && 10 ≤ bcdDigit b 15

/-- The number's value: the sign is negative for the codes #B and #D (R247). -/
def bcdInt (b : Word) : Int :=
  if bcdDigit b 15 = 11 ∨ bcdDigit b 15 = 13 then -(bcdValue b 15 : Int) else (bcdValue b 15 : Int)

/-- #10 Convert BCD to binary (R230). Out of range: flag 39 with bit 58, and a free value. An invalid BCD number: "the
results are undefined", so the register and flags 39 and 58 are free (log entry 22). -/
def execDtob (r t : Byte) (s : State) : Result :=
  let v := bcdInt (s.reg r)
  if !bcdValid (s.reg r) then
    let f := Config.freeWord s.free
    let s := { s with free := s.free + 1 }.setDfr (s.dfr ||| (f &&& (oneBit 64 39 ||| oneBit 64 58)))
    s.putFree t
  else if (2 ^ 47 : Int) ≤ v ∨ v < -(2 ^ 47 : Int) then
    (s.setDfr (s.dfr ||| oneBit 64 39 ||| oneBit 64 58)).putFree t
  else s.put t (joinLen 0 (BitVec.ofInt 48 v))

/-- The `n` low decimal digits of `m` as BCD. -/
def bcdDigits : Nat → Nat → Nat
  | 0, _ => 0
  | n + 1, m => m % 10 + 16 * bcdDigits n (m / 10)

/-- The sign code #11 generates (R231). That a one of the ASCII/EBCDIC bit means EBCDIC is the model's choice (91 N22;
PRESUMED, log entry 9). -/
def State.signCode (s : State) (negative : Bool) : BitVec 4 :=
  if s.mode = .job && s.dom.ebcdic then (if negative then 0xD else 0xC) else (if negative then 0xB else 0xA)

/-- #11 Convert binary to BCD (R231). -/
def execBtod (r t : Byte) (s : State) : Result :=
  let v := (s.addr r).toInt
  s.put t (BitVec.ofNat 60 (bcdDigits 15 v.natAbs) ++ s.signCode (v < 0))

/-- #12 Load byte (R232). -/
def execLodc (r sd t : Byte) (s : State) : Result :=
  run32 (do
    let v ← readByte (s.addr r + scaled 3 (s.addr sd))
    update (·.setReg t (0#56 ++ v))) s

/-- #13 Store byte (R233). -/
def execStoc (r sd t : Byte) (s : State) : Result :=
  run32 (writeByte (s.addr r + scaled 3 (s.addr sd)) ((s.reg t).extractLsb' 0 8)) s

/-- Bit `k` of the field at `a`. -/
def bitOf (a : Addr) (k : Nat) : M Bool := readBit (a + BitVec.ofNat 48 k)

/-- #14 Bit compress (R234). -/
def execCpsb (r sd t : Byte) (s : State) : Result :=
  let seg := s.len r
  let skip := s.len sd
  run32 (if seg = 0 then pure () else
    fillBits (s.len t) (s.addr t) fun k => bitOf (s.addr r) (k / seg * (seg + skip) + k % seg)) s

/-- Bit `k` of a second field that is zero-filled where its base address is zero (R235, R236). -/
def bitOrZero (a : Addr) (k : Nat) : M Bool := if a = 0 then pure false else bitOf a k

/-- #15 Bit merge (R235). -/
def execMrgb (r sd t : Byte) (s : State) : Result :=
  let m := s.len r
  let n := s.len sd
  run32 (if m = 0 ∨ n = 0 then pure () else
    fillBits (s.len t) (s.addr t) fun k =>
      let q := k / (m + n)
      let j := k % (m + n)
      if j < m then bitOf (s.addr r) (q * m + j) else bitOrZero (s.addr sd) (q * n + (j - m))) s

/-- #16 Bit mask (R236). -/
def execMaskb (r sd t : Byte) (s : State) : Result :=
  let m := s.len r
  let n := s.len sd
  run32 (if m = 0 ∨ n = 0 then pure () else
    fillBits (s.len t) (s.addr t) fun k =>
      if k % (m + n) < m then bitOf (s.addr r) k else bitOrZero (s.addr sd) k) s

/-- #17 Backward domain change (R237, R654). -/
def execExdom (s : State) : Result :=
  run (do refuseIf (s.mode = .monitor) .domainChangeInMonitor; backwardDomain) s

/-- #18 CQTA to (T), (S) to CQTA (R238). -/
def execSwcqta (sd t : Byte) (s : State) : Result :=
  run32 (do
    maskedBy 10
    update fun s => { s.setReg t (0#32 ++ s.xfer.cqta) with xfer := { s.xfer with cqta := rightHalf (s.reg sd) } }) s

/-- #19 Start I/O (R239). -/
def execStrtio (sd t : Byte) (s : State) : Result :=
  run32 (do
    maskedBy 11
    update fun s => { s with xfer := { s.xfer with
      iqha := rightHalf (s.reg sd), iqta := rightHalf (s.reg t), iqvf := true } }) s

/-- #1A Stop I/O (R240). With S = T "results are undefined": the register is free (log entry 23). -/
def execStopio (sd t : Byte) (s : State) : Result :=
  run32 (do
    maskedBy 12
    update fun s =>
      let u := if sd = t then { s with free := s.free + 1 }.setReg t (Config.freeWord s.free)
        else (s.setReg sd (0#32 ++ s.xfer.iqha)).setReg t (BitVec.ofBool s.xfer.iqvf ++ 0#31 ++ s.xfer.iqta)
      { u with xfer := { s.xfer with iqvf := false } }) s

/-- #1B Test I/O (R241). -/
def execTestio (t : Byte) (s : State) : Result :=
  run32 (do
    maskedBy 13
    update fun s =>
      let u := s.setReg t (BitVec.ofBool s.xfer.iqvf ++ BitVec.ofBool s.xfer.busy ++ s.xfer.fatal ++ 0#22 ++ s.xfer.trbsa)
      if !s.xfer.busy && bitAt s.xfer.fatal 0 then { u with xfer := { s.xfer with iqvf := false, fatal := 0 } } else u) s

/-- A repeated mask of `n` bits: `lead` bits of value `v`, then the opposite, in every `m` bits (R242, R243). -/
def repeatedMask (v : Bool) (lead m n : Nat) (dst : Addr) : M Unit :=
  if m = 0 then pure ()
  else do
    refuseIf (m < lead) .maskLength
    fillBits n dst fun k => pure (if k % m < lead then v else !v)

/-- #1C Form repeated bit mask with leading zeros (R242). -/
def execMaskz (r sd t : Byte) (s : State) : Result :=
  run32 (repeatedMask false (s.len r) (s.len sd) (s.len t) (s.addr t)) s

/-- #1D Form repeated bit mask with leading ones (R243). -/
def execMasko (r sd t : Byte) (s : State) : Result :=
  run32 (repeatedMask true (s.len r) (s.len sd) (s.len t) (s.addr t)) s

/-- The scan of #1E: the left-most bit, how many bits after it equal it, whether the scan goes on. -/
structure Leading where
  first : Bool := false
  count : Nat := 0
  going : Bool := true
deriving DecidableEq, Repr

/-- The left-most of `n` bits at `a`, and how many bits after it equal it (R244). -/
def leadingEquals (a : Addr) (n : Nat) : M Leading :=
  elements n (fun k c => do
    if c.going then
      let b ← bitOf a k
      if k = 0 then return ⟨b, 0, true⟩
      else if b = c.first then return { c with count := c.count + 1 } else return { c with going := false }
    else return c) {}

/-- #1E Count leading equals (R244). After an access interrupt flag 53 is as before (DESIGN CHOICE, log entry 18). -/
def execEnteq (r sd t : Byte) (s : State) : Result :=
  let a := s.addr r + s.addr sd
  run32 (if s.len r = 0 then pure () else do
    let c ← leadingEquals a (s.len r)
    update fun s => (s.setReg t (BitVec.ofNat 64 c.count)).setFreeFlags (some c.first) none none) s

/-- #1F Count ones (R245). -/
def execEnto (r sd t : Byte) (s : State) : Result :=
  let a := s.addr r + s.addr sd
  run32 (if s.len r = 0 then pure () else do
    let c ← elements (s.len r) (fun k c => do
      let b ← bitOf a k
      return c + b.toNat) 0
    update (·.setReg t (BitVec.ofNat 64 c))) s

end Sys2Proof.Machine
end

