-- ==== Sys2Proof/Machine/Branch.lean ====
section
/-! DEFINITION. Instructions #20 to #3F: compare-and-branch, registers, logic, shifts, bit branches, timers, index
arithmetic (spec/43_branch_register.md). -/

namespace Sys2Proof.Machine

/-- #20 Branch if equal, 32-bit floating point (R261). -/
def execBheq (r sd t : Byte) (s : State) : Result :=
  s.compareBranch (fpCompare .w32 (s.operand32 r) (s.operand32 sd)) Cmp.eq t

/-- #21 Branch if not equal (R262). -/
def execBhne (r sd t : Byte) (s : State) : Result :=
  s.compareBranch (fpCompare .w32 (s.operand32 r) (s.operand32 sd)) Cmp.ne t

/-- #22 Branch if greater or equal (R263). -/
def execBhge (r sd t : Byte) (s : State) : Result :=
  s.compareBranch (fpCompare .w32 (s.operand32 r) (s.operand32 sd)) Cmp.ge t

/-- #23 Branch if less (R264). -/
def execBhlt (r sd t : Byte) (s : State) : Result :=
  s.compareBranch (fpCompare .w32 (s.operand32 r) (s.operand32 sd)) Cmp.lt t

/-- #24 Branch if equal, 64-bit floating point (R265). -/
def execBeq (r sd t : Byte) (s : State) : Result := s.compareBranch (fpCompare .w64 (s.reg r) (s.reg sd)) Cmp.eq t

/-- #25 Branch if not equal (R266). -/
def execBne (r sd t : Byte) (s : State) : Result := s.compareBranch (fpCompare .w64 (s.reg r) (s.reg sd)) Cmp.ne t

/-- #26 Branch if greater or equal (R267). -/
def execBge (r sd t : Byte) (s : State) : Result := s.compareBranch (fpCompare .w64 (s.reg r) (s.reg sd)) Cmp.ge t

/-- #27 Branch if less (R268). -/
def execBlt (r sd t : Byte) (s : State) : Result := s.compareBranch (fpCompare .w64 (s.reg r) (s.reg sd)) Cmp.lt t

/-- How many of the `n` bytes from item `idx` of the field at `a` come before the first equal to `v`, and whether none
is (R269). -/
def scanBytes (v : Byte) (a idx : Addr) (n : Nat) : M (Nat × Bool) :=
  elements n (fun k (c, going) => do
    if going then
      let b ← readByte (a + scaled 3 (idx + BitVec.ofNat 48 k))
      if b = v then return (c, false) else return (c + 1, true)
    else return (c, false)) (0, true)

/-- #28 Scan for equal byte (R269): the R designator is the byte. After an access interrupt flag 53 is as before (DESIGN
CHOICE, log entry 18). -/
def execScnleq (r sd t : Byte) (s : State) : Result :=
  run32 (if s.len t = 0 then pure () else do
    let c ← scanBytes r (s.addr t) (s.addr sd) (s.len t)
    update fun s =>
      (s.setReg sd (joinLen (lenPart (s.reg sd)) (s.addr sd + BitVec.ofNat 48 c.1))).setFreeFlags (some c.2) none none) s

/-- #29 Instrumentation counter 7 to (T) (R270). -/
def execTfc (t : Byte) (s : State) : Result := s.put t (joinLen 0 s.ic[7])

/-- #2A Enter length of (R) (R271). -/
def execElen (r : Byte) (im : BitVec 16) (s : State) : Result := s.put r (joinLen im (s.addr r))

/-- #2B Add to length field (R272). -/
def execAddlen (r sd t : Byte) (s : State) : Result :=
  s.put t (joinLen (lenPart (s.reg r) + (s.reg sd).extractLsb' 0 16) (s.addr r))

/-- #2C Exclusive OR (R273). -/
def execRxor (r sd t : Byte) (s : State) : Result := s.put t (s.regOrMz r ^^^ s.regOrMz sd)

/-- #2D AND (R274). -/
def execRand (r sd t : Byte) (s : State) : Result := s.put t (s.regOrMz r &&& s.regOrMz sd)

/-- #2E Inclusive OR (R275). -/
def execRior (r sd t : Byte) (s : State) : Result := s.put t (s.regOrMz r ||| s.regOrMz sd)

/-- Bit 63 of register `t` altered as a subfunction `bboo0aa0` says (R293). -/
def State.alterBit (s : State) (g t : Byte) : State :=
  match altered g (bitAt (s.reg t) 63) with
  | some b => s.setReg t (setBitAt (s.reg t) 63 b)
  | none => s

/-- #2F Register bit branch and alter (R276): the object bit is bit 63 of `Reg[t]`. The branch address is read after the
object bit is altered (R293). -/
def execBarb (g sd t : Byte) (s : State) : Result :=
  let u := s.alterBit g t
  match afterBranch g (bitAt (s.reg t) 63) s.pc (u.addr sd) (u.addr sd) with
  | none => .refused .branchQualifier
  | some a => .next (u.goto a)

/-- #30 Shift (R) per the S designator to (T) (R277). -/
def execShifti (r sd t : Byte) (s : State) : Result := s.putOpt t (shiftWord (s.regOrMz r) sd.toNat)

/-- The common part of #31 and #35 (R278, R282): register R has got the count `v`; branch to S + T unless `v` is zero.
Where R is S or T the branch address is undefined: a free value (log entry 24). -/
def State.countBranch (s : State) (r sd t : Byte) (v : Addr) : Result :=
  let u := s.setReg r (joinLen (lenPart (s.reg r)) v)
  if v = 0 then .next u.next32
  else if r = sd ∨ r = t then .next ({ u with free := s.free + 1 }.goto (addrPart (Config.freeWord s.free)))
  else .next (u.goto (indexed (s.addr t) (s.addr sd)))

/-- #31 Increase (R) and branch if not zero (R278). -/
def execIbnz (r sd t : Byte) (s : State) : Result := s.countBranch r sd t (s.addr r + 1)

/-- #32 Bit branch and alter (R279): the object bit is the bit of CP memory at `Addr(S)`. -/
def execBab (g sd t : Byte) (s : State) : Result :=
  run (do
    let ob ← readBit (s.addr sd)
    match altered g ob with
    | some b => writeBit (s.addr sd) b
    | none => pure ()
    match afterBranch g ob s.pc (s.addr t) (t.setWidth 48) with
    | none => refuse .branchQualifier
    | some a => update (·.goto a)) s

/-- #33 Data flag register bit branch and alter (R280): the object bit is `DFR[im]`. "The result of any instruction" that
samples or alters an undefined bit "is undefined" (R20): the object bit and the bit stored are free values (log entry
30). -/
def execBadf (g : Byte) (im : BitVec 6) (t : Byte) (s : State) : Result :=
  let undef := bitAt undefinedMask im.toNat
  let f := Config.freeWord s.free
  let u := if undef then { s with free := s.free + 1 } else s
  let ob := if undef then bitAt f 0 else bitAt s.dfr im.toNat
  match afterBranch g ob s.pc (s.addr t) (t.setWidth 48) with
  | none => .refused .branchQualifier
  | some a =>
    .next (match altered g ob with
      | some b => (u.setFlag im.toNat (if undef then bitAt f 1 else b)).goto a
      | none => u.goto a)

/-- #34 Shift (R) per (S) to (T) (R281). -/
def execShift (r sd t : Byte) (s : State) : Result :=
  s.putOpt t (shiftWord (s.regOrMz r) ((s.reg sd).extractLsb' 0 8).toNat)

/-- #35 Decrease (R) and branch if not zero (R282). -/
def execDbnz (r sd t : Byte) (s : State) : Result := s.countBranch r sd t (s.addr r - 1)

/-- The branch to a subroutine of #36 (R283). -/
def State.subroutine (s : State) (r sd t : Byte) : Result :=
  let next := s.pc + 32
  let index := if sd = 0 then 0 else s.addr sd
  let u := s.setReg r (joinLen 0 next)
  .next (if index = 0 then u.goto next
    else if r = t then u.goto (indexed next index)
    else u.goto (indexed (s.addr t) index))

/-- #36 Branch or forward domain change (R283, R653). With R = T and bit 0 of register T set the branch is relative, as
R283 says, and no exception, although 93 section 2 lists it as one (log entry 29). -/
def execBsave (r sd t : Byte) (s : State) : Result :=
  if !bitAt (s.reg t) 0 || r = t then
    if r = sd ∧ r ≠ 0 then .refused .branchRegisterSame else s.subroutine r sd t
  else if s.mode = .monitor then .refused .domainChangeInMonitor
  else run (forwardDomain (s.reg t)) s

/-- #37 Job Interval Timer to (T) (R284). -/
def execRjtime (t : Byte) (s : State) : Result :=
  if s.mode = .monitor then .refused .jitInMonitor else s.put t (0#32 ++ s.jit)

/-- #38 Length of (R) to length of (T) (R285). -/
def execLtol (r t : Byte) (s : State) : Result := s.put t (joinLen (lenPart (s.reg r)) (s.addr t))

/-- #39 Real-Time Clock to (T) (R286). -/
def execClock (t : Byte) (s : State) : Result := s.put t (joinLen 0 s.rtc)

/-- #3A (R) to Job Interval Timer (R287): a no-op in Monitor mode. -/
def execWjtime (r : Byte) (s : State) : Result :=
  .next (if s.mode = .job then { s with jit := rightHalf (s.reg r) }.next32 else s.next32)

/-- #3B Data Flag Register load/store (R288). Ones for undefined bits of the DFR: those bits become a free value (R20,
log entry 30). -/
def execLsdfr (r t : Byte) (s : State) : Result :=
  let v := s.reg r
  if v &&& undefinedMask = 0 then .next ((s.setReg t s.dfr).setDfr v).next32
  else
    let w := (v &&& ~~~undefinedMask) ||| (Config.freeWord s.free &&& undefinedMask)
    .next (({ s with free := s.free + 1 }.setReg t s.dfr).setDfr w).next32

/-- A product in `w` bits, none where it is out of range (R289, R290). -/
def indexProduct {w : Nat} (x y : BitVec w) : Option (BitVec w) :=
  let p := x.toInt * y.toInt
  if -(2 ^ (w - 1) : Int) ≤ p ∧ p < (2 ^ (w - 1) : Int) then some (BitVec.ofInt w p) else none

/-- #3C Half-word index multiply (R289). -/
def execMpyxh (r sd t : Byte) (s : State) : Result :=
  match indexProduct ((s.reg32 r).extractLsb' 0 24) ((s.reg32 sd).extractLsb' 0 24) with
  | some p => s.put32 t (0#8 ++ p)
  | none => s.putFree32 t

/-- #3D Index multiply (R290). -/
def execMpyx (r sd t : Byte) (s : State) : Result :=
  s.putOpt t ((indexProduct (s.addr r) (s.addr sd)).map (joinLen 0))

/-- #3E Enter (R) with a 16-bit immediate (R291). -/
def execEs (r : Byte) (im : BitVec 16) (s : State) : Result := s.put r (joinLen 0 (imm48of im))

/-- #3F Increase (R) by a 16-bit immediate (R292). -/
def execIs (r : Byte) (im : BitVec 16) (s : State) : Result :=
  s.put r (joinLen (lenPart (s.reg r)) (s.addr r + imm48of im))

end Sys2Proof.Machine
end

