-- ==== Sys2Proof/Machine/Vector.lean ====
section
/-! DEFINITION. Vector operand addressing and instructions #80 to #9D (spec/46_vector.md). -/

namespace Sys2Proof.Machine

/-! ### Qualifiers of the G byte (R117, R119) -/

/-- The operand width by G-bit 0, `h` (R410). -/
def gWidth (g : Byte) : Width := if bitAt g 0 then .w32 else .w64

/-- The sign control bits, G-bits 5, 6, 7 (R120). -/
def gSign (g : Byte) : Sign := ⟨bitAt g 5, bitAt g 6, bitAt g 7⟩

/-! ### Elements -/

/-- `RegW[d]`: a register of the operand width, right-justified. -/
def State.regW (s : State) (w : Width) (d : Byte) : Word :=
  match w with
  | .w32 => s.operand32 d
  | .w64 => s.reg d

/-- `RegW[d] <- v`. -/
def State.setRegW (s : State) (w : Width) (d : Byte) (v : Word) : State :=
  match w with
  | .w32 => s.setReg32 d (rightHalf v)
  | .w64 => s.setReg d v

/-- `MemRead(a, W)`. -/
def readElem (w : Width) (a : Addr) : M Word :=
  match w with
  | .w32 => do return 0#32 ++ (← readHalf a)
  | .w64 => readWord a

/-- `MemWrite(a, W, v)`. -/
def writeElem (w : Width) (a : Addr) (v : Word) : M Unit :=
  match w with
  | .w32 => writeHalf a (rightHalf v)
  | .w64 => writeWord a v

/-- The address of item `i` of a field of elements that begins at `a`. -/
def itemAddr (w : Width) (a : Addr) (i : Nat) : Addr := a + scaled w.shift (BitVec.ofNat 48 i)

/-- A free value of the width. -/
def freeElem (w : Width) : M Word := do
  let v ← drawFree
  return match w with
    | .w32 => 0#32 ++ rightHalf v
    | .w64 => v

/-- Normalized one (R416). -/
def normalizedOne : Width → Word
  | .w32 => 0xEA400000
  | .w64 => 0xFFD2400000000000

/-! ### Streams (R411, R412) -/

/-- A source stream: a broadcast constant, or the elements of a field. -/
inductive Stream where
  | const (v : Word)
  | vec (start : Addr) (len : Nat)
deriving DecidableEq, Repr

/-- The offset in register `x`: none for designator #00 (decision D34). -/
def State.offsetOf (s : State) (x : Byte) : Nat := if x = 0 then 0 else (s.addr x).toNat

/-- The offset in register `x`; undefined if it is over 16 bits long (R411). -/
def offset (x : Byte) : M Nat := do
  let s ← get
  refuseIf (0x10000 ≤ s.offsetOf x) .vectorOffsetRange
  return s.offsetOf x

/-- The source stream of descriptor register `a` with offset register `x`. -/
def State.streamOf (s : State) (w : Width) (broadcast : Bool) (a x : Byte) : Stream :=
  if broadcast then .const (s.regW w a) else .vec (itemAddr w (s.addr a) (s.offsetOf x)) (s.len a - s.offsetOf x)

/-- The source stream; with broadcast the offset is ignored. -/
def source (w : Width) (broadcast : Bool) (a x : Byte) : M Stream := do
  if broadcast then pure () else do
    let _ ← offset x
  return (← get).streamOf w broadcast a x

/-- Element `i` of a stream, extended with `ext` past its end (R416). -/
def Stream.elem (st : Stream) (w : Width) (ext : Word) (i : Nat) : M Word :=
  match st with
  | .const v => pure v
  | .vec start len => if i < len then readElem w (itemAddr w start i) else pure ext

/-- How many elements a stream has; none for a constant, which has no length (R550). -/
def Stream.length : Stream → Option Nat
  | .const _ => none
  | .vec _ len => some len

/-! ### Destination and control vector (R413, R414) -/

/-- A destination field: its first element, how many elements it has, and the offset that also moves the control
vector. -/
structure Dest where
  start : Addr
  len : Nat
  off : Nat
deriving DecidableEq, Repr

/-- The destination field of register `c`, with the offset of register `c + 1` where `o` is set. A designator of zero
has no destination (decision D35). -/
def State.destOf (s : State) (w : Width) (o : Bool) (c : Byte) : Dest :=
  if c = 0 then ⟨0, 0, 0⟩
  else if o then
    let off := (s.addr (c + 1)).toNat
    ⟨itemAddr w (s.addr c) off, s.len c - off, off⟩
  else ⟨s.addr c, s.len c, 0⟩

/-- The destination field; with `o` register C must be even and the offset at most 16 bits long. -/
def dest (w : Width) (o : Bool) (c : Byte) : M Dest := do
  let s ← get
  refuseIf (c != 0 && o && bitAt c 7) .oddCWithOffset
  refuseIf (c != 0 && o && 0x10000 ≤ (s.addr (c + 1)).toNat) .vectorOffsetRange
  return s.destOf w o c

/-- A control vector: its first bit (none: every element is permissive), and whether it works on zeros. -/
structure Control where
  base : Option Addr
  onZero : Bool
deriving DecidableEq, Repr

/-- The control vector of register `z` and G-bit 1. -/
def State.control (s : State) (g z : Byte) (off : Nat) : Control :=
  ⟨if z = 0 then none else some (s.addr z + BitVec.ofNat 48 off), bitAt g 1⟩

/-- `permissive(i)`. -/
def Control.permits (ctl : Control) (i : Nat) : M Bool :=
  match ctl.base with
  | none => pure true
  | some a => do return (← readBit (a + BitVec.ofNat 48 i)) != ctl.onZero

/-! ### Execution (R415) -/

/-- Store a result element and apply its flags (R420). -/
def storeElem (w : Width) (a : Addr) (r : FpResult) : M Unit := do
  writeElem w a r.value
  update (·.raiseFlags .vector r.flags)

/-- The loop of R415: element `i` of the destination is computed, and stored where the control vector permits. -/
def vectorLoop (wc : Width) (d : Dest) (ctl : Control) (elem : Nat → M FpResult) : M Unit :=
  elements d.len (fun i _ => do
    let r ← elem i
    if ← ctl.permits i then storeElem wc (itemAddr wc d.start i) r) ()

/-- A two-source vector instruction with operation `f` and extension `ext` (R415). -/
def vector2 (w : Width) (ext : Word) (f : Word → Word → M FpResult) (g x a y b z c : Byte) (s : State) : Result :=
  run64 (do
    let as ← source w (bitAt g 3) a x
    let bs ← source w (bitAt g 4) b y
    let d ← dest w (bitAt g 2) c
    vectorLoop w d (s.control g z d.off) fun i => do f (← as.elem w ext i) (← bs.elem w ext i)) s

/-- A one-source vector instruction, from elements of width `wa` to elements of width `wc` (R415). -/
def vector1 (wa wc : Width) (f : Word → M FpResult) (g x a z c : Byte) (s : State) : Result :=
  run64 (do
    let as ← source wa (bitAt g 3) a x
    let d ← dest wc (bitAt g 2) c
    vectorLoop wc d (s.control g z d.off) fun i => do f (← as.elem wa (machineZero wa) i)) s

/-! ### Element operations -/

/-- A floating-point operation with sign control. -/
def fpElem (op : FpOp) (g : Byte) (x y : Word) : M FpResult := pure (fpBinary (gWidth g) op (gSign g) x y)

/-- A result without flags. -/
def plain (v : Word) : M FpResult := pure ⟨v, {}⟩

/-- Address addition and subtraction (R424, R428). -/
def addxElem (x y : Word) : M FpResult := plain (joinLen (lenPart x) (addrPart x + addrPart y))
def subxElem (x y : Word) : M FpResult := plain (joinLen (lenPart x) (addrPart x - addrPart y))

/-- Shift (R431): for an undefined count the result is a free value. -/
def shiftElem (x y : Word) : M FpResult :=
  match shiftWord x (y.extractLsb' 0 8).toNat with
  | some v => plain v
  | none => do plain (← drawFree)

/-- Truncate, floor, ceiling (R435 to R437). -/
def roundElem (m : Rounding) (g : Byte) (x : Word) : M FpResult := pure (fpRound (gWidth g) m x)

/-- Square root with sign control on the A stream; the significance count is taken before it (R438). -/
def sqrtElem (g : Byte) (x : Word) : M FpResult :=
  pure (fpSqrt (gWidth g) (sigOf (gWidth g) x) ((gSign g).onA (gWidth g) (unpack (gWidth g) x)))

/-- The flags that a result of undefined value has: 46 and 43 as its class says, 42 as a free value says. -/
def freeFlagsOf (w : Width) (v choice : Word) : FpFlags :=
  match unpack w v with
  | .ind => { indefinite := true, overflow := bitAt choice 0 }
  | .mz => flagZero
  | .normal _ _ => {}

/-- Adjust significance (R439): "the result is undefined" for a count larger than the coefficient, so that element and
its flags are free (log entry 27). -/
def adjsElem (g : Byte) (x y : Word) : M FpResult :=
  match fpAdjs (gWidth g) x (coefOf (gWidth g) y) with
  | some r => pure r
  | none => do
    let v ← freeElem (gWidth g)
    return ⟨v, freeFlagsOf (gWidth g) v (← drawFree)⟩

/-- Adjust exponent (R440), pack (R446). -/
def adjeElem (g : Byte) (x y : Word) : M FpResult :=
  pure (fpAdje (gWidth g) (unpack (gWidth g) x) (unpack (gWidth g) y))
def packElem (g : Byte) (x y : Word) : M FpResult := plain (fpPack (gWidth g) x y)

/-- The right end of a word that an element of the width occupies. -/
def narrow (w : Width) (v : Word) : Word :=
  match w with
  | .w32 => 0#32 ++ rightHalf v
  | .w64 => v

/-- The eight logical operations of #9D (R448). -/
def logicElem (f : Word → Word → Word) (g : Byte) (x y : Word) : M FpResult := plain (narrow (gWidth g) (f x y))

/-! ### The instructions -/

/-- #80 Add, upper result (R421). -/
def execAdduv (g x a y b z c : Byte) (s : State) : Result :=
  vector2 (gWidth g) (machineZero (gWidth g)) (fpElem (.add .upper) g) g x a y b z c s

/-- #81 Add, lower result (R422). -/
def execAddlv (g x a y b z c : Byte) (s : State) : Result :=
  vector2 (gWidth g) (machineZero (gWidth g)) (fpElem (.add .lower) g) g x a y b z c s

/-- #82 Add, normalized result (R423). -/
def execAddnv (g x a y b z c : Byte) (s : State) : Result :=
  vector2 (gWidth g) (machineZero (gWidth g)) (fpElem (.add .norm) g) g x a y b z c s

/-- #83 Add address (R424). -/
def execAddxv (g x a y b z c : Byte) (s : State) : Result :=
  vector2 .w64 mz64 (addxElem) g x a y b z c s

/-- #84 Subtract, upper result (R425). -/
def execSubuv (g x a y b z c : Byte) (s : State) : Result :=
  vector2 (gWidth g) (machineZero (gWidth g)) (fpElem (.sub .upper) g) g x a y b z c s

/-- #85 Subtract, lower result (R426). -/
def execSublv (g x a y b z c : Byte) (s : State) : Result :=
  vector2 (gWidth g) (machineZero (gWidth g)) (fpElem (.sub .lower) g) g x a y b z c s

/-- #86 Subtract, normalized result (R427). -/
def execSubnv (g x a y b z c : Byte) (s : State) : Result :=
  vector2 (gWidth g) (machineZero (gWidth g)) (fpElem (.sub .norm) g) g x a y b z c s

/-- #87 Subtract address (R428). -/
def execSubxv (g x a y b z c : Byte) (s : State) : Result :=
  vector2 .w64 mz64 (subxElem) g x a y b z c s

/-- #88 Multiply, upper result (R429). -/
def execMpyuv (g x a y b z c : Byte) (s : State) : Result :=
  vector2 (gWidth g) (normalizedOne (gWidth g)) (fpElem (.mul .upper) g) g x a y b z c s

/-- #89 Multiply, lower result (R430). -/
def execMpylv (g x a y b z c : Byte) (s : State) : Result :=
  vector2 (gWidth g) (normalizedOne (gWidth g)) (fpElem (.mul .lower) g) g x a y b z c s

/-- #8A Shift element (R431). -/
def execShiftv (g x a y b z c : Byte) (s : State) : Result :=
  vector2 .w64 mz64 (shiftElem) g x a y b z c s

/-- #8B Multiply, significant result (R432). -/
def execMpysv (g x a y b z c : Byte) (s : State) : Result :=
  vector2 (gWidth g) (normalizedOne (gWidth g)) (fpElem (.mul .signif) g) g x a y b z c s

/-- #8C Divide, upper result (R433). -/
def execDivuv (g x a y b z c : Byte) (s : State) : Result :=
  vector2 (gWidth g) (normalizedOne (gWidth g)) (fpElem (.div .upper) g) g x a y b z c s

/-- #8F Divide, significant result (R434). -/
def execDivsv (g x a y b z c : Byte) (s : State) : Result :=
  vector2 (gWidth g) (normalizedOne (gWidth g)) (fpElem (.div .signif) g) g x a y b z c s

/-- #90 Truncate (R435). -/
def execTruv (g x a z c : Byte) (s : State) : Result :=
  vector1 (gWidth g) (gWidth g) (roundElem .trunc g) g x a z c s

/-- #91 Floor (R436). -/
def execFlrv (g x a z c : Byte) (s : State) : Result :=
  vector1 (gWidth g) (gWidth g) (roundElem .floor g) g x a z c s

/-- #92 Ceiling (R437). -/
def execClgv (g x a z c : Byte) (s : State) : Result :=
  vector1 (gWidth g) (gWidth g) (roundElem .ceil g) g x a z c s

/-- #93 Significant square root (R438). -/
def execSqrtv (g x a z c : Byte) (s : State) : Result :=
  vector1 (gWidth g) (gWidth g) (sqrtElem g) g x a z c s

/-- #94 Adjust significance (R439). -/
def execAdjsv (g x a y b z c : Byte) (s : State) : Result :=
  vector2 (gWidth g) (machineZero (gWidth g)) (adjsElem g) g x a y b z c s

/-- #95 Adjust exponent (R440). -/
def execAdjev (g x a y b z c : Byte) (s : State) : Result :=
  vector2 (gWidth g) (machineZero (gWidth g)) (adjeElem g) g x a y b z c s

/-- #96 Contract (R441). -/
def execConv (g x a z c : Byte) (s : State) : Result :=
  vector1 .w64 .w32 (fun x => pure (fpContract false x)) g x a z c s

/-- #97 Rounded contract (R442). -/
def execRconv (g x a z c : Byte) (s : State) : Result :=
  vector1 .w64 .w32 (fun x => pure (fpContract true x)) g x a z c s

/-- #98 Transmit element (R443). -/
def execVtov (g x a z c : Byte) (s : State) : Result :=
  vector1 (gWidth g) (gWidth g) (plain) g x a z c s

/-- #99 Move absolute (R444). -/
def execAbsv (g x a z c : Byte) (s : State) : Result :=
  vector1 (gWidth g) (gWidth g) (fun x => pure (fpAbs (gWidth g) x)) g x a z c s

/-- #9A Move exponent (R445). -/
def execExpv (g x a z c : Byte) (s : State) : Result :=
  vector1 (gWidth g) (gWidth g) (fun x => plain (fpExp (gWidth g) x)) g x a z c s

/-- #9B Pack (R446). -/
def execPackv (g x a y b z c : Byte) (s : State) : Result :=
  vector2 (gWidth g) (machineZero (gWidth g)) (packElem g) g x a y b z c s

/-- #9C Extend, 32 to 64 bits (R447). -/
def execExtv (g x a z c : Byte) (s : State) : Result :=
  vector1 .w32 .w64 (fun x => pure (fpExtend x)) g x a z c s

/-- #9D Logical operation (R448). -/
def execXorv (g x a y b z c : Byte) (s : State) : Result :=
  vector2 (gWidth g) (machineZero (gWidth g)) (logicElem (fun x y => x ^^^ y) g) g x a y b z c s

/-- #9D Logical operation (R448). -/
def execAndv (g x a y b z c : Byte) (s : State) : Result :=
  vector2 (gWidth g) (machineZero (gWidth g)) (logicElem (fun x y => x &&& y) g) g x a y b z c s

/-- #9D Logical operation (R448). -/
def execIorv (g x a y b z c : Byte) (s : State) : Result :=
  vector2 (gWidth g) (machineZero (gWidth g)) (logicElem (fun x y => x ||| y) g) g x a y b z c s

/-- #9D Logical operation (R448). -/
def execNandv (g x a y b z c : Byte) (s : State) : Result :=
  vector2 (gWidth g) (machineZero (gWidth g)) (logicElem (fun x y => ~~~(x &&& y)) g) g x a y b z c s

/-- #9D Logical operation (R448). -/
def execNorv (g x a y b z c : Byte) (s : State) : Result :=
  vector2 (gWidth g) (machineZero (gWidth g)) (logicElem (fun x y => ~~~(x ||| y)) g) g x a y b z c s

/-- #9D Logical operation (R448). -/
def execOrnv (g x a y b z c : Byte) (s : State) : Result :=
  vector2 (gWidth g) (machineZero (gWidth g)) (logicElem (fun x y => x ||| ~~~y) g) g x a y b z c s

/-- #9D Logical operation (R448). -/
def execAndnv (g x a y b z c : Byte) (s : State) : Result :=
  vector2 (gWidth g) (machineZero (gWidth g)) (logicElem (fun x y => x &&& ~~~y) g) g x a y b z c s

/-- #9D Logical operation (R448). -/
def execXornv (g x a y b z c : Byte) (s : State) : Result :=
  vector2 (gWidth g) (machineZero (gWidth g)) (logicElem (fun x y => ~~~(x ^^^ y)) g) g x a y b z c s

end Sys2Proof.Machine
end

