-- ==== Sys2Proof/Machine/Compare.lean ====
section
/-! DEFINITION. Compare and branch or set condition, #B0 to #B5; immediate branch and index, #B6, #BE, #BF; scatter,
reverse and gather, #B7, #B8, #BA; mask, compress and merge, #BB to #BD (spec/47_sparse_compare_index.md). -/

namespace Sys2Proof.Machine

/-! ### #B0 to #B5 (R490 to R494) -/

/-- The branch target of the branch forms (R491); none for the unassigned qualifier pair. -/
def compareTarget (g y b : Byte) (s : State) : Option Addr :=
  branchTarget g s.pc (indexed (s.addr b) (s.addr y)) (0#32 ++ y ++ b)

/-- Branch where the comparison is met, else on to the next 64-bit instruction. -/
def branchMet (met : Bool) (target : Option Addr) (s : State) : Result :=
  if met then
    match target with
    | some a => .next (s.goto a)
    | none => .refused .branchQualifier
  else .next s.next64

/-- An integer comparison: the value for register C and the two numbers compared (R492). -/
structure IntCompare where
  value : Word
  left : Int
  right : Int
deriving DecidableEq, Repr

/-- A number of `w` bits, unsigned or in two's complement. -/
def numberOf {w : Nat} (unsigned : Bool) (x : BitVec w) : Int := if unsigned then x.toNat else x.toInt

/-- The integer sum and the operands of the comparison (R492); `fwc` compares whole words. -/
def intCompare (g x a z : Byte) (fwc : Bool) (s : State) : IntCompare :=
  let usi := bitAt g 4
  match gWidth g with
  | .w64 =>
    let av := s.regOrMz a
    let zv := if z = 0 then 0 else s.reg z
    let sum := addrPart av + addrPart (s.regOrMz x)
    let cv := joinLen (lenPart av) sum
    if fwc then ⟨cv, numberOf usi cv, numberOf usi zv⟩ else ⟨cv, numberOf usi sum, numberOf usi (addrPart zv)⟩
  | .w32 =>
    let av := s.reg32OrMz a
    let zv := if z = 0 then 0 else s.reg32 z
    let sum := av.extractLsb' 0 24 + (s.reg32OrMz x).extractLsb' 0 24
    ⟨0#32 ++ av.extractLsb' 24 8 ++ sum, numberOf usi sum, numberOf usi (zv.extractLsb' 0 24)⟩

/-- `fwc` together with `h` is undefined (R492). -/
def badCompare (g : Byte) (fwc : Bool) : Bool := fwc && bitAt g 0

/-- The integer compare-and-branch form: all sources are read before C is written (decision D40). -/
def intBranch (fwc : Bool) (cond : Int → Int → Bool) (g x a y b z c : Byte) (s : State) : Result :=
  if badCompare g fwc then .refused .compareQualifier
  else
    let v := intCompare g x a z fwc s
    branchMet (cond v.left v.right) (compareTarget g y b s) (s.setRegW (gWidth g) c v.value)

/-- The condition code (R494). -/
def conditionCode (met : Bool) : Word := if met then 1 else 0

/-- The integer compare-and-set-condition form: C is written before Y (decision D40). -/
def intSet (fwc : Bool) (cond : Int → Int → Bool) (g x a y z c : Byte) (s : State) : Result :=
  if badCompare g fwc then .refused .compareQualifier
  else if c = z then .refused .sameRegister
  else
    let v := intCompare g x a z fwc s
    .next ((s.setRegW (gWidth g) c v.value).setRegW (gWidth g) y (conditionCode (cond v.left v.right))).next64

/-- The floating-point comparison of registers A and X (R493). -/
def fpCompared (g x a : Byte) (s : State) : Cmp := fpCompare (gWidth g) (s.regW (gWidth g) a) (s.regW (gWidth g) x)

/-- The floating-point compare-and-branch form. -/
def fpBranch (cond : Cmp → Bool) (g x a y b : Byte) (s : State) : Result :=
  let c := fpCompared g x a s
  branchMet (cond c) (compareTarget g y b s) (s.raiseFlags .scalar c.flags)

/-- The floating-point compare-and-set-condition form. -/
def fpSet (cond : Cmp → Bool) (g x a y : Byte) (s : State) : Result :=
  let c := fpCompared g x a s
  .next ((s.raiseFlags .scalar c.flags).setRegW (gWidth g) y (conditionCode (cond c))).next64

/-- `LE = LT or EQ` and `GT = GE and NE` (decision D42). -/
def Cmp.le (c : Cmp) : Bool := c.lt || c.eq
def Cmp.gt (c : Cmp) : Bool := c.ge && c.ne

/-- #B0 Compare integers, branch if equal (R495). -/
def execIbxeqBr (g x a y b z c : Byte) (s : State) : Result :=
  intBranch (bitAt g 3) (fun l r => l == r) g x a y b z c s

/-- #B0 Compare integers, set condition if equal (R495). -/
def execIbxeqSc (g x a y z c : Byte) (s : State) : Result :=
  intSet (bitAt g 3) (fun l r => l == r) g x a y z c s

/-- #B0 Compare floating point, branch if equal (R496). -/
def execCfpeqBr (g x a y b : Byte) (s : State) : Result := fpBranch Cmp.eq g x a y b s

/-- #B0 Compare floating point, set condition if equal (R496). -/
def execCfpeqSc (g x a y : Byte) (s : State) : Result := fpSet Cmp.eq g x a y s

/-- #B1 Compare integers, branch if not equal (R497). -/
def execIbxneBr (g x a y b z c : Byte) (s : State) : Result :=
  intBranch (bitAt g 3) (fun l r => l != r) g x a y b z c s

/-- #B1 Compare integers, set condition if not equal (R497). -/
def execIbxneSc (g x a y z c : Byte) (s : State) : Result :=
  intSet (bitAt g 3) (fun l r => l != r) g x a y z c s

/-- #B1 Compare floating point, branch if not equal (R498). -/
def execCfpneBr (g x a y b : Byte) (s : State) : Result := fpBranch Cmp.ne g x a y b s

/-- #B1 Compare floating point, set condition if not equal (R498). -/
def execCfpneSc (g x a y : Byte) (s : State) : Result := fpSet Cmp.ne g x a y s

/-- #B2 Compare integers, branch if greater or equal (R499). -/
def execIbxgeBr (g x a y b z c : Byte) (s : State) : Result :=
  intBranch false (fun l r => decide (r ≤ l)) g x a y b z c s

/-- #B2 Compare integers, set condition if greater or equal (R499). -/
def execIbxgeSc (g x a y z c : Byte) (s : State) : Result :=
  intSet false (fun l r => decide (r ≤ l)) g x a y z c s

/-- #B2 Compare floating point, branch if greater or equal (R500). -/
def execCfpgeBr (g x a y b : Byte) (s : State) : Result := fpBranch Cmp.ge g x a y b s

/-- #B2 Compare floating point, set condition if greater or equal (R500). -/
def execCfpgeSc (g x a y : Byte) (s : State) : Result := fpSet Cmp.ge g x a y s

/-- #B3 Compare integers, branch if less (R501). -/
def execIbxltBr (g x a y b z c : Byte) (s : State) : Result :=
  intBranch false (fun l r => decide (l < r)) g x a y b z c s

/-- #B3 Compare integers, set condition if less (R501). -/
def execIbxltSc (g x a y z c : Byte) (s : State) : Result :=
  intSet false (fun l r => decide (l < r)) g x a y z c s

/-- #B3 Compare floating point, branch if less (R502). -/
def execCfpltBr (g x a y b : Byte) (s : State) : Result := fpBranch Cmp.lt g x a y b s

/-- #B3 Compare floating point, set condition if less (R502). -/
def execCfpltSc (g x a y : Byte) (s : State) : Result := fpSet Cmp.lt g x a y s

/-- #B4 Compare integers, branch if less or equal (R503). -/
def execIbxleBr (g x a y b z c : Byte) (s : State) : Result :=
  intBranch false (fun l r => decide (l ≤ r)) g x a y b z c s

/-- #B4 Compare integers, set condition if less or equal (R503). -/
def execIbxleSc (g x a y z c : Byte) (s : State) : Result :=
  intSet false (fun l r => decide (l ≤ r)) g x a y z c s

/-- #B4 Compare floating point, branch if less or equal (R504). -/
def execCfpleBr (g x a y b : Byte) (s : State) : Result := fpBranch Cmp.le g x a y b s

/-- #B4 Compare floating point, set condition if less or equal (R504). -/
def execCfpleSc (g x a y : Byte) (s : State) : Result := fpSet Cmp.le g x a y s

/-- #B5 Compare integers, branch if greater (R505). -/
def execIbxgtBr (g x a y b z c : Byte) (s : State) : Result :=
  intBranch false (fun l r => decide (r < l)) g x a y b z c s

/-- #B5 Compare integers, set condition if greater (R505). -/
def execIbxgtSc (g x a y z c : Byte) (s : State) : Result :=
  intSet false (fun l r => decide (r < l)) g x a y z c s

/-- #B5 Compare floating point, branch if greater (R506). -/
def execCfpgtBr (g x a y b : Byte) (s : State) : Result := fpBranch Cmp.gt g x a y b s

/-- #B5 Compare floating point, set condition if greater (R506). -/
def execCfpgtSc (g x a y : Byte) (s : State) : Result := fpSet Cmp.gt g x a y s

/-! ### #B6, #BE, #BF -/

/-- #B6 Branch to immediate address (R507). -/
def execBim (r : Byte) (im : BitVec 48) (s : State) : Result :=
  .next (s.goto (indexed im (if r = 0 then 0 else s.addr r)))

/-- `Reg[r] <- v`, then on to the next 64-bit instruction. -/
def State.put64 (s : State) (r : Byte) (v : Word) : Result := .next (s.setReg r v).next64

/-- #BE Enter (R) with a 48-bit immediate (R514). -/
def execEx (r : Byte) (im : BitVec 48) (s : State) : Result := s.put64 r (joinLen 0 im)

/-- #BF Increase (R) by a 48-bit immediate (R515). -/
def execIx (r : Byte) (im : BitVec 48) (s : State) : Result :=
  s.put64 r (joinLen (lenPart (s.reg r)) (s.addr r + im))

/-! ### Scatter and gather (R508, R510) -/

/-- The item counts of vector A: a fixed increment, or a field of 64-bit elements. -/
inductive Indexes where
  | fixed (n : Nat) (inc : Addr)
  | listed (start : Addr) (n : Nat)
deriving DecidableEq, Repr

/-- How many item counts there are. -/
def Indexes.count : Indexes → Nat
  | .fixed n _ => n
  | .listed _ n => n

/-- Item count `j`. -/
def Indexes.get : Indexes → Nat → M Addr
  | .fixed _ inc, j => pure (BitVec.ofNat 48 j * inc)
  | .listed start _, j => do return addrPart (← readWord (itemAddr .w64 start j))

/-- Vector A of #B7 and #BA: with `fia` the X designator must be zero. -/
def indexes (g x a : Byte) : M Indexes := do
  if bitAt g 5 then
    refuseIf (x != 0) .unusedFieldNonZero
    let s ← get
    return .fixed (s.len a) (s.addr a)
  else
    let off ← offset x
    let s ← get
    return .listed (itemAddr .w64 (s.addr a) off) (s.len a - off)

/-- The half word at bit address `a` of the register file (R11), which is `Reg32[a div 32]` for the lower 128 registers
(R12); for the upper ones it is DEDUCED, log entry 44. -/
def State.fileHalf (s : State) (a : Nat) : Half :=
  let v := s.reg (BitVec.ofNat 8 (a / 64))
  if a / 32 % 2 = 0 then leftHalf v else rightHalf v

/-- The element of the width at bit address `a` of the register file (R508). -/
def State.fileElem (s : State) (w : Width) (a : Nat) : Word :=
  match w with
  | .w32 => 0#32 ++ s.fileHalf a
  | .w64 => s.reg (BitVec.ofNat 8 (a / 64))

/-- `srcB`: an element of CP memory, or with `rf` an element of the register file, which must lie below #4000. -/
def groupSource (w : Width) (rf : Bool) (a : Addr) : M Word := do
  if rf then
    refuseIf (0x4000 ≤ a.toNat) .rfRange
    return (← get).fileElem w a.toNat
  else readElem w a

/-- The loop over the elements of all groups: `g` elements for each item count, which is read once for its group. -/
def groupLoop (ix : Indexes) (size : Nat) (body : Nat → Nat → Addr → M Unit) : M Unit := do
  let _ ← elements (ix.count * size) (fun i (cur : Addr) => do
    let j := i / size
    let e := i % size
    let idx ← if e = 0 then ix.get j else pure cur
    body j e idx
    return idx) 0

/-- #B7 Scatter (R508): with no item count or with groups of no element it is no operation, whatever the offset Y. With a
broadcast constant there is no field B, and register Y is not used (R411, R412; DEDUCED, log entry 47). -/
def execVtovx (g x a y b c : Byte) (s : State) : Result :=
  let w := gWidth g
  let broadcast := bitAt g 4
  let grp := bitAt g 6
  let rf := bitAt g 7
  run64 (do
    refuseIf ((broadcast && grp) || (grp && rf)) .scatterGatherQualifier
    let ix ← indexes g x a
    let size := if grp then s.len c else 1
    if ix.count * size = 0 then pure () else
      let off ← if broadcast then pure 0 else offset y
      groupLoop ix size fun j e idx => do
        let v ← if broadcast then pure (s.regW w b)
          else groupSource w rf (itemAddr w (s.addr b) (off + (j * size + e)))
        writeElem w (itemAddr w (s.addr c + scaled w.shift idx) e) v) s

/-- #BA Gather (R510): with no item count or with groups of no element it is no operation, whatever the offset Y. -/
def execVxtov (g x a y b c : Byte) (s : State) : Result :=
  let w := gWidth g
  let grp := bitAt g 6
  let rf := bitAt g 7
  run64 (do
    refuseIf (grp && rf) .scatterGatherQualifier
    let ix ← indexes g x a
    let size := if grp then s.len b else 1
    if ix.count * size = 0 then pure () else
      let off ← offset y
      groupLoop ix size fun j e idx => do
        let v ← groupSource w rf (itemAddr w (itemAddr w (s.addr b) off + scaled w.shift idx) e)
        writeElem w (itemAddr w (s.addr c) (j * size + e)) v) s

/-- #B8 Transmit reverse (R509). -/
def execVrevv (g x a z c : Byte) (s : State) : Result :=
  let w := gWidth g
  run64 (do
    let off ← offset x
    let len := s.len a - off
    let d ← dest w (bitAt g 2) c
    vectorLoop w d (s.control g z d.off) fun i => do
      plain (← if i < len then readElem w (itemAddr w (itemAddr w (s.addr a) off) (len - 1 - i))
        else pure (machineZero w))) s

/-! ### Mask, compress, merge (R511 to R513) -/

/-- `ea(i)`, `eb(i)`: the constant, or element `i` of the field. -/
def pickElem (w : Width) (broadcast : Bool) (r : Byte) (i : Nat) (s : State) : M Word :=
  if broadcast then pure (s.regW w r) else readElem w (itemAddr w (s.addr r) i)

/-- The length part of register `c` is set to `n`; the rest is that of `s`. -/
def setLength (s : State) (c : Byte) (n : Nat) : M Unit := update (·.setReg c (joinLen (BitVec.ofNat 16 n) (s.addr c)))

/-- #BB Mask (R511): X and Y must be zero. -/
def execMaskv (g x a y b z c : Byte) (s : State) : Result :=
  let w := gWidth g
  run64 (do
    refuseIf (x != 0 || y != 0) .unusedFieldNonZero
    if s.len z = 0 then pure () else
      elements (s.len z) (fun i _ => do
        let zb ← readBit (s.addr z + BitVec.ofNat 48 i)
        let v ← if zb then pickElem w (bitAt g 3) a i s else pickElem w (bitAt g 4) b i s
        writeElem w (itemAddr w (s.addr c) i) v) ()
      setLength s c (s.len z)) s

/-- #BC Compress (R512): X must be zero. -/
def execCpsv (g x a z c : Byte) (s : State) : Result :=
  let w := gWidth g
  run64 (do
    refuseIf (x != 0) .unusedFieldNonZero
    if s.len z = 0 then pure () else
      let n ← elements (s.len z) (fun i k => do
        let zb ← readBit (s.addr z + BitVec.ofNat 48 i)
        if zb != bitAt g 1 then
          let v ← readElem w (itemAddr w (s.addr a) i)
          writeElem w (itemAddr w (s.addr c) k) v
          return k + 1
        else return k) 0
      setLength s c n) s

/-- #BD Merge (R513): X and Y must be zero. -/
def execMrgv (g x a y b z c : Byte) (s : State) : Result :=
  let w := gWidth g
  run64 (do
    refuseIf (x != 0 || y != 0) .unusedFieldNonZero
    if s.len z = 0 then pure () else
      let _ ← elements (s.len z) (fun i (n : Nat × Nat) => do
        let zb ← readBit (s.addr z + BitVec.ofNat 48 i)
        if zb then
          writeElem w (itemAddr w (s.addr c) i) (← pickElem w (bitAt g 3) a n.1 s)
          return (n.1 + 1, n.2 + (bitAt g 7).toNat)
        else
          writeElem w (itemAddr w (s.addr c) i) (← pickElem w (bitAt g 4) b n.2 s)
          return (n.1, n.2 + 1)) (0, 0)
      setLength s c (s.len z)) s

end Sys2Proof.Machine
end

