-- ==== Sys2Proof/Syntax.lean ====
section
/-! DEFINITION. The instructions of the ETA10, one constructor for each row of the opcode table
(spec/30_encoding.md R124). The arguments are the designator fields that the row uses, in the order they stand in
the instruction: `r sd t` are the designators R, S, T of a 32-bit instruction; `g x a y b z c` are the fields
G, X, A, Y, B, Z, C of a 64-bit instruction; `im` is an immediate. `g` is the whole subfunction byte of the
instruction, the bits its pattern fixes included. #B0 to #B5 have four rows for each function code: `Br` is the
branch form and `Sc` the set-condition form; #9D has one row for each value of its operation `nnn`. -/

namespace Sys2Proof

/-- An instruction. -/
inductive Instr where
  /-- #00, R200: Idle. -/
  | idle
  /-- #03, R201: No operation. -/
  | nop
  /-- #04, R202: Breakpoint on address. -/
  | bkpt (r : Byte)
  /-- #05, R203: Void stack and branch. -/
  | vsb (t : Byte)
  /-- #06, R204: Fault test. -/
  | fault (r : Byte)
  /-- #07, R205: Select serial/parallel execution mode. -/
  | setmod (r : Byte)
  /-- #08, R206: Transmit external interrupt. -/
  | setint (r : Byte)
  /-- #09, R207: Exit force. -/
  | exit (r sd t : Byte)
  /-- #0A, R208: (R) to Monitor Interval Timer. -/
  | mtime (r : Byte)
  /-- #0C, R209: Store associative registers. -/
  | stoar
  /-- #0D, R210: Load associative registers. -/
  | lodar
  /-- #0E, R211: Read interrupt register to (T). -/
  | rdint (t : Byte)
  /-- #0F, R212: Load keys from (R), translate (S) to (T). -/
  | lodkey (r sd t : Byte)
  /-- #10, R230: BCD to binary. -/
  | dtob (r t : Byte)
  /-- #11, R231: Binary to BCD. -/
  | btod (r t : Byte)
  /-- #12, R232: Load byte. -/
  | lodc (r sd t : Byte)
  /-- #13, R233: Store byte. -/
  | stoc (r sd t : Byte)
  /-- #14, R234: Bit compress. -/
  | cpsb (r sd t : Byte)
  /-- #15, R235: Bit merge. -/
  | mrgb (r sd t : Byte)
  /-- #16, R236: Bit mask. -/
  | maskb (r sd t : Byte)
  /-- #17, R237: Backward domain change. -/
  | exdom
  /-- #18, R238: CQTA to (T), (S) to CQTA. -/
  | swcqta (sd t : Byte)
  /-- #19, R239: (S) to IQHA, (T) to IQTA. -/
  | strtio (sd t : Byte)
  /-- #1A, R240: IQHA to (S), IQVF, IQTA to (T). -/
  | stopio (sd t : Byte)
  /-- #1B, R241: IQVF, transfer busy, fatal error to (T). -/
  | testio (t : Byte)
  /-- #1C, R242: Repeated bit mask, leading zeros. -/
  | maskz (r sd t : Byte)
  /-- #1D, R243: Repeated bit mask, leading ones. -/
  | masko (r sd t : Byte)
  /-- #1E, R244: Count leading equals. -/
  | enteq (r sd t : Byte)
  /-- #1F, R245: Count ones. -/
  | ento (r sd t : Byte)
  /-- #20, R261: Branch if (R) EQ (S), 32-bit FP. -/
  | bheq (r sd t : Byte)
  /-- #21, R262: Branch if NE, 32-bit. -/
  | bhne (r sd t : Byte)
  /-- #22, R263: Branch if GE, 32-bit. -/
  | bhge (r sd t : Byte)
  /-- #23, R264: Branch if LT, 32-bit. -/
  | bhlt (r sd t : Byte)
  /-- #24, R265: Branch if EQ, 64-bit. -/
  | beq (r sd t : Byte)
  /-- #25, R266: Branch if NE, 64-bit. -/
  | bne (r sd t : Byte)
  /-- #26, R267: Branch if GE, 64-bit. -/
  | bge (r sd t : Byte)
  /-- #27, R268: Branch if LT, 64-bit. -/
  | blt (r sd t : Byte)
  /-- #28, R269: Scan for equal byte. -/
  | scnleq (r sd t : Byte)
  /-- #29, R270: Instrumentation counter to (T). -/
  | tfc (t : Byte)
  /-- #2A, R271: Enter length of (R) with I16. -/
  | elen (r : Byte) (im : BitVec 16)
  /-- #2B, R272: Add to length field. -/
  | addlen (r sd t : Byte)
  /-- #2C, R273: Exclusive OR. -/
  | rxor (r sd t : Byte)
  /-- #2D, R274: AND. -/
  | rand (r sd t : Byte)
  /-- #2E, R275: Inclusive OR. -/
  | rior (r sd t : Byte)
  /-- #2F, R276: Register bit branch and alter. -/
  | barb (g sd t : Byte)
  /-- #30, R277: Shift (R) per S designator to (T). -/
  | shifti (r sd t : Byte)
  /-- #31, R278: Increase (R), branch if not zero. -/
  | ibnz (r sd t : Byte)
  /-- #32, R279: Bit branch and alter (memory). -/
  | bab (g sd t : Byte)
  /-- #33, R280: Data flag register bit branch and alter. -/
  | badf (g : Byte) (im : BitVec 6) (t : Byte)
  /-- #34, R281: Shift (R) per (S) to (T). -/
  | shift (r sd t : Byte)
  /-- #35, R282: Decrease (R), branch if not zero. -/
  | dbnz (r sd t : Byte)
  /-- #36, R283: Branch or forward domain change. -/
  | bsave (r sd t : Byte)
  /-- #37, R284: Job interval timer to (T). -/
  | rjtime (t : Byte)
  /-- #38, R285: (R) bits 0–15 to (T) bits 0–15. -/
  | ltol (r t : Byte)
  /-- #39, R286: Real-time clock to (T). -/
  | clock (t : Byte)
  /-- #3A, R287: (R) to job interval timer. -/
  | wjtime (r : Byte)
  /-- #3B, R288: Data flag register load/store. -/
  | lsdfr (r t : Byte)
  /-- #3C, R289: Half-word index multiply. -/
  | mpyxh (r sd t : Byte)
  /-- #3D, R290: Index multiply. -/
  | mpyx (r sd t : Byte)
  /-- #3E, R291: Enter (R) with I16. -/
  | es (r : Byte) (im : BitVec 16)
  /-- #3F, R292: Increase (R) by I16. -/
  | is (r : Byte) (im : BitVec 16)
  /-- #40, R311: Add upper, 32-bit. -/
  | adduh (r sd t : Byte)
  /-- #41, R312: Add lower, 32-bit. -/
  | addlh (r sd t : Byte)
  /-- #42, R313: Add normalized, 32-bit. -/
  | addnh (r sd t : Byte)
  /-- #44, R314: Subtract upper, 32-bit. -/
  | subuh (r sd t : Byte)
  /-- #45, R315: Subtract lower, 32-bit. -/
  | sublh (r sd t : Byte)
  /-- #46, R316: Subtract normalized, 32-bit. -/
  | subnh (r sd t : Byte)
  /-- #48, R317: Multiply upper, 32-bit. -/
  | mpyuh (r sd t : Byte)
  /-- #49, R318: Multiply lower, 32-bit. -/
  | mpylh (r sd t : Byte)
  /-- #4B, R319: Multiply significant, 32-bit. -/
  | mpysh (r sd t : Byte)
  /-- #4C, R320: Divide upper, 32-bit. -/
  | divuh (r sd t : Byte)
  /-- #4D, R321: Half-word enter (R) with I16. -/
  | esh (r : Byte) (im : BitVec 16)
  /-- #4E, R322: Half-word increase (R) by I16. -/
  | ish (r : Byte) (im : BitVec 16)
  /-- #4F, R323: Divide significant, 32-bit. -/
  | divsh (r sd t : Byte)
  /-- #50, R324: Truncate, 32-bit. -/
  | truh (r t : Byte)
  /-- #51, R325: Floor, 32-bit. -/
  | flrh (r t : Byte)
  /-- #52, R326: Ceiling, 32-bit. -/
  | clgh (r t : Byte)
  /-- #53, R327: Significant square root, 32-bit. -/
  | sqrth (r t : Byte)
  /-- #54, R328: Adjust significance, 32-bit. -/
  | adjsh (r sd t : Byte)
  /-- #55, R329: Adjust exponent, 32-bit. -/
  | adjeh (r sd t : Byte)
  /-- #56, R330: Select link. -/
  | linkv (r : Byte)
  /-- #57, R331: Read domain registers. -/
  | rddom (r t : Byte)
  /-- #58, R332: Transmit (R) to (T), 32-bit. -/
  | rtorh (r t : Byte)
  /-- #59, R333: Absolute, 32-bit. -/
  | absh (r t : Byte)
  /-- #5A, R334: Exponent, 32-bit. -/
  | exph (r t : Byte)
  /-- #5B, R335: Pack, 32-bit. -/
  | packh (r sd t : Byte)
  /-- #5C, R336: Extend 32 to 64. -/
  | exth (r t : Byte)
  /-- #5D, R337: Index extend 32 to 64. -/
  | extxh (r t : Byte)
  /-- #5E, R338: Load half word. -/
  | lodh (r sd t : Byte)
  /-- #5F, R339: Store half word. -/
  | stoh (r sd t : Byte)
  /-- #60, R361: Add upper, 64-bit. -/
  | addu (r sd t : Byte)
  /-- #61, R362: Add lower. -/
  | addl (r sd t : Byte)
  /-- #62, R363: Add normalized. -/
  | addn (r sd t : Byte)
  /-- #63, R364: Add address. -/
  | addx (r sd t : Byte)
  /-- #64, R365: Subtract upper. -/
  | subu (r sd t : Byte)
  /-- #65, R366: Subtract lower. -/
  | subl (r sd t : Byte)
  /-- #66, R367: Subtract normalized. -/
  | subn (r sd t : Byte)
  /-- #67, R368: Subtract address. -/
  | subx (r sd t : Byte)
  /-- #68, R369: Multiply upper. -/
  | mpyu (r sd t : Byte)
  /-- #69, R370: Multiply lower. -/
  | mpyl (r sd t : Byte)
  /-- #6B, R371: Multiply significant. -/
  | mpys (r sd t : Byte)
  /-- #6C, R372: Divide upper. -/
  | divu (r sd t : Byte)
  /-- #6D, R373: Insert bits. -/
  | insb (r sd t : Byte)
  /-- #6E, R374: Extract bits. -/
  | extb (r sd t : Byte)
  /-- #6F, R375: Divide significant. -/
  | divs (r sd t : Byte)
  /-- #70, R376: Truncate. -/
  | tru (r t : Byte)
  /-- #71, R377: Floor. -/
  | flr (r t : Byte)
  /-- #72, R378: Ceiling. -/
  | clg (r t : Byte)
  /-- #73, R379: Significant square root. -/
  | sqrt (r t : Byte)
  /-- #74, R380: Adjust significance. -/
  | adjs (r sd t : Byte)
  /-- #75, R381: Adjust exponent. -/
  | adje (r sd t : Byte)
  /-- #76, R382: Contract 64 to 32. -/
  | con (r t : Byte)
  /-- #77, R383: Rounded contract 64 to 32. -/
  | rcon (r t : Byte)
  /-- #78, R384: Transmit (R) to (T). -/
  | rtor (r t : Byte)
  /-- #79, R385: Absolute. -/
  | abs (r t : Byte)
  /-- #7A, R386: Exponent. -/
  | exp (r t : Byte)
  /-- #7B, R387: Pack. -/
  | pack (r sd t : Byte)
  /-- #7C, R388: Length (R) to (T). -/
  | ltor (r t : Byte)
  /-- #7D, R389: Swap register file block with memory. -/
  | rgap (r sd t : Byte)
  /-- #7E, R390: Load word. -/
  | lod (r sd t : Byte)
  /-- #7F, R391: Store word. -/
  | sto (r sd t : Byte)
  /-- #80, R421: Vector add upper. -/
  | adduv (g x a y b z c : Byte)
  /-- #81, R422: Vector add lower. -/
  | addlv (g x a y b z c : Byte)
  /-- #82, R423: Vector add normalized. -/
  | addnv (g x a y b z c : Byte)
  /-- #83, R424: Vector add address. -/
  | addxv (g x a y b z c : Byte)
  /-- #84, R425: Vector subtract upper. -/
  | subuv (g x a y b z c : Byte)
  /-- #85, R426: Vector subtract lower. -/
  | sublv (g x a y b z c : Byte)
  /-- #86, R427: Vector subtract normalized. -/
  | subnv (g x a y b z c : Byte)
  /-- #87, R428: Vector subtract address. -/
  | subxv (g x a y b z c : Byte)
  /-- #88, R429: Vector multiply upper. -/
  | mpyuv (g x a y b z c : Byte)
  /-- #89, R430: Vector multiply lower. -/
  | mpylv (g x a y b z c : Byte)
  /-- #8A, R431: Vector shift A per B. -/
  | shiftv (g x a y b z c : Byte)
  /-- #8B, R432: Vector multiply significant. -/
  | mpysv (g x a y b z c : Byte)
  /-- #8C, R433: Vector divide upper. -/
  | divuv (g x a y b z c : Byte)
  /-- #8F, R434: Vector divide significant. -/
  | divsv (g x a y b z c : Byte)
  /-- #90, R435: Vector truncate. -/
  | truv (g x a z c : Byte)
  /-- #91, R436: Vector floor. -/
  | flrv (g x a z c : Byte)
  /-- #92, R437: Vector ceiling. -/
  | clgv (g x a z c : Byte)
  /-- #93, R438: Vector significant square root. -/
  | sqrtv (g x a z c : Byte)
  /-- #94, R439: Vector adjust significance. -/
  | adjsv (g x a y b z c : Byte)
  /-- #95, R440: Vector adjust exponent. -/
  | adjev (g x a y b z c : Byte)
  /-- #96, R441: Vector contract. -/
  | conv (g x a z c : Byte)
  /-- #97, R442: Vector rounded contract. -/
  | rconv (g x a z c : Byte)
  /-- #98, R443: Vector transmit. -/
  | vtov (g x a z c : Byte)
  /-- #99, R444: Vector absolute. -/
  | absv (g x a z c : Byte)
  /-- #9A, R445: Vector exponent. -/
  | expv (g x a z c : Byte)
  /-- #9B, R446: Vector pack. -/
  | packv (g x a y b z c : Byte)
  /-- #9C, R447: Vector extend 32 to 64. -/
  | extv (g x a z c : Byte)
  /-- #9D, R448: Vector logical Exclusive OR (nnn = 000). -/
  | xorv (g x a y b z c : Byte)
  /-- #9D, R448: Vector logical AND (nnn = 001). -/
  | andv (g x a y b z c : Byte)
  /-- #9D, R448: Vector logical OR (nnn = 010). -/
  | iorv (g x a y b z c : Byte)
  /-- #9D, R448: Vector logical NOT AND (nnn = 011). -/
  | nandv (g x a y b z c : Byte)
  /-- #9D, R448: Vector logical NOT OR (nnn = 100). -/
  | norv (g x a y b z c : Byte)
  /-- #9D, R448: Vector logical OR NOT (nnn = 101). -/
  | ornv (g x a y b z c : Byte)
  /-- #9D, R448: Vector logical AND NOT (nnn = 110). -/
  | andnv (g x a y b z c : Byte)
  /-- #9D, R448: Vector logical Exclusive OR NOT (nnn = 111). -/
  | xornv (g x a y b z c : Byte)
  /-- #A0, R475: Sparse add upper. -/
  | addus (g x a y b z c : Byte)
  /-- #A1, R476: Sparse add lower. -/
  | addls (g x a y b z c : Byte)
  /-- #A2, R477: Sparse add normalized. -/
  | addns (g x a y b z c : Byte)
  /-- #A4, R478: Sparse subtract upper. -/
  | subus (g x a y b z c : Byte)
  /-- #A5, R479: Sparse subtract lower. -/
  | subls (g x a y b z c : Byte)
  /-- #A6, R480: Sparse subtract normalized. -/
  | subns (g x a y b z c : Byte)
  /-- #A8, R481: Sparse multiply upper. -/
  | mpyus (g x a y b z c : Byte)
  /-- #A9, R482: Sparse multiply lower. -/
  | mpyls (g x a y b z c : Byte)
  /-- #AB, R483: Sparse multiply significant. -/
  | mpyss (g x a y b z c : Byte)
  /-- #AC, R484: Sparse divide upper. -/
  | divus (g x a y b z c : Byte)
  /-- #AF, R485: Sparse divide significant. -/
  | divss (g x a y b z c : Byte)
  /-- #B0, R495: Integer compare EQ of (A)+(X) with (Z), sum to (C), branch. -/
  | ibxeqBr (g x a y b z c : Byte)
  /-- #B0, R495: Integer compare EQ of (A)+(X) with (Z), sum to (C), set condition in (Y). -/
  | ibxeqSc (g x a y z c : Byte)
  /-- #B0, R496: Floating-point compare (A) EQ (X), branch. -/
  | cfpeqBr (g x a y b : Byte)
  /-- #B0, R496: Floating-point compare (A) EQ (X), set condition in (Y). -/
  | cfpeqSc (g x a y : Byte)
  /-- #B1, R497: Integer compare NE of (A)+(X) with (Z), sum to (C), branch. -/
  | ibxneBr (g x a y b z c : Byte)
  /-- #B1, R497: Integer compare NE of (A)+(X) with (Z), sum to (C), set condition in (Y). -/
  | ibxneSc (g x a y z c : Byte)
  /-- #B1, R498: Floating-point compare (A) NE (X), branch. -/
  | cfpneBr (g x a y b : Byte)
  /-- #B1, R498: Floating-point compare (A) NE (X), set condition in (Y). -/
  | cfpneSc (g x a y : Byte)
  /-- #B2, R499: Integer compare GE of (A)+(X) with (Z), sum to (C), branch. -/
  | ibxgeBr (g x a y b z c : Byte)
  /-- #B2, R499: Integer compare GE of (A)+(X) with (Z), sum to (C), set condition in (Y). -/
  | ibxgeSc (g x a y z c : Byte)
  /-- #B2, R500: Floating-point compare (A) GE (X), branch. -/
  | cfpgeBr (g x a y b : Byte)
  /-- #B2, R500: Floating-point compare (A) GE (X), set condition in (Y). -/
  | cfpgeSc (g x a y : Byte)
  /-- #B3, R501: Integer compare LT of (A)+(X) with (Z), sum to (C), branch. -/
  | ibxltBr (g x a y b z c : Byte)
  /-- #B3, R501: Integer compare LT of (A)+(X) with (Z), sum to (C), set condition in (Y). -/
  | ibxltSc (g x a y z c : Byte)
  /-- #B3, R502: Floating-point compare (A) LT (X), branch. -/
  | cfpltBr (g x a y b : Byte)
  /-- #B3, R502: Floating-point compare (A) LT (X), set condition in (Y). -/
  | cfpltSc (g x a y : Byte)
  /-- #B4, R503: Integer compare LE of (A)+(X) with (Z), sum to (C), branch. -/
  | ibxleBr (g x a y b z c : Byte)
  /-- #B4, R503: Integer compare LE of (A)+(X) with (Z), sum to (C), set condition in (Y). -/
  | ibxleSc (g x a y z c : Byte)
  /-- #B4, R504: Floating-point compare (A) LE (X), branch. -/
  | cfpleBr (g x a y b : Byte)
  /-- #B4, R504: Floating-point compare (A) LE (X), set condition in (Y). -/
  | cfpleSc (g x a y : Byte)
  /-- #B5, R505: Integer compare GT of (A)+(X) with (Z), sum to (C), branch. -/
  | ibxgtBr (g x a y b z c : Byte)
  /-- #B5, R505: Integer compare GT of (A)+(X) with (Z), sum to (C), set condition in (Y). -/
  | ibxgtSc (g x a y z c : Byte)
  /-- #B5, R506: Floating-point compare (A) GT (X), branch. -/
  | cfpgtBr (g x a y b : Byte)
  /-- #B5, R506: Floating-point compare (A) GT (X), set condition in (Y). -/
  | cfpgtSc (g x a y : Byte)
  /-- #B6, R507: Branch to immediate address. -/
  | bim (r : Byte) (im : BitVec 48)
  /-- #B7, R508: Scatter. -/
  | vtovx (g x a y b c : Byte)
  /-- #B8, R509: Transmit reverse. -/
  | vrevv (g x a z c : Byte)
  /-- #BA, R510: Gather. -/
  | vxtov (g x a y b c : Byte)
  /-- #BB, R511: Mask A, B to C per Z. -/
  | maskv (g x a y b z c : Byte)
  /-- #BC, R512: Compress A to C per Z. -/
  | cpsv (g x a z c : Byte)
  /-- #BD, R513: Merge A, B to C per Z. -/
  | mrgv (g x a y b z c : Byte)
  /-- #BE, R514: Enter (R) with I48. -/
  | ex (r : Byte) (im : BitVec 48)
  /-- #BF, R515: Increase (R) by I48. -/
  | ix (r : Byte) (im : BitVec 48)
  /-- #C0, R551: Select EQ, item count to (C). -/
  | seleq (g x a y b z c : Byte)
  /-- #C1, R552: Select NE. -/
  | selne (g x a y b z c : Byte)
  /-- #C2, R553: Select GE. -/
  | selge (g x a y b z c : Byte)
  /-- #C3, R554: Select LT. -/
  | sellt (g x a y b z c : Byte)
  /-- #C4, R555: Compare EQ, order vector to Z. -/
  | cmpeq (g x a y b z : Byte)
  /-- #C5, R556: Compare NE. -/
  | cmpne (g x a y b z : Byte)
  /-- #C6, R557: Compare GE. -/
  | cmpge (g x a y b z : Byte)
  /-- #C7, R558: Compare LT. -/
  | cmplt (g x a y b z : Byte)
  /-- #C8, R559: Search EQ, index list to C. -/
  | srcheq (g x a y b z c : Byte)
  /-- #C9, R560: Search NE. -/
  | srchne (g x a y b z c : Byte)
  /-- #CA, R561: Search GE. -/
  | srchge (g x a y b z c : Byte)
  /-- #CB, R562: Search LT. -/
  | srchlt (g x a y b z c : Byte)
  /-- #CC, R563: Masked binary compare. -/
  | mcmpw (g x a b c : Byte)
  /-- #CD, R564: Half-word enter (R) with I24. -/
  | exh (r : Byte) (im : BitVec 24)
  /-- #CE, R565: Half-word increase (R) by I24. -/
  | ixh (r : Byte) (im : BitVec 24)
  /-- #CF, R566: Arithmetic compress. -/
  | acps (g x a y b z c : Byte)
  /-- #D0, R567: Average. -/
  | avg (g x a y b z c : Byte)
  /-- #D1, R568: Adjacent mean. -/
  | adjmean (g x a z c : Byte)
  /-- #D4, R569: Average difference. -/
  | avgd (g x a y b z c : Byte)
  /-- #D5, R570: Delta. -/
  | delta (g x a z c : Byte)
  /-- #D8, R571: Maximum. -/
  | max (g x a b z c : Byte)
  /-- #D9, R572: Minimum. -/
  | min (g x a b z c : Byte)
  /-- #DA, R573: Sum. -/
  | sum (g x a z c : Byte)
  /-- #DB, R574: Product. -/
  | product (g x a z c : Byte)
  /-- #DC, R575: Dot product. -/
  | dotv (g x a y b z c : Byte)
  /-- #DF, R576: Interval. -/
  | interval (g a b z c : Byte)
  /-- #F0, R601: String exclusive OR. -/
  | xor (x a y b z c : Byte)
  /-- #F1, R602: String AND. -/
  | and (x a y b z c : Byte)
  /-- #F2, R603: String inclusive OR. -/
  | ior (x a y b z c : Byte)
  /-- #F3, R604: String NAND. -/
  | nand (x a y b z c : Byte)
  /-- #F4, R605: String NOR. -/
  | nor (x a y b z c : Byte)
  /-- #F5, R606: String OR NOT. -/
  | orn (x a y b z c : Byte)
  /-- #F6, R607: String AND NOT. -/
  | andn (x a y b z c : Byte)
  /-- #F7, R608: String exclusive OR NOT. -/
  | xorn (x a y b z c : Byte)
  /-- #F8, R609: Move bytes left. -/
  | movl (x a b z c : Byte)
  /-- #FA, R610: Post semaphore. -/
  | post (g x b c : Byte)
  /-- #FB, R611: Wait on semaphore. -/
  | wait (g x a b c : Byte)
  /-- #FC, R612: Bit branch and swap. -/
  | bbswap (g x a b c : Byte)
  /-- #FD, R613: Bit branch and load/store. -/
  | bbldst (g x a b c : Byte)
  /-- #FE, R614: CB load register. -/
  | cbld (g x c : Byte)
  /-- #FF, R615: CB store register. -/
  | cbsto (g x c : Byte)
deriving DecidableEq, Repr

end Sys2Proof
end

