-- ==== Sys2Proof/WellFormed.lean ====
section
/-! DEFINITION. Well-formed instructions: the bits of a subfunction byte that the instruction's pattern fixes have
the values the pattern gives them (spec/30_encoding.md R118, and R116 for the bits that must be zero). -/

namespace Sys2Proof

/-- The bits of `g` that `mask` selects are those of `value`. -/
def fixedBits (g mask value : Byte) : Bool := g &&& mask == value

/-- The instruction's subfunction byte follows its pattern. Every other field may hold any value. -/
def Instr.wf : Instr → Bool
  | .idle => true
  | .nop => true
  | .bkpt _ => true
  | .vsb _ => true
  | .fault _ => true
  | .setmod r => fixedBits r 0xFE 0x00
  | .setint _ => true
  | .exit _ _ _ => true
  | .mtime _ => true
  | .stoar => true
  | .lodar => true
  | .rdint _ => true
  | .lodkey _ _ _ => true
  | .dtob _ _ => true
  | .btod _ _ => true
  | .lodc _ _ _ => true
  | .stoc _ _ _ => true
  | .cpsb _ _ _ => true
  | .mrgb _ _ _ => true
  | .maskb _ _ _ => true
  | .exdom => true
  | .swcqta _ _ => true
  | .strtio _ _ => true
  | .stopio _ _ => true
  | .testio _ => true
  | .maskz _ _ _ => true
  | .masko _ _ _ => true
  | .enteq _ _ _ => true
  | .ento _ _ _ => true
  | .bheq _ _ _ => true
  | .bhne _ _ _ => true
  | .bhge _ _ _ => true
  | .bhlt _ _ _ => true
  | .beq _ _ _ => true
  | .bne _ _ _ => true
  | .bge _ _ _ => true
  | .blt _ _ _ => true
  | .scnleq _ _ _ => true
  | .tfc _ => true
  | .elen _ _ => true
  | .addlen _ _ _ => true
  | .rxor _ _ _ => true
  | .rand _ _ _ => true
  | .rior _ _ _ => true
  | .barb g _ _ => fixedBits g 0x09 0x00
  | .shifti _ _ _ => true
  | .ibnz _ _ _ => true
  | .bab g _ _ => fixedBits g 0x09 0x00
  | .badf g _ _ => fixedBits g 0x09 0x00
  | .shift _ _ _ => true
  | .dbnz _ _ _ => true
  | .bsave _ _ _ => true
  | .rjtime _ => true
  | .ltol _ _ => true
  | .clock _ => true
  | .wjtime _ => true
  | .lsdfr _ _ => true
  | .mpyxh _ _ _ => true
  | .mpyx _ _ _ => true
  | .es _ _ => true
  | .is _ _ => true
  | .adduh _ _ _ => true
  | .addlh _ _ _ => true
  | .addnh _ _ _ => true
  | .subuh _ _ _ => true
  | .sublh _ _ _ => true
  | .subnh _ _ _ => true
  | .mpyuh _ _ _ => true
  | .mpylh _ _ _ => true
  | .mpysh _ _ _ => true
  | .divuh _ _ _ => true
  | .esh _ _ => true
  | .ish _ _ => true
  | .divsh _ _ _ => true
  | .truh _ _ => true
  | .flrh _ _ => true
  | .clgh _ _ => true
  | .sqrth _ _ => true
  | .adjsh _ _ _ => true
  | .adjeh _ _ _ => true
  | .linkv r => fixedBits r 0xE7 0x00
  | .rddom _ _ => true
  | .rtorh _ _ => true
  | .absh _ _ => true
  | .exph _ _ => true
  | .packh _ _ _ => true
  | .exth _ _ => true
  | .extxh _ _ => true
  | .lodh _ _ _ => true
  | .stoh _ _ _ => true
  | .addu _ _ _ => true
  | .addl _ _ _ => true
  | .addn _ _ _ => true
  | .addx _ _ _ => true
  | .subu _ _ _ => true
  | .subl _ _ _ => true
  | .subn _ _ _ => true
  | .subx _ _ _ => true
  | .mpyu _ _ _ => true
  | .mpyl _ _ _ => true
  | .mpys _ _ _ => true
  | .divu _ _ _ => true
  | .insb _ _ _ => true
  | .extb _ _ _ => true
  | .divs _ _ _ => true
  | .tru _ _ => true
  | .flr _ _ => true
  | .clg _ _ => true
  | .sqrt _ _ => true
  | .adjs _ _ _ => true
  | .adje _ _ _ => true
  | .con _ _ => true
  | .rcon _ _ => true
  | .rtor _ _ => true
  | .abs _ _ => true
  | .exp _ _ => true
  | .pack _ _ _ => true
  | .ltor _ _ => true
  | .rgap _ _ _ => true
  | .lod _ _ _ => true
  | .sto _ _ _ => true
  | .adduv _ _ _ _ _ _ _ => true
  | .addlv _ _ _ _ _ _ _ => true
  | .addnv _ _ _ _ _ _ _ => true
  | .addxv g _ _ _ _ _ _ => fixedBits g 0x87 0x00
  | .subuv _ _ _ _ _ _ _ => true
  | .sublv _ _ _ _ _ _ _ => true
  | .subnv _ _ _ _ _ _ _ => true
  | .subxv g _ _ _ _ _ _ => fixedBits g 0x87 0x00
  | .mpyuv _ _ _ _ _ _ _ => true
  | .mpylv _ _ _ _ _ _ _ => true
  | .shiftv g _ _ _ _ _ _ => fixedBits g 0x87 0x00
  | .mpysv _ _ _ _ _ _ _ => true
  | .divuv _ _ _ _ _ _ _ => true
  | .divsv _ _ _ _ _ _ _ => true
  | .truv g _ _ _ _ => fixedBits g 0x0F 0x00
  | .flrv g _ _ _ _ => fixedBits g 0x0F 0x00
  | .clgv g _ _ _ _ => fixedBits g 0x0F 0x00
  | .sqrtv g _ _ _ _ => fixedBits g 0x09 0x00
  | .adjsv g _ _ _ _ _ _ => fixedBits g 0x07 0x00
  | .adjev g _ _ _ _ _ _ => fixedBits g 0x07 0x00
  | .conv g _ _ _ _ => fixedBits g 0x8F 0x00
  | .rconv g _ _ _ _ => fixedBits g 0x8F 0x00
  | .vtov g _ _ _ _ => fixedBits g 0x0F 0x00
  | .absv g _ _ _ _ => fixedBits g 0x0F 0x00
  | .expv g _ _ _ _ => fixedBits g 0x0F 0x00
  | .packv g _ _ _ _ _ _ => fixedBits g 0x07 0x00
  | .extv g _ _ _ _ => fixedBits g 0x8F 0x00
  | .xorv g _ _ _ _ _ _ => fixedBits g 0x07 0x00
  | .andv g _ _ _ _ _ _ => fixedBits g 0x07 0x01
  | .iorv g _ _ _ _ _ _ => fixedBits g 0x07 0x02
  | .nandv g _ _ _ _ _ _ => fixedBits g 0x07 0x03
  | .norv g _ _ _ _ _ _ => fixedBits g 0x07 0x04
  | .ornv g _ _ _ _ _ _ => fixedBits g 0x07 0x05
  | .andnv g _ _ _ _ _ _ => fixedBits g 0x07 0x06
  | .xornv g _ _ _ _ _ _ => fixedBits g 0x07 0x07
  | .addus _ _ _ _ _ _ _ => true
  | .addls _ _ _ _ _ _ _ => true
  | .addns _ _ _ _ _ _ _ => true
  | .subus _ _ _ _ _ _ _ => true
  | .subls _ _ _ _ _ _ _ => true
  | .subns _ _ _ _ _ _ _ => true
  | .mpyus _ _ _ _ _ _ _ => true
  | .mpyls _ _ _ _ _ _ _ => true
  | .mpyss _ _ _ _ _ _ _ => true
  | .divus _ _ _ _ _ _ _ => true
  | .divss _ _ _ _ _ _ _ => true
  | .ibxeqBr g _ _ _ _ _ _ => fixedBits g 0x61 0x00
  | .ibxeqSc g _ _ _ _ _ => fixedBits g 0x67 0x20
  | .cfpeqBr g _ _ _ _ => fixedBits g 0x79 0x40
  | .cfpeqSc g _ _ _ => fixedBits g 0x7F 0x60
  | .ibxneBr g _ _ _ _ _ _ => fixedBits g 0x61 0x00
  | .ibxneSc g _ _ _ _ _ => fixedBits g 0x67 0x20
  | .cfpneBr g _ _ _ _ => fixedBits g 0x79 0x40
  | .cfpneSc g _ _ _ => fixedBits g 0x7F 0x60
  | .ibxgeBr g _ _ _ _ _ _ => fixedBits g 0x71 0x00
  | .ibxgeSc g _ _ _ _ _ => fixedBits g 0x77 0x20
  | .cfpgeBr g _ _ _ _ => fixedBits g 0x79 0x40
  | .cfpgeSc g _ _ _ => fixedBits g 0x7F 0x60
  | .ibxltBr g _ _ _ _ _ _ => fixedBits g 0x71 0x00
  | .ibxltSc g _ _ _ _ _ => fixedBits g 0x77 0x20
  | .cfpltBr g _ _ _ _ => fixedBits g 0x79 0x40
  | .cfpltSc g _ _ _ => fixedBits g 0x7F 0x60
  | .ibxleBr g _ _ _ _ _ _ => fixedBits g 0x71 0x00
  | .ibxleSc g _ _ _ _ _ => fixedBits g 0x77 0x20
  | .cfpleBr g _ _ _ _ => fixedBits g 0x79 0x40
  | .cfpleSc g _ _ _ => fixedBits g 0x7F 0x60
  | .ibxgtBr g _ _ _ _ _ _ => fixedBits g 0x71 0x00
  | .ibxgtSc g _ _ _ _ _ => fixedBits g 0x77 0x20
  | .cfpgtBr g _ _ _ _ => fixedBits g 0x79 0x40
  | .cfpgtSc g _ _ _ => fixedBits g 0x7F 0x60
  | .bim _ _ => true
  | .vtovx g _ _ _ _ _ => fixedBits g 0x70 0x00
  | .vrevv g _ _ _ _ => fixedBits g 0x1F 0x00
  | .vxtov g _ _ _ _ _ => fixedBits g 0x78 0x00
  | .maskv g _ _ _ _ _ _ => fixedBits g 0x67 0x00
  | .cpsv g _ _ _ _ => fixedBits g 0x3F 0x00
  | .mrgv g _ _ _ _ _ _ => fixedBits g 0x66 0x00
  | .ex _ _ => true
  | .ix _ _ => true
  | .seleq g _ _ _ _ _ _ => fixedBits g 0x27 0x00
  | .selne g _ _ _ _ _ _ => fixedBits g 0x27 0x00
  | .selge g _ _ _ _ _ _ => fixedBits g 0x27 0x00
  | .sellt g _ _ _ _ _ _ => fixedBits g 0x27 0x00
  | .cmpeq g _ _ _ _ _ => fixedBits g 0x67 0x00
  | .cmpne g _ _ _ _ _ => fixedBits g 0x67 0x00
  | .cmpge g _ _ _ _ _ => fixedBits g 0x67 0x00
  | .cmplt g _ _ _ _ _ => fixedBits g 0x67 0x00
  | .srcheq g _ _ _ _ _ _ => fixedBits g 0x1F 0x00
  | .srchne g _ _ _ _ _ _ => fixedBits g 0x1F 0x00
  | .srchge g _ _ _ _ _ _ => fixedBits g 0x1F 0x00
  | .srchlt g _ _ _ _ _ _ => fixedBits g 0x1F 0x00
  | .mcmpw g _ _ _ _ => fixedBits g 0xFE 0x00
  | .exh _ _ => true
  | .ixh _ _ => true
  | .acps g _ _ _ _ _ _ => fixedBits g 0x70 0x00
  | .avg g _ _ _ _ _ _ => fixedBits g 0x07 0x00
  | .adjmean g _ _ _ _ => fixedBits g 0x1F 0x00
  | .avgd g _ _ _ _ _ _ => fixedBits g 0x07 0x00
  | .delta g _ _ _ _ => fixedBits g 0x1F 0x00
  | .max g _ _ _ _ _ => fixedBits g 0x3B 0x00
  | .min g _ _ _ _ _ => fixedBits g 0x3B 0x00
  | .sum g _ _ _ _ => fixedBits g 0x3F 0x00
  | .product g _ _ _ _ => fixedBits g 0x3F 0x00
  | .dotv g _ _ _ _ _ _ => fixedBits g 0x27 0x00
  | .interval g _ _ _ _ => fixedBits g 0x1F 0x00
  | .xor _ _ _ _ _ _ => true
  | .and _ _ _ _ _ _ => true
  | .ior _ _ _ _ _ _ => true
  | .nand _ _ _ _ _ _ => true
  | .nor _ _ _ _ _ _ => true
  | .orn _ _ _ _ _ _ => true
  | .andn _ _ _ _ _ _ => true
  | .xorn _ _ _ _ _ _ => true
  | .movl _ _ _ _ _ => true
  | .post g _ _ _ => fixedBits g 0xCF 0x00
  | .wait g _ _ _ _ => fixedBits g 0xCC 0x00
  | .bbswap g _ _ _ _ => fixedBits g 0x7C 0x00
  | .bbldst g _ _ _ _ => fixedBits g 0x7C 0x00
  | .cbld g _ _ => fixedBits g 0x7C 0x00
  | .cbsto g _ _ => fixedBits g 0x7C 0x00

end Sys2Proof
end

