-- ==== Sys2Proof/Decode.lean ====
section
/-! DEFINITION. The decoder and the encoder, both written from the encoding tables of spec/30_encoding.md (R100 to
R127). The decoder is total: an unused function code is refused by name (R125), and an instruction whose unused bits
are not all zero is decoded with `clean = false` (R116: it is no illegal instruction; Machine/Step.lean refuses it
with a name of its own). -/

namespace Sys2Proof

/-- Why no instruction was read. -/
inductive DecodeError where
  /-- The function code is one of the 40 unused codes (R125). -/
  | unusedCode (f : Byte)
  /-- Fewer bytes than the instruction has (R100). -/
  | truncated
deriving DecidableEq, Repr

/-- A decoded instruction; `clean` says that every unused bit of it is zero (R116). -/
structure Decoded where
  instr : Instr
  clean : Bool
deriving DecidableEq, Repr

/-- What the decoder answers. -/
abbrev Decode := Except DecodeError Decoded

/-- An instruction whose unused bits are zero exactly if `clean`. -/
def decoded (i : Instr) (clean : Bool) : Decode := .ok ⟨i, clean⟩

/-- Two bytes as a 16-bit immediate (R108). -/
def imm16 (b0 b1 : Byte) : BitVec 16 := b0 ++ b1

/-- Three bytes as a 24-bit immediate (R107). -/
def imm24 (b0 b1 b2 : Byte) : BitVec 24 := b0 ++ b1 ++ b2

/-- Six bytes as a 48-bit immediate (R107). -/
def imm48 (b0 b1 b2 b3 b4 b5 : Byte) : BitVec 48 := b0 ++ b1 ++ b2 ++ b3 ++ b4 ++ b5

/-- The instructions #00 to #0F, by the right-most digit of the function code. -/
def decode0 (low : Nat) (f r sd t : Byte) : Decode :=
  match low with
  | 0 => decoded (.idle) (r == 0 && sd == 0 && t == 0)
  | 3 => decoded (.nop) (r == 0 && sd == 0 && t == 0)
  | 4 => decoded (.bkpt r) (sd == 0 && t == 0)
  | 5 => decoded (.vsb t) (r == 0 && sd == 0)
  | 6 => decoded (.fault r) (sd == 0 && t == 0)
  | 7 => decoded (.setmod r) (fixedBits r 0xFE 0x00 && sd == 0 && t == 0)
  | 8 => decoded (.setint r) (sd == 0 && t == 0)
  | 9 => decoded (.exit r sd t) (true)
  | 10 => decoded (.mtime r) (sd == 0 && t == 0)
  | 12 => decoded (.stoar) (r == 0 && sd == 0 && t == 0)
  | 13 => decoded (.lodar) (r == 0 && sd == 0 && t == 0)
  | 14 => decoded (.rdint t) (r == 0 && sd == 0)
  | 15 => decoded (.lodkey r sd t) (true)
  | _ => .error (.unusedCode f)

/-- The instructions #10 to #1F, by the right-most digit of the function code. -/
def decode1 (low : Nat) (f r sd t : Byte) : Decode :=
  match low with
  | 0 => decoded (.dtob r t) (sd == 0)
  | 1 => decoded (.btod r t) (sd == 0)
  | 2 => decoded (.lodc r sd t) (true)
  | 3 => decoded (.stoc r sd t) (true)
  | 4 => decoded (.cpsb r sd t) (true)
  | 5 => decoded (.mrgb r sd t) (true)
  | 6 => decoded (.maskb r sd t) (true)
  | 7 => decoded (.exdom) (r == 0 && sd == 0 && t == 0)
  | 8 => decoded (.swcqta sd t) (r == 0)
  | 9 => decoded (.strtio sd t) (r == 0)
  | 10 => decoded (.stopio sd t) (r == 0)
  | 11 => decoded (.testio t) (r == 0 && sd == 0)
  | 12 => decoded (.maskz r sd t) (true)
  | 13 => decoded (.masko r sd t) (true)
  | 14 => decoded (.enteq r sd t) (true)
  | 15 => decoded (.ento r sd t) (true)
  | _ => .error (.unusedCode f)

/-- The instructions #20 to #2F, by the right-most digit of the function code. -/
def decode2 (low : Nat) (f r sd t : Byte) : Decode :=
  match low with
  | 0 => decoded (.bheq r sd t) (true)
  | 1 => decoded (.bhne r sd t) (true)
  | 2 => decoded (.bhge r sd t) (true)
  | 3 => decoded (.bhlt r sd t) (true)
  | 4 => decoded (.beq r sd t) (true)
  | 5 => decoded (.bne r sd t) (true)
  | 6 => decoded (.bge r sd t) (true)
  | 7 => decoded (.blt r sd t) (true)
  | 8 => decoded (.scnleq r sd t) (true)
  | 9 => decoded (.tfc t) (r == 0 && sd == 0)
  | 10 => decoded (.elen r (imm16 sd t)) (true)
  | 11 => decoded (.addlen r sd t) (true)
  | 12 => decoded (.rxor r sd t) (true)
  | 13 => decoded (.rand r sd t) (true)
  | 14 => decoded (.rior r sd t) (true)
  | 15 => decoded (.barb r sd t) (fixedBits r 0x09 0x00)
  | _ => .error (.unusedCode f)

/-- The instructions #30 to #3F, by the right-most digit of the function code. -/
def decode3 (low : Nat) (f r sd t : Byte) : Decode :=
  match low with
  | 0 => decoded (.shifti r sd t) (true)
  | 1 => decoded (.ibnz r sd t) (true)
  | 2 => decoded (.bab r sd t) (fixedBits r 0x09 0x00)
  | 3 => decoded (.badf r (sd.extractLsb' 0 6) t) (fixedBits r 0x09 0x00 && fixedBits sd 0xC0 0x00)
  | 4 => decoded (.shift r sd t) (true)
  | 5 => decoded (.dbnz r sd t) (true)
  | 6 => decoded (.bsave r sd t) (true)
  | 7 => decoded (.rjtime t) (r == 0 && sd == 0)
  | 8 => decoded (.ltol r t) (sd == 0)
  | 9 => decoded (.clock t) (r == 0 && sd == 0)
  | 10 => decoded (.wjtime r) (sd == 0 && t == 0)
  | 11 => decoded (.lsdfr r t) (sd == 0)
  | 12 => decoded (.mpyxh r sd t) (true)
  | 13 => decoded (.mpyx r sd t) (true)
  | 14 => decoded (.es r (imm16 sd t)) (true)
  | 15 => decoded (.is r (imm16 sd t)) (true)
  | _ => .error (.unusedCode f)

/-- The instructions #40 to #4F, by the right-most digit of the function code. -/
def decode4 (low : Nat) (f r sd t : Byte) : Decode :=
  match low with
  | 0 => decoded (.adduh r sd t) (true)
  | 1 => decoded (.addlh r sd t) (true)
  | 2 => decoded (.addnh r sd t) (true)
  | 4 => decoded (.subuh r sd t) (true)
  | 5 => decoded (.sublh r sd t) (true)
  | 6 => decoded (.subnh r sd t) (true)
  | 8 => decoded (.mpyuh r sd t) (true)
  | 9 => decoded (.mpylh r sd t) (true)
  | 11 => decoded (.mpysh r sd t) (true)
  | 12 => decoded (.divuh r sd t) (true)
  | 13 => decoded (.esh r (imm16 sd t)) (true)
  | 14 => decoded (.ish r (imm16 sd t)) (true)
  | 15 => decoded (.divsh r sd t) (true)
  | _ => .error (.unusedCode f)

/-- The instructions #50 to #5F, by the right-most digit of the function code. -/
def decode5 (low : Nat) (f r sd t : Byte) : Decode :=
  match low with
  | 0 => decoded (.truh r t) (sd == 0)
  | 1 => decoded (.flrh r t) (sd == 0)
  | 2 => decoded (.clgh r t) (sd == 0)
  | 3 => decoded (.sqrth r t) (sd == 0)
  | 4 => decoded (.adjsh r sd t) (true)
  | 5 => decoded (.adjeh r sd t) (true)
  | 6 => decoded (.linkv r) (fixedBits r 0xE7 0x00 && sd == 0 && t == 0)
  | 7 => decoded (.rddom r t) (sd == 0)
  | 8 => decoded (.rtorh r t) (sd == 0)
  | 9 => decoded (.absh r t) (sd == 0)
  | 10 => decoded (.exph r t) (sd == 0)
  | 11 => decoded (.packh r sd t) (true)
  | 12 => decoded (.exth r t) (sd == 0)
  | 13 => decoded (.extxh r t) (sd == 0)
  | 14 => decoded (.lodh r sd t) (true)
  | 15 => decoded (.stoh r sd t) (true)
  | _ => .error (.unusedCode f)

/-- The instructions #60 to #6F, by the right-most digit of the function code. -/
def decode6 (low : Nat) (f r sd t : Byte) : Decode :=
  match low with
  | 0 => decoded (.addu r sd t) (true)
  | 1 => decoded (.addl r sd t) (true)
  | 2 => decoded (.addn r sd t) (true)
  | 3 => decoded (.addx r sd t) (true)
  | 4 => decoded (.subu r sd t) (true)
  | 5 => decoded (.subl r sd t) (true)
  | 6 => decoded (.subn r sd t) (true)
  | 7 => decoded (.subx r sd t) (true)
  | 8 => decoded (.mpyu r sd t) (true)
  | 9 => decoded (.mpyl r sd t) (true)
  | 11 => decoded (.mpys r sd t) (true)
  | 12 => decoded (.divu r sd t) (true)
  | 13 => decoded (.insb r sd t) (true)
  | 14 => decoded (.extb r sd t) (true)
  | 15 => decoded (.divs r sd t) (true)
  | _ => .error (.unusedCode f)

/-- The instructions #70 to #7F, by the right-most digit of the function code. -/
def decode7 (low : Nat) (f r sd t : Byte) : Decode :=
  match low with
  | 0 => decoded (.tru r t) (sd == 0)
  | 1 => decoded (.flr r t) (sd == 0)
  | 2 => decoded (.clg r t) (sd == 0)
  | 3 => decoded (.sqrt r t) (sd == 0)
  | 4 => decoded (.adjs r sd t) (true)
  | 5 => decoded (.adje r sd t) (true)
  | 6 => decoded (.con r t) (sd == 0)
  | 7 => decoded (.rcon r t) (sd == 0)
  | 8 => decoded (.rtor r t) (sd == 0)
  | 9 => decoded (.abs r t) (sd == 0)
  | 10 => decoded (.exp r t) (sd == 0)
  | 11 => decoded (.pack r sd t) (true)
  | 12 => decoded (.ltor r t) (sd == 0)
  | 13 => decoded (.rgap r sd t) (true)
  | 14 => decoded (.lod r sd t) (true)
  | 15 => decoded (.sto r sd t) (true)
  | _ => .error (.unusedCode f)

/-- The instructions #80 to #8F, by the right-most digit of the function code. -/
def decode8 (low : Nat) (f g x a y b z c : Byte) : Decode :=
  match low with
  | 0 => decoded (.adduv g x a y b z c) (true)
  | 1 => decoded (.addlv g x a y b z c) (true)
  | 2 => decoded (.addnv g x a y b z c) (true)
  | 3 => decoded (.addxv g x a y b z c) (fixedBits g 0x87 0x00)
  | 4 => decoded (.subuv g x a y b z c) (true)
  | 5 => decoded (.sublv g x a y b z c) (true)
  | 6 => decoded (.subnv g x a y b z c) (true)
  | 7 => decoded (.subxv g x a y b z c) (fixedBits g 0x87 0x00)
  | 8 => decoded (.mpyuv g x a y b z c) (true)
  | 9 => decoded (.mpylv g x a y b z c) (true)
  | 10 => decoded (.shiftv g x a y b z c) (fixedBits g 0x87 0x00)
  | 11 => decoded (.mpysv g x a y b z c) (true)
  | 12 => decoded (.divuv g x a y b z c) (true)
  | 15 => decoded (.divsv g x a y b z c) (true)
  | _ => .error (.unusedCode f)

/-- The instructions #90 to #9F, by the right-most digit of the function code. -/
def decode9 (low : Nat) (f g x a y b z c : Byte) : Decode :=
  match low with
  | 0 => decoded (.truv g x a z c) (fixedBits g 0x0F 0x00 && y == 0 && b == 0)
  | 1 => decoded (.flrv g x a z c) (fixedBits g 0x0F 0x00 && y == 0 && b == 0)
  | 2 => decoded (.clgv g x a z c) (fixedBits g 0x0F 0x00 && y == 0 && b == 0)
  | 3 => decoded (.sqrtv g x a z c) (fixedBits g 0x09 0x00 && y == 0 && b == 0)
  | 4 => decoded (.adjsv g x a y b z c) (fixedBits g 0x07 0x00)
  | 5 => decoded (.adjev g x a y b z c) (fixedBits g 0x07 0x00)
  | 6 => decoded (.conv g x a z c) (fixedBits g 0x8F 0x00 && y == 0 && b == 0)
  | 7 => decoded (.rconv g x a z c) (fixedBits g 0x8F 0x00 && y == 0 && b == 0)
  | 8 => decoded (.vtov g x a z c) (fixedBits g 0x0F 0x00 && y == 0 && b == 0)
  | 9 => decoded (.absv g x a z c) (fixedBits g 0x0F 0x00 && y == 0 && b == 0)
  | 10 => decoded (.expv g x a z c) (fixedBits g 0x0F 0x00 && y == 0 && b == 0)
  | 11 => decoded (.packv g x a y b z c) (fixedBits g 0x07 0x00)
  | 12 => decoded (.extv g x a z c) (fixedBits g 0x8F 0x00 && y == 0 && b == 0)
  | 13 => match g.toNat % 8 with
    | 0 => decoded (.xorv g x a y b z c) (fixedBits g 0x07 0x00)
    | 1 => decoded (.andv g x a y b z c) (fixedBits g 0x07 0x01)
    | 2 => decoded (.iorv g x a y b z c) (fixedBits g 0x07 0x02)
    | 3 => decoded (.nandv g x a y b z c) (fixedBits g 0x07 0x03)
    | 4 => decoded (.norv g x a y b z c) (fixedBits g 0x07 0x04)
    | 5 => decoded (.ornv g x a y b z c) (fixedBits g 0x07 0x05)
    | 6 => decoded (.andnv g x a y b z c) (fixedBits g 0x07 0x06)
    | _ => decoded (.xornv g x a y b z c) (fixedBits g 0x07 0x07)
  | _ => .error (.unusedCode f)

/-- The instructions #A0 to #AF, by the right-most digit of the function code. -/
def decodeA (low : Nat) (f g x a y b z c : Byte) : Decode :=
  match low with
  | 0 => decoded (.addus g x a y b z c) (true)
  | 1 => decoded (.addls g x a y b z c) (true)
  | 2 => decoded (.addns g x a y b z c) (true)
  | 4 => decoded (.subus g x a y b z c) (true)
  | 5 => decoded (.subls g x a y b z c) (true)
  | 6 => decoded (.subns g x a y b z c) (true)
  | 8 => decoded (.mpyus g x a y b z c) (true)
  | 9 => decoded (.mpyls g x a y b z c) (true)
  | 11 => decoded (.mpyss g x a y b z c) (true)
  | 12 => decoded (.divus g x a y b z c) (true)
  | 15 => decoded (.divss g x a y b z c) (true)
  | _ => .error (.unusedCode f)

/-- The instructions #B0 to #BF, by the right-most digit of the function code. -/
def decodeB (low : Nat) (f g x a y b z c : Byte) : Decode :=
  match low with
  | 0 => match g.toNat / 32 % 4 with
    | 0 => decoded (.ibxeqBr g x a y b z c) (fixedBits g 0x61 0x00)
    | 1 => decoded (.ibxeqSc g x a y z c) (fixedBits g 0x67 0x20 && b == 0)
    | 2 => decoded (.cfpeqBr g x a y b) (fixedBits g 0x79 0x40 && z == 0 && c == 0)
    | _ => decoded (.cfpeqSc g x a y) (fixedBits g 0x7F 0x60 && b == 0 && z == 0 && c == 0)
  | 1 => match g.toNat / 32 % 4 with
    | 0 => decoded (.ibxneBr g x a y b z c) (fixedBits g 0x61 0x00)
    | 1 => decoded (.ibxneSc g x a y z c) (fixedBits g 0x67 0x20 && b == 0)
    | 2 => decoded (.cfpneBr g x a y b) (fixedBits g 0x79 0x40 && z == 0 && c == 0)
    | _ => decoded (.cfpneSc g x a y) (fixedBits g 0x7F 0x60 && b == 0 && z == 0 && c == 0)
  | 2 => match g.toNat / 32 % 4 with
    | 0 => decoded (.ibxgeBr g x a y b z c) (fixedBits g 0x71 0x00)
    | 1 => decoded (.ibxgeSc g x a y z c) (fixedBits g 0x77 0x20 && b == 0)
    | 2 => decoded (.cfpgeBr g x a y b) (fixedBits g 0x79 0x40 && z == 0 && c == 0)
    | _ => decoded (.cfpgeSc g x a y) (fixedBits g 0x7F 0x60 && b == 0 && z == 0 && c == 0)
  | 3 => match g.toNat / 32 % 4 with
    | 0 => decoded (.ibxltBr g x a y b z c) (fixedBits g 0x71 0x00)
    | 1 => decoded (.ibxltSc g x a y z c) (fixedBits g 0x77 0x20 && b == 0)
    | 2 => decoded (.cfpltBr g x a y b) (fixedBits g 0x79 0x40 && z == 0 && c == 0)
    | _ => decoded (.cfpltSc g x a y) (fixedBits g 0x7F 0x60 && b == 0 && z == 0 && c == 0)
  | 4 => match g.toNat / 32 % 4 with
    | 0 => decoded (.ibxleBr g x a y b z c) (fixedBits g 0x71 0x00)
    | 1 => decoded (.ibxleSc g x a y z c) (fixedBits g 0x77 0x20 && b == 0)
    | 2 => decoded (.cfpleBr g x a y b) (fixedBits g 0x79 0x40 && z == 0 && c == 0)
    | _ => decoded (.cfpleSc g x a y) (fixedBits g 0x7F 0x60 && b == 0 && z == 0 && c == 0)
  | 5 => match g.toNat / 32 % 4 with
    | 0 => decoded (.ibxgtBr g x a y b z c) (fixedBits g 0x71 0x00)
    | 1 => decoded (.ibxgtSc g x a y z c) (fixedBits g 0x77 0x20 && b == 0)
    | 2 => decoded (.cfpgtBr g x a y b) (fixedBits g 0x79 0x40 && z == 0 && c == 0)
    | _ => decoded (.cfpgtSc g x a y) (fixedBits g 0x7F 0x60 && b == 0 && z == 0 && c == 0)
  | 6 => decoded (.bim g (imm48 x a y b z c)) (true)
  | 7 => decoded (.vtovx g x a y b c) (fixedBits g 0x70 0x00 && z == 0)
  | 8 => decoded (.vrevv g x a z c) (fixedBits g 0x1F 0x00 && y == 0 && b == 0)
  | 10 => decoded (.vxtov g x a y b c) (fixedBits g 0x78 0x00 && z == 0)
  | 11 => decoded (.maskv g x a y b z c) (fixedBits g 0x67 0x00)
  | 12 => decoded (.cpsv g x a z c) (fixedBits g 0x3F 0x00 && y == 0 && b == 0)
  | 13 => decoded (.mrgv g x a y b z c) (fixedBits g 0x66 0x00)
  | 14 => decoded (.ex g (imm48 x a y b z c)) (true)
  | 15 => decoded (.ix g (imm48 x a y b z c)) (true)
  | _ => .error (.unusedCode f)

/-- The instructions #C0 to #CF, by the right-most digit of the function code. -/
def decodeC (low : Nat) (f g x a y b z c : Byte) : Decode :=
  match low with
  | 0 => decoded (.seleq g x a y b z c) (fixedBits g 0x27 0x00)
  | 1 => decoded (.selne g x a y b z c) (fixedBits g 0x27 0x00)
  | 2 => decoded (.selge g x a y b z c) (fixedBits g 0x27 0x00)
  | 3 => decoded (.sellt g x a y b z c) (fixedBits g 0x27 0x00)
  | 4 => decoded (.cmpeq g x a y b z) (fixedBits g 0x67 0x00 && c == 0)
  | 5 => decoded (.cmpne g x a y b z) (fixedBits g 0x67 0x00 && c == 0)
  | 6 => decoded (.cmpge g x a y b z) (fixedBits g 0x67 0x00 && c == 0)
  | 7 => decoded (.cmplt g x a y b z) (fixedBits g 0x67 0x00 && c == 0)
  | 8 => decoded (.srcheq g x a y b z c) (fixedBits g 0x1F 0x00)
  | 9 => decoded (.srchne g x a y b z c) (fixedBits g 0x1F 0x00)
  | 10 => decoded (.srchge g x a y b z c) (fixedBits g 0x1F 0x00)
  | 11 => decoded (.srchlt g x a y b z c) (fixedBits g 0x1F 0x00)
  | 12 => decoded (.mcmpw g x a b c) (fixedBits g 0xFE 0x00 && y == 0 && z == 0)
  | 13 => decoded (.exh g (imm24 b z c)) (x == 0 && a == 0 && y == 0)
  | 14 => decoded (.ixh g (imm24 b z c)) (x == 0 && a == 0 && y == 0)
  | 15 => decoded (.acps g x a y b z c) (fixedBits g 0x70 0x00)
  | _ => .error (.unusedCode f)

/-- The instructions #D0 to #DF, by the right-most digit of the function code. -/
def decodeD (low : Nat) (f g x a y b z c : Byte) : Decode :=
  match low with
  | 0 => decoded (.avg g x a y b z c) (fixedBits g 0x07 0x00)
  | 1 => decoded (.adjmean g x a z c) (fixedBits g 0x1F 0x00 && y == 0 && b == 0)
  | 4 => decoded (.avgd g x a y b z c) (fixedBits g 0x07 0x00)
  | 5 => decoded (.delta g x a z c) (fixedBits g 0x1F 0x00 && y == 0 && b == 0)
  | 8 => decoded (.max g x a b z c) (fixedBits g 0x3B 0x00 && y == 0)
  | 9 => decoded (.min g x a b z c) (fixedBits g 0x3B 0x00 && y == 0)
  | 10 => decoded (.sum g x a z c) (fixedBits g 0x3F 0x00 && y == 0 && b == 0)
  | 11 => decoded (.product g x a z c) (fixedBits g 0x3F 0x00 && y == 0 && b == 0)
  | 12 => decoded (.dotv g x a y b z c) (fixedBits g 0x27 0x00)
  | 15 => decoded (.interval g a b z c) (fixedBits g 0x1F 0x00 && x == 0 && y == 0)
  | _ => .error (.unusedCode f)

/-- The instructions #F0 to #FF, by the right-most digit of the function code. -/
def decodeF (low : Nat) (f g x a y b z c : Byte) : Decode :=
  match low with
  | 0 => decoded (.xor x a y b z c) (g == 0)
  | 1 => decoded (.and x a y b z c) (g == 0)
  | 2 => decoded (.ior x a y b z c) (g == 0)
  | 3 => decoded (.nand x a y b z c) (g == 0)
  | 4 => decoded (.nor x a y b z c) (g == 0)
  | 5 => decoded (.orn x a y b z c) (g == 0)
  | 6 => decoded (.andn x a y b z c) (g == 0)
  | 7 => decoded (.xorn x a y b z c) (g == 0)
  | 8 => decoded (.movl x a b z c) (g == 0 && y == 0)
  | 10 => decoded (.post g x b c) (fixedBits g 0xCF 0x00 && a == 0 && y == 0 && z == 0)
  | 11 => decoded (.wait g x a b c) (fixedBits g 0xCC 0x00 && y == 0 && z == 0)
  | 12 => decoded (.bbswap g x a b c) (fixedBits g 0x7C 0x00 && y == 0 && z == 0)
  | 13 => decoded (.bbldst g x a b c) (fixedBits g 0x7C 0x00 && y == 0 && z == 0)
  | 14 => decoded (.cbld g x c) (fixedBits g 0x7C 0x00 && a == 0 && y == 0 && b == 0 && z == 0)
  | 15 => decoded (.cbsto g x c) (fixedBits g 0x7C 0x00 && a == 0 && y == 0 && b == 0 && z == 0)
  | _ => .error (.unusedCode f)

/-- A 32-bit instruction from its four bytes (R101): the left-most digit of the function code selects the table. -/
def decode32 (f r sd t : Byte) : Decode :=
  match f.toNat / 16 with
  | 0 => decode0 (f.toNat % 16) f r sd t
  | 1 => decode1 (f.toNat % 16) f r sd t
  | 2 => decode2 (f.toNat % 16) f r sd t
  | 3 => decode3 (f.toNat % 16) f r sd t
  | 4 => decode4 (f.toNat % 16) f r sd t
  | 5 => decode5 (f.toNat % 16) f r sd t
  | 6 => decode6 (f.toNat % 16) f r sd t
  | _ => decode7 (f.toNat % 16) f r sd t

/-- A 64-bit instruction from its eight bytes (R102). -/
def decode64 (f g x a y b z c : Byte) : Decode :=
  match f.toNat / 16 with
  | 8 => decode8 (f.toNat % 16) f g x a y b z c
  | 9 => decode9 (f.toNat % 16) f g x a y b z c
  | 10 => decodeA (f.toNat % 16) f g x a y b z c
  | 11 => decodeB (f.toNat % 16) f g x a y b z c
  | 12 => decodeC (f.toNat % 16) f g x a y b z c
  | 13 => decodeD (f.toNat % 16) f g x a y b z c
  | 14 => .error (.unusedCode f)
  | _ => decodeF (f.toNat % 16) f g x a y b z c

/-- The instruction that a sequence of bytes begins with: #00 to #7F have four bytes, #80 to #FF eight (R100). -/
def decode : List Byte → Decode
  | f :: r :: sd :: t :: rest =>
    if f.toNat < 0x80 then decode32 f r sd t
    else match rest with
      | y :: b :: z :: c :: _ => decode64 f r sd t y b z c
      | _ => .error .truncated
  | _ => .error .truncated

/-- How many bits the instruction with function code `f` has (R100). -/
def lengthBits (f : Byte) : Nat := if f.toNat < 0x80 then 32 else 64

/-- The bytes of a 16-bit immediate. -/
def bytes16 (v : BitVec 16) : List Byte := [v.extractLsb' 8 8, v.extractLsb' 0 8]

/-- The bytes of a 24-bit immediate. -/
def bytes24 (v : BitVec 24) : List Byte := [v.extractLsb' 16 8, v.extractLsb' 8 8, v.extractLsb' 0 8]

/-- The bytes of a 48-bit immediate. -/
def bytes48 (v : BitVec 48) : List Byte :=
  [v.extractLsb' 40 8, v.extractLsb' 32 8, v.extractLsb' 24 8, v.extractLsb' 16 8, v.extractLsb' 8 8, v.extractLsb' 0 8]

/-- The bytes of an instruction, the one at the lowest address first (R66, R101, R102); every unused bit is zero. -/
def encode : Instr → List Byte
  | .idle => [0x00, 0, 0, 0]
  | .nop => [0x03, 0, 0, 0]
  | .bkpt r => [0x04, r, 0, 0]
  | .vsb t => [0x05, 0, 0, t]
  | .fault r => [0x06, r, 0, 0]
  | .setmod r => [0x07, r, 0, 0]
  | .setint r => [0x08, r, 0, 0]
  | .exit r sd t => [0x09, r, sd, t]
  | .mtime r => [0x0A, r, 0, 0]
  | .stoar => [0x0C, 0, 0, 0]
  | .lodar => [0x0D, 0, 0, 0]
  | .rdint t => [0x0E, 0, 0, t]
  | .lodkey r sd t => [0x0F, r, sd, t]
  | .dtob r t => [0x10, r, 0, t]
  | .btod r t => [0x11, r, 0, t]
  | .lodc r sd t => [0x12, r, sd, t]
  | .stoc r sd t => [0x13, r, sd, t]
  | .cpsb r sd t => [0x14, r, sd, t]
  | .mrgb r sd t => [0x15, r, sd, t]
  | .maskb r sd t => [0x16, r, sd, t]
  | .exdom => [0x17, 0, 0, 0]
  | .swcqta sd t => [0x18, 0, sd, t]
  | .strtio sd t => [0x19, 0, sd, t]
  | .stopio sd t => [0x1A, 0, sd, t]
  | .testio t => [0x1B, 0, 0, t]
  | .maskz r sd t => [0x1C, r, sd, t]
  | .masko r sd t => [0x1D, r, sd, t]
  | .enteq r sd t => [0x1E, r, sd, t]
  | .ento r sd t => [0x1F, r, sd, t]
  | .bheq r sd t => [0x20, r, sd, t]
  | .bhne r sd t => [0x21, r, sd, t]
  | .bhge r sd t => [0x22, r, sd, t]
  | .bhlt r sd t => [0x23, r, sd, t]
  | .beq r sd t => [0x24, r, sd, t]
  | .bne r sd t => [0x25, r, sd, t]
  | .bge r sd t => [0x26, r, sd, t]
  | .blt r sd t => [0x27, r, sd, t]
  | .scnleq r sd t => [0x28, r, sd, t]
  | .tfc t => [0x29, 0, 0, t]
  | .elen r im => [0x2A, r] ++ bytes16 im
  | .addlen r sd t => [0x2B, r, sd, t]
  | .rxor r sd t => [0x2C, r, sd, t]
  | .rand r sd t => [0x2D, r, sd, t]
  | .rior r sd t => [0x2E, r, sd, t]
  | .barb g sd t => [0x2F, g, sd, t]
  | .shifti r sd t => [0x30, r, sd, t]
  | .ibnz r sd t => [0x31, r, sd, t]
  | .bab g sd t => [0x32, g, sd, t]
  | .badf g im t => [0x33, g, im.setWidth 8, t]
  | .shift r sd t => [0x34, r, sd, t]
  | .dbnz r sd t => [0x35, r, sd, t]
  | .bsave r sd t => [0x36, r, sd, t]
  | .rjtime t => [0x37, 0, 0, t]
  | .ltol r t => [0x38, r, 0, t]
  | .clock t => [0x39, 0, 0, t]
  | .wjtime r => [0x3A, r, 0, 0]
  | .lsdfr r t => [0x3B, r, 0, t]
  | .mpyxh r sd t => [0x3C, r, sd, t]
  | .mpyx r sd t => [0x3D, r, sd, t]
  | .es r im => [0x3E, r] ++ bytes16 im
  | .is r im => [0x3F, r] ++ bytes16 im
  | .adduh r sd t => [0x40, r, sd, t]
  | .addlh r sd t => [0x41, r, sd, t]
  | .addnh r sd t => [0x42, r, sd, t]
  | .subuh r sd t => [0x44, r, sd, t]
  | .sublh r sd t => [0x45, r, sd, t]
  | .subnh r sd t => [0x46, r, sd, t]
  | .mpyuh r sd t => [0x48, r, sd, t]
  | .mpylh r sd t => [0x49, r, sd, t]
  | .mpysh r sd t => [0x4B, r, sd, t]
  | .divuh r sd t => [0x4C, r, sd, t]
  | .esh r im => [0x4D, r] ++ bytes16 im
  | .ish r im => [0x4E, r] ++ bytes16 im
  | .divsh r sd t => [0x4F, r, sd, t]
  | .truh r t => [0x50, r, 0, t]
  | .flrh r t => [0x51, r, 0, t]
  | .clgh r t => [0x52, r, 0, t]
  | .sqrth r t => [0x53, r, 0, t]
  | .adjsh r sd t => [0x54, r, sd, t]
  | .adjeh r sd t => [0x55, r, sd, t]
  | .linkv r => [0x56, r, 0, 0]
  | .rddom r t => [0x57, r, 0, t]
  | .rtorh r t => [0x58, r, 0, t]
  | .absh r t => [0x59, r, 0, t]
  | .exph r t => [0x5A, r, 0, t]
  | .packh r sd t => [0x5B, r, sd, t]
  | .exth r t => [0x5C, r, 0, t]
  | .extxh r t => [0x5D, r, 0, t]
  | .lodh r sd t => [0x5E, r, sd, t]
  | .stoh r sd t => [0x5F, r, sd, t]
  | .addu r sd t => [0x60, r, sd, t]
  | .addl r sd t => [0x61, r, sd, t]
  | .addn r sd t => [0x62, r, sd, t]
  | .addx r sd t => [0x63, r, sd, t]
  | .subu r sd t => [0x64, r, sd, t]
  | .subl r sd t => [0x65, r, sd, t]
  | .subn r sd t => [0x66, r, sd, t]
  | .subx r sd t => [0x67, r, sd, t]
  | .mpyu r sd t => [0x68, r, sd, t]
  | .mpyl r sd t => [0x69, r, sd, t]
  | .mpys r sd t => [0x6B, r, sd, t]
  | .divu r sd t => [0x6C, r, sd, t]
  | .insb r sd t => [0x6D, r, sd, t]
  | .extb r sd t => [0x6E, r, sd, t]
  | .divs r sd t => [0x6F, r, sd, t]
  | .tru r t => [0x70, r, 0, t]
  | .flr r t => [0x71, r, 0, t]
  | .clg r t => [0x72, r, 0, t]
  | .sqrt r t => [0x73, r, 0, t]
  | .adjs r sd t => [0x74, r, sd, t]
  | .adje r sd t => [0x75, r, sd, t]
  | .con r t => [0x76, r, 0, t]
  | .rcon r t => [0x77, r, 0, t]
  | .rtor r t => [0x78, r, 0, t]
  | .abs r t => [0x79, r, 0, t]
  | .exp r t => [0x7A, r, 0, t]
  | .pack r sd t => [0x7B, r, sd, t]
  | .ltor r t => [0x7C, r, 0, t]
  | .rgap r sd t => [0x7D, r, sd, t]
  | .lod r sd t => [0x7E, r, sd, t]
  | .sto r sd t => [0x7F, r, sd, t]
  | .adduv g x a y b z c => [0x80, g, x, a, y, b, z, c]
  | .addlv g x a y b z c => [0x81, g, x, a, y, b, z, c]
  | .addnv g x a y b z c => [0x82, g, x, a, y, b, z, c]
  | .addxv g x a y b z c => [0x83, g, x, a, y, b, z, c]
  | .subuv g x a y b z c => [0x84, g, x, a, y, b, z, c]
  | .sublv g x a y b z c => [0x85, g, x, a, y, b, z, c]
  | .subnv g x a y b z c => [0x86, g, x, a, y, b, z, c]
  | .subxv g x a y b z c => [0x87, g, x, a, y, b, z, c]
  | .mpyuv g x a y b z c => [0x88, g, x, a, y, b, z, c]
  | .mpylv g x a y b z c => [0x89, g, x, a, y, b, z, c]
  | .shiftv g x a y b z c => [0x8A, g, x, a, y, b, z, c]
  | .mpysv g x a y b z c => [0x8B, g, x, a, y, b, z, c]
  | .divuv g x a y b z c => [0x8C, g, x, a, y, b, z, c]
  | .divsv g x a y b z c => [0x8F, g, x, a, y, b, z, c]
  | .truv g x a z c => [0x90, g, x, a, 0, 0, z, c]
  | .flrv g x a z c => [0x91, g, x, a, 0, 0, z, c]
  | .clgv g x a z c => [0x92, g, x, a, 0, 0, z, c]
  | .sqrtv g x a z c => [0x93, g, x, a, 0, 0, z, c]
  | .adjsv g x a y b z c => [0x94, g, x, a, y, b, z, c]
  | .adjev g x a y b z c => [0x95, g, x, a, y, b, z, c]
  | .conv g x a z c => [0x96, g, x, a, 0, 0, z, c]
  | .rconv g x a z c => [0x97, g, x, a, 0, 0, z, c]
  | .vtov g x a z c => [0x98, g, x, a, 0, 0, z, c]
  | .absv g x a z c => [0x99, g, x, a, 0, 0, z, c]
  | .expv g x a z c => [0x9A, g, x, a, 0, 0, z, c]
  | .packv g x a y b z c => [0x9B, g, x, a, y, b, z, c]
  | .extv g x a z c => [0x9C, g, x, a, 0, 0, z, c]
  | .xorv g x a y b z c => [0x9D, g, x, a, y, b, z, c]
  | .andv g x a y b z c => [0x9D, g, x, a, y, b, z, c]
  | .iorv g x a y b z c => [0x9D, g, x, a, y, b, z, c]
  | .nandv g x a y b z c => [0x9D, g, x, a, y, b, z, c]
  | .norv g x a y b z c => [0x9D, g, x, a, y, b, z, c]
  | .ornv g x a y b z c => [0x9D, g, x, a, y, b, z, c]
  | .andnv g x a y b z c => [0x9D, g, x, a, y, b, z, c]
  | .xornv g x a y b z c => [0x9D, g, x, a, y, b, z, c]
  | .addus g x a y b z c => [0xA0, g, x, a, y, b, z, c]
  | .addls g x a y b z c => [0xA1, g, x, a, y, b, z, c]
  | .addns g x a y b z c => [0xA2, g, x, a, y, b, z, c]
  | .subus g x a y b z c => [0xA4, g, x, a, y, b, z, c]
  | .subls g x a y b z c => [0xA5, g, x, a, y, b, z, c]
  | .subns g x a y b z c => [0xA6, g, x, a, y, b, z, c]
  | .mpyus g x a y b z c => [0xA8, g, x, a, y, b, z, c]
  | .mpyls g x a y b z c => [0xA9, g, x, a, y, b, z, c]
  | .mpyss g x a y b z c => [0xAB, g, x, a, y, b, z, c]
  | .divus g x a y b z c => [0xAC, g, x, a, y, b, z, c]
  | .divss g x a y b z c => [0xAF, g, x, a, y, b, z, c]
  | .ibxeqBr g x a y b z c => [0xB0, g, x, a, y, b, z, c]
  | .ibxeqSc g x a y z c => [0xB0, g, x, a, y, 0, z, c]
  | .cfpeqBr g x a y b => [0xB0, g, x, a, y, b, 0, 0]
  | .cfpeqSc g x a y => [0xB0, g, x, a, y, 0, 0, 0]
  | .ibxneBr g x a y b z c => [0xB1, g, x, a, y, b, z, c]
  | .ibxneSc g x a y z c => [0xB1, g, x, a, y, 0, z, c]
  | .cfpneBr g x a y b => [0xB1, g, x, a, y, b, 0, 0]
  | .cfpneSc g x a y => [0xB1, g, x, a, y, 0, 0, 0]
  | .ibxgeBr g x a y b z c => [0xB2, g, x, a, y, b, z, c]
  | .ibxgeSc g x a y z c => [0xB2, g, x, a, y, 0, z, c]
  | .cfpgeBr g x a y b => [0xB2, g, x, a, y, b, 0, 0]
  | .cfpgeSc g x a y => [0xB2, g, x, a, y, 0, 0, 0]
  | .ibxltBr g x a y b z c => [0xB3, g, x, a, y, b, z, c]
  | .ibxltSc g x a y z c => [0xB3, g, x, a, y, 0, z, c]
  | .cfpltBr g x a y b => [0xB3, g, x, a, y, b, 0, 0]
  | .cfpltSc g x a y => [0xB3, g, x, a, y, 0, 0, 0]
  | .ibxleBr g x a y b z c => [0xB4, g, x, a, y, b, z, c]
  | .ibxleSc g x a y z c => [0xB4, g, x, a, y, 0, z, c]
  | .cfpleBr g x a y b => [0xB4, g, x, a, y, b, 0, 0]
  | .cfpleSc g x a y => [0xB4, g, x, a, y, 0, 0, 0]
  | .ibxgtBr g x a y b z c => [0xB5, g, x, a, y, b, z, c]
  | .ibxgtSc g x a y z c => [0xB5, g, x, a, y, 0, z, c]
  | .cfpgtBr g x a y b => [0xB5, g, x, a, y, b, 0, 0]
  | .cfpgtSc g x a y => [0xB5, g, x, a, y, 0, 0, 0]
  | .bim r im => [0xB6, r] ++ bytes48 im
  | .vtovx g x a y b c => [0xB7, g, x, a, y, b, 0, c]
  | .vrevv g x a z c => [0xB8, g, x, a, 0, 0, z, c]
  | .vxtov g x a y b c => [0xBA, g, x, a, y, b, 0, c]
  | .maskv g x a y b z c => [0xBB, g, x, a, y, b, z, c]
  | .cpsv g x a z c => [0xBC, g, x, a, 0, 0, z, c]
  | .mrgv g x a y b z c => [0xBD, g, x, a, y, b, z, c]
  | .ex r im => [0xBE, r] ++ bytes48 im
  | .ix r im => [0xBF, r] ++ bytes48 im
  | .seleq g x a y b z c => [0xC0, g, x, a, y, b, z, c]
  | .selne g x a y b z c => [0xC1, g, x, a, y, b, z, c]
  | .selge g x a y b z c => [0xC2, g, x, a, y, b, z, c]
  | .sellt g x a y b z c => [0xC3, g, x, a, y, b, z, c]
  | .cmpeq g x a y b z => [0xC4, g, x, a, y, b, z, 0]
  | .cmpne g x a y b z => [0xC5, g, x, a, y, b, z, 0]
  | .cmpge g x a y b z => [0xC6, g, x, a, y, b, z, 0]
  | .cmplt g x a y b z => [0xC7, g, x, a, y, b, z, 0]
  | .srcheq g x a y b z c => [0xC8, g, x, a, y, b, z, c]
  | .srchne g x a y b z c => [0xC9, g, x, a, y, b, z, c]
  | .srchge g x a y b z c => [0xCA, g, x, a, y, b, z, c]
  | .srchlt g x a y b z c => [0xCB, g, x, a, y, b, z, c]
  | .mcmpw g x a b c => [0xCC, g, x, a, 0, b, 0, c]
  | .exh r im => [0xCD, r, 0, 0, 0] ++ bytes24 im
  | .ixh r im => [0xCE, r, 0, 0, 0] ++ bytes24 im
  | .acps g x a y b z c => [0xCF, g, x, a, y, b, z, c]
  | .avg g x a y b z c => [0xD0, g, x, a, y, b, z, c]
  | .adjmean g x a z c => [0xD1, g, x, a, 0, 0, z, c]
  | .avgd g x a y b z c => [0xD4, g, x, a, y, b, z, c]
  | .delta g x a z c => [0xD5, g, x, a, 0, 0, z, c]
  | .max g x a b z c => [0xD8, g, x, a, 0, b, z, c]
  | .min g x a b z c => [0xD9, g, x, a, 0, b, z, c]
  | .sum g x a z c => [0xDA, g, x, a, 0, 0, z, c]
  | .product g x a z c => [0xDB, g, x, a, 0, 0, z, c]
  | .dotv g x a y b z c => [0xDC, g, x, a, y, b, z, c]
  | .interval g a b z c => [0xDF, g, 0, a, 0, b, z, c]
  | .xor x a y b z c => [0xF0, 0, x, a, y, b, z, c]
  | .and x a y b z c => [0xF1, 0, x, a, y, b, z, c]
  | .ior x a y b z c => [0xF2, 0, x, a, y, b, z, c]
  | .nand x a y b z c => [0xF3, 0, x, a, y, b, z, c]
  | .nor x a y b z c => [0xF4, 0, x, a, y, b, z, c]
  | .orn x a y b z c => [0xF5, 0, x, a, y, b, z, c]
  | .andn x a y b z c => [0xF6, 0, x, a, y, b, z, c]
  | .xorn x a y b z c => [0xF7, 0, x, a, y, b, z, c]
  | .movl x a b z c => [0xF8, 0, x, a, 0, b, z, c]
  | .post g x b c => [0xFA, g, x, 0, 0, b, 0, c]
  | .wait g x a b c => [0xFB, g, x, a, 0, b, 0, c]
  | .bbswap g x a b c => [0xFC, g, x, a, 0, b, 0, c]
  | .bbldst g x a b c => [0xFD, g, x, a, 0, b, 0, c]
  | .cbld g x c => [0xFE, g, x, 0, 0, 0, 0, c]
  | .cbsto g x c => [0xFF, g, x, 0, 0, 0, 0, c]

/-- `n` bytes of a number, the least significant first: byte `k` is bits `8k+7` to `8k`. -/
def numberBytes (w : Nat) : Nat → List Byte
  | 0 => []
  | n + 1 => BitVec.ofNat 8 w :: numberBytes (w / 256) n

/-- The bytes, lowest address first, of an instruction that the opcode table gives as the number `w` of `nbits` bits.
A half word of the machine stands in memory with its most significant byte first (R63). A 32-bit row is one half word,
and every bit above it is 0. A 64-bit row is the number whose left-most byte is the function code, as the table's `match`
and `mask` write it; where the left-most byte of `w` is no function code of a 64-bit instruction, the first half word
is the number's low half, as the order 'first word least significant' numbers it. Log entry 6. -/
def tableBytes (nbits w : Nat) : List Byte :=
  if nbits ≤ 32 then (numberBytes w 4).reverse ++ [0, 0, 0, 0]
  else if w / 2 ^ 56 % 256 < 0x80 then (numberBytes w 4).reverse ++ (numberBytes (w / 2 ^ 32) 4).reverse
  else (numberBytes w 8).reverse

/-- The instruction the decoder reads from the bits `w` of a row of the opcode table; none where it refuses. -/
def decodeTableWord (nbits w : Nat) : Option Instr :=
  match decode (tableBytes nbits w) with
  | .ok d => some d.instr
  | .error _ => none

end Sys2Proof
end

