-- ==== Sys2Proof/Machine/Fetch.lean ====
section
/-! DEFINITION. Fetching an instruction, its legality, and the end of an instruction (spec/60_exceptions.md R633, R634,
R643, spec/30_encoding.md R126). -/

namespace Sys2Proof.Machine

/-- The four bytes of a half word, the most significant first (R63, R66). -/
def halfBytes (v : Half) : List Byte := [v.extractLsb' 24 8, v.extractLsb' 16 8, v.extractLsb' 8 8, v.extractLsb' 0 8]

/-- The bytes of the instruction at `pc`: one half word, or two for the function codes #80 to #FF (R100). -/
def fetchBytes (pc : Addr) : M (List Byte) := do
  let h ← fetchHalf pc
  if (h.extractLsb' 24 8).toNat < 0x80 then return halfBytes h
  else return halfBytes h ++ halfBytes (← fetchHalf (pc + 32))

/-- What becomes of a fetched instruction (R126, decision D56): an unused function code is a Type One and a forbidden
one a Type Two illegal instruction; an instruction with an unused bit set is undefined; every other one is run. -/
inductive Verdict where
  | typeOne
  | typeTwo
  | unclean
  | run (i : Instr)
deriving DecidableEq, Repr

/-- The verdict on the instruction with these bytes. -/
def State.judge (s : State) (bytes : List Byte) : Verdict :=
  match decode bytes with
  | .error _ => .typeOne
  | .ok d =>
    if s.isTypeTwo (bytes.headD 0).toNat then .typeTwo
    else if d.clean then .run d.instr
    else .unclean

/-- The end of a step. A CPU that waits for a Master Clear takes no branch and no interrupt (R633, R643); an idle one only
the interrupt that ends the Idle (R665). -/
def State.after (s : State) : State := if s.stopped then s.countCycles.inputs.wake else s.between

/-- An outcome with the end of the instruction. -/
def afterOutcome (r : Host.Outcome State Fault Refusal) : Host.Outcome State Fault Refusal :=
  match r with
  | .next s => .next s.after
  | .fault f => .fault f
  | .refused r => .refused r

/-- Store bytes from byte address `a` on. -/
def setBytes (m : List Host.Cell) (a : Nat) : List Byte → List Host.Cell
  | [] => m
  | v :: rest => setBytes (Memory.setByte m a v) (a + 1) rest

/-- Store an instruction's bytes where the next fetch reads them, the instruction stack being void; in Job mode at the
addresses the page table now gives (log entry 6). -/
def State.place (s : State) (bytes : List Byte) : State :=
  let u := { s with waits := .running, stale := [] }
  match physical .fetch u.pc u with
  | .error _ => u
  | .ok (p, t) =>
    let first := setBytes u.mem (4 * (p / 32)) (bytes.take 4)
    match physical .fetch (u.pc + 32) t with
    | .error _ => { u with mem := first }
    | .ok (q, _) => { u with mem := setBytes first (4 * (q / 32)) ((bytes.drop 4).take 4) }

end Sys2Proof.Machine
end

