-- ==== Sys2Proof/Machine/Macro.lean ====
section
/-! DEFINITION. Instructions #C0 to #DF: select, compare to order vector, search, masked binary compare, half-word
immediates, arithmetic compress, average, delta, maximum, minimum, sum, product, dot product, interval
(spec/48_vector_macro.md). -/

namespace Sys2Proof.Machine

/-- How many pairs two streams have: a broadcast stream has no length (R580, R575). -/
def pairCount (p q : Stream) : Nat :=
  match p.length, q.length with
  | none, none => 0
  | some m, none => m
  | none, some n => n
  | some m, some n => min m n

/-- Element `i` of two streams, extended with machine zero. -/
def pairAt (w : Width) (p q : Stream) (i : Nat) : M (Word × Word) := do
  let x ← p.elem w (machineZero w) i
  let y ← q.elem w (machineZero w) i
  return (x, y)

/-- Compare element `i` of two streams and apply the comparison's flag. -/
def comparePair (w : Width) (p q : Stream) (i : Nat) : M Cmp := do
  let v ← pairAt w p q i
  let c := fpCompare w v.1 v.2
  update (·.raiseFlags .vector c.flags)
  return c

/-- A result register of 64 bits: with designator zero "results are undefined", so it gets a free value (log entry
26). -/
def setResult (c : Byte) (v : Word) : M Unit := do
  let v ← if c = 0 then drawFree else pure v
  update (·.setReg c v)

/-! ### Select (R580) -/

/-- Where the condition was met, if it was: the search stops there. -/
def selectStep (w : Width) (cond : Cmp → Bool) (p q : Stream) (ctl : Control) (i : Nat) (found : Option Nat) :
    M (Option Nat) :=
  match found with
  | some k => pure (some k)
  | none => do
    if ← ctl.permits i then
      let c ← comparePair w p q i
      return if cond c then some i else none
    else return none

/-- The select instructions (R580). That a length of zero is no operation also with designator C zero is DEDUCED, log entry
26. -/
def select (cond : Cmp → Bool) (g x a y b z c : Byte) (s : State) : Result :=
  let w := gWidth g
  run64 (do
    refuseIf (bitAt g 3 && bitAt g 4) .broadcastBoth
    let p ← source w (bitAt g 3) a x
    let q ← source w (bitAt g 4) b y
    let n := pairCount p q
    if n = 0 then pure () else
      let found ← elements n (selectStep w cond p q (s.control g z 0)) none
      setResult c (BitVec.ofNat 64 (found.getD n))
      if found.isNone then update (·.setFlag 37 true)) s

/-- #C0 Select EQ (R551). -/
def execSeleq (g x a y b z c : Byte) (s : State) : Result := select Cmp.eq g x a y b z c s

/-- #C1 Select NE (R552). -/
def execSelne (g x a y b z c : Byte) (s : State) : Result := select Cmp.ne g x a y b z c s

/-- #C2 Select GE (R553). -/
def execSelge (g x a y b z c : Byte) (s : State) : Result := select Cmp.ge g x a y b z c s

/-- #C3 Select LT (R554). -/
def execSellt (g x a y b z c : Byte) (s : State) : Result := select Cmp.lt g x a y b z c s

/-! ### Compare to order vector (R581) -/

/-- The compare-to-order-vector instructions (R581). That an offset of 2^16 or more is refused also where order vector Z has
no bit is DEDUCED, log entry 48. -/
def compareVector (cond : Cmp → Bool) (g x a y b z : Byte) (s : State) : Result :=
  let w := gWidth g
  run64 (do
    let p ← source w (bitAt g 3) a x
    let q ← source w (bitAt g 4) b y
    elements (s.len z) (fun i _ => do
      let c ← comparePair w p q i
      writeBit (s.addr z + BitVec.ofNat 48 i) (cond c)) ()) s

/-- #C4 Compare EQ (R555). -/
def execCmpeq (g x a y b z : Byte) (s : State) : Result := compareVector Cmp.eq g x a y b z s

/-- #C5 Compare NE (R556). -/
def execCmpne (g x a y b z : Byte) (s : State) : Result := compareVector Cmp.ne g x a y b z s

/-- #C6 Compare GE (R557). -/
def execCmpge (g x a y b z : Byte) (s : State) : Result := compareVector Cmp.ge g x a y b z s

/-- #C7 Compare LT (R558). -/
def execCmplt (g x a y b z : Byte) (s : State) : Result := compareVector Cmp.lt g x a y b z s

/-! ### Search (R582) -/

/-- One search iteration: vector B from element `start` on, until the condition is met; the flags are gathered. -/
def searchFrom (w : Width) (cond : Cmp → Bool) (p q : Stream) (j start count : Nat) : M (Option Nat × FpFlags) :=
  upTo count (fun k (acc : Option Nat × FpFlags) =>
    match acc.1 with
    | some _ => pure acc
    | none => do
      let x ← p.elem w (machineZero w) j
      let y ← q.elem w (machineZero w) (start + k)
      let c := fpCompare w x y
      return (if cond c then some (start + k) else none, acc.2.or c.flags)) (none, {})

/-- The search instructions (R582). With `lh` (G-bit 2) each search starts where the last one ended, also at positions
that are not permissive (decision D45); a vector A of no element makes it no operation (Table E-6), also where the offset Y
is of 2^16 or more, which R411 calls undefined: the spec gives no order, DESIGN CHOICE, log entry 48. -/
def searchList (cond : Cmp → Bool) (g x a y b z c : Byte) (s : State) : Result :=
  let w := gWidth g
  run64 (do
    let p ← source w false a x
    if p.length.getD 0 = 0 then pure () else
      let q ← source w false b y
      let n := q.length.getD 0
      let _ ← elements (p.length.getD 0) (fun j (start : Nat) => do
        let r ← searchFrom w cond p q j start (n - start)
        let index := r.1.getD n
        if ← (s.control g z 0).permits j then
          writeWord (itemAddr .w64 (s.addr c) j) (BitVec.ofNat 64 index)
          update (·.raiseFlags .vector r.2)
        return if bitAt g 2 then index else 0) 0) s

/-- #C8 Search EQ (R559). -/
def execSrcheq (g x a y b z c : Byte) (s : State) : Result := searchList Cmp.eq g x a y b z c s

/-- #C9 Search NE (R560). -/
def execSrchne (g x a y b z c : Byte) (s : State) : Result := searchList Cmp.ne g x a y b z c s

/-- #CA Search GE (R561). -/
def execSrchge (g x a y b z c : Byte) (s : State) : Result := searchList Cmp.ge g x a y b z c s

/-- #CB Search LT (R562). -/
def execSrchlt (g x a y b z c : Byte) (s : State) : Result := searchList Cmp.lt g x a y b z c s

/-! ### Masked binary compare and half-word immediates (R563 to R565) -/

/-- #CC Masked binary compare (R563): the search starts at word `Reg[X][16:63]` of field A (decision D44). -/
def execMcmpw (g x a b c : Byte) (s : State) : Result :=
  let n := s.len a - (s.addr x).toNat
  let m := s.reg c
  run64 (if n = 0 then pure () else do
    let found ← elements n (fun j (r : Option Nat) =>
      match r with
      | some k => pure (some k)
      | none => do
        let v ← readWord (s.addr a + scaled 6 (s.addr x + BitVec.ofNat 48 j))
        return if ((v &&& m) == (s.reg b &&& m)) != bitAt g 7 then some j else none) none
    update (·.setReg x (joinLen (lenPart (s.reg x)) (s.addr x + BitVec.ofNat 48 (found.getD n))))
    if found.isNone then update (·.setFlag 37 true)) s

/-- `Reg32[r] <- v`, then on to the next 64-bit instruction. -/
def State.put32wide (s : State) (r : Byte) (v : Half) : Result := .next (s.setReg32 r v).next64

/-- #CD Half-word enter (R) with a 24-bit immediate (R564). -/
def execExh (r : Byte) (im : BitVec 24) (s : State) : Result := s.put32wide r (0#8 ++ im)

/-- #CE Half-word increase (R) by a 24-bit immediate (R565). -/
def execIxh (r : Byte) (im : BitVec 24) (s : State) : Result :=
  s.put32wide r ((s.reg32 r).extractLsb' 24 8 ++ ((s.reg32 r).extractLsb' 0 24 + im))

/-! ### Arithmetic compress (R566) -/

/-- One position of #CF: the comparison is of the sign-controlled operands, the stored element is the original. With
Z = C the results are undefined: every element position holds a free value (log entry 25). -/
def compressStep (w : Width) (g : Byte) (p q : Stream) (zAddr cAddr : Addr) (same : Bool) (i k : Nat) : M Nat := do
  let v ← pairAt w p q i
  let c := fpCmp w ((gSign g).onA w (unpack w v.1)) ((gSign g).onB w (unpack w v.2))
  update (·.raiseFlags .vector c.flags)
  if same then
    writeElem w (itemAddr w cAddr i) (← freeElem w)
    return k
  else
    if c.ge then writeElem w (itemAddr w cAddr k) v.1
    writeBit (zAddr + BitVec.ofNat 48 i) c.ge
    return k + c.ge.toNat

/-- #CF Arithmetic compress (R566). That no element is no operation also with Z = C is DEDUCED, log entry 25; that it is one
also where the offset Y of a vector B is of 2^16 or more (R411) is a DESIGN CHOICE, log entry 48. -/
def execAcps (g x a y b z c : Byte) (s : State) : Result :=
  let w := gWidth g
  run64 (do
    let p ← source w false a x
    let n := p.length.getD 0
    if n = 0 then pure () else
      let q ← source w (bitAt g 4) b y
      let k ← elements n (compressStep w g p q (s.addr z) (s.addr c) (z = c)) 0
      if z = c then
        let f ← drawFree
        update (·.setReg c (joinLen (lenPart f) (s.addr c)))
      else
        update (·.setReg z (joinLen (BitVec.ofNat 16 n) (s.addr z)))
        update (·.setReg c (joinLen (BitVec.ofNat 16 k) (s.addr c)))) s

/-! ### Average, adjacent mean, average difference, delta (R567 to R570, R583) -/

/-- Step 3 of R583: the normalized sum with its exponent reduced by one before the range check. -/
def halved (w : Width) (e cu : Int) : FpResult :=
  if cu = 0 then resZero w else finish w (e - normCount w.n cu - 1) (shl cu (normCount w.n cu))

/-- `fp_half` (R583). -/
def fpHalf (w : Width) (r s : Num) : FpResult :=
  match zeroAsMz .norm r, zeroAsMz .norm s with
  | .ind, _ => resInd w
  | _, .ind => resInd w
  | .mz, .mz => resZero w
  | .mz, .normal e c => halved w e c
  | .normal e c, .mz => halved w e c
  | .normal er cr, .normal es cs =>
    let sum := addExact w.n (er, shl cr w.n) (es, shl cs w.n)
    halved w sum.1 (asr sum.2 w.n)

/-- Half the difference: `fp_half` with the complemented subtrahend; an exponent overflow of the complement raises
flags 42 and 46 (R161, R569). -/
def fpHalfDiff (w : Width) (r s : Num) : FpResult :=
  match r, s, negateNum w s with
  | .ind, _, _ => resInd w
  | _, .normal _ _, .ind => ⟨indefinite w, flagOvf⟩
  | _, _, s' => fpHalf w r s'

/-- #D0 Average (R567). -/
def execAvg (g x a y b z c : Byte) (s : State) : Result :=
  let w := gWidth g
  vector2 w (machineZero w) (fun p q => pure (fpHalf w (unpack w p) (unpack w q))) g x a y b z c s

/-- An instruction on adjacent elements: element `i` of C from elements `i + 1` and `i` of A (R568, R570). -/
def adjacent (f : Width → Num → Num → FpResult) (g x a z c : Byte) (s : State) : Result :=
  let w := gWidth g
  run64 (do
    let p ← source w false a x
    let d ← dest w (bitAt g 2) c
    vectorLoop w d (s.control g z d.off) fun i => do
      let v ← p.elem w (machineZero w) (i + 1)
      let u ← p.elem w (machineZero w) i
      return f w (unpack w v) (unpack w u)) s

/-- #D1 Adjacent mean (R568). -/
def execAdjmean (g x a z c : Byte) (s : State) : Result := adjacent fpHalf g x a z c s

/-- #D4 Average difference (R569). -/
def execAvgd (g x a y b z c : Byte) (s : State) : Result :=
  let w := gWidth g
  vector2 w (machineZero w) (fun p q => pure (fpHalfDiff w (unpack w p) (unpack w q))) g x a y b z c s

/-- #D5 Delta (R570). -/
def execDelta (g x a z c : Byte) (s : State) : Result := adjacent (fun w => fpSub w .norm) g x a z c s

/-! ### Maximum and minimum (R571, R572, R585) -/

/-- The best element so far: as read, as compared, and its item count. -/
structure Best where
  value : Word
  num : Num
  index : Nat
deriving DecidableEq, Repr

/-- The scan of R585. -/
structure Scan where
  best : Option Best := none
  tie : Bool := false
  ind : Bool := false
deriving DecidableEq, Repr

/-- One element of the scan. A magnitude that is indefinite (of a coefficient `-2^n` at exponent EMAX, R186) is compared
as one and raises no flag 46, as the pseudocode of R585 applies no flag of the comparison: DEDUCED, log entry 46. -/
def Scan.step (w : Width) (better : Cmp → Bool) (magnitude : Bool) (i : Nat) (v : Word) (k : Scan) : Scan :=
  let e := unpack w v
  let m := if magnitude then magnitudeNum w e else e
  if e = .ind then { k with ind := true }
  else match k.best with
    | none => { k with best := some ⟨v, m, i⟩ }
    | some t =>
      let c := fpCmp w m t.num
      if better c then { k with best := some ⟨v, m, i⟩, tie := false }
      else if c.eq then { k with tie := true } else k

/-- Registers C and B: with equal designators the results are undefined, hence free values (log entry 25). -/
def setPair (w : Width) (b c : Byte) (value count : Word) : M Unit := do
  let value ← if b = c then freeElem w else pure value
  let count ← if b = c then drawFree else pure count
  update fun s => (s.setRegW w c value).setReg b count

/-- What a scan leaves in the registers and in the free data flags (R585, R24). -/
def finishScan (w : Width) (n : Nat) (b c : Byte) (k : Scan) : M Unit := do
  if k.ind then
    setPair w b c (indefinite w) (← drawFree)
    update fun s => (s.raiseFlags .vector flagInd).setFreeFlags none none none
  else match k.best with
    | none => do
      setPair w b c (← freeElem w) (BitVec.ofNat 64 n)
      update fun s => s.setFreeFlags none (some false) none
    | some t => do
      setPair w b c t.value (BitVec.ofNat 64 t.index)
      update fun s => s.setFreeFlags none (some k.tie) none

/-- The maximum and minimum instructions (R585). That no element is no operation also with B = C is DEDUCED, log entry 25.
After an access interrupt flags 53 to 55 are as before (DESIGN CHOICE, log entry 18). -/
def extreme (better : Cmp → Bool) (g x a b z c : Byte) (s : State) : Result :=
  let w := gWidth g
  run64 (do
    let p ← source w false a x
    let n := p.length.getD 0
    if n = 0 then pure () else
      let k ← elements n (fun i k => do
        if ← (s.control g z 0).permits i then
          return k.step w better (bitAt g 5) i (← p.elem w (machineZero w) i)
        else return k) {}
      finishScan w n b c k) s

/-- #D8 Maximum (R571). -/
def execMax (g x a b z c : Byte) (s : State) : Result := extreme Cmp.gt g x a b z c s

/-- #D9 Minimum (R572). -/
def execMin (g x a b z c : Byte) (s : State) : Result := extreme Cmp.lt g x a b z c s

/-! ### Sum, product, dot product (R573 to R575, R584) -/

/-- The double-precision accumulator (R584). -/
inductive Acc where
  | zero
  | ind
  | value (e sum : Int)
deriving DecidableEq, Repr

/-- `acc_add` (R584): a term `(e, t)` of weight `2^(e-n)`, and the flags it raises. -/
def Acc.add (w : Width) (e t : Int) : Acc → Acc × FpFlags
  | .ind => (.ind, {})
  | .zero => (.value e t, {})
  | .value f u =>
    let sum := addExact w.n (f, u) (e, t)
    if w.emax < sum.1 then (.ind, flagOvf) else (.value sum.1 sum.2, {})

/-- The upper result (R584). -/
def Acc.upper (w : Width) : Acc → Word
  | .zero => machineZero w
  | .ind => indefinite w
  | .value e v => (finish w e (asr v w.n)).value

/-- The lower result; none where it is undefined (R584). -/
def Acc.lower (w : Width) : Acc → Option Word
  | .zero => some (machineZero w)
  | .ind => none
  | .value e v =>
    some (if e - w.n < w.emin then machineZero w else pack w (e - w.n) (v % (2 ^ w.n : Nat)))

/-- Register C must be even and not zero (R573, decision D50). -/
def badPair (c : Byte) : Bool := c = 0 || bitAt c 7

/-- Registers C and C + 1, with flag 43 if the lower result is machine zero and flag 46 if the upper one is indefinite,
besides the flags of the additions. An undefined lower half and the results of an odd or zero C are free values (log
entry 26). -/
def finishSum (w : Width) (c : Byte) (acc : Acc) (f : FpFlags) : M Unit := do
  let upper ← if badPair c then freeElem w else pure (acc.upper w)
  let lower ← match badPair c, acc.lower w with
    | false, some v => pure v
    | _, _ => freeElem w
  update fun s => ((s.setRegW w c upper).setRegW w (c + 1) lower).raiseFlags .vector
    (f.or { zero := unpack w lower = .mz, indefinite := unpack w upper = .ind })

/-- Add an element to the accumulator (R573). -/
def sumStep (w : Width) (v : Word) (k : Acc × FpFlags) : Acc × FpFlags :=
  match unpack w v with
  | .ind => (.ind, k.2)
  | .mz => k
  | .normal e c =>
    let r := k.1.add w e (shl c w.n)
    (r.1, k.2.or r.2)

/-- #DA Sum (R573). No element is no operation, whatever designator C is (DEDUCED, log entry 26); so for #DB and #DC. -/
def execSum (g x a z c : Byte) (s : State) : Result :=
  let w := gWidth g
  run64 (do
    let p ← source w false a x
    let n := p.length.getD 0
    if n = 0 then pure () else
      let k ← elements n (fun i (k : Acc × FpFlags) => do
        if ← (s.control g z 0).permits i then
          return sumStep w (← p.elem w (machineZero w) i) k
        else return k) (.zero, {})
      finishSum w c k.1 k.2) s

/-- #DB Product (R574): flags 43 and 46 by the final result, flag 42 by any multiplication. -/
def execProduct (g x a z c : Byte) (s : State) : Result :=
  let w := gWidth g
  run64 (do
    let p ← source w false a x
    let n := p.length.getD 0
    if n = 0 then pure () else
      let k ← elements n (fun i (k : Word × Bool) => do
        if ← (s.control g z 0).permits i then
          let r := fpBinary w (.mul .signif) {} k.1 (← p.elem w (machineZero w) i)
          return (r.value, k.2 || r.flags.overflow)
        else return k) (normalizedOne w, false)
      let v ← if c = 0 then freeElem w else pure k.1
      update fun s => (s.setRegW w c v).raiseFlags .vector
        { overflow := k.2, zero := v == machineZero w, indefinite := unpack w v = .ind }) s

/-- Add the double-length product of two elements to the accumulator (R575); a product below range counts as machine
zero. -/
def dotStep (w : Width) (x y : Word) (k : Acc × FpFlags) : Acc × FpFlags :=
  match unpack w x, unpack w y with
  | .ind, _ => (.ind, k.2)
  | _, .ind => (.ind, k.2)
  | .normal ex cx, .normal ey cy =>
    let p := fix8000 w.n ex cx
    let q := fix8000 w.n ey cy
    let e := p.1 + q.1 + w.n
    if w.emax < e then (.ind, k.2.or { overflow := true })
    else if e < w.emin then k
    else
      let r := k.1.add w e (p.2 * q.2)
      (r.1, k.2.or r.2)
  | _, _ => k

/-- #DC Dot product (R575). -/
def execDotv (g x a y b z c : Byte) (s : State) : Result :=
  let w := gWidth g
  run64 (do
    refuseIf (bitAt g 3 && bitAt g 4) .broadcastBoth
    let p ← source w (bitAt g 3) a x
    let q ← source w (bitAt g 4) b y
    let n := pairCount p q
    if n = 0 then pure () else
      let k ← elements n (fun i (k : Acc × FpFlags) => do
        if ← (s.control g z 0).permits i then
          let v ← pairAt w p q i
          return dotStep w v.1 v.2 k
        else return k) (.zero, {})
      finishSum w c k.1 k.2) s

/-! ### Interval (R576) -/

/-- #DF Interval (R576): flags of steps that are not stored wait for the next store. -/
def execInterval (g a b z c : Byte) (s : State) : Result :=
  let w := gWidth g
  let first := if a = 0 then machineZero w else s.regW w a
  run64 (do
    let d ← dest w (bitAt g 2) c
    let _ ← elements d.len (fun i (k : Word × FpFlags) => do
      let r := if i = 0 then ⟨k.1, {}⟩ else fpBinary w (.add .upper) {} k.1 (s.regW w b)
      let pend := k.2.or r.flags
      if ← (s.control g z d.off).permits i then
        storeElem w (itemAddr w d.start i) ⟨r.value, pend⟩
        return (r.value, {})
      else return (r.value, pend)) (first, {})) s

end Sys2Proof.Machine
end

