-- ==== Sys2Proof/Machine/Link.lean ====
section
/-! DEFINITION. Instruction #56, Select Link, and the pair of vector instructions it links (spec/44_scalar_fp32.md R330,
spec/46_vector.md R419). -/

namespace Sys2Proof.Machine

/-- What a vector instruction is as one of a linked pair. -/
structure Linkable where
  /-- The unit of Table 1-1. -/
  unit : Nat
  g : Byte
  x : Byte
  a : Byte
  y : Byte
  b : Byte
  z : Byte
  c : Byte
  /-- Two sources? -/
  two : Bool
  /-- #C4 to #C7: its output is an order vector, and it can only be the second instruction. -/
  order : Bool
  /-- The extension of a source that is too short (R416). -/
  ext : Word
  op : Word → Word → M FpResult

/-- A two-source instruction. -/
def linkTwo (unit : Nat) (g x a y b z c : Byte) (ext : Word) (op : Word → Word → M FpResult) : Option Linkable :=
  some ⟨unit, g, x, a, y, b, z, c, true, false, ext, op⟩

/-- An add or subtract instruction (unit 4), and a multiply instruction (unit 3). -/
def linkAdd (op : FpOp) (g x a y b z c : Byte) : Option Linkable :=
  linkTwo 4 g x a y b z c (machineZero (gWidth g)) (fpElem op g)

def linkMul (k : Kind) (g x a y b z c : Byte) : Option Linkable :=
  linkTwo 3 g x a y b z c (normalizedOne (gWidth g)) (fpElem (.mul k) g)

/-- A rounding instruction (unit 4): it has one source. -/
def linkRound (m : Rounding) (g x a z c : Byte) : Option Linkable :=
  some ⟨4, g, x, a, 0, 0, z, c, false, false, machineZero (gWidth g), fun v _ => roundElem m g v⟩

/-- A compare-to-order-vector instruction (unit 4): the result is the order bit. -/
def linkCompare (cond : Cmp → Bool) (g x a y b z : Byte) : Option Linkable :=
  some ⟨4, g, x, a, y, b, z, 0, true, true, machineZero (gWidth g), fun u v =>
    pure ⟨if cond (fpCompare (gWidth g) u v) then 1 else 0, (fpCompare (gWidth g) u v).flags⟩⟩

/-- A logical instruction (unit 2). -/
def linkLogic (f : Word → Word → Word) (g x a y b z c : Byte) : Option Linkable :=
  linkTwo 2 g x a y b z c (machineZero (gWidth g)) (logicElem f g)

/-- Table 1-1 of #56 (R419); none for every other instruction. -/
def linkable : Instr → Option Linkable
  | .shiftv g x a y b z c => linkTwo 1 g x a y b z c mz64 shiftElem
  | .xorv g x a y b z c => linkLogic (fun u v => u ^^^ v) g x a y b z c
  | .andv g x a y b z c => linkLogic (fun u v => u &&& v) g x a y b z c
  | .iorv g x a y b z c => linkLogic (fun u v => u ||| v) g x a y b z c
  | .nandv g x a y b z c => linkLogic (fun u v => ~~~(u &&& v)) g x a y b z c
  | .norv g x a y b z c => linkLogic (fun u v => ~~~(u ||| v)) g x a y b z c
  | .ornv g x a y b z c => linkLogic (fun u v => u ||| ~~~v) g x a y b z c
  | .andnv g x a y b z c => linkLogic (fun u v => u &&& ~~~v) g x a y b z c
  | .xornv g x a y b z c => linkLogic (fun u v => ~~~(u ^^^ v)) g x a y b z c
  | .mpyuv g x a y b z c => linkMul .upper g x a y b z c
  | .mpylv g x a y b z c => linkMul .lower g x a y b z c
  | .mpysv g x a y b z c => linkMul .signif g x a y b z c
  | .adduv g x a y b z c => linkAdd (.add .upper) g x a y b z c
  | .addlv g x a y b z c => linkAdd (.add .lower) g x a y b z c
  | .addnv g x a y b z c => linkAdd (.add .norm) g x a y b z c
  | .addxv g x a y b z c => linkTwo 4 g x a y b z c mz64 addxElem
  | .subuv g x a y b z c => linkAdd (.sub .upper) g x a y b z c
  | .sublv g x a y b z c => linkAdd (.sub .lower) g x a y b z c
  | .subnv g x a y b z c => linkAdd (.sub .norm) g x a y b z c
  | .subxv g x a y b z c => linkTwo 4 g x a y b z c mz64 subxElem
  | .truv g x a z c => linkRound .trunc g x a z c
  | .flrv g x a z c => linkRound .floor g x a z c
  | .clgv g x a z c => linkRound .ceil g x a z c
  | .cmpeq g x a y b z => linkCompare Cmp.eq g x a y b z
  | .cmpne g x a y b z => linkCompare Cmp.ne g x a y b z
  | .cmpge g x a y b z => linkCompare Cmp.ge g x a y b z
  | .cmplt g x a y b z => linkCompare Cmp.lt g x a y b z
  | _ => none

/-- The link state that the R designator of #56 selects (R330): R-bits 3 and 4. -/
def linkOf (r : Byte) : Link :=
  match bitAt r 3, bitAt r 4 with
  | false, false => .none
  | true, false => .ra
  | false, true => .rb
  | true, true => .both

/-- Table 1-2 of #56 (R419): the link, the qualifiers a and b of instr1, the qualifiers a and b of instr2. -/
def linkRows : List (Link × (Bool × Bool) × (Bool × Bool)) :=
  [(.ra, (false, false), (false, true)), (.rb, (false, false), (true, false)),
   (.ra, (false, true), (false, false)), (.rb, (true, false), (false, false)),
   (.ra, (true, false), (false, true)), (.rb, (true, false), (true, false)),
   (.ra, (false, true), (false, true)), (.rb, (false, true), (true, false)),
   (.both, (false, false), (false, false)), (.both, (true, false), (false, false)),
   (.both, (false, true), (false, false))]

/-- Do the qualifiers of an instruction agree with a row? For a one-source instruction the B column does not apply. -/
def Linkable.agrees (l : Linkable) (q : Bool × Bool) : Bool :=
  bitAt l.g 3 == q.1 && (!l.two || bitAt l.g 4 == q.2)

/-- May the pair be linked so (R419)? -/
def linkValid (k : Link) (p q : Linkable) : Bool :=
  !p.order && p.unit != q.unit && bitAt p.g 0 == bitAt q.g 0 &&
    linkRows.any fun r => r.1 = k && p.agrees r.2.1 && q.agrees r.2.2

/-- The two sources of a linked instruction; a one-source instruction has no second one. -/
def Linkable.sources (l : Linkable) : M (Stream × Stream) := do
  let p ← source (gWidth l.g) (bitAt l.g 3) l.a l.x
  let q ← if l.two then source (gWidth l.g) (bitAt l.g 4) l.b l.y else pure (.const 0)
  return (p, q)

/-- The input of instr2 that is instr1's output, or an element of its own stream. -/
def linkInput (l : Linkable) (chained : Bool) (out : Word) (st : Stream) (i : Nat) : M Word :=
  if chained then pure out else st.elem (gWidth l.g) l.ext i

/-- The sources of instr2; one that instr1's output replaces is not read, and its offset is not looked at (DEDUCED, log entry
48). -/
def linkSources (k : Link) (l : Linkable) : M (Stream × Stream) := do
  let p ← if k = .ra || k = .both then pure (.const 0) else source (gWidth l.g) (bitAt l.g 3) l.a l.x
  let q ← if k = .rb || k = .both || !l.two then pure (.const 0) else source (gWidth l.g) (bitAt l.g 4) l.b l.y
  return (p, q)

/-- Position `i` of a linked pair: instr1's flags are applied at every position, instr2's at the permissive ones
(decision D37). -/
def linkStep (k : Link) (l m : Linkable) (p q : Stream × Stream) (i : Nat) : M FpResult := do
  let x ← p.1.elem (gWidth l.g) l.ext i
  let y ← p.2.elem (gWidth l.g) l.ext i
  let r ← l.op x y
  update (·.raiseFlags .vector r.flags)
  let u ← linkInput m (k = .ra || k = .both) r.value q.1 i
  let v ← linkInput m (k = .rb || k = .both) r.value q.2 i
  m.op u v

/-- The linked operation (R419). -/
def linkedPair (k : Link) (l m : Linkable) (s : State) : M Unit := do
  let p ← l.sources
  let q ← linkSources k m
  if m.order then
    elements (s.len m.z) (fun i _ => do
      let r ← linkStep k l m p q i
      writeBit (s.addr m.z + BitVec.ofNat 48 i) (r.value == 1)
      update (·.raiseFlags .vector r.flags)) ()
  else
    let d ← dest (gWidth m.g) (bitAt m.g 2) m.c
    vectorLoop (gWidth m.g) d (s.control m.g m.z d.off) (linkStep k l m p q)

/-- Fetch one instruction of the pair. -/
def fetchLinked (pc : Addr) : M Linkable := do
  match decode (← fetchBytes pc) with
  | .error _ => refuse .linkInvalid
  | .ok d => do
    refuseIf (!d.clean) .unusedFieldNonZero
    match linkable d.instr with
    | some l => return l
    | none => refuse .linkInvalid

/-- #56 Select Link (R330): with R = #00 no operation; else the two instructions that follow are run as one linked
operation in this step (decision D38), and the program goes on behind them. -/
def execLinkv (r : Byte) (s : State) : Result :=
  if linkOf r = .none then .next s.next32
  else run (do
    update fun t => { t with link := linkOf r }
    let l ← fetchLinked (s.pc + 32)
    let m ← fetchLinked (s.pc + 96)
    refuseIf (!linkValid (linkOf r) l m) .linkInvalid
    linkedPair (linkOf r) l m s
    update fun t => { t with link := .none }.goto (s.pc + 160)) s

end Sys2Proof.Machine
end

