-- ==== Sys2Proof/Machine/Monitor.lean ====
section
/-! DEFINITION. Instructions #00 to #0F: monitor and system control (spec/41_monitor_system.md). -/

namespace Sys2Proof.Machine

/-- #00 Idle (R200, R665): while no interrupt is pending the CPU waits and fetches nothing; then the Trace Register is
entered with this instruction's address and execution goes on at the address in register #03. -/
def execIdle (s : State) : Result :=
  run (do monitorOnly; update fun s => if s.ir = 0 then { s with waits := .interrupt } else s.endIdle) s

/-- #03 No operation (R201). -/
def execNop (s : State) : Result := .next s.next32

/-- The bits of the breakpoint register that must be zero: 0-15, 59-60, 63 (R30). -/
def breakpointReserved : Word := 0xFFFF000000000019

/-- #04 Breakpoint on address (R202). -/
def execBkpt (r : Byte) (s : State) : Result :=
  if s.reg r &&& breakpointReserved ≠ 0 then .refused .reservedBitsNonZero
  else .next { s with bkpt := s.reg r }.next32

/-- #05 Void stack and branch (R203). -/
def execVsb (t : Byte) (s : State) : Result := .next (s.voidStack.goto (s.addr t))

/-- #06 Fault test (R204): the R designator is the value. -/
def execFault (r : Byte) (s : State) : Result := .next { s with faultTest := r }.next32

/-- #07 Select serial or parallel execution mode (R205): bit 7 of the R designator, unless the CPU is in Force Execution
mode. In serial mode the instruction stack is void. -/
def execSetmod (r : Byte) (s : State) : Result :=
  run32 (do
    maskedBy 3
    update fun s =>
      if s.forceExec = .none then
        if bitAt r 7 then { s with serial := true }.voidStack else { s with serial := false }
      else s) s

/-- The control bits of #08 that name a configured destination: CPUs, IOUs, and bit 63, the Service Unit (R206). -/
def State.destinations (s : State) : Word := s.external ||| 1

/-- #08 Transmit external interrupt (R206): the control word leaves the CPU; its delivery is a later event, to this CPU
itself by `State.takeUp` and `State.arrive` (log entry 14). -/
def execSetint (r : Byte) (s : State) : Result :=
  run32 (do
    maskedBy 4
    refuseIf (s.reg r &&& ~~~s.destinations != 0) .reservedBitsNonZero
    update fun s => { s with sent := s.reg r :: s.sent }) s

/-- Do the fields of `la` bits at `a` and of `lb` bits at `b` overlap in a memory of `m` bits whose addresses wrap? -/
def fieldsOverlap (m a la b lb : Nat) : Bool := (b + m - a % m) % m < la || (a + m - b % m) % m < lb

/-- Do the packages of an exchange overlap each other or the Monitor's register file image (R207)? With register file
address zero there is no job register file image. -/
def State.packagesOverlap (s : State) (rf pkg : Addr) : Bool :=
  let m := 2 ^ s.params.cpmLog
  let n := 64 * s.params.layout.size
  fieldsOverlap m 0 0x4000 pkg.toNat n ||
    (rf != 0 && (fieldsOverlap m rf.toNat 0x4000 pkg.toNat n || fieldsOverlap m 0 0x4000 rf.toNat 0x4000))

/-- Does an access of the job to the 2^16 bits from `va` on, which lie within one page, reach one of the areas (address
and length in bits) of CP memory? -/
def State.reaches (s : State) (areas : List (Nat × Nat)) (va : Addr) : Bool :=
  match smallBits s.keys.small, largeBits s.keys.large with
  | some sb, some lb => [Access.read, .write, .fetch].any fun kind =>
    match s.search kind va sb lb with
    | some (h, bits) => areas.any fun a =>
      fieldsOverlap (2 ^ s.params.cpmLog) (s.wrap (hitAddress h bits va)) 0x10000 a.1 a.2
    | none => false
  | _, _ => false

/-- Does `p` hold of a number below `n`? -/
def anyBelow (p : Nat → Bool) : Nat → Bool
  | 0 => false
  | n + 1 => p n || anyBelow p n

/-- Does the virtual storage of the job that an exchange starts overlap its packages or the Monitor's register file
image in CP memory (R207, R641)? Its storage is what the page table, with the keys loaded, gives for any of the 2^32
pieces of 2^16 bits of the virtual address space (log entry 31). -/
def State.storageOverlaps (s : State) (rf pkg : Addr) : Bool :=
  anyBelow (fun n => (s.toJob rf pkg).reaches
    ((0, 0x4000) :: (pkg.toNat, 64 * s.params.layout.size) :: if rf = 0 then [] else [(rf.toNat, 0x4000)])
    (BitVec.ofNat 48 (n * 0x10000))) (2 ^ 32)

/-- The exchange from Monitor to Job mode with its undefined cases (R207, R641, R687, R688). -/
def exchangeToJob (rf pkg : Addr) : M Unit := fun s =>
  if s.faultTest ≠ 0 then .error (.refuse .faultTestAtExchange)
  else if !s.arValid then .error (.refuse .assocRegsNotLoaded)
  else if rf.extractLsb' 0 12 ≠ 0 ∨ pkg.extractLsb' 0 12 ≠ 0 then .error (.refuse .exchangeAlign)
  else if (rf ≠ 0 ∧ rf.toNat < 0x4000) ∨ s.packagesOverlap rf pkg then .error (.refuse .exchangeOverlap)
  else if s.storageOverlaps rf pkg then .error (.refuse .exchangeOverlap)
  else .ok ((), s.toJob rf pkg)

/-- #09 Exit force (R207, R639): in Monitor mode the exchange to Job mode with the packages that S and T name; in Job
mode interrupt 62, the program address saved being that of the next instruction (decision D29). The designators that the
mode does not use must be zero (R116; log entry 32). -/
def execExit (r sd t : Byte) (s : State) : Result :=
  match s.mode with
  | .monitor => run (do
      refuseIf (r != 0) .unusedFieldNonZero
      exchangeToJob (if sd = 0 then 0 else s.addr sd) (s.addr t)) s
  | .job => run (do
      maskedBy 5
      refuseIf (r != 0 || sd != 0 || t != 0) .unusedFieldNonZero
      update fun s => (s.post 62).toMonitor (halfAligned (s.pc + 32))) s

/-- #0A Transmit (R) to Monitor Interval Timer (R208). -/
def execMtime (r : Byte) (s : State) : Result :=
  run32 (do monitorOnly; update fun s => { s with mit := rightHalf (s.reg r) }) s

/-- Where the associative registers stand in CP memory: absolute bit address #4000 (R209). -/
def assocBase : Nat := 0x4000

/-- Store the associative registers `n-1` to 0 (R209). -/
def State.storeAssoc (s : State) : Nat → State
  | 0 => s
  | n + 1 => (s.setAbsWord (assocBase + 64 * n) (s.ar.toList.getD n 0)).storeAssoc n

/-- #0C Store associative registers (R209): no breakpoint compare, as R209 infers; afterwards their contents are
undefined, hence free values. -/
def execStoar (s : State) : Result :=
  run32 (do
    monitorOnly
    refuseIf (!s.arValid) .assocRegsNotLoaded
    update fun s =>
      { s.storeAssoc 16 with
        arValid := false, free := s.free + 16, ar := Vector.ofFn fun k => Config.freeWord (s.free + k.val) }) s

/-- The breakpoint compare of the reads of the first `n` words from absolute address `a` on (R70). -/
def State.compareReads (s : State) (a n : Nat) : State :=
  if (List.range n).any fun k => s.breaks false (BitVec.ofNat 48 (a + 64 * k)) then s.setFlag 47 true else s

/-- #0D Load associative registers (R210). Its reads are reads by an instruction and R70 does not exempt them from the
breakpoint compare (log entry 20). -/
def execLodar (s : State) : Result :=
  run32 (do
    monitorOnly
    update fun s => { s.compareReads assocBase 16 with
      ar := Vector.ofFn fun k => s.absWord (assocBase + 64 * k.val), arValid := true }) s

/-- #0E Read interrupt register to (T), and clear it (R211). -/
def execRdint (t : Byte) (s : State) : Result :=
  run32 (do monitorOnly; update fun s => { s.setReg t s.ir with ir := 0 }) s

/-- The bits of register R of #0F that must be zero: 1-3, 17-19, 33-35, 49-51, and bit 32 (R212). -/
def keysReserved : Word := 0x70007000F0007000

/-- The translation of #0F with the keys now loaded (R212): the absolute address or zero, with the left-most 16 bits of
register S, into register T; the matching word, unchanged, goes to the top. -/
def State.translate (s : State) (sd t : Byte) : State :=
  match smallBits s.keys.small, largeBits s.keys.large with
  | some sb, some lb =>
    match s.search .translate (s.addr sd) sb lb with
    | some (h, bits) =>
      (s.pushDown h.index (s.entry h.index)).setReg t
        (joinLen (lenPart (s.reg sd)) (BitVec.ofNat 48 (hitAddress h bits (s.addr sd))))
    | none => s.setReg t (joinLen (lenPart (s.reg sd)) 0)
  | _, _ => s.setReg t (joinLen (lenPart (s.reg sd)) 0)

/-- #0F Load keys from (R), translate address (S) to (T) (R212). -/
def execLodkey (r sd t : Byte) (s : State) : Result :=
  run32 (do
    monitorOnly
    refuseIf (!s.arValid) .assocRegsNotLoaded
    refuseIf (s.reg r &&& keysReserved != 0 || (keysOfWord (s.reg r)).small == 1) .reservedBitsNonZero
    update fun s => { s with keys := keysOfWord (s.reg r) }.translate sd t) s

end Sys2Proof.Machine
end

