-- ==== Sys2Proof/Machine/Scalar32.lean ====
section
/-! DEFINITION. Instructions #40 to #5F: 32-bit scalar floating point, link, domain registers, half-word load and store
(spec/44_scalar_fp32.md). -/

namespace Sys2Proof.Machine

/-- #40 Add, upper result (R311). -/
def execAdduh (r sd t : Byte) (s : State) : Result := s.binary32 (.add .upper) r sd t

/-- #41 Add, lower result (R312). -/
def execAddlh (r sd t : Byte) (s : State) : Result := s.binary32 (.add .lower) r sd t

/-- #42 Add, normalized result (R313). -/
def execAddnh (r sd t : Byte) (s : State) : Result := s.binary32 (.add .norm) r sd t

/-- #44 Subtract, upper result (R314). -/
def execSubuh (r sd t : Byte) (s : State) : Result := s.binary32 (.sub .upper) r sd t

/-- #45 Subtract, lower result (R315). -/
def execSublh (r sd t : Byte) (s : State) : Result := s.binary32 (.sub .lower) r sd t

/-- #46 Subtract, normalized result (R316). -/
def execSubnh (r sd t : Byte) (s : State) : Result := s.binary32 (.sub .norm) r sd t

/-- #48 Multiply, upper result (R317). -/
def execMpyuh (r sd t : Byte) (s : State) : Result := s.binary32 (.mul .upper) r sd t

/-- #49 Multiply, lower result (R318). -/
def execMpylh (r sd t : Byte) (s : State) : Result := s.binary32 (.mul .lower) r sd t

/-- #4B Multiply, significant result (R319). -/
def execMpysh (r sd t : Byte) (s : State) : Result := s.binary32 (.mul .signif) r sd t

/-- #4C Divide, upper result (R320). -/
def execDivuh (r sd t : Byte) (s : State) : Result := s.binary32 (.div .upper) r sd t

/-- #4F Divide, significant result (R323). -/
def execDivsh (r sd t : Byte) (s : State) : Result := s.binary32 (.div .signif) r sd t

/-- The right-most 24 bits of a 32-bit register replaced by `v`, the others as given (R321, R322). -/
def withRight24 (l : Byte) (v : BitVec 24) : Half := l ++ v

/-- #4D Half-word enter (R) with a 16-bit immediate (R321). -/
def execEsh (r : Byte) (im : BitVec 16) (s : State) : Result := s.put32 r (withRight24 0 (imm24of im))

/-- #4E Half-word increase (R) by a 16-bit immediate (R322). -/
def execIsh (r : Byte) (im : BitVec 16) (s : State) : Result :=
  s.put32 r (withRight24 ((s.reg32 r).extractLsb' 24 8) ((s.reg32 r).extractLsb' 0 24 + imm24of im))

/-- #50 Truncate (R324). -/
def execTruh (r t : Byte) (s : State) : Result := s.putFp32 .scalar t (fpRound .w32 .trunc (s.operand32 r))

/-- #51 Floor (R325). -/
def execFlrh (r t : Byte) (s : State) : Result := s.putFp32 .scalar t (fpRound .w32 .floor (s.operand32 r))

/-- #52 Ceiling (R326). -/
def execClgh (r t : Byte) (s : State) : Result := s.putFp32 .scalar t (fpRound .w32 .ceil (s.operand32 r))

/-- #53 Significant square root (R327). -/
def execSqrth (r t : Byte) (s : State) : Result :=
  s.putFp32 .convert t (fpSqrt .w32 (sigOf .w32 (s.operand32 r)) (unpack .w32 (s.operand32 r)))

/-- #54 Adjust significance (R328): undefined where the count is larger than 23. -/
def execAdjsh (r sd t : Byte) (s : State) : Result :=
  match fpAdjs .w32 (s.operand32 r) ((s.reg32 sd).extractLsb' 0 24).toInt with
  | some v => s.putFp32 .scalar t v
  | none => .refused .adjsCount

/-- #55 Adjust exponent (R329). -/
def execAdjeh (r sd t : Byte) (s : State) : Result :=
  s.putFp32 .scalar t (fpAdje .w32 (unpack .w32 (s.operand32 r)) (unpack .w32 (s.operand32 sd)))

/-- #57 Read domain registers (R331): in Monitor mode, or with a selector that names none, a free value. -/
def execRddom (r t : Byte) (s : State) : Result :=
  run32 (do
    maskedBy 15
    update fun s =>
      let v : Option Word :=
        if s.mode = .monitor then none
        else if r = 0 then some (0#48 ++ s.dom.stackIndex ++ 0#3)
        else if r = 2 then some (0#52 ++ s.dom.prev ++ 0#5)
        else if r = 3 then some (0#52 ++ s.dom.cur ++ 0#5)
        else none
      match v with
      | some v => s.setReg t v
      | none => { s with free := s.free + 1 }.setReg t (Config.freeWord s.free)) s

/-- #58 Transmit operand (R332). -/
def execRtorh (r t : Byte) (s : State) : Result := s.put32 t (s.reg32 r)

/-- #59 Absolute (R333). -/
def execAbsh (r t : Byte) (s : State) : Result := s.putFp32 .scalar t (fpAbs .w32 (s.operand32 r))

/-- #5A Exponent (R334). -/
def execExph (r t : Byte) (s : State) : Result := s.put32 t (rightHalf (fpExp .w32 (s.operand32 r)))

/-- #5B Pack (R335). -/
def execPackh (r sd t : Byte) (s : State) : Result :=
  s.put32 t (rightHalf (fpPack .w32 (s.operand32 r) (s.operand32 sd)))

/-- #5C Extend, 32 to 64 bits (R336). -/
def execExth (r t : Byte) (s : State) : Result := s.putFp .scalar t (fpExtend (s.operand32 r))

/-- #5D Index extend, 32 to 64 bits (R337). -/
def execExtxh (r t : Byte) (s : State) : Result := s.putFp .scalar t (fpIndexExtend (s.operand32 r))

/-- #5E Load half word (R338). -/
def execLodh (r sd t : Byte) (s : State) : Result :=
  run32 (do
    let v ← readHalf (s.addr r + scaled 5 (s.addr sd))
    update (·.setReg32 t v)) s

/-- #5F Store half word (R339). -/
def execStoh (r sd t : Byte) (s : State) : Result :=
  run32 (writeHalf (s.addr r + scaled 5 (s.addr sd)) (s.reg32 t)) s

end Sys2Proof.Machine
end

