-- ==== Sys2Proof/Machine/Scalar64.lean ====
section
/-! DEFINITION. Instructions #60 to #7F: 64-bit scalar floating point, address arithmetic, bit insert and extract,
conversions, swap, full-word load and store (spec/45_scalar_fp64.md). -/

namespace Sys2Proof.Machine

/-- #60 Add, upper result (R361). -/
def execAddu (r sd t : Byte) (s : State) : Result := s.binary64 (.add .upper) r sd t

/-- #61 Add, lower result (R362). -/
def execAddl (r sd t : Byte) (s : State) : Result := s.binary64 (.add .lower) r sd t

/-- #62 Add, normalized result (R363). -/
def execAddn (r sd t : Byte) (s : State) : Result := s.binary64 (.add .norm) r sd t

/-- #64 Subtract, upper result (R365). -/
def execSubu (r sd t : Byte) (s : State) : Result := s.binary64 (.sub .upper) r sd t

/-- #65 Subtract, lower result (R366). -/
def execSubl (r sd t : Byte) (s : State) : Result := s.binary64 (.sub .lower) r sd t

/-- #66 Subtract, normalized result (R367). -/
def execSubn (r sd t : Byte) (s : State) : Result := s.binary64 (.sub .norm) r sd t

/-- #68 Multiply, upper result (R369). -/
def execMpyu (r sd t : Byte) (s : State) : Result := s.binary64 (.mul .upper) r sd t

/-- #69 Multiply, lower result (R370). -/
def execMpyl (r sd t : Byte) (s : State) : Result := s.binary64 (.mul .lower) r sd t

/-- #6B Multiply, significant result (R371). -/
def execMpys (r sd t : Byte) (s : State) : Result := s.binary64 (.mul .signif) r sd t

/-- #6C Divide, upper result (R372). -/
def execDivu (r sd t : Byte) (s : State) : Result := s.binary64 (.div .upper) r sd t

/-- #6F Divide, significant result (R375). -/
def execDivs (r sd t : Byte) (s : State) : Result := s.binary64 (.div .signif) r sd t

/-- #63 Add address (R364). -/
def execAddx (r sd t : Byte) (s : State) : Result := s.put t (joinLen (lenPart (s.reg r)) (s.addr r + s.addr sd))

/-- #67 Subtract address (R368). -/
def execSubx (r sd t : Byte) (s : State) : Result := s.put t (joinLen (lenPart (s.reg r)) (s.addr r - s.addr sd))

/-- The bits of register S of #6D and #6E that must be zero: 0-9 and 16-57 (R373). -/
def bitFieldReserved : Word := 0xFFC0FFFFFFFFFFC0

/-- The bit count and the beginning position that register S of #6D and #6E gives (R373). -/
def bitCount (x : Word) : Nat := (field x 10 6).toNat
def bitStart (x : Word) : Nat := (field x 58 6).toNat

/-- `m` ones at the right end. -/
def rightOnes (m : Nat) : Word := BitVec.ofNat 64 (2 ^ m - 1)

/-- The right-most `m` bits of `src` in place of bits `p` to `p+m-1` of `x` (R373). -/
def insertBits (m p : Nat) (src x : Word) : Word :=
  (x &&& ~~~(rightOnes m <<< (64 - p - m))) ||| ((src &&& rightOnes m) <<< (64 - p - m))

/-- Bits `p` to `p+m-1` of `src` at the right end of a cleared word (R374). -/
def extractBits (m p : Nat) (src : Word) : Word := (src >>> (64 - p - m)) &&& rightOnes m

/-- A bit field of `m` bits at `p` that lies within a word. -/
def inWord (m p : Nat) : Bool := m != 0 && m + p ≤ 64

/-- #6D Insert bits (R373). -/
def execInsb (r sd t : Byte) (s : State) : Result :=
  let c := s.reg sd
  if c &&& bitFieldReserved ≠ 0 then .refused .reservedBitsNonZero
  else s.putOpt t (if inWord (bitCount c) (bitStart c) then
    some (insertBits (bitCount c) (bitStart c) (s.regOrMz r) (s.reg t)) else none)

/-- #6E Extract bits (R374). -/
def execExtb (r sd t : Byte) (s : State) : Result :=
  let c := s.reg sd
  if c &&& bitFieldReserved ≠ 0 then .refused .reservedBitsNonZero
  else s.putOpt t (if inWord (bitCount c) (bitStart c) then
    some (extractBits (bitCount c) (bitStart c) (s.regOrMz r)) else none)

/-- #70 Truncate (R376). -/
def execTru (r t : Byte) (s : State) : Result := s.putFp .scalar t (fpRound .w64 .trunc (s.reg r))

/-- #71 Floor (R377). -/
def execFlr (r t : Byte) (s : State) : Result := s.putFp .scalar t (fpRound .w64 .floor (s.reg r))

/-- #72 Ceiling (R378). -/
def execClg (r t : Byte) (s : State) : Result := s.putFp .scalar t (fpRound .w64 .ceil (s.reg r))

/-- #73 Significant square root (R379). -/
def execSqrt (r t : Byte) (s : State) : Result :=
  s.putFp .convert t (fpSqrt .w64 (sigOf .w64 (s.reg r)) (unpack .w64 (s.reg r)))

/-- #74 Adjust significance (R380): undefined where the count is larger than 47. -/
def execAdjs (r sd t : Byte) (s : State) : Result :=
  match fpAdjs .w64 (s.reg r) (s.addr sd).toInt with
  | some v => s.putFp .scalar t v
  | none => .refused .adjsCount

/-- #75 Adjust exponent (R381). -/
def execAdje (r sd t : Byte) (s : State) : Result :=
  s.putFp .scalar t (fpAdje .w64 (unpack .w64 (s.reg r)) (unpack .w64 (s.reg sd)))

/-- #76 Contract, 64 to 32 bits (R382). -/
def execCon (r t : Byte) (s : State) : Result := s.putFp32 .convert t (fpContract false (s.reg r))

/-- #77 Rounded contract (R383). -/
def execRcon (r t : Byte) (s : State) : Result := s.putFp32 .convert t (fpContract true (s.reg r))

/-- #78 Transmit operand (R384). -/
def execRtor (r t : Byte) (s : State) : Result := s.put t (s.reg r)

/-- #79 Absolute (R385). -/
def execAbs (r t : Byte) (s : State) : Result := s.putFp .scalar t (fpAbs .w64 (s.reg r))

/-- #7A Exponent (R386). -/
def execExp (r t : Byte) (s : State) : Result := s.put t (fpExp .w64 (s.reg r))

/-- #7B Pack (R387). -/
def execPack (r sd t : Byte) (s : State) : Result := s.put t (fpPack .w64 (s.reg r) (s.reg sd))

/-- #7C Length (R) to (T) (R388). -/
def execLtor (r t : Byte) (s : State) : Result := s.put t (0#48 ++ lenPart (s.reg r))

/-- The operands of #7D: first register, and length and base of the field stored and of the field loaded (R389). -/
structure Swap where
  first : Nat
  nStore : Nat
  aStore : Addr
  nLoad : Nat
  aLoad : Addr
deriving DecidableEq, Repr

/-- The operands, all read before any transfer (R389). -/
def State.swapOf (s : State) (r sd t : Byte) : Swap :=
  ⟨((s.reg sd).extractLsb' 0 8).toNat, s.len t, s.addr t, s.len r, s.addr r⟩

/-- An odd register, length or word address of a field that is transferred (R389, decision D33). Bit 57 of the register,
bit 41 of the address, is the odd-word bit. -/
def Swap.illegal (w : Swap) : Bool :=
  ((w.nStore != 0 || w.nLoad != 0) && w.first % 2 == 1) || w.nStore % 2 == 1 || w.nLoad % 2 == 1 ||
  (w.nStore != 0 && bitAt w.aStore 41) || (w.nLoad != 0 && bitAt w.aLoad 41)

/-- The fields overlap and their bases differ (R389). -/
def Swap.overlaps (w : Swap) : Bool :=
  w.nStore != 0 && w.nLoad != 0 && w.aStore != w.aLoad &&
    fieldsMeet w.aStore.toNat (64 * w.nStore) w.aLoad.toNat (64 * w.nLoad)
where
  /-- Fields of `la` bits at `a` and `lb` bits at `b` have a bit in common; addresses are modulo 2^48. -/
  fieldsMeet (a la b lb : Nat) : Bool := (b + 2 ^ 48 - a) % 2 ^ 48 < la || (a + 2 ^ 48 - b) % 2 ^ 48 < lb

/-- #7D Swap (R389): the store is completed before the load begins. Both are the elements of one transfer: an access
interrupt in it leaves any leading part of the store (R636, U35). -/
def execRgap (r sd t : Byte) (s : State) : Result :=
  let w := s.swapOf r sd t
  run32 (if w.illegal then stop .typeOne
    else if 256 < w.first + w.nStore ∨ 256 < w.first + w.nLoad then refuse .swapRange
    else if w.overlaps then refuse .swapOverlap
    else elements (w.nStore + w.nLoad) (fun k _ =>
      if k < w.nStore then
        writeWord (w.aStore + scaled 6 (BitVec.ofNat 48 k)) (s.reg (BitVec.ofNat 8 (w.first + k)))
      else do
        let v ← readWord (w.aLoad + scaled 6 (BitVec.ofNat 48 (k - w.nStore)))
        update (·.setReg (BitVec.ofNat 8 (w.first + (k - w.nStore))) v)) ()) s

/-- #7E Load word (R390). -/
def execLod (r sd t : Byte) (s : State) : Result :=
  run32 (do
    let v ← readWord (s.addr r + scaled 6 (s.addr sd))
    update (·.setReg t v)) s

/-- #7F Store word (R391). -/
def execSto (r sd t : Byte) (s : State) : Result :=
  run32 (writeWord (s.addr r + scaled 6 (s.addr sd)) (s.reg t)) s

end Sys2Proof.Machine
end

