-- ==== Sys2Proof/Machine/Sparse.lean ====
section
/-! DEFINITION. Sparse vector arithmetic, #A0 to #AF (spec/47_sparse_compare_index.md R470 to R485). -/

namespace Sys2Proof.Machine

/-- The order vector function by G-bits 1 and 2 (R471): `orDefault` for add and subtract, whose function without a
qualifier is OR; for multiply and divide it is AND. -/
def orderFunction (orDefault : Bool) (g : Byte) (x y : Bool) : Bool :=
  match bitAt g 1, bitAt g 2 with
  | false, false => if orDefault then x || y else x && y
  | false, true => if orDefault then x && y else x || y
  | true, false => x != y
  | true, true => x || !y

/-- Bit `i` of an order vector of `n` bits at `a`, extended with zero bits (R470). -/
def orderBit (n : Nat) (a : Addr) (i : Nat) : M Bool :=
  if i < n then readBit (a + BitVec.ofNat 48 i) else pure false

/-- How far the sparse fields A, B and C have been used. -/
structure SparseCount where
  a : Nat := 0
  b : Nat := 0
  c : Nat := 0
deriving DecidableEq, Repr

/-- The next element of a sparse field whose order bit is one, or the fill value (R472). -/
def sparseElem (w : Width) (order broadcast : Bool) (constant : Word) (base : Addr) (i : Nat) (fill : Word) : M Word :=
  if order then (if broadcast then pure constant else readElem w (itemAddr w base i)) else pure fill

/-- A sparse vector instruction (R472): sign control is applied to operands read or broadcast, not to fill values
(R474). `Reg[C]` gets the number of elements stored. -/
def sparse (orDefault : Bool) (op : FpOp) (g x a y b z c : Byte) (s : State) : Result :=
  let w := gWidth g
  let fill := if orDefault then machineZero w else normalizedOne w
  let sg := gSign g
  run64 (if s.len z = 0 then pure () else do
    let n ← elements (s.len z) (fun i (k : SparseCount) => do
      let xb ← orderBit (s.len x) (s.addr x) i
      let yb ← orderBit (s.len y) (s.addr y) i
      let ea ← sparseElem w xb (bitAt g 3) (s.regW w a) (s.addr a) k.a fill
      let eb ← sparseElem w yb (bitAt g 4) (s.regW w b) (s.addr b) k.b fill
      let zb := orderFunction orDefault g xb yb
      writeBit (s.addr z + BitVec.ofNat 48 i) zb
      if zb then
        storeElem w (itemAddr w (s.addr c) k.c)
          (fpBinary w op ⟨sg.g5 && xb, sg.g6 && xb, sg.g7 && yb⟩ ea eb)
      return ⟨k.a + xb.toNat, k.b + yb.toNat, k.c + zb.toNat⟩) {}
    update (·.setReg c (joinLen (BitVec.ofNat 16 n.c) (s.addr c)))) s

/-- #A0 Add, upper result (R475). -/
def execAddus (g x a y b z c : Byte) (s : State) : Result := sparse true (.add .upper) g x a y b z c s

/-- #A1 Add, lower result (R476). -/
def execAddls (g x a y b z c : Byte) (s : State) : Result := sparse true (.add .lower) g x a y b z c s

/-- #A2 Add, normalized result (R477). -/
def execAddns (g x a y b z c : Byte) (s : State) : Result := sparse true (.add .norm) g x a y b z c s

/-- #A4 Subtract, upper result (R478). -/
def execSubus (g x a y b z c : Byte) (s : State) : Result := sparse true (.sub .upper) g x a y b z c s

/-- #A5 Subtract, lower result (R479). -/
def execSubls (g x a y b z c : Byte) (s : State) : Result := sparse true (.sub .lower) g x a y b z c s

/-- #A6 Subtract, normalized result (R480). -/
def execSubns (g x a y b z c : Byte) (s : State) : Result := sparse true (.sub .norm) g x a y b z c s

/-- #A8 Multiply, upper result (R481). -/
def execMpyus (g x a y b z c : Byte) (s : State) : Result := sparse false (.mul .upper) g x a y b z c s

/-- #A9 Multiply, lower result (R482). -/
def execMpyls (g x a y b z c : Byte) (s : State) : Result := sparse false (.mul .lower) g x a y b z c s

/-- #AB Multiply, significant result (R483). -/
def execMpyss (g x a y b z c : Byte) (s : State) : Result := sparse false (.mul .signif) g x a y b z c s

/-- #AC Divide, upper result (R484). -/
def execDivus (g x a y b z c : Byte) (s : State) : Result := sparse false (.div .upper) g x a y b z c s

/-- #AF Divide, significant result (R485). -/
def execDivss (g x a y b z c : Byte) (s : State) : Result := sparse false (.div .signif) g x a y b z c s

end Sys2Proof.Machine
end

