-- ==== Sys2Proof/Machine/StringBuffer.lean ====
section
/-! DEFINITION. Instructions #F0 to #FF: bit-string logic, move bytes, and the communication buffer instructions
(spec/49_string_cb.md). -/

namespace Sys2Proof.Machine

/-! ### Bit-string logic and move bytes (R600, R609) -/

/-- The index in register `x`: designator #00 means none (decision D34). -/
def State.index (s : State) (x : Byte) : Addr := if x = 0 then 0 else s.addr x

/-- Bit `i` of a string of `n` bits at `a`, extended with zero bits. -/
def stringBit (n : Nat) (a : Addr) (i : Nat) : M Bool :=
  if i < n then readBit (a + BitVec.ofNat 48 i) else pure false

/-- The logical operations on bit strings (R600); each index also shortens its field (decision D51). After an access
interrupt flags 53 to 55 are as before (DESIGN CHOICE, log entry 18). -/
def stringLogic (f : Bool → Bool → Bool) (x a y b z c : Byte) (s : State) : Result :=
  let ix := s.index x
  let iy := s.index y
  let iz := s.index z
  let n := s.len c - iz.toNat
  run64 (if n = 0 then pure () else do
    let ones ← elements n (fun i (k : Nat) => do
      let p ← stringBit (s.len a - ix.toNat) (s.addr a + ix) i
      let q ← stringBit (s.len b - iy.toNat) (s.addr b + iy) i
      writeBit (s.addr c + iz + BitVec.ofNat 48 i) (f p q)
      return k + (f p q).toNat) 0
    update (·.setFreeFlags (some (ones == 0)) (some (ones != 0 && ones != n)) (some (ones == n)))) s

/-- #F0 Exclusive OR (R601). -/
def execXor (x a y b z c : Byte) (s : State) : Result := stringLogic (fun p q => p != q) x a y b z c s

/-- #F1 AND (R602). -/
def execAnd (x a y b z c : Byte) (s : State) : Result := stringLogic (fun p q => p && q) x a y b z c s

/-- #F2 Inclusive OR (R603). -/
def execIor (x a y b z c : Byte) (s : State) : Result := stringLogic (fun p q => p || q) x a y b z c s

/-- #F3 NOT AND (R604). -/
def execNand (x a y b z c : Byte) (s : State) : Result := stringLogic (fun p q => !(p && q)) x a y b z c s

/-- #F4 NOT OR (R605). -/
def execNor (x a y b z c : Byte) (s : State) : Result := stringLogic (fun p q => !(p || q)) x a y b z c s

/-- #F5 OR NOT (R606). -/
def execOrn (x a y b z c : Byte) (s : State) : Result := stringLogic (fun p q => p || !q) x a y b z c s

/-- #F6 AND NOT (R607). -/
def execAndn (x a y b z c : Byte) (s : State) : Result := stringLogic (fun p q => p && !q) x a y b z c s

/-- #F7 Exclusive OR NOT (R608). -/
def execXorn (x a y b z c : Byte) (s : State) : Result := stringLogic (fun p q => p == q) x a y b z c s

/-- #F8 Move bytes left (R609): designator B is the fill byte. -/
def execMovl (x a b z c : Byte) (s : State) : Result :=
  let ix := s.index x
  let iz := s.index z
  run64 (elements (s.len c - iz.toNat) (fun i _ => do
    let v ← if i < s.len a - ix.toNat then readByte (s.addr a + scaled 3 (ix + BitVec.ofNat 48 i)) else pure b
    writeByte (s.addr c + scaled 3 (iz + BitVec.ofNat 48 i)) v) ()) s

/-! ### The communication buffer (R85 to R88, R616, R617) -/

/-- The address that relative address `x` and base/limit/access pair `k` form (R85). -/
def State.cbAddr (s : State) (k : BitVec 2) (x : Byte) : Addr := (s.dom.blaps[k.toNat]'k.isLt).base + s.addr x

/-- Is `ea` below the base or above the limit of pair `k` (R86)? -/
def State.beyondLimit (s : State) (k : BitVec 2) (ea : Addr) : Bool :=
  let b := s.dom.blaps[k.toNat]'k.isLt
  ea.toNat < b.base.toNat || b.limit.toNat < ea.toNat

/-- Does the access code of pair `k` forbid a read, or a write (R86)? -/
def State.lockedOut (s : State) (k : BitVec 2) (read write : Bool) : Bool :=
  let b := s.dom.blaps[k.toNat]'k.isLt
  (read && !b.read) || (write && !b.write)

/-- Interrupt if a check fails (R637). -/
def bufferCheck (lockout limit : Bool) : M Unit := if lockout || limit then stop (.buffer lockout limit) else pure ()

/-- The buffer has only CB_SIZE bits: an access beyond them has no effect the spec gives (log entry 28). -/
def inBuffer (a n : Nat) : M Unit := fun s =>
  if a + n ≤ s.params.cbBits then .ok ((), s) else .error (.fault .outsideCommunicationBuffer)

/-- `CBRead` of the word or half word at `a`, right-justified; the low bits of the address are ignored (R85). -/
def readBuffer (w : Width) (a : Nat) : M Word := do
  let p := a / w.bits * w.bits
  inBuffer p w.bits
  let s ← get
  return match w with
    | .w32 => 0#32 ++ Memory.half s.cb (p / 8)
    | .w64 => Memory.word s.cb (p / 8)

/-- `CBWrite` of the word or half word at `a`. -/
def writeBuffer (w : Width) (a : Nat) (v : Word) : M Unit := do
  let p := a / w.bits * w.bits
  inBuffer p w.bits
  update fun s => { s with cb := match w with
    | .w32 => Memory.setHalf s.cb (p / 8) (rightHalf v)
    | .w64 => Memory.setWord s.cb (p / 8) v }

/-- A two-word semaphore (R617): its address is word-aligned. -/
def readSemaphore (a : Nat) : M (BitVec 128) := do
  let p := a / 64 * 64
  let v ← readBuffer .w64 p
  let u ← readBuffer .w64 (p + 64)
  return v ++ u

/-- Store a two-word semaphore. -/
def writeSemaphore (a : Nat) (v : BitVec 128) : M Unit := do
  let p := a / 64 * 64
  writeBuffer .w64 p (v.extractLsb' 64 64)
  writeBuffer .w64 (p + 64) (v.extractLsb' 0 64)

/-- An address field of a record. -/
def addressField {w : Nat} (f : Field) (v : BitVec w) : Nat := (v >>> (w - f.start - f.width)).toNat % 2 ^ f.width

/-- The record with an address field replaced by the right-most bits of an address. -/
def withAddressField {w : Nat} (f : Field) (v : BitVec w) (a : Nat) : BitVec w :=
  let low := w - f.start - f.width
  (v &&& ~~~(BitVec.ofNat w (2 ^ f.width - 1) <<< low)) ||| (BitVec.ofNat w (a % 2 ^ f.width) <<< low)

/-- The wait count of a semaphore: bits 0 to 31 (R610). -/
def waitOf (v : BitVec 128) : Half := v.extractLsb' 96 32

/-- The semaphore with another wait count. -/
def setWait (v : BitVec 128) (n : Half) : BitVec 128 := n ++ v.extractLsb' 0 96

/-- G-bits 2 and 3, and G-bits 6 and 7 (R616). -/
def semaphorePair (g : Byte) : BitVec 2 := g.extractLsb' 4 2
def dataPair (g : Byte) : BitVec 2 := g.extractLsb' 0 2

/-- #FA Post semaphore (R610). -/
def execPost (g x b c : Byte) (s : State) : Result :=
  let k := semaphorePair g
  let sem := s.cbAddr k x
  run (do
    maskedBy 26
    bufferCheck (s.lockedOut k true true) (s.beyondLimit k sem)
    let v ← readSemaphore sem.toNat
    let old := waitOf v
    if 0 ≤ old.toInt then
      writeSemaphore sem.toNat (setWait v (old + 1))
      update fun t => (t.setReg c (0#32 ++ old)).next64
    else
      let pw ← readBuffer .w64 (addressField s.params.sem.head v)
      let u := setWait v (old + 1)
      writeSemaphore sem.toNat
        (if old = 0xFFFFFFFF then u else withAddressField s.params.sem.head u (addressField s.params.sem.link pw))
      update fun t => (t.setReg c (leftHalf pw ++ old)).goto (s.addr b)) s

/-- #FB Wait on semaphore (R611). With B = C the branch goes to the address that register B held before C is written, as
R610 says of #FA (DEDUCED, log entry 45). -/
def execWait (g x a b c : Byte) (s : State) : Result :=
  let k := semaphorePair g
  let j := dataPair g
  let sem := s.cbAddr k x
  let pwa := s.cbAddr j a
  let lay := s.params.sem
  run (do
    maskedBy 27
    bufferCheck (s.lockedOut k true true || s.lockedOut j true true) (s.beyondLimit k sem || s.beyondLimit j pwa)
    refuseIf (sem != pwa && Config.cbSide sem.toNat != Config.cbSide pwa.toNat) .cbSideMismatch
    let v ← readSemaphore sem.toNat
    let old := waitOf v
    let u := setWait v (old - 1)
    if 0 < old.toInt then
      writeSemaphore sem.toNat u
      update fun t => (t.setReg c (0#32 ++ old)).next64
    else if old = 0 then
      writeSemaphore sem.toNat (withAddressField lay.tail (withAddressField lay.head u pwa.toNat) pwa.toNat)
      update fun t => (t.setReg c (0#32 ++ old)).goto (s.addr b)
    else
      let last ← readBuffer .w64 (addressField lay.tail v)
      writeBuffer .w64 (addressField lay.tail v) (withAddressField lay.link last pwa.toNat)
      writeSemaphore sem.toNat (withAddressField lay.tail u pwa.toNat)
      update fun t => (t.setReg c (0#32 ++ old)).goto (s.addr b)) s

/-- The object bit that `ea` names within the word or half word that holds it (R85). -/
def objectBit (w : Width) (ea : Addr) (v : Word) : Bool := bitAt v (64 - w.bits + ea.toNat % w.bits)

/-- #FC Bit branch and swap (R612). The branch goes to what register B held before C is cleared, where C is B or half of it
(DEDUCED, log entry 45). -/
def execBbswap (g x a b c : Byte) (s : State) : Result :=
  let w := gWidth g
  let k := dataPair g
  let ea := s.cbAddr k x
  run (do
    maskedBy 28
    bufferCheck (s.lockedOut k true true) (s.beyondLimit k ea)
    let v ← readBuffer w ea.toNat
    if objectBit w ea v then
      update fun t => (t.setRegW w c 0).goto (s.addr b)
    else
      writeBuffer w ea.toNat (s.regW w a)
      update fun t => (t.setRegW w c v).next64) s

/-- #FD Bit branch and load/store (R613): the address of the next word is checked too (decision D18). The branch goes to
what register B held before C is cleared, where C is B or half of it (DEDUCED, log entry 45). -/
def execBbldst (g x a b c : Byte) (s : State) : Result :=
  let w := gWidth g
  let k := dataPair g
  let ea := s.cbAddr k x
  let following : Addr := BitVec.ofNat 48 (ea.toNat / w.bits * w.bits + w.bits)
  run (do
    maskedBy 29
    bufferCheck (s.lockedOut k true true) (s.beyondLimit k ea || s.beyondLimit k following)
    let v ← readBuffer w ea.toNat
    if objectBit w ea v then
      update fun t => (t.setRegW w c 0).goto (s.addr b)
    else
      writeBuffer w ea.toNat (s.regW w a)
      let u ← readBuffer w following.toNat
      update fun t => (t.setRegW w c u).next64) s

/-- #FE Load register from the communication buffer (R614). -/
def execCbld (g x c : Byte) (s : State) : Result :=
  let w := gWidth g
  let k := dataPair g
  let ea := s.cbAddr k x
  run64 (do
    maskedBy 30
    bufferCheck (s.lockedOut k true false) (s.beyondLimit k ea)
    let v ← readBuffer w ea.toNat
    update (·.setRegW w c v)) s

/-- #FF Store register into the communication buffer (R615). -/
def execCbsto (g x c : Byte) (s : State) : Result :=
  let w := gWidth g
  let k := dataPair g
  let ea := s.cbAddr k x
  run64 (do
    maskedBy 31
    bufferCheck (s.lockedOut k false true) (s.beyondLimit k ea)
    writeBuffer w ea.toNat (s.regW w c)) s

end Sys2Proof.Machine
end

