-- ==== Sys2Proof/Machine/Dispatch.lean ====
section
/-! DEFINITION. What each instruction does: one arm per constructor of Instr, each a direct call of its meaning. -/

namespace Sys2Proof.Machine

/-- The effect of instruction `i` at state `s`. -/
def exec (i : Instr) (s : State) : Host.Outcome State Fault Refusal :=
  match i with
  | .idle => Sys2Proof.Machine.execIdle s
  | .nop => Sys2Proof.Machine.execNop s
  | .bkpt r => Sys2Proof.Machine.execBkpt r s
  | .vsb t => Sys2Proof.Machine.execVsb t s
  | .fault r => Sys2Proof.Machine.execFault r s
  | .setmod r => Sys2Proof.Machine.execSetmod r s
  | .setint r => Sys2Proof.Machine.execSetint r s
  | .exit r sd t => Sys2Proof.Machine.execExit r sd t s
  | .mtime r => Sys2Proof.Machine.execMtime r s
  | .stoar => Sys2Proof.Machine.execStoar s
  | .lodar => Sys2Proof.Machine.execLodar s
  | .rdint t => Sys2Proof.Machine.execRdint t s
  | .lodkey r sd t => Sys2Proof.Machine.execLodkey r sd t s
  | .dtob r t => Sys2Proof.Machine.execDtob r t s
  | .btod r t => Sys2Proof.Machine.execBtod r t s
  | .lodc r sd t => Sys2Proof.Machine.execLodc r sd t s
  | .stoc r sd t => Sys2Proof.Machine.execStoc r sd t s
  | .cpsb r sd t => Sys2Proof.Machine.execCpsb r sd t s
  | .mrgb r sd t => Sys2Proof.Machine.execMrgb r sd t s
  | .maskb r sd t => Sys2Proof.Machine.execMaskb r sd t s
  | .exdom => Sys2Proof.Machine.execExdom s
  | .swcqta sd t => Sys2Proof.Machine.execSwcqta sd t s
  | .strtio sd t => Sys2Proof.Machine.execStrtio sd t s
  | .stopio sd t => Sys2Proof.Machine.execStopio sd t s
  | .testio t => Sys2Proof.Machine.execTestio t s
  | .maskz r sd t => Sys2Proof.Machine.execMaskz r sd t s
  | .masko r sd t => Sys2Proof.Machine.execMasko r sd t s
  | .enteq r sd t => Sys2Proof.Machine.execEnteq r sd t s
  | .ento r sd t => Sys2Proof.Machine.execEnto r sd t s
  | .bheq r sd t => Sys2Proof.Machine.execBheq r sd t s
  | .bhne r sd t => Sys2Proof.Machine.execBhne r sd t s
  | .bhge r sd t => Sys2Proof.Machine.execBhge r sd t s
  | .bhlt r sd t => Sys2Proof.Machine.execBhlt r sd t s
  | .beq r sd t => Sys2Proof.Machine.execBeq r sd t s
  | .bne r sd t => Sys2Proof.Machine.execBne r sd t s
  | .bge r sd t => Sys2Proof.Machine.execBge r sd t s
  | .blt r sd t => Sys2Proof.Machine.execBlt r sd t s
  | .scnleq r sd t => Sys2Proof.Machine.execScnleq r sd t s
  | .tfc t => Sys2Proof.Machine.execTfc t s
  | .elen r im => Sys2Proof.Machine.execElen r im s
  | .addlen r sd t => Sys2Proof.Machine.execAddlen r sd t s
  | .rxor r sd t => Sys2Proof.Machine.execRxor r sd t s
  | .rand r sd t => Sys2Proof.Machine.execRand r sd t s
  | .rior r sd t => Sys2Proof.Machine.execRior r sd t s
  | .barb g sd t => Sys2Proof.Machine.execBarb g sd t s
  | .shifti r sd t => Sys2Proof.Machine.execShifti r sd t s
  | .ibnz r sd t => Sys2Proof.Machine.execIbnz r sd t s
  | .bab g sd t => Sys2Proof.Machine.execBab g sd t s
  | .badf g im t => Sys2Proof.Machine.execBadf g im t s
  | .shift r sd t => Sys2Proof.Machine.execShift r sd t s
  | .dbnz r sd t => Sys2Proof.Machine.execDbnz r sd t s
  | .bsave r sd t => Sys2Proof.Machine.execBsave r sd t s
  | .rjtime t => Sys2Proof.Machine.execRjtime t s
  | .ltol r t => Sys2Proof.Machine.execLtol r t s
  | .clock t => Sys2Proof.Machine.execClock t s
  | .wjtime r => Sys2Proof.Machine.execWjtime r s
  | .lsdfr r t => Sys2Proof.Machine.execLsdfr r t s
  | .mpyxh r sd t => Sys2Proof.Machine.execMpyxh r sd t s
  | .mpyx r sd t => Sys2Proof.Machine.execMpyx r sd t s
  | .es r im => Sys2Proof.Machine.execEs r im s
  | .is r im => Sys2Proof.Machine.execIs r im s
  | .adduh r sd t => Sys2Proof.Machine.execAdduh r sd t s
  | .addlh r sd t => Sys2Proof.Machine.execAddlh r sd t s
  | .addnh r sd t => Sys2Proof.Machine.execAddnh r sd t s
  | .subuh r sd t => Sys2Proof.Machine.execSubuh r sd t s
  | .sublh r sd t => Sys2Proof.Machine.execSublh r sd t s
  | .subnh r sd t => Sys2Proof.Machine.execSubnh r sd t s
  | .mpyuh r sd t => Sys2Proof.Machine.execMpyuh r sd t s
  | .mpylh r sd t => Sys2Proof.Machine.execMpylh r sd t s
  | .mpysh r sd t => Sys2Proof.Machine.execMpysh r sd t s
  | .divuh r sd t => Sys2Proof.Machine.execDivuh r sd t s
  | .esh r im => Sys2Proof.Machine.execEsh r im s
  | .ish r im => Sys2Proof.Machine.execIsh r im s
  | .divsh r sd t => Sys2Proof.Machine.execDivsh r sd t s
  | .truh r t => Sys2Proof.Machine.execTruh r t s
  | .flrh r t => Sys2Proof.Machine.execFlrh r t s
  | .clgh r t => Sys2Proof.Machine.execClgh r t s
  | .sqrth r t => Sys2Proof.Machine.execSqrth r t s
  | .adjsh r sd t => Sys2Proof.Machine.execAdjsh r sd t s
  | .adjeh r sd t => Sys2Proof.Machine.execAdjeh r sd t s
  | .linkv r => Sys2Proof.Machine.execLinkv r s
  | .rddom r t => Sys2Proof.Machine.execRddom r t s
  | .rtorh r t => Sys2Proof.Machine.execRtorh r t s
  | .absh r t => Sys2Proof.Machine.execAbsh r t s
  | .exph r t => Sys2Proof.Machine.execExph r t s
  | .packh r sd t => Sys2Proof.Machine.execPackh r sd t s
  | .exth r t => Sys2Proof.Machine.execExth r t s
  | .extxh r t => Sys2Proof.Machine.execExtxh r t s
  | .lodh r sd t => Sys2Proof.Machine.execLodh r sd t s
  | .stoh r sd t => Sys2Proof.Machine.execStoh r sd t s
  | .addu r sd t => Sys2Proof.Machine.execAddu r sd t s
  | .addl r sd t => Sys2Proof.Machine.execAddl r sd t s
  | .addn r sd t => Sys2Proof.Machine.execAddn r sd t s
  | .addx r sd t => Sys2Proof.Machine.execAddx r sd t s
  | .subu r sd t => Sys2Proof.Machine.execSubu r sd t s
  | .subl r sd t => Sys2Proof.Machine.execSubl r sd t s
  | .subn r sd t => Sys2Proof.Machine.execSubn r sd t s
  | .subx r sd t => Sys2Proof.Machine.execSubx r sd t s
  | .mpyu r sd t => Sys2Proof.Machine.execMpyu r sd t s
  | .mpyl r sd t => Sys2Proof.Machine.execMpyl r sd t s
  | .mpys r sd t => Sys2Proof.Machine.execMpys r sd t s
  | .divu r sd t => Sys2Proof.Machine.execDivu r sd t s
  | .insb r sd t => Sys2Proof.Machine.execInsb r sd t s
  | .extb r sd t => Sys2Proof.Machine.execExtb r sd t s
  | .divs r sd t => Sys2Proof.Machine.execDivs r sd t s
  | .tru r t => Sys2Proof.Machine.execTru r t s
  | .flr r t => Sys2Proof.Machine.execFlr r t s
  | .clg r t => Sys2Proof.Machine.execClg r t s
  | .sqrt r t => Sys2Proof.Machine.execSqrt r t s
  | .adjs r sd t => Sys2Proof.Machine.execAdjs r sd t s
  | .adje r sd t => Sys2Proof.Machine.execAdje r sd t s
  | .con r t => Sys2Proof.Machine.execCon r t s
  | .rcon r t => Sys2Proof.Machine.execRcon r t s
  | .rtor r t => Sys2Proof.Machine.execRtor r t s
  | .abs r t => Sys2Proof.Machine.execAbs r t s
  | .exp r t => Sys2Proof.Machine.execExp r t s
  | .pack r sd t => Sys2Proof.Machine.execPack r sd t s
  | .ltor r t => Sys2Proof.Machine.execLtor r t s
  | .rgap r sd t => Sys2Proof.Machine.execRgap r sd t s
  | .lod r sd t => Sys2Proof.Machine.execLod r sd t s
  | .sto r sd t => Sys2Proof.Machine.execSto r sd t s
  | .adduv g x a y b z c => Sys2Proof.Machine.execAdduv g x a y b z c s
  | .addlv g x a y b z c => Sys2Proof.Machine.execAddlv g x a y b z c s
  | .addnv g x a y b z c => Sys2Proof.Machine.execAddnv g x a y b z c s
  | .addxv g x a y b z c => Sys2Proof.Machine.execAddxv g x a y b z c s
  | .subuv g x a y b z c => Sys2Proof.Machine.execSubuv g x a y b z c s
  | .sublv g x a y b z c => Sys2Proof.Machine.execSublv g x a y b z c s
  | .subnv g x a y b z c => Sys2Proof.Machine.execSubnv g x a y b z c s
  | .subxv g x a y b z c => Sys2Proof.Machine.execSubxv g x a y b z c s
  | .mpyuv g x a y b z c => Sys2Proof.Machine.execMpyuv g x a y b z c s
  | .mpylv g x a y b z c => Sys2Proof.Machine.execMpylv g x a y b z c s
  | .shiftv g x a y b z c => Sys2Proof.Machine.execShiftv g x a y b z c s
  | .mpysv g x a y b z c => Sys2Proof.Machine.execMpysv g x a y b z c s
  | .divuv g x a y b z c => Sys2Proof.Machine.execDivuv g x a y b z c s
  | .divsv g x a y b z c => Sys2Proof.Machine.execDivsv g x a y b z c s
  | .truv g x a z c => Sys2Proof.Machine.execTruv g x a z c s
  | .flrv g x a z c => Sys2Proof.Machine.execFlrv g x a z c s
  | .clgv g x a z c => Sys2Proof.Machine.execClgv g x a z c s
  | .sqrtv g x a z c => Sys2Proof.Machine.execSqrtv g x a z c s
  | .adjsv g x a y b z c => Sys2Proof.Machine.execAdjsv g x a y b z c s
  | .adjev g x a y b z c => Sys2Proof.Machine.execAdjev g x a y b z c s
  | .conv g x a z c => Sys2Proof.Machine.execConv g x a z c s
  | .rconv g x a z c => Sys2Proof.Machine.execRconv g x a z c s
  | .vtov g x a z c => Sys2Proof.Machine.execVtov g x a z c s
  | .absv g x a z c => Sys2Proof.Machine.execAbsv g x a z c s
  | .expv g x a z c => Sys2Proof.Machine.execExpv g x a z c s
  | .packv g x a y b z c => Sys2Proof.Machine.execPackv g x a y b z c s
  | .extv g x a z c => Sys2Proof.Machine.execExtv g x a z c s
  | .xorv g x a y b z c => Sys2Proof.Machine.execXorv g x a y b z c s
  | .andv g x a y b z c => Sys2Proof.Machine.execAndv g x a y b z c s
  | .iorv g x a y b z c => Sys2Proof.Machine.execIorv g x a y b z c s
  | .nandv g x a y b z c => Sys2Proof.Machine.execNandv g x a y b z c s
  | .norv g x a y b z c => Sys2Proof.Machine.execNorv g x a y b z c s
  | .ornv g x a y b z c => Sys2Proof.Machine.execOrnv g x a y b z c s
  | .andnv g x a y b z c => Sys2Proof.Machine.execAndnv g x a y b z c s
  | .xornv g x a y b z c => Sys2Proof.Machine.execXornv g x a y b z c s
  | .addus g x a y b z c => Sys2Proof.Machine.execAddus g x a y b z c s
  | .addls g x a y b z c => Sys2Proof.Machine.execAddls g x a y b z c s
  | .addns g x a y b z c => Sys2Proof.Machine.execAddns g x a y b z c s
  | .subus g x a y b z c => Sys2Proof.Machine.execSubus g x a y b z c s
  | .subls g x a y b z c => Sys2Proof.Machine.execSubls g x a y b z c s
  | .subns g x a y b z c => Sys2Proof.Machine.execSubns g x a y b z c s
  | .mpyus g x a y b z c => Sys2Proof.Machine.execMpyus g x a y b z c s
  | .mpyls g x a y b z c => Sys2Proof.Machine.execMpyls g x a y b z c s
  | .mpyss g x a y b z c => Sys2Proof.Machine.execMpyss g x a y b z c s
  | .divus g x a y b z c => Sys2Proof.Machine.execDivus g x a y b z c s
  | .divss g x a y b z c => Sys2Proof.Machine.execDivss g x a y b z c s
  | .ibxeqBr g x a y b z c => Sys2Proof.Machine.execIbxeqBr g x a y b z c s
  | .ibxeqSc g x a y z c => Sys2Proof.Machine.execIbxeqSc g x a y z c s
  | .cfpeqBr g x a y b => Sys2Proof.Machine.execCfpeqBr g x a y b s
  | .cfpeqSc g x a y => Sys2Proof.Machine.execCfpeqSc g x a y s
  | .ibxneBr g x a y b z c => Sys2Proof.Machine.execIbxneBr g x a y b z c s
  | .ibxneSc g x a y z c => Sys2Proof.Machine.execIbxneSc g x a y z c s
  | .cfpneBr g x a y b => Sys2Proof.Machine.execCfpneBr g x a y b s
  | .cfpneSc g x a y => Sys2Proof.Machine.execCfpneSc g x a y s
  | .ibxgeBr g x a y b z c => Sys2Proof.Machine.execIbxgeBr g x a y b z c s
  | .ibxgeSc g x a y z c => Sys2Proof.Machine.execIbxgeSc g x a y z c s
  | .cfpgeBr g x a y b => Sys2Proof.Machine.execCfpgeBr g x a y b s
  | .cfpgeSc g x a y => Sys2Proof.Machine.execCfpgeSc g x a y s
  | .ibxltBr g x a y b z c => Sys2Proof.Machine.execIbxltBr g x a y b z c s
  | .ibxltSc g x a y z c => Sys2Proof.Machine.execIbxltSc g x a y z c s
  | .cfpltBr g x a y b => Sys2Proof.Machine.execCfpltBr g x a y b s
  | .cfpltSc g x a y => Sys2Proof.Machine.execCfpltSc g x a y s
  | .ibxleBr g x a y b z c => Sys2Proof.Machine.execIbxleBr g x a y b z c s
  | .ibxleSc g x a y z c => Sys2Proof.Machine.execIbxleSc g x a y z c s
  | .cfpleBr g x a y b => Sys2Proof.Machine.execCfpleBr g x a y b s
  | .cfpleSc g x a y => Sys2Proof.Machine.execCfpleSc g x a y s
  | .ibxgtBr g x a y b z c => Sys2Proof.Machine.execIbxgtBr g x a y b z c s
  | .ibxgtSc g x a y z c => Sys2Proof.Machine.execIbxgtSc g x a y z c s
  | .cfpgtBr g x a y b => Sys2Proof.Machine.execCfpgtBr g x a y b s
  | .cfpgtSc g x a y => Sys2Proof.Machine.execCfpgtSc g x a y s
  | .bim r im => Sys2Proof.Machine.execBim r im s
  | .vtovx g x a y b c => Sys2Proof.Machine.execVtovx g x a y b c s
  | .vrevv g x a z c => Sys2Proof.Machine.execVrevv g x a z c s
  | .vxtov g x a y b c => Sys2Proof.Machine.execVxtov g x a y b c s
  | .maskv g x a y b z c => Sys2Proof.Machine.execMaskv g x a y b z c s
  | .cpsv g x a z c => Sys2Proof.Machine.execCpsv g x a z c s
  | .mrgv g x a y b z c => Sys2Proof.Machine.execMrgv g x a y b z c s
  | .ex r im => Sys2Proof.Machine.execEx r im s
  | .ix r im => Sys2Proof.Machine.execIx r im s
  | .seleq g x a y b z c => Sys2Proof.Machine.execSeleq g x a y b z c s
  | .selne g x a y b z c => Sys2Proof.Machine.execSelne g x a y b z c s
  | .selge g x a y b z c => Sys2Proof.Machine.execSelge g x a y b z c s
  | .sellt g x a y b z c => Sys2Proof.Machine.execSellt g x a y b z c s
  | .cmpeq g x a y b z => Sys2Proof.Machine.execCmpeq g x a y b z s
  | .cmpne g x a y b z => Sys2Proof.Machine.execCmpne g x a y b z s
  | .cmpge g x a y b z => Sys2Proof.Machine.execCmpge g x a y b z s
  | .cmplt g x a y b z => Sys2Proof.Machine.execCmplt g x a y b z s
  | .srcheq g x a y b z c => Sys2Proof.Machine.execSrcheq g x a y b z c s
  | .srchne g x a y b z c => Sys2Proof.Machine.execSrchne g x a y b z c s
  | .srchge g x a y b z c => Sys2Proof.Machine.execSrchge g x a y b z c s
  | .srchlt g x a y b z c => Sys2Proof.Machine.execSrchlt g x a y b z c s
  | .mcmpw g x a b c => Sys2Proof.Machine.execMcmpw g x a b c s
  | .exh r im => Sys2Proof.Machine.execExh r im s
  | .ixh r im => Sys2Proof.Machine.execIxh r im s
  | .acps g x a y b z c => Sys2Proof.Machine.execAcps g x a y b z c s
  | .avg g x a y b z c => Sys2Proof.Machine.execAvg g x a y b z c s
  | .adjmean g x a z c => Sys2Proof.Machine.execAdjmean g x a z c s
  | .avgd g x a y b z c => Sys2Proof.Machine.execAvgd g x a y b z c s
  | .delta g x a z c => Sys2Proof.Machine.execDelta g x a z c s
  | .max g x a b z c => Sys2Proof.Machine.execMax g x a b z c s
  | .min g x a b z c => Sys2Proof.Machine.execMin g x a b z c s
  | .sum g x a z c => Sys2Proof.Machine.execSum g x a z c s
  | .product g x a z c => Sys2Proof.Machine.execProduct g x a z c s
  | .dotv g x a y b z c => Sys2Proof.Machine.execDotv g x a y b z c s
  | .interval g a b z c => Sys2Proof.Machine.execInterval g a b z c s
  | .xor x a y b z c => Sys2Proof.Machine.execXor x a y b z c s
  | .and x a y b z c => Sys2Proof.Machine.execAnd x a y b z c s
  | .ior x a y b z c => Sys2Proof.Machine.execIor x a y b z c s
  | .nand x a y b z c => Sys2Proof.Machine.execNand x a y b z c s
  | .nor x a y b z c => Sys2Proof.Machine.execNor x a y b z c s
  | .orn x a y b z c => Sys2Proof.Machine.execOrn x a y b z c s
  | .andn x a y b z c => Sys2Proof.Machine.execAndn x a y b z c s
  | .xorn x a y b z c => Sys2Proof.Machine.execXorn x a y b z c s
  | .movl x a b z c => Sys2Proof.Machine.execMovl x a b z c s
  | .post g x b c => Sys2Proof.Machine.execPost g x b c s
  | .wait g x a b c => Sys2Proof.Machine.execWait g x a b c s
  | .bbswap g x a b c => Sys2Proof.Machine.execBbswap g x a b c s
  | .bbldst g x a b c => Sys2Proof.Machine.execBbldst g x a b c s
  | .cbld g x c => Sys2Proof.Machine.execCbld g x c s
  | .cbsto g x c => Sys2Proof.Machine.execCbsto g x c s

end Sys2Proof.Machine
end

