-- ==== Sys2Proof/Machine/Step.lean ====
section
/-! DEFINITION. One step of the machine (spec/60_exceptions.md R643): fetch, judge, run, and the end of the instruction. -/

namespace Sys2Proof.Machine

/-- One step. A CPU that is idle or waits for a Master Clear fetches no instruction (R633, R665); one whose fetch is an access interrupt runs
none either (R636). -/
def step (s : State) : Host.Outcome State Fault Refusal :=
  if s.stopped then .next s.after
  else
    match fetchBytes s.pc s with
    | .error e => afterOutcome (settle s (.error e))
    | .ok (bytes, t) =>
      match t.judge bytes with
      | .typeOne => .next t.typeOne.after
      | .typeTwo => .next t.typeTwo.after
      | .unclean => .refused .unusedFieldNonZero
      | .run i => afterOutcome (exec i t)

/-- `s` with the instruction that a row of the opcode table gives as `w` of `nbits` bits, stored where the next step
fetches (log entry 6). -/
def State.withFetchWord (s : State) (nbits w : Nat) : State := s.place (tableBytes nbits w)

end Sys2Proof.Machine
end

