-- ==== Sys2Proof/Safety.lean ====
section
/-! DEFINITION. The terms of the claims: the invariant of the machine, and what it means that an instruction completes
with a stated effect and leaves everything else as it was. -/

namespace Sys2Proof.Machine

/-- What every step keeps: both memories in canonical form (R61, R85), the program address a half-word address (R16),
the derived bits of the Data Flag Register as R22 says, no link pending between two steps (R46, R695), and an empty
instruction stack in serial mode (R31). -/
structure State.Inv (s : State) : Prop where
  memory : Memory.wf s.mem = true
  buffer : Memory.wf s.cb = true
  aligned : halfAligned s.pc = s.pc
  derived : deriveDfr s.dfr = s.dfr
  unlinked : s.link = .none
  serialVoid : s.serial = true → s.stale = []

/-! ### Program addresses -/

/-- The address of the instruction behind a 32-bit, and behind a 64-bit, instruction (R16). -/
def State.behind32 (s : State) : Addr := halfAligned (s.pc + 32)
def State.behind64 (s : State) : Addr := halfAligned (s.pc + 64)

/-! ### What an instruction changes -/

/-- The derived bits of the Data Flag Register (R22). -/
def derivedBits : List Nat := [3, 4, 5, 6, 7, 8, 9, 10, 11, 12, 13, 14, 15, 40, 44, 51]

/-- From `s` to `t` only the data flags in `flags`, and the bits derived from them, may change; with no flags named the
register is unchanged. -/
def State.FlagsOnly (s t : State) (flags : List Nat) : Prop :=
  (flags = [] → t.dfr = s.dfr) ∧
  ∀ k, k < 64 → k ∉ flags → k ∉ derivedBits → bitAt t.dfr k = bitAt s.dfr k

/-- Instruction `i` completes at `s`: it goes on at `next`, its result is as `result` says of the state it leaves, every
register but those in `changed`, every data flag but those in `flags` and every byte of memory but those in `stored` is
as before, and so is every other piece of state (the instruction stack may remember what the stored bytes were, where
any are stored, and the model may have drawn free values). -/
def Completes (i : Instr) (s : State) (next : Addr) (changed : Byte → Prop) (flags : List Nat) (stored : Nat → Prop)
    (result : State → Prop) : Prop :=
  ∃ t, exec i s = .next t ∧ result t ∧ t.pc = next ∧ (∀ n, ¬ changed n → t.reg n = s.reg n) ∧ s.FlagsOnly t flags ∧
    (∀ a, ¬ stored a → Memory.byte t.mem a = Memory.byte s.mem a) ∧
    (∀ a, Memory.byte t.cb a = Memory.byte s.cb a) ∧
    ((∀ a, ¬ stored a) → t.stale = s.stale) ∧
    t = { s with regs := t.regs, dfr := t.dfr, mem := t.mem, stale := t.stale, pc := t.pc, free := t.free }

/-- Nothing, as a set of registers or of bytes. -/
def nothing {α : Type} (_ : α) : Prop := False

/-- An instruction whose whole effect is value `v` in register `d`. -/
def RegisterResult (i : Instr) (s : State) (next : Addr) (d : Byte) (v : Word) : Prop :=
  Completes i s next (· = d) [] nothing fun t => t.reg d = v

/-- An instruction whose whole effect is value `v` in 32-bit register `d`: every other 32-bit register, the other half
of its word among them, is as before (R12). -/
def HalfResult (i : Instr) (s : State) (next : Addr) (d : Byte) (v : Half) : Prop :=
  Completes i s next (· = halfOf d) [] nothing fun t => t.reg32 d = v ∧ ∀ n, n ≠ d → t.reg32 n = s.reg32 n

/-- The same in a register of the operand width. -/
def WidthResult (i : Instr) (s : State) (next : Addr) (w : Width) (d : Byte) (v : Word) : Prop :=
  match w with
  | .w64 => RegisterResult i s next d v
  | .w32 => HalfResult i s next d (rightHalf v)

/-- A branch: nothing changes but the program address, and the data flags in `flags`. -/
def BranchResult (i : Instr) (s : State) (next : Addr) (dfr : Word) (flags : List Nat) : Prop :=
  Completes i s next nothing flags nothing fun t => t.dfr = dfr

/-- A floating-point result `r` in register `d`, or in 32-bit register `d`: besides, the flags of `r` are raised. -/
def FpRegisterResult (i : Instr) (s : State) (k : FlagKind) (d : Byte) (r : FpResult) (flags : List Nat) : Prop :=
  Completes i s s.behind32 (· = d) flags nothing fun t =>
    t.reg d = r.value ∧ t.dfr = deriveDfr (s.dfr ||| raisedBits k r.flags)

def FpHalfResult (i : Instr) (s : State) (k : FlagKind) (d : Byte) (r : FpResult) (flags : List Nat) : Prop :=
  Completes i s s.behind32 (· = halfOf d) flags nothing fun t =>
    t.reg32 d = rightHalf r.value ∧ (∀ n, n ≠ d → t.reg32 n = s.reg32 n) ∧
    t.dfr = deriveDfr (s.dfr ||| raisedBits k r.flags)

/-! ### Bytes of memory in Monitor mode -/

/-- The byte address of the word, half word or byte of CP memory that an absolute address names (R61, R65). -/
def State.wordByte (s : State) (a : Addr) : Nat := s.wrap (wordAligned a).toNat / 8
def State.halfByte (s : State) (a : Addr) : Nat := s.wrap (halfAligned a).toNat / 8
def State.oneByte (s : State) (a : Addr) : Nat := s.wrap (byteAligned a).toNat / 8

/-- The byte address that holds the bit at an absolute address. -/
def State.bitByte (s : State) (a : Addr) : Nat := s.wrap a.toNat / 8

/-- The bit of CP memory at an absolute address. -/
def State.bitOfMemory (s : State) (a : Addr) : Bool := bitAt (Memory.byte s.mem (s.bitByte a)) (s.wrap a.toNat % 8)

/-- The byte address of an element, and how many bytes it has. -/
def State.elemByte (s : State) (w : Width) (a : Addr) : Nat :=
  match w with
  | .w32 => s.halfByte a
  | .w64 => s.wordByte a

def Width.bytes : Width → Nat
  | .w32 => 4
  | .w64 => 8

/-- The element of CP memory at an absolute address. -/
def State.elemOfMemory (s : State) (w : Width) (a : Addr) : Word :=
  match w with
  | .w32 => 0#32 ++ Memory.half s.mem (s.halfByte a)
  | .w64 => Memory.word s.mem (s.wordByte a)

/-- The bytes of the `n` elements of a field that begins at `start`. -/
def State.inField (s : State) (w : Width) (start : Addr) (n : Nat) (b : Nat) : Prop :=
  ∃ k, k < n ∧ s.elemByte w (itemAddr w start k) ≤ b ∧ b < s.elemByte w (itemAddr w start k) + w.bytes

/-- The bytes that hold the `n` bits from `start` on. -/
def State.inBits (s : State) (start : Addr) (n : Nat) (b : Nat) : Prop :=
  ∃ k, k < n ∧ b = s.bitByte (start + BitVec.ofNat 48 k)

/-- The bytes of the `n` bytes from `start` on. -/
def State.inBytes (s : State) (start : Addr) (n : Nat) (b : Nat) : Prop :=
  ∃ k, k < n ∧ b = s.oneByte (start + scaled 3 (BitVec.ofNat 48 k))

/-- The bytes of the word at an absolute bit address, as the hardware's own sequences store it (R62). -/
def State.inAbsWord (s : State) (a : Nat) (b : Nat) : Prop := s.wrap a / 8 ≤ b ∧ b < s.wrap a / 8 + 8

/-! ### Packages (R641, R653, R654) -/

/-- The keys, Illegal Instruction Mask, Forward Domain Change Mask and BLAPs of `u` are those of the package at `base` in
the memory of `m`. -/
def State.RightsFrom (u m : State) (base : Addr) : Prop :=
  let l := m.params.layout
  let w := m.pkgWord base
  u.keys = keysOfWord (w l.keysWord) ∧ u.dom.iim = leftHalf (w l.iimWord) ∧
  u.dom.changeMask = w l.maskWord ++ w (l.maskWord + 1) ∧
  ∀ k : Fin 4, u.dom.blaps[k] = blapOfWords (w (l.blapWord + 2 * k.val)) (w (l.blapWord + 2 * k.val + 1))

/-! ### Operands of the vector instructions -/

/-- A source whose offset is in range (R411); a broadcast source has none. -/
def State.sourceOk (s : State) (broadcast : Bool) (x : Byte) : Prop := broadcast = true ∨ s.offsetOf x < 0x10000

/-- A destination that the qualifier `o` allows (R413). -/
def State.destOk (s : State) (o : Bool) (c : Byte) : Prop :=
  c = 0 ∨ o = false ∨ (bitAt c 7 = false ∧ (s.addr (c + 1)).toNat < 0x10000)

/-- The data flags with their duplicates 59 to 63 (R25), and flag 47 of the breakpoint compare (R70). -/
def vectorFlags (flags : List Nat) : List Nat :=
  47 :: flags ++ flags.filterMap fun k =>
    if k = 41 then some 59 else if k = 42 then some 60 else if k = 43 then some 61 else if k = 45 then some 62
    else if k = 46 then some 63 else none

/-- A vector instruction completes in Monitor mode and stores only into its destination field. -/
def VectorCompletes (i : Instr) (s : State) (w : Width) (o : Bool) (c : Byte) (flags : List Nat) : Prop :=
  Completes i s s.behind64 nothing (vectorFlags flags)
    (s.inField w (s.destOf w o c).start (s.destOf w o c).len) fun _ => True

/-- Element `i` of a source stream as CP memory holds it, extended past its end (R411, R412, R416). -/
def State.streamElem (s : State) (st : Stream) (w : Width) (ext : Word) (i : Nat) : Word :=
  match st with
  | .const v => v
  | .vec start len => if i < len then s.elemOfMemory w (itemAddr w start i) else ext

/-- Is position `i` permissive (R414)? -/
def State.permissive (s : State) (ctl : Control) (i : Nat) : Bool :=
  match ctl.base with
  | none => true
  | some a => s.bitOfMemory (a + BitVec.ofNat 48 i) != ctl.onZero

/-- The data flags that arithmetic raises, and their duplicates (R21, R25). -/
def arithmeticFlags : List ((FpFlags → Bool) × Nat) :=
  [(FpFlags.divide, 41), (FpFlags.divide, 59), (FpFlags.overflow, 42), (FpFlags.overflow, 60), (FpFlags.zero, 43),
   (FpFlags.zero, 61), (FpFlags.root, 45), (FpFlags.root, 62), (FpFlags.indefinite, 46), (FpFlags.indefinite, 63)]

/-- From `s` to `u` a vector instruction has set exactly those arithmetic data flags, and their duplicates, that one of `n`
results raises, and cleared none (R25, R26, R195, R420). `raised` gives the flags of each result, none where they are
free. -/
def State.FlagsRaised (s u : State) (n : Nat) (raised : Nat → Option FpFlags) : Prop :=
  ∀ p ∈ arithmeticFlags,
    (bitAt s.dfr p.2 = true ∨ (∃ i f, i < n ∧ raised i = some f ∧ p.1 f = true) → bitAt u.dfr p.2 = true) ∧
    (bitAt u.dfr p.2 = true → bitAt s.dfr p.2 = true ∨ ∃ i, i < n ∧ ∀ f, raised i = some f → p.1 f = true)

/-- In `u` each element of the destination field that the control vector permits holds the value that `value` gives, where
it gives one, and each other element what was there (R414, R415). -/
def State.ElementsAre (s u : State) (w : Width) (d : Dest) (ctl : Control) (value : Nat → Option Word) : Prop :=
  ∀ k, k < d.len →
    (s.permissive ctl k = true → ∀ v, value k = some v → u.elemOfMemory w (itemAddr w d.start k) = narrow w v) ∧
    (s.permissive ctl k = false → u.elemOfMemory w (itemAddr w d.start k) = s.elemOfMemory w (itemAddr w d.start k))

/-- The instruction stores at each permitted position the result that `result` gives, where it gives one, and raises the
flags of these results and no other ones (R414, R415, R420). -/
def ElementsStored (i : Instr) (s : State) (w : Width) (d : Dest) (ctl : Control) (result : Nat → Option FpResult) : Prop :=
  ∃ u, exec i s = .next u ∧ s.ElementsAre u w d ctl (fun k => (result k).map FpResult.value) ∧
    s.FlagsRaised u d.len fun k => if s.permissive ctl k then (result k).map FpResult.flags else some {}

/-- The first `n` elements of the field at `a` share no byte with the first `m` elements of the field at `b`. -/
def State.fieldsApart (s : State) (w : Width) (a : Addr) (n : Nat) (v : Width) (b : Addr) (m : Nat) : Prop :=
  ∀ i, i < n → ∀ j, j < m → s.elemByte w (itemAddr w a i) + w.bytes ≤ s.elemByte v (itemAddr v b j) ∨
    s.elemByte v (itemAddr v b j) + v.bytes ≤ s.elemByte w (itemAddr w a i)

/-- The elements at two addresses share no byte. -/
def State.elemsApart (s : State) (w : Width) (a : Addr) (v : Width) (b : Addr) : Prop :=
  s.elemByte w a + w.bytes ≤ s.elemByte v b ∨ s.elemByte v b + v.bytes ≤ s.elemByte w a

/-- A source stream shares no byte with the first `m` elements of the field at `b`. -/
def State.apart (s : State) (st : Stream) (w v : Width) (b : Addr) (m : Nat) : Prop :=
  match st with
  | .const _ => True
  | .vec start len => s.fieldsApart w start len v b m

/-- The first `n` bits from `a` on lie outside the first `m` elements of the field at `b`. -/
def State.bitsApart (s : State) (a : Addr) (n : Nat) (v : Width) (b : Addr) (m : Nat) : Prop :=
  ∀ i, i < n → ∀ j, j < m → s.bitByte (a + BitVec.ofNat 48 i) < s.elemByte v (itemAddr v b j) ∨
    s.elemByte v (itemAddr v b j) + v.bytes ≤ s.bitByte (a + BitVec.ofNat 48 i)

/-- The first `n` bits from `a` on share no byte with the first `m` bits from `b` on. -/
def State.stringsApart (s : State) (a : Addr) (n : Nat) (b : Addr) (m : Nat) : Prop :=
  ∀ i, i < n → ∀ j, j < m → s.bitByte (a + BitVec.ofNat 48 i) ≠ s.bitByte (b + BitVec.ofNat 48 j)

/-- A control vector lies outside the first `m` elements of the field at `b` that it controls. -/
def State.controlApart (s : State) (ctl : Control) (v : Width) (b : Addr) (m : Nat) : Prop :=
  match ctl.base with
  | none => True
  | some a => s.bitsApart a m v b m

/-- A source stream shares no byte with the first `n` bits from `a` on. -/
def State.apartFromBits (s : State) (st : Stream) (w : Width) (a : Addr) (n : Nat) : Prop :=
  match st with
  | .const _ => True
  | .vec start len => s.bitsApart a n w start len

/-- How many of the positions below `i` have property `p`. -/
def countBelow (p : Nat → Bool) (i : Nat) : Nat := (List.range i).countP p

/-- A byte, half word or word of the register file at bit address `a` (R11): the element that `rf` selects. -/
def State.registerElem (s : State) (w : Width) (a : Nat) : Word :=
  match w with
  | .w32 => 0#32 ++ field (s.reg (BitVec.ofNat 8 (a / 64))) (32 * (a / 32 % 2)) 32
  | .w64 => s.reg (BitVec.ofNat 8 (a / 64))

/-! ### Item counts of #B7 and #BA (R508) -/

/-- Vector A of a scatter or gather, with its offset in range. -/
def State.indexesOf (s : State) (g x a : Byte) : Indexes :=
  if bitAt g 5 then .fixed (s.len a) (s.addr a)
  else .listed (itemAddr .w64 (s.addr a) (s.offsetOf x)) (s.len a - s.offsetOf x)

/-- Item count `j` as CP memory holds it. -/
def State.itemCount (s : State) (ix : Indexes) (j : Nat) : Addr :=
  match ix with
  | .fixed _ inc => BitVec.ofNat 48 j * inc
  | .listed start _ => addrPart (s.elemOfMemory .w64 (itemAddr .w64 start j))

/-- The item counts share no byte with the first `m` elements of the field at `b`. -/
def State.indexesApart (s : State) (ix : Indexes) (w : Width) (b : Addr) (m : Nat) : Prop :=
  match ix with
  | .fixed _ _ => True
  | .listed start n => s.fieldsApart .w64 start n w b m

/-! ### Linked pairs (R419) -/

/-- What a linkable vector instruction computes of two elements, none where that is a free value, and the extension of a
source that is too short (R416, R421 to R448, R555 to R558). A compare gives its order bit as the value 1 or 0. -/
def pairOp : Instr → Option (Word × (Word → Word → Option FpResult))
  | .shiftv _ _ _ _ _ _ _ => some (mz64, fun u v => (shiftWord u (v.extractLsb' 0 8).toNat).map fun r => ⟨r, {}⟩)
  | .xorv g _ _ _ _ _ _ => logic g fun u v => u ^^^ v
  | .andv g _ _ _ _ _ _ => logic g fun u v => u &&& v
  | .iorv g _ _ _ _ _ _ => logic g fun u v => u ||| v
  | .nandv g _ _ _ _ _ _ => logic g fun u v => ~~~(u &&& v)
  | .norv g _ _ _ _ _ _ => logic g fun u v => ~~~(u ||| v)
  | .ornv g _ _ _ _ _ _ => logic g fun u v => u ||| ~~~v
  | .andnv g _ _ _ _ _ _ => logic g fun u v => u &&& ~~~v
  | .xornv g _ _ _ _ _ _ => logic g fun u v => ~~~(u ^^^ v)
  | .mpyuv g _ _ _ _ _ _ => arith g (normalizedOne (gWidth g)) (.mul .upper)
  | .mpylv g _ _ _ _ _ _ => arith g (normalizedOne (gWidth g)) (.mul .lower)
  | .mpysv g _ _ _ _ _ _ => arith g (normalizedOne (gWidth g)) (.mul .signif)
  | .adduv g _ _ _ _ _ _ => arith g (machineZero (gWidth g)) (.add .upper)
  | .addlv g _ _ _ _ _ _ => arith g (machineZero (gWidth g)) (.add .lower)
  | .addnv g _ _ _ _ _ _ => arith g (machineZero (gWidth g)) (.add .norm)
  | .addxv _ _ _ _ _ _ _ => some (mz64, fun u v => some ⟨lenPart u ++ (addrPart u + addrPart v), {}⟩)
  | .subuv g _ _ _ _ _ _ => arith g (machineZero (gWidth g)) (.sub .upper)
  | .sublv g _ _ _ _ _ _ => arith g (machineZero (gWidth g)) (.sub .lower)
  | .subnv g _ _ _ _ _ _ => arith g (machineZero (gWidth g)) (.sub .norm)
  | .subxv _ _ _ _ _ _ _ => some (mz64, fun u v => some ⟨lenPart u ++ (addrPart u - addrPart v), {}⟩)
  | .truv g _ _ _ _ => some (machineZero (gWidth g), fun u _ => some (fpRound (gWidth g) .trunc u))
  | .flrv g _ _ _ _ => some (machineZero (gWidth g), fun u _ => some (fpRound (gWidth g) .floor u))
  | .clgv g _ _ _ _ => some (machineZero (gWidth g), fun u _ => some (fpRound (gWidth g) .ceil u))
  | .cmpeq g _ _ _ _ _ => truth g Cmp.eq
  | .cmpne g _ _ _ _ _ => truth g Cmp.ne
  | .cmpge g _ _ _ _ _ => truth g Cmp.ge
  | .cmplt g _ _ _ _ _ => truth g Cmp.lt
  | _ => none
where
  /-- A logical operation on elements of the width. -/
  logic (g : Byte) (f : Word → Word → Word) : Option (Word × (Word → Word → Option FpResult)) :=
    some (machineZero (gWidth g), fun u v => some ⟨narrow (gWidth g) (f u v), {}⟩)
  /-- An arithmetic operation with its sign control. -/
  arith (g : Byte) (ext : Word) (op : FpOp) : Option (Word × (Word → Word → Option FpResult)) :=
    some (ext, fun u v => some (fpBinary (gWidth g) op (gSign g) u v))
  /-- The truth value of a comparison. -/
  truth (g : Byte) (cond : Cmp → Bool) : Option (Word × (Word → Word → Option FpResult)) :=
    some (machineZero (gWidth g), fun u v =>
      some ⟨if cond (fpCompare (gWidth g) u v) then 1 else 0, (fpCompare (gWidth g) u v).flags⟩)

/-! ### The communication buffer -/

/-- Item `i`, a word or a half word, of the communication buffer, right-justified. -/
def State.bufferElem (s : State) (w : Width) (i : Nat) : Word :=
  match w with
  | .w32 => 0#32 ++ Memory.half s.cb (4 * i)
  | .w64 => Memory.word s.cb (8 * i)

/-- The bytes of item `i`. -/
def State.inItem (_ : State) (w : Width) (i : Nat) (b : Nat) : Prop := i * w.bytes ≤ b ∧ b < (i + 1) * w.bytes

/-- Instruction `i` completes at `s` as `Completes` says, but what it stores are the bytes in `stored` of the
communication buffer. -/
def BufferResult (i : Instr) (s : State) (next : Addr) (changed : Byte → Prop) (stored : Nat → Prop)
    (result : State → Prop) : Prop :=
  ∃ t, exec i s = .next t ∧ result t ∧ (∀ n, ¬ changed n → t.reg n = s.reg n) ∧
    (∀ a, ¬ stored a → Memory.byte t.cb a = Memory.byte s.cb a) ∧ t = { s with regs := t.regs, cb := t.cb, pc := next }

/-! ### The results of the arithmetic over exact integers (spec/40_fp_arithmetic.md R150 to R188) -/

/-- `floor(v * 2^k)`. -/
def floorScale (v k : Int) : Int := if 0 ≤ k then v * (2 ^ k.toNat : Nat) else v / (2 ^ (-k).toNat : Nat)

/-- Is `c` a coefficient of the width (R150)? -/
abbrev InRange (w : Width) (c : Int) : Prop := -(2 ^ w.n : Nat) ≤ c ∧ c < (2 ^ w.n : Nat)

/-- Is `c` a normalized coefficient (R154): its sign bit and the next differ? -/
def Normalized (w : Width) (c : Int) : Prop := InRange w c ∧ ((2 ^ (w.n - 1) : Nat) ≤ c ∨ c < -(2 ^ (w.n - 1) : Nat))

/-- `c` has `n` significant bits (R154). -/
def SigCount (c : Int) (n : Nat) : Prop :=
  if c = 0 ∨ c = -1 then n = 0
  else 0 < n ∧ (2 ^ (n - 1) : Nat) ≤ (if 0 ≤ c then c else -c - 1) ∧ (if 0 ≤ c then c else -c - 1) < (2 ^ n : Nat)

/-- The result is indefinite: flag 46, and flag 42 for an exponent overflow, flag 41 for a divide fault (R153, R191). -/
def IsIndefinite (w : Width) (r : FpResult) : Prop := r = ⟨indefinite w, { indefinite := true }⟩
def IsOverflow (w : Width) (r : FpResult) : Prop := r = ⟨indefinite w, { overflow := true, indefinite := true }⟩
def IsDivideFault (w : Width) (r : FpResult) : Prop := r = ⟨indefinite w, { divide := true, indefinite := true }⟩

/-- The result is machine zero with flag 43 (R153, R192). -/
def IsMachineZero (w : Width) (r : FpResult) : Prop := r = ⟨machineZero w, { zero := true }⟩

/-- The result has exponent `e` and coefficient `c` and raises no flag. -/
def IsNumber (w : Width) (e c : Int) (r : FpResult) : Prop := unpack w r.value = .normal e c ∧ r.flags = {}

/-- The end of an operation (R155): exponent `e` and coefficient `c`, where the exponent is in range. -/
def Delivers (w : Width) (e c : Int) (r : FpResult) : Prop :=
  if w.emax < e then IsOverflow w r else if e < w.emin then IsMachineZero w r else IsNumber w e c r

/-- The adjustment for significance (R175) of a coefficient of `width` bits, so that the result has `sIn` significant
bits: `v * 2^e` keeps its value but for the bits lost to the right. -/
def Adjusted (w : Width) (width : Nat) (e v : Int) (sIn : Nat) (r : FpResult) : Prop :=
  ∀ b : Nat, SigCount v b →
    let lost : Int := width - w.n
    let move : Int := sIn - (if v = 0 ∨ v = -1 then 0 else b - lost)
    Delivers w (e - move) (floorScale v (move - lost)) r

/-- The stored part of an exact sum whose double-length coefficient at exponent `e` is `sum` (R160 steps 6 to 9). -/
def SumEnds (w : Width) (k : Kind) (e sum : Int) (r : FpResult) : Prop :=
  match k with
  | .lower =>
    if w.emax < e then IsNumber w (w.emax + 1 - w.n) (sum % (2 ^ w.n : Nat)) r
    else Delivers w (e - w.n) (sum % (2 ^ w.n : Nat)) r
  | .norm =>
    if floorScale sum (-w.n) = 0 then IsMachineZero w r
    else ∀ j : Nat, Normalized w (floorScale sum (-w.n) * (2 ^ j : Nat)) →
      Delivers w (e - j) (floorScale sum (-w.n) * (2 ^ j : Nat)) r
  | _ => Delivers w e (floorScale sum (-w.n)) r

/-- The sum of `u * 2^e` and `v * 2^f`, rounded down at the larger exponent, or at the next one where `2n` bits do not hold
it (R160 steps 4 and 5, R584): `ends` of its exponent and its double-length coefficient. -/
def RoundedSum (w : Width) (e u f v : Int) (ends : Int → Int → Prop) : Prop :=
  let low := min e f
  let exact := u * (2 ^ (e - low).toNat : Nat) + v * (2 ^ (f - low).toNat : Nat)
  let at_ (t : Int) : Int := floorScale exact (low - t)
  let top := max e f
  let fits := -(2 ^ (2 * w.n) : Nat) ≤ at_ top ∧ at_ top < (2 ^ (2 * w.n) : Nat)
  (fits → ends top (at_ top)) ∧ (¬ fits → ends (top + 1) (at_ (top + 1)))

/-- The sum of two operands (R160 steps 1 to 5): `ends` of its exponent and its double-length coefficient. -/
def SumIs (w : Width) (k : Kind) (x y : Num) (r : FpResult) (ends : Int → Int → Prop) : Prop :=
  match zeroAsMz k x, zeroAsMz k y with
  | .ind, _ => IsIndefinite w r
  | _, .ind => IsIndefinite w r
  | .mz, .mz => IsMachineZero w r
  | .mz, .normal e c => ends e (c * (2 ^ w.n : Nat))
  | .normal e c, .mz => ends e (c * (2 ^ w.n : Nat))
  | .normal e c, .normal f d => RoundedSum w e (c * (2 ^ w.n : Nat)) f (d * (2 ^ w.n : Nat)) ends

/-- `fp_add` (R160). -/
def AddIs (w : Width) (k : Kind) (x y : Num) (r : FpResult) : Prop := SumIs w k x y r fun e sum => SumEnds w k e sum r

/-- An operand with its sign reversed (R154 `neg`, R186): `-2^n` by way of the next exponent, past the last exponent an
indefinite operand. -/
def complemented (w : Width) : Num → Num
  | .normal e c =>
    if c = -(2 ^ w.n : Nat) then if e = w.emax then .ind else .normal (e + 1) (2 ^ (w.n - 1) : Nat) else .normal e (-c)
  | x => x

/-- A subtraction is what `add` says of the complemented subtrahend, whose exponent may overflow (R161). -/
def DifferenceIs (w : Width) (x y : Num) (r : FpResult) (add : Num → Prop) : Prop :=
  match x, y, complemented w y with
  | .ind, _, _ => IsIndefinite w r
  | _, .normal _ _, .ind => IsOverflow w r
  | _, _, z => add z

/-- `fp_sub` (R161). -/
def SubIs (w : Width) (k : Kind) (x y : Num) (r : FpResult) : Prop := DifferenceIs w x y r fun z => AddIs w k x z r

/-- `fp_half` (R583): the normalized sum with its exponent reduced by one. -/
def HalfIs (w : Width) (x y : Num) (r : FpResult) : Prop :=
  SumIs w .norm x y r fun e sum =>
    if floorScale sum (-w.n) = 0 then IsMachineZero w r
    else ∀ j : Nat, Normalized w (floorScale sum (-w.n) * (2 ^ j : Nat)) →
      Delivers w (e - j - 1) (floorScale sum (-w.n) * (2 ^ j : Nat)) r

/-- Half the difference (R569). -/
def HalfDifferenceIs (w : Width) (x y : Num) (r : FpResult) : Prop := DifferenceIs w x y r fun z => HalfIs w x z r

/-- Sign control (R120, R186): of the A stream, `ma` takes the magnitude, `c` the complement, both together the negative
form; of the B stream, `mb` takes the magnitude. -/
def signedA (w : Width) (g : Sign) : Num → Num
  | .normal e c =>
    if (g.g5 = true ∧ g.g6 = true ∧ 0 < c) ∨ (g.g5 = true ∧ g.g6 = false ∧ c < 0) ∨ (g.g5 = false ∧ g.g6 = true) then
      complemented w (.normal e c)
    else .normal e c
  | x => x

def signedB (w : Width) (g : Sign) : Num → Num
  | .normal e c => if g.g7 = true ∧ c < 0 then complemented w (.normal e c) else .normal e c
  | x => x

/-- An operand with coefficient `-2^n` is taken with its exponent one higher (R154, `fix8000`). -/
def fixed (w : Width) (e c : Int) : Int × Int :=
  if c = -(2 ^ w.n : Nat) then (e + 1, -(2 ^ (w.n - 1) : Nat)) else (e, c)

/-- `fp_mul` (R165): the exact product; `sIn` is the smaller significant bit count of the operands. -/
def MulIs (w : Width) (k : Kind) (sIn : Nat) (x y : Num) (r : FpResult) : Prop :=
  match x, y with
  | .ind, _ => IsIndefinite w r
  | _, .ind => IsIndefinite w r
  | .mz, _ => IsMachineZero w r
  | _, .mz => IsMachineZero w r
  | .normal e c, .normal f d =>
    let p := fixed w e c
    let q := fixed w f d
    match k with
    | .lower => Delivers w (p.1 + q.1) (p.2 * q.2 % (2 ^ w.n : Nat)) r
    | .signif => Adjusted w (2 * w.n) (p.1 + q.1 + w.n) (p.2 * q.2) sIn r
    | _ => Delivers w (p.1 + q.1 + w.n) (floorScale (p.2 * q.2) (-w.n)) r

/-- `fp_div` (R168): the quotient by the normalized divisor, truncated toward zero. -/
def DivIs (w : Width) (k : Kind) (sIn : Nat) (x y : Num) (r : FpResult) : Prop :=
  match x, y with
  | .ind, _ => IsIndefinite w r
  | _, .ind => IsIndefinite w r
  | _, .mz => IsDivideFault w r
  | .mz, .normal _ d => if d = 0 then IsDivideFault w r else IsMachineZero w r
  | .normal e c, .normal f d =>
    if d = 0 then IsDivideFault w r
    else
      let p := fixed w e c
      let q := fixed w f d
      ∀ (j : Nat) (t : Int), Normalized w (q.2 * (2 ^ j : Nat)) →
        t.natAbs * (q.2 * (2 ^ j : Nat)).natAbs ≤ p.2.natAbs * 2 ^ (w.n - 1) →
        p.2.natAbs * 2 ^ (w.n - 1) < (t.natAbs + 1) * (q.2 * (2 ^ j : Nat)).natAbs →
        (0 < t → (0 < p.2 ↔ 0 < q.2)) → (t < 0 → (0 < p.2 ↔ q.2 < 0)) →
        let exp : Int := p.1 - q.1 - ((w.n : Int) - 1 - j)
        match k with
        | .signif => Adjusted w w.n exp t sIn r
        | _ => Delivers w exp t r

/-- The root of a number that is not negative (R170): floor of the root of the coefficient, complemented where `flip`. -/
def RootIs (w : Width) (flip : Bool) (sIn : Nat) (e c : Int) (r : FpResult) : Prop :=
  if c = 0 then Delivers w (floorScale e (-1)) 0 r
  else ∀ q : Nat,
    let even := e - e % 2
    let d : Int := c * (2 ^ (e % 2).toNat : Nat)
    (q * q : Nat) ≤ d * (2 ^ (w.n - 1) : Nat) → d * (2 ^ (w.n - 1) : Nat) < ((q + 1) * (q + 1) : Nat) →
      Adjusted w w.n (floorScale even (-1) - ((w.n : Int) - 1) / 2) (if flip then -q else q) sIn r

/-- `fp_sqrt` (R170): a negative operand gives the complemented root of its complement and flag 45. -/
def SqrtIs (w : Width) (sIn : Nat) (x : Num) (r : FpResult) : Prop :=
  match x with
  | .ind => IsIndefinite w r
  | .mz => IsMachineZero w r
  | .normal e c =>
    if 0 ≤ c then RootIs w false sIn e c r
    else r.flags.root = true ∧
      RootIs w true sIn (fixed w e c).1 (-(fixed w e c).2) { r with flags := { r.flags with root := false } }

/-- `fp_trunc`, `fp_floor`, `fp_ceil` (R178). -/
def RoundIs (w : Width) (m : Rounding) (x : Word) (r : FpResult) : Prop :=
  match unpack w x with
  | .mz => r = ⟨0, {}⟩
  | .ind => r = ⟨x, { indefinite := true }⟩
  | .normal e c =>
    if 0 ≤ e then r = ⟨x, {}⟩
    else
      let one : Int := (2 ^ (-e).toNat : Nat)
      ∃ q : Int, IsNumber w 0 q r ∧
        match m with
        | .floor => q * one ≤ c ∧ c < (q + 1) * one
        | .ceil => (q - 1) * one < c ∧ c ≤ q * one
        | .trunc => (0 ≤ c → 0 ≤ q ∧ q * one ≤ c ∧ c < (q + 1) * one) ∧
          (c < 0 → q ≤ 0 ∧ (q - 1) * one < c ∧ c ≤ q * one)

/-- `fp_contract` and `fp_rcontract` (R183, R184). -/
def ContractIs (round : Bool) (x : Word) (r : FpResult) : Prop :=
  let e := expOf .w64 x
  let c := coefOf .w64 x
  if 28671 < e then IsIndefinite .w32 r
  else if 87 < e then IsOverflow .w32 r
  else if e < -136 then IsMachineZero .w32 r
  else if round then
    if c + 2 ^ 23 < 2 ^ 47 then Delivers .w32 (e + 24) (floorScale (c + 2 ^ 23) (-24)) r
    else Delivers .w32 (e + 25) (floorScale (c + 2 ^ 23) (-25)) r
  else IsNumber .w32 (e + 24) (floorScale c (-24)) r

/-- `fp_abs` (R185): a negative coefficient is complemented; `-2^n` by way of the next exponent. -/
def AbsIs (w : Width) (x : Word) (r : FpResult) : Prop :=
  match unpack w x with
  | .ind => IsIndefinite w r
  | .mz => IsMachineZero w r
  | .normal e c =>
    if 0 ≤ c then r = ⟨x, {}⟩
    else if c = -(2 ^ w.n : Nat) then Delivers w (e + 1) (2 ^ (w.n - 1) : Nat) r
    else IsNumber w e (-c) r

/-- `fp_extend` and `fp_index_extend` (R185): `f` gives exponent and coefficient of the 64-bit number. -/
def ExtendIs (f : Int → Int → Int × Int) (x : Num) (r : FpResult) : Prop :=
  match x with
  | .ind => IsIndefinite .w64 r
  | .mz => IsMachineZero .w64 r
  | .normal e c => IsNumber .w64 (f e c).1 (f e c).2 r

/-- `fp_adjs` (R180) for a count up to the coefficient's width: a left shift ends at the last place where the coefficient
is in range. -/
def AdjsIs (w : Width) (x : Num) (count : Int) (r : FpResult) : Prop :=
  match x with
  | .ind => IsIndefinite w r
  | .mz => IsMachineZero w r
  | .normal e c =>
    if 0 ≤ count then
      ∃ j : Nat, j ≤ count ∧ InRange w (c * (2 ^ j : Nat)) ∧ (j = count ∨ ¬ InRange w (c * (2 ^ (j + 1) : Nat))) ∧
        Delivers w (e - j) (c * (2 ^ j : Nat)) r
    else Delivers w (e - count) (floorScale c count) r

/-- `fp_adje` (R181). -/
def AdjeIs (w : Width) (x y : Num) (r : FpResult) : Prop :=
  match x, y with
  | .normal e c, .normal f _ =>
    if InRange w (floorScale c (e - f)) then IsNumber w f (floorScale c (e - f)) r else IsOverflow w r
  | _, _ => IsIndefinite w r

/-- The truth values of a comparison by the sign of a difference. -/
def Cmp.bySign (d : Int) (c : Cmp) : Prop :=
  c.eq = decide (d = 0) ∧ c.ne = decide (d ≠ 0) ∧ c.ge = decide (0 ≤ d) ∧ c.lt = decide (d < 0) ∧ c.flag = false

/-- `fp_cmp` (R188): by the signs where they differ, else by the upper result of the subtraction. -/
def CompareIs (w : Width) (x y : Num) (c : Cmp) : Prop :=
  match x, y with
  | .ind, .ind => c = ⟨true, false, true, false, true⟩
  | .ind, _ => c = ⟨false, false, false, false, true⟩
  | _, .ind => c = ⟨false, false, false, false, true⟩
  | .mz, .mz => c.bySign 0
  | .normal _ d, .mz => c.bySign d
  | .mz, .normal _ d => c.bySign (-d)
  | .normal e d, .normal f g =>
    if 0 ≤ d ∧ g < 0 then c.bySign 1
    else if d < 0 ∧ 0 ≤ g then c.bySign (-1)
    else
      let h := if g = -(2 ^ w.n : Nat) then f + 1 else f
      let low := min e f
      c.bySign (floorScale (d * (2 ^ (e - low).toNat : Nat) - g * (2 ^ (f - low).toNat : Nat)) (low - max e h))

/-! ### The accumulator of #DA and #DC, the scan of #D8 and #D9 (spec/48_vector_macro.md R573, R575, R584, R585) -/

/-- `acc_add` (R584): a term of weight `2^(e-n)` added to the accumulator, and the flags. -/
def AccAddIs (w : Width) (e t : Int) (a : Acc) (r : Acc × FpFlags) : Prop :=
  match a with
  | .ind => r = (.ind, {})
  | .zero => r = (.value e t, {})
  | .value f u => RoundedSum w f u e t fun top sum =>
    if w.emax < top then r = (.ind, { overflow := true, indefinite := true }) else r = (.value top sum, {})

/-- One element of a sum (R573): from accumulator and flags `k` to `r`. -/
def SumStepIs (w : Width) (x : Num) (k r : Acc × FpFlags) : Prop :=
  match x with
  | .ind => r = (.ind, k.2)
  | .mz => r = k
  | .normal e c => ∃ v, AccAddIs w e (c * (2 ^ w.n : Nat)) k.1 v ∧ r = (v.1, k.2.or v.2)

/-- One product of a dot product (R575): the whole double-length product enters the sum. -/
def DotStepIs (w : Width) (x y : Num) (k r : Acc × FpFlags) : Prop :=
  match x, y with
  | .ind, _ => r = (.ind, k.2)
  | _, .ind => r = (.ind, k.2)
  | .normal e c, .normal f d =>
    let p := fixed w e c
    let q := fixed w f d
    let top := p.1 + q.1 + w.n
    if w.emax < top then r = (.ind, k.2.or { overflow := true })
    else if top < w.emin then r = k
    else ∃ v, AccAddIs w top (p.2 * q.2) k.1 v ∧ r = (v.1, k.2.or v.2)
  | _, _ => r = k

/-- Is the accumulator one that additions leave: exponent and double-length coefficient in range (R584)? -/
def Acc.inRange (w : Width) : Acc → Prop
  | .value e v => w.emin ≤ e ∧ e ≤ w.emax ∧ -(2 ^ (2 * w.n) : Nat) ≤ v ∧ v < (2 ^ (2 * w.n) : Nat)
  | _ => True

/-- The upper and the lower result of the accumulator (R584). -/
def AccEnds (w : Width) (a : Acc) : Prop :=
  match a with
  | .zero => a.upper w = machineZero w ∧ a.lower w = some (machineZero w)
  | .ind => a.upper w = indefinite w ∧ a.lower w = none
  | .value e v =>
    unpack w (a.upper w) = .normal e (floorScale v (-w.n)) ∧
    ∃ l, a.lower w = some l ∧
      if e - w.n < w.emin then l = machineZero w else unpack w l = .normal (e - w.n) (v % (2 ^ w.n : Nat))

/-- The number that the scan compares: the magnitude with `ma` (R585). -/
def scanned (w : Width) (magnitude : Bool) (v : Word) : Num := signedA w ⟨magnitude, false, false⟩ (unpack w v)

/-- One element of the scan of R585, `v` with item count `i`: from `k` to `r`. -/
def ScanStepIs (w : Width) (better : Cmp → Bool) (magnitude : Bool) (i : Nat) (v : Word) (k r : Scan) : Prop :=
  if unpack w v = .ind then r = { k with ind := true }
  else
    let next : Option Best := some ⟨v, scanned w magnitude v, i⟩
    match k.best with
    | none => r = { k with best := next }
    | some t => ∃ c, CompareIs w (scanned w magnitude v) t.num c ∧
      r = if better c then { k with best := next, tie := false } else if c.eq then { k with tie := true } else k

/-! ### Integer compares (spec/47_sparse_compare_index.md R491, R492) -/

/-- The number that `width` bits of value `n` stand for, unsigned or in two's complement. -/
def integerOf (unsigned : Bool) (width n : Nat) : Int :=
  if unsigned = true ∨ n < 2 ^ (width - 1) then n else (n : Int) - (2 ^ width : Nat)

/-- The value for register C and the two numbers that an integer compare compares (R492), from the operands `av`, `xv` and
`zv` of registers A, X and Z, whose integers are their right-most `width` bits. -/
def IntCompareIs (unsigned fwc : Bool) (width total : Nat) (av xv zv : Nat) (r : IntCompare) : Prop :=
  let sum := (av % 2 ^ width + xv % 2 ^ width) % 2 ^ width
  r.value.toNat = av / 2 ^ width * 2 ^ width + sum ∧
  if fwc then r.left = integerOf unsigned total r.value.toNat ∧ r.right = integerOf unsigned total zv
  else r.left = integerOf unsigned width sum ∧ r.right = integerOf unsigned width (zv % 2 ^ width)

/-! ### Instructions in memory -/

/-- The 40 unused function codes (R125). -/
def unusedCodes : List Nat :=
  [0x01, 0x02, 0x0B, 0x43, 0x47, 0x4A, 0x6A, 0x8D, 0x8E, 0x9E, 0x9F, 0xA3, 0xA7, 0xAA, 0xAD, 0xAE, 0xB9, 0xD2, 0xD3,
   0xD6, 0xD7, 0xDD, 0xDE, 0xE0, 0xE1, 0xE2, 0xE3, 0xE4, 0xE5, 0xE6, 0xE7, 0xE8, 0xE9, 0xEA, 0xEB, 0xEC, 0xED, 0xEE,
   0xEF, 0xF9]

/-- The bytes of the instruction that CP memory holds at absolute address `pc` (R66, R100). -/
def State.instructionBytes (s : State) (pc : Addr) : List Byte :=
  let h (a : Addr) : Half := Memory.half s.mem (4 * (s.wrap a.toNat / 32))
  if ((h pc).extractLsb' 24 8).toNat < 0x80 then halfBytes (h pc) else halfBytes (h pc) ++ halfBytes (h (pc + 32))

/-! ### 32-bit and 64-bit registers of the operand width -/

/-- The number of the 64-bit register that holds register `d` of the operand width. -/
def regOfW (w : Width) (d : Byte) : Byte :=
  match w with
  | .w32 => halfOf d
  | .w64 => d

/-- Every register of the operand width but those in `changed` is as before. -/
def State.othersAs (s t : State) (w : Width) (changed : Byte → Prop) : Prop :=
  ∀ n, ¬ changed n → t.regW w n = s.regW w n

end Sys2Proof.Machine
end

