-- ==== Sys2Proof/Certificates/Slice0/Obligations.lean ====
section
/-! DEFINITION. The statements for the provers. Each docstring names the rules of spec/ the statement rests on, and what is
the model's own choice. -/

open Sys2Proof Sys2Proof.Machine

/-! ### Encoding (spec/30_encoding.md) -/

/-- R100 to R124: decoding the encoding of a well-formed instruction gives it back, whatever bytes follow. -/
def Obligations.DecodeOfEncode : Prop :=
  ∀ (i : Instr) (rest : List Byte), i.wf = true → decode (encode i ++ rest) = .ok ⟨i, true⟩

/-- R100, R116, R118: what the decoder reads without an unused bit set is well-formed, and its encoding is the bytes it
was read from: no bit of an instruction is dropped. -/
def Obligations.EncodeOfDecode : Prop :=
  ∀ (bytes : List Byte) (i : Instr), decode bytes = .ok ⟨i, true⟩ →
    i.wf = true ∧ encode i = bytes.take (encode i).length

/-- R125: the 40 unused function codes are refused by name, and every other function code is an instruction. -/
def Obligations.UnusedCodesRefused : Prop :=
  ∀ (f : Byte) (rest : List Byte), 7 ≤ rest.length →
    (f.toNat ∈ unusedCodes → decode (f :: rest) = .error (.unusedCode f)) ∧
    (f.toNat ∉ unusedCodes → ∃ d, decode (f :: rest) = .ok d)

/-- Words that the spec writes out decode to the instructions they stand for: R273 (`2C101112`), R645 (`33603401`), R514
(`BE10123456789ABC`), R285 (`38100011`). -/
def Obligations.SampleWords : Prop :=
  decode [0x2C, 0x10, 0x11, 0x12] = .ok ⟨.rxor 0x10 0x11 0x12, true⟩ ∧
  decode [0x33, 0x60, 0x34, 0x01] = .ok ⟨.badf 0x60 0x34 0x01, true⟩ ∧
  decode [0xBE, 0x10, 0x12, 0x34, 0x56, 0x78, 0x9A, 0xBC] = .ok ⟨.ex 0x10 0x123456789ABC, true⟩ ∧
  decode [0x38, 0x10, 0x00, 0x11] = .ok ⟨.ltol 0x10 0x11, true⟩

/-! ### The step (spec/60_exceptions.md R633, R634, R643; spec/30_encoding.md R126) -/

/-- R126, R643: a step of a CPU that is not stopped runs the fetched instruction that its bytes decode to, followed by
what stands between two instructions; an unused function code and a forbidden one take their exceptions, in this order,
and an instruction with a one in an unused field is undefined (R116). The order of the checks is decision D56 (log entry
17). -/
def Obligations.StepRunsDecoded : Prop :=
  ∀ (s t : State) (bytes : List Byte), s.stopped = false → fetchBytes s.pc s = .ok (bytes, t) →
    (∀ i, decode bytes = .ok ⟨i, true⟩ → t.isTypeTwo (bytes.headD 0).toNat = false →
      step s = afterOutcome (exec i t)) ∧
    step s = match decode bytes with
      | .error _ => .next t.typeOne.after
      | .ok d =>
        if t.isTypeTwo (bytes.headD 0).toNat then .next t.typeTwo.after
        else if d.clean then afterOutcome (exec d.instr t)
        else .refused .unusedFieldNonZero

/-- R62, R66, R93: in Monitor mode, with nothing in the instruction stack that memory does not hold, a step runs the
instruction whose bytes CP memory holds at the program address. The stale contents are log entry 12. -/
def Obligations.MonitorStepRunsMemory : Prop :=
  ∀ (s : State) (i : Instr), s.mode = .monitor → s.stopped = false → s.stale = [] → i.wf = true →
    s.instructionBytes s.pc = encode i → step s = afterOutcome (exec i s)

/-- R633: an unused function code in Monitor mode sets IR bit 58 and stops the CPU; a stopped CPU keeps its program
address; a Master Clear lets it go on at the address in register #03 (the inputs are the model's tape, log entry 13).
That time passes while it is stopped is the model's (log entry 16). -/
def Obligations.MonitorTypeOneStops : Prop :=
  (∀ (s : State) (f : Byte) (rest : List Byte), s.mode = .monitor → s.stopped = false → s.stale = [] → s.env = [] →
    s.instructionBytes s.pc = f :: rest → f.toNat ∈ unusedCodes →
    step s = .next (State.countCycles { s with ir := setBitAt s.ir 58 true, waits := .masterClear })) ∧
  (∀ s : State, s.waits = .masterClear → s.env = [] → step s = .next s.countCycles) ∧
  (∀ (s : State) (e : Input) (rest : List Input), s.stopped = true → s.env = e :: rest → e.masterClear = true →
    ∃ t, step s = .next t ∧ t.stopped = false ∧ t.mode = .monitor ∧ t.pc = halfAligned (t.addr 3) ∧ t.ir = 0)

/-- R16, R22, R31, R46, R61, R85: every step keeps the invariant of the machine. -/
def Obligations.StepKeepsInv : Prop := ∀ s t : State, s.Inv → step s = .next t → t.Inv

/-- The machine after reset has the invariant. The register values at reset are the model's choice (log entries 3, 4).
-/
def Obligations.ResetInv : Prop := State.reset.Inv

/-- R680, R48: what a Master Clear leaves, and that the machine after reset is one that a Master Clear leaves as it is.
What is cleared beyond the stated items is decision D12; that the register file and both memories stay as they stand is
the model's choice (log entry 43: R48 and R680 leave them unspecified), and so are the register values at reset (log
entry 3). -/
def Obligations.MasterClearLeaves : Prop :=
  (∀ s : State, s.masterClear.mode = .monitor ∧ s.masterClear.ir = 0 ∧ s.masterClear.mit = 0 ∧ s.masterClear.dfr = 0 ∧
    s.masterClear.bkpt = 0 ∧ s.masterClear.faultTest = 0 ∧ s.masterClear.arValid = false ∧
    s.masterClear.link = .none ∧ s.masterClear.stopped = false ∧ s.masterClear.stale = [] ∧
    s.masterClear.xfer = { s.xfer with iqvf := false, busy := false } ∧
    s.masterClear.serial = decide (s.forceExec = .serial) ∧ s.masterClear.pc = halfAligned (s.addr 3) ∧
    s.masterClear.regs = s.regs ∧ s.masterClear.mem = s.mem ∧ s.masterClear.cb = s.cb) ∧
  State.reset.masterClear = State.reset

/-! ### Exceptions and exchanges (spec/60_exceptions.md) -/

/-- R642, R640: the exchange from Job to Monitor mode: the invisible package holds the saved program address, the DFR in
word 4 and the other process status registers (the other words' places are PRESUMED, log entry 9), the register files
are exchanged unless there is none, DFR and breakpoint register are cleared, the program goes on at the address in
register #03, and everything else, every other byte of memory among it, is as before. Word 4 is decision D9, the voided
instruction stack decision D21; overlaps are log entry 42. -/
def Obligations.JobToMonitorExchange : Prop :=
  ∀ (s : State) (saved : Addr), Memory.wf s.mem = true → s.params.ok = true → s.invPkg.toNat % 64 = 0 →
    s.jobRF.toNat % 64 = 0 → s.packagesOverlap s.jobRF s.invPkg = false →
    let t := s.toMonitor saved
    t.mode = .monitor ∧ t.dfr = 0 ∧ t.bkpt = 0 ∧ t.stale = [] ∧ t.link = .none ∧ t.pc = halfAligned (t.addr 3) ∧
    t.pkgWord s.invPkg s.params.layout.pWord = joinLen 0 saved ∧ t.pkgWord s.invPkg Layout.dfrWord = s.dfr ∧
    (∀ p ∈ s.invisibleWords saved, t.pkgWord s.invPkg p.1 = p.2) ∧
    (s.jobRF = 0 → t.regs = s.regs) ∧
    (s.jobRF ≠ 0 → ∀ n : Byte, t.absWord (s.jobRF.toNat + 64 * n.toNat) = s.reg n ∧ t.reg n = s.absWord (64 * n.toNat)) ∧
    (∀ b : Nat, (∀ p ∈ s.invisibleWords saved, ¬ s.inAbsWord (s.invPkg.toNat + 64 * p.1) b) →
      (s.jobRF = 0 ∨ ∀ n : Byte, ¬ s.inAbsWord (s.jobRF.toNat + 64 * n.toNat) b) →
      Memory.byte t.mem b = Memory.byte s.mem b) ∧
    t = { s with mode := .monitor, dfr := 0, bkpt := 0, stale := [], link := .none, pc := t.pc, regs := t.regs,
                 mem := t.mem }

/-- R207, R641: #09 in Monitor mode: the Monitor's registers are stored at absolute address 0 and the Job's are loaded,
both unless there is no Job register file; P, DFR and the other process status registers come from the Job's invisible
package (the places of the words but the DFR's are PRESUMED, log entry 9), and everything else, every other byte of
memory among it, is as before. Word 4 is decision D9, the timer in the package decision D10, the voided instruction
stack decision D21. How the job's storage is compared with its packages is log entry 31. -/
def Obligations.MonitorToJobExchange : Prop :=
  ∀ (s : State) (sd t : Byte),
    let rf := if sd = 0 then 0 else s.addr sd
    let pkg := s.addr t
    let l := s.params.layout
    let d := s.pkgWord pkg l.domWord
    s.mode = .monitor → Memory.wf s.mem = true → s.params.ok = true → s.faultTest = 0 → s.arValid = true →
    rf.toNat % 4096 = 0 → pkg.toNat % 4096 = 0 → (rf = 0 ∨ 0x4000 ≤ rf.toNat) → s.packagesOverlap rf pkg = false →
    s.storageOverlaps rf pkg = false →
    ∃ u, exec (.exit 0 sd t) s = .next u ∧ u.mode = .job ∧ u.jobRF = rf ∧ u.invPkg = pkg ∧ u.stale = [] ∧
      u.pc = halfAligned (addrPart (s.pkgWord pkg l.pWord)) ∧ u.dfr = deriveDfr (s.pkgWord pkg Layout.dfrWord) ∧
      u.bkpt = s.pkgWord pkg l.bkptWord ∧ u.jit = rightHalf (s.pkgWord pkg l.jitWord) ∧ u.RightsFrom s pkg ∧
      u.dom.stackIndex = field d 0 13 ∧ u.dom.stackLimit = field d 16 13 ∧ u.dom.prev = field d 32 7 ∧
      u.dom.cur = field d 48 7 ∧ u.dom.ebcdic = bitAt (s.pkgWord pkg l.jitWord) 0 ∧
      (rf = 0 → u.regs = s.regs ∧ u.mem = s.mem) ∧
      (rf ≠ 0 → ∀ n : Byte, u.reg n = s.absWord (rf.toNat + 64 * n.toNat) ∧ u.absWord (64 * n.toNat) = s.reg n) ∧
      (∀ b : Nat, 0x800 ≤ b → Memory.byte u.mem b = Memory.byte s.mem b) ∧
      u = { s with mode := .job, pc := u.pc, regs := u.regs, dfr := u.dfr, bkpt := u.bkpt, jit := u.jit, keys := u.keys,
                   dom := u.dom, jobRF := rf, invPkg := pkg, stale := [], mem := u.mem }

/-- R641, R642: a Job that an interrupt sends to the Monitor finds, when the Monitor returns to it at once, every
register and every process status register as it left them. The places of the package words are parameters (log entry
9); the voided instruction stack is decision D21, the timer in the package decision D10. -/
def Obligations.ExchangeRoundTrip : Prop :=
  ∀ s : State, s.Inv → s.mode = .job → s.params.ok = true → s.invPkg.toNat % 64 = 0 → s.jobRF.toNat % 64 = 0 →
    s.packagesOverlap s.jobRF s.invPkg = false →
    let u := (s.toMonitor s.pc).toJob s.jobRF s.invPkg
    u = { s with stale := [], mem := u.mem }

/-- R634, R635, R639, R640, R652: in Job mode, #09 sets IR bit 62 and saves the address of the next instruction; an
instruction of the Monitor, or one whose bit of the Illegal Instruction Mask is set, sets IR bit 59 and saves its own;
the mask has no effect in Monitor mode. The saved addresses are decisions D29 and D58. -/
def Obligations.JobModeTraps : Prop :=
  ∀ (s : State) (r sd t g x a b c : Byte),
    (s.mode = .job →
      (s.forbidden 5 = false → exec (.exit 0 0 0) s = .next ((s.post 62).toMonitor s.behind32)) ∧
      (∀ i ∈ [Instr.idle, .mtime r, .stoar, .lodar, .rdint t, .lodkey r sd t],
        exec i s = .next ((s.post 59).toMonitor s.pc)) ∧
      (∀ p ∈ [(Instr.setmod r, 3), (.setint r, 4), (.exit r sd t, 5), (.swcqta sd t, 10), (.strtio sd t, 11),
          (.stopio sd t, 12), (.testio t, 13), (.rddom r t, 15), (.post g x b c, 26), (.wait g x a b c, 27),
          (.bbswap g x a b c, 28), (.bbldst g x a b c, 29), (.cbld g x c, 30), (.cbsto g x c, 31)],
        bitAt s.dom.iim p.2 = true → exec p.1 s = .next ((s.post 59).toMonitor s.pc))) ∧
    (s.mode = .monitor → ∀ f : Nat, s.isTypeTwo f = false)

/-- R630: after every step the CPU is in Monitor mode or its Interrupt Register is zero: in Job mode a non-zero
Interrupt Register causes the exchange before the next instruction, with the address of that instruction saved (R640), in
Monitor mode the bits stay pending. A stopped CPU is in Monitor mode. When an interrupt is seen is decision D54. -/
def Obligations.NoInterruptLeftInJob : Prop :=
  (∀ s : State, (s.mode = .job → s.ir ≠ 0 → s.interrupts = s.toMonitor s.pc) ∧
    (s.mode = .monitor ∨ s.ir = 0 → s.interrupts = s)) ∧
  ∀ s t : State, (s.stopped = true → s.mode = .monitor) → step s = .next t →
    (t.stopped = true → t.mode = .monitor) ∧ (t.mode = .job → t.ir = 0)

/-- R645: the automatic data flag branch: taken between two instructions exactly if bits 51 and 52 are set; the address
of the next instruction goes to register #01, bit 52 is cleared and the program goes on at the address in register #02.
It is taken before the interrupts are looked at (R643); what these do then is R630: in Job mode the exchange, in
Monitor mode nothing. That it is taken at the earliest point is decision D57 (log entry 21). -/
def Obligations.DataFlagBranch : Prop :=
  (∀ s : State, s.stopped = false → s.env = [] →
    let t := s.countCycles.dataFlagBranch
    s.after = if t.mode = .job ∧ t.ir ≠ 0 then t.toMonitor t.pc else t) ∧
  ∀ s : State,
    (bitAt s.dfr 51 = true ∧ bitAt s.dfr 52 = true →
      let t := s.dataFlagBranch
      t.reg 1 = joinLen 0 s.pc ∧ bitAt t.dfr 52 = false ∧ t.pc = halfAligned (s.addr 2) ∧ s.FlagsOnly t [52] ∧
      (∀ n : Byte, n ≠ 1 → t.reg n = s.reg n) ∧ t = { s with regs := t.regs, dfr := t.dfr, pc := t.pc }) ∧
    (¬ (bitAt s.dfr 51 = true ∧ bitAt s.dfr 52 = true) → s.dataFlagBranch = s)

/-- R660, R33, R34: the Monitor Interval Timer sets IR bit 60 on reaching zero and stays there; the Job Interval Timer, in
Job mode (decision D10), sets data flag 36. -/
def Obligations.IntervalTimers : Prop :=
  ∀ (s : State) (n : Nat),
    (s.mit = 0 → s.tickMit n = s) ∧
    (s.mit ≠ 0 → s.mit.toNat ≤ n → s.tickMit n = { s with mit := 0, ir := setBitAt s.ir 60 true }) ∧
    (n < s.mit.toNat → (s.tickMit n).mit.toNat = s.mit.toNat - n ∧ (s.tickMit n).ir = s.ir) ∧
    (s.mode = .monitor ∨ s.jit = 0 → s.tickJit n = s) ∧
    (s.mode = .job → s.jit ≠ 0 → s.jit.toNat ≤ n → (s.tickJit n).jit = 0 ∧ bitAt (s.tickJit n).dfr 36 = true) ∧
    (s.mode = .job → n < s.jit.toNat → (s.tickJit n).jit.toNat = s.jit.toNat - n ∧ (s.tickJit n).dfr = s.dfr)

/-- R62, R69, R70, R75, R636: accesses in Job mode. #7E and #7F read and store at the absolute address that the page table
gives, the entry used moves to the top with no more than its size, alteration and reference code changed, the virtual
address is compared with the breakpoint register, and an address without an entry is an access interrupt: IR bit 61, with
the address of the instruction saved (decision D58) and nothing else done (decision D55); so for an instruction fetch, of
the second half word too. A multi-element instruction, #98 here, that an access interrupt ends leaves its registers and
what the instruction with fewer elements would store, with any of its flags (decision D55; log entry 18). That the low
address bits are ignored is decision D13. The search and the places of the code are opaque (log entry 7), the page sizes
are presumed to be in words (log entry 8). -/
def Obligations.JobAccessesTranslate : Prop :=
  (∀ (s : State) (r sd t : Byte) (sb lb : Nat), s.mode = .job → s.arValid = true → Memory.wf s.mem = true →
    smallBits s.keys.small = some sb → largeBits s.keys.large = some lb →
    let va := wordAligned (s.addr r + (s.addr sd <<< 6))
    (match s.search .read va sb lb with
      | none => exec (.lod r sd t) s = .next ((s.post 61).toMonitor s.pc)
      | some (h, bits) =>
        ∃ u, exec (.lod r sd t) s = .next u ∧ u.ar[0] &&& ~~~codeMask = s.entry h.index &&& ~~~codeMask ∧
          u.reg t = Memory.word (s.useEntry h).mem (s.wrap (hitAddress h bits va) / 8) ∧
          (∀ n : Byte, n ≠ t → u.reg n = s.reg n) ∧ u.dfr = (s.breakpoint false va).dfr ∧
          u = { s.useEntry h with regs := u.regs, dfr := u.dfr, pc := s.behind32 }) ∧
    (match s.search .write va sb lb with
      | none => exec (.sto r sd t) s = .next ((s.post 61).toMonitor s.pc)
      | some (h, bits) =>
        let n := s.wrap (hitAddress h bits va) / 8
        ∃ u, exec (.sto r sd t) s = .next u ∧ u.ar[0] &&& ~~~codeMask = s.entry h.index &&& ~~~codeMask ∧
          Memory.word u.mem n = s.reg t ∧
          (∀ b, ¬ (n ≤ b ∧ b < n + 8) → Memory.byte u.mem b = Memory.byte (s.useEntry h).mem b) ∧
          u.dfr = (s.breakpoint true va).dfr ∧
          u = { s.useEntry h with dfr := u.dfr, mem := u.mem, stale := u.stale, pc := s.behind32 })) ∧
  (∀ (s : State) (sb lb : Nat), s.mode = .job → s.stopped = false → s.arValid = true →
    smallBits s.keys.small = some sb → largeBits s.keys.large = some lb →
    match s.search .fetch s.pc sb lb with
    | none => step s = .next ((s.post 61).toMonitor s.pc).after
    | some (h, bits) =>
      (h.index < 16 → s.stale = [] →
        fetchHalf s.pc s = .ok (Memory.half s.mem (4 * (s.wrap (hitAddress h bits s.pc) / 32)), s.useEntry h)) ∧
      ∀ v t, fetchHalf s.pc s = .ok (v, t) → 0x80 ≤ (v.extractLsb' 24 8).toNat →
        t.search .fetch (s.pc + 32) sb lb = none →
        step s = .next ((State.post { s with free := t.free } 61).toMonitor s.pc).after) ∧
  ∀ (s : State) (g x a z c : Byte) (sb lb : Nat), s.mode = .job → s.arValid = true →
    smallBits s.keys.small = some sb → largeBits s.keys.large = some lb →
    bitAt g 2 = false → bitAt g 3 = false → a ≠ c → s.sourceOk false x →
    (∃ v, exec (.vtov g x a z c) s = .next v ∧ v.mode = .job ∧ v.pc = s.behind64 ∧ v.regs = s.regs) ∨
    ∃ (k : Nat) (v : State) (dfr : Word) (free : Nat), k < s.len c ∧
      exec (.vtov g x a z c) (s.setReg c (BitVec.ofNat 16 k ++ s.addr c)) = .next v ∧ v.mode = .job ∧
      (∀ b, b < 64 → b ∉ derivedBits → bitAt dfr b = bitAt s.dfr b ∨ bitAt dfr b = bitAt v.dfr b) ∧
      exec (.vtov g x a z c) s =
        .next ((State.post { v with regs := s.regs, dfr := dfr, free := free, pc := s.pc } 61).toMonitor s.pc)

/-! ### Registers and flags (spec/10_state.md) -/

/-- R22: the derived bits of the Data Flag Register are what R22 says, and no other bit changes; a flag that is set
reads as one. That writes do not change derived bits is decision D6. -/
def Obligations.DerivedFlags : Prop :=
  ∀ x : Word,
    let d := deriveDfr x
    bitAt d 40 = (bitAt d 37 || bitAt d 38 || bitAt d 39) ∧ bitAt d 44 = (bitAt d 41 || bitAt d 42 || bitAt d 43) ∧
    (∀ i, 3 ≤ i → i ≤ 15 → bitAt d i = (bitAt d (i + 16) && bitAt d (i + 32))) ∧
    (bitAt d 51 = true ↔ ∃ i, 3 ≤ i ∧ i ≤ 15 ∧ bitAt d i = true) ∧
    (∀ k, k < 64 → k ∉ derivedBits → bitAt d k = bitAt x k) ∧
    (∀ (s : State) (i : Nat), i < 64 → i ∉ derivedBits → bitAt (s.setFlag i true).dfr i = true)

/-- R12 (decision D1): 32-bit register `d` is the half word at bit address `32 d` of the register file: a write to it
leaves every other 32-bit register and the upper 128 registers as they were. -/
def Obligations.HalfRegisters : Prop :=
  ∀ (s : State) (d e : Byte) (v : Half),
    s.reg32 d = field (s.reg (BitVec.ofNat 8 (d.toNat / 2))) (32 * (d.toNat % 2)) 32 ∧
    (s.setReg32 d v).reg32 d = v ∧ (e ≠ d → (s.setReg32 d v).reg32 e = s.reg32 e) ∧
    (∀ n : Byte, 128 ≤ n.toNat → (s.setReg32 d v).reg n = s.reg n)

/-! ### Monitor and system control (spec/41_monitor_system.md, spec/42_bit_byte_sm.md) -/

/-- R200, R201, R202, R203, R204, R205: Idle, No Operation, Breakpoint on Address, Void Stack and Branch, Fault Test,
Select Execution Mode. An idle CPU fetches nothing until its Interrupt Register is not zero (R665): a step lets time
pass (log entry 41). The form of the address in register #00 is decision D28. -/
def Obligations.ControlResults : Prop :=
  ∀ (s : State) (r t : Byte),
    (s.mode = .monitor → s.ir = 0 → exec .idle s = .next { s with waits := .interrupt }) ∧
    (s.mode = .monitor → s.ir ≠ 0 →
      exec .idle s = .next { s.setReg 0 (joinLen 0 s.pc) with pc := halfAligned (s.addr 3) }) ∧
    (s.waits = .interrupt → s.env = [] → step s = .next s.countCycles.wake) ∧
    (s.waits = .interrupt → s.ir = 0 → s.wake = s) ∧
    (s.waits = .interrupt → s.ir ≠ 0 → (bitAt s.dfr 51 && bitAt s.dfr 52) = false →
      s.wake = { s.setReg 0 (joinLen 0 s.pc) with pc := halfAligned (s.addr 3), waits := .running }) ∧
    exec .nop s = .next { s with pc := s.behind32 } ∧
    (s.reg r &&& breakpointReserved = 0 → exec (.bkpt r) s = .next { s with bkpt := s.reg r, pc := s.behind32 }) ∧
    exec (.vsb t) s = .next { s with stale := [], pc := halfAligned (s.addr t) } ∧
    exec (.fault r) s = .next { s with faultTest := r, pc := s.behind32 } ∧
    (s.forbidden 3 = false → s.forceExec = .none → bitAt r 7 = true →
      exec (.setmod r) s = .next { s with serial := true, stale := [], pc := s.behind32 }) ∧
    (s.forbidden 3 = false → s.forceExec = .none → bitAt r 7 = false →
      exec (.setmod r) s = .next { s with serial := false, pc := s.behind32 }) ∧
    (s.forbidden 3 = false → s.forceExec ≠ .none → exec (.setmod r) s = .next { s with pc := s.behind32 })

/-- R208, R211, R270, R284, R286, R287: the timers, the cycle counter, the Real-Time Clock and the Interrupt Register. -/
def Obligations.TimerResults : Prop :=
  ∀ (s : State) (r t : Byte),
    (s.mode = .monitor → exec (.mtime r) s = .next { s with mit := rightHalf (s.reg r), pc := s.behind32 }) ∧
    (s.mode = .monitor → exec (.rdint t) s = .next { s.setReg t s.ir with ir := 0, pc := s.behind32 }) ∧
    (s.mode = .job → RegisterResult (.rjtime t) s s.behind32 t (0#32 ++ s.jit)) ∧
    (s.mode = .job → exec (.wjtime r) s = .next { s with jit := rightHalf (s.reg r), pc := s.behind32 }) ∧
    (s.mode = .monitor → exec (.wjtime r) s = .next { s with pc := s.behind32 }) ∧
    RegisterResult (.clock t) s s.behind32 t (0#16 ++ s.rtc) ∧
    RegisterResult (.tfc t) s s.behind32 t (0#16 ++ s.ic[7])

/-- R206, R238, R239, R240, R241: Transmit External Interrupt and the shared-memory transfer registers. A control word
that selects this CPU arrives at it after a free delay, counted in instructions, and then sets the bit of its sender
(R632; delivery is log entry 14). With S = T #1A leaves a free value in that register (log entry 23). -/
def Obligations.TransferResults : Prop :=
  ∀ (s : State) (r sd t : Byte),
    (s.forbidden 4 = false → s.reg r &&& ~~~s.destinations = 0 →
      exec (.setint r) s = .next { s with sent := s.reg r :: s.sent, pc := s.behind32 }) ∧
    (∀ (w : Word) (sent : List Word), s.sent = w :: sent → s.taken = sent.length →
      s.takeUp = if bitAt w s.params.cpuId.toNat then
          { s with taken := sent.length + 1, free := s.free + 1, arrivals := s.arrivals ++ [Config.delay s.free] }
        else { s with taken := sent.length + 1 }) ∧
    (0 ∈ s.arrivals → bitAt s.arrive.ir s.params.cpuId.toNat = true) ∧
    (∀ d, d + 1 ∈ s.arrivals → d ∈ s.arrive.arrivals) ∧
    (s.forbidden 10 = false → exec (.swcqta sd t) s = .next { s.setReg t (0#32 ++ s.xfer.cqta) with
      xfer := { s.xfer with cqta := rightHalf (s.reg sd) }, pc := s.behind32 }) ∧
    (s.forbidden 11 = false → exec (.strtio sd t) s = .next { s with
      xfer := { s.xfer with iqha := rightHalf (s.reg sd), iqta := rightHalf (s.reg t), iqvf := true },
      pc := s.behind32 }) ∧
    (s.forbidden 12 = false → ∃ u, exec (.stopio sd t) s = .next u ∧ u.xfer = { s.xfer with iqvf := false } ∧
      (sd ≠ t → u.reg sd = 0#32 ++ s.xfer.iqha ∧ u.reg t = BitVec.ofBool s.xfer.iqvf ++ 0#31 ++ s.xfer.iqta) ∧
      (∀ n : Byte, n ≠ sd → n ≠ t → u.reg n = s.reg n) ∧
      u = { s with regs := u.regs, xfer := u.xfer, free := u.free, pc := s.behind32 }) ∧
    (s.forbidden 13 = false → ∃ u, exec (.testio t) s = .next u ∧
      u.reg t = BitVec.ofBool s.xfer.iqvf ++ BitVec.ofBool s.xfer.busy ++ s.xfer.fatal ++ 0#22 ++ s.xfer.trbsa ∧
      u.xfer = (if s.xfer.busy = false ∧ bitAt s.xfer.fatal 0 = true then { s.xfer with iqvf := false, fatal := 0 }
        else s.xfer) ∧
      (∀ n : Byte, n ≠ t → u.reg n = s.reg n) ∧ u = { s with regs := u.regs, xfer := u.xfer, pc := s.behind32 })

/-- R70, R209, R210, R212: #0C stores the associative registers from absolute address #4000 on and leaves them
undefined, #0D loads them from there; #0F loads the keys and leaves the translation, or zero, in register T, the
matching word at the top of the page table. The reads of #0D are compared with the breakpoint register, as R70 says of
every read; that the stores of #0C are not is R209's inference (log entry 20). The free values after #0C are log entry
35, the refused page selects log entry 36, the search log entry 7, the page sizes log entry 8. -/
def Obligations.AssociativeResults : Prop :=
  ∀ (s : State) (r sd t : Byte), s.mode = .monitor →
    (let hit := bitAt s.bkpt 62 = true ∧ ∃ n, n < 16 ∧ ∀ k, 16 ≤ k → k < 59 →
       bitAt s.bkpt k = bitAt (BitVec.ofNat 48 (0x4000 + 64 * n)) (k - 16)
     let loaded : State := { s with
       ar := Vector.ofFn fun k => s.absWord (0x4000 + 64 * k.val), arValid := true, pc := s.behind32 }
     (hit → exec .lodar s = .next { loaded with dfr := deriveDfr (setBitAt s.dfr 47 true) }) ∧
     (¬ hit → exec .lodar s = .next loaded)) ∧
    (s.arValid = true → Memory.wf s.mem = true → s.params.ok = true → ∃ u, exec .stoar s = .next u ∧
      u.arValid = false ∧ (∀ k : Fin 16, u.absWord (0x4000 + 64 * k.val) = s.ar[k]) ∧
      (∀ b, ¬ (0x4000 ≤ 8 * b ∧ 8 * b < 0x4400) → Memory.byte u.mem b = Memory.byte s.mem b) ∧
      u = { s with ar := u.ar, arValid := false, mem := u.mem, stale := u.stale, free := u.free, pc := s.behind32 }) ∧
    (s.arValid = true → s.reg r &&& keysReserved = 0 → (keysOfWord (s.reg r)).small = 1 →
      exec (.lodkey r sd t) s = .refused .reservedBitsNonZero) ∧
    (s.arValid = true → s.reg r &&& keysReserved = 0 → (keysOfWord (s.reg r)).small ≠ 1 →
      let v : State := { s with keys := keysOfWord (s.reg r) }
      ∃ u sb lb, exec (.lodkey r sd t) s = .next u ∧ smallBits v.keys.small = some sb ∧ largeBits v.keys.large = some lb ∧
        (∀ n : Byte, n ≠ t → u.reg n = s.reg n) ∧
        match v.search .translate (s.addr sd) sb lb with
        | none => u.reg t = joinLen (lenPart (s.reg sd)) 0 ∧ u = { v with regs := u.regs, pc := s.behind32 }
        | some (h, bits) =>
          u.reg t = joinLen (lenPart (s.reg sd)) (BitVec.ofNat 48 (hitAddress h bits (s.addr sd))) ∧
          u.ar[0] = v.entry h.index ∧
          u = { (v.pushDown h.index (v.entry h.index)) with regs := u.regs, pc := s.behind32 })

/-! ### Register results (spec/43_branch_register.md to spec/45_scalar_fp64.md) -/

/-- R273, R274, R275: the logical operations on two registers; designator #00 provides machine zero. -/
def Obligations.LogicalResults : Prop :=
  ∀ (s : State) (r sd t : Byte),
    let x : Word := if r = 0 then 0x8000000000000000 else s.reg r
    let y : Word := if sd = 0 then 0x8000000000000000 else s.reg sd
    RegisterResult (.rxor r sd t) s s.behind32 t (x ^^^ y) ∧
    RegisterResult (.rand r sd t) s s.behind32 t (x &&& y) ∧
    RegisterResult (.rior r sd t) s s.behind32 t (x ||| y)

/-- R271, R285, R291, R364, R368, R384, R386, R387, R388, R514: lengths, addresses, immediates, exponents and packing, bit
field by bit field. -/
def Obligations.TransmitResults : Prop :=
  ∀ (s : State) (r sd t : Byte) (im : BitVec 16) (jm : BitVec 48),
    RegisterResult (.elen r im) s s.behind32 r (im ++ addrPart (s.reg r)) ∧
    RegisterResult (.ltol r t) s s.behind32 t (lenPart (s.reg r) ++ addrPart (s.reg t)) ∧
    RegisterResult (.es r im) s s.behind32 r (0#16 ++ im.signExtend 48) ∧
    RegisterResult (.addx r sd t) s s.behind32 t (lenPart (s.reg r) ++ (addrPart (s.reg r) + addrPart (s.reg sd))) ∧
    RegisterResult (.subx r sd t) s s.behind32 t (lenPart (s.reg r) ++ (addrPart (s.reg r) - addrPart (s.reg sd))) ∧
    RegisterResult (.rtor r t) s s.behind32 t (s.reg r) ∧
    RegisterResult (.exp r t) s s.behind32 t (0#16 ++ (lenPart (s.reg r)).signExtend 48) ∧
    RegisterResult (.pack r sd t) s s.behind32 t ((s.reg r).extractLsb' 0 16 ++ addrPart (s.reg sd)) ∧
    RegisterResult (.ltor r t) s s.behind32 t (0#48 ++ lenPart (s.reg r)) ∧
    RegisterResult (.ex r jm) s s.behind64 r (0#16 ++ jm)

/-- R272, R292, R515, R321, R322, R332, R334, R335, R564, R565: lengths and addresses increased by a register or an
immediate, and the same operations in 32-bit registers, where an exponent has 8 bits and a coefficient 24. That a carry
out of a length is dropped is the spec's inference (R272); the 32-bit registers are decision D1. -/
def Obligations.IncreaseResults : Prop :=
  ∀ (s : State) (r sd t : Byte) (im : BitVec 16) (jm : BitVec 48) (km : BitVec 24),
    RegisterResult (.addlen r sd t) s s.behind32 t
      ((lenPart (s.reg r) + (s.reg sd).extractLsb' 0 16) ++ addrPart (s.reg r)) ∧
    RegisterResult (.is r im) s s.behind32 r (lenPart (s.reg r) ++ (addrPart (s.reg r) + im.signExtend 48)) ∧
    RegisterResult (.ix r jm) s s.behind64 r (lenPart (s.reg r) ++ (addrPart (s.reg r) + jm)) ∧
    HalfResult (.esh r im) s s.behind32 r (0#8 ++ im.signExtend 24) ∧
    HalfResult (.ish r im) s s.behind32 r
      ((s.reg32 r).extractLsb' 24 8 ++ ((s.reg32 r).extractLsb' 0 24 + im.signExtend 24)) ∧
    HalfResult (.exh r km) s s.behind64 r (0#8 ++ km) ∧
    HalfResult (.ixh r km) s s.behind64 r ((s.reg32 r).extractLsb' 24 8 ++ ((s.reg32 r).extractLsb' 0 24 + km)) ∧
    HalfResult (.rtorh r t) s s.behind32 t (s.reg32 r) ∧
    HalfResult (.exph r t) s s.behind32 t (0#8 ++ ((s.reg32 r).extractLsb' 24 8).signExtend 24) ∧
    HalfResult (.packh r sd t) s s.behind32 t ((s.reg32 r).extractLsb' 0 8 ++ (s.reg32 sd).extractLsb' 0 24)

/-- R277, R281, R289, R290: shifts by the S designator or by register S, and index products; a count of #40 to #C0 and a
product out of range leave a free value. Free values are log entry 11. -/
def Obligations.ShiftsAndProducts : Prop :=
  ∀ (s : State) (r sd t : Byte),
    let v : Word := if r = 0 then 0x8000000000000000 else s.reg r
    let p := (addrPart (s.reg r)).toInt * (addrPart (s.reg sd)).toInt
    let q := ((s.reg32 r).extractLsb' 0 24).toInt * ((s.reg32 sd).extractLsb' 0 24).toInt
    (∀ m ∈ [(Instr.shifti r sd t, sd), (.shift r sd t, (s.reg sd).extractLsb' 0 8)],
      (m.2.toNat ≤ 0x3F → RegisterResult m.1 s s.behind32 t (v.rotateLeft m.2.toNat)) ∧
      (0xC1 ≤ m.2.toNat → RegisterResult m.1 s s.behind32 t (v.sshiftRight (256 - m.2.toNat))) ∧
      (0x40 ≤ m.2.toNat → m.2.toNat ≤ 0xC0 → ∃ f, RegisterResult m.1 s s.behind32 t f)) ∧
    (-(2 ^ 47 : Int) ≤ p → p < 2 ^ 47 → RegisterResult (.mpyx r sd t) s s.behind32 t (0#16 ++ BitVec.ofInt 48 p)) ∧
    (¬ (-(2 ^ 47 : Int) ≤ p ∧ p < 2 ^ 47) → ∃ f, RegisterResult (.mpyx r sd t) s s.behind32 t f) ∧
    (-(2 ^ 23 : Int) ≤ q → q < 2 ^ 23 → HalfResult (.mpyxh r sd t) s s.behind32 t (0#8 ++ BitVec.ofInt 24 q)) ∧
    (¬ (-(2 ^ 23 : Int) ≤ q ∧ q < 2 ^ 23) → ∃ f, HalfResult (.mpyxh r sd t) s s.behind32 t f)

/-- R373, R374: Insert Bits and Extract Bits, bit by bit; a field that does not lie within a word leaves a free value. -/
def Obligations.BitFieldResults : Prop :=
  ∀ (s : State) (r sd t : Byte),
    let src : Word := if r = 0 then 0x8000000000000000 else s.reg r
    let m := (field (s.reg sd) 10 6).toNat
    let p := (field (s.reg sd) 58 6).toNat
    s.reg sd &&& bitFieldReserved = 0 →
      (m ≠ 0 → m + p ≤ 64 →
        (Completes (.insb r sd t) s s.behind32 (· = t) [] nothing fun u => ∀ k, k < 64 →
          bitAt (u.reg t) k = if p ≤ k ∧ k < p + m then bitAt src (64 - m + (k - p)) else bitAt (s.reg t) k) ∧
        (Completes (.extb r sd t) s s.behind32 (· = t) [] nothing fun u => ∀ k, k < 64 →
          bitAt (u.reg t) k = (decide (64 - m ≤ k) && bitAt src (p + (k - (64 - m)))))) ∧
      (m = 0 ∨ 64 < m + p →
        (∃ f, RegisterResult (.insb r sd t) s s.behind32 t f) ∧ (∃ f, RegisterResult (.extb r sd t) s s.behind32 t f))

/-- R230, R231, R247: #11 gives a valid BCD number with the value of the binary one and the sign code of the mode; #10
gives the value of a BCD number, so it undoes #11; out of range it raises flags 39 and 58 and leaves a free value; a
number that is not valid BCD leaves a free value. That #10 counts as a scalar convert, which sets bit 58, is decision D7
(log entry 33); that an invalid number completes is log entry 22. Which value of the ASCII/EBCDIC bit, and so which sign
code, means EBCDIC is PRESUMED (log entry 9). -/
def Obligations.BcdConversions : Prop :=
  ∀ (s : State) (r t : Byte),
    (Completes (.btod r t) s s.behind32 (· = t) [] nothing fun u =>
      bcdValid (u.reg t) = true ∧ bcdInt (u.reg t) = (s.addr r).toInt ∧
      field (u.reg t) 60 4 = s.signCode (decide ((s.addr r).toInt < 0))) ∧
    (bcdValid (s.reg r) = true → -(2 ^ 47 : Int) ≤ bcdInt (s.reg r) → bcdInt (s.reg r) < 2 ^ 47 →
      RegisterResult (.dtob r t) s s.behind32 t (0#16 ++ BitVec.ofInt 48 (bcdInt (s.reg r)))) ∧
    (bcdValid (s.reg r) = true → ¬ (-(2 ^ 47 : Int) ≤ bcdInt (s.reg r) ∧ bcdInt (s.reg r) < 2 ^ 47) →
      Completes (.dtob r t) s s.behind32 (· = t) [39, 58] nothing fun u =>
        bitAt u.dfr 39 = true ∧ bitAt u.dfr 58 = true) ∧
    (bcdValid (s.reg r) = false → Completes (.dtob r t) s s.behind32 (· = t) [39, 58] nothing fun _ => True)

/-! ### Scalar floating point (spec/44_scalar_fp32.md, spec/45_scalar_fp64.md) -/

/-- R311 to R320, R323, R361 to R372, R375: the two-operand operations: the result of the arithmetic function in
register T, its flags raised, every other flag and register as before. R120, R186: what each sign-control code makes of
an operand. R155, R160, R161, R165, R168, R175: what the arithmetic functions deliver of the operands so made, over
exact integers, the significance counts being those of the operands as read. These rest on decisions of the spec (log
entry 33): D23 (negative form of A with magnitude of B), D24 (the coefficient of an indefinite result), D25 (machine
zero as additive identity), D26 (the split of a product, significance over the whole product), D27 (the truncated
quotient). -/
def Obligations.FpBinaryResults : Prop :=
  (∀ (s : State) (r sd t : Byte),
    (∀ p ∈ [(Instr.addu r sd t, FpOp.add .upper), (.addl r sd t, .add .lower), (.addn r sd t, .add .norm),
        (.subu r sd t, .sub .upper), (.subl r sd t, .sub .lower), (.subn r sd t, .sub .norm),
        (.mpyu r sd t, .mul .upper), (.mpyl r sd t, .mul .lower), (.mpys r sd t, .mul .signif)],
      FpRegisterResult p.1 s .scalar t (fpBinary .w64 p.2 {} (s.reg r) (s.reg sd)) [42, 43, 46]) ∧
    (∀ p ∈ [(Instr.divu r sd t, FpOp.div .upper), (.divs r sd t, .div .signif)],
      FpRegisterResult p.1 s .convert t (fpBinary .w64 p.2 {} (s.reg r) (s.reg sd)) [41, 42, 43, 46, 58]) ∧
    (∀ p ∈ [(Instr.adduh r sd t, FpOp.add .upper), (.addlh r sd t, .add .lower), (.addnh r sd t, .add .norm),
        (.subuh r sd t, .sub .upper), (.sublh r sd t, .sub .lower), (.subnh r sd t, .sub .norm),
        (.mpyuh r sd t, .mul .upper), (.mpylh r sd t, .mul .lower), (.mpysh r sd t, .mul .signif)],
      FpHalfResult p.1 s .scalar t (fpBinary .w32 p.2 {} (s.operand32 r) (s.operand32 sd)) [42, 43, 46]) ∧
    (∀ p ∈ [(Instr.divuh r sd t, FpOp.div .upper), (.divsh r sd t, .div .signif)],
      FpHalfResult p.1 s .convert t (fpBinary .w32 p.2 {} (s.operand32 r) (s.operand32 sd)) [41, 42, 43, 46, 58])) ∧
  (∀ (w : Width) (k : Kind) (x y : Word) (m n : Nat), SigCount (coefOf w x) m → SigCount (coefOf w y) n →
    AddIs w k (unpack w x) (unpack w y) (fpBinary w (.add k) {} x y) ∧
    SubIs w k (unpack w x) (unpack w y) (fpBinary w (.sub k) {} x y) ∧
    MulIs w k (min m n) (unpack w x) (unpack w y) (fpBinary w (.mul k) {} x y) ∧
    DivIs w k (min m n) (unpack w x) (unpack w y) (fpBinary w (.div k) {} x y)) ∧
  ∀ (w : Width) (g : Sign) (k : Kind) (x y : Word) (m n : Nat), SigCount (coefOf w x) m → SigCount (coefOf w y) n →
    let a := signedA w g (unpack w x)
    let b := signedB w g (unpack w y)
    g.onA w (unpack w x) = a ∧ g.onB w (unpack w y) = b ∧ AddIs w k a b (fpBinary w (.add k) g x y) ∧
    SubIs w k a b (fpBinary w (.sub k) g x y) ∧ MulIs w k (min m n) a b (fpBinary w (.mul k) g x y) ∧
    DivIs w k (min m n) a b (fpBinary w (.div k) g x y)

/-- R324 to R327, R329, R333, R336, R337, R376 to R379, R381 to R383, R385: rounding, square root, adjust exponent,
absolute value, contraction and extension, with exactly the flags these rules name. R170, R178, R181, R183, R184, R185:
what the functions deliver, over exact integers. The truncated root and the significance of a result are decisions D27
and D26, that #76 and #77 count as scalar converts, which set bit 58, is decision D7 (log entry 33); that #75 executes
every count is log entry 39. -/
def Obligations.FpUnaryResults : Prop :=
  (∀ (s : State) (r sd t : Byte),
    let x := s.reg r
    let h := s.operand32 r
    FpRegisterResult (.tru r t) s .scalar t (fpRound .w64 .trunc x) [46] ∧
    FpRegisterResult (.flr r t) s .scalar t (fpRound .w64 .floor x) [46] ∧
    FpRegisterResult (.clg r t) s .scalar t (fpRound .w64 .ceil x) [46] ∧
    FpRegisterResult (.sqrt r t) s .convert t (fpSqrt .w64 (sigOf .w64 x) (unpack .w64 x)) [43, 45, 46, 58] ∧
    FpRegisterResult (.adje r sd t) s .scalar t (fpAdje .w64 (unpack .w64 x) (unpack .w64 (s.reg sd))) [42, 46] ∧
    FpRegisterResult (.abs r t) s .scalar t (fpAbs .w64 x) [42, 43, 46] ∧
    FpHalfResult (.con r t) s .convert t (fpContract false x) [42, 43, 46, 58] ∧
    FpHalfResult (.rcon r t) s .convert t (fpContract true x) [42, 43, 46, 58] ∧
    FpHalfResult (.truh r t) s .scalar t (fpRound .w32 .trunc h) [46] ∧
    FpHalfResult (.flrh r t) s .scalar t (fpRound .w32 .floor h) [46] ∧
    FpHalfResult (.clgh r t) s .scalar t (fpRound .w32 .ceil h) [46] ∧
    FpHalfResult (.sqrth r t) s .convert t (fpSqrt .w32 (sigOf .w32 h) (unpack .w32 h)) [43, 45, 46, 58] ∧
    FpHalfResult (.adjeh r sd t) s .scalar t (fpAdje .w32 (unpack .w32 h) (unpack .w32 (s.operand32 sd))) [42, 46] ∧
    FpHalfResult (.absh r t) s .scalar t (fpAbs .w32 h) [42, 43, 46] ∧
    FpRegisterResult (.exth r t) s .scalar t (fpExtend h) [43, 46] ∧
    FpRegisterResult (.extxh r t) s .scalar t (fpIndexExtend h) [43, 46]) ∧
  ∀ (w : Width) (x y : Word),
    (∀ n, SigCount (coefOf w x) n → SqrtIs w n (unpack w x) (fpSqrt w (sigOf w x) (unpack w x))) ∧
    (∀ m, RoundIs w m x (fpRound w m x)) ∧ (∀ round, ContractIs round x (fpContract round x)) ∧
    AdjeIs w (unpack w x) (unpack w y) (fpAdje w (unpack w x) (unpack w y)) ∧ AbsIs w x (fpAbs w x) ∧
    ExtendIs (fun e c => (e - 24, c * 2 ^ 24)) (unpack .w32 x) (fpExtend x) ∧
    ExtendIs (fun e c => (e, c)) (unpack .w32 x) (fpIndexExtend x)

/-- R180, R328, R380: Adjust Significance for every count up to the width of the coefficient, and for every operand that
is indefinite or machine zero; what the function delivers, over exact integers. Larger counts are refused (log entry 39,
Obligations.UndefinedScalarForms). -/
def Obligations.AdjustSignificance : Prop :=
  (∀ (s : State) (r sd t : Byte),
    ((s.addr sd).toInt.natAbs ≤ 47 ∨ unpack .w64 (s.reg r) = .ind ∨ unpack .w64 (s.reg r) = .mz →
      ∃ v, fpAdjs .w64 (s.reg r) (s.addr sd).toInt = some v ∧
        FpRegisterResult (.adjs r sd t) s .scalar t v [42, 43, 46]) ∧
    (((s.reg32 sd).extractLsb' 0 24).toInt.natAbs ≤ 23 ∨ unpack .w32 (s.operand32 r) = .ind ∨
      unpack .w32 (s.operand32 r) = .mz →
      ∃ v, fpAdjs .w32 (s.operand32 r) ((s.reg32 sd).extractLsb' 0 24).toInt = some v ∧
        FpHalfResult (.adjsh r sd t) s .scalar t v [42, 43, 46])) ∧
  ∀ (w : Width) (x : Word) (count : Int), count.natAbs ≤ w.n →
    ∃ v, fpAdjs w x count = some v ∧ AdjsIs w (unpack w x) count v

/-! ### Loads, stores and swaps (spec/20_memory.md, R232, R233, R338, R339, R389 to R391) -/

/-- R232, R338, R390, R65, R70: the loads in Monitor mode: the item at `Addr(R)` plus the item count in register S goes
to register T, the breakpoint compare may set flag 47, and nothing is stored. That the low address bits are ignored is
decision D13. R30, R70: a read matches where usage bit 62 is one and bits 16 to 58 of the breakpoint register are those of
the address, and a match sets data flag 47 and nothing else; which form of the address is compared is log entry 20. -/
def Obligations.MonitorLoads : Prop :=
  (∀ (s : State) (a : Addr),
    let hit := bitAt s.bkpt 62 = true ∧ ∀ k, 16 ≤ k → k < 59 → bitAt s.bkpt k = bitAt a (k - 16)
    (hit → s.breakpoint false a = { s with dfr := deriveDfr (setBitAt s.dfr 47 true) }) ∧
    (¬ hit → s.breakpoint false a = s)) ∧
  ∀ (s : State) (r sd t : Byte), s.mode = .monitor →
    (let a := s.addr r + (s.addr sd <<< 6)
     Completes (.lod r sd t) s s.behind32 (· = t) [47] nothing fun u =>
       u.reg t = Memory.word s.mem (s.wordByte a) ∧ u.dfr = (s.breakpoint false (wordAligned a)).dfr) ∧
    (let a := s.addr r + (s.addr sd <<< 5)
     Completes (.lodh r sd t) s s.behind32 (· = halfOf t) [47] nothing fun u =>
       u.reg32 t = Memory.half s.mem (s.halfByte a) ∧ (∀ n, n ≠ t → u.reg32 n = s.reg32 n) ∧
       u.dfr = (s.breakpoint false (halfAligned a)).dfr) ∧
    (let a := s.addr r + (s.addr sd <<< 3)
     Completes (.lodc r sd t) s s.behind32 (· = t) [47] nothing fun u =>
       u.reg t = 0#56 ++ Memory.byte s.mem (s.oneByte a) ∧ u.dfr = (s.breakpoint false (byteAligned a)).dfr)

/-- R233, R339, R391, R63, R70: the stores in Monitor mode: the bytes of the word, half word or byte at `Addr(R)` plus
the item count in register S become register T's, most significant byte first, and no other byte of memory changes.
That the low address bits are ignored is decision D13. R30, R70: a write matches where usage bit 61 is one and bits 16
to 58 of the breakpoint register are those of the address, and a match sets data flag 47 and nothing else; which form
of the address is compared is log entry 20. -/
def Obligations.MonitorStores : Prop :=
  (∀ (s : State) (a : Addr),
    let hit := bitAt s.bkpt 61 = true ∧ ∀ k, 16 ≤ k → k < 59 → bitAt s.bkpt k = bitAt a (k - 16)
    (hit → s.breakpoint true a = { s with dfr := deriveDfr (setBitAt s.dfr 47 true) }) ∧
    (¬ hit → s.breakpoint true a = s)) ∧
  ∀ (s : State) (r sd t : Byte), s.mode = .monitor → Memory.wf s.mem = true →
    (let a := s.addr r + (s.addr sd <<< 6)
     Completes (.sto r sd t) s s.behind32 nothing [47] (fun b => s.wordByte a ≤ b ∧ b < s.wordByte a + 8) fun u =>
       Memory.word u.mem (s.wordByte a) = s.reg t ∧ u.dfr = (s.breakpoint true (wordAligned a)).dfr) ∧
    (let a := s.addr r + (s.addr sd <<< 5)
     Completes (.stoh r sd t) s s.behind32 nothing [47] (fun b => s.halfByte a ≤ b ∧ b < s.halfByte a + 4) fun u =>
       Memory.half u.mem (s.halfByte a) = s.reg32 t ∧ u.dfr = (s.breakpoint true (halfAligned a)).dfr) ∧
    (let a := s.addr r + (s.addr sd <<< 3)
     Completes (.stoc r sd t) s s.behind32 nothing [47] (fun b => b = s.oneByte a) fun u =>
       Memory.byte u.mem (s.oneByte a) = (s.reg t).extractLsb' 0 8 ∧ u.dfr = (s.breakpoint true (byteAligned a)).dfr)

/-- R389: Swap in Monitor mode: registers are stored into field T, then field R is loaded into them; nothing else
changes. The checks of an empty field are decision D33. -/
def Obligations.RegisterSwap : Prop :=
  ∀ (s : State) (r sd t : Byte),
    let w := s.swapOf r sd t
    s.mode = .monitor → Memory.wf s.mem = true → s.params.ok = true → w.illegal = false →
    w.first + w.nStore ≤ 256 → w.first + w.nLoad ≤ 256 → w.overlaps = false →
    Completes (.rgap r sd t) s s.behind32 (fun n => w.first ≤ n.toNat ∧ n.toNat < w.first + w.nLoad) [47]
      (s.inField .w64 w.aStore w.nStore) fun u =>
        (∀ k, k < w.nStore →
          u.elemOfMemory .w64 (itemAddr .w64 w.aStore k) = s.reg (BitVec.ofNat 8 (w.first + k))) ∧
        (∀ k, k < w.nLoad → u.reg (BitVec.ofNat 8 (w.first + k)) = u.elemOfMemory .w64 (itemAddr .w64 w.aLoad k))

/-! ### Branches (spec/43_branch_register.md) -/

/-- R261 to R268: compare and branch: on the truth value of the floating-point comparison to the address in register T;
only the indefinite flag may be raised. R188: the truth values, over exact integers, also of operands under sign control
(R186, as #CF compares them). -/
def Obligations.CompareBranches : Prop :=
  (∀ (s : State) (r sd t : Byte),
    (let c := fpCompare .w32 (s.operand32 r) (s.operand32 sd)
     ∀ p ∈ [(Instr.bheq r sd t, c.eq), (.bhne r sd t, c.ne), (.bhge r sd t, c.ge), (.bhlt r sd t, c.lt)],
       BranchResult p.1 s (if p.2 then halfAligned (s.addr t) else s.behind32)
         (deriveDfr (s.dfr ||| raisedBits .scalar c.flags)) [46]) ∧
    (let c := fpCompare .w64 (s.reg r) (s.reg sd)
     ∀ p ∈ [(Instr.beq r sd t, c.eq), (.bne r sd t, c.ne), (.bge r sd t, c.ge), (.blt r sd t, c.lt)],
       BranchResult p.1 s (if p.2 then halfAligned (s.addr t) else s.behind32)
         (deriveDfr (s.dfr ||| raisedBits .scalar c.flags)) [46])) ∧
  (∀ (w : Width) (x y : Word), CompareIs w (unpack w x) (unpack w y) (fpCompare w x y)) ∧
  ∀ (w : Width) (g : Sign) (x y : Word),
    CompareIs w (signedA w g (unpack w x)) (signedB w g (unpack w y))
      (fpCmp w (g.onA w (unpack w x)) (g.onB w (unpack w y)))

/-- R278, R282, R283, R507: count and branch, branch to a subroutine, branch to an immediate address. With R = S or R =
T a taken #31 or #35 goes on at a free address (log entry 24). That #36 with R = T branches relatively also with bit 0 of
register T set, a form that 93 section 2 lists as an exception, is log entry 29. #36 stores zeros in bits 59 to 63, which
the source leaves undefined (log entry 40). -/
def Obligations.CountAndSubroutineBranches : Prop :=
  ∀ (s : State) (r sd t : Byte) (jm : BitVec 48),
    (∀ p ∈ [(Instr.ibnz r sd t, s.addr r + 1), (.dbnz r sd t, s.addr r - 1)],
      (p.2 = 0 → RegisterResult p.1 s s.behind32 r (lenPart (s.reg r) ++ p.2)) ∧
      (p.2 ≠ 0 → r ≠ sd → r ≠ t →
        RegisterResult p.1 s (halfAligned (s.addr t + (s.addr sd <<< 5))) r (lenPart (s.reg r) ++ p.2)) ∧
      (p.2 ≠ 0 → r = sd ∨ r = t → ∃ next, RegisterResult p.1 s next r (lenPart (s.reg r) ++ p.2))) ∧
    (bitAt (s.reg t) 0 = false ∨ r = t → ¬ (r = sd ∧ r ≠ 0) →
      let index := if sd = 0 then 0 else s.addr sd
      let base := if r = t then s.pc + 32 else s.addr t
      RegisterResult (.bsave r sd t) s (if index = 0 then s.behind32 else halfAligned (base + (index <<< 5))) r
        (0#16 ++ (s.pc + 32))) ∧
    BranchResult (.bim r jm) s (halfAligned (jm + ((if r = 0 then 0 else s.addr r) <<< 5))) s.dfr []

/-- R276, R279, R280, R288, R293, R20, R22: the bit branches: the object bit decides the branch, then it is altered;
nothing else changes; that with S = T the address of #2F is taken from the altered register is log entry 29. #3B:
register T gets the Data Flag Register as it stands, with its derived bits, and every bit that is stored and not
undefined becomes register R's; that #33 and #3B change derived bits only through the stored ones is decision D6. With
an undefined bit of the DFR #33 takes a free object bit and #3B stores a free one (log entry 30). -/
def Obligations.BitBranches : Prop :=
  ∀ (s : State) (g sd t : Byte) (im : BitVec 6) (a : Addr),
    (let ob := bitAt (s.reg t) 63
     let v := setBitAt (s.reg t) 63 ((altered g ob).getD ob)
     let dest := addrPart (if sd = t then v else s.reg sd)
     afterBranch g ob s.pc dest dest = some a →
       Completes (.barb g sd t) s (halfAligned a) (· = t) [] nothing fun u => u.reg t = v) ∧
    (let ob := bitAt s.dfr im.toNat
     bitAt undefinedMask im.toNat = false → afterBranch g ob s.pc (s.addr t) (t.setWidth 48) = some a →
       Completes (.badf g im t) s (halfAligned a) nothing [im.toNat] nothing fun u =>
         u.dfr = match altered g ob with
           | some b => deriveDfr (setBitAt s.dfr im.toNat b)
           | none => s.dfr) ∧
    (bitAt undefinedMask im.toNat = true → branchTarget g s.pc (s.addr t) (t.setWidth 48) = some a →
      ∃ next, Completes (.badf g im t) s next nothing [im.toNat] nothing fun _ => True) ∧
    (let ob := s.bitOfMemory (s.addr sd)
     s.mode = .monitor → Memory.wf s.mem = true → afterBranch g ob s.pc (s.addr t) (t.setWidth 48) = some a →
       Completes (.bab g sd t) s (halfAligned a) nothing [47]
         (fun b => altered g ob ≠ none ∧ b = s.bitByte (s.addr sd)) fun u =>
           u.bitOfMemory (s.addr sd) = (altered g ob).getD ob ∧
           ∀ b, b < 8 → b ≠ s.wrap (s.addr sd).toNat % 8 →
             bitAt (Memory.byte u.mem (s.bitByte (s.addr sd))) b = bitAt (Memory.byte s.mem (s.bitByte (s.addr sd))) b) ∧
    (Completes (.lsdfr sd t) s s.behind32 (· = t) (List.range 64) nothing fun u =>
      u.reg t = s.dfr ∧ ∀ k, k < 64 → k ∉ derivedBits → bitAt undefinedMask k = false →
        bitAt u.dfr k = bitAt (s.reg sd) k) ∧
    (s.reg sd &&& undefinedMask = 0 → Completes (.lsdfr sd t) s s.behind32 (· = t) (List.range 64) nothing fun u =>
      u.reg t = s.dfr ∧ u.dfr = deriveDfr (s.reg sd))

/-! ### Bytes and bits in memory (spec/42_bit_byte_sm.md, R269) -/

/-- R244, R245, R269, R24: in Monitor mode #28 counts the bytes before the first that equals its R designator, #1E the
bits after the left-most one that equal it, #1F the ones; nothing is stored; of the free flags, 53 says whether none was
equal and what the left-most bit was. A field of no items makes them no-operations. The no-operations are decision D31,
the extent of #28 decision D32. -/
def Obligations.ScanResults : Prop :=
  ∀ (s : State) (r sd t : Byte), s.mode = .monitor →
    let a := s.addr r + s.addr sd
    (s.len t ≠ 0 → Completes (.scnleq r sd t) s s.behind32 (· = sd) [47, 53, 54, 55] nothing fun u =>
      let item (k : Nat) : Byte := Memory.byte s.mem (s.oneByte (s.addr t + ((s.addr sd + BitVec.ofNat 48 k) <<< 3)))
      ∃ c, c ≤ s.len t ∧ (∀ k, k < c → item k ≠ r) ∧ (c < s.len t → item c = r) ∧
        u.reg sd = lenPart (s.reg sd) ++ (s.addr sd + BitVec.ofNat 48 c) ∧ bitAt u.dfr 53 = decide (c = s.len t)) ∧
    (s.len r ≠ 0 → Completes (.enteq r sd t) s s.behind32 (· = t) [47, 53, 54, 55] nothing fun u =>
      let bit (k : Nat) : Bool := s.bitOfMemory (a + BitVec.ofNat 48 k)
      ∃ c, c < s.len r ∧ (∀ k, k < c → bit (k + 1) = s.bitOfMemory a) ∧
        (c + 1 < s.len r → bit (c + 1) ≠ s.bitOfMemory a) ∧ u.reg t = BitVec.ofNat 64 c ∧
        bitAt u.dfr 53 = s.bitOfMemory a) ∧
    (s.len r ≠ 0 → Completes (.ento r sd t) s s.behind32 (· = t) [47] nothing fun u =>
      u.reg t = BitVec.ofNat 64 ((List.range (s.len r)).countP fun k => s.bitOfMemory (a + BitVec.ofNat 48 k))) ∧
    (s.len t = 0 → exec (.scnleq r sd t) s = .next { s with pc := s.behind32 }) ∧
    (s.len r = 0 → exec (.enteq r sd t) s = .next { s with pc := s.behind32 } ∧
      exec (.ento r sd t) s = .next { s with pc := s.behind32 })

/-- R234, R235, R236, R242, R243: the instructions on bit fields in Monitor mode store only into field T, bit by bit what
their rules say where the source fields lie apart from it; #1C and #1D fill it with the repeated mask, and with a mask of
no bits are no operations. -/
def Obligations.BitFieldStores : Prop :=
  ∀ (s : State) (r sd t : Byte), s.mode = .monitor → Memory.wf s.mem = true →
    let m := s.len r
    let n := s.len sd
    let dst (k : Nat) : Addr := s.addr t + BitVec.ofNat 48 k
    let one (k : Nat) : Option Addr := some (s.addr r + BitVec.ofNat 48 k)
    let two (k : Nat) : Option Addr := if s.addr sd = 0 then none else some (s.addr sd + BitVec.ofNat 48 k)
    (∀ p ∈ [(Instr.cpsb r sd t, decide (m = 0), fun k => one (k / m * (m + n) + k % m)),
        (.mrgb r sd t, decide (m = 0 ∨ n = 0), fun k =>
          if k % (m + n) < m then one (k / (m + n) * m + k % (m + n)) else two (k / (m + n) * n + (k % (m + n) - m))),
        (.maskb r sd t, decide (m = 0 ∨ n = 0), fun k => if k % (m + n) < m then one k else two k)],
      (p.2.1 = true → exec p.1 s = .next { s with pc := s.behind32 }) ∧
      (p.2.1 = false → Completes p.1 s s.behind32 nothing [47] (s.inBits (s.addr t) (s.len t)) fun u =>
        s.params.ok = true → s.len t ≤ 2 ^ s.params.cpmLog →
        (∀ k, k < s.len t → ∀ x, p.2.2 k = some x → ∀ j, j < s.len t → s.bitByte x ≠ s.bitByte (dst j)) →
        ∀ k, k < s.len t → u.bitOfMemory (dst k) = match p.2.2 k with
          | some x => s.bitOfMemory x
          | none => false)) ∧
    (s.len sd = 0 → ∀ i ∈ [Instr.maskz r sd t, .masko r sd t], exec i s = .next { s with pc := s.behind32 }) ∧
    (s.len r ≤ s.len sd → ∀ p ∈ [(Instr.maskz r sd t, false), (.masko r sd t, true)],
      Completes p.1 s s.behind32 nothing [47] (s.inBits (s.addr t) (s.len t)) fun u =>
        s.params.ok = true → s.len t ≤ 2 ^ s.params.cpmLog → s.len sd ≠ 0 → ∀ k, k < s.len t →
          u.bitOfMemory (s.addr t + BitVec.ofNat 48 k) = (if k % s.len sd < s.len r then p.2 else !p.2))

/-! ### Domains and linking (R237, R283, R330, R331, R419, R653, R654) -/

/-- R30, R237, R283, R331, R635, R653, R654: a forward domain change goes one place down the domain stack, stores what
the return needs, the instrumentation counters and the breakpoint register, keeps the registers, clears the breakpoint
register and goes on where the Domain Package says, with its DFR and rights; one that is not allowed is a Type Two
illegal instruction with its own address saved (decision D58); the backward change goes one place up and on at the
address the stacked package holds; #57 reads the domain registers in Job mode, and leaves a free value in Monitor mode
and with another selector (R331; log entry 11). Which package is where, which bit of the mask belongs to a domain, and
that the counters are exchanged so, is log entry 10; the places of the words are log entry 9; the voided instruction
stack is decision D21. -/
def Obligations.DomainChanges : Prop :=
  (∀ (s : State) (r sd t : Byte), s.mode = .job →
    let l := s.params.layout
    (let target := Config.domainNumber (s.reg t)
     let allowed := s.dom.stackIndex.toNat < s.dom.stackLimit.toNat ∧ bitAt s.dom.changeMask target.toNat = true
     let base := Config.domainPackage target s.invPkg
     let old := Config.domainPackage s.dom.cur s.invPkg
     let stack := Config.stackedPackage s.dom.stackIndex s.invPkg
     let stacked := s.saveBreakpoint.storePkg stack [(l.pWord, joinLen 0 (s.pc + 32)), (l.bkptWord, s.bkpt),
       (Layout.dfrWord, s.dfr), (l.domWord, s.dom.word)]
     bitAt (s.reg t) 0 = true → r ≠ t →
       (allowed → ∃ u, exec (.bsave r sd t) s = .next u ∧ u.mode = .job ∧ u.regs = s.regs ∧ u.bkpt = 0 ∧ u.stale = [] ∧
         u.dom.stackIndex = s.dom.stackIndex + 1 ∧ u.dom.prev = s.dom.cur ∧ u.dom.cur = target ∧
         u.dom.stackLimit = s.dom.stackLimit ∧ u.dom.ebcdic = s.dom.ebcdic ∧
         u.pc = halfAligned (addrPart (u.pkgWord base l.pWord)) ∧ u.dfr = deriveDfr (u.pkgWord base Layout.dfrWord) ∧
         u.RightsFrom u base ∧
         u.mem = (stacked.storePkg old s.counterWords).mem ∧
         (Memory.wf s.mem = true → s.params.ok = true →
           (∀ k : Fin 8, u.pkgWord old (l.icWord + k.val) = joinLen 0 s.ic[k]) ∧
           stacked.pkgWord stack l.pWord = joinLen 0 (s.pc + 32) ∧ stacked.pkgWord stack l.bkptWord = s.bkpt ∧
           stacked.pkgWord stack Layout.dfrWord = s.dfr ∧ stacked.pkgWord stack l.domWord = s.dom.word ∧
           s.saveBreakpoint.pkgWord s.invPkg l.bkptWord = s.bkpt) ∧
         (∀ b, (∀ k, k < 8 → ¬ s.inAbsWord (old.toNat + 64 * (l.icWord + k)) b) →
           (∀ n ∈ [l.pWord, l.bkptWord, Layout.dfrWord, l.domWord], ¬ s.inAbsWord (stack.toNat + 64 * n) b) →
           ¬ s.inAbsWord (s.invPkg.toNat + 64 * l.bkptWord) b → Memory.byte u.mem b = Memory.byte s.mem b) ∧
         u = { s with bkpt := 0, dfr := u.dfr, keys := u.keys, dom := u.dom, mem := u.mem, stale := [], pc := u.pc }) ∧
       (¬ allowed → exec (.bsave r sd t) s = .next ((s.post 59).toMonitor s.pc))) ∧
    (s.dom.stackIndex ≠ 0 → ∃ u, exec .exdom s = .next u ∧
      let w := u.pkgWord (Config.stackedPackage (s.dom.stackIndex - 1) s.invPkg)
      let base := Config.domainPackage u.dom.cur s.invPkg
      u.mode = .job ∧ u.regs = s.regs ∧ u.stale = [] ∧ u.dom.stackIndex = s.dom.stackIndex - 1 ∧
      u.dom.prev = field (w l.domWord) 32 7 ∧ u.dom.cur = field (w l.domWord) 48 7 ∧
      u.dom.stackLimit = s.dom.stackLimit ∧ u.dom.ebcdic = s.dom.ebcdic ∧
      u.pc = halfAligned (addrPart (w l.pWord)) ∧ u.dfr = deriveDfr (w Layout.dfrWord) ∧ u.bkpt = w l.bkptWord ∧
      u.RightsFrom u base ∧ (∀ k : Fin 8, u.ic[k] = addrPart (u.pkgWord base (l.icWord + k.val))) ∧
      (Memory.wf s.mem = true → s.params.ok = true → u.pkgWord s.invPkg l.bkptWord = s.bkpt) ∧
      (∀ b, ¬ s.inAbsWord (s.invPkg.toNat + 64 * l.bkptWord) b → Memory.byte u.mem b = Memory.byte s.mem b) ∧
      u = { s with bkpt := u.bkpt, dfr := u.dfr, keys := u.keys, ic := u.ic, dom := u.dom, mem := u.mem, stale := [],
                   pc := u.pc }) ∧
    (s.forbidden 15 = false →
      RegisterResult (.rddom 0 t) s s.behind32 t (0#48 ++ s.dom.stackIndex ++ 0#3) ∧
      RegisterResult (.rddom 2 t) s s.behind32 t (0#52 ++ s.dom.prev ++ 0#5) ∧
      RegisterResult (.rddom 3 t) s s.behind32 t (0#52 ++ s.dom.cur ++ 0#5) ∧
      ∃ f, RegisterResult (.rddom 1 t) s s.behind32 t f)) ∧
  ∀ (s : State) (r t : Byte),
    s.mode = .monitor ∨ (s.forbidden 15 = false ∧ r ≠ 0 ∧ r ≠ 2 ∧ r ≠ 3) →
    ∃ f, RegisterResult (.rddom r t) s s.behind32 t f

/-- R330, R419, decision D38: #56 with R = #00 is no operation; with a pair of vector instructions that may be linked
it runs them as one operation: where the fields lie apart each permitted element of the second one's destination, or
each bit of its order vector, becomes the second operation's value with the first one's as the linked input; the first
one's flags are raised at every position, the second one's at the permitted ones (decision D37); nothing else is
stored, and the program goes on behind them; another pair is undefined. The part of the one-source instructions is log
entry 37; that the offset of a source that the first one's output replaces is not looked at is log entry 48; where an
operation leaves a free value nothing is said of it (log entry 11). -/
def Obligations.LinkedPair : Prop :=
  (∀ (s : State) (r : Byte), linkOf r = .none → exec (.linkv r) s = .next { s with pc := s.behind32 }) ∧
  ∀ (s : State) (r : Byte) (i j : Instr), s.mode = .monitor → s.stale = [] → s.link = .none →
    Memory.wf s.mem = true → linkOf r ≠ .none → i.wf = true → j.wf = true →
    s.instructionBytes (s.pc + 32) = encode i → s.instructionBytes (s.pc + 96) = encode j →
    (linkable i = none ∨ linkable j = none → exec (.linkv r) s = .refused .linkInvalid) ∧
    ∀ (l m : Linkable), linkable i = some l → linkable j = some m →
    (linkValid (linkOf r) l m = false → exec (.linkv r) s = .refused .linkInvalid) ∧
    (linkValid (linkOf r) l m = true →
      s.sourceOk (bitAt l.g 3) l.x → (l.two = true → s.sourceOk (bitAt l.g 4) l.y) →
      (linkOf r = .rb → s.sourceOk (bitAt m.g 3) m.x) →
      (linkOf r = .ra → m.two = true → s.sourceOk (bitAt m.g 4) m.y) →
      (m.order = false → s.destOk (bitAt m.g 2) m.c) →
      let w := gWidth m.g
      let d := s.destOf w (bitAt m.g 2) m.c
      let p := s.streamOf w (bitAt l.g 3) l.a l.x
      let p' := s.streamOf w (bitAt l.g 4) l.b l.y
      let q := s.streamOf w (bitAt m.g 3) m.a m.x
      let q' := s.streamOf w (bitAt m.g 4) m.b m.y
      Completes (.linkv r) s (halfAligned (s.pc + 160)) nothing (vectorFlags [42, 43, 46])
        (if m.order then s.inBits (s.addr m.z) (s.len m.z) else s.inField w d.start d.len) fun u =>
        ∀ e f e' f', pairOp i = some (e, f) → pairOp j = some (e', f') →
          let first (k : Nat) : Option FpResult := f (s.streamElem p w e k) (s.streamElem p' w e k)
          let value (k : Nat) : Option FpResult :=
            (first k).bind fun v =>
              f' (if linkOf r = .rb then s.streamElem q w e' k else v.value)
                (if linkOf r = .ra then s.streamElem q' w e' k else v.value)
          let clear (apart : Stream → Prop) : Prop := apart p ∧ (l.two = true → apart p') ∧
            (linkOf r = .rb → apart q) ∧ (linkOf r = .ra → m.two = true → apart q')
          s.params.ok = true →
          (m.order = false → d.len * w.bits ≤ 2 ^ s.params.cpmLog → clear (s.apart · w w d.start d.len) →
            s.controlApart (s.control m.g m.z d.off) w d.start d.len → ∀ k, k < d.len →
              (s.permissive (s.control m.g m.z d.off) k = true → ∀ v, value k = some v →
                u.elemOfMemory w (itemAddr w d.start k) = narrow w v.value) ∧
              (s.permissive (s.control m.g m.z d.off) k = false →
                u.elemOfMemory w (itemAddr w d.start k) = s.elemOfMemory w (itemAddr w d.start k))) ∧
          (m.order = true → s.len m.z ≤ 2 ^ s.params.cpmLog →
            clear (s.apartFromBits · w (s.addr m.z) (s.len m.z)) → ∀ k, k < s.len m.z → ∀ v, value k = some v →
              u.bitOfMemory (s.addr m.z + BitVec.ofNat 48 k) = (v.value == 1)) ∧
          ((if m.order then s.len m.z ≤ 2 ^ s.params.cpmLog ∧ clear (s.apartFromBits · w (s.addr m.z) (s.len m.z))
            else d.len * w.bits ≤ 2 ^ s.params.cpmLog ∧ clear (s.apart · w w d.start d.len) ∧
              s.controlApart (s.control m.g m.z d.off) w d.start d.len) →
            s.FlagsRaised u (if m.order then s.len m.z else d.len) fun k =>
              (first k).map fun v =>
                if m.order || s.permissive (s.control m.g m.z d.off) k then
                  match value k with
                  | some r => v.flags.or r.flags
                  | none => v.flags
                else v.flags))

/-! ### Vectors (spec/46_vector.md) -/

/-- R415, R421 to R434, R439, R440, R446, R448, R567, R569: a two-source vector instruction completes in Monitor mode
with every source and destination its qualifiers select, stores only into its destination field, and raises only the
flags its rule names. An empty destination for C zero is decision D35, no offset for designator zero decision D34. What it
stores, and that it raises these flags exactly where a stored element does, is Obligations.VectorElements. An element of
#94 with a count beyond the coefficient is free (log entry 27), as one of #8A with an undefined shift count is (log entry
11). -/
def Obligations.VectorTwoSource : Prop :=
  ∀ (s : State) (g x a y b z c : Byte), s.mode = .monitor → Memory.wf s.mem = true → s.sourceOk (bitAt g 3) x →
    s.sourceOk (bitAt g 4) y → s.destOk (bitAt g 2) c →
    ∀ p ∈ [(Instr.adduv g x a y b z c, gWidth g, [42, 43, 46]), (.addlv g x a y b z c, gWidth g, [42, 43, 46]),
        (.addnv g x a y b z c, gWidth g, [42, 43, 46]), (.addxv g x a y b z c, .w64, []),
        (.subuv g x a y b z c, gWidth g, [42, 43, 46]), (.sublv g x a y b z c, gWidth g, [42, 43, 46]),
        (.subnv g x a y b z c, gWidth g, [42, 43, 46]), (.subxv g x a y b z c, .w64, []),
        (.mpyuv g x a y b z c, gWidth g, [42, 43, 46]), (.mpylv g x a y b z c, gWidth g, [42, 43, 46]),
        (.mpysv g x a y b z c, gWidth g, [42, 43, 46]), (.shiftv g x a y b z c, .w64, []),
        (.divuv g x a y b z c, gWidth g, [41, 42, 43, 46]), (.divsv g x a y b z c, gWidth g, [41, 42, 43, 46]),
        (.adjsv g x a y b z c, gWidth g, [42, 43, 46]), (.adjev g x a y b z c, gWidth g, [42, 46]),
        (.packv g x a y b z c, gWidth g, []), (.xorv g x a y b z c, gWidth g, []), (.andv g x a y b z c, gWidth g, []),
        (.iorv g x a y b z c, gWidth g, []), (.nandv g x a y b z c, gWidth g, []), (.norv g x a y b z c, gWidth g, []),
        (.ornv g x a y b z c, gWidth g, []), (.andnv g x a y b z c, gWidth g, []), (.xornv g x a y b z c, gWidth g, []),
        (.avg g x a y b z c, gWidth g, [42, 43, 46]), (.avgd g x a y b z c, gWidth g, [42, 43, 46])],
      VectorCompletes p.1 s p.2.1 (bitAt g 2) c p.2.2

/-- R415, R435 to R438, R441 to R445, R447, R509, R568, R570, R576: the same for the vector instructions with one
source or none. Transmit reverse, adjacent mean and delta have no broadcast. Where its fields do not overlap, each
element of the destination that the control vector permits becomes the operation's value of the elements of A (for
transmit reverse, of the one as far from the end; for adjacent mean and delta, of the next one and this one; for
interval, the constant with the step added as often as elements precede), past the end of A of machine zero, and
exactly the flags of the stored elements are raised (R25, R420; for interval those of a step with the next stored
element). R120, R186, R170: #93 with sign control, over exact integers. Decisions D16, D34, D35 and D36 are those of
Obligations.VectorElements. -/
def Obligations.VectorOneSource : Prop :=
  ∀ (s : State) (g x a b z c : Byte), s.mode = .monitor → Memory.wf s.mem = true → s.destOk (bitAt g 2) c →
    (s.sourceOk (bitAt g 3) x →
      ∀ p ∈ [(Instr.truv g x a z c, gWidth g, [46]), (.flrv g x a z c, gWidth g, [46]),
          (.clgv g x a z c, gWidth g, [46]), (.sqrtv g x a z c, gWidth g, [43, 45, 46]),
          (.conv g x a z c, .w32, [42, 43, 46]), (.rconv g x a z c, .w32, [42, 43, 46]),
          (.vtov g x a z c, gWidth g, []), (.absv g x a z c, gWidth g, [42, 43, 46]),
          (.expv g x a z c, gWidth g, []), (.extv g x a z c, .w64, [43, 46])],
        VectorCompletes p.1 s p.2.1 (bitAt g 2) c p.2.2) ∧
    (s.sourceOk false x →
      ∀ p ∈ [(Instr.vrevv g x a z c, ([] : List Nat)), (.adjmean g x a z c, [42, 43, 46]),
          (.delta g x a z c, [42, 43, 46])],
        VectorCompletes p.1 s (gWidth g) (bitAt g 2) c p.2) ∧
    VectorCompletes (.interval g a b z c) s (gWidth g) (bitAt g 2) c [42, 43, 46] ∧
    (s.params.ok = true →
      let w := gWidth g
      let d := s.destOf w (bitAt g 2) c
      (s.sourceOk (bitAt g 3) x →
        ∀ k ∈ [(Instr.truv g x a z c, w, w, fun u => fpRound w .trunc u), (.flrv g x a z c, w, w, fun u => fpRound w .floor u),
            (.clgv g x a z c, w, w, fun u => fpRound w .ceil u),
            (.sqrtv g x a z c, w, w, fun u => fpSqrt w (sigOf w u) (signedA w (gSign g) (unpack w u))),
            (.conv g x a z c, .w64, .w32, fun u => fpContract false u),
            (.rconv g x a z c, .w64, .w32, fun u => fpContract true u),
            (.vtov g x a z c, w, w, fun u => ⟨u, {}⟩), (.absv g x a z c, w, w, fun u => fpAbs w u),
            (.expv g x a z c, w, w, fun u => match w with
              | .w64 => ⟨0#16 ++ BitVec.ofInt 48 (expOf .w64 u), {}⟩
              | .w32 => ⟨0#40 ++ BitVec.ofInt 24 (expOf .w32 u), {}⟩),
            (.extv g x a z c, .w32, .w64, fun u => fpExtend u)],
          let e := s.destOf k.2.2.1 (bitAt g 2) c
          let p := s.streamOf k.2.1 (bitAt g 3) a x
          e.len * k.2.2.1.bits ≤ 2 ^ s.params.cpmLog → s.apart p k.2.1 k.2.2.1 e.start e.len →
          s.controlApart (s.control g z e.off) k.2.2.1 e.start e.len →
          ElementsStored k.1 s k.2.2.1 e (s.control g z e.off) fun i =>
            some (k.2.2.2 (s.streamElem p k.2.1 (machineZero k.2.1) i))) ∧
      (s.sourceOk false x → d.len * w.bits ≤ 2 ^ s.params.cpmLog →
        let p := s.streamOf w false a x
        let len := s.len a - s.offsetOf x
        let elem (i : Nat) : Word := s.streamElem p w (machineZero w) i
        s.apart p w w d.start d.len → s.controlApart (s.control g z d.off) w d.start d.len →
        ∀ k ∈ [(Instr.vrevv g x a z c, fun i => ⟨if i < len then elem (len - 1 - i) else machineZero w, {}⟩),
            (.adjmean g x a z c, fun i => fpHalf w (unpack w (elem (i + 1))) (unpack w (elem i))),
            (.delta g x a z c, fun i => fpBinary w (.sub .norm) {} (elem (i + 1)) (elem i))],
          ElementsStored k.1 s w d (s.control g z d.off) fun i => some (k.2 i)) ∧
      (let ctl := s.control g z d.off
       let next (v : Word) : FpResult := fpBinary w (.add .upper) {} v (s.regW w b)
       let value (i : Nat) : Word := (List.range i).foldl (fun v _ => (next v).value)
         (if a = 0 then machineZero w else s.regW w a)
       d.len * w.bits ≤ 2 ^ s.params.cpmLog → s.controlApart ctl w d.start d.len →
        ∃ u, exec (.interval g a b z c) s = .next u ∧ s.ElementsAre u w d ctl (fun i => some (value i)) ∧
          s.FlagsRaised u d.len fun i =>
            if i ≠ 0 ∧ (List.range d.len).any (fun j => decide (i ≤ j) && s.permissive ctl j) = true then
              some (next (value (i - 1))).flags
            else some {}) ∧
      ∀ (u : Word) (n : Nat), SigCount (coefOf w u) n →
        SqrtIs w n (signedA w (gSign g) (unpack w u)) (fpSqrt w (sigOf w u) (signedA w (gSign g) (unpack w u))))

/-- R25, R411 to R416, R420, R424, R428, R431, R439, R567, R569, R583: what a two-source vector instruction stores:
where its fields do not overlap, each element of the destination that the control vector permits becomes the
operation's value of the sources' elements (a source that is too short extended as R416 says), and each other element
stays as it was; the data flags and their duplicates that a stored element raises are set and no other one. An
undefined shift count and a count of #94 beyond the coefficient leave free elements (log entries 11 and 27). #D0 and
#D4 halve the sum and the difference, over exact integers (decision D46). The order of the elements is decision D16,
sources read at suppressed positions decision D36, no offset for designator zero decision D34, an empty destination for
C zero decision D35. -/
def Obligations.VectorElements : Prop :=
  (∀ (s : State) (g x a y b z c : Byte), s.mode = .monitor → Memory.wf s.mem = true → s.params.ok = true →
    s.sourceOk (bitAt g 3) x → s.sourceOk (bitAt g 4) y → s.destOk (bitAt g 2) c →
    let w := gWidth g
    let d := s.destOf w (bitAt g 2) c
    let p := s.streamOf w (bitAt g 3) a x
    let q := s.streamOf w (bitAt g 4) b y
    let fp (op : FpOp) (u v : Word) : FpResult := fpBinary w op (gSign g) u v
    d.len * w.bits ≤ 2 ^ s.params.cpmLog → s.apart p w w d.start d.len → s.apart q w w d.start d.len →
    s.controlApart (s.control g z d.off) w d.start d.len →
    ∀ k ∈ [(Instr.adduv g x a y b z c, machineZero w, fp (.add .upper)), (.addlv g x a y b z c, machineZero w, fp (.add .lower)),
        (.addnv g x a y b z c, machineZero w, fp (.add .norm)), (.subuv g x a y b z c, machineZero w, fp (.sub .upper)),
        (.sublv g x a y b z c, machineZero w, fp (.sub .lower)), (.subnv g x a y b z c, machineZero w, fp (.sub .norm)),
        (.mpyuv g x a y b z c, normalizedOne w, fp (.mul .upper)), (.mpylv g x a y b z c, normalizedOne w, fp (.mul .lower)),
        (.mpysv g x a y b z c, normalizedOne w, fp (.mul .signif)), (.divuv g x a y b z c, normalizedOne w, fp (.div .upper)),
        (.divsv g x a y b z c, normalizedOne w, fp (.div .signif)),
        (.adjev g x a y b z c, machineZero w, fun u v => fpAdje w (unpack w u) (unpack w v)),
        (.packv g x a y b z c, machineZero w, fun u v => ⟨fpPack w u v, {}⟩),
        (.xorv g x a y b z c, machineZero w, fun u v => ⟨u ^^^ v, {}⟩),
        (.andv g x a y b z c, machineZero w, fun u v => ⟨u &&& v, {}⟩),
        (.iorv g x a y b z c, machineZero w, fun u v => ⟨u ||| v, {}⟩),
        (.nandv g x a y b z c, machineZero w, fun u v => ⟨~~~(u &&& v), {}⟩),
        (.norv g x a y b z c, machineZero w, fun u v => ⟨~~~(u ||| v), {}⟩),
        (.ornv g x a y b z c, machineZero w, fun u v => ⟨u ||| ~~~v, {}⟩),
        (.andnv g x a y b z c, machineZero w, fun u v => ⟨u &&& ~~~v, {}⟩),
        (.xornv g x a y b z c, machineZero w, fun u v => ⟨~~~(u ^^^ v), {}⟩)],
      ElementsStored k.1 s w d (s.control g z d.off) fun i =>
        some (k.2.2 (s.streamElem p w k.2.1 i) (s.streamElem q w k.2.1 i))) ∧
  (∀ (s : State) (g x a y b z c : Byte), s.mode = .monitor → Memory.wf s.mem = true → s.params.ok = true →
    s.sourceOk (bitAt g 3) x → s.sourceOk (bitAt g 4) y → s.destOk (bitAt g 2) c →
    let h := gWidth g
    ∀ k ∈ [(Instr.addxv g x a y b z c, Width.w64, mz64, fun u v => some ⟨lenPart u ++ (addrPart u + addrPart v), {}⟩),
        (.subxv g x a y b z c, .w64, mz64, fun u v => some ⟨lenPart u ++ (addrPart u - addrPart v), {}⟩),
        (.shiftv g x a y b z c, .w64, mz64, fun u v =>
          let n := (v.extractLsb' 0 8).toNat
          if n ≤ 0x3F then some ⟨u.rotateLeft n, {}⟩ else if 0xC1 ≤ n then some ⟨u.sshiftRight (256 - n), {}⟩ else none),
        (.adjsv g x a y b z c, h, machineZero h, fun u v => fpAdjs h u (coefOf h v)),
        (.avg g x a y b z c, h, machineZero h, fun u v => some (fpHalf h (unpack h u) (unpack h v))),
        (.avgd g x a y b z c, h, machineZero h, fun u v => some (fpHalfDiff h (unpack h u) (unpack h v)))],
      let w := k.2.1
      let d := s.destOf w (bitAt g 2) c
      let p := s.streamOf w (bitAt g 3) a x
      let q := s.streamOf w (bitAt g 4) b y
      d.len * w.bits ≤ 2 ^ s.params.cpmLog → s.apart p w w d.start d.len → s.apart q w w d.start d.len →
      s.controlApart (s.control g z d.off) w d.start d.len →
      ElementsStored k.1 s w d (s.control g z d.off) fun i =>
        k.2.2.2 (s.streamElem p w k.2.2.1 i) (s.streamElem q w k.2.2.1 i)) ∧
  ∀ (w : Width) (x y : Word),
    HalfIs w (unpack w x) (unpack w y) (fpHalf w (unpack w x) (unpack w y)) ∧
    HalfDifferenceIs w (unpack w x) (unpack w y) (fpHalfDiff w (unpack w x) (unpack w y))

/-- R470 to R472, R474, R475 to R485: a sparse vector instruction in Monitor mode; register C gets the number of
elements stored. Where the fields lie apart, the order vector's bits are those of the order function, and the element
of each one bit is the operation's value of the next elements of A and B, or of the fill value where their order bit is
zero; exactly the flags of the stored elements are raised (R25, R420). An empty order vector makes it no operation.
Broadcast and sign control are decision D39. -/
def Obligations.SparseVectors : Prop :=
  ∀ (s : State) (g x a y b z c : Byte), s.mode = .monitor → Memory.wf s.mem = true →
    let w := gWidth g
    let nz := s.len z
    let xb (i : Nat) : Bool := decide (i < s.len x) && s.bitOfMemory (s.addr x + BitVec.ofNat 48 i)
    let yb (i : Nat) : Bool := decide (i < s.len y) && s.bitOfMemory (s.addr y + BitVec.ofNat 48 i)
    let operand (broadcast : Bool) (r : Byte) (bit : Nat → Bool) (fill : Word) (i : Nat) : Word :=
      if bit i then
        if broadcast then s.regW w r else s.elemOfMemory w (itemAddr w (s.addr r) (countBelow bit i))
      else fill
    ∀ p ∈ [(Instr.addus g x a y b z c, true, FpOp.add .upper, [42, 43, 46]), (.addls g x a y b z c, true, .add .lower, [42, 43, 46]),
        (.addns g x a y b z c, true, .add .norm, [42, 43, 46]), (.subus g x a y b z c, true, .sub .upper, [42, 43, 46]),
        (.subls g x a y b z c, true, .sub .lower, [42, 43, 46]), (.subns g x a y b z c, true, .sub .norm, [42, 43, 46]),
        (.mpyus g x a y b z c, false, .mul .upper, [42, 43, 46]), (.mpyls g x a y b z c, false, .mul .lower, [42, 43, 46]),
        (.mpyss g x a y b z c, false, .mul .signif, [42, 43, 46]), (.divus g x a y b z c, false, .div .upper, [41, 42, 43, 46]),
        (.divss g x a y b z c, false, .div .signif, [41, 42, 43, 46])],
      let zb (i : Nat) : Bool := orderFunction p.2.1 g (xb i) (yb i)
      let fill := if p.2.1 then machineZero w else normalizedOne w
      let result (i : Nat) : FpResult := fpBinary w p.2.2.1 ⟨bitAt g 5 && xb i, bitAt g 6 && xb i, bitAt g 7 && yb i⟩
        (operand (bitAt g 3) a xb fill i) (operand (bitAt g 4) b yb fill i)
      let stored := countBelow zb nz
      (nz ≠ 0 → ∃ n, n ≤ nz ∧
        Completes p.1 s s.behind64 (· = c) (vectorFlags p.2.2.2)
          (fun k => s.inBits (s.addr z) nz k ∨ s.inField w (s.addr c) n k) fun u =>
            u.reg c = BitVec.ofNat 16 n ++ s.addr c ∧
            (s.params.ok = true → nz ≤ 2 ^ s.params.cpmLog → stored * w.bits ≤ 2 ^ s.params.cpmLog →
              s.stringsApart (s.addr x) (s.len x) (s.addr z) nz → s.stringsApart (s.addr y) (s.len y) (s.addr z) nz →
              s.bitsApart (s.addr x) (s.len x) w (s.addr c) stored →
              s.bitsApart (s.addr y) (s.len y) w (s.addr c) stored → s.bitsApart (s.addr z) nz w (s.addr c) stored →
              (bitAt g 3 = false → s.bitsApart (s.addr z) nz w (s.addr a) (countBelow xb nz) ∧
                s.fieldsApart w (s.addr a) (countBelow xb nz) w (s.addr c) stored) →
              (bitAt g 4 = false → s.bitsApart (s.addr z) nz w (s.addr b) (countBelow yb nz) ∧
                s.fieldsApart w (s.addr b) (countBelow yb nz) w (s.addr c) stored) →
              n = stored ∧ (s.FlagsRaised u nz fun i => if zb i then some (result i).flags else some {}) ∧
              ∀ i, i < nz → u.bitOfMemory (s.addr z + BitVec.ofNat 48 i) = zb i ∧
                (zb i = true → u.elemOfMemory w (itemAddr w (s.addr c) (countBelow zb i)) = narrow w (result i).value))) ∧
      (nz = 0 → exec p.1 s = .next { s with pc := s.behind64 })

/-! ### Compare, scatter, gather, mask (spec/47_sparse_compare_index.md) -/

/-- R490 to R495, R497, R499, R501, R503, R505: the integer compares: register C gets the sum; the branch forms go to
the target that the qualifiers give if the comparison is met; the set-condition forms put the condition code into
register Y. R491, R492: the sum, the numbers compared (signed, unsigned, whole words) and the branch target, over exact
integers. The order of the register writes is decision D40. -/
def Obligations.IntegerCompares : Prop :=
  ∀ (s : State) (g x a y b z c : Byte),
    (∀ p ∈ [(Instr.ibxeqBr g x a y b z c, bitAt g 3, fun (u v : Int) => decide (u = v)),
        (.ibxneBr g x a y b z c, bitAt g 3, fun u v => decide (u ≠ v)), (.ibxgeBr g x a y b z c, false, fun u v => decide (v ≤ u)),
        (.ibxltBr g x a y b z c, false, fun u v => decide (u < v)), (.ibxleBr g x a y b z c, false, fun u v => decide (u ≤ v)),
        (.ibxgtBr g x a y b z c, false, fun u v => decide (v < u))],
      (p.2.1 && bitAt g 0) = false →
      let v := intCompare g x a z p.2.1 s
      (p.2.2 v.left v.right = false → WidthResult p.1 s s.behind64 (gWidth g) c v.value) ∧
      (p.2.2 v.left v.right = true → ∀ k, compareTarget g y b s = some k →
        WidthResult p.1 s (halfAligned k) (gWidth g) c v.value)) ∧
    (∀ p ∈ [(Instr.ibxeqSc g x a y z c, bitAt g 3, fun (u v : Int) => decide (u = v)),
        (.ibxneSc g x a y z c, bitAt g 3, fun u v => decide (u ≠ v)), (.ibxgeSc g x a y z c, false, fun u v => decide (v ≤ u)),
        (.ibxltSc g x a y z c, false, fun u v => decide (u < v)), (.ibxleSc g x a y z c, false, fun u v => decide (u ≤ v)),
        (.ibxgtSc g x a y z c, false, fun u v => decide (v < u))],
      (p.2.1 && bitAt g 0) = false → c ≠ z →
      let v := intCompare g x a z p.2.1 s
      Completes p.1 s s.behind64 (fun n => n = regOfW (gWidth g) c ∨ n = regOfW (gWidth g) y) [] nothing fun u =>
        u.regW (gWidth g) y = (if p.2.2 v.left v.right then 1 else 0) ∧
        (y ≠ c → u.regW (gWidth g) c = v.value) ∧ s.othersAs u (gWidth g) fun n => n = c ∨ n = y) ∧
    (let usi := bitAt g 4
     match gWidth g with
     | .w64 => ∀ fwc : Bool, IntCompareIs usi fwc 48 64 (if a = 0 then 0x8000000000000000 else s.reg a).toNat
         (if x = 0 then 0x8000000000000000 else s.reg x).toNat (if z = 0 then 0 else s.reg z).toNat (intCompare g x a z fwc s)
     | .w32 => IntCompareIs usi false 24 32 (if a = 0 then 0x80000000 else s.reg32 a).toNat
         (if x = 0 then 0x80000000 else s.reg32 x).toNat (if z = 0 then 0 else s.reg32 z).toNat
         (intCompare g x a z false s)) ∧
    (let count : Nat := 32 * (256 * y.toNat + b.toNat)
     compareTarget g y b s = match bitAt g 5, bitAt g 6 with
       | false, false => some (BitVec.ofNat 48 ((s.addr b).toNat + 32 * (s.addr y).toNat))
       | true, false => some (BitVec.ofNat 48 (s.pc.toNat + count))
       | true, true => some (BitVec.ofInt 48 ((s.pc.toNat : Int) - count))
       | false, true => none)

/-- R490, R493, R494, R496, R498, R500, R502, R504, R506: the floating-point compares: the branch forms change only the
program address and flag 46; the set-condition forms put the condition code into register Y. LE and GT are decision D42.
-/
def Obligations.FpCompares : Prop :=
  ∀ (s : State) (g x a y b : Byte),
    let r := fpCompare (gWidth g) (s.regW (gWidth g) a) (s.regW (gWidth g) x)
    let dfr := deriveDfr (s.dfr ||| raisedBits .scalar r.flags)
    (∀ p ∈ [(Instr.cfpeqBr g x a y b, r.eq), (.cfpneBr g x a y b, r.ne), (.cfpgeBr g x a y b, r.ge),
        (.cfpltBr g x a y b, r.lt), (.cfpleBr g x a y b, r.lt || r.eq), (.cfpgtBr g x a y b, r.ge && r.ne)],
      (p.2 = false → BranchResult p.1 s s.behind64 dfr [46]) ∧
      (p.2 = true → ∀ k, compareTarget g y b s = some k → BranchResult p.1 s (halfAligned k) dfr [46])) ∧
    (∀ p ∈ [(Instr.cfpeqSc g x a y, r.eq), (.cfpneSc g x a y, r.ne), (.cfpgeSc g x a y, r.ge),
        (.cfpltSc g x a y, r.lt), (.cfpleSc g x a y, r.lt || r.eq), (.cfpgtSc g x a y, r.ge && r.ne)],
      Completes p.1 s s.behind64 (· = regOfW (gWidth g) y) [46] nothing fun u =>
        u.regW (gWidth g) y = (if p.2 then 1 else 0) ∧ u.dfr = dfr ∧ s.othersAs u (gWidth g) (· = y))

/-- R508, R510: scatter and gather in Monitor mode store only the elements that the item counts of vector A name, or
those of the destination field (with item counts in memory, where the stored elements do not overlap them); where the
sources lie apart, each stored element that no other one overlaps is the element of vector B, of the register file (its
half words: log entry 44) or the constant that the rules name. With a constant register Y is not used (log entry 47). With
no element they are no operations. Which lengths are
used is decision D41. -/
def Obligations.ScatterGather : Prop :=
  ∀ (s : State) (g x a y b c : Byte), s.mode = .monitor → Memory.wf s.mem = true →
    (bitAt g 5 = true → x = 0) → (bitAt g 5 = false → s.sourceOk false x) → (bitAt g 6 && bitAt g 7) = false →
    let w := gWidth g
    let ix := s.indexesOf g x a
    let off := s.offsetOf y
    let value (src : Addr) : Word := if bitAt g 7 then s.registerElem w src.toNat else s.elemOfMemory w src
    (let size := if bitAt g 6 then s.len c else 1
     let src (j e : Nat) : Addr := itemAddr w (s.addr b) (off + (j * size + e))
     let dst (j e : Nat) : Addr := itemAddr w (s.addr c + (s.itemCount ix j <<< w.shift)) e
     (bitAt g 4 && bitAt g 6) = false →
     (ix.count * size = 0 → exec (.vtovx g x a y b c) s = .next { s with pc := s.behind64 }) ∧
     (s.sourceOk (bitAt g 4) y →
      (bitAt g 4 = false → bitAt g 7 = true →
        ∀ j, j < ix.count → (itemAddr w (s.addr b) (off + j)).toNat < 0x4000) →
      (∀ j, j < ix.count → s.indexesApart ix w (s.addr c + (s.itemCount ix j <<< w.shift)) size) →
      Completes (.vtovx g x a y b c) s s.behind64 nothing [47]
        (fun k => ∃ j, j < ix.count ∧ s.inField w (s.addr c + (s.itemCount ix j <<< w.shift)) size k) fun u =>
          s.params.ok = true → ∀ j e, j < ix.count → e < size →
            (∀ j' e', j' < ix.count → e' < size → (j', e') ≠ (j, e) → s.elemsApart w (dst j' e') w (dst j e)) →
            (bitAt g 4 = false → bitAt g 7 = false →
              ∀ j' e', j' < ix.count → e' < size → s.elemsApart w (src j e) w (dst j' e')) →
            u.elemOfMemory w (dst j e) = if bitAt g 4 then s.regW w b else value (src j e))) ∧
    (let size := if bitAt g 6 then s.len b else 1
     let src (j e : Nat) : Addr := itemAddr w (itemAddr w (s.addr b) off + (s.itemCount ix j <<< w.shift)) e
     let dst (k : Nat) : Addr := itemAddr w (s.addr c) k
     (ix.count * size = 0 → exec (.vxtov g x a y b c) s = .next { s with pc := s.behind64 }) ∧
     (s.sourceOk false y → s.indexesApart ix w (s.addr c) (ix.count * size) →
      (bitAt g 7 = true → ∀ j, j < ix.count →
        (itemAddr w (s.addr b) off + (s.itemCount ix j <<< w.shift)).toNat < 0x4000) →
      Completes (.vxtov g x a y b c) s s.behind64 nothing [47]
        (s.inField w (s.addr c) (ix.count * size)) fun u =>
          s.params.ok = true → ix.count * size * w.bits ≤ 2 ^ s.params.cpmLog → ∀ j e, j < ix.count → e < size →
            (bitAt g 7 = false → ∀ k, k < ix.count * size → s.elemsApart w (src j e) w (dst k)) →
            u.elemOfMemory w (dst (j * size + e)) = value (src j e)))

/-- R511, R512, R513, R566: mask, compress, merge and arithmetic compress in Monitor mode store only into field C (and
#CF into order vector Z), and set the length parts the rules name; where the fields lie apart, the stored elements are
those that order vector Z, or the comparison, selects, and the lengths of #BC and #CF are their number; #CF raises
exactly the flags of its comparisons (R25, R195). With Z = C the results of #CF are free, and with no
element it is no operation (log entry 25), also with an offset Y out of range (log entry 48). What is read is decision
D43. -/
def Obligations.MaskCompressMerge : Prop :=
  ∀ (s : State) (g x a y b z c : Byte), s.mode = .monitor → Memory.wf s.mem = true →
    let w := gWidth g
    let nz := s.len z
    let zb (i : Nat) : Bool := s.bitOfMemory (s.addr z + BitVec.ofNat 48 i)
    let elem (r : Byte) (i : Nat) : Word := s.elemOfMemory w (itemAddr w (s.addr r) i)
    let pick (broadcast : Bool) (r : Byte) (i : Nat) : Word := if broadcast then s.regW w r else elem r i
    let clear (r : Byte) : Prop := s.fieldsApart w (s.addr r) nz w (s.addr c) nz
    (nz ≠ 0 →
      (∀ p ∈ [(Instr.maskv g 0 a 0 b z c, fun i => if zb i then pick (bitAt g 3) a i else pick (bitAt g 4) b i),
          (.mrgv g 0 a 0 b z c, fun i => if zb i then pick (bitAt g 3) a (countBelow zb i)
            else pick (bitAt g 4) b (countBelow (!zb ·) i + if bitAt g 7 then countBelow zb i else 0))],
        Completes p.1 s s.behind64 (· = c) [47] (s.inField w (s.addr c) nz) fun u =>
          u.reg c = lenPart (s.reg z) ++ s.addr c ∧
          (s.params.ok = true → nz * w.bits ≤ 2 ^ s.params.cpmLog → s.bitsApart (s.addr z) nz w (s.addr c) nz →
            (bitAt g 3 = false → clear a) → (bitAt g 4 = false → clear b) → ∀ i, i < nz →
              u.elemOfMemory w (itemAddr w (s.addr c) i) = p.2 i)) ∧
      (let selected (i : Nat) : Bool := zb i != bitAt g 1
       ∃ n, n ≤ nz ∧ Completes (.cpsv g 0 a z c) s s.behind64 (· = c) [47]
        (s.inField w (s.addr c) n) fun u => u.reg c = BitVec.ofNat 16 n ++ s.addr c ∧
          (s.params.ok = true → nz * w.bits ≤ 2 ^ s.params.cpmLog → s.bitsApart (s.addr z) nz w (s.addr c) nz →
            clear a → n = countBelow selected nz ∧ ∀ i, i < nz → selected i = true →
              u.elemOfMemory w (itemAddr w (s.addr c) (countBelow selected i)) = elem a i))) ∧
    (nz = 0 → ∀ i ∈ [Instr.maskv g 0 a 0 b z c, .mrgv g 0 a 0 b z c, .cpsv g 0 a z c],
      exec i s = .next { s with pc := s.behind64 }) ∧
    (s.sourceOk false x →
      let n := s.len a - s.offsetOf x
      (n = 0 → exec (.acps g x a y b z c) s = .next { s with pc := s.behind64 }) ∧
      (n ≠ 0 → s.sourceOk (bitAt g 4) y →
        let p := s.streamOf w false a x
        let q := s.streamOf w (bitAt g 4) b y
        let va (i : Nat) : Word := s.streamElem p w (machineZero w) i
        let vb (i : Nat) : Word := s.streamElem q w (machineZero w) i
        let cmp (i : Nat) : Cmp := fpCmp w ((gSign g).onA w (unpack w (va i))) ((gSign g).onB w (unpack w (vb i)))
        let met (i : Nat) : Bool := (cmp i).ge
        let bitsClear := s.apartFromBits p w (s.addr z) n ∧ s.apartFromBits q w (s.addr z) n
        Completes (.acps g x a y b z c) s s.behind64 (fun k => k = z ∨ k = c) (vectorFlags [46])
        (fun k => s.inBits (s.addr z) n k ∨ s.inField w (s.addr c) n k) fun u =>
          s.addr z = addrPart (u.reg z) ∧ s.addr c = addrPart (u.reg c) ∧
          (s.params.ok = true → n * w.bits ≤ 2 ^ s.params.cpmLog → s.apart p w w (s.addr c) n →
            s.apart q w w (s.addr c) n → (z ≠ c → bitsClear) → s.FlagsRaised u n fun i => some (cmp i).flags) ∧
          (z ≠ c → u.reg z = BitVec.ofNat 16 n ++ s.addr z ∧ u.len c ≤ n ∧
            (s.params.ok = true → n * w.bits ≤ 2 ^ s.params.cpmLog → s.apart p w w (s.addr c) n →
              s.apart q w w (s.addr c) n → bitsClear → s.bitsApart (s.addr z) n w (s.addr c) n →
              u.len c = countBelow met n ∧ ∀ i, i < n →
                u.bitOfMemory (s.addr z + BitVec.ofNat 48 i) = met i ∧
                (met i = true → u.elemOfMemory w (itemAddr w (s.addr c) (countBelow met i)) = va i)))))

/-! ### Macro instructions (spec/48_vector_macro.md) -/

/-- R551 to R554, R580, R563: select puts the item count of the first permitted pair that meets the comparison into
register C, or the number of pairs and flag 37 where there is none; #CC does the same for words under a mask, from the
word on that register X names. Select raises exactly the flags of the comparisons it makes (R25, R195). With designator C
zero the result of select is free (log entry 26). Where #CC begins is
decision D44. -/
def Obligations.SelectResults : Prop :=
  ∀ (s : State) (g x a y b z c : Byte), s.mode = .monitor →
    (s.sourceOk (bitAt g 3) x → s.sourceOk (bitAt g 4) y → (bitAt g 3 && bitAt g 4) = false →
      let w := gWidth g
      let p := s.streamOf w (bitAt g 3) a x
      let q := s.streamOf w (bitAt g 4) b y
      let n := pairCount p q
      let cmp (i : Nat) : Cmp := fpCompare w (s.streamElem p w (machineZero w) i) (s.streamElem q w (machineZero w) i)
      ∀ m ∈ [(Instr.seleq g x a y b z c, Cmp.eq), (.selne g x a y b z c, Cmp.ne), (.selge g x a y b z c, Cmp.ge),
          (.sellt g x a y b z c, Cmp.lt)],
        (n = 0 → exec m.1 s = .next { s with pc := s.behind64 }) ∧
        (n ≠ 0 → Completes m.1 s s.behind64 (· = c) (37 :: vectorFlags [46]) nothing fun u =>
          ∃ k, k ≤ n ∧ (c ≠ 0 → u.reg c = BitVec.ofNat 64 k) ∧
            (s.FlagsRaised u n fun i =>
              if i ≤ k ∧ s.permissive (s.control g z 0) i = true then some (cmp i).flags else some {}) ∧
            (∀ i, i < k → s.permissive (s.control g z 0) i = true → m.2 (cmp i) = false) ∧
            (k < n → s.permissive (s.control g z 0) k = true ∧ m.2 (cmp k) = true) ∧
            bitAt u.dfr 37 = (bitAt s.dfr 37 || decide (k = n)))) ∧
    (let n := s.len a - (s.addr x).toNat
     let hit (j : Nat) : Bool :=
       ((s.elemOfMemory .w64 (s.addr a + ((s.addr x + BitVec.ofNat 48 j) <<< 6)) &&& s.reg c) == (s.reg b &&& s.reg c))
         != bitAt g 7
     (n = 0 → exec (.mcmpw g x a b c) s = .next { s with pc := s.behind64 }) ∧
     (n ≠ 0 → Completes (.mcmpw g x a b c) s s.behind64 (· = x) [37, 47] nothing fun u =>
       ∃ k, k ≤ n ∧ u.reg x = lenPart (s.reg x) ++ (s.addr x + BitVec.ofNat 48 k) ∧
         (∀ j, j < k → hit j = false) ∧ (k < n → hit k = true) ∧
         bitAt u.dfr 37 = (bitAt s.dfr 37 || decide (k = n))))

/-- R555 to R562, R581, R582: compare stores its order vector, bit by bit the truth values of the comparison where the
order vector does not overlap the sources; search stores one item count for each element of vector A that the control
vector permits: where the fields lie apart, that of the first element of vector B, from its start or with `lh` from where
the last search ended, that meets the comparison, or the length of B. Both raise exactly the flags of their comparisons,
search those of the permitted positions (R25, R195). Searches at suppressed positions are decision D45,
the order of the elements decision D16. That an empty vector A makes search no operation also with an offset Y out of
range is log entry 48. -/
def Obligations.OrderVectorsAndSearch : Prop :=
  ∀ (s : State) (g x a y b z c : Byte), s.mode = .monitor → Memory.wf s.mem = true →
    let w := gWidth g
    (s.sourceOk (bitAt g 3) x → s.sourceOk (bitAt g 4) y →
      let p := s.streamOf w (bitAt g 3) a x
      let q := s.streamOf w (bitAt g 4) b y
      ∀ m ∈ [(Instr.cmpeq g x a y b z, Cmp.eq), (.cmpne g x a y b z, Cmp.ne), (.cmpge g x a y b z, Cmp.ge),
          (.cmplt g x a y b z, Cmp.lt)],
        Completes m.1 s s.behind64 nothing (vectorFlags [46]) (s.inBits (s.addr z) (s.len z)) fun u =>
          s.params.ok = true → s.len z ≤ 2 ^ s.params.cpmLog → s.apartFromBits p w (s.addr z) (s.len z) →
          s.apartFromBits q w (s.addr z) (s.len z) →
            let cmp (i : Nat) : Cmp :=
              fpCompare w (s.streamElem p w (machineZero w) i) (s.streamElem q w (machineZero w) i)
            (∀ i, i < s.len z → u.bitOfMemory (s.addr z + BitVec.ofNat 48 i) = m.2 (cmp i)) ∧
            s.FlagsRaised u (s.len z) fun i => some (cmp i).flags) ∧
    (s.sourceOk false x →
      let p := s.streamOf w false a x
      let q := s.streamOf w false b y
      let na := s.len a - s.offsetOf x
      let nb := s.len b - s.offsetOf y
      let ctl := s.control g z 0
      ∀ m ∈ [(Instr.srcheq g x a y b z c, Cmp.eq), (.srchne g x a y b z c, Cmp.ne), (.srchge g x a y b z c, Cmp.ge),
          (.srchlt g x a y b z c, Cmp.lt)],
        let cmp (j k : Nat) : Cmp :=
          fpCompare w (s.streamElem p w (machineZero w) j) (s.streamElem q w (machineZero w) k)
        let met (j k : Nat) : Bool := m.2 (cmp j k)
        (na = 0 → exec m.1 s = .next { s with pc := s.behind64 }) ∧
        (na ≠ 0 → s.sourceOk false y →
          Completes m.1 s s.behind64 nothing (vectorFlags [46]) (s.inField .w64 (s.addr c) na) fun u =>
            s.params.ok = true → na * 64 ≤ 2 ^ s.params.cpmLog → s.apart p w .w64 (s.addr c) na →
            s.apart q w .w64 (s.addr c) na → s.controlApart ctl .w64 (s.addr c) na →
            ∃ found : Nat → Nat,
            let start (j : Nat) : Nat := if bitAt g 2 = true ∧ j ≠ 0 then found (j - 1) else 0
            (s.FlagsRaised u (na * nb) fun n =>
              if start (n / nb) ≤ n % nb ∧ n % nb ≤ found (n / nb) ∧ s.permissive ctl (n / nb) = true then
                some (cmp (n / nb) (n % nb)).flags
              else some {}) ∧
            ∀ j, j < na →
              start j ≤ found j ∧ found j ≤ nb ∧ (∀ k, start j ≤ k → k < found j → met j k = false) ∧
              (found j < nb → met j (found j) = true) ∧
              u.elemOfMemory .w64 (itemAddr .w64 (s.addr c) j) =
                if s.permissive ctl j then BitVec.ofNat 64 (found j)
                else s.elemOfMemory .w64 (itemAddr .w64 (s.addr c) j)))

/-- R571 to R575, R584, R585: maximum and minimum leave the element the scan of R585 finds, and its item count; sum and
dot product leave the upper and the lower half of the accumulator of R584, product the last product; only permitted
elements count, nothing is stored. With an indefinite element permitted maximum and minimum leave an indefinite
register C, with no permitted element register B counts the whole vector. Flags 42, 43 and 46 with their duplicates are
set exactly as R573 to R575, R584 and R585 say (R25). Each step of the accumulator, its two results and each step of
the scan are stated over exact integers; that an indefinite magnitude raises no flag is log entry 46. Equal or odd or
zero result designators leave free values (log entries 25, 26). Ties, orders of summation and the parity of C are
decisions D47 to D50. -/
def Obligations.MacroResults : Prop :=
  (∀ (s : State) (g x a y b z c : Byte), s.mode = .monitor →
    let w := gWidth g
    let ok (i : Nat) : Bool := s.permissive (s.control g z 0) i
    let ends (u : State) : FpFlags :=
      { zero := unpack w (u.regW w (c + 1)) = .mz, indefinite := unpack w (u.regW w c) = .ind }
    (s.sourceOk false x →
      let p := s.streamOf w false a x
      let n := s.len a - s.offsetOf x
      let e (i : Nat) : Word := s.streamElem p w (machineZero w) i
      (n = 0 → ∀ i ∈ [Instr.max g x a b z c, .min g x a b z c, .sum g x a z c, .product g x a z c],
        exec i s = .next { s with pc := s.behind64 }) ∧
      (n ≠ 0 →
        (∀ m ∈ [(Instr.max g x a b z c, fun (r : Cmp) => r.ge && r.ne), (.min g x a b z c, Cmp.lt)],
          let k := (List.range n).foldl (fun k i => if ok i then Scan.step w m.2 (bitAt g 5) i (e i) k else k) {}
          Completes m.1 s s.behind64 (fun r => r = b ∨ r = regOfW w c) (vectorFlags [46] ++ [53, 54, 55]) nothing fun u =>
            (s.FlagsRaised u 1 fun _ => some { indefinite := k.ind }) ∧
            (k.ind = true ↔ ∃ i, i < n ∧ ok i = true ∧ unpack w (e i) = .ind) ∧
            (k.best = none ↔ ∀ i, i < n → ok i = true → unpack w (e i) = .ind) ∧
            (b ≠ c → regOfW w c ≠ b →
              (k.ind = true → u.regW w c = indefinite w) ∧
              (k.ind = false → k.best = none → u.reg b = BitVec.ofNat 64 n) ∧
              ∀ t, k.ind = false → k.best = some t → u.reg b = BitVec.ofNat 64 t.index ∧ u.regW w c = t.value) ∧
            (k.ind = false → bitAt u.dfr 54 = (k.best.isSome && k.tie))) ∧
        (let k := (List.range n).foldl (fun k i => if ok i then sumStep w (e i) k else k) (.zero, {})
         Completes (.sum g x a z c) s s.behind64 (fun r => r = regOfW w c ∨ r = regOfW w (c + 1))
           (vectorFlags [42, 43, 46]) nothing fun u =>
             (badPair c = false → u.regW w c = k.1.upper w ∧ ∀ v, k.1.lower w = some v → u.regW w (c + 1) = v) ∧
             s.FlagsRaised u 1 fun _ => some (k.2.or (ends u))) ∧
        (let productOf (m : Nat) : Word := (List.range m).foldl
           (fun k i => if ok i then (fpBinary w (.mul .signif) {} k (e i)).value else k) (normalizedOne w)
         Completes (.product g x a z c) s s.behind64 (· = regOfW w c) (vectorFlags [42, 43, 46]) nothing fun u =>
           (c ≠ 0 → u.regW w c = productOf n) ∧
           s.FlagsRaised u 1 fun _ => some {
             overflow := (List.range n).any fun i => ok i && (fpBinary w (.mul .signif) {} (productOf i) (e i)).flags.overflow
             zero := u.regW w c == machineZero w
             indefinite := unpack w (u.regW w c) = .ind }))) ∧
    (s.sourceOk (bitAt g 3) x → s.sourceOk (bitAt g 4) y → (bitAt g 3 && bitAt g 4) = false →
      let p := s.streamOf w (bitAt g 3) a x
      let q := s.streamOf w (bitAt g 4) b y
      let n := pairCount p q
      let k := (List.range n).foldl (fun k i => if ok i then
        dotStep w (s.streamElem p w (machineZero w) i) (s.streamElem q w (machineZero w) i) k else k) (.zero, {})
      (n = 0 → exec (.dotv g x a y b z c) s = .next { s with pc := s.behind64 }) ∧
      (n ≠ 0 → Completes (.dotv g x a y b z c) s s.behind64 (fun r => r = regOfW w c ∨ r = regOfW w (c + 1))
        (vectorFlags [42, 43, 46]) nothing fun u =>
          (badPair c = false → u.regW w c = k.1.upper w ∧ ∀ v, k.1.lower w = some v → u.regW w (c + 1) = v) ∧
          s.FlagsRaised u 1 fun _ => some (k.2.or (ends u))))) ∧
  (∀ (w : Width) (v u : Word) (k : Acc × FpFlags),
    SumStepIs w (unpack w v) k (sumStep w v k) ∧ DotStepIs w (unpack w v) (unpack w u) k (dotStep w v u k)) ∧
  (∀ (w : Width) (a : Acc), a.inRange w → AccEnds w a) ∧
  ∀ (w : Width) (magnitude : Bool) (i : Nat) (v : Word) (k : Scan),
    (∀ t, k.best = some t → unpack w t.value ≠ .ind ∧ t.num = scanned w magnitude t.value) →
    ∀ better ∈ [fun (r : Cmp) => r.ge && r.ne, Cmp.lt], ScanStepIs w better magnitude i v k (k.step w better magnitude i v)

/-! ### Strings and the communication buffer (spec/49_string_cb.md) -/

/-- R600 to R609: the logical operations on bit strings in Monitor mode store only into field C, and where the strings
do not overlap, bit by bit the operation's value; flags 53, 54 and 55 say whether the result is all zeros, mixed or all
ones. R609: Move Bytes Left stores only into field C, the fill byte behind the end of field A. That an index shortens a
string is decision D51, designator zero decision D34. -/
def Obligations.StringsAndBytes : Prop :=
  ∀ (s : State) (x a y b z c : Byte), s.mode = .monitor → Memory.wf s.mem = true →
    let n := s.len c - (s.index z).toNat
    let la := s.len a - (s.index x).toNat
    let lb := s.len b - (s.index y).toNat
    let at_ (r x : Byte) : Addr := s.addr r + s.index x
    let bit (r x : Byte) (len i : Nat) : Bool := decide (i < len) && s.bitOfMemory (at_ r x + BitVec.ofNat 48 i)
    let dst (i : Nat) : Addr := s.addr c + ((s.index z + BitVec.ofNat 48 i) <<< 3)
    let src (i : Nat) : Addr := s.addr a + ((s.index x + BitVec.ofNat 48 i) <<< 3)
    (∀ p ∈ [(Instr.xor x a y b z c, fun u v => xor u v), (.and x a y b z c, fun u v => u && v),
        (.ior x a y b z c, fun u v => u || v), (.nand x a y b z c, fun u v => !(u && v)),
        (.nor x a y b z c, fun u v => !(u || v)), (.orn x a y b z c, fun u v => u || !v),
        (.andn x a y b z c, fun u v => u && !v), (.xorn x a y b z c, fun u v => !(xor u v))],
      (n = 0 → exec p.1 s = .next { s with pc := s.behind64 }) ∧
      (n ≠ 0 → Completes p.1 s s.behind64 nothing [47, 53, 54, 55] (s.inBits (at_ c z) n) fun u =>
        s.params.ok = true → n ≤ 2 ^ s.params.cpmLog → s.stringsApart (at_ a x) la (at_ c z) n →
        s.stringsApart (at_ b y) lb (at_ c z) n →
          let v (i : Nat) : Bool := p.2 (bit a x la i) (bit b y lb i)
          (∀ i, i < n → u.bitOfMemory (at_ c z + BitVec.ofNat 48 i) = v i) ∧
          bitAt u.dfr 53 = (List.range n).all (fun i => !v i) ∧ bitAt u.dfr 55 = (List.range n).all v ∧
          bitAt u.dfr 54 = ((List.range n).any v && (List.range n).any fun i => !v i))) ∧
    (Completes (.movl x a b z c) s s.behind64 nothing [47] (fun k => ∃ i, i < n ∧ k = s.oneByte (dst i)) fun u =>
      s.params.ok = true → 8 * n ≤ 2 ^ s.params.cpmLog →
      (∀ i, i < la → ∀ j, j < n → s.oneByte (src i) ≠ s.oneByte (dst j)) →
      ∀ i, i < n → Memory.byte u.mem (s.oneByte (dst i)) = if i < la then Memory.byte s.mem (s.oneByte (src i)) else b)

/-- R612 to R615, R85, R86: the loads, stores and bit branches of the communication buffer, of a word or a half word,
where the base/limit check passes and the item lies within the buffer. The second check of #FD is decision D18. That #FC
and #FD with B = C branch to what register B held before C is cleared is log entry 45. -/
def Obligations.BufferTransfers : Prop :=
  ∀ (s : State) (g x a b c : Byte), Memory.wf s.cb = true →
    let w := gWidth g
    let k := dataPair g
    let ea := s.cbAddr k x
    let item := ea.toNat / w.bits
    let old := s.bufferElem w item
    let ob := bitAt old (64 - w.bits + ea.toNat % w.bits)
    s.beyondLimit k ea = false → (item + 1) * w.bits ≤ s.params.cbBits → s.params.cbBits ≤ 2 ^ 48 →
    (s.forbidden 30 = false → s.lockedOut k true false = false →
      WidthResult (.cbld g x c) s s.behind64 w c old) ∧
    (s.forbidden 31 = false → s.lockedOut k false true = false →
      BufferResult (.cbsto g x c) s s.behind64 nothing (s.inItem w item) fun u => u.bufferElem w item = s.regW w c) ∧
    (s.forbidden 28 = false → s.lockedOut k true true = false →
      (ob = true → WidthResult (.bbswap g x a b c) s (halfAligned (s.addr b)) w c 0) ∧
      (ob = false → BufferResult (.bbswap g x a b c) s s.behind64 (· = regOfW w c) (s.inItem w item) fun u =>
        u.bufferElem w item = s.regW w a ∧ u.regW w c = old ∧ s.othersAs u w (· = c))) ∧
    (s.forbidden 29 = false → s.lockedOut k true true = false →
      s.beyondLimit k (BitVec.ofNat 48 ((item + 1) * w.bits)) = false → (item + 2) * w.bits ≤ s.params.cbBits →
      (ob = true → WidthResult (.bbldst g x a b c) s (halfAligned (s.addr b)) w c 0) ∧
      (ob = false → BufferResult (.bbldst g x a b c) s s.behind64 (· = regOfW w c) (s.inItem w item) fun u =>
        u.bufferElem w item = s.regW w a ∧ u.regW w c = s.bufferElem w (item + 1) ∧ s.othersAs u w (· = c)))

/-- R610, R611, R617: post and wait on a semaphore (the layout of a semaphore is a parameter; an address within a record
is one of a word of the buffer). Post adds one to the wait count, wait takes one off; register C gets the count as it
was. The default layout is decision D52, unchecked queue addresses decision D53 (log entry 38). With B = C the branch goes
to what register B held before C is written: for #FA so R610, as its inference, for #FB log entry 45. -/
def Obligations.Semaphores : Prop :=
  ∀ (s : State) (g x a b c : Byte), Memory.wf s.cb = true →
    let k := semaphorePair g
    let j := dataPair g
    let sem := s.cbAddr k x
    let pwa := s.cbAddr j a
    let n := sem.toNat / 64
    let v := s.bufferElem .w64 n ++ s.bufferElem .w64 (n + 1)
    let old := waitOf v
    let lay := s.params.sem
    let stored (i : Nat) : Prop := s.inItem .w64 n i ∨ s.inItem .w64 (n + 1) i
    s.lockedOut k true true = false → s.beyondLimit k sem = false → (n + 2) * 64 ≤ s.params.cbBits →
    (s.forbidden 26 = false →
      (0 ≤ old.toInt → BufferResult (.post g x b c) s s.behind64 (· = c) stored fun u =>
        u.bufferElem .w64 n ++ u.bufferElem .w64 (n + 1) = setWait v (old + 1) ∧ u.reg c = 0#32 ++ old) ∧
      (old.toInt < 0 → (addressField lay.head v / 64 + 1) * 64 ≤ s.params.cbBits →
        BufferResult (.post g x b c) s (halfAligned (s.addr b)) (· = c) stored fun u =>
          let pw := s.bufferElem .w64 (addressField lay.head v / 64)
          u.reg c = leftHalf pw ++ old ∧ u.bufferElem .w64 n ++ u.bufferElem .w64 (n + 1) =
            if old = 0xFFFFFFFF then setWait v (old + 1)
            else withAddressField lay.head (setWait v (old + 1)) (addressField lay.link pw))) ∧
    (s.forbidden 27 = false → s.lockedOut j true true = false → s.beyondLimit j pwa = false →
      (sem = pwa ∨ Config.cbSide sem.toNat = Config.cbSide pwa.toNat) →
      (0 < old.toInt → BufferResult (.wait g x a b c) s s.behind64 (· = c) stored fun u =>
        u.bufferElem .w64 n ++ u.bufferElem .w64 (n + 1) = setWait v (old - 1) ∧ u.reg c = 0#32 ++ old) ∧
      (old = 0 → BufferResult (.wait g x a b c) s (halfAligned (s.addr b)) (· = c) stored fun u =>
        u.bufferElem .w64 n ++ u.bufferElem .w64 (n + 1) =
          withAddressField lay.tail (withAddressField lay.head (setWait v (old - 1)) pwa.toNat) pwa.toNat ∧
        u.reg c = 0#32 ++ old) ∧
      (old.toInt < 0 → (addressField lay.tail v / 64 + 1) * 64 ≤ s.params.cbBits →
        addressField lay.tail v / 64 ≠ n → addressField lay.tail v / 64 ≠ n + 1 →
        BufferResult (.wait g x a b c) s (halfAligned (s.addr b)) (· = c)
          (fun i => stored i ∨ s.inItem .w64 (addressField lay.tail v / 64) i) fun u =>
            u.bufferElem .w64 n ++ u.bufferElem .w64 (n + 1) = withAddressField lay.tail (setWait v (old - 1)) pwa.toNat ∧
            u.bufferElem .w64 (addressField lay.tail v / 64) =
              withAddressField lay.link (s.bufferElem .w64 (addressField lay.tail v / 64)) pwa.toNat ∧
            u.reg c = 0#32 ++ old) ∧
      (old.toInt < 0 → addressField lay.tail v / 64 = n ∨ addressField lay.tail v / 64 = n + 1 →
        BufferResult (.wait g x a b c) s (halfAligned (s.addr b)) (· = c) stored fun u =>
          u.bufferElem .w64 n ++ u.bufferElem .w64 (n + 1) = withAddressField lay.tail (setWait v (old - 1)) pwa.toNat ∧
          u.reg c = 0#32 ++ old))

/-- R86, R637: a communication buffer instruction that is locked out or fails the base/limit check has no effect: it
sets IR bit 55 or 56 or both; in Job mode the exchange follows with its own address saved (decision D58), in Monitor mode
the program goes on behind it. An item, semaphore or queue word that lies beyond the buffer is a fault of the model (log
entry 28). No effect is decision D18, both bits decision D56. -/
def Obligations.BufferChecks : Prop :=
  ∀ (s : State) (g x a b c : Byte),
    let d := dataPair g
    let e := semaphorePair g
    let w := gWidth g
    let ea := s.cbAddr d x
    let sem := s.cbAddr e x
    let pwa := s.cbAddr d a
    let following : Addr := BitVec.ofNat 48 ((ea.toNat / w.bits + 1) * w.bits)
    (∀ p ∈ [(Instr.cbld g x c, 30, s.lockedOut d true false, s.beyondLimit d ea),
        (.cbsto g x c, 31, s.lockedOut d false true, s.beyondLimit d ea),
        (.bbswap g x a b c, 28, s.lockedOut d true true, s.beyondLimit d ea),
        (.bbldst g x a b c, 29, s.lockedOut d true true, s.beyondLimit d ea || s.beyondLimit d following),
        (.post g x b c, 26, s.lockedOut e true true, s.beyondLimit e sem),
        (.wait g x a b c, 27, s.lockedOut e true true || s.lockedOut d true true,
          s.beyondLimit e sem || s.beyondLimit d pwa)],
      s.forbidden p.2.1 = false → (p.2.2.1 || p.2.2.2) = true →
      let t := if p.2.2.1 then s.post 55 else s
      let t := if p.2.2.2 then t.post 56 else t
      (s.mode = .job → exec p.1 s = .next (t.toMonitor s.pc)) ∧
      (s.mode = .monitor → exec p.1 s = .next { t with pc := s.behind64 })) ∧
    (∀ p ∈ [(Instr.cbld g x c, 30, s.lockedOut d true false), (.cbsto g x c, 31, s.lockedOut d false true),
        (.bbswap g x a b c, 28, s.lockedOut d true true),
        (.bbldst g x a b c, 29, s.lockedOut d true true || s.beyondLimit d following)],
      s.forbidden p.2.1 = false → p.2.2 = false → s.beyondLimit d ea = false →
      s.params.cbBits < (ea.toNat / w.bits + 1) * w.bits → exec p.1 s = .fault .outsideCommunicationBuffer) ∧
    (s.forbidden 29 = false → s.lockedOut d true true = false → s.beyondLimit d ea = false →
      s.beyondLimit d following = false → s.params.cbBits ≤ 2 ^ 48 →
      (ea.toNat / w.bits + 1) * w.bits ≤ s.params.cbBits → s.params.cbBits < (ea.toNat / w.bits + 2) * w.bits →
      (ea.toNat / w.bits + 1) * w.bits ≠ 2 ^ 48 →
      bitAt (s.bufferElem w (ea.toNat / w.bits)) (64 - w.bits + ea.toNat % w.bits) = false →
      exec (.bbldst g x a b c) s = .fault .outsideCommunicationBuffer) ∧
    (let n := sem.toNat / 64
     let v := s.bufferElem .w64 n ++ s.bufferElem .w64 (n + 1)
     let beyond (item : Nat) : Prop := s.params.cbBits < (item + 1) * 64
     let postOk := s.forbidden 26 = false ∧ s.lockedOut e true true = false ∧ s.beyondLimit e sem = false
     let waitOk := s.forbidden 27 = false ∧ s.lockedOut e true true = false ∧ s.lockedOut d true true = false ∧
       s.beyondLimit e sem = false ∧ s.beyondLimit d pwa = false ∧
       (sem = pwa ∨ Config.cbSide sem.toNat = Config.cbSide pwa.toNat)
     (postOk → beyond (n + 1) ∨ ((waitOf v).toInt < 0 ∧ beyond (addressField s.params.sem.head v / 64)) →
       exec (.post g x b c) s = .fault .outsideCommunicationBuffer) ∧
     (waitOk → beyond (n + 1) ∨ ((waitOf v).toInt < 0 ∧ beyond (addressField s.params.sem.tail v / 64)) →
       exec (.wait g x a b c) s = .fault .outsideCommunicationBuffer))

/-! ### Forms that the spec calls undefined (spec/93_implementation_defined.md) -/

/-- The forms, listed here, of the scalar and control instructions that their rules call undefined have no successor
(R202, R206, R207, R209, R212, R237, R242, R243, R276, R279, R280, R283, R284, R293, R328, R373, R380, R389). That
these forms have no successor is the treatment of spec/93 (log entries 39, 40); that #36 with R = S, not #00, is so
also with R = T and bit 0 of register T set, which 93 section 2 lists as an exception, rests on log entry 29; the
designators of #09 are log entry 32, the comparison of the job's storage with its packages log entry 31, the page
select 01 log entry 36. -/
def Obligations.UndefinedScalarForms : Prop :=
  ∀ (s : State) (r sd t g : Byte) (im : BitVec 6),
    (s.reg r &&& breakpointReserved ≠ 0 → exec (.bkpt r) s = .refused .reservedBitsNonZero) ∧
    (s.forbidden 4 = false → s.reg r &&& ~~~s.destinations ≠ 0 → exec (.setint r) s = .refused .reservedBitsNonZero) ∧
    (s.mode = .job → s.forbidden 5 = false → r ≠ 0 ∨ sd ≠ 0 ∨ t ≠ 0 →
      exec (.exit r sd t) s = .refused .unusedFieldNonZero) ∧
    (s.mode = .monitor →
      (r ≠ 0 → exec (.exit r sd t) s = .refused .unusedFieldNonZero) ∧
      (s.faultTest ≠ 0 → exec (.exit 0 sd t) s = .refused .faultTestAtExchange) ∧
      (s.faultTest = 0 → s.arValid = false → exec (.exit 0 sd t) s = .refused .assocRegsNotLoaded) ∧
      (s.faultTest = 0 → s.arValid = true →
        let rf := if sd = 0 then 0 else s.addr sd
        let pkg := s.addr t
        let aligned := rf.toNat % 4096 = 0 ∧ pkg.toNat % 4096 = 0
        (¬ aligned → exec (.exit 0 sd t) s = .refused .exchangeAlign) ∧
        (aligned → (rf ≠ 0 ∧ rf.toNat < 0x4000) ∨ s.packagesOverlap rf pkg = true ∨ s.storageOverlaps rf pkg = true →
          exec (.exit 0 sd t) s = .refused .exchangeOverlap)) ∧
      (s.arValid = false → exec .stoar s = .refused .assocRegsNotLoaded ∧
        exec (.lodkey r sd t) s = .refused .assocRegsNotLoaded) ∧
      (s.arValid = true → s.reg r &&& keysReserved ≠ 0 ∨ (keysOfWord (s.reg r)).small = 1 →
        exec (.lodkey r sd t) s = .refused .reservedBitsNonZero) ∧
      exec .exdom s = .refused .domainChangeInMonitor ∧
      (bitAt (s.reg t) 0 = true → r ≠ t → exec (.bsave r sd t) s = .refused .domainChangeInMonitor) ∧
      exec (.rjtime t) s = .refused .jitInMonitor ∧
      (afterBranch g (s.bitOfMemory (s.addr sd)) s.pc (s.addr t) (t.setWidth 48) = none →
        exec (.bab g sd t) s = .refused .branchQualifier)) ∧
    (s.mode = .job → s.dom.stackIndex = 0 → exec .exdom s = .refused .domainStackUnderflow) ∧
    (s.len sd ≠ 0 → s.len sd < s.len r →
      exec (.maskz r sd t) s = .refused .maskLength ∧ exec (.masko r sd t) s = .refused .maskLength) ∧
    (afterBranch g (bitAt (s.reg t) 63) s.pc (s.addr sd) (s.addr sd) = none →
      exec (.barb g sd t) s = .refused .branchQualifier) ∧
    (bitAt undefinedMask im.toNat = false → afterBranch g (bitAt s.dfr im.toNat) s.pc (s.addr t) (t.setWidth 48) = none →
      exec (.badf g im t) s = .refused .branchQualifier) ∧
    (bitAt (s.reg t) 0 = false ∨ r = t → r = sd → r ≠ 0 → exec (.bsave r sd t) s = .refused .branchRegisterSame) ∧
    (s.reg sd &&& bitFieldReserved ≠ 0 → exec (.insb r sd t) s = .refused .reservedBitsNonZero ∧
      exec (.extb r sd t) s = .refused .reservedBitsNonZero) ∧
    (unpack .w64 (s.reg r) ≠ .ind → unpack .w64 (s.reg r) ≠ .mz → 47 < (s.addr sd).toInt.natAbs →
      exec (.adjs r sd t) s = .refused .adjsCount) ∧
    (unpack .w32 (s.operand32 r) ≠ .ind → unpack .w32 (s.operand32 r) ≠ .mz →
      23 < ((s.reg32 sd).extractLsb' 0 24).toInt.natAbs → exec (.adjsh r sd t) s = .refused .adjsCount) ∧
    (let w := s.swapOf r sd t
     (w.illegal = true → exec (.rgap r sd t) s = .next s.typeOne) ∧
     (w.illegal = false → 256 < w.first + w.nStore ∨ 256 < w.first + w.nLoad →
       exec (.rgap r sd t) s = .refused .swapRange) ∧
     (w.illegal = false → w.first + w.nStore ≤ 256 → w.first + w.nLoad ≤ 256 → w.overlaps = true →
       exec (.rgap r sd t) s = .refused .swapOverlap))

/-- The forms, listed here, of the vector, compare and semaphore instructions that their rules call undefined have no
successor (R411, R413, R491, R492, R494, R508, R510, R511, R512, R513, R575, R580, R611). That these forms have no
successor is the treatment of spec/93 (log entry 40); #B7 with a constant does not use its offset (log entry 47). That
#C4 to #C7 refuse an offset out of range also with an empty order vector, and #C8 to #CB and #CF such an offset Y only
where vector A has an element, is log entry 48. -/
def Obligations.UndefinedVectorForms : Prop :=
  ∀ (s : State) (g x a y b z c : Byte),
    let large (r : Byte) : Prop := 0x10000 ≤ s.offsetOf r
    let two : List Instr := [.adduv g x a y b z c, .addlv g x a y b z c, .addnv g x a y b z c, .addxv g x a y b z c,
      .subuv g x a y b z c, .sublv g x a y b z c, .subnv g x a y b z c, .subxv g x a y b z c, .mpyuv g x a y b z c,
      .mpylv g x a y b z c, .shiftv g x a y b z c, .mpysv g x a y b z c, .divuv g x a y b z c, .divsv g x a y b z c,
      .adjsv g x a y b z c, .adjev g x a y b z c, .packv g x a y b z c, .xorv g x a y b z c, .andv g x a y b z c,
      .iorv g x a y b z c, .nandv g x a y b z c, .norv g x a y b z c, .ornv g x a y b z c, .andnv g x a y b z c,
      .xornv g x a y b z c, .avg g x a y b z c, .avgd g x a y b z c]
    let one : List Instr := [.truv g x a z c, .flrv g x a z c, .clgv g x a z c, .sqrtv g x a z c, .conv g x a z c,
      .rconv g x a z c, .vtov g x a z c, .absv g x a z c, .expv g x a z c, .extv g x a z c]
    let field : List Instr := [.vrevv g x a z c, .adjmean g x a z c, .delta g x a z c]
    let pairs : List Instr := [.seleq g x a y b z c, .selne g x a y b z c, .selge g x a y b z c, .sellt g x a y b z c,
      .dotv g x a y b z c]
    let compares : List Instr := [.cmpeq g x a y b z, .cmpne g x a y b z, .cmpge g x a y b z, .cmplt g x a y b z]
    let lists : List Instr := [.srcheq g x a y b z c, .srchne g x a y b z c, .srchge g x a y b z c, .srchlt g x a y b z c]
    (bitAt g 3 = false → large x → ∀ i ∈ two ++ one ++ compares, exec i s = .refused .vectorOffsetRange) ∧
    (large x → ∀ i ∈ field ++ lists ++ [.acps g x a y b z c, .max g x a b z c, .min g x a b z c, .sum g x a z c,
      .product g x a z c], exec i s = .refused .vectorOffsetRange) ∧
    (s.sourceOk (bitAt g 3) x → bitAt g 4 = false → large y →
      ∀ i ∈ two ++ compares, exec i s = .refused .vectorOffsetRange) ∧
    ((bitAt g 3 && bitAt g 4) = false →
      (bitAt g 3 = false ∧ large x) ∨ (s.sourceOk (bitAt g 3) x ∧ bitAt g 4 = false ∧ large y) →
      ∀ i ∈ pairs, exec i s = .refused .vectorOffsetRange) ∧
    (s.sourceOk false x → s.len a - s.offsetOf x ≠ 0 → large y →
      (∀ i ∈ lists, exec i s = .refused .vectorOffsetRange) ∧
      (bitAt g 4 = false → exec (.acps g x a y b z c) s = .refused .vectorOffsetRange)) ∧
    (∀ p ∈ [(two, s.sourceOk (bitAt g 3) x ∧ s.sourceOk (bitAt g 4) y), (one, s.sourceOk (bitAt g 3) x),
        (field, s.sourceOk false x), ([.interval g a b z c], True)],
      p.2 → c ≠ 0 → bitAt g 2 = true → ∀ i ∈ p.1,
        (bitAt c 7 = true → exec i s = .refused .oddCWithOffset) ∧
        (bitAt c 7 = false → 0x10000 ≤ (s.addr (c + 1)).toNat → exec i s = .refused .vectorOffsetRange)) ∧
    (bitAt g 3 = true → bitAt g 0 = true → ∀ i ∈ [Instr.ibxeqBr g x a y b z c, .ibxneBr g x a y b z c,
        .ibxeqSc g x a y z c, .ibxneSc g x a y z c], exec i s = .refused .compareQualifier) ∧
    ((bitAt g 3 && bitAt g 0) = false → c = z → ∀ i ∈ [Instr.ibxeqSc g x a y z c, .ibxneSc g x a y z c],
      exec i s = .refused .sameRegister) ∧
    (c = z → ∀ i ∈ [Instr.ibxgeSc g x a y z c, .ibxltSc g x a y z c, .ibxleSc g x a y z c, .ibxgtSc g x a y z c],
      exec i s = .refused .sameRegister) ∧
    (compareTarget g y b s = none →
      ∀ p ∈ [(Instr.ibxeqBr g x a y b z c, bitAt g 3, fun (u v : Int) => decide (u = v)),
        (.ibxneBr g x a y b z c, bitAt g 3, fun u v => decide (u ≠ v)), (.ibxgeBr g x a y b z c, false, fun u v => decide (v ≤ u)),
        (.ibxltBr g x a y b z c, false, fun u v => decide (u < v)), (.ibxleBr g x a y b z c, false, fun u v => decide (u ≤ v)),
        (.ibxgtBr g x a y b z c, false, fun u v => decide (v < u))],
      (p.2.1 && bitAt g 0) = false →
      p.2.2 (intCompare g x a z p.2.1 s).left (intCompare g x a z p.2.1 s).right = true →
        exec p.1 s = .refused .branchQualifier) ∧
    (let r := fpCompare (gWidth g) (s.regW (gWidth g) a) (s.regW (gWidth g) x)
     compareTarget g y b s = none → ∀ p ∈ [(Instr.cfpeqBr g x a y b, r.eq), (.cfpneBr g x a y b, r.ne),
        (.cfpgeBr g x a y b, r.ge), (.cfpltBr g x a y b, r.lt), (.cfpleBr g x a y b, r.lt || r.eq),
        (.cfpgtBr g x a y b, r.ge && r.ne)],
      p.2 = true → exec p.1 s = .refused .branchQualifier) ∧
    (bitAt g 6 = true → bitAt g 7 = true → exec (.vtovx g x a y b c) s = .refused .scatterGatherQualifier ∧
      exec (.vxtov g x a y b c) s = .refused .scatterGatherQualifier) ∧
    (bitAt g 4 = true → bitAt g 6 = true → exec (.vtovx g x a y b c) s = .refused .scatterGatherQualifier) ∧
    (let w := gWidth g
     let ix := s.indexesOf g x a
     let start := itemAddr w (s.addr b) (s.offsetOf y)
     let fits := (bitAt g 5 = true → x = 0) ∧ (bitAt g 5 = false → s.sourceOk false x)
     let scatter := (bitAt g 6 && bitAt g 7) = false ∧ (bitAt g 4 && bitAt g 6) = false
     let gather := (bitAt g 6 && bitAt g 7) = false
     (bitAt g 5 = true → x ≠ 0 → (scatter → exec (.vtovx g x a y b c) s = .refused .unusedFieldNonZero) ∧
       (gather → exec (.vxtov g x a y b c) s = .refused .unusedFieldNonZero)) ∧
     (bitAt g 5 = false → large x → (scatter → exec (.vtovx g x a y b c) s = .refused .vectorOffsetRange) ∧
       (gather → exec (.vxtov g x a y b c) s = .refused .vectorOffsetRange)) ∧
     (fits → large y →
       (scatter → bitAt g 4 = false → ix.count * (if bitAt g 6 then s.len c else 1) ≠ 0 →
         exec (.vtovx g x a y b c) s = .refused .vectorOffsetRange) ∧
       (gather → ix.count * (if bitAt g 6 then s.len b else 1) ≠ 0 →
         exec (.vxtov g x a y b c) s = .refused .vectorOffsetRange)) ∧
     (s.mode = .monitor → Memory.wf s.mem = true → fits → s.sourceOk false y → bitAt g 6 = false → bitAt g 7 = true →
       (bitAt g 4 = false → (∃ j, j < ix.count ∧ 0x4000 ≤ (itemAddr w (s.addr b) (s.offsetOf y + j)).toNat) →
         exec (.vtovx g x a y b c) s = .refused .rfRange) ∧
       (s.indexesApart ix w (s.addr c) ix.count →
         (∃ j, j < ix.count ∧ 0x4000 ≤ (start + (s.itemCount ix j <<< w.shift)).toNat) →
         exec (.vxtov g x a y b c) s = .refused .rfRange))) ∧
    (x ≠ 0 ∨ y ≠ 0 → exec (.maskv g x a y b z c) s = .refused .unusedFieldNonZero ∧
      exec (.mrgv g x a y b z c) s = .refused .unusedFieldNonZero) ∧
    (x ≠ 0 → exec (.cpsv g x a z c) s = .refused .unusedFieldNonZero) ∧
    (bitAt g 3 = true → bitAt g 4 = true → ∀ i ∈ pairs, exec i s = .refused .broadcastBoth) ∧
    (s.forbidden 27 = false → s.lockedOut (semaphorePair g) true true = false → s.lockedOut (dataPair g) true true = false →
      s.beyondLimit (semaphorePair g) (s.cbAddr (semaphorePair g) x) = false →
      s.beyondLimit (dataPair g) (s.cbAddr (dataPair g) a) = false →
      s.cbAddr (semaphorePair g) x ≠ s.cbAddr (dataPair g) a →
      Config.cbSide (s.cbAddr (semaphorePair g) x).toNat = Config.cbSide (s.cbAddr (dataPair g) a).toNat ∨
        exec (.wait g x a b c) s = .refused .cbSideMismatch)
end

