-- ==== Sys2Proof/Laws/State.lean ====
section
/-! SUPPORT. What each named update of State leaves as it was: one lemma per field and update. -/

namespace Sys2Proof.Machine

/-! ### `State.setReg` -/

@[simp] theorem State.setReg_params (s : State) (n : Byte) (v : Word) : (s.setReg n v).params = s.params := rfl
@[simp] theorem State.setReg_mode (s : State) (n : Byte) (v : Word) : (s.setReg n v).mode = s.mode := rfl
@[simp] theorem State.setReg_pc (s : State) (n : Byte) (v : Word) : (s.setReg n v).pc = s.pc := rfl
@[simp] theorem State.setReg_dfr (s : State) (n : Byte) (v : Word) : (s.setReg n v).dfr = s.dfr := rfl
@[simp] theorem State.setReg_ir (s : State) (n : Byte) (v : Word) : (s.setReg n v).ir = s.ir := rfl
@[simp] theorem State.setReg_bkpt (s : State) (n : Byte) (v : Word) : (s.setReg n v).bkpt = s.bkpt := rfl
@[simp] theorem State.setReg_serial (s : State) (n : Byte) (v : Word) : (s.setReg n v).serial = s.serial := rfl
@[simp] theorem State.setReg_forceExec (s : State) (n : Byte) (v : Word) : (s.setReg n v).forceExec = s.forceExec := rfl
@[simp] theorem State.setReg_faultTest (s : State) (n : Byte) (v : Word) : (s.setReg n v).faultTest = s.faultTest := rfl
@[simp] theorem State.setReg_mit (s : State) (n : Byte) (v : Word) : (s.setReg n v).mit = s.mit := rfl
@[simp] theorem State.setReg_jit (s : State) (n : Byte) (v : Word) : (s.setReg n v).jit = s.jit := rfl
@[simp] theorem State.setReg_rtc (s : State) (n : Byte) (v : Word) : (s.setReg n v).rtc = s.rtc := rfl
@[simp] theorem State.setReg_ic (s : State) (n : Byte) (v : Word) : (s.setReg n v).ic = s.ic := rfl
@[simp] theorem State.setReg_ar (s : State) (n : Byte) (v : Word) : (s.setReg n v).ar = s.ar := rfl
@[simp] theorem State.setReg_arValid (s : State) (n : Byte) (v : Word) : (s.setReg n v).arValid = s.arValid := rfl
@[simp] theorem State.setReg_keys (s : State) (n : Byte) (v : Word) : (s.setReg n v).keys = s.keys := rfl
@[simp] theorem State.setReg_jobRF (s : State) (n : Byte) (v : Word) : (s.setReg n v).jobRF = s.jobRF := rfl
@[simp] theorem State.setReg_invPkg (s : State) (n : Byte) (v : Word) : (s.setReg n v).invPkg = s.invPkg := rfl
@[simp] theorem State.setReg_xfer (s : State) (n : Byte) (v : Word) : (s.setReg n v).xfer = s.xfer := rfl
@[simp] theorem State.setReg_dom (s : State) (n : Byte) (v : Word) : (s.setReg n v).dom = s.dom := rfl
@[simp] theorem State.setReg_link (s : State) (n : Byte) (v : Word) : (s.setReg n v).link = s.link := rfl
@[simp] theorem State.setReg_stale (s : State) (n : Byte) (v : Word) : (s.setReg n v).stale = s.stale := rfl
@[simp] theorem State.setReg_waits (s : State) (n : Byte) (v : Word) : (s.setReg n v).waits = s.waits := rfl
@[simp] theorem State.setReg_sent (s : State) (n : Byte) (v : Word) : (s.setReg n v).sent = s.sent := rfl
@[simp] theorem State.setReg_taken (s : State) (n : Byte) (v : Word) : (s.setReg n v).taken = s.taken := rfl
@[simp] theorem State.setReg_arrivals (s : State) (n : Byte) (v : Word) : (s.setReg n v).arrivals = s.arrivals := rfl
@[simp] theorem State.setReg_mem (s : State) (n : Byte) (v : Word) : (s.setReg n v).mem = s.mem := rfl
@[simp] theorem State.setReg_cb (s : State) (n : Byte) (v : Word) : (s.setReg n v).cb = s.cb := rfl
@[simp] theorem State.setReg_env (s : State) (n : Byte) (v : Word) : (s.setReg n v).env = s.env := rfl
@[simp] theorem State.setReg_time (s : State) (n : Byte) (v : Word) : (s.setReg n v).time = s.time := rfl
@[simp] theorem State.setReg_lag (s : State) (n : Byte) (v : Word) : (s.setReg n v).lag = s.lag := rfl
@[simp] theorem State.setReg_free (s : State) (n : Byte) (v : Word) : (s.setReg n v).free = s.free := rfl

/-! ### `State.setReg32` -/

@[simp] theorem State.setReg32_params (s : State) (d : Byte) (v : Half) : (s.setReg32 d v).params = s.params := rfl
@[simp] theorem State.setReg32_mode (s : State) (d : Byte) (v : Half) : (s.setReg32 d v).mode = s.mode := rfl
@[simp] theorem State.setReg32_pc (s : State) (d : Byte) (v : Half) : (s.setReg32 d v).pc = s.pc := rfl
@[simp] theorem State.setReg32_dfr (s : State) (d : Byte) (v : Half) : (s.setReg32 d v).dfr = s.dfr := rfl
@[simp] theorem State.setReg32_ir (s : State) (d : Byte) (v : Half) : (s.setReg32 d v).ir = s.ir := rfl
@[simp] theorem State.setReg32_bkpt (s : State) (d : Byte) (v : Half) : (s.setReg32 d v).bkpt = s.bkpt := rfl
@[simp] theorem State.setReg32_serial (s : State) (d : Byte) (v : Half) : (s.setReg32 d v).serial = s.serial := rfl
@[simp] theorem State.setReg32_forceExec (s : State) (d : Byte) (v : Half) : (s.setReg32 d v).forceExec = s.forceExec := rfl
@[simp] theorem State.setReg32_faultTest (s : State) (d : Byte) (v : Half) : (s.setReg32 d v).faultTest = s.faultTest := rfl
@[simp] theorem State.setReg32_mit (s : State) (d : Byte) (v : Half) : (s.setReg32 d v).mit = s.mit := rfl
@[simp] theorem State.setReg32_jit (s : State) (d : Byte) (v : Half) : (s.setReg32 d v).jit = s.jit := rfl
@[simp] theorem State.setReg32_rtc (s : State) (d : Byte) (v : Half) : (s.setReg32 d v).rtc = s.rtc := rfl
@[simp] theorem State.setReg32_ic (s : State) (d : Byte) (v : Half) : (s.setReg32 d v).ic = s.ic := rfl
@[simp] theorem State.setReg32_ar (s : State) (d : Byte) (v : Half) : (s.setReg32 d v).ar = s.ar := rfl
@[simp] theorem State.setReg32_arValid (s : State) (d : Byte) (v : Half) : (s.setReg32 d v).arValid = s.arValid := rfl
@[simp] theorem State.setReg32_keys (s : State) (d : Byte) (v : Half) : (s.setReg32 d v).keys = s.keys := rfl
@[simp] theorem State.setReg32_jobRF (s : State) (d : Byte) (v : Half) : (s.setReg32 d v).jobRF = s.jobRF := rfl
@[simp] theorem State.setReg32_invPkg (s : State) (d : Byte) (v : Half) : (s.setReg32 d v).invPkg = s.invPkg := rfl
@[simp] theorem State.setReg32_xfer (s : State) (d : Byte) (v : Half) : (s.setReg32 d v).xfer = s.xfer := rfl
@[simp] theorem State.setReg32_dom (s : State) (d : Byte) (v : Half) : (s.setReg32 d v).dom = s.dom := rfl
@[simp] theorem State.setReg32_link (s : State) (d : Byte) (v : Half) : (s.setReg32 d v).link = s.link := rfl
@[simp] theorem State.setReg32_stale (s : State) (d : Byte) (v : Half) : (s.setReg32 d v).stale = s.stale := rfl
@[simp] theorem State.setReg32_waits (s : State) (d : Byte) (v : Half) : (s.setReg32 d v).waits = s.waits := rfl
@[simp] theorem State.setReg32_sent (s : State) (d : Byte) (v : Half) : (s.setReg32 d v).sent = s.sent := rfl
@[simp] theorem State.setReg32_taken (s : State) (d : Byte) (v : Half) : (s.setReg32 d v).taken = s.taken := rfl
@[simp] theorem State.setReg32_arrivals (s : State) (d : Byte) (v : Half) : (s.setReg32 d v).arrivals = s.arrivals := rfl
@[simp] theorem State.setReg32_mem (s : State) (d : Byte) (v : Half) : (s.setReg32 d v).mem = s.mem := rfl
@[simp] theorem State.setReg32_cb (s : State) (d : Byte) (v : Half) : (s.setReg32 d v).cb = s.cb := rfl
@[simp] theorem State.setReg32_env (s : State) (d : Byte) (v : Half) : (s.setReg32 d v).env = s.env := rfl
@[simp] theorem State.setReg32_time (s : State) (d : Byte) (v : Half) : (s.setReg32 d v).time = s.time := rfl
@[simp] theorem State.setReg32_lag (s : State) (d : Byte) (v : Half) : (s.setReg32 d v).lag = s.lag := rfl
@[simp] theorem State.setReg32_free (s : State) (d : Byte) (v : Half) : (s.setReg32 d v).free = s.free := rfl

/-! ### `State.goto` -/

@[simp] theorem State.goto_params (s : State) (a : Addr) : (s.goto a).params = s.params := rfl
@[simp] theorem State.goto_mode (s : State) (a : Addr) : (s.goto a).mode = s.mode := rfl
@[simp] theorem State.goto_regs (s : State) (a : Addr) : (s.goto a).regs = s.regs := rfl
@[simp] theorem State.goto_dfr (s : State) (a : Addr) : (s.goto a).dfr = s.dfr := rfl
@[simp] theorem State.goto_ir (s : State) (a : Addr) : (s.goto a).ir = s.ir := rfl
@[simp] theorem State.goto_bkpt (s : State) (a : Addr) : (s.goto a).bkpt = s.bkpt := rfl
@[simp] theorem State.goto_serial (s : State) (a : Addr) : (s.goto a).serial = s.serial := rfl
@[simp] theorem State.goto_forceExec (s : State) (a : Addr) : (s.goto a).forceExec = s.forceExec := rfl
@[simp] theorem State.goto_faultTest (s : State) (a : Addr) : (s.goto a).faultTest = s.faultTest := rfl
@[simp] theorem State.goto_mit (s : State) (a : Addr) : (s.goto a).mit = s.mit := rfl
@[simp] theorem State.goto_jit (s : State) (a : Addr) : (s.goto a).jit = s.jit := rfl
@[simp] theorem State.goto_rtc (s : State) (a : Addr) : (s.goto a).rtc = s.rtc := rfl
@[simp] theorem State.goto_ic (s : State) (a : Addr) : (s.goto a).ic = s.ic := rfl
@[simp] theorem State.goto_ar (s : State) (a : Addr) : (s.goto a).ar = s.ar := rfl
@[simp] theorem State.goto_arValid (s : State) (a : Addr) : (s.goto a).arValid = s.arValid := rfl
@[simp] theorem State.goto_keys (s : State) (a : Addr) : (s.goto a).keys = s.keys := rfl
@[simp] theorem State.goto_jobRF (s : State) (a : Addr) : (s.goto a).jobRF = s.jobRF := rfl
@[simp] theorem State.goto_invPkg (s : State) (a : Addr) : (s.goto a).invPkg = s.invPkg := rfl
@[simp] theorem State.goto_xfer (s : State) (a : Addr) : (s.goto a).xfer = s.xfer := rfl
@[simp] theorem State.goto_dom (s : State) (a : Addr) : (s.goto a).dom = s.dom := rfl
@[simp] theorem State.goto_link (s : State) (a : Addr) : (s.goto a).link = s.link := rfl
@[simp] theorem State.goto_stale (s : State) (a : Addr) : (s.goto a).stale = s.stale := rfl
@[simp] theorem State.goto_waits (s : State) (a : Addr) : (s.goto a).waits = s.waits := rfl
@[simp] theorem State.goto_sent (s : State) (a : Addr) : (s.goto a).sent = s.sent := rfl
@[simp] theorem State.goto_taken (s : State) (a : Addr) : (s.goto a).taken = s.taken := rfl
@[simp] theorem State.goto_arrivals (s : State) (a : Addr) : (s.goto a).arrivals = s.arrivals := rfl
@[simp] theorem State.goto_mem (s : State) (a : Addr) : (s.goto a).mem = s.mem := rfl
@[simp] theorem State.goto_cb (s : State) (a : Addr) : (s.goto a).cb = s.cb := rfl
@[simp] theorem State.goto_env (s : State) (a : Addr) : (s.goto a).env = s.env := rfl
@[simp] theorem State.goto_time (s : State) (a : Addr) : (s.goto a).time = s.time := rfl
@[simp] theorem State.goto_lag (s : State) (a : Addr) : (s.goto a).lag = s.lag := rfl
@[simp] theorem State.goto_free (s : State) (a : Addr) : (s.goto a).free = s.free := rfl

/-! ### `State.next32` -/

@[simp] theorem State.next32_params (s : State) : (s.next32).params = s.params := rfl
@[simp] theorem State.next32_mode (s : State) : (s.next32).mode = s.mode := rfl
@[simp] theorem State.next32_regs (s : State) : (s.next32).regs = s.regs := rfl
@[simp] theorem State.next32_dfr (s : State) : (s.next32).dfr = s.dfr := rfl
@[simp] theorem State.next32_ir (s : State) : (s.next32).ir = s.ir := rfl
@[simp] theorem State.next32_bkpt (s : State) : (s.next32).bkpt = s.bkpt := rfl
@[simp] theorem State.next32_serial (s : State) : (s.next32).serial = s.serial := rfl
@[simp] theorem State.next32_forceExec (s : State) : (s.next32).forceExec = s.forceExec := rfl
@[simp] theorem State.next32_faultTest (s : State) : (s.next32).faultTest = s.faultTest := rfl
@[simp] theorem State.next32_mit (s : State) : (s.next32).mit = s.mit := rfl
@[simp] theorem State.next32_jit (s : State) : (s.next32).jit = s.jit := rfl
@[simp] theorem State.next32_rtc (s : State) : (s.next32).rtc = s.rtc := rfl
@[simp] theorem State.next32_ic (s : State) : (s.next32).ic = s.ic := rfl
@[simp] theorem State.next32_ar (s : State) : (s.next32).ar = s.ar := rfl
@[simp] theorem State.next32_arValid (s : State) : (s.next32).arValid = s.arValid := rfl
@[simp] theorem State.next32_keys (s : State) : (s.next32).keys = s.keys := rfl
@[simp] theorem State.next32_jobRF (s : State) : (s.next32).jobRF = s.jobRF := rfl
@[simp] theorem State.next32_invPkg (s : State) : (s.next32).invPkg = s.invPkg := rfl
@[simp] theorem State.next32_xfer (s : State) : (s.next32).xfer = s.xfer := rfl
@[simp] theorem State.next32_dom (s : State) : (s.next32).dom = s.dom := rfl
@[simp] theorem State.next32_link (s : State) : (s.next32).link = s.link := rfl
@[simp] theorem State.next32_stale (s : State) : (s.next32).stale = s.stale := rfl
@[simp] theorem State.next32_waits (s : State) : (s.next32).waits = s.waits := rfl
@[simp] theorem State.next32_sent (s : State) : (s.next32).sent = s.sent := rfl
@[simp] theorem State.next32_taken (s : State) : (s.next32).taken = s.taken := rfl
@[simp] theorem State.next32_arrivals (s : State) : (s.next32).arrivals = s.arrivals := rfl
@[simp] theorem State.next32_mem (s : State) : (s.next32).mem = s.mem := rfl
@[simp] theorem State.next32_cb (s : State) : (s.next32).cb = s.cb := rfl
@[simp] theorem State.next32_env (s : State) : (s.next32).env = s.env := rfl
@[simp] theorem State.next32_time (s : State) : (s.next32).time = s.time := rfl
@[simp] theorem State.next32_lag (s : State) : (s.next32).lag = s.lag := rfl
@[simp] theorem State.next32_free (s : State) : (s.next32).free = s.free := rfl

/-! ### `State.next64` -/

@[simp] theorem State.next64_params (s : State) : (s.next64).params = s.params := rfl
@[simp] theorem State.next64_mode (s : State) : (s.next64).mode = s.mode := rfl
@[simp] theorem State.next64_regs (s : State) : (s.next64).regs = s.regs := rfl
@[simp] theorem State.next64_dfr (s : State) : (s.next64).dfr = s.dfr := rfl
@[simp] theorem State.next64_ir (s : State) : (s.next64).ir = s.ir := rfl
@[simp] theorem State.next64_bkpt (s : State) : (s.next64).bkpt = s.bkpt := rfl
@[simp] theorem State.next64_serial (s : State) : (s.next64).serial = s.serial := rfl
@[simp] theorem State.next64_forceExec (s : State) : (s.next64).forceExec = s.forceExec := rfl
@[simp] theorem State.next64_faultTest (s : State) : (s.next64).faultTest = s.faultTest := rfl
@[simp] theorem State.next64_mit (s : State) : (s.next64).mit = s.mit := rfl
@[simp] theorem State.next64_jit (s : State) : (s.next64).jit = s.jit := rfl
@[simp] theorem State.next64_rtc (s : State) : (s.next64).rtc = s.rtc := rfl
@[simp] theorem State.next64_ic (s : State) : (s.next64).ic = s.ic := rfl
@[simp] theorem State.next64_ar (s : State) : (s.next64).ar = s.ar := rfl
@[simp] theorem State.next64_arValid (s : State) : (s.next64).arValid = s.arValid := rfl
@[simp] theorem State.next64_keys (s : State) : (s.next64).keys = s.keys := rfl
@[simp] theorem State.next64_jobRF (s : State) : (s.next64).jobRF = s.jobRF := rfl
@[simp] theorem State.next64_invPkg (s : State) : (s.next64).invPkg = s.invPkg := rfl
@[simp] theorem State.next64_xfer (s : State) : (s.next64).xfer = s.xfer := rfl
@[simp] theorem State.next64_dom (s : State) : (s.next64).dom = s.dom := rfl
@[simp] theorem State.next64_link (s : State) : (s.next64).link = s.link := rfl
@[simp] theorem State.next64_stale (s : State) : (s.next64).stale = s.stale := rfl
@[simp] theorem State.next64_waits (s : State) : (s.next64).waits = s.waits := rfl
@[simp] theorem State.next64_sent (s : State) : (s.next64).sent = s.sent := rfl
@[simp] theorem State.next64_taken (s : State) : (s.next64).taken = s.taken := rfl
@[simp] theorem State.next64_arrivals (s : State) : (s.next64).arrivals = s.arrivals := rfl
@[simp] theorem State.next64_mem (s : State) : (s.next64).mem = s.mem := rfl
@[simp] theorem State.next64_cb (s : State) : (s.next64).cb = s.cb := rfl
@[simp] theorem State.next64_env (s : State) : (s.next64).env = s.env := rfl
@[simp] theorem State.next64_time (s : State) : (s.next64).time = s.time := rfl
@[simp] theorem State.next64_lag (s : State) : (s.next64).lag = s.lag := rfl
@[simp] theorem State.next64_free (s : State) : (s.next64).free = s.free := rfl

/-! ### `State.setDfr` -/

@[simp] theorem State.setDfr_params (s : State) (x : Word) : (s.setDfr x).params = s.params := rfl
@[simp] theorem State.setDfr_mode (s : State) (x : Word) : (s.setDfr x).mode = s.mode := rfl
@[simp] theorem State.setDfr_pc (s : State) (x : Word) : (s.setDfr x).pc = s.pc := rfl
@[simp] theorem State.setDfr_regs (s : State) (x : Word) : (s.setDfr x).regs = s.regs := rfl
@[simp] theorem State.setDfr_ir (s : State) (x : Word) : (s.setDfr x).ir = s.ir := rfl
@[simp] theorem State.setDfr_bkpt (s : State) (x : Word) : (s.setDfr x).bkpt = s.bkpt := rfl
@[simp] theorem State.setDfr_serial (s : State) (x : Word) : (s.setDfr x).serial = s.serial := rfl
@[simp] theorem State.setDfr_forceExec (s : State) (x : Word) : (s.setDfr x).forceExec = s.forceExec := rfl
@[simp] theorem State.setDfr_faultTest (s : State) (x : Word) : (s.setDfr x).faultTest = s.faultTest := rfl
@[simp] theorem State.setDfr_mit (s : State) (x : Word) : (s.setDfr x).mit = s.mit := rfl
@[simp] theorem State.setDfr_jit (s : State) (x : Word) : (s.setDfr x).jit = s.jit := rfl
@[simp] theorem State.setDfr_rtc (s : State) (x : Word) : (s.setDfr x).rtc = s.rtc := rfl
@[simp] theorem State.setDfr_ic (s : State) (x : Word) : (s.setDfr x).ic = s.ic := rfl
@[simp] theorem State.setDfr_ar (s : State) (x : Word) : (s.setDfr x).ar = s.ar := rfl
@[simp] theorem State.setDfr_arValid (s : State) (x : Word) : (s.setDfr x).arValid = s.arValid := rfl
@[simp] theorem State.setDfr_keys (s : State) (x : Word) : (s.setDfr x).keys = s.keys := rfl
@[simp] theorem State.setDfr_jobRF (s : State) (x : Word) : (s.setDfr x).jobRF = s.jobRF := rfl
@[simp] theorem State.setDfr_invPkg (s : State) (x : Word) : (s.setDfr x).invPkg = s.invPkg := rfl
@[simp] theorem State.setDfr_xfer (s : State) (x : Word) : (s.setDfr x).xfer = s.xfer := rfl
@[simp] theorem State.setDfr_dom (s : State) (x : Word) : (s.setDfr x).dom = s.dom := rfl
@[simp] theorem State.setDfr_link (s : State) (x : Word) : (s.setDfr x).link = s.link := rfl
@[simp] theorem State.setDfr_stale (s : State) (x : Word) : (s.setDfr x).stale = s.stale := rfl
@[simp] theorem State.setDfr_waits (s : State) (x : Word) : (s.setDfr x).waits = s.waits := rfl
@[simp] theorem State.setDfr_sent (s : State) (x : Word) : (s.setDfr x).sent = s.sent := rfl
@[simp] theorem State.setDfr_taken (s : State) (x : Word) : (s.setDfr x).taken = s.taken := rfl
@[simp] theorem State.setDfr_arrivals (s : State) (x : Word) : (s.setDfr x).arrivals = s.arrivals := rfl
@[simp] theorem State.setDfr_mem (s : State) (x : Word) : (s.setDfr x).mem = s.mem := rfl
@[simp] theorem State.setDfr_cb (s : State) (x : Word) : (s.setDfr x).cb = s.cb := rfl
@[simp] theorem State.setDfr_env (s : State) (x : Word) : (s.setDfr x).env = s.env := rfl
@[simp] theorem State.setDfr_time (s : State) (x : Word) : (s.setDfr x).time = s.time := rfl
@[simp] theorem State.setDfr_lag (s : State) (x : Word) : (s.setDfr x).lag = s.lag := rfl
@[simp] theorem State.setDfr_free (s : State) (x : Word) : (s.setDfr x).free = s.free := rfl

/-! ### `State.setFlag` -/

@[simp] theorem State.setFlag_params (s : State) (i : Nat) (v : Bool) : (s.setFlag i v).params = s.params := rfl
@[simp] theorem State.setFlag_mode (s : State) (i : Nat) (v : Bool) : (s.setFlag i v).mode = s.mode := rfl
@[simp] theorem State.setFlag_pc (s : State) (i : Nat) (v : Bool) : (s.setFlag i v).pc = s.pc := rfl
@[simp] theorem State.setFlag_regs (s : State) (i : Nat) (v : Bool) : (s.setFlag i v).regs = s.regs := rfl
@[simp] theorem State.setFlag_ir (s : State) (i : Nat) (v : Bool) : (s.setFlag i v).ir = s.ir := rfl
@[simp] theorem State.setFlag_bkpt (s : State) (i : Nat) (v : Bool) : (s.setFlag i v).bkpt = s.bkpt := rfl
@[simp] theorem State.setFlag_serial (s : State) (i : Nat) (v : Bool) : (s.setFlag i v).serial = s.serial := rfl
@[simp] theorem State.setFlag_forceExec (s : State) (i : Nat) (v : Bool) : (s.setFlag i v).forceExec = s.forceExec := rfl
@[simp] theorem State.setFlag_faultTest (s : State) (i : Nat) (v : Bool) : (s.setFlag i v).faultTest = s.faultTest := rfl
@[simp] theorem State.setFlag_mit (s : State) (i : Nat) (v : Bool) : (s.setFlag i v).mit = s.mit := rfl
@[simp] theorem State.setFlag_jit (s : State) (i : Nat) (v : Bool) : (s.setFlag i v).jit = s.jit := rfl
@[simp] theorem State.setFlag_rtc (s : State) (i : Nat) (v : Bool) : (s.setFlag i v).rtc = s.rtc := rfl
@[simp] theorem State.setFlag_ic (s : State) (i : Nat) (v : Bool) : (s.setFlag i v).ic = s.ic := rfl
@[simp] theorem State.setFlag_ar (s : State) (i : Nat) (v : Bool) : (s.setFlag i v).ar = s.ar := rfl
@[simp] theorem State.setFlag_arValid (s : State) (i : Nat) (v : Bool) : (s.setFlag i v).arValid = s.arValid := rfl
@[simp] theorem State.setFlag_keys (s : State) (i : Nat) (v : Bool) : (s.setFlag i v).keys = s.keys := rfl
@[simp] theorem State.setFlag_jobRF (s : State) (i : Nat) (v : Bool) : (s.setFlag i v).jobRF = s.jobRF := rfl
@[simp] theorem State.setFlag_invPkg (s : State) (i : Nat) (v : Bool) : (s.setFlag i v).invPkg = s.invPkg := rfl
@[simp] theorem State.setFlag_xfer (s : State) (i : Nat) (v : Bool) : (s.setFlag i v).xfer = s.xfer := rfl
@[simp] theorem State.setFlag_dom (s : State) (i : Nat) (v : Bool) : (s.setFlag i v).dom = s.dom := rfl
@[simp] theorem State.setFlag_link (s : State) (i : Nat) (v : Bool) : (s.setFlag i v).link = s.link := rfl
@[simp] theorem State.setFlag_stale (s : State) (i : Nat) (v : Bool) : (s.setFlag i v).stale = s.stale := rfl
@[simp] theorem State.setFlag_waits (s : State) (i : Nat) (v : Bool) : (s.setFlag i v).waits = s.waits := rfl
@[simp] theorem State.setFlag_sent (s : State) (i : Nat) (v : Bool) : (s.setFlag i v).sent = s.sent := rfl
@[simp] theorem State.setFlag_taken (s : State) (i : Nat) (v : Bool) : (s.setFlag i v).taken = s.taken := rfl
@[simp] theorem State.setFlag_arrivals (s : State) (i : Nat) (v : Bool) : (s.setFlag i v).arrivals = s.arrivals := rfl
@[simp] theorem State.setFlag_mem (s : State) (i : Nat) (v : Bool) : (s.setFlag i v).mem = s.mem := rfl
@[simp] theorem State.setFlag_cb (s : State) (i : Nat) (v : Bool) : (s.setFlag i v).cb = s.cb := rfl
@[simp] theorem State.setFlag_env (s : State) (i : Nat) (v : Bool) : (s.setFlag i v).env = s.env := rfl
@[simp] theorem State.setFlag_time (s : State) (i : Nat) (v : Bool) : (s.setFlag i v).time = s.time := rfl
@[simp] theorem State.setFlag_lag (s : State) (i : Nat) (v : Bool) : (s.setFlag i v).lag = s.lag := rfl
@[simp] theorem State.setFlag_free (s : State) (i : Nat) (v : Bool) : (s.setFlag i v).free = s.free := rfl

/-! ### `State.raiseFlags` -/

@[simp] theorem State.raiseFlags_params (s : State) (k : FlagKind) (f : FpFlags) : (s.raiseFlags k f).params = s.params := rfl
@[simp] theorem State.raiseFlags_mode (s : State) (k : FlagKind) (f : FpFlags) : (s.raiseFlags k f).mode = s.mode := rfl
@[simp] theorem State.raiseFlags_pc (s : State) (k : FlagKind) (f : FpFlags) : (s.raiseFlags k f).pc = s.pc := rfl
@[simp] theorem State.raiseFlags_regs (s : State) (k : FlagKind) (f : FpFlags) : (s.raiseFlags k f).regs = s.regs := rfl
@[simp] theorem State.raiseFlags_ir (s : State) (k : FlagKind) (f : FpFlags) : (s.raiseFlags k f).ir = s.ir := rfl
@[simp] theorem State.raiseFlags_bkpt (s : State) (k : FlagKind) (f : FpFlags) : (s.raiseFlags k f).bkpt = s.bkpt := rfl
@[simp] theorem State.raiseFlags_serial (s : State) (k : FlagKind) (f : FpFlags) : (s.raiseFlags k f).serial = s.serial := rfl
@[simp] theorem State.raiseFlags_forceExec (s : State) (k : FlagKind) (f : FpFlags) : (s.raiseFlags k f).forceExec = s.forceExec := rfl
@[simp] theorem State.raiseFlags_faultTest (s : State) (k : FlagKind) (f : FpFlags) : (s.raiseFlags k f).faultTest = s.faultTest := rfl
@[simp] theorem State.raiseFlags_mit (s : State) (k : FlagKind) (f : FpFlags) : (s.raiseFlags k f).mit = s.mit := rfl
@[simp] theorem State.raiseFlags_jit (s : State) (k : FlagKind) (f : FpFlags) : (s.raiseFlags k f).jit = s.jit := rfl
@[simp] theorem State.raiseFlags_rtc (s : State) (k : FlagKind) (f : FpFlags) : (s.raiseFlags k f).rtc = s.rtc := rfl
@[simp] theorem State.raiseFlags_ic (s : State) (k : FlagKind) (f : FpFlags) : (s.raiseFlags k f).ic = s.ic := rfl
@[simp] theorem State.raiseFlags_ar (s : State) (k : FlagKind) (f : FpFlags) : (s.raiseFlags k f).ar = s.ar := rfl
@[simp] theorem State.raiseFlags_arValid (s : State) (k : FlagKind) (f : FpFlags) : (s.raiseFlags k f).arValid = s.arValid := rfl
@[simp] theorem State.raiseFlags_keys (s : State) (k : FlagKind) (f : FpFlags) : (s.raiseFlags k f).keys = s.keys := rfl
@[simp] theorem State.raiseFlags_jobRF (s : State) (k : FlagKind) (f : FpFlags) : (s.raiseFlags k f).jobRF = s.jobRF := rfl
@[simp] theorem State.raiseFlags_invPkg (s : State) (k : FlagKind) (f : FpFlags) : (s.raiseFlags k f).invPkg = s.invPkg := rfl
@[simp] theorem State.raiseFlags_xfer (s : State) (k : FlagKind) (f : FpFlags) : (s.raiseFlags k f).xfer = s.xfer := rfl
@[simp] theorem State.raiseFlags_dom (s : State) (k : FlagKind) (f : FpFlags) : (s.raiseFlags k f).dom = s.dom := rfl
@[simp] theorem State.raiseFlags_link (s : State) (k : FlagKind) (f : FpFlags) : (s.raiseFlags k f).link = s.link := rfl
@[simp] theorem State.raiseFlags_stale (s : State) (k : FlagKind) (f : FpFlags) : (s.raiseFlags k f).stale = s.stale := rfl
@[simp] theorem State.raiseFlags_waits (s : State) (k : FlagKind) (f : FpFlags) : (s.raiseFlags k f).waits = s.waits := rfl
@[simp] theorem State.raiseFlags_sent (s : State) (k : FlagKind) (f : FpFlags) : (s.raiseFlags k f).sent = s.sent := rfl
@[simp] theorem State.raiseFlags_taken (s : State) (k : FlagKind) (f : FpFlags) : (s.raiseFlags k f).taken = s.taken := rfl
@[simp] theorem State.raiseFlags_arrivals (s : State) (k : FlagKind) (f : FpFlags) : (s.raiseFlags k f).arrivals = s.arrivals := rfl
@[simp] theorem State.raiseFlags_mem (s : State) (k : FlagKind) (f : FpFlags) : (s.raiseFlags k f).mem = s.mem := rfl
@[simp] theorem State.raiseFlags_cb (s : State) (k : FlagKind) (f : FpFlags) : (s.raiseFlags k f).cb = s.cb := rfl
@[simp] theorem State.raiseFlags_env (s : State) (k : FlagKind) (f : FpFlags) : (s.raiseFlags k f).env = s.env := rfl
@[simp] theorem State.raiseFlags_time (s : State) (k : FlagKind) (f : FpFlags) : (s.raiseFlags k f).time = s.time := rfl
@[simp] theorem State.raiseFlags_lag (s : State) (k : FlagKind) (f : FpFlags) : (s.raiseFlags k f).lag = s.lag := rfl
@[simp] theorem State.raiseFlags_free (s : State) (k : FlagKind) (f : FpFlags) : (s.raiseFlags k f).free = s.free := rfl

/-! ### `State.setFreeFlags` -/

@[simp] theorem State.setFreeFlags_params (s : State) (a b c : Option Bool) : (s.setFreeFlags a b c).params = s.params := rfl
@[simp] theorem State.setFreeFlags_mode (s : State) (a b c : Option Bool) : (s.setFreeFlags a b c).mode = s.mode := rfl
@[simp] theorem State.setFreeFlags_pc (s : State) (a b c : Option Bool) : (s.setFreeFlags a b c).pc = s.pc := rfl
@[simp] theorem State.setFreeFlags_regs (s : State) (a b c : Option Bool) : (s.setFreeFlags a b c).regs = s.regs := rfl
@[simp] theorem State.setFreeFlags_ir (s : State) (a b c : Option Bool) : (s.setFreeFlags a b c).ir = s.ir := rfl
@[simp] theorem State.setFreeFlags_bkpt (s : State) (a b c : Option Bool) : (s.setFreeFlags a b c).bkpt = s.bkpt := rfl
@[simp] theorem State.setFreeFlags_serial (s : State) (a b c : Option Bool) : (s.setFreeFlags a b c).serial = s.serial := rfl
@[simp] theorem State.setFreeFlags_forceExec (s : State) (a b c : Option Bool) : (s.setFreeFlags a b c).forceExec = s.forceExec := rfl
@[simp] theorem State.setFreeFlags_faultTest (s : State) (a b c : Option Bool) : (s.setFreeFlags a b c).faultTest = s.faultTest := rfl
@[simp] theorem State.setFreeFlags_mit (s : State) (a b c : Option Bool) : (s.setFreeFlags a b c).mit = s.mit := rfl
@[simp] theorem State.setFreeFlags_jit (s : State) (a b c : Option Bool) : (s.setFreeFlags a b c).jit = s.jit := rfl
@[simp] theorem State.setFreeFlags_rtc (s : State) (a b c : Option Bool) : (s.setFreeFlags a b c).rtc = s.rtc := rfl
@[simp] theorem State.setFreeFlags_ic (s : State) (a b c : Option Bool) : (s.setFreeFlags a b c).ic = s.ic := rfl
@[simp] theorem State.setFreeFlags_ar (s : State) (a b c : Option Bool) : (s.setFreeFlags a b c).ar = s.ar := rfl
@[simp] theorem State.setFreeFlags_arValid (s : State) (a b c : Option Bool) : (s.setFreeFlags a b c).arValid = s.arValid := rfl
@[simp] theorem State.setFreeFlags_keys (s : State) (a b c : Option Bool) : (s.setFreeFlags a b c).keys = s.keys := rfl
@[simp] theorem State.setFreeFlags_jobRF (s : State) (a b c : Option Bool) : (s.setFreeFlags a b c).jobRF = s.jobRF := rfl
@[simp] theorem State.setFreeFlags_invPkg (s : State) (a b c : Option Bool) : (s.setFreeFlags a b c).invPkg = s.invPkg := rfl
@[simp] theorem State.setFreeFlags_xfer (s : State) (a b c : Option Bool) : (s.setFreeFlags a b c).xfer = s.xfer := rfl
@[simp] theorem State.setFreeFlags_dom (s : State) (a b c : Option Bool) : (s.setFreeFlags a b c).dom = s.dom := rfl
@[simp] theorem State.setFreeFlags_link (s : State) (a b c : Option Bool) : (s.setFreeFlags a b c).link = s.link := rfl
@[simp] theorem State.setFreeFlags_stale (s : State) (a b c : Option Bool) : (s.setFreeFlags a b c).stale = s.stale := rfl
@[simp] theorem State.setFreeFlags_waits (s : State) (a b c : Option Bool) : (s.setFreeFlags a b c).waits = s.waits := rfl
@[simp] theorem State.setFreeFlags_sent (s : State) (a b c : Option Bool) : (s.setFreeFlags a b c).sent = s.sent := rfl
@[simp] theorem State.setFreeFlags_taken (s : State) (a b c : Option Bool) : (s.setFreeFlags a b c).taken = s.taken := rfl
@[simp] theorem State.setFreeFlags_arrivals (s : State) (a b c : Option Bool) : (s.setFreeFlags a b c).arrivals = s.arrivals := rfl
@[simp] theorem State.setFreeFlags_mem (s : State) (a b c : Option Bool) : (s.setFreeFlags a b c).mem = s.mem := rfl
@[simp] theorem State.setFreeFlags_cb (s : State) (a b c : Option Bool) : (s.setFreeFlags a b c).cb = s.cb := rfl
@[simp] theorem State.setFreeFlags_env (s : State) (a b c : Option Bool) : (s.setFreeFlags a b c).env = s.env := rfl
@[simp] theorem State.setFreeFlags_time (s : State) (a b c : Option Bool) : (s.setFreeFlags a b c).time = s.time := rfl
@[simp] theorem State.setFreeFlags_lag (s : State) (a b c : Option Bool) : (s.setFreeFlags a b c).lag = s.lag := rfl

/-! ### `State.voidStack` -/

@[simp] theorem State.voidStack_params (s : State) : (s.voidStack).params = s.params := rfl
@[simp] theorem State.voidStack_mode (s : State) : (s.voidStack).mode = s.mode := rfl
@[simp] theorem State.voidStack_pc (s : State) : (s.voidStack).pc = s.pc := rfl
@[simp] theorem State.voidStack_regs (s : State) : (s.voidStack).regs = s.regs := rfl
@[simp] theorem State.voidStack_dfr (s : State) : (s.voidStack).dfr = s.dfr := rfl
@[simp] theorem State.voidStack_ir (s : State) : (s.voidStack).ir = s.ir := rfl
@[simp] theorem State.voidStack_bkpt (s : State) : (s.voidStack).bkpt = s.bkpt := rfl
@[simp] theorem State.voidStack_serial (s : State) : (s.voidStack).serial = s.serial := rfl
@[simp] theorem State.voidStack_forceExec (s : State) : (s.voidStack).forceExec = s.forceExec := rfl
@[simp] theorem State.voidStack_faultTest (s : State) : (s.voidStack).faultTest = s.faultTest := rfl
@[simp] theorem State.voidStack_mit (s : State) : (s.voidStack).mit = s.mit := rfl
@[simp] theorem State.voidStack_jit (s : State) : (s.voidStack).jit = s.jit := rfl
@[simp] theorem State.voidStack_rtc (s : State) : (s.voidStack).rtc = s.rtc := rfl
@[simp] theorem State.voidStack_ic (s : State) : (s.voidStack).ic = s.ic := rfl
@[simp] theorem State.voidStack_ar (s : State) : (s.voidStack).ar = s.ar := rfl
@[simp] theorem State.voidStack_arValid (s : State) : (s.voidStack).arValid = s.arValid := rfl
@[simp] theorem State.voidStack_keys (s : State) : (s.voidStack).keys = s.keys := rfl
@[simp] theorem State.voidStack_jobRF (s : State) : (s.voidStack).jobRF = s.jobRF := rfl
@[simp] theorem State.voidStack_invPkg (s : State) : (s.voidStack).invPkg = s.invPkg := rfl
@[simp] theorem State.voidStack_xfer (s : State) : (s.voidStack).xfer = s.xfer := rfl
@[simp] theorem State.voidStack_dom (s : State) : (s.voidStack).dom = s.dom := rfl
@[simp] theorem State.voidStack_link (s : State) : (s.voidStack).link = s.link := rfl
@[simp] theorem State.voidStack_waits (s : State) : (s.voidStack).waits = s.waits := rfl
@[simp] theorem State.voidStack_sent (s : State) : (s.voidStack).sent = s.sent := rfl
@[simp] theorem State.voidStack_taken (s : State) : (s.voidStack).taken = s.taken := rfl
@[simp] theorem State.voidStack_arrivals (s : State) : (s.voidStack).arrivals = s.arrivals := rfl
@[simp] theorem State.voidStack_mem (s : State) : (s.voidStack).mem = s.mem := rfl
@[simp] theorem State.voidStack_cb (s : State) : (s.voidStack).cb = s.cb := rfl
@[simp] theorem State.voidStack_env (s : State) : (s.voidStack).env = s.env := rfl
@[simp] theorem State.voidStack_time (s : State) : (s.voidStack).time = s.time := rfl
@[simp] theorem State.voidStack_lag (s : State) : (s.voidStack).lag = s.lag := rfl
@[simp] theorem State.voidStack_free (s : State) : (s.voidStack).free = s.free := rfl

/-! ### `State.post` -/

@[simp] theorem State.post_params (s : State) (b : Nat) : (s.post b).params = s.params := rfl
@[simp] theorem State.post_mode (s : State) (b : Nat) : (s.post b).mode = s.mode := rfl
@[simp] theorem State.post_pc (s : State) (b : Nat) : (s.post b).pc = s.pc := rfl
@[simp] theorem State.post_regs (s : State) (b : Nat) : (s.post b).regs = s.regs := rfl
@[simp] theorem State.post_dfr (s : State) (b : Nat) : (s.post b).dfr = s.dfr := rfl
@[simp] theorem State.post_bkpt (s : State) (b : Nat) : (s.post b).bkpt = s.bkpt := rfl
@[simp] theorem State.post_serial (s : State) (b : Nat) : (s.post b).serial = s.serial := rfl
@[simp] theorem State.post_forceExec (s : State) (b : Nat) : (s.post b).forceExec = s.forceExec := rfl
@[simp] theorem State.post_faultTest (s : State) (b : Nat) : (s.post b).faultTest = s.faultTest := rfl
@[simp] theorem State.post_mit (s : State) (b : Nat) : (s.post b).mit = s.mit := rfl
@[simp] theorem State.post_jit (s : State) (b : Nat) : (s.post b).jit = s.jit := rfl
@[simp] theorem State.post_rtc (s : State) (b : Nat) : (s.post b).rtc = s.rtc := rfl
@[simp] theorem State.post_ic (s : State) (b : Nat) : (s.post b).ic = s.ic := rfl
@[simp] theorem State.post_ar (s : State) (b : Nat) : (s.post b).ar = s.ar := rfl
@[simp] theorem State.post_arValid (s : State) (b : Nat) : (s.post b).arValid = s.arValid := rfl
@[simp] theorem State.post_keys (s : State) (b : Nat) : (s.post b).keys = s.keys := rfl
@[simp] theorem State.post_jobRF (s : State) (b : Nat) : (s.post b).jobRF = s.jobRF := rfl
@[simp] theorem State.post_invPkg (s : State) (b : Nat) : (s.post b).invPkg = s.invPkg := rfl
@[simp] theorem State.post_xfer (s : State) (b : Nat) : (s.post b).xfer = s.xfer := rfl
@[simp] theorem State.post_dom (s : State) (b : Nat) : (s.post b).dom = s.dom := rfl
@[simp] theorem State.post_link (s : State) (b : Nat) : (s.post b).link = s.link := rfl
@[simp] theorem State.post_stale (s : State) (b : Nat) : (s.post b).stale = s.stale := rfl
@[simp] theorem State.post_waits (s : State) (b : Nat) : (s.post b).waits = s.waits := rfl
@[simp] theorem State.post_sent (s : State) (b : Nat) : (s.post b).sent = s.sent := rfl
@[simp] theorem State.post_taken (s : State) (b : Nat) : (s.post b).taken = s.taken := rfl
@[simp] theorem State.post_arrivals (s : State) (b : Nat) : (s.post b).arrivals = s.arrivals := rfl
@[simp] theorem State.post_mem (s : State) (b : Nat) : (s.post b).mem = s.mem := rfl
@[simp] theorem State.post_cb (s : State) (b : Nat) : (s.post b).cb = s.cb := rfl
@[simp] theorem State.post_env (s : State) (b : Nat) : (s.post b).env = s.env := rfl
@[simp] theorem State.post_time (s : State) (b : Nat) : (s.post b).time = s.time := rfl
@[simp] theorem State.post_lag (s : State) (b : Nat) : (s.post b).lag = s.lag := rfl
@[simp] theorem State.post_free (s : State) (b : Nat) : (s.post b).free = s.free := rfl

/-! ### `State.keepStale` -/

@[simp] theorem State.keepStale_params (s : State) (h n : Nat) : (s.keepStale h n).params = s.params := by unfold State.keepStale; split <;> rfl
@[simp] theorem State.keepStale_mode (s : State) (h n : Nat) : (s.keepStale h n).mode = s.mode := by unfold State.keepStale; split <;> rfl
@[simp] theorem State.keepStale_pc (s : State) (h n : Nat) : (s.keepStale h n).pc = s.pc := by unfold State.keepStale; split <;> rfl
@[simp] theorem State.keepStale_regs (s : State) (h n : Nat) : (s.keepStale h n).regs = s.regs := by unfold State.keepStale; split <;> rfl
@[simp] theorem State.keepStale_dfr (s : State) (h n : Nat) : (s.keepStale h n).dfr = s.dfr := by unfold State.keepStale; split <;> rfl
@[simp] theorem State.keepStale_ir (s : State) (h n : Nat) : (s.keepStale h n).ir = s.ir := by unfold State.keepStale; split <;> rfl
@[simp] theorem State.keepStale_bkpt (s : State) (h n : Nat) : (s.keepStale h n).bkpt = s.bkpt := by unfold State.keepStale; split <;> rfl
@[simp] theorem State.keepStale_serial (s : State) (h n : Nat) : (s.keepStale h n).serial = s.serial := by unfold State.keepStale; split <;> rfl
@[simp] theorem State.keepStale_forceExec (s : State) (h n : Nat) : (s.keepStale h n).forceExec = s.forceExec := by unfold State.keepStale; split <;> rfl
@[simp] theorem State.keepStale_faultTest (s : State) (h n : Nat) : (s.keepStale h n).faultTest = s.faultTest := by unfold State.keepStale; split <;> rfl
@[simp] theorem State.keepStale_mit (s : State) (h n : Nat) : (s.keepStale h n).mit = s.mit := by unfold State.keepStale; split <;> rfl
@[simp] theorem State.keepStale_jit (s : State) (h n : Nat) : (s.keepStale h n).jit = s.jit := by unfold State.keepStale; split <;> rfl
@[simp] theorem State.keepStale_rtc (s : State) (h n : Nat) : (s.keepStale h n).rtc = s.rtc := by unfold State.keepStale; split <;> rfl
@[simp] theorem State.keepStale_ic (s : State) (h n : Nat) : (s.keepStale h n).ic = s.ic := by unfold State.keepStale; split <;> rfl
@[simp] theorem State.keepStale_ar (s : State) (h n : Nat) : (s.keepStale h n).ar = s.ar := by unfold State.keepStale; split <;> rfl
@[simp] theorem State.keepStale_arValid (s : State) (h n : Nat) : (s.keepStale h n).arValid = s.arValid := by unfold State.keepStale; split <;> rfl
@[simp] theorem State.keepStale_keys (s : State) (h n : Nat) : (s.keepStale h n).keys = s.keys := by unfold State.keepStale; split <;> rfl
@[simp] theorem State.keepStale_jobRF (s : State) (h n : Nat) : (s.keepStale h n).jobRF = s.jobRF := by unfold State.keepStale; split <;> rfl
@[simp] theorem State.keepStale_invPkg (s : State) (h n : Nat) : (s.keepStale h n).invPkg = s.invPkg := by unfold State.keepStale; split <;> rfl
@[simp] theorem State.keepStale_xfer (s : State) (h n : Nat) : (s.keepStale h n).xfer = s.xfer := by unfold State.keepStale; split <;> rfl
@[simp] theorem State.keepStale_dom (s : State) (h n : Nat) : (s.keepStale h n).dom = s.dom := by unfold State.keepStale; split <;> rfl
@[simp] theorem State.keepStale_link (s : State) (h n : Nat) : (s.keepStale h n).link = s.link := by unfold State.keepStale; split <;> rfl
@[simp] theorem State.keepStale_waits (s : State) (h n : Nat) : (s.keepStale h n).waits = s.waits := by unfold State.keepStale; split <;> rfl
@[simp] theorem State.keepStale_sent (s : State) (h n : Nat) : (s.keepStale h n).sent = s.sent := by unfold State.keepStale; split <;> rfl
@[simp] theorem State.keepStale_taken (s : State) (h n : Nat) : (s.keepStale h n).taken = s.taken := by unfold State.keepStale; split <;> rfl
@[simp] theorem State.keepStale_arrivals (s : State) (h n : Nat) : (s.keepStale h n).arrivals = s.arrivals := by unfold State.keepStale; split <;> rfl
@[simp] theorem State.keepStale_mem (s : State) (h n : Nat) : (s.keepStale h n).mem = s.mem := by unfold State.keepStale; split <;> rfl
@[simp] theorem State.keepStale_cb (s : State) (h n : Nat) : (s.keepStale h n).cb = s.cb := by unfold State.keepStale; split <;> rfl
@[simp] theorem State.keepStale_env (s : State) (h n : Nat) : (s.keepStale h n).env = s.env := by unfold State.keepStale; split <;> rfl
@[simp] theorem State.keepStale_time (s : State) (h n : Nat) : (s.keepStale h n).time = s.time := by unfold State.keepStale; split <;> rfl
@[simp] theorem State.keepStale_lag (s : State) (h n : Nat) : (s.keepStale h n).lag = s.lag := by unfold State.keepStale; split <;> rfl
@[simp] theorem State.keepStale_free (s : State) (h n : Nat) : (s.keepStale h n).free = s.free := by unfold State.keepStale; split <;> rfl

/-! ### `State.breakpoint` -/

@[simp] theorem State.breakpoint_params (s : State) (b : Bool) (a : Addr) : (s.breakpoint b a).params = s.params := by unfold State.breakpoint; repeat (first | rfl | split)
@[simp] theorem State.breakpoint_mode (s : State) (b : Bool) (a : Addr) : (s.breakpoint b a).mode = s.mode := by unfold State.breakpoint; repeat (first | rfl | split)
@[simp] theorem State.breakpoint_pc (s : State) (b : Bool) (a : Addr) : (s.breakpoint b a).pc = s.pc := by unfold State.breakpoint; repeat (first | rfl | split)
@[simp] theorem State.breakpoint_regs (s : State) (b : Bool) (a : Addr) : (s.breakpoint b a).regs = s.regs := by unfold State.breakpoint; repeat (first | rfl | split)
@[simp] theorem State.breakpoint_ir (s : State) (b : Bool) (a : Addr) : (s.breakpoint b a).ir = s.ir := by unfold State.breakpoint; repeat (first | rfl | split)
@[simp] theorem State.breakpoint_bkpt (s : State) (b : Bool) (a : Addr) : (s.breakpoint b a).bkpt = s.bkpt := by unfold State.breakpoint; repeat (first | rfl | split)
@[simp] theorem State.breakpoint_serial (s : State) (b : Bool) (a : Addr) : (s.breakpoint b a).serial = s.serial := by unfold State.breakpoint; repeat (first | rfl | split)
@[simp] theorem State.breakpoint_forceExec (s : State) (b : Bool) (a : Addr) : (s.breakpoint b a).forceExec = s.forceExec := by unfold State.breakpoint; repeat (first | rfl | split)
@[simp] theorem State.breakpoint_faultTest (s : State) (b : Bool) (a : Addr) : (s.breakpoint b a).faultTest = s.faultTest := by unfold State.breakpoint; repeat (first | rfl | split)
@[simp] theorem State.breakpoint_mit (s : State) (b : Bool) (a : Addr) : (s.breakpoint b a).mit = s.mit := by unfold State.breakpoint; repeat (first | rfl | split)
@[simp] theorem State.breakpoint_jit (s : State) (b : Bool) (a : Addr) : (s.breakpoint b a).jit = s.jit := by unfold State.breakpoint; repeat (first | rfl | split)
@[simp] theorem State.breakpoint_rtc (s : State) (b : Bool) (a : Addr) : (s.breakpoint b a).rtc = s.rtc := by unfold State.breakpoint; repeat (first | rfl | split)
@[simp] theorem State.breakpoint_ic (s : State) (b : Bool) (a : Addr) : (s.breakpoint b a).ic = s.ic := by unfold State.breakpoint; repeat (first | rfl | split)
@[simp] theorem State.breakpoint_ar (s : State) (b : Bool) (a : Addr) : (s.breakpoint b a).ar = s.ar := by unfold State.breakpoint; repeat (first | rfl | split)
@[simp] theorem State.breakpoint_arValid (s : State) (b : Bool) (a : Addr) : (s.breakpoint b a).arValid = s.arValid := by unfold State.breakpoint; repeat (first | rfl | split)
@[simp] theorem State.breakpoint_keys (s : State) (b : Bool) (a : Addr) : (s.breakpoint b a).keys = s.keys := by unfold State.breakpoint; repeat (first | rfl | split)
@[simp] theorem State.breakpoint_jobRF (s : State) (b : Bool) (a : Addr) : (s.breakpoint b a).jobRF = s.jobRF := by unfold State.breakpoint; repeat (first | rfl | split)
@[simp] theorem State.breakpoint_invPkg (s : State) (b : Bool) (a : Addr) : (s.breakpoint b a).invPkg = s.invPkg := by unfold State.breakpoint; repeat (first | rfl | split)
@[simp] theorem State.breakpoint_xfer (s : State) (b : Bool) (a : Addr) : (s.breakpoint b a).xfer = s.xfer := by unfold State.breakpoint; repeat (first | rfl | split)
@[simp] theorem State.breakpoint_dom (s : State) (b : Bool) (a : Addr) : (s.breakpoint b a).dom = s.dom := by unfold State.breakpoint; repeat (first | rfl | split)
@[simp] theorem State.breakpoint_link (s : State) (b : Bool) (a : Addr) : (s.breakpoint b a).link = s.link := by unfold State.breakpoint; repeat (first | rfl | split)
@[simp] theorem State.breakpoint_stale (s : State) (b : Bool) (a : Addr) : (s.breakpoint b a).stale = s.stale := by unfold State.breakpoint; repeat (first | rfl | split)
@[simp] theorem State.breakpoint_waits (s : State) (b : Bool) (a : Addr) : (s.breakpoint b a).waits = s.waits := by unfold State.breakpoint; repeat (first | rfl | split)
@[simp] theorem State.breakpoint_sent (s : State) (b : Bool) (a : Addr) : (s.breakpoint b a).sent = s.sent := by unfold State.breakpoint; repeat (first | rfl | split)
@[simp] theorem State.breakpoint_taken (s : State) (b : Bool) (a : Addr) : (s.breakpoint b a).taken = s.taken := by unfold State.breakpoint; repeat (first | rfl | split)
@[simp] theorem State.breakpoint_arrivals (s : State) (b : Bool) (a : Addr) : (s.breakpoint b a).arrivals = s.arrivals := by unfold State.breakpoint; repeat (first | rfl | split)
@[simp] theorem State.breakpoint_mem (s : State) (b : Bool) (a : Addr) : (s.breakpoint b a).mem = s.mem := by unfold State.breakpoint; repeat (first | rfl | split)
@[simp] theorem State.breakpoint_cb (s : State) (b : Bool) (a : Addr) : (s.breakpoint b a).cb = s.cb := by unfold State.breakpoint; repeat (first | rfl | split)
@[simp] theorem State.breakpoint_env (s : State) (b : Bool) (a : Addr) : (s.breakpoint b a).env = s.env := by unfold State.breakpoint; repeat (first | rfl | split)
@[simp] theorem State.breakpoint_time (s : State) (b : Bool) (a : Addr) : (s.breakpoint b a).time = s.time := by unfold State.breakpoint; repeat (first | rfl | split)
@[simp] theorem State.breakpoint_lag (s : State) (b : Bool) (a : Addr) : (s.breakpoint b a).lag = s.lag := by unfold State.breakpoint; repeat (first | rfl | split)
@[simp] theorem State.breakpoint_free (s : State) (b : Bool) (a : Addr) : (s.breakpoint b a).free = s.free := by unfold State.breakpoint; repeat (first | rfl | split)

/-! ### `State.putWord` -/

@[simp] theorem State.putWord_params (s : State) (p : Nat) (v : Word) : (s.putWord p v).params = s.params := by simp [State.putWord]
@[simp] theorem State.putWord_mode (s : State) (p : Nat) (v : Word) : (s.putWord p v).mode = s.mode := by simp [State.putWord]
@[simp] theorem State.putWord_pc (s : State) (p : Nat) (v : Word) : (s.putWord p v).pc = s.pc := by simp [State.putWord]
@[simp] theorem State.putWord_regs (s : State) (p : Nat) (v : Word) : (s.putWord p v).regs = s.regs := by simp [State.putWord]
@[simp] theorem State.putWord_dfr (s : State) (p : Nat) (v : Word) : (s.putWord p v).dfr = s.dfr := by simp [State.putWord]
@[simp] theorem State.putWord_ir (s : State) (p : Nat) (v : Word) : (s.putWord p v).ir = s.ir := by simp [State.putWord]
@[simp] theorem State.putWord_bkpt (s : State) (p : Nat) (v : Word) : (s.putWord p v).bkpt = s.bkpt := by simp [State.putWord]
@[simp] theorem State.putWord_serial (s : State) (p : Nat) (v : Word) : (s.putWord p v).serial = s.serial := by simp [State.putWord]
@[simp] theorem State.putWord_forceExec (s : State) (p : Nat) (v : Word) : (s.putWord p v).forceExec = s.forceExec := by simp [State.putWord]
@[simp] theorem State.putWord_faultTest (s : State) (p : Nat) (v : Word) : (s.putWord p v).faultTest = s.faultTest := by simp [State.putWord]
@[simp] theorem State.putWord_mit (s : State) (p : Nat) (v : Word) : (s.putWord p v).mit = s.mit := by simp [State.putWord]
@[simp] theorem State.putWord_jit (s : State) (p : Nat) (v : Word) : (s.putWord p v).jit = s.jit := by simp [State.putWord]
@[simp] theorem State.putWord_rtc (s : State) (p : Nat) (v : Word) : (s.putWord p v).rtc = s.rtc := by simp [State.putWord]
@[simp] theorem State.putWord_ic (s : State) (p : Nat) (v : Word) : (s.putWord p v).ic = s.ic := by simp [State.putWord]
@[simp] theorem State.putWord_ar (s : State) (p : Nat) (v : Word) : (s.putWord p v).ar = s.ar := by simp [State.putWord]
@[simp] theorem State.putWord_arValid (s : State) (p : Nat) (v : Word) : (s.putWord p v).arValid = s.arValid := by simp [State.putWord]
@[simp] theorem State.putWord_keys (s : State) (p : Nat) (v : Word) : (s.putWord p v).keys = s.keys := by simp [State.putWord]
@[simp] theorem State.putWord_jobRF (s : State) (p : Nat) (v : Word) : (s.putWord p v).jobRF = s.jobRF := by simp [State.putWord]
@[simp] theorem State.putWord_invPkg (s : State) (p : Nat) (v : Word) : (s.putWord p v).invPkg = s.invPkg := by simp [State.putWord]
@[simp] theorem State.putWord_xfer (s : State) (p : Nat) (v : Word) : (s.putWord p v).xfer = s.xfer := by simp [State.putWord]
@[simp] theorem State.putWord_dom (s : State) (p : Nat) (v : Word) : (s.putWord p v).dom = s.dom := by simp [State.putWord]
@[simp] theorem State.putWord_link (s : State) (p : Nat) (v : Word) : (s.putWord p v).link = s.link := by simp [State.putWord]
@[simp] theorem State.putWord_waits (s : State) (p : Nat) (v : Word) : (s.putWord p v).waits = s.waits := by simp [State.putWord]
@[simp] theorem State.putWord_sent (s : State) (p : Nat) (v : Word) : (s.putWord p v).sent = s.sent := by simp [State.putWord]
@[simp] theorem State.putWord_taken (s : State) (p : Nat) (v : Word) : (s.putWord p v).taken = s.taken := by simp [State.putWord]
@[simp] theorem State.putWord_arrivals (s : State) (p : Nat) (v : Word) : (s.putWord p v).arrivals = s.arrivals := by simp [State.putWord]
@[simp] theorem State.putWord_cb (s : State) (p : Nat) (v : Word) : (s.putWord p v).cb = s.cb := by simp [State.putWord]
@[simp] theorem State.putWord_env (s : State) (p : Nat) (v : Word) : (s.putWord p v).env = s.env := by simp [State.putWord]
@[simp] theorem State.putWord_time (s : State) (p : Nat) (v : Word) : (s.putWord p v).time = s.time := by simp [State.putWord]
@[simp] theorem State.putWord_lag (s : State) (p : Nat) (v : Word) : (s.putWord p v).lag = s.lag := by simp [State.putWord]
@[simp] theorem State.putWord_free (s : State) (p : Nat) (v : Word) : (s.putWord p v).free = s.free := by simp [State.putWord]

/-! ### `State.putHalf` -/

@[simp] theorem State.putHalf_params (s : State) (p : Nat) (v : Half) : (s.putHalf p v).params = s.params := by simp [State.putHalf]
@[simp] theorem State.putHalf_mode (s : State) (p : Nat) (v : Half) : (s.putHalf p v).mode = s.mode := by simp [State.putHalf]
@[simp] theorem State.putHalf_pc (s : State) (p : Nat) (v : Half) : (s.putHalf p v).pc = s.pc := by simp [State.putHalf]
@[simp] theorem State.putHalf_regs (s : State) (p : Nat) (v : Half) : (s.putHalf p v).regs = s.regs := by simp [State.putHalf]
@[simp] theorem State.putHalf_dfr (s : State) (p : Nat) (v : Half) : (s.putHalf p v).dfr = s.dfr := by simp [State.putHalf]
@[simp] theorem State.putHalf_ir (s : State) (p : Nat) (v : Half) : (s.putHalf p v).ir = s.ir := by simp [State.putHalf]
@[simp] theorem State.putHalf_bkpt (s : State) (p : Nat) (v : Half) : (s.putHalf p v).bkpt = s.bkpt := by simp [State.putHalf]
@[simp] theorem State.putHalf_serial (s : State) (p : Nat) (v : Half) : (s.putHalf p v).serial = s.serial := by simp [State.putHalf]
@[simp] theorem State.putHalf_forceExec (s : State) (p : Nat) (v : Half) : (s.putHalf p v).forceExec = s.forceExec := by simp [State.putHalf]
@[simp] theorem State.putHalf_faultTest (s : State) (p : Nat) (v : Half) : (s.putHalf p v).faultTest = s.faultTest := by simp [State.putHalf]
@[simp] theorem State.putHalf_mit (s : State) (p : Nat) (v : Half) : (s.putHalf p v).mit = s.mit := by simp [State.putHalf]
@[simp] theorem State.putHalf_jit (s : State) (p : Nat) (v : Half) : (s.putHalf p v).jit = s.jit := by simp [State.putHalf]
@[simp] theorem State.putHalf_rtc (s : State) (p : Nat) (v : Half) : (s.putHalf p v).rtc = s.rtc := by simp [State.putHalf]
@[simp] theorem State.putHalf_ic (s : State) (p : Nat) (v : Half) : (s.putHalf p v).ic = s.ic := by simp [State.putHalf]
@[simp] theorem State.putHalf_ar (s : State) (p : Nat) (v : Half) : (s.putHalf p v).ar = s.ar := by simp [State.putHalf]
@[simp] theorem State.putHalf_arValid (s : State) (p : Nat) (v : Half) : (s.putHalf p v).arValid = s.arValid := by simp [State.putHalf]
@[simp] theorem State.putHalf_keys (s : State) (p : Nat) (v : Half) : (s.putHalf p v).keys = s.keys := by simp [State.putHalf]
@[simp] theorem State.putHalf_jobRF (s : State) (p : Nat) (v : Half) : (s.putHalf p v).jobRF = s.jobRF := by simp [State.putHalf]
@[simp] theorem State.putHalf_invPkg (s : State) (p : Nat) (v : Half) : (s.putHalf p v).invPkg = s.invPkg := by simp [State.putHalf]
@[simp] theorem State.putHalf_xfer (s : State) (p : Nat) (v : Half) : (s.putHalf p v).xfer = s.xfer := by simp [State.putHalf]
@[simp] theorem State.putHalf_dom (s : State) (p : Nat) (v : Half) : (s.putHalf p v).dom = s.dom := by simp [State.putHalf]
@[simp] theorem State.putHalf_link (s : State) (p : Nat) (v : Half) : (s.putHalf p v).link = s.link := by simp [State.putHalf]
@[simp] theorem State.putHalf_waits (s : State) (p : Nat) (v : Half) : (s.putHalf p v).waits = s.waits := by simp [State.putHalf]
@[simp] theorem State.putHalf_sent (s : State) (p : Nat) (v : Half) : (s.putHalf p v).sent = s.sent := by simp [State.putHalf]
@[simp] theorem State.putHalf_taken (s : State) (p : Nat) (v : Half) : (s.putHalf p v).taken = s.taken := by simp [State.putHalf]
@[simp] theorem State.putHalf_arrivals (s : State) (p : Nat) (v : Half) : (s.putHalf p v).arrivals = s.arrivals := by simp [State.putHalf]
@[simp] theorem State.putHalf_cb (s : State) (p : Nat) (v : Half) : (s.putHalf p v).cb = s.cb := by simp [State.putHalf]
@[simp] theorem State.putHalf_env (s : State) (p : Nat) (v : Half) : (s.putHalf p v).env = s.env := by simp [State.putHalf]
@[simp] theorem State.putHalf_time (s : State) (p : Nat) (v : Half) : (s.putHalf p v).time = s.time := by simp [State.putHalf]
@[simp] theorem State.putHalf_lag (s : State) (p : Nat) (v : Half) : (s.putHalf p v).lag = s.lag := by simp [State.putHalf]
@[simp] theorem State.putHalf_free (s : State) (p : Nat) (v : Half) : (s.putHalf p v).free = s.free := by simp [State.putHalf]

/-! ### `State.putByte` -/

@[simp] theorem State.putByte_params (s : State) (p : Nat) (v : Byte) : (s.putByte p v).params = s.params := by simp [State.putByte]
@[simp] theorem State.putByte_mode (s : State) (p : Nat) (v : Byte) : (s.putByte p v).mode = s.mode := by simp [State.putByte]
@[simp] theorem State.putByte_pc (s : State) (p : Nat) (v : Byte) : (s.putByte p v).pc = s.pc := by simp [State.putByte]
@[simp] theorem State.putByte_regs (s : State) (p : Nat) (v : Byte) : (s.putByte p v).regs = s.regs := by simp [State.putByte]
@[simp] theorem State.putByte_dfr (s : State) (p : Nat) (v : Byte) : (s.putByte p v).dfr = s.dfr := by simp [State.putByte]
@[simp] theorem State.putByte_ir (s : State) (p : Nat) (v : Byte) : (s.putByte p v).ir = s.ir := by simp [State.putByte]
@[simp] theorem State.putByte_bkpt (s : State) (p : Nat) (v : Byte) : (s.putByte p v).bkpt = s.bkpt := by simp [State.putByte]
@[simp] theorem State.putByte_serial (s : State) (p : Nat) (v : Byte) : (s.putByte p v).serial = s.serial := by simp [State.putByte]
@[simp] theorem State.putByte_forceExec (s : State) (p : Nat) (v : Byte) : (s.putByte p v).forceExec = s.forceExec := by simp [State.putByte]
@[simp] theorem State.putByte_faultTest (s : State) (p : Nat) (v : Byte) : (s.putByte p v).faultTest = s.faultTest := by simp [State.putByte]
@[simp] theorem State.putByte_mit (s : State) (p : Nat) (v : Byte) : (s.putByte p v).mit = s.mit := by simp [State.putByte]
@[simp] theorem State.putByte_jit (s : State) (p : Nat) (v : Byte) : (s.putByte p v).jit = s.jit := by simp [State.putByte]
@[simp] theorem State.putByte_rtc (s : State) (p : Nat) (v : Byte) : (s.putByte p v).rtc = s.rtc := by simp [State.putByte]
@[simp] theorem State.putByte_ic (s : State) (p : Nat) (v : Byte) : (s.putByte p v).ic = s.ic := by simp [State.putByte]
@[simp] theorem State.putByte_ar (s : State) (p : Nat) (v : Byte) : (s.putByte p v).ar = s.ar := by simp [State.putByte]
@[simp] theorem State.putByte_arValid (s : State) (p : Nat) (v : Byte) : (s.putByte p v).arValid = s.arValid := by simp [State.putByte]
@[simp] theorem State.putByte_keys (s : State) (p : Nat) (v : Byte) : (s.putByte p v).keys = s.keys := by simp [State.putByte]
@[simp] theorem State.putByte_jobRF (s : State) (p : Nat) (v : Byte) : (s.putByte p v).jobRF = s.jobRF := by simp [State.putByte]
@[simp] theorem State.putByte_invPkg (s : State) (p : Nat) (v : Byte) : (s.putByte p v).invPkg = s.invPkg := by simp [State.putByte]
@[simp] theorem State.putByte_xfer (s : State) (p : Nat) (v : Byte) : (s.putByte p v).xfer = s.xfer := by simp [State.putByte]
@[simp] theorem State.putByte_dom (s : State) (p : Nat) (v : Byte) : (s.putByte p v).dom = s.dom := by simp [State.putByte]
@[simp] theorem State.putByte_link (s : State) (p : Nat) (v : Byte) : (s.putByte p v).link = s.link := by simp [State.putByte]
@[simp] theorem State.putByte_waits (s : State) (p : Nat) (v : Byte) : (s.putByte p v).waits = s.waits := by simp [State.putByte]
@[simp] theorem State.putByte_sent (s : State) (p : Nat) (v : Byte) : (s.putByte p v).sent = s.sent := by simp [State.putByte]
@[simp] theorem State.putByte_taken (s : State) (p : Nat) (v : Byte) : (s.putByte p v).taken = s.taken := by simp [State.putByte]
@[simp] theorem State.putByte_arrivals (s : State) (p : Nat) (v : Byte) : (s.putByte p v).arrivals = s.arrivals := by simp [State.putByte]
@[simp] theorem State.putByte_cb (s : State) (p : Nat) (v : Byte) : (s.putByte p v).cb = s.cb := by simp [State.putByte]
@[simp] theorem State.putByte_env (s : State) (p : Nat) (v : Byte) : (s.putByte p v).env = s.env := by simp [State.putByte]
@[simp] theorem State.putByte_time (s : State) (p : Nat) (v : Byte) : (s.putByte p v).time = s.time := by simp [State.putByte]
@[simp] theorem State.putByte_lag (s : State) (p : Nat) (v : Byte) : (s.putByte p v).lag = s.lag := by simp [State.putByte]
@[simp] theorem State.putByte_free (s : State) (p : Nat) (v : Byte) : (s.putByte p v).free = s.free := by simp [State.putByte]

/-! ### `State.putBit` -/

@[simp] theorem State.putBit_params (s : State) (p : Nat) (v : Bool) : (s.putBit p v).params = s.params := by simp [State.putBit]
@[simp] theorem State.putBit_mode (s : State) (p : Nat) (v : Bool) : (s.putBit p v).mode = s.mode := by simp [State.putBit]
@[simp] theorem State.putBit_pc (s : State) (p : Nat) (v : Bool) : (s.putBit p v).pc = s.pc := by simp [State.putBit]
@[simp] theorem State.putBit_regs (s : State) (p : Nat) (v : Bool) : (s.putBit p v).regs = s.regs := by simp [State.putBit]
@[simp] theorem State.putBit_dfr (s : State) (p : Nat) (v : Bool) : (s.putBit p v).dfr = s.dfr := by simp [State.putBit]
@[simp] theorem State.putBit_ir (s : State) (p : Nat) (v : Bool) : (s.putBit p v).ir = s.ir := by simp [State.putBit]
@[simp] theorem State.putBit_bkpt (s : State) (p : Nat) (v : Bool) : (s.putBit p v).bkpt = s.bkpt := by simp [State.putBit]
@[simp] theorem State.putBit_serial (s : State) (p : Nat) (v : Bool) : (s.putBit p v).serial = s.serial := by simp [State.putBit]
@[simp] theorem State.putBit_forceExec (s : State) (p : Nat) (v : Bool) : (s.putBit p v).forceExec = s.forceExec := by simp [State.putBit]
@[simp] theorem State.putBit_faultTest (s : State) (p : Nat) (v : Bool) : (s.putBit p v).faultTest = s.faultTest := by simp [State.putBit]
@[simp] theorem State.putBit_mit (s : State) (p : Nat) (v : Bool) : (s.putBit p v).mit = s.mit := by simp [State.putBit]
@[simp] theorem State.putBit_jit (s : State) (p : Nat) (v : Bool) : (s.putBit p v).jit = s.jit := by simp [State.putBit]
@[simp] theorem State.putBit_rtc (s : State) (p : Nat) (v : Bool) : (s.putBit p v).rtc = s.rtc := by simp [State.putBit]
@[simp] theorem State.putBit_ic (s : State) (p : Nat) (v : Bool) : (s.putBit p v).ic = s.ic := by simp [State.putBit]
@[simp] theorem State.putBit_ar (s : State) (p : Nat) (v : Bool) : (s.putBit p v).ar = s.ar := by simp [State.putBit]
@[simp] theorem State.putBit_arValid (s : State) (p : Nat) (v : Bool) : (s.putBit p v).arValid = s.arValid := by simp [State.putBit]
@[simp] theorem State.putBit_keys (s : State) (p : Nat) (v : Bool) : (s.putBit p v).keys = s.keys := by simp [State.putBit]
@[simp] theorem State.putBit_jobRF (s : State) (p : Nat) (v : Bool) : (s.putBit p v).jobRF = s.jobRF := by simp [State.putBit]
@[simp] theorem State.putBit_invPkg (s : State) (p : Nat) (v : Bool) : (s.putBit p v).invPkg = s.invPkg := by simp [State.putBit]
@[simp] theorem State.putBit_xfer (s : State) (p : Nat) (v : Bool) : (s.putBit p v).xfer = s.xfer := by simp [State.putBit]
@[simp] theorem State.putBit_dom (s : State) (p : Nat) (v : Bool) : (s.putBit p v).dom = s.dom := by simp [State.putBit]
@[simp] theorem State.putBit_link (s : State) (p : Nat) (v : Bool) : (s.putBit p v).link = s.link := by simp [State.putBit]
@[simp] theorem State.putBit_waits (s : State) (p : Nat) (v : Bool) : (s.putBit p v).waits = s.waits := by simp [State.putBit]
@[simp] theorem State.putBit_sent (s : State) (p : Nat) (v : Bool) : (s.putBit p v).sent = s.sent := by simp [State.putBit]
@[simp] theorem State.putBit_taken (s : State) (p : Nat) (v : Bool) : (s.putBit p v).taken = s.taken := by simp [State.putBit]
@[simp] theorem State.putBit_arrivals (s : State) (p : Nat) (v : Bool) : (s.putBit p v).arrivals = s.arrivals := by simp [State.putBit]
@[simp] theorem State.putBit_cb (s : State) (p : Nat) (v : Bool) : (s.putBit p v).cb = s.cb := by simp [State.putBit]
@[simp] theorem State.putBit_env (s : State) (p : Nat) (v : Bool) : (s.putBit p v).env = s.env := by simp [State.putBit]
@[simp] theorem State.putBit_time (s : State) (p : Nat) (v : Bool) : (s.putBit p v).time = s.time := by simp [State.putBit]
@[simp] theorem State.putBit_lag (s : State) (p : Nat) (v : Bool) : (s.putBit p v).lag = s.lag := by simp [State.putBit]
@[simp] theorem State.putBit_free (s : State) (p : Nat) (v : Bool) : (s.putBit p v).free = s.free := by simp [State.putBit]

/-! ### `State.pushDown` -/

@[simp] theorem State.pushDown_params (s : State) (i : Nat) (w : Word) : (s.pushDown i w).params = s.params := by simp [State.pushDown]
@[simp] theorem State.pushDown_mode (s : State) (i : Nat) (w : Word) : (s.pushDown i w).mode = s.mode := by simp [State.pushDown]
@[simp] theorem State.pushDown_pc (s : State) (i : Nat) (w : Word) : (s.pushDown i w).pc = s.pc := by simp [State.pushDown]
@[simp] theorem State.pushDown_regs (s : State) (i : Nat) (w : Word) : (s.pushDown i w).regs = s.regs := by simp [State.pushDown]
@[simp] theorem State.pushDown_dfr (s : State) (i : Nat) (w : Word) : (s.pushDown i w).dfr = s.dfr := by simp [State.pushDown]
@[simp] theorem State.pushDown_ir (s : State) (i : Nat) (w : Word) : (s.pushDown i w).ir = s.ir := by simp [State.pushDown]
@[simp] theorem State.pushDown_bkpt (s : State) (i : Nat) (w : Word) : (s.pushDown i w).bkpt = s.bkpt := by simp [State.pushDown]
@[simp] theorem State.pushDown_serial (s : State) (i : Nat) (w : Word) : (s.pushDown i w).serial = s.serial := by simp [State.pushDown]
@[simp] theorem State.pushDown_forceExec (s : State) (i : Nat) (w : Word) : (s.pushDown i w).forceExec = s.forceExec := by simp [State.pushDown]
@[simp] theorem State.pushDown_faultTest (s : State) (i : Nat) (w : Word) : (s.pushDown i w).faultTest = s.faultTest := by simp [State.pushDown]
@[simp] theorem State.pushDown_mit (s : State) (i : Nat) (w : Word) : (s.pushDown i w).mit = s.mit := by simp [State.pushDown]
@[simp] theorem State.pushDown_jit (s : State) (i : Nat) (w : Word) : (s.pushDown i w).jit = s.jit := by simp [State.pushDown]
@[simp] theorem State.pushDown_rtc (s : State) (i : Nat) (w : Word) : (s.pushDown i w).rtc = s.rtc := by simp [State.pushDown]
@[simp] theorem State.pushDown_ic (s : State) (i : Nat) (w : Word) : (s.pushDown i w).ic = s.ic := by simp [State.pushDown]
@[simp] theorem State.pushDown_arValid (s : State) (i : Nat) (w : Word) : (s.pushDown i w).arValid = s.arValid := by simp [State.pushDown]
@[simp] theorem State.pushDown_keys (s : State) (i : Nat) (w : Word) : (s.pushDown i w).keys = s.keys := by simp [State.pushDown]
@[simp] theorem State.pushDown_jobRF (s : State) (i : Nat) (w : Word) : (s.pushDown i w).jobRF = s.jobRF := by simp [State.pushDown]
@[simp] theorem State.pushDown_invPkg (s : State) (i : Nat) (w : Word) : (s.pushDown i w).invPkg = s.invPkg := by simp [State.pushDown]
@[simp] theorem State.pushDown_xfer (s : State) (i : Nat) (w : Word) : (s.pushDown i w).xfer = s.xfer := by simp [State.pushDown]
@[simp] theorem State.pushDown_dom (s : State) (i : Nat) (w : Word) : (s.pushDown i w).dom = s.dom := by simp [State.pushDown]
@[simp] theorem State.pushDown_link (s : State) (i : Nat) (w : Word) : (s.pushDown i w).link = s.link := by simp [State.pushDown]
@[simp] theorem State.pushDown_waits (s : State) (i : Nat) (w : Word) : (s.pushDown i w).waits = s.waits := by simp [State.pushDown]
@[simp] theorem State.pushDown_sent (s : State) (i : Nat) (w : Word) : (s.pushDown i w).sent = s.sent := by simp [State.pushDown]
@[simp] theorem State.pushDown_taken (s : State) (i : Nat) (w : Word) : (s.pushDown i w).taken = s.taken := by simp [State.pushDown]
@[simp] theorem State.pushDown_arrivals (s : State) (i : Nat) (w : Word) : (s.pushDown i w).arrivals = s.arrivals := by simp [State.pushDown]
@[simp] theorem State.pushDown_cb (s : State) (i : Nat) (w : Word) : (s.pushDown i w).cb = s.cb := by simp [State.pushDown]
@[simp] theorem State.pushDown_env (s : State) (i : Nat) (w : Word) : (s.pushDown i w).env = s.env := by simp [State.pushDown]
@[simp] theorem State.pushDown_time (s : State) (i : Nat) (w : Word) : (s.pushDown i w).time = s.time := by simp [State.pushDown]
@[simp] theorem State.pushDown_lag (s : State) (i : Nat) (w : Word) : (s.pushDown i w).lag = s.lag := by simp [State.pushDown]
@[simp] theorem State.pushDown_free (s : State) (i : Nat) (w : Word) : (s.pushDown i w).free = s.free := by simp [State.pushDown]

/-! ### `State.useEntry` -/

@[simp] theorem State.useEntry_params (s : State) (h : Hit) : (s.useEntry h).params = s.params := by simp [State.useEntry]
@[simp] theorem State.useEntry_mode (s : State) (h : Hit) : (s.useEntry h).mode = s.mode := by simp [State.useEntry]
@[simp] theorem State.useEntry_pc (s : State) (h : Hit) : (s.useEntry h).pc = s.pc := by simp [State.useEntry]
@[simp] theorem State.useEntry_regs (s : State) (h : Hit) : (s.useEntry h).regs = s.regs := by simp [State.useEntry]
@[simp] theorem State.useEntry_dfr (s : State) (h : Hit) : (s.useEntry h).dfr = s.dfr := by simp [State.useEntry]
@[simp] theorem State.useEntry_ir (s : State) (h : Hit) : (s.useEntry h).ir = s.ir := by simp [State.useEntry]
@[simp] theorem State.useEntry_bkpt (s : State) (h : Hit) : (s.useEntry h).bkpt = s.bkpt := by simp [State.useEntry]
@[simp] theorem State.useEntry_serial (s : State) (h : Hit) : (s.useEntry h).serial = s.serial := by simp [State.useEntry]
@[simp] theorem State.useEntry_forceExec (s : State) (h : Hit) : (s.useEntry h).forceExec = s.forceExec := by simp [State.useEntry]
@[simp] theorem State.useEntry_faultTest (s : State) (h : Hit) : (s.useEntry h).faultTest = s.faultTest := by simp [State.useEntry]
@[simp] theorem State.useEntry_mit (s : State) (h : Hit) : (s.useEntry h).mit = s.mit := by simp [State.useEntry]
@[simp] theorem State.useEntry_jit (s : State) (h : Hit) : (s.useEntry h).jit = s.jit := by simp [State.useEntry]
@[simp] theorem State.useEntry_rtc (s : State) (h : Hit) : (s.useEntry h).rtc = s.rtc := by simp [State.useEntry]
@[simp] theorem State.useEntry_ic (s : State) (h : Hit) : (s.useEntry h).ic = s.ic := by simp [State.useEntry]
@[simp] theorem State.useEntry_arValid (s : State) (h : Hit) : (s.useEntry h).arValid = s.arValid := by simp [State.useEntry]
@[simp] theorem State.useEntry_keys (s : State) (h : Hit) : (s.useEntry h).keys = s.keys := by simp [State.useEntry]
@[simp] theorem State.useEntry_jobRF (s : State) (h : Hit) : (s.useEntry h).jobRF = s.jobRF := by simp [State.useEntry]
@[simp] theorem State.useEntry_invPkg (s : State) (h : Hit) : (s.useEntry h).invPkg = s.invPkg := by simp [State.useEntry]
@[simp] theorem State.useEntry_xfer (s : State) (h : Hit) : (s.useEntry h).xfer = s.xfer := by simp [State.useEntry]
@[simp] theorem State.useEntry_dom (s : State) (h : Hit) : (s.useEntry h).dom = s.dom := by simp [State.useEntry]
@[simp] theorem State.useEntry_link (s : State) (h : Hit) : (s.useEntry h).link = s.link := by simp [State.useEntry]
@[simp] theorem State.useEntry_waits (s : State) (h : Hit) : (s.useEntry h).waits = s.waits := by simp [State.useEntry]
@[simp] theorem State.useEntry_sent (s : State) (h : Hit) : (s.useEntry h).sent = s.sent := by simp [State.useEntry]
@[simp] theorem State.useEntry_taken (s : State) (h : Hit) : (s.useEntry h).taken = s.taken := by simp [State.useEntry]
@[simp] theorem State.useEntry_arrivals (s : State) (h : Hit) : (s.useEntry h).arrivals = s.arrivals := by simp [State.useEntry]
@[simp] theorem State.useEntry_cb (s : State) (h : Hit) : (s.useEntry h).cb = s.cb := by simp [State.useEntry]
@[simp] theorem State.useEntry_env (s : State) (h : Hit) : (s.useEntry h).env = s.env := by simp [State.useEntry]
@[simp] theorem State.useEntry_time (s : State) (h : Hit) : (s.useEntry h).time = s.time := by simp [State.useEntry]
@[simp] theorem State.useEntry_lag (s : State) (h : Hit) : (s.useEntry h).lag = s.lag := by simp [State.useEntry]
@[simp] theorem State.useEntry_free (s : State) (h : Hit) : (s.useEntry h).free = s.free := by simp [State.useEntry]

/-! ### `State.compareReads` -/

@[simp] theorem State.compareReads_params (s : State) (a n : Nat) : (s.compareReads a n).params = s.params := by unfold State.compareReads; split <;> rfl
@[simp] theorem State.compareReads_mode (s : State) (a n : Nat) : (s.compareReads a n).mode = s.mode := by unfold State.compareReads; split <;> rfl
@[simp] theorem State.compareReads_pc (s : State) (a n : Nat) : (s.compareReads a n).pc = s.pc := by unfold State.compareReads; split <;> rfl
@[simp] theorem State.compareReads_regs (s : State) (a n : Nat) : (s.compareReads a n).regs = s.regs := by unfold State.compareReads; split <;> rfl
@[simp] theorem State.compareReads_ir (s : State) (a n : Nat) : (s.compareReads a n).ir = s.ir := by unfold State.compareReads; split <;> rfl
@[simp] theorem State.compareReads_bkpt (s : State) (a n : Nat) : (s.compareReads a n).bkpt = s.bkpt := by unfold State.compareReads; split <;> rfl
@[simp] theorem State.compareReads_serial (s : State) (a n : Nat) : (s.compareReads a n).serial = s.serial := by unfold State.compareReads; split <;> rfl
@[simp] theorem State.compareReads_forceExec (s : State) (a n : Nat) : (s.compareReads a n).forceExec = s.forceExec := by unfold State.compareReads; split <;> rfl
@[simp] theorem State.compareReads_faultTest (s : State) (a n : Nat) : (s.compareReads a n).faultTest = s.faultTest := by unfold State.compareReads; split <;> rfl
@[simp] theorem State.compareReads_mit (s : State) (a n : Nat) : (s.compareReads a n).mit = s.mit := by unfold State.compareReads; split <;> rfl
@[simp] theorem State.compareReads_jit (s : State) (a n : Nat) : (s.compareReads a n).jit = s.jit := by unfold State.compareReads; split <;> rfl
@[simp] theorem State.compareReads_rtc (s : State) (a n : Nat) : (s.compareReads a n).rtc = s.rtc := by unfold State.compareReads; split <;> rfl
@[simp] theorem State.compareReads_ic (s : State) (a n : Nat) : (s.compareReads a n).ic = s.ic := by unfold State.compareReads; split <;> rfl
@[simp] theorem State.compareReads_ar (s : State) (a n : Nat) : (s.compareReads a n).ar = s.ar := by unfold State.compareReads; split <;> rfl
@[simp] theorem State.compareReads_arValid (s : State) (a n : Nat) : (s.compareReads a n).arValid = s.arValid := by unfold State.compareReads; split <;> rfl
@[simp] theorem State.compareReads_keys (s : State) (a n : Nat) : (s.compareReads a n).keys = s.keys := by unfold State.compareReads; split <;> rfl
@[simp] theorem State.compareReads_jobRF (s : State) (a n : Nat) : (s.compareReads a n).jobRF = s.jobRF := by unfold State.compareReads; split <;> rfl
@[simp] theorem State.compareReads_invPkg (s : State) (a n : Nat) : (s.compareReads a n).invPkg = s.invPkg := by unfold State.compareReads; split <;> rfl
@[simp] theorem State.compareReads_xfer (s : State) (a n : Nat) : (s.compareReads a n).xfer = s.xfer := by unfold State.compareReads; split <;> rfl
@[simp] theorem State.compareReads_dom (s : State) (a n : Nat) : (s.compareReads a n).dom = s.dom := by unfold State.compareReads; split <;> rfl
@[simp] theorem State.compareReads_link (s : State) (a n : Nat) : (s.compareReads a n).link = s.link := by unfold State.compareReads; split <;> rfl
@[simp] theorem State.compareReads_stale (s : State) (a n : Nat) : (s.compareReads a n).stale = s.stale := by unfold State.compareReads; split <;> rfl
@[simp] theorem State.compareReads_waits (s : State) (a n : Nat) : (s.compareReads a n).waits = s.waits := by unfold State.compareReads; split <;> rfl
@[simp] theorem State.compareReads_sent (s : State) (a n : Nat) : (s.compareReads a n).sent = s.sent := by unfold State.compareReads; split <;> rfl
@[simp] theorem State.compareReads_taken (s : State) (a n : Nat) : (s.compareReads a n).taken = s.taken := by unfold State.compareReads; split <;> rfl
@[simp] theorem State.compareReads_arrivals (s : State) (a n : Nat) : (s.compareReads a n).arrivals = s.arrivals := by unfold State.compareReads; split <;> rfl
@[simp] theorem State.compareReads_mem (s : State) (a n : Nat) : (s.compareReads a n).mem = s.mem := by unfold State.compareReads; split <;> rfl
@[simp] theorem State.compareReads_cb (s : State) (a n : Nat) : (s.compareReads a n).cb = s.cb := by unfold State.compareReads; split <;> rfl
@[simp] theorem State.compareReads_env (s : State) (a n : Nat) : (s.compareReads a n).env = s.env := by unfold State.compareReads; split <;> rfl
@[simp] theorem State.compareReads_time (s : State) (a n : Nat) : (s.compareReads a n).time = s.time := by unfold State.compareReads; split <;> rfl
@[simp] theorem State.compareReads_lag (s : State) (a n : Nat) : (s.compareReads a n).lag = s.lag := by unfold State.compareReads; split <;> rfl
@[simp] theorem State.compareReads_free (s : State) (a n : Nat) : (s.compareReads a n).free = s.free := by unfold State.compareReads; split <;> rfl

/-! ### `State.tickMit` -/

@[simp] theorem State.tickMit_params (s : State) (n : Nat) : (s.tickMit n).params = s.params := by unfold State.tickMit; repeat (first | rfl | split)
@[simp] theorem State.tickMit_mode (s : State) (n : Nat) : (s.tickMit n).mode = s.mode := by unfold State.tickMit; repeat (first | rfl | split)
@[simp] theorem State.tickMit_pc (s : State) (n : Nat) : (s.tickMit n).pc = s.pc := by unfold State.tickMit; repeat (first | rfl | split)
@[simp] theorem State.tickMit_regs (s : State) (n : Nat) : (s.tickMit n).regs = s.regs := by unfold State.tickMit; repeat (first | rfl | split)
@[simp] theorem State.tickMit_dfr (s : State) (n : Nat) : (s.tickMit n).dfr = s.dfr := by unfold State.tickMit; repeat (first | rfl | split)
@[simp] theorem State.tickMit_bkpt (s : State) (n : Nat) : (s.tickMit n).bkpt = s.bkpt := by unfold State.tickMit; repeat (first | rfl | split)
@[simp] theorem State.tickMit_serial (s : State) (n : Nat) : (s.tickMit n).serial = s.serial := by unfold State.tickMit; repeat (first | rfl | split)
@[simp] theorem State.tickMit_forceExec (s : State) (n : Nat) : (s.tickMit n).forceExec = s.forceExec := by unfold State.tickMit; repeat (first | rfl | split)
@[simp] theorem State.tickMit_faultTest (s : State) (n : Nat) : (s.tickMit n).faultTest = s.faultTest := by unfold State.tickMit; repeat (first | rfl | split)
@[simp] theorem State.tickMit_jit (s : State) (n : Nat) : (s.tickMit n).jit = s.jit := by unfold State.tickMit; repeat (first | rfl | split)
@[simp] theorem State.tickMit_rtc (s : State) (n : Nat) : (s.tickMit n).rtc = s.rtc := by unfold State.tickMit; repeat (first | rfl | split)
@[simp] theorem State.tickMit_ic (s : State) (n : Nat) : (s.tickMit n).ic = s.ic := by unfold State.tickMit; repeat (first | rfl | split)
@[simp] theorem State.tickMit_ar (s : State) (n : Nat) : (s.tickMit n).ar = s.ar := by unfold State.tickMit; repeat (first | rfl | split)
@[simp] theorem State.tickMit_arValid (s : State) (n : Nat) : (s.tickMit n).arValid = s.arValid := by unfold State.tickMit; repeat (first | rfl | split)
@[simp] theorem State.tickMit_keys (s : State) (n : Nat) : (s.tickMit n).keys = s.keys := by unfold State.tickMit; repeat (first | rfl | split)
@[simp] theorem State.tickMit_jobRF (s : State) (n : Nat) : (s.tickMit n).jobRF = s.jobRF := by unfold State.tickMit; repeat (first | rfl | split)
@[simp] theorem State.tickMit_invPkg (s : State) (n : Nat) : (s.tickMit n).invPkg = s.invPkg := by unfold State.tickMit; repeat (first | rfl | split)
@[simp] theorem State.tickMit_xfer (s : State) (n : Nat) : (s.tickMit n).xfer = s.xfer := by unfold State.tickMit; repeat (first | rfl | split)
@[simp] theorem State.tickMit_dom (s : State) (n : Nat) : (s.tickMit n).dom = s.dom := by unfold State.tickMit; repeat (first | rfl | split)
@[simp] theorem State.tickMit_link (s : State) (n : Nat) : (s.tickMit n).link = s.link := by unfold State.tickMit; repeat (first | rfl | split)
@[simp] theorem State.tickMit_stale (s : State) (n : Nat) : (s.tickMit n).stale = s.stale := by unfold State.tickMit; repeat (first | rfl | split)
@[simp] theorem State.tickMit_waits (s : State) (n : Nat) : (s.tickMit n).waits = s.waits := by unfold State.tickMit; repeat (first | rfl | split)
@[simp] theorem State.tickMit_sent (s : State) (n : Nat) : (s.tickMit n).sent = s.sent := by unfold State.tickMit; repeat (first | rfl | split)
@[simp] theorem State.tickMit_taken (s : State) (n : Nat) : (s.tickMit n).taken = s.taken := by unfold State.tickMit; repeat (first | rfl | split)
@[simp] theorem State.tickMit_arrivals (s : State) (n : Nat) : (s.tickMit n).arrivals = s.arrivals := by unfold State.tickMit; repeat (first | rfl | split)
@[simp] theorem State.tickMit_mem (s : State) (n : Nat) : (s.tickMit n).mem = s.mem := by unfold State.tickMit; repeat (first | rfl | split)
@[simp] theorem State.tickMit_cb (s : State) (n : Nat) : (s.tickMit n).cb = s.cb := by unfold State.tickMit; repeat (first | rfl | split)
@[simp] theorem State.tickMit_env (s : State) (n : Nat) : (s.tickMit n).env = s.env := by unfold State.tickMit; repeat (first | rfl | split)
@[simp] theorem State.tickMit_time (s : State) (n : Nat) : (s.tickMit n).time = s.time := by unfold State.tickMit; repeat (first | rfl | split)
@[simp] theorem State.tickMit_lag (s : State) (n : Nat) : (s.tickMit n).lag = s.lag := by unfold State.tickMit; repeat (first | rfl | split)
@[simp] theorem State.tickMit_free (s : State) (n : Nat) : (s.tickMit n).free = s.free := by unfold State.tickMit; repeat (first | rfl | split)

/-! ### `State.tickJit` -/

@[simp] theorem State.tickJit_params (s : State) (n : Nat) : (s.tickJit n).params = s.params := by unfold State.tickJit; repeat (first | rfl | split)
@[simp] theorem State.tickJit_mode (s : State) (n : Nat) : (s.tickJit n).mode = s.mode := by unfold State.tickJit; repeat (first | rfl | split)
@[simp] theorem State.tickJit_pc (s : State) (n : Nat) : (s.tickJit n).pc = s.pc := by unfold State.tickJit; repeat (first | rfl | split)
@[simp] theorem State.tickJit_regs (s : State) (n : Nat) : (s.tickJit n).regs = s.regs := by unfold State.tickJit; repeat (first | rfl | split)
@[simp] theorem State.tickJit_ir (s : State) (n : Nat) : (s.tickJit n).ir = s.ir := by unfold State.tickJit; repeat (first | rfl | split)
@[simp] theorem State.tickJit_bkpt (s : State) (n : Nat) : (s.tickJit n).bkpt = s.bkpt := by unfold State.tickJit; repeat (first | rfl | split)
@[simp] theorem State.tickJit_serial (s : State) (n : Nat) : (s.tickJit n).serial = s.serial := by unfold State.tickJit; repeat (first | rfl | split)
@[simp] theorem State.tickJit_forceExec (s : State) (n : Nat) : (s.tickJit n).forceExec = s.forceExec := by unfold State.tickJit; repeat (first | rfl | split)
@[simp] theorem State.tickJit_faultTest (s : State) (n : Nat) : (s.tickJit n).faultTest = s.faultTest := by unfold State.tickJit; repeat (first | rfl | split)
@[simp] theorem State.tickJit_mit (s : State) (n : Nat) : (s.tickJit n).mit = s.mit := by unfold State.tickJit; repeat (first | rfl | split)
@[simp] theorem State.tickJit_rtc (s : State) (n : Nat) : (s.tickJit n).rtc = s.rtc := by unfold State.tickJit; repeat (first | rfl | split)
@[simp] theorem State.tickJit_ic (s : State) (n : Nat) : (s.tickJit n).ic = s.ic := by unfold State.tickJit; repeat (first | rfl | split)
@[simp] theorem State.tickJit_ar (s : State) (n : Nat) : (s.tickJit n).ar = s.ar := by unfold State.tickJit; repeat (first | rfl | split)
@[simp] theorem State.tickJit_arValid (s : State) (n : Nat) : (s.tickJit n).arValid = s.arValid := by unfold State.tickJit; repeat (first | rfl | split)
@[simp] theorem State.tickJit_keys (s : State) (n : Nat) : (s.tickJit n).keys = s.keys := by unfold State.tickJit; repeat (first | rfl | split)
@[simp] theorem State.tickJit_jobRF (s : State) (n : Nat) : (s.tickJit n).jobRF = s.jobRF := by unfold State.tickJit; repeat (first | rfl | split)
@[simp] theorem State.tickJit_invPkg (s : State) (n : Nat) : (s.tickJit n).invPkg = s.invPkg := by unfold State.tickJit; repeat (first | rfl | split)
@[simp] theorem State.tickJit_xfer (s : State) (n : Nat) : (s.tickJit n).xfer = s.xfer := by unfold State.tickJit; repeat (first | rfl | split)
@[simp] theorem State.tickJit_dom (s : State) (n : Nat) : (s.tickJit n).dom = s.dom := by unfold State.tickJit; repeat (first | rfl | split)
@[simp] theorem State.tickJit_link (s : State) (n : Nat) : (s.tickJit n).link = s.link := by unfold State.tickJit; repeat (first | rfl | split)
@[simp] theorem State.tickJit_stale (s : State) (n : Nat) : (s.tickJit n).stale = s.stale := by unfold State.tickJit; repeat (first | rfl | split)
@[simp] theorem State.tickJit_waits (s : State) (n : Nat) : (s.tickJit n).waits = s.waits := by unfold State.tickJit; repeat (first | rfl | split)
@[simp] theorem State.tickJit_sent (s : State) (n : Nat) : (s.tickJit n).sent = s.sent := by unfold State.tickJit; repeat (first | rfl | split)
@[simp] theorem State.tickJit_taken (s : State) (n : Nat) : (s.tickJit n).taken = s.taken := by unfold State.tickJit; repeat (first | rfl | split)
@[simp] theorem State.tickJit_arrivals (s : State) (n : Nat) : (s.tickJit n).arrivals = s.arrivals := by unfold State.tickJit; repeat (first | rfl | split)
@[simp] theorem State.tickJit_mem (s : State) (n : Nat) : (s.tickJit n).mem = s.mem := by unfold State.tickJit; repeat (first | rfl | split)
@[simp] theorem State.tickJit_cb (s : State) (n : Nat) : (s.tickJit n).cb = s.cb := by unfold State.tickJit; repeat (first | rfl | split)
@[simp] theorem State.tickJit_env (s : State) (n : Nat) : (s.tickJit n).env = s.env := by unfold State.tickJit; repeat (first | rfl | split)
@[simp] theorem State.tickJit_time (s : State) (n : Nat) : (s.tickJit n).time = s.time := by unfold State.tickJit; repeat (first | rfl | split)
@[simp] theorem State.tickJit_lag (s : State) (n : Nat) : (s.tickJit n).lag = s.lag := by unfold State.tickJit; repeat (first | rfl | split)
@[simp] theorem State.tickJit_free (s : State) (n : Nat) : (s.tickJit n).free = s.free := by unfold State.tickJit; repeat (first | rfl | split)

/-! ### `State.passTime` -/

@[simp] theorem State.passTime_params (s : State) (n : Nat) : (s.passTime n).params = s.params := by simp [State.passTime]
@[simp] theorem State.passTime_mode (s : State) (n : Nat) : (s.passTime n).mode = s.mode := by simp [State.passTime]
@[simp] theorem State.passTime_pc (s : State) (n : Nat) : (s.passTime n).pc = s.pc := by simp [State.passTime]
@[simp] theorem State.passTime_regs (s : State) (n : Nat) : (s.passTime n).regs = s.regs := by simp [State.passTime]
@[simp] theorem State.passTime_bkpt (s : State) (n : Nat) : (s.passTime n).bkpt = s.bkpt := by simp [State.passTime]
@[simp] theorem State.passTime_serial (s : State) (n : Nat) : (s.passTime n).serial = s.serial := by simp [State.passTime]
@[simp] theorem State.passTime_forceExec (s : State) (n : Nat) : (s.passTime n).forceExec = s.forceExec := by simp [State.passTime]
@[simp] theorem State.passTime_faultTest (s : State) (n : Nat) : (s.passTime n).faultTest = s.faultTest := by simp [State.passTime]
@[simp] theorem State.passTime_ic (s : State) (n : Nat) : (s.passTime n).ic = s.ic := by simp [State.passTime]
@[simp] theorem State.passTime_ar (s : State) (n : Nat) : (s.passTime n).ar = s.ar := by simp [State.passTime]
@[simp] theorem State.passTime_arValid (s : State) (n : Nat) : (s.passTime n).arValid = s.arValid := by simp [State.passTime]
@[simp] theorem State.passTime_keys (s : State) (n : Nat) : (s.passTime n).keys = s.keys := by simp [State.passTime]
@[simp] theorem State.passTime_jobRF (s : State) (n : Nat) : (s.passTime n).jobRF = s.jobRF := by simp [State.passTime]
@[simp] theorem State.passTime_invPkg (s : State) (n : Nat) : (s.passTime n).invPkg = s.invPkg := by simp [State.passTime]
@[simp] theorem State.passTime_xfer (s : State) (n : Nat) : (s.passTime n).xfer = s.xfer := by simp [State.passTime]
@[simp] theorem State.passTime_dom (s : State) (n : Nat) : (s.passTime n).dom = s.dom := by simp [State.passTime]
@[simp] theorem State.passTime_link (s : State) (n : Nat) : (s.passTime n).link = s.link := by simp [State.passTime]
@[simp] theorem State.passTime_stale (s : State) (n : Nat) : (s.passTime n).stale = s.stale := by simp [State.passTime]
@[simp] theorem State.passTime_waits (s : State) (n : Nat) : (s.passTime n).waits = s.waits := by simp [State.passTime]
@[simp] theorem State.passTime_sent (s : State) (n : Nat) : (s.passTime n).sent = s.sent := by simp [State.passTime]
@[simp] theorem State.passTime_taken (s : State) (n : Nat) : (s.passTime n).taken = s.taken := by simp [State.passTime]
@[simp] theorem State.passTime_arrivals (s : State) (n : Nat) : (s.passTime n).arrivals = s.arrivals := by simp [State.passTime]
@[simp] theorem State.passTime_mem (s : State) (n : Nat) : (s.passTime n).mem = s.mem := by simp [State.passTime]
@[simp] theorem State.passTime_cb (s : State) (n : Nat) : (s.passTime n).cb = s.cb := by simp [State.passTime]
@[simp] theorem State.passTime_env (s : State) (n : Nat) : (s.passTime n).env = s.env := by simp [State.passTime]
@[simp] theorem State.passTime_lag (s : State) (n : Nat) : (s.passTime n).lag = s.lag := by simp [State.passTime]
@[simp] theorem State.passTime_free (s : State) (n : Nat) : (s.passTime n).free = s.free := by simp [State.passTime]

/-! ### `State.takeUp` -/

@[simp] theorem State.takeUp_params (s : State) : (s.takeUp).params = s.params := rfl
@[simp] theorem State.takeUp_mode (s : State) : (s.takeUp).mode = s.mode := rfl
@[simp] theorem State.takeUp_pc (s : State) : (s.takeUp).pc = s.pc := rfl
@[simp] theorem State.takeUp_regs (s : State) : (s.takeUp).regs = s.regs := rfl
@[simp] theorem State.takeUp_dfr (s : State) : (s.takeUp).dfr = s.dfr := rfl
@[simp] theorem State.takeUp_ir (s : State) : (s.takeUp).ir = s.ir := rfl
@[simp] theorem State.takeUp_bkpt (s : State) : (s.takeUp).bkpt = s.bkpt := rfl
@[simp] theorem State.takeUp_serial (s : State) : (s.takeUp).serial = s.serial := rfl
@[simp] theorem State.takeUp_forceExec (s : State) : (s.takeUp).forceExec = s.forceExec := rfl
@[simp] theorem State.takeUp_faultTest (s : State) : (s.takeUp).faultTest = s.faultTest := rfl
@[simp] theorem State.takeUp_mit (s : State) : (s.takeUp).mit = s.mit := rfl
@[simp] theorem State.takeUp_jit (s : State) : (s.takeUp).jit = s.jit := rfl
@[simp] theorem State.takeUp_rtc (s : State) : (s.takeUp).rtc = s.rtc := rfl
@[simp] theorem State.takeUp_ic (s : State) : (s.takeUp).ic = s.ic := rfl
@[simp] theorem State.takeUp_ar (s : State) : (s.takeUp).ar = s.ar := rfl
@[simp] theorem State.takeUp_arValid (s : State) : (s.takeUp).arValid = s.arValid := rfl
@[simp] theorem State.takeUp_keys (s : State) : (s.takeUp).keys = s.keys := rfl
@[simp] theorem State.takeUp_jobRF (s : State) : (s.takeUp).jobRF = s.jobRF := rfl
@[simp] theorem State.takeUp_invPkg (s : State) : (s.takeUp).invPkg = s.invPkg := rfl
@[simp] theorem State.takeUp_xfer (s : State) : (s.takeUp).xfer = s.xfer := rfl
@[simp] theorem State.takeUp_dom (s : State) : (s.takeUp).dom = s.dom := rfl
@[simp] theorem State.takeUp_link (s : State) : (s.takeUp).link = s.link := rfl
@[simp] theorem State.takeUp_stale (s : State) : (s.takeUp).stale = s.stale := rfl
@[simp] theorem State.takeUp_waits (s : State) : (s.takeUp).waits = s.waits := rfl
@[simp] theorem State.takeUp_sent (s : State) : (s.takeUp).sent = s.sent := rfl
@[simp] theorem State.takeUp_mem (s : State) : (s.takeUp).mem = s.mem := rfl
@[simp] theorem State.takeUp_cb (s : State) : (s.takeUp).cb = s.cb := rfl
@[simp] theorem State.takeUp_env (s : State) : (s.takeUp).env = s.env := rfl
@[simp] theorem State.takeUp_time (s : State) : (s.takeUp).time = s.time := rfl
@[simp] theorem State.takeUp_lag (s : State) : (s.takeUp).lag = s.lag := rfl

/-! ### `State.arrive` -/

@[simp] theorem State.arrive_params (s : State) : (s.arrive).params = s.params := by unfold State.arrive; split <;> rfl
@[simp] theorem State.arrive_mode (s : State) : (s.arrive).mode = s.mode := by unfold State.arrive; split <;> rfl
@[simp] theorem State.arrive_pc (s : State) : (s.arrive).pc = s.pc := by unfold State.arrive; split <;> rfl
@[simp] theorem State.arrive_regs (s : State) : (s.arrive).regs = s.regs := by unfold State.arrive; split <;> rfl
@[simp] theorem State.arrive_dfr (s : State) : (s.arrive).dfr = s.dfr := by unfold State.arrive; split <;> rfl
@[simp] theorem State.arrive_bkpt (s : State) : (s.arrive).bkpt = s.bkpt := by unfold State.arrive; split <;> rfl
@[simp] theorem State.arrive_serial (s : State) : (s.arrive).serial = s.serial := by unfold State.arrive; split <;> rfl
@[simp] theorem State.arrive_forceExec (s : State) : (s.arrive).forceExec = s.forceExec := by unfold State.arrive; split <;> rfl
@[simp] theorem State.arrive_faultTest (s : State) : (s.arrive).faultTest = s.faultTest := by unfold State.arrive; split <;> rfl
@[simp] theorem State.arrive_mit (s : State) : (s.arrive).mit = s.mit := by unfold State.arrive; split <;> rfl
@[simp] theorem State.arrive_jit (s : State) : (s.arrive).jit = s.jit := by unfold State.arrive; split <;> rfl
@[simp] theorem State.arrive_rtc (s : State) : (s.arrive).rtc = s.rtc := by unfold State.arrive; split <;> rfl
@[simp] theorem State.arrive_ic (s : State) : (s.arrive).ic = s.ic := by unfold State.arrive; split <;> rfl
@[simp] theorem State.arrive_ar (s : State) : (s.arrive).ar = s.ar := by unfold State.arrive; split <;> rfl
@[simp] theorem State.arrive_arValid (s : State) : (s.arrive).arValid = s.arValid := by unfold State.arrive; split <;> rfl
@[simp] theorem State.arrive_keys (s : State) : (s.arrive).keys = s.keys := by unfold State.arrive; split <;> rfl
@[simp] theorem State.arrive_jobRF (s : State) : (s.arrive).jobRF = s.jobRF := by unfold State.arrive; split <;> rfl
@[simp] theorem State.arrive_invPkg (s : State) : (s.arrive).invPkg = s.invPkg := by unfold State.arrive; split <;> rfl
@[simp] theorem State.arrive_xfer (s : State) : (s.arrive).xfer = s.xfer := by unfold State.arrive; split <;> rfl
@[simp] theorem State.arrive_dom (s : State) : (s.arrive).dom = s.dom := by unfold State.arrive; split <;> rfl
@[simp] theorem State.arrive_link (s : State) : (s.arrive).link = s.link := by unfold State.arrive; split <;> rfl
@[simp] theorem State.arrive_stale (s : State) : (s.arrive).stale = s.stale := by unfold State.arrive; split <;> rfl
@[simp] theorem State.arrive_waits (s : State) : (s.arrive).waits = s.waits := by unfold State.arrive; split <;> rfl
@[simp] theorem State.arrive_sent (s : State) : (s.arrive).sent = s.sent := by unfold State.arrive; split <;> rfl
@[simp] theorem State.arrive_taken (s : State) : (s.arrive).taken = s.taken := by unfold State.arrive; split <;> rfl
@[simp] theorem State.arrive_mem (s : State) : (s.arrive).mem = s.mem := by unfold State.arrive; split <;> rfl
@[simp] theorem State.arrive_cb (s : State) : (s.arrive).cb = s.cb := by unfold State.arrive; split <;> rfl
@[simp] theorem State.arrive_env (s : State) : (s.arrive).env = s.env := by unfold State.arrive; split <;> rfl
@[simp] theorem State.arrive_time (s : State) : (s.arrive).time = s.time := by unfold State.arrive; split <;> rfl
@[simp] theorem State.arrive_lag (s : State) : (s.arrive).lag = s.lag := by unfold State.arrive; split <;> rfl
@[simp] theorem State.arrive_free (s : State) : (s.arrive).free = s.free := by unfold State.arrive; split <;> rfl

/-! ### `State.countCycles` -/

@[simp] theorem State.countCycles_params (s : State) : (s.countCycles).params = s.params := by simp [State.countCycles]
@[simp] theorem State.countCycles_mode (s : State) : (s.countCycles).mode = s.mode := by simp [State.countCycles]
@[simp] theorem State.countCycles_pc (s : State) : (s.countCycles).pc = s.pc := by simp [State.countCycles]
@[simp] theorem State.countCycles_regs (s : State) : (s.countCycles).regs = s.regs := by simp [State.countCycles]
@[simp] theorem State.countCycles_bkpt (s : State) : (s.countCycles).bkpt = s.bkpt := by simp [State.countCycles]
@[simp] theorem State.countCycles_serial (s : State) : (s.countCycles).serial = s.serial := by simp [State.countCycles]
@[simp] theorem State.countCycles_forceExec (s : State) : (s.countCycles).forceExec = s.forceExec := by simp [State.countCycles]
@[simp] theorem State.countCycles_faultTest (s : State) : (s.countCycles).faultTest = s.faultTest := by simp [State.countCycles]
@[simp] theorem State.countCycles_ar (s : State) : (s.countCycles).ar = s.ar := by simp [State.countCycles]
@[simp] theorem State.countCycles_arValid (s : State) : (s.countCycles).arValid = s.arValid := by simp [State.countCycles]
@[simp] theorem State.countCycles_keys (s : State) : (s.countCycles).keys = s.keys := by simp [State.countCycles]
@[simp] theorem State.countCycles_jobRF (s : State) : (s.countCycles).jobRF = s.jobRF := by simp [State.countCycles]
@[simp] theorem State.countCycles_invPkg (s : State) : (s.countCycles).invPkg = s.invPkg := by simp [State.countCycles]
@[simp] theorem State.countCycles_xfer (s : State) : (s.countCycles).xfer = s.xfer := by simp [State.countCycles]
@[simp] theorem State.countCycles_dom (s : State) : (s.countCycles).dom = s.dom := by simp [State.countCycles]
@[simp] theorem State.countCycles_link (s : State) : (s.countCycles).link = s.link := by simp [State.countCycles]
@[simp] theorem State.countCycles_stale (s : State) : (s.countCycles).stale = s.stale := by simp [State.countCycles]
@[simp] theorem State.countCycles_waits (s : State) : (s.countCycles).waits = s.waits := by simp [State.countCycles]
@[simp] theorem State.countCycles_sent (s : State) : (s.countCycles).sent = s.sent := by simp [State.countCycles]
@[simp] theorem State.countCycles_mem (s : State) : (s.countCycles).mem = s.mem := by simp [State.countCycles]
@[simp] theorem State.countCycles_cb (s : State) : (s.countCycles).cb = s.cb := by simp [State.countCycles]
@[simp] theorem State.countCycles_env (s : State) : (s.countCycles).env = s.env := by simp [State.countCycles]

/-! ### `State.loadRegs` -/

@[simp] theorem State.loadRegs_params (s : State) (a : Nat) : (s.loadRegs a).params = s.params := by unfold State.loadRegs; rfl
@[simp] theorem State.loadRegs_mode (s : State) (a : Nat) : (s.loadRegs a).mode = s.mode := by unfold State.loadRegs; rfl
@[simp] theorem State.loadRegs_pc (s : State) (a : Nat) : (s.loadRegs a).pc = s.pc := by unfold State.loadRegs; rfl
@[simp] theorem State.loadRegs_dfr (s : State) (a : Nat) : (s.loadRegs a).dfr = s.dfr := by unfold State.loadRegs; rfl
@[simp] theorem State.loadRegs_ir (s : State) (a : Nat) : (s.loadRegs a).ir = s.ir := by unfold State.loadRegs; rfl
@[simp] theorem State.loadRegs_bkpt (s : State) (a : Nat) : (s.loadRegs a).bkpt = s.bkpt := by unfold State.loadRegs; rfl
@[simp] theorem State.loadRegs_serial (s : State) (a : Nat) : (s.loadRegs a).serial = s.serial := by unfold State.loadRegs; rfl
@[simp] theorem State.loadRegs_forceExec (s : State) (a : Nat) : (s.loadRegs a).forceExec = s.forceExec := by unfold State.loadRegs; rfl
@[simp] theorem State.loadRegs_faultTest (s : State) (a : Nat) : (s.loadRegs a).faultTest = s.faultTest := by unfold State.loadRegs; rfl
@[simp] theorem State.loadRegs_mit (s : State) (a : Nat) : (s.loadRegs a).mit = s.mit := by unfold State.loadRegs; rfl
@[simp] theorem State.loadRegs_jit (s : State) (a : Nat) : (s.loadRegs a).jit = s.jit := by unfold State.loadRegs; rfl
@[simp] theorem State.loadRegs_rtc (s : State) (a : Nat) : (s.loadRegs a).rtc = s.rtc := by unfold State.loadRegs; rfl
@[simp] theorem State.loadRegs_ic (s : State) (a : Nat) : (s.loadRegs a).ic = s.ic := by unfold State.loadRegs; rfl
@[simp] theorem State.loadRegs_ar (s : State) (a : Nat) : (s.loadRegs a).ar = s.ar := by unfold State.loadRegs; rfl
@[simp] theorem State.loadRegs_arValid (s : State) (a : Nat) : (s.loadRegs a).arValid = s.arValid := by unfold State.loadRegs; rfl
@[simp] theorem State.loadRegs_keys (s : State) (a : Nat) : (s.loadRegs a).keys = s.keys := by unfold State.loadRegs; rfl
@[simp] theorem State.loadRegs_jobRF (s : State) (a : Nat) : (s.loadRegs a).jobRF = s.jobRF := by unfold State.loadRegs; rfl
@[simp] theorem State.loadRegs_invPkg (s : State) (a : Nat) : (s.loadRegs a).invPkg = s.invPkg := by unfold State.loadRegs; rfl
@[simp] theorem State.loadRegs_xfer (s : State) (a : Nat) : (s.loadRegs a).xfer = s.xfer := by unfold State.loadRegs; rfl
@[simp] theorem State.loadRegs_dom (s : State) (a : Nat) : (s.loadRegs a).dom = s.dom := by unfold State.loadRegs; rfl
@[simp] theorem State.loadRegs_link (s : State) (a : Nat) : (s.loadRegs a).link = s.link := by unfold State.loadRegs; rfl
@[simp] theorem State.loadRegs_stale (s : State) (a : Nat) : (s.loadRegs a).stale = s.stale := by unfold State.loadRegs; rfl
@[simp] theorem State.loadRegs_waits (s : State) (a : Nat) : (s.loadRegs a).waits = s.waits := by unfold State.loadRegs; rfl
@[simp] theorem State.loadRegs_sent (s : State) (a : Nat) : (s.loadRegs a).sent = s.sent := by unfold State.loadRegs; rfl
@[simp] theorem State.loadRegs_taken (s : State) (a : Nat) : (s.loadRegs a).taken = s.taken := by unfold State.loadRegs; rfl
@[simp] theorem State.loadRegs_arrivals (s : State) (a : Nat) : (s.loadRegs a).arrivals = s.arrivals := by unfold State.loadRegs; rfl
@[simp] theorem State.loadRegs_mem (s : State) (a : Nat) : (s.loadRegs a).mem = s.mem := by unfold State.loadRegs; rfl
@[simp] theorem State.loadRegs_cb (s : State) (a : Nat) : (s.loadRegs a).cb = s.cb := by unfold State.loadRegs; rfl
@[simp] theorem State.loadRegs_env (s : State) (a : Nat) : (s.loadRegs a).env = s.env := by unfold State.loadRegs; rfl
@[simp] theorem State.loadRegs_time (s : State) (a : Nat) : (s.loadRegs a).time = s.time := by unfold State.loadRegs; rfl
@[simp] theorem State.loadRegs_lag (s : State) (a : Nat) : (s.loadRegs a).lag = s.lag := by unfold State.loadRegs; rfl
@[simp] theorem State.loadRegs_free (s : State) (a : Nat) : (s.loadRegs a).free = s.free := by unfold State.loadRegs; rfl

/-! ### `State.setRegW` -/

@[simp] theorem State.setRegW_params (s : State) (w : Width) (d : Byte) (v : Word) : (s.setRegW w d v).params = s.params := by cases w <;> rfl
@[simp] theorem State.setRegW_mode (s : State) (w : Width) (d : Byte) (v : Word) : (s.setRegW w d v).mode = s.mode := by cases w <;> rfl
@[simp] theorem State.setRegW_pc (s : State) (w : Width) (d : Byte) (v : Word) : (s.setRegW w d v).pc = s.pc := by cases w <;> rfl
@[simp] theorem State.setRegW_dfr (s : State) (w : Width) (d : Byte) (v : Word) : (s.setRegW w d v).dfr = s.dfr := by cases w <;> rfl
@[simp] theorem State.setRegW_ir (s : State) (w : Width) (d : Byte) (v : Word) : (s.setRegW w d v).ir = s.ir := by cases w <;> rfl
@[simp] theorem State.setRegW_bkpt (s : State) (w : Width) (d : Byte) (v : Word) : (s.setRegW w d v).bkpt = s.bkpt := by cases w <;> rfl
@[simp] theorem State.setRegW_serial (s : State) (w : Width) (d : Byte) (v : Word) : (s.setRegW w d v).serial = s.serial := by cases w <;> rfl
@[simp] theorem State.setRegW_forceExec (s : State) (w : Width) (d : Byte) (v : Word) : (s.setRegW w d v).forceExec = s.forceExec := by cases w <;> rfl
@[simp] theorem State.setRegW_faultTest (s : State) (w : Width) (d : Byte) (v : Word) : (s.setRegW w d v).faultTest = s.faultTest := by cases w <;> rfl
@[simp] theorem State.setRegW_mit (s : State) (w : Width) (d : Byte) (v : Word) : (s.setRegW w d v).mit = s.mit := by cases w <;> rfl
@[simp] theorem State.setRegW_jit (s : State) (w : Width) (d : Byte) (v : Word) : (s.setRegW w d v).jit = s.jit := by cases w <;> rfl
@[simp] theorem State.setRegW_rtc (s : State) (w : Width) (d : Byte) (v : Word) : (s.setRegW w d v).rtc = s.rtc := by cases w <;> rfl
@[simp] theorem State.setRegW_ic (s : State) (w : Width) (d : Byte) (v : Word) : (s.setRegW w d v).ic = s.ic := by cases w <;> rfl
@[simp] theorem State.setRegW_ar (s : State) (w : Width) (d : Byte) (v : Word) : (s.setRegW w d v).ar = s.ar := by cases w <;> rfl
@[simp] theorem State.setRegW_arValid (s : State) (w : Width) (d : Byte) (v : Word) : (s.setRegW w d v).arValid = s.arValid := by cases w <;> rfl
@[simp] theorem State.setRegW_keys (s : State) (w : Width) (d : Byte) (v : Word) : (s.setRegW w d v).keys = s.keys := by cases w <;> rfl
@[simp] theorem State.setRegW_jobRF (s : State) (w : Width) (d : Byte) (v : Word) : (s.setRegW w d v).jobRF = s.jobRF := by cases w <;> rfl
@[simp] theorem State.setRegW_invPkg (s : State) (w : Width) (d : Byte) (v : Word) : (s.setRegW w d v).invPkg = s.invPkg := by cases w <;> rfl
@[simp] theorem State.setRegW_xfer (s : State) (w : Width) (d : Byte) (v : Word) : (s.setRegW w d v).xfer = s.xfer := by cases w <;> rfl
@[simp] theorem State.setRegW_dom (s : State) (w : Width) (d : Byte) (v : Word) : (s.setRegW w d v).dom = s.dom := by cases w <;> rfl
@[simp] theorem State.setRegW_link (s : State) (w : Width) (d : Byte) (v : Word) : (s.setRegW w d v).link = s.link := by cases w <;> rfl
@[simp] theorem State.setRegW_stale (s : State) (w : Width) (d : Byte) (v : Word) : (s.setRegW w d v).stale = s.stale := by cases w <;> rfl
@[simp] theorem State.setRegW_waits (s : State) (w : Width) (d : Byte) (v : Word) : (s.setRegW w d v).waits = s.waits := by cases w <;> rfl
@[simp] theorem State.setRegW_sent (s : State) (w : Width) (d : Byte) (v : Word) : (s.setRegW w d v).sent = s.sent := by cases w <;> rfl
@[simp] theorem State.setRegW_taken (s : State) (w : Width) (d : Byte) (v : Word) : (s.setRegW w d v).taken = s.taken := by cases w <;> rfl
@[simp] theorem State.setRegW_arrivals (s : State) (w : Width) (d : Byte) (v : Word) : (s.setRegW w d v).arrivals = s.arrivals := by cases w <;> rfl
@[simp] theorem State.setRegW_mem (s : State) (w : Width) (d : Byte) (v : Word) : (s.setRegW w d v).mem = s.mem := by cases w <;> rfl
@[simp] theorem State.setRegW_cb (s : State) (w : Width) (d : Byte) (v : Word) : (s.setRegW w d v).cb = s.cb := by cases w <;> rfl
@[simp] theorem State.setRegW_env (s : State) (w : Width) (d : Byte) (v : Word) : (s.setRegW w d v).env = s.env := by cases w <;> rfl
@[simp] theorem State.setRegW_time (s : State) (w : Width) (d : Byte) (v : Word) : (s.setRegW w d v).time = s.time := by cases w <;> rfl
@[simp] theorem State.setRegW_lag (s : State) (w : Width) (d : Byte) (v : Word) : (s.setRegW w d v).lag = s.lag := by cases w <;> rfl
@[simp] theorem State.setRegW_free (s : State) (w : Width) (d : Byte) (v : Word) : (s.setRegW w d v).free = s.free := by cases w <;> rfl

/-! ### The fields that an update does change -/

@[simp] theorem State.goto_pc (s : State) (a : Addr) : (s.goto a).pc = halfAligned a := rfl
@[simp] theorem State.next32_pc (s : State) : s.next32.pc = halfAligned (s.pc + 32) := rfl
@[simp] theorem State.next64_pc (s : State) : s.next64.pc = halfAligned (s.pc + 64) := rfl
@[simp] theorem State.setDfr_dfr (s : State) (x : Word) : (s.setDfr x).dfr = deriveDfr x := rfl
@[simp] theorem State.setFlag_dfr (s : State) (i : Nat) (v : Bool) :
    (s.setFlag i v).dfr = deriveDfr (setBitAt s.dfr i v) := rfl
@[simp] theorem State.raiseFlags_dfr (s : State) (k : FlagKind) (f : FpFlags) :
    (s.raiseFlags k f).dfr = deriveDfr (s.dfr ||| raisedBits k f) := rfl
@[simp] theorem State.setFreeFlags_free (s : State) (a b c : Option Bool) : (s.setFreeFlags a b c).free = s.free + 1 := rfl
@[simp] theorem State.voidStack_stale (s : State) : s.voidStack.stale = [] := rfl
@[simp] theorem State.post_ir (s : State) (b : Nat) : (s.post b).ir = setBitAt s.ir b true := rfl
@[simp] theorem State.putWord_mem (s : State) (p : Nat) (v : Word) :
    (s.putWord p v).mem = Memory.setWord s.mem (p / 8) v := by simp [State.putWord]
@[simp] theorem State.putHalf_mem (s : State) (p : Nat) (v : Half) :
    (s.putHalf p v).mem = Memory.setHalf s.mem (p / 8) v := by simp [State.putHalf]
@[simp] theorem State.putByte_mem (s : State) (p : Nat) (v : Byte) :
    (s.putByte p v).mem = Memory.setByte s.mem (p / 8) v := by simp [State.putByte]

/-! ### Registers -/

@[simp] theorem State.setReg_reg_self (s : State) (n : Byte) (v : Word) : (s.setReg n v).reg n = v := by
  simp [State.setReg, State.reg]

theorem State.setReg_reg_ne (s : State) {n m : Byte} (v : Word) (h : m ≠ n) : (s.setReg n v).reg m = s.reg m := by
  have h' : ¬ n.toNat = m.toNat := fun e => h (BitVec.eq_of_toNat_eq e.symm)
  simp [State.setReg, State.reg, h']

theorem State.setReg_reg (s : State) (n m : Byte) (v : Word) :
    (s.setReg n v).reg m = if m = n then v else s.reg m := by
  split
  · next h => subst h; simp
  · next h => exact s.setReg_reg_ne v h

@[simp] theorem State.goto_reg (s : State) (a : Addr) (m : Byte) : (s.goto a).reg m = s.reg m := by simp [State.reg]
@[simp] theorem State.goto_reg32 (s : State) (a : Addr) (m : Byte) : (s.goto a).reg32 m = s.reg32 m := by simp [State.reg32]
@[simp] theorem State.next32_reg (s : State) (m : Byte) : (s.next32).reg m = s.reg m := by simp [State.reg]
@[simp] theorem State.next32_reg32 (s : State) (m : Byte) : (s.next32).reg32 m = s.reg32 m := by simp [State.reg32]
@[simp] theorem State.next64_reg (s : State) (m : Byte) : (s.next64).reg m = s.reg m := by simp [State.reg]
@[simp] theorem State.next64_reg32 (s : State) (m : Byte) : (s.next64).reg32 m = s.reg32 m := by simp [State.reg32]
@[simp] theorem State.setDfr_reg (s : State) (x : Word) (m : Byte) : (s.setDfr x).reg m = s.reg m := by simp [State.reg]
@[simp] theorem State.setDfr_reg32 (s : State) (x : Word) (m : Byte) : (s.setDfr x).reg32 m = s.reg32 m := by simp [State.reg32]
@[simp] theorem State.setFlag_reg (s : State) (i : Nat) (v : Bool) (m : Byte) : (s.setFlag i v).reg m = s.reg m := by simp [State.reg]
@[simp] theorem State.setFlag_reg32 (s : State) (i : Nat) (v : Bool) (m : Byte) : (s.setFlag i v).reg32 m = s.reg32 m := by simp [State.reg32]
@[simp] theorem State.raiseFlags_reg (s : State) (k : FlagKind) (f : FpFlags) (m : Byte) : (s.raiseFlags k f).reg m = s.reg m := by simp [State.reg]
@[simp] theorem State.raiseFlags_reg32 (s : State) (k : FlagKind) (f : FpFlags) (m : Byte) : (s.raiseFlags k f).reg32 m = s.reg32 m := by simp [State.reg32]
@[simp] theorem State.setFreeFlags_reg (s : State) (a b c : Option Bool) (m : Byte) : (s.setFreeFlags a b c).reg m = s.reg m := by simp [State.reg]
@[simp] theorem State.setFreeFlags_reg32 (s : State) (a b c : Option Bool) (m : Byte) : (s.setFreeFlags a b c).reg32 m = s.reg32 m := by simp [State.reg32]
@[simp] theorem State.voidStack_reg (s : State) (m : Byte) : (s.voidStack).reg m = s.reg m := by simp [State.reg]
@[simp] theorem State.voidStack_reg32 (s : State) (m : Byte) : (s.voidStack).reg32 m = s.reg32 m := by simp [State.reg32]
@[simp] theorem State.post_reg (s : State) (b : Nat) (m : Byte) : (s.post b).reg m = s.reg m := by simp [State.reg]
@[simp] theorem State.post_reg32 (s : State) (b : Nat) (m : Byte) : (s.post b).reg32 m = s.reg32 m := by simp [State.reg32]
@[simp] theorem State.keepStale_reg (s : State) (h n : Nat) (m : Byte) : (s.keepStale h n).reg m = s.reg m := by simp [State.reg]
@[simp] theorem State.keepStale_reg32 (s : State) (h n : Nat) (m : Byte) : (s.keepStale h n).reg32 m = s.reg32 m := by simp [State.reg32]
@[simp] theorem State.breakpoint_reg (s : State) (b : Bool) (a : Addr) (m : Byte) : (s.breakpoint b a).reg m = s.reg m := by simp [State.reg]
@[simp] theorem State.breakpoint_reg32 (s : State) (b : Bool) (a : Addr) (m : Byte) : (s.breakpoint b a).reg32 m = s.reg32 m := by simp [State.reg32]
@[simp] theorem State.putWord_reg (s : State) (p : Nat) (v : Word) (m : Byte) : (s.putWord p v).reg m = s.reg m := by simp [State.reg]
@[simp] theorem State.putWord_reg32 (s : State) (p : Nat) (v : Word) (m : Byte) : (s.putWord p v).reg32 m = s.reg32 m := by simp [State.reg32]
@[simp] theorem State.putHalf_reg (s : State) (p : Nat) (v : Half) (m : Byte) : (s.putHalf p v).reg m = s.reg m := by simp [State.reg]
@[simp] theorem State.putHalf_reg32 (s : State) (p : Nat) (v : Half) (m : Byte) : (s.putHalf p v).reg32 m = s.reg32 m := by simp [State.reg32]
@[simp] theorem State.putByte_reg (s : State) (p : Nat) (v : Byte) (m : Byte) : (s.putByte p v).reg m = s.reg m := by simp [State.reg]
@[simp] theorem State.putByte_reg32 (s : State) (p : Nat) (v : Byte) (m : Byte) : (s.putByte p v).reg32 m = s.reg32 m := by simp [State.reg32]
@[simp] theorem State.putBit_reg (s : State) (p : Nat) (v : Bool) (m : Byte) : (s.putBit p v).reg m = s.reg m := by simp [State.reg]
@[simp] theorem State.putBit_reg32 (s : State) (p : Nat) (v : Bool) (m : Byte) : (s.putBit p v).reg32 m = s.reg32 m := by simp [State.reg32]
@[simp] theorem State.pushDown_reg (s : State) (i : Nat) (w : Word) (m : Byte) : (s.pushDown i w).reg m = s.reg m := by simp [State.reg]
@[simp] theorem State.pushDown_reg32 (s : State) (i : Nat) (w : Word) (m : Byte) : (s.pushDown i w).reg32 m = s.reg32 m := by simp [State.reg32]
@[simp] theorem State.useEntry_reg (s : State) (h : Hit) (m : Byte) : (s.useEntry h).reg m = s.reg m := by simp [State.reg]
@[simp] theorem State.useEntry_reg32 (s : State) (h : Hit) (m : Byte) : (s.useEntry h).reg32 m = s.reg32 m := by simp [State.reg32]
@[simp] theorem State.compareReads_reg (s : State) (a n : Nat) (m : Byte) : (s.compareReads a n).reg m = s.reg m := by simp [State.reg]
@[simp] theorem State.compareReads_reg32 (s : State) (a n : Nat) (m : Byte) : (s.compareReads a n).reg32 m = s.reg32 m := by simp [State.reg32]
@[simp] theorem State.countCycles_reg (s : State) (m : Byte) : (s.countCycles).reg m = s.reg m := by simp [State.reg]
@[simp] theorem State.countCycles_reg32 (s : State) (m : Byte) : (s.countCycles).reg32 m = s.reg32 m := by simp [State.reg32]

/-! ### The halves of a word -/

theorem getLsbD_halves (l r : Half) (i : Nat) :
    (l ++ r : Word).getLsbD i = if i < 32 then r.getLsbD i else l.getLsbD (i - 32) := BitVec.getLsbD_append

@[simp] theorem leftHalf_append (l r : Half) : leftHalf (l ++ r) = l := by
  apply BitVec.eq_of_getLsbD_eq
  intro i hi
  simp [leftHalf, getLsbD_halves, hi]

@[simp] theorem rightHalf_append (l r : Half) : rightHalf (l ++ r) = r := by
  apply BitVec.eq_of_getLsbD_eq
  intro i hi
  simp [rightHalf, getLsbD_halves, hi]

@[simp] theorem halves_append (x : Word) : (leftHalf x ++ rightHalf x : Word) = x := by
  apply BitVec.eq_of_getLsbD_eq
  intro i hi
  rw [getLsbD_halves]
  simp only [leftHalf, rightHalf, BitVec.getLsbD_extractLsb']
  split
  · simp_all
  · have h : i - 32 < 32 := by omega
    have h' : 32 + (i - 32) = i := by omega
    simp [h, h']

/-- Two 32-bit registers of the same half of the same word are one (R12). -/
theorem halfOf_inj {d e : Byte} (h : halfOf e = halfOf d) (hb : bitAt e 7 = bitAt d 7) : e = d := by
  apply BitVec.eq_of_toNat_eq
  have h1 : e.toNat / 2 = d.toNat / 2 := by
    have := congrArg BitVec.toNat h
    simpa [halfOf, BitVec.toNat_ushiftRight, Nat.shiftRight_eq_div_pow] using this
  have h2 : ∀ x : Byte, x.toNat % 2 = (bitAt x 7).toNat := by
    intro x
    simp [bitAt, BitVec.getMsbD, BitVec.getLsbD, Nat.testBit_zero]
    rcases Nat.mod_two_eq_zero_or_one x.toNat with h | h <;> simp [h]
  have h3 := h2 e
  have h4 := h2 d
  rw [hb] at h3
  omega

/-- A 32-bit register is written alone: every other 32-bit register is as before (R12). -/
theorem State.setReg32_reg32 (s : State) (d e : Byte) (v : Half) :
    (s.setReg32 d v).reg32 e = if e = d then v else s.reg32 e := by
  unfold State.setReg32 State.reg32
  simp only [State.setReg_reg]
  by_cases he : e = d
  · subst he
    cases h : bitAt e 7 <;> simp
  · rw [if_neg he]
    by_cases hh : halfOf e = halfOf d
    · have hb : bitAt e 7 ≠ bitAt d 7 := fun hb => he (halfOf_inj hh hb)
      cases h : bitAt e 7 <;> cases h' : bitAt d 7 <;> simp_all
    · simp [hh]

/-- The 64-bit registers that do not hold 32-bit register `d` are as before. -/
theorem State.setReg32_reg_ne (s : State) {d n : Byte} (v : Half) (h : n ≠ halfOf d) :
    (s.setReg32 d v).reg n = s.reg n := s.setReg_reg_ne _ h

end Sys2Proof.Machine
end

