-- ==== Sys2Proof/Laws/Memory.lean ====
section
/-! SUPPORT. The laws of memory: what a read gives after a write, and that every operation keeps the canonical form. -/

namespace Sys2Proof.Machine

/-! ### One byte -/

/-- A canonical list stays canonical without its first cell. -/
theorem Memory.wf_tail {c : Host.Cell} {m : List Host.Cell} (h : Memory.wf (c :: m) = true) : Memory.wf m = true := by
  cases m with
  | nil => rfl
  | cons d m => obtain ⟨k, v⟩ := c; obtain ⟨k', v'⟩ := d; simp only [Memory.wf, Bool.and_eq_true] at h; exact h.2

/-- The first cell of a canonical list holds no unlisted value. -/
theorem Memory.wf_head {k : Nat} {v : Byte} {m : List Host.Cell} (h : Memory.wf ((k, v) :: m) = true) :
    v ≠ Memory.unlisted := by
  cases m with
  | nil => simpa [Memory.wf] using h
  | cons d m => obtain ⟨k', v'⟩ := d; simp only [Memory.wf, Bool.and_eq_true] at h; simpa using h.1.1

/-- Every cell behind the first one has a higher address. -/
theorem Memory.wf_lt {k : Nat} {v : Byte} {m : List Host.Cell} (h : Memory.wf ((k, v) :: m) = true) :
    ∀ c ∈ m, k < c.1 := by
  induction m generalizing k v with
  | nil => simp
  | cons d m ih =>
    obtain ⟨k', v'⟩ := d
    have hlt : k < k' := by simp only [Memory.wf, Bool.and_eq_true, decide_eq_true_eq] at h; exact h.1.2
    intro c hc
    rcases List.mem_cons.mp hc with rfl | hc
    · exact hlt
    · exact Nat.lt_trans hlt (ih (Memory.wf_tail h) c hc)

/-- A canonical list from a head and a canonical tail. -/
theorem Memory.wf_cons {k : Nat} {v : Byte} {m : List Host.Cell} (hv : v ≠ Memory.unlisted) (hm : Memory.wf m = true)
    (hk : ∀ c ∈ m, k < c.1) : Memory.wf ((k, v) :: m) = true := by
  cases m with
  | nil => simpa [Memory.wf] using hv
  | cons d m =>
    obtain ⟨k', v'⟩ := d
    simp only [Memory.wf, Bool.and_eq_true, decide_eq_true_eq]
    exact ⟨⟨by simpa using hv, hk _ (List.mem_cons_self ..)⟩, hm⟩

/-- An address below every cell is unlisted. -/
theorem Memory.byte_of_lt {m : List Host.Cell} {a : Nat} (h : ∀ c ∈ m, a < c.1) : Memory.byte m a = Memory.unlisted := by
  induction m with
  | nil => rfl
  | cons d m ih =>
    obtain ⟨k, v⟩ := d
    have : k ≠ a := by have := h (k, v) (List.mem_cons_self ..); omega
    simp only [Memory.byte, this, if_false]
    exact ih fun c hc => h c (List.mem_cons_of_mem _ hc)

/-- The cells after a store: those there were, and one at the address stored to. -/
theorem Memory.mem_setByte {m : List Host.Cell} {a : Nat} {v : Byte} {c : Host.Cell}
    (h : c ∈ Memory.setByte m a v) : c ∈ m ∨ c = (a, v) := by
  induction m with
  | nil =>
    simp only [Memory.setByte] at h
    split at h
    · simp at h
    · exact .inr (List.mem_singleton.mp h)
  | cons d m ih =>
    obtain ⟨k, u⟩ := d
    simp only [Memory.setByte] at h
    split at h
    · split at h
      · exact .inl h
      · rcases List.mem_cons.mp h with h | h
        · exact .inr h
        · exact .inl h
    · split at h
      · split at h
        · exact .inl (List.mem_cons_of_mem _ h)
        · rcases List.mem_cons.mp h with h | h
          · exact .inr h
          · exact .inl (List.mem_cons_of_mem _ h)
      · rcases List.mem_cons.mp h with h | h
        · exact .inl (h ▸ List.mem_cons_self ..)
        · rcases ih h with h | h
          · exact .inl (List.mem_cons_of_mem _ h)
          · exact .inr h

/-- A store keeps the canonical form. -/
theorem Memory.wf_setByte {m : List Host.Cell} (h : Memory.wf m = true) (a : Nat) (v : Byte) :
    Memory.wf (Memory.setByte m a v) = true := by
  induction m with
  | nil =>
    simp only [Memory.setByte]
    split
    · rfl
    · next hv => exact Memory.wf_cons hv rfl (by simp)
  | cons d m ih =>
    obtain ⟨k, u⟩ := d
    have hlt := Memory.wf_lt h
    have ht := Memory.wf_tail h
    simp only [Memory.setByte]
    split
    · next ha =>
      split
      · exact h
      · next hv =>
        refine Memory.wf_cons hv h fun c hc => ?_
        rcases List.mem_cons.mp hc with rfl | hc
        · exact ha
        · exact Nat.lt_trans ha (hlt c hc)
    · split
      · next hak =>
        split
        · exact ht
        · next hv => exact Memory.wf_cons hv ht fun c hc => hak ▸ hlt c hc
      · refine Memory.wf_cons (Memory.wf_head h) (ih ht) fun c hc => ?_
        rcases Memory.mem_setByte hc with hc | rfl
        · exact hlt c hc
        · simp only; omega

/-- Reading a byte after a store: the byte stored at its address, and what was there elsewhere. -/
theorem Memory.byte_setByte {m : List Host.Cell} (h : Memory.wf m = true) (a b : Nat) (v : Byte) :
    Memory.byte (Memory.setByte m a v) b = if b = a then v else Memory.byte m b := by
  induction m with
  | nil =>
    simp only [Memory.setByte]
    split
    · next hv => subst hv; simp [Memory.byte]
    · by_cases hb : b = a
      · subst hb; simp [Memory.byte]
      · have : ¬ a = b := fun e => hb e.symm
        simp [Memory.byte, hb, this]
  | cons d m ih =>
    obtain ⟨k, u⟩ := d
    have hlt := Memory.wf_lt h
    simp only [Memory.setByte]
    split
    · next ha =>
      split
      · next hv =>
        by_cases hb : b = a
        · subst hb; subst hv
          rw [if_pos rfl]
          refine Memory.byte_of_lt fun c hc => ?_
          rcases List.mem_cons.mp hc with rfl | hc
          · exact ha
          · exact Nat.lt_trans ha (hlt c hc)
        · rw [if_neg hb]
      · by_cases hb : b = a
        · subst hb; simp [Memory.byte]
        · have : ¬ a = b := fun e => hb e.symm
          simp [Memory.byte, hb, this]
    · split
      · next hak =>
        subst hak
        by_cases hb : b = a
        · subst hb
          rw [if_pos rfl]
          split
          · next hv => subst hv; exact Memory.byte_of_lt hlt
          · simp [Memory.byte]
        · have : ¬ a = b := fun e => hb e.symm
          rw [if_neg hb]
          split <;> simp [Memory.byte, this]
      · next hne =>
        by_cases hb : k = b
        · subst hb
          have : ¬ k = a := fun e => hne e.symm
          simp [Memory.byte, this]
        · simp only [Memory.byte, hb, if_false]
          exact ih (Memory.wf_tail h)

/-! ### Half words and words -/

theorem Memory.wf_setHalf {m : List Host.Cell} (h : Memory.wf m = true) (a : Nat) (v : Half) :
    Memory.wf (Memory.setHalf m a v) = true :=
  Memory.wf_setByte (Memory.wf_setByte (Memory.wf_setByte (Memory.wf_setByte h _ _) _ _) _ _) _ _

theorem Memory.wf_setWord {m : List Host.Cell} (h : Memory.wf m = true) (a : Nat) (v : Word) :
    Memory.wf (Memory.setWord m a v) = true := Memory.wf_setHalf (Memory.wf_setHalf h _ _) _ _

/-- Every byte after a store of a half word. -/
theorem Memory.byte_setHalf {m : List Host.Cell} (h : Memory.wf m = true) (a b : Nat) (v : Half) :
    Memory.byte (Memory.setHalf m a v) b =
      if b = a + 3 then v.extractLsb' 0 8 else if b = a + 2 then v.extractLsb' 8 8
      else if b = a + 1 then v.extractLsb' 16 8 else if b = a then v.extractLsb' 24 8 else Memory.byte m b := by
  unfold Memory.setHalf
  rw [Memory.byte_setByte (Memory.wf_setByte (Memory.wf_setByte (Memory.wf_setByte h _ _) _ _) _ _),
    Memory.byte_setByte (Memory.wf_setByte (Memory.wf_setByte h _ _) _ _),
    Memory.byte_setByte (Memory.wf_setByte h _ _), Memory.byte_setByte h]

/-- A store of a half word leaves every byte outside it. -/
theorem Memory.byte_setHalf_out {m : List Host.Cell} (h : Memory.wf m = true) {a b : Nat} (v : Half)
    (hb : b < a ∨ a + 4 ≤ b) : Memory.byte (Memory.setHalf m a v) b = Memory.byte m b := by
  rw [Memory.byte_setHalf h, if_neg (by omega), if_neg (by omega), if_neg (by omega), if_neg (by omega)]

/-- A store of a word leaves every byte outside it. -/
theorem Memory.byte_setWord_out {m : List Host.Cell} (h : Memory.wf m = true) {a b : Nat} (v : Word)
    (hb : b < a ∨ a + 8 ≤ b) : Memory.byte (Memory.setWord m a v) b = Memory.byte m b := by
  unfold Memory.setWord
  rw [Memory.byte_setHalf_out (Memory.wf_setHalf h _ _) _ (by omega), Memory.byte_setHalf_out h _ (by omega)]

/-- The four bytes of a half word, joined. -/
theorem half_of_bytes (v : Half) :
    v.extractLsb' 24 8 ++ v.extractLsb' 16 8 ++ v.extractLsb' 8 8 ++ v.extractLsb' 0 8 = v := by
  apply BitVec.eq_of_getLsbD_eq
  intro i hi
  simp only [BitVec.getLsbD_append, BitVec.getLsbD_extractLsb']
  by_cases h1 : i < 8
  · simp [h1]
  · by_cases h2 : i < 16
    · have : i - 8 < 8 := by omega
      have e : 8 + (i - 8) = i := by omega
      simp [h1, this, e]
    · by_cases h3 : i < 24
      · have a : ¬ i - 8 < 8 := by omega
        have b : i - 8 - 8 < 8 := by omega
        have e : 16 + (i - 8 - 8) = i := by omega
        simp [h1, a, b, e]
      · have a : ¬ i - 8 < 8 := by omega
        have b : ¬ i - 8 - 8 < 8 := by omega
        have c : i - 8 - 8 - 8 < 8 := by omega
        have e : 24 + (i - 8 - 8 - 8) = i := by omega
        simp [h1, a, b, c, e]

/-- A half word that was stored is read back. -/
theorem Memory.half_setHalf {m : List Host.Cell} (h : Memory.wf m = true) (a : Nat) (v : Half) :
    Memory.half (Memory.setHalf m a v) a = v := by
  have h0 : Memory.byte (Memory.setHalf m a v) a = v.extractLsb' 24 8 := by
    rw [Memory.byte_setHalf h, if_neg (by omega), if_neg (by omega), if_neg (by omega), if_pos rfl]
  have h1 : Memory.byte (Memory.setHalf m a v) (a + 1) = v.extractLsb' 16 8 := by
    rw [Memory.byte_setHalf h, if_neg (by omega), if_neg (by omega), if_pos rfl]
  have h2 : Memory.byte (Memory.setHalf m a v) (a + 2) = v.extractLsb' 8 8 := by
    rw [Memory.byte_setHalf h, if_neg (by omega), if_pos rfl]
  have h3 : Memory.byte (Memory.setHalf m a v) (a + 3) = v.extractLsb' 0 8 := by
    rw [Memory.byte_setHalf h, if_pos rfl]
  rw [Memory.half, h0, h1, h2, h3]
  exact half_of_bytes v

/-- A half word is as before where its bytes are. -/
theorem Memory.half_congr {m m' : List Host.Cell} {a : Nat}
    (h : ∀ b, a ≤ b → b < a + 4 → Memory.byte m b = Memory.byte m' b) : Memory.half m a = Memory.half m' a := by
  simp only [Memory.half]
  rw [h a (by omega) (by omega), h (a + 1) (by omega) (by omega), h (a + 2) (by omega) (by omega),
    h (a + 3) (by omega) (by omega)]

/-- A word is as before where its bytes are. -/
theorem Memory.word_congr {m m' : List Host.Cell} {a : Nat}
    (h : ∀ b, a ≤ b → b < a + 8 → Memory.byte m b = Memory.byte m' b) : Memory.word m a = Memory.word m' a := by
  simp only [Memory.word]
  rw [Memory.half_congr fun b hb hb' => h b hb (by omega), Memory.half_congr fun b hb hb' => h b (by omega) (by omega)]

/-- A word that was stored is read back. -/
theorem Memory.word_setWord {m : List Host.Cell} (h : Memory.wf m = true) (a : Nat) (v : Word) :
    Memory.word (Memory.setWord m a v) a = v := by
  have h1 : Memory.half (Memory.setWord m a v) a = leftHalf v := by
    unfold Memory.setWord
    rw [Memory.half_congr fun b hb hb' => Memory.byte_setHalf_out (Memory.wf_setHalf h _ _) _ (.inl (by omega))]
    exact Memory.half_setHalf h a _
  have h2 : Memory.half (Memory.setWord m a v) (a + 4) = rightHalf v := by
    unfold Memory.setWord
    exact Memory.half_setHalf (Memory.wf_setHalf h _ _) _ _
  rw [Memory.word, h1, h2]
  exact halves_append v

/-- A word outside a stored word is as before. -/
theorem Memory.word_setWord_out {m : List Host.Cell} (h : Memory.wf m = true) {a b : Nat} (v : Word)
    (hb : b + 8 ≤ a ∨ a + 8 ≤ b) : Memory.word (Memory.setWord m a v) b = Memory.word m b :=
  Memory.word_congr fun c hc hc' => Memory.byte_setWord_out h v (by omega)

/-! ### The larger stores -/

theorem wf_pushTable {m : List Host.Cell} (h : Memory.wf m = true) (a n : Nat) (w : Word) :
    Memory.wf (pushTable m a n w) = true := by
  induction n generalizing m a w with
  | zero => exact h
  | succ n ih => exact ih (Memory.wf_setWord h _ _) _ _

/-- The page table is pushed down within its words: every byte outside is as before. -/
theorem byte_pushTable_out {m : List Host.Cell} (h : Memory.wf m = true) (a n : Nat) (w : Word) {b : Nat}
    (hb : b < a ∨ a + 8 * n ≤ b) : Memory.byte (pushTable m a n w) b = Memory.byte m b := by
  induction n generalizing m a w with
  | zero => rfl
  | succ n ih =>
    simp only [pushTable]
    rw [ih (Memory.wf_setWord h _ _) _ _ (by omega), Memory.byte_setWord_out h _ (by omega)]

theorem wf_setBytes {m : List Host.Cell} (h : Memory.wf m = true) (a : Nat) (l : List Byte) :
    Memory.wf (setBytes m a l) = true := by
  induction l generalizing m a with
  | nil => exact h
  | cons v l ih => exact ih (Memory.wf_setByte h _ _) _

/-! ### Two canonical memories that read alike are equal -/

/-- Equal readings make equal memories. -/
theorem Memory.ext {m m' : List Host.Cell} (h : Memory.wf m = true) (h' : Memory.wf m' = true)
    (hb : ∀ a, Memory.byte m a = Memory.byte m' a) : m = m' := by
  induction m generalizing m' with
  | nil =>
    cases m' with
    | nil => rfl
    | cons d m' =>
      obtain ⟨k, v⟩ := d
      have := hb k
      simp only [Memory.byte, if_true] at this
      exact absurd this.symm (Memory.wf_head h')
  | cons c m ih =>
    obtain ⟨k, v⟩ := c
    cases m' with
    | nil =>
      have := hb k
      simp only [Memory.byte, if_true] at this
      exact absurd this (Memory.wf_head h)
    | cons d m' =>
      obtain ⟨k', v'⟩ := d
      have hv := Memory.wf_head h
      have hv' := Memory.wf_head h'
      have hlt := Memory.wf_lt h
      have hlt' := Memory.wf_lt h'
      have hk : k = k' := by
        rcases Nat.lt_trichotomy k k' with hlt1 | heq | hgt
        · have e := hb k
          rw [Memory.byte_of_lt (m := (k', v') :: m') fun c hc => by
            rcases List.mem_cons.mp hc with rfl | hc
            · exact hlt1
            · exact Nat.lt_trans hlt1 (hlt' c hc)] at e
          simp only [Memory.byte, if_true] at e
          exact absurd e hv
        · exact heq
        · have e := hb k'
          rw [Memory.byte_of_lt (m := (k, v) :: m) fun c hc => by
            rcases List.mem_cons.mp hc with rfl | hc
            · exact hgt
            · exact Nat.lt_trans hgt (hlt c hc)] at e
          simp only [Memory.byte, if_true] at e
          exact absurd e.symm hv'
      subst hk
      have hvv : v = v' := by simpa [Memory.byte] using hb k
      subst hvv
      congr 1
      refine ih (Memory.wf_tail h) (Memory.wf_tail h') fun a => ?_
      by_cases ha : k = a
      · subst ha; rw [Memory.byte_of_lt hlt, Memory.byte_of_lt hlt']
      · simpa [Memory.byte, ha] using hb a

end Sys2Proof.Machine
end

