-- ==== Sys2Proof/Laws/Monad.lean ====
section
/-! SUPPORT. The two ways to speak about a computation that may stop: that it ends well with a stated result (`Ends`),
and that it keeps a property of the state however it ends (`Keeps`). One lemma for each way to build a computation. -/

namespace Sys2Proof.Machine

/-! ### Ending well -/

/-- `m` runs to its end from `s`, and its answer and the state it leaves satisfy `Q`. -/
def Ends {α : Type} (m : M α) (s : State) (Q : α → State → Prop) : Prop := ∃ a t, m s = .ok (a, t) ∧ Q a t

theorem Ends.mono {α : Type} {m : M α} {s : State} {Q R : α → State → Prop} (h : Ends m s Q)
    (hi : ∀ a t, Q a t → R a t) : Ends m s R := by
  obtain ⟨a, t, e, q⟩ := h
  exact ⟨a, t, e, hi a t q⟩

theorem Ends.pure {α : Type} {x : α} {s : State} {Q : α → State → Prop} (h : Q x s) : Ends (Pure.pure x) s Q :=
  ⟨x, s, rfl, h⟩

theorem Ends.bind {α β : Type} {m : M α} {k : α → M β} {s : State} {Q : β → State → Prop}
    (h : Ends m s fun a t => Ends (k a) t Q) : Ends (m >>= k) s Q := by
  obtain ⟨a, t, e, b, u, e', q⟩ := h
  refine ⟨b, u, ?_, q⟩
  show Except.bind (m s) _ = _
  rw [e]
  exact e'

theorem Ends.get {s : State} {Q : State → State → Prop} (h : Q s s) : Ends (get : M State) s Q := ⟨s, s, rfl, h⟩

theorem Ends.update {f : State → State} {s : State} {Q : Unit → State → Prop} (h : Q () (f s)) : Ends (update f) s Q :=
  ⟨(), f s, rfl, h⟩

theorem Ends.drawFree {s : State} {Q : Word → State → Prop}
    (h : Q (Config.freeWord s.free) { s with free := s.free + 1 }) : Ends drawFree s Q := ⟨_, _, rfl, h⟩

theorem Ends.refuseIf {b : Bool} {r : Refusal} {s : State} {Q : Unit → State → Prop} (hb : b = false) (h : Q () s) :
    Ends (refuseIf b r) s Q := by
  subst hb
  exact Ends.pure h

/-- A loop, by an invariant over the number of rounds done. -/
theorem Ends.upTo {α : Type} {b : Nat → α → M α} {x : α} {s : State} (I : Nat → α → State → Prop) (n : Nat)
    (h0 : I 0 x s) (hs : ∀ k y t, k < n → I k y t → Ends (b k y) t (I (k + 1))) : Ends (upTo n b x) s (I n) := by
  induction n with
  | zero => exact Ends.pure h0
  | succ n ih =>
    refine Ends.bind ((ih fun k y t hk => hs k y t (by omega)).mono fun y t hi => ?_)
    exact hs n y t (by omega) hi

/-- The loop of a multi-element instruction, by an invariant over the number of elements done. -/
theorem Ends.elements {α : Type} {b : Nat → α → M α} {x : α} {s : State} (I : Nat → α → State → Prop) (n : Nat)
    (h0 : I 0 x s) (hs : ∀ k y t, k < n → I k y t → Ends (b k y) t (I (k + 1))) : Ends (elements n b x) s (I n) := by
  obtain ⟨a, t, e, q⟩ := Ends.upTo I n h0 hs
  refine ⟨a, t, ?_, q⟩
  simp only [Machine.elements, e]

/-- An instruction whose computation ends well completes. -/
theorem Ends.run {m : M Unit} {s : State} {Q : State → Prop} (h : Ends m s fun _ t => Q t) :
    ∃ t, run m s = .next t ∧ Q t := by
  obtain ⟨a, t, e, q⟩ := h
  exact ⟨t, by simp only [Machine.run, settle, e], q⟩

theorem Ends.run32 {m : M Unit} {s : State} {Q : State → Prop} (h : Ends m s fun _ t => Q t.next32) :
    ∃ t, run32 m s = .next t ∧ Q t :=
  Ends.run (Ends.bind (h.mono fun _ _ q => Ends.update q))

theorem Ends.run64 {m : M Unit} {s : State} {Q : State → Prop} (h : Ends m s fun _ t => Q t.next64) :
    ∃ t, run64 m s = .next t ∧ Q t :=
  Ends.run (Ends.bind (h.mono fun _ _ q => Ends.update q))

/-! ### Accesses in Monitor mode (R62, R69): they cannot fail -/

/-- What an access reads in Monitor mode. -/
def State.monitorWord (s : State) (va : Addr) : Word := Memory.word s.mem (s.wrap (wordAligned va).toNat / 8)
def State.monitorHalf (s : State) (va : Addr) : Half := Memory.half s.mem (s.wrap (halfAligned va).toNat / 8)
def State.monitorByte (s : State) (va : Addr) : Byte := Memory.byte s.mem (s.wrap (byteAligned va).toNat / 8)
def State.monitorBit (s : State) (va : Addr) : Bool :=
  bitAt (Memory.byte s.mem (s.wrap va.toNat / 8)) (s.wrap va.toNat % 8)

theorem physical_monitor {s : State} (h : s.mode = .monitor) (kind : Access) (va : Addr) :
    physical kind va s = .ok (s.wrap va.toNat, s) := by simp only [physical, h]

theorem Ends.physical {s : State} (h : s.mode = .monitor) {kind : Access} {va : Addr} {Q : Nat → State → Prop}
    (hq : Q (s.wrap va.toNat) s) : Ends (physical kind va) s Q := ⟨_, _, physical_monitor h kind va, hq⟩

theorem Ends.readWord {s : State} (h : s.mode = .monitor) {va : Addr} {Q : Word → State → Prop}
    (hq : Q (s.monitorWord va) (s.breakpoint false (wordAligned va))) : Ends (readWord va) s Q := by
  refine Ends.bind (Ends.physical h (Ends.bind (Ends.update (Ends.bind (Ends.get (Ends.pure ?_))))))
  simpa [State.monitorWord] using hq

theorem Ends.readHalf {s : State} (h : s.mode = .monitor) {va : Addr} {Q : Half → State → Prop}
    (hq : Q (s.monitorHalf va) (s.breakpoint false (halfAligned va))) : Ends (readHalf va) s Q := by
  refine Ends.bind (Ends.physical h (Ends.bind (Ends.update (Ends.bind (Ends.get (Ends.pure ?_))))))
  simpa [State.monitorHalf] using hq

theorem Ends.readByte {s : State} (h : s.mode = .monitor) {va : Addr} {Q : Byte → State → Prop}
    (hq : Q (s.monitorByte va) (s.breakpoint false (byteAligned va))) : Ends (readByte va) s Q := by
  refine Ends.bind (Ends.physical h (Ends.bind (Ends.update (Ends.bind (Ends.get (Ends.pure ?_))))))
  simpa [State.monitorByte] using hq

theorem Ends.readBit {s : State} (h : s.mode = .monitor) {va : Addr} {Q : Bool → State → Prop}
    (hq : Q (s.monitorBit va) (s.breakpoint false va)) : Ends (readBit va) s Q := by
  refine Ends.bind (Ends.physical h (Ends.bind (Ends.update (Ends.bind (Ends.get (Ends.pure ?_))))))
  simpa [State.monitorBit] using hq

theorem Ends.writeWord {s : State} (h : s.mode = .monitor) {va : Addr} {v : Word} {Q : Unit → State → Prop}
    (hq : Q () ((s.breakpoint true (wordAligned va)).putWord (s.wrap (wordAligned va).toNat) v)) :
    Ends (writeWord va v) s Q :=
  Ends.bind (Ends.physical h (Ends.bind (Ends.update (Ends.update hq))))

theorem Ends.writeHalf {s : State} (h : s.mode = .monitor) {va : Addr} {v : Half} {Q : Unit → State → Prop}
    (hq : Q () ((s.breakpoint true (halfAligned va)).putHalf (s.wrap (halfAligned va).toNat) v)) :
    Ends (writeHalf va v) s Q :=
  Ends.bind (Ends.physical h (Ends.bind (Ends.update (Ends.update hq))))

theorem Ends.writeByte {s : State} (h : s.mode = .monitor) {va : Addr} {v : Byte} {Q : Unit → State → Prop}
    (hq : Q () ((s.breakpoint true (byteAligned va)).putByte (s.wrap (byteAligned va).toNat) v)) :
    Ends (writeByte va v) s Q :=
  Ends.bind (Ends.physical h (Ends.bind (Ends.update (Ends.update hq))))

theorem Ends.writeBit {s : State} (h : s.mode = .monitor) {va : Addr} {v : Bool} {Q : Unit → State → Prop}
    (hq : Q () ((s.breakpoint true va).putBit (s.wrap va.toNat) v)) : Ends (writeBit va v) s Q :=
  Ends.bind (Ends.physical h (Ends.bind (Ends.update (Ends.update hq))))

theorem Ends.monitorOnly {s : State} (h : s.mode = .monitor) {Q : Unit → State → Prop} (hq : Q () s) :
    Ends monitorOnly s Q := ⟨(), s, by simp [Machine.monitorOnly, h], hq⟩

theorem Ends.maskedBy {s : State} {b : Nat} (h : s.forbidden b = false) {Q : Unit → State → Prop} (hq : Q () s) :
    Ends (maskedBy b) s Q := ⟨(), s, by simp [Machine.maskedBy, h], hq⟩

/-! ### Keeping a property -/

/-- An outcome keeps `P`: the state it leaves has it, also the state an abandoned multi-element instruction leaves. -/
def Kept {α : Type} (P : State → Prop) : Except Stop (α × State) → Prop
  | .ok x => P x.2
  | .error (.partly t) => P t
  | .error _ => True

/-- `m` keeps `P`. -/
def Keeps {α : Type} (P : State → Prop) (m : M α) : Prop := ∀ s, P s → Kept P (m s)

theorem Keeps.pure {α : Type} {P : State → Prop} (x : α) : Keeps P (Pure.pure x : M α) := fun _ h => h

theorem Keeps.bind {α β : Type} {P : State → Prop} {m : M α} {k : α → M β} (hm : Keeps P m) (hk : ∀ a, Keeps P (k a)) :
    Keeps P (m >>= k) := by
  intro s hs
  have h1 := hm s hs
  have e : (m >>= k) s = (m s).bind fun x => k x.1 x.2 := rfl
  rw [e]
  cases h : m s with
  | error r => rw [h] at h1; cases r <;> exact h1
  | ok x => rw [h] at h1; exact hk x.1 x.2 h1

theorem Keeps.get {P : State → Prop} : Keeps P (get : M State) := fun _ h => h

theorem Keeps.update {P : State → Prop} {f : State → State} (h : ∀ s, P s → P (f s)) : Keeps P (update f) := h

theorem Keeps.refuse {α : Type} {P : State → Prop} (r : Refusal) : Keeps P (refuse r : M α) := fun _ _ => trivial

theorem Keeps.refuseIf {P : State → Prop} (b : Bool) (r : Refusal) : Keeps P (refuseIf b r) := by
  unfold Machine.refuseIf
  split
  · exact Keeps.refuse r
  · exact Keeps.pure ()

theorem Keeps.upTo {α : Type} {P : State → Prop} {b : Nat → α → M α} (h : ∀ k x, Keeps P (b k x)) (n : Nat) (x : α) :
    Keeps P (upTo n b x) := by
  induction n with
  | zero => exact Keeps.pure x
  | succ n ih => exact Keeps.bind ih fun y => h n y

/-- The loop of a multi-element instruction keeps what its body keeps, if the property does not depend on the flags,
the registers and the counter of free values that an abandoned instruction restores. -/
theorem Keeps.elements {α : Type} {P : State → Prop} {b : Nat → α → M α} (h : ∀ k x, Keeps P (b k x)) (n : Nat) (x : α)
    (hp : ∀ s t c k, P s → P t → P { t with dfr := someFlags s.dfr t.dfr c, free := k, regs := s.regs }) :
    Keeps P (elements n b x) := by
  intro s hs
  have h1 := Keeps.upTo h n x s hs
  unfold Machine.elements
  cases e : Machine.upTo n b x s with
  | ok y => rw [e] at h1; exact h1
  | error r =>
    rw [e] at h1
    cases r with
    | access free =>
      simp only
      have h2 := Keeps.upTo h ((Config.freeWord free).toNat % (completed b x s n + 1)) x s hs
      cases e2 : Machine.upTo ((Config.freeWord free).toNat % (completed b x s n + 1)) b x s with
      | ok y => rw [e2] at h2; exact hp s y.2 _ _ hs h2
      | error r2 => rw [e2] at h2; exact h2
    | _ => exact h1

end Sys2Proof.Machine
end

