-- ==== Sys2Proof/Laws/Operations.lean ====
section
/-! SUPPORT. What the shared operations can do: translation and the accesses in either mode, the ends of an instruction,
element access and the loops of the vector instructions in Monitor mode, the stores of the packages, and what a property
of the state must withstand so that every computation over memory keeps it. -/

namespace Sys2Proof.Machine

/-! ### Bits -/

theorem bitAt_oneBit {w : Nat} (i k : Nat) (hi : i < w) (hk : k < w) : bitAt (oneBit w i : BitVec w) k = decide (k = i) := by
  unfold bitAt oneBit
  rw [BitVec.getMsbD_eq_getLsbD, BitVec.getLsbD_shiftLeft, BitVec.getLsbD_one]
  by_cases h : k = i
  · subst h
    simp [hk]
    omega
  · simp [h]
    omega

/-- A bit that is set or cleared is the given one, and every other bit is as before. -/
theorem bitAt_setBitAt {w : Nat} (x : BitVec w) (i k : Nat) (v : Bool) (hi : i < w) (hk : k < w) :
    bitAt (setBitAt x i v) k = if k = i then v else bitAt x k := by
  have h := bitAt_oneBit (w := w) i k hi hk
  unfold bitAt at h
  unfold bitAt setBitAt
  cases v
  · simp [h, hk]
    by_cases e : k = i <;> simp [e]
  · simp [h]
    by_cases e : k = i <;> simp [e]

/-! ### Program addresses -/

@[simp] theorem halfAligned_idem (a : Addr) : halfAligned (halfAligned a) = halfAligned a := by
  simp [halfAligned, BitVec.and_assoc]

/-! ### Translation (R62, R75): all that an access can come to -/

/-- A successful translation: in Monitor mode the address wrapped around; in Job mode the page table's answer. -/
theorem physical_ok {kind : Access} {va : Addr} {s t : State} {p : Nat} (h : physical kind va s = .ok (p, t)) :
    (s.mode = .monitor ∧ p = s.wrap va.toNat ∧ t = s) ∨
    (s.mode = .job ∧ s.arValid = true ∧ ∃ sb lb k bits, smallBits s.keys.small = some sb ∧
      largeBits s.keys.large = some lb ∧ s.search kind va sb lb = some (k, bits) ∧
      p = s.wrap (hitAddress k bits va) ∧ t = s.useEntry k) := by
  unfold physical at h
  cases hm : s.mode with
  | monitor =>
    simp only [hm, Except.ok.injEq, Prod.mk.injEq] at h
    exact .inl ⟨rfl, h.1.symm, h.2.symm⟩
  | job =>
    simp only [hm] at h
    split at h
    · next hv =>
      split at h
      · next sb lb hs hl =>
        split at h
        · next k bits hk =>
          simp only [Except.ok.injEq, Prod.mk.injEq] at h
          exact .inr ⟨rfl, hv, sb, lb, k, bits, hs, hl, hk, h.1.symm, h.2.symm⟩
        · cases h
      · cases h
    · cases h

/-- A Job access changes nothing of an associative word outside its code (R75 (5)). -/
theorem withCode_and (word code : Word) : withCode word code &&& ~~~codeMask = word &&& ~~~codeMask := by
  apply BitVec.eq_of_getLsbD_eq
  intro i h
  simp only [withCode, BitVec.getLsbD_and, BitVec.getLsbD_or, BitVec.getLsbD_not, h]
  cases word.getLsbD i <;> cases codeMask.getLsbD i <;> simp

/-- With its own code an associative word is as it was. -/
@[simp] theorem withCode_self (word : Word) : withCode word word = word := by
  apply BitVec.eq_of_getLsbD_eq
  intro i h
  simp only [withCode, BitVec.getLsbD_and, BitVec.getLsbD_or, BitVec.getLsbD_not, h]
  cases word.getLsbD i <;> cases codeMask.getLsbD i <;> simp

/-- A BLAP that is stored is loaded again as it was (R86). -/
@[simp] theorem blapOfWords_words (b : Blap) : blapOfWords (blapWords b).1 (blapWords b).2 = b :=
  BlapCode.ofWords_words _ b

/-- A translation that fails: an access interrupt in Job mode, or one of the two refusals. -/
theorem physical_error {kind : Access} {va : Addr} {s : State} {e : Stop} (h : physical kind va s = .error e) :
    s.mode = .job ∧ (e = .access s.free ∨ e = .refuse .reservedBitsNonZero ∨ e = .refuse .assocRegsNotLoaded) := by
  unfold physical at h
  cases hm : s.mode with
  | monitor => simp [hm] at h
  | job =>
    simp only [hm] at h
    refine ⟨rfl, ?_⟩
    split at h
    · split at h
      · split at h
        · cases h
        · exact .inl (Except.error.inj h).symm
      · exact .inr (.inl (Except.error.inj h).symm)
    · exact .inr (.inr (Except.error.inj h).symm)

/-! ### The end of an instruction's computation (R630 to R640) -/

/-- An instruction that answers a next state ended well, or was left by one of the exceptions. -/
theorem settle_next {s t : State} {r : Except Stop (Unit × State)} (h : settle s r = .next t) :
    r = .ok ((), t) ∨ (∃ free, r = .error (.access free) ∧ t = State.accessInterrupt { s with free := free } s.pc) ∨
    (∃ left, r = .error (.partly left) ∧ t = left.accessInterrupt s.pc) ∨ (r = .error .typeOne ∧ t = s.typeOne) ∨
    (r = .error .typeTwo ∧ t = s.typeTwo) ∨
    ∃ lockout limit, r = .error (.buffer lockout limit) ∧ t = s.bufferFault lockout limit := by
  unfold settle at h
  split at h
  · exact .inl (by cases h; rfl)
  · next free => exact .inr (.inl ⟨free, rfl, by cases h; rfl⟩)
  · next left => exact .inr (.inr (.inl ⟨left, rfl, by cases h; rfl⟩))
  · exact .inr (.inr (.inr (.inl ⟨rfl, by cases h; rfl⟩)))
  · exact .inr (.inr (.inr (.inr (.inl ⟨rfl, by cases h; rfl⟩))))
  · next lockout limit => exact .inr (.inr (.inr (.inr (.inr ⟨lockout, limit, rfl, by cases h; rfl⟩))))
  · cases h
  · cases h

/-- A computation that only raises an interrupt or is refused ends so. -/
@[simp] theorem settle_typeTwo (s : State) : settle s (.error .typeTwo) = .next s.typeTwo := rfl
@[simp] theorem settle_typeOne (s : State) : settle s (.error .typeOne) = .next s.typeOne := rfl
@[simp] theorem settle_refuse (s : State) (r : Refusal) : settle s (.error (.refuse r)) = .refused r := rfl
@[simp] theorem settle_fault (s : State) (f : Fault) : settle s (.error (.fault f)) = .fault f := rfl
@[simp] theorem settle_ok (s t : State) : settle s (.ok ((), t)) = .next t := rfl

/-! ### The exchange to Monitor mode (R642): fields that it leaves -/

theorem storePkg_field {α : Type} (f : State → α) (h : ∀ s a v, f (State.setAbsWord s a v) = f s) (base : Addr)
    (l : List (Nat × Word)) : ∀ s : State, f (s.storePkg base l) = f s := by
  induction l with
  | nil => exact fun _ => rfl
  | cons c rest ih =>
    intro s
    show f ((s.setAbsWord (base.toNat + 64 * c.1) c.2).storePkg base rest) = f s
    rw [ih, h]

theorem storeRegs_field {α : Type} (f : State → α) (h : ∀ s a v, f (State.setAbsWord s a v) = f s) (base n : Nat) :
    ∀ s : State, f (s.storeRegs base n) = f s := by
  induction n with
  | zero => exact fun _ => rfl
  | succ n ih =>
    intro s
    show f ((s.setAbsWord (base + 64 * n) (s.reg (BitVec.ofNat 8 n))).storeRegs base n) = f s
    rw [ih, h]

/-- A word stored by one of the hardware's own accesses changes memory and the instruction stack alone. -/
theorem setAbsWord_eq (s : State) (a : Nat) (v : Word) : s.setAbsWord a v =
    { s with mem := (s.setAbsWord a v).mem, stale := (s.setAbsWord a v).stale } := by
  unfold State.setAbsWord State.putWord State.keepStale
  split <;> rfl

theorem storePkg_eq (base : Addr) (l : List (Nat × Word)) : ∀ s : State, s.storePkg base l =
    { s with mem := (s.storePkg base l).mem, stale := (s.storePkg base l).stale } := by
  induction l with
  | nil => exact fun _ => rfl
  | cons c rest ih =>
    intro s
    have h : s.storePkg base (c :: rest) = (s.setAbsWord (base.toNat + 64 * c.1) c.2).storePkg base rest := rfl
    rw [h, ih, setAbsWord_eq]

theorem storeRegs_eq (base n : Nat) : ∀ s : State, s.storeRegs base n =
    { s with mem := (s.storeRegs base n).mem, stale := (s.storeRegs base n).stale } := by
  induction n with
  | zero => exact fun _ => rfl
  | succ n ih =>
    intro s
    have h : s.storeRegs base (n + 1) = (s.setAbsWord (base + 64 * n) (s.reg (BitVec.ofNat 8 n))).storeRegs base n := rfl
    rw [h, ih, setAbsWord_eq]

theorem setAbsWord_mem (s : State) (a : Nat) (v : Word) :
    (s.setAbsWord a v).mem = Memory.setWord s.mem (s.wrap a / 8) v := by
  unfold State.setAbsWord
  exact State.putWord_mem s _ v

theorem wf_setAbsWord {s : State} (h : Memory.wf s.mem = true) (a : Nat) (v : Word) :
    Memory.wf (s.setAbsWord a v).mem = true := by
  rw [setAbsWord_mem]
  exact Memory.wf_setWord h _ v

theorem wf_storePkg (base : Addr) (l : List (Nat × Word)) : ∀ {s : State}, Memory.wf s.mem = true →
    Memory.wf (s.storePkg base l).mem = true := by
  induction l with
  | nil => exact fun h => h
  | cons c rest ih => exact fun h => ih (wf_setAbsWord h _ _)

theorem wf_storeRegs (base n : Nat) : ∀ {s : State}, Memory.wf s.mem = true →
    Memory.wf (s.storeRegs base n).mem = true := by
  induction n with
  | zero => exact fun h => h
  | succ n ih => exact fun h => ih (wf_setAbsWord h _ _)

/-- A word stored by one of the hardware's own accesses leaves every byte outside it, and so do the stores of a package
and of a register file. -/
theorem byte_setAbsWord_out {s : State} (h : Memory.wf s.mem = true) {a b : Nat} (v : Word) (hb : ¬ s.inAbsWord a b) :
    Memory.byte (s.setAbsWord a v).mem b = Memory.byte s.mem b := by
  rw [setAbsWord_mem]
  unfold State.inAbsWord at hb
  exact Memory.byte_setWord_out h v (by omega)

theorem wrap_setAbsWord (s : State) (a : Nat) (v : Word) (b : Nat) : (s.setAbsWord a v).wrap b = s.wrap b := by
  rw [setAbsWord_eq]
  rfl

theorem byte_storePkg_out (base : Addr) (l : List (Nat × Word)) {b : Nat} : ∀ {s : State}, Memory.wf s.mem = true →
    (∀ p ∈ l, ¬ s.inAbsWord (base.toNat + 64 * p.1) b) → Memory.byte (s.storePkg base l).mem b = Memory.byte s.mem b := by
  induction l with
  | nil => exact fun _ _ => rfl
  | cons c rest ih =>
    intro s h hb
    have hr := ih (wf_setAbsWord h (base.toNat + 64 * c.1) c.2) fun p hp => by
      have := hb p (List.mem_cons_of_mem _ hp)
      rwa [State.inAbsWord, wrap_setAbsWord]
    exact hr.trans (byte_setAbsWord_out h _ (hb c List.mem_cons_self))

theorem byte_storeRegs_out (base n : Nat) {b : Nat} : ∀ {s : State}, Memory.wf s.mem = true →
    (∀ k, k < n → ¬ s.inAbsWord (base + 64 * k) b) → Memory.byte (s.storeRegs base n).mem b = Memory.byte s.mem b := by
  induction n with
  | zero => exact fun _ _ => rfl
  | succ n ih =>
    intro s h hb
    have hr := ih (wf_setAbsWord h (base + 64 * n) (s.reg (BitVec.ofNat 8 n))) fun k hk => by
      have := hb k (by omega)
      rwa [State.inAbsWord, wrap_setAbsWord]
    exact hr.trans (byte_setAbsWord_out h _ (hb n (by omega)))

/-- A word of a package depends on CP memory and its size alone. -/
theorem pkgWord_congr {s t : State} (hm : s.mem = t.mem) (hp : s.params = t.params) (base : Addr) (n : Nat) :
    s.pkgWord base n = t.pkgWord base n := by
  unfold State.pkgWord State.absWord State.wrap
  rw [hm, hp]

/-- The keys that an exchange to Job mode loads, when there is no job register file and when there is one (R641). -/
theorem toJob_keys_none (s : State) (pkg : Addr) :
    (s.toJob 0 pkg).keys = keysOfWord (s.pkgWord pkg s.params.layout.keysWord) := rfl

theorem toJob_keys (s : State) {rf : Addr} (hr : rf ≠ 0) (pkg : Addr) :
    let u : State := { s with jobRF := rf, invPkg := pkg }
    (s.toJob rf pkg).keys = keysOfWord ((u.storeRegs 0 256).pkgWord pkg s.params.layout.keysWord) := by
  intro u
  have hp : (u.storeRegs 0 256).params = s.params := storeRegs_field State.params (fun t a v => by rw [setAbsWord_eq]) 0 256 u
  unfold State.toJob
  simp only [if_neg hr]
  have hk (t : State) : (State.voidStack { t.loadInvisible pkg with mode := .job }).keys =
      keysOfWord (t.pkgWord pkg t.params.layout.keysWord) := rfl
  have hl (v : State) (n : Nat) : (v.loadRegs rf.toNat).pkgWord pkg n = v.pkgWord pkg n :=
    pkgWord_congr (by simp) (by simp) pkg n
  have hm (v : State) (h : v.params = s.params) : (State.voidStack
      { (v.loadRegs rf.toNat).loadInvisible pkg with mode := .job }).keys =
      keysOfWord (v.pkgWord pkg s.params.layout.keysWord) := by rw [hk, hl, State.loadRegs_params, h]
  exact hm _ hp

/-! ### What keeps a property of the state through memory accesses -/

/-- `P` withstands every change that a memory access, a result register, a flag or a free value makes. -/
structure Steady (P : State → Prop) : Prop where
  pushDown : ∀ s i w, P s → P (s.pushDown i w)
  setDfr : ∀ s x, P s → P (s.setDfr x)
  setReg : ∀ s n v, P s → P (s.setReg n v)
  draw : ∀ s k, P s → P { s with free := k }
  putWord : ∀ s p v, P s → P (s.putWord p v)
  putHalf : ∀ s p v, P s → P (s.putHalf p v)
  putByte : ∀ s p v, P s → P (s.putByte p v)

namespace Steady

variable {P : State → Prop}

theorem raiseFlags (h : Steady P) (k : FlagKind) (f : FpFlags) (s : State) (hs : P s) : P (s.raiseFlags k f) :=
  h.setDfr s _ hs

theorem setFlag (h : Steady P) (i : Nat) (v : Bool) (s : State) (hs : P s) : P (s.setFlag i v) := h.setDfr s _ hs

theorem setFreeFlags (h : Steady P) (a b c : Option Bool) (s : State) (hs : P s) : P (s.setFreeFlags a b c) :=
  h.setDfr _ _ (h.draw s _ hs)

theorem setReg32 (h : Steady P) (d : Byte) (v : Half) (s : State) (hs : P s) : P (s.setReg32 d v) := h.setReg s _ _ hs

theorem setRegW (h : Steady P) (w : Width) (d : Byte) (v : Word) (s : State) (hs : P s) : P (s.setRegW w d v) := by
  cases w
  · exact h.setReg32 d _ s hs
  · exact h.setReg s _ _ hs

theorem breakpoint (h : Steady P) (write : Bool) (a : Addr) (s : State) (hs : P s) : P (s.breakpoint write a) := by
  unfold State.breakpoint
  split
  · exact h.setFlag _ _ s hs
  · exact hs

theorem putBit (h : Steady P) (p : Nat) (v : Bool) (s : State) (hs : P s) : P (s.putBit p v) := h.putByte s _ _ hs

theorem drawFree (h : Steady P) : Keeps P drawFree := fun s hs => h.draw s _ hs

theorem physical (h : Steady P) (kind : Access) (va : Addr) : Keeps P (physical kind va) := by
  intro s hs
  cases e : Machine.physical kind va s with
  | error r =>
    rcases (physical_error e).2 with h1 | h1 | h1 <;> subst h1 <;> exact trivial
  | ok x =>
    rcases physical_ok (p := x.1) (t := x.2) e with ⟨-, -, h1⟩ | ⟨-, -, _, _, k, _, -, -, -, -, h1⟩
    · show P x.2
      rw [h1]
      exact hs
    · show P x.2
      rw [h1]
      exact h.pushDown s _ _ hs

theorem readWord (h : Steady P) (va : Addr) : Keeps P (readWord va) :=
  Keeps.bind (h.physical _ _) fun _ => Keeps.bind (Keeps.update (h.breakpoint _ _)) fun _ =>
    Keeps.bind Keeps.get fun _ => Keeps.pure _

theorem readHalf (h : Steady P) (va : Addr) : Keeps P (readHalf va) :=
  Keeps.bind (h.physical _ _) fun _ => Keeps.bind (Keeps.update (h.breakpoint _ _)) fun _ =>
    Keeps.bind Keeps.get fun _ => Keeps.pure _

theorem readByte (h : Steady P) (va : Addr) : Keeps P (readByte va) :=
  Keeps.bind (h.physical _ _) fun _ => Keeps.bind (Keeps.update (h.breakpoint _ _)) fun _ =>
    Keeps.bind Keeps.get fun _ => Keeps.pure _

theorem readBit (h : Steady P) (va : Addr) : Keeps P (readBit va) :=
  Keeps.bind (h.physical _ _) fun _ => Keeps.bind (Keeps.update (h.breakpoint _ _)) fun _ =>
    Keeps.bind Keeps.get fun _ => Keeps.pure _

theorem writeWord (h : Steady P) (va : Addr) (v : Word) : Keeps P (writeWord va v) :=
  Keeps.bind (h.physical _ _) fun p => Keeps.bind (Keeps.update (h.breakpoint _ _)) fun _ =>
    Keeps.update fun s => h.putWord s p v

theorem writeHalf (h : Steady P) (va : Addr) (v : Half) : Keeps P (writeHalf va v) :=
  Keeps.bind (h.physical _ _) fun p => Keeps.bind (Keeps.update (h.breakpoint _ _)) fun _ =>
    Keeps.update fun s => h.putHalf s p v

theorem writeByte (h : Steady P) (va : Addr) (v : Byte) : Keeps P (writeByte va v) :=
  Keeps.bind (h.physical _ _) fun p => Keeps.bind (Keeps.update (h.breakpoint _ _)) fun _ =>
    Keeps.update fun s => h.putByte s p v

theorem writeBit (h : Steady P) (va : Addr) (v : Bool) : Keeps P (writeBit va v) :=
  Keeps.bind (h.physical _ _) fun p => Keeps.bind (Keeps.update (h.breakpoint _ _)) fun _ =>
    Keeps.update (h.putBit p v)

theorem readElem (h : Steady P) (w : Width) (va : Addr) : Keeps P (readElem w va) := by
  cases w
  · exact Keeps.bind (h.readHalf va) fun _ => Keeps.pure _
  · exact h.readWord va

theorem writeElem (h : Steady P) (w : Width) (va : Addr) (v : Word) : Keeps P (writeElem w va v) := by
  cases w
  · exact h.writeHalf va _
  · exact h.writeWord va v

theorem elem (h : Steady P) (st : Stream) (w : Width) (ext : Word) (i : Nat) : Keeps P (st.elem w ext i) := by
  cases st with
  | const v => exact Keeps.pure v
  | vec start len =>
    unfold Stream.elem
    dsimp only
    split
    · exact h.readElem w _
    · exact Keeps.pure ext

theorem permits (h : Steady P) (ctl : Control) (i : Nat) : Keeps P (ctl.permits i) := by
  unfold Control.permits
  split
  · exact Keeps.pure true
  · exact Keeps.bind (h.readBit _) fun _ => Keeps.pure _

theorem storeElem (h : Steady P) (w : Width) (a : Addr) (r : FpResult) : Keeps P (storeElem w a r) :=
  Keeps.bind (h.writeElem w a _) fun _ => Keeps.update (h.raiseFlags _ _)

end Steady

/-! ### The loops in Monitor mode: they end well, by an invariant over the elements done -/

/-- The element that a vector access reads in Monitor mode. -/
theorem Ends.readElem {s : State} (h : s.mode = .monitor) {w : Width} {va : Addr} {Q : Word → State → Prop}
    (hq : Q (s.elemOfMemory w va)
      (s.breakpoint false (match w with | .w32 => halfAligned va | .w64 => wordAligned va))) :
    Ends (readElem w va) s Q := by
  cases w
  · exact Ends.bind (Ends.readHalf h (Ends.pure hq))
  · exact Ends.readWord h hq

/-- Element `i` of a stream in Monitor mode: what memory holds, or the extension; the breakpoint compare may set flag
47, and nothing else changes. -/
theorem Ends.elem {s : State} (h : s.mode = .monitor) {st : Stream} {w : Width} {ext : Word} {i : Nat}
    {Q : Word → State → Prop} (hq : ∀ t, (t = s ∨ ∃ a, t = s.breakpoint false a) → Q (s.streamElem st w ext i) t) :
    Ends (st.elem w ext i) s Q := by
  cases st with
  | const v => exact Ends.pure (hq s (.inl rfl))
  | vec start len =>
    by_cases hi : i < len
    · have e : (Stream.vec start len).elem w ext i = Machine.readElem w (itemAddr w start i) := if_pos hi
      have v : s.streamElem (.vec start len) w ext i = s.elemOfMemory w (itemAddr w start i) := if_pos hi
      rw [e]
      rw [v] at hq
      exact Ends.readElem h (hq _ (.inr ⟨_, rfl⟩))
    · have e : (Stream.vec start len).elem w ext i = Pure.pure ext := if_neg hi
      have v : s.streamElem (.vec start len) w ext i = ext := if_neg hi
      rw [e]
      rw [v] at hq
      exact Ends.pure (hq s (.inl rfl))

/-- The control vector in Monitor mode. -/
theorem Ends.permits {s : State} (h : s.mode = .monitor) {ctl : Control} {i : Nat} {Q : Bool → State → Prop}
    (hq : ∀ t, (t = s ∨ ∃ a, t = s.breakpoint false a) → Q (s.permissive ctl i) t) : Ends (ctl.permits i) s Q := by
  rcases ctl with ⟨_ | a, z⟩
  · exact Ends.pure (hq s (.inl rfl))
  · exact Ends.bind (Ends.readBit h (Ends.pure (hq _ (.inr ⟨_, rfl⟩))))

/-- The loop of R415 in Monitor mode, by an invariant over the positions done: `value` is what the element operation
answers, and where the control vector permits it is stored and its flags are raised. -/
theorem Ends.vectorLoop {w : Width} {d : Dest} {ctl : Control} {f : Nat → M FpResult} {s : State} (I : Nat → State → Prop)
    (h0 : I 0 s)
    (hs : ∀ k t, k < d.len → I k t → Ends (f k) t fun r u => u.mode = .monitor ∧
      ∀ u', (u' = u ∨ ∃ a, u' = u.breakpoint false a) →
        if u.permissive ctl k then Ends (storeElem w (itemAddr w d.start k) r) u' fun _ => I (k + 1)
        else I (k + 1) u') :
    Ends (vectorLoop w d ctl f) s fun _ => I d.len := by
  refine (Ends.elements (fun k _ => I k) d.len h0 fun k _ t hk hi => ?_)
  refine Ends.bind ((hs k t hk hi).mono fun r u hu => ?_)
  refine Ends.bind (Ends.permits hu.1 fun u' hu' => ?_)
  have h2 := hu.2 u' hu'
  cases hp : u.permissive ctl k with
  | true => simp only [hp, if_true] at h2; simpa using h2
  | false => simp only [hp] at h2; exact Ends.pure (by simpa using h2)

end Sys2Proof.Machine
end

