-- ==== Sys2Proof/Laws/PerInstr.lean ====
section
/-! SUPPORT. Facts about each instruction as syntax, one lemma for each constructor. `Coded`: the instruction's bytes are
as many as its function code says (spec/30_encoding.md R100). -/

namespace Sys2Proof.Laws

/-- The encoding of `i` begins with a function code and has the length that code gives (R100). -/
def Coded.Statement (i : Instr) : Prop :=
  match encode i with
  | [] => False
  | f :: rest => 8 * (rest.length + 1) = lengthBits f

theorem Coded.idle : Coded.Statement (.idle) := rfl

theorem Coded.nop : Coded.Statement (.nop) := rfl

theorem Coded.bkpt : ∀ r, Coded.Statement (.bkpt r) := fun _ => rfl

theorem Coded.vsb : ∀ t, Coded.Statement (.vsb t) := fun _ => rfl

theorem Coded.fault : ∀ r, Coded.Statement (.fault r) := fun _ => rfl

theorem Coded.setmod : ∀ r, Coded.Statement (.setmod r) := fun _ => rfl

theorem Coded.setint : ∀ r, Coded.Statement (.setint r) := fun _ => rfl

theorem Coded.exit : ∀ r sd t, Coded.Statement (.exit r sd t) := fun _ _ _ => rfl

theorem Coded.mtime : ∀ r, Coded.Statement (.mtime r) := fun _ => rfl

theorem Coded.stoar : Coded.Statement (.stoar) := rfl

theorem Coded.lodar : Coded.Statement (.lodar) := rfl

theorem Coded.rdint : ∀ t, Coded.Statement (.rdint t) := fun _ => rfl

theorem Coded.lodkey : ∀ r sd t, Coded.Statement (.lodkey r sd t) := fun _ _ _ => rfl

theorem Coded.dtob : ∀ r t, Coded.Statement (.dtob r t) := fun _ _ => rfl

theorem Coded.btod : ∀ r t, Coded.Statement (.btod r t) := fun _ _ => rfl

theorem Coded.lodc : ∀ r sd t, Coded.Statement (.lodc r sd t) := fun _ _ _ => rfl

theorem Coded.stoc : ∀ r sd t, Coded.Statement (.stoc r sd t) := fun _ _ _ => rfl

theorem Coded.cpsb : ∀ r sd t, Coded.Statement (.cpsb r sd t) := fun _ _ _ => rfl

theorem Coded.mrgb : ∀ r sd t, Coded.Statement (.mrgb r sd t) := fun _ _ _ => rfl

theorem Coded.maskb : ∀ r sd t, Coded.Statement (.maskb r sd t) := fun _ _ _ => rfl

theorem Coded.exdom : Coded.Statement (.exdom) := rfl

theorem Coded.swcqta : ∀ sd t, Coded.Statement (.swcqta sd t) := fun _ _ => rfl

theorem Coded.strtio : ∀ sd t, Coded.Statement (.strtio sd t) := fun _ _ => rfl

theorem Coded.stopio : ∀ sd t, Coded.Statement (.stopio sd t) := fun _ _ => rfl

theorem Coded.testio : ∀ t, Coded.Statement (.testio t) := fun _ => rfl

theorem Coded.maskz : ∀ r sd t, Coded.Statement (.maskz r sd t) := fun _ _ _ => rfl

theorem Coded.masko : ∀ r sd t, Coded.Statement (.masko r sd t) := fun _ _ _ => rfl

theorem Coded.enteq : ∀ r sd t, Coded.Statement (.enteq r sd t) := fun _ _ _ => rfl

theorem Coded.ento : ∀ r sd t, Coded.Statement (.ento r sd t) := fun _ _ _ => rfl

theorem Coded.bheq : ∀ r sd t, Coded.Statement (.bheq r sd t) := fun _ _ _ => rfl

theorem Coded.bhne : ∀ r sd t, Coded.Statement (.bhne r sd t) := fun _ _ _ => rfl

theorem Coded.bhge : ∀ r sd t, Coded.Statement (.bhge r sd t) := fun _ _ _ => rfl

theorem Coded.bhlt : ∀ r sd t, Coded.Statement (.bhlt r sd t) := fun _ _ _ => rfl

theorem Coded.beq : ∀ r sd t, Coded.Statement (.beq r sd t) := fun _ _ _ => rfl

theorem Coded.bne : ∀ r sd t, Coded.Statement (.bne r sd t) := fun _ _ _ => rfl

theorem Coded.bge : ∀ r sd t, Coded.Statement (.bge r sd t) := fun _ _ _ => rfl

theorem Coded.blt : ∀ r sd t, Coded.Statement (.blt r sd t) := fun _ _ _ => rfl

theorem Coded.scnleq : ∀ r sd t, Coded.Statement (.scnleq r sd t) := fun _ _ _ => rfl

theorem Coded.tfc : ∀ t, Coded.Statement (.tfc t) := fun _ => rfl

theorem Coded.elen : ∀ r im, Coded.Statement (.elen r im) := fun _ _ => rfl

theorem Coded.addlen : ∀ r sd t, Coded.Statement (.addlen r sd t) := fun _ _ _ => rfl

theorem Coded.rxor : ∀ r sd t, Coded.Statement (.rxor r sd t) := fun _ _ _ => rfl

theorem Coded.rand : ∀ r sd t, Coded.Statement (.rand r sd t) := fun _ _ _ => rfl

theorem Coded.rior : ∀ r sd t, Coded.Statement (.rior r sd t) := fun _ _ _ => rfl

theorem Coded.barb : ∀ g sd t, Coded.Statement (.barb g sd t) := fun _ _ _ => rfl

theorem Coded.shifti : ∀ r sd t, Coded.Statement (.shifti r sd t) := fun _ _ _ => rfl

theorem Coded.ibnz : ∀ r sd t, Coded.Statement (.ibnz r sd t) := fun _ _ _ => rfl

theorem Coded.bab : ∀ g sd t, Coded.Statement (.bab g sd t) := fun _ _ _ => rfl

theorem Coded.badf : ∀ g im t, Coded.Statement (.badf g im t) := fun _ _ _ => rfl

theorem Coded.shift : ∀ r sd t, Coded.Statement (.shift r sd t) := fun _ _ _ => rfl

theorem Coded.dbnz : ∀ r sd t, Coded.Statement (.dbnz r sd t) := fun _ _ _ => rfl

theorem Coded.bsave : ∀ r sd t, Coded.Statement (.bsave r sd t) := fun _ _ _ => rfl

theorem Coded.rjtime : ∀ t, Coded.Statement (.rjtime t) := fun _ => rfl

theorem Coded.ltol : ∀ r t, Coded.Statement (.ltol r t) := fun _ _ => rfl

theorem Coded.clock : ∀ t, Coded.Statement (.clock t) := fun _ => rfl

theorem Coded.wjtime : ∀ r, Coded.Statement (.wjtime r) := fun _ => rfl

theorem Coded.lsdfr : ∀ r t, Coded.Statement (.lsdfr r t) := fun _ _ => rfl

theorem Coded.mpyxh : ∀ r sd t, Coded.Statement (.mpyxh r sd t) := fun _ _ _ => rfl

theorem Coded.mpyx : ∀ r sd t, Coded.Statement (.mpyx r sd t) := fun _ _ _ => rfl

theorem Coded.es : ∀ r im, Coded.Statement (.es r im) := fun _ _ => rfl

theorem Coded.is : ∀ r im, Coded.Statement (.is r im) := fun _ _ => rfl

theorem Coded.adduh : ∀ r sd t, Coded.Statement (.adduh r sd t) := fun _ _ _ => rfl

theorem Coded.addlh : ∀ r sd t, Coded.Statement (.addlh r sd t) := fun _ _ _ => rfl

theorem Coded.addnh : ∀ r sd t, Coded.Statement (.addnh r sd t) := fun _ _ _ => rfl

theorem Coded.subuh : ∀ r sd t, Coded.Statement (.subuh r sd t) := fun _ _ _ => rfl

theorem Coded.sublh : ∀ r sd t, Coded.Statement (.sublh r sd t) := fun _ _ _ => rfl

theorem Coded.subnh : ∀ r sd t, Coded.Statement (.subnh r sd t) := fun _ _ _ => rfl

theorem Coded.mpyuh : ∀ r sd t, Coded.Statement (.mpyuh r sd t) := fun _ _ _ => rfl

theorem Coded.mpylh : ∀ r sd t, Coded.Statement (.mpylh r sd t) := fun _ _ _ => rfl

theorem Coded.mpysh : ∀ r sd t, Coded.Statement (.mpysh r sd t) := fun _ _ _ => rfl

theorem Coded.divuh : ∀ r sd t, Coded.Statement (.divuh r sd t) := fun _ _ _ => rfl

theorem Coded.esh : ∀ r im, Coded.Statement (.esh r im) := fun _ _ => rfl

theorem Coded.ish : ∀ r im, Coded.Statement (.ish r im) := fun _ _ => rfl

theorem Coded.divsh : ∀ r sd t, Coded.Statement (.divsh r sd t) := fun _ _ _ => rfl

theorem Coded.truh : ∀ r t, Coded.Statement (.truh r t) := fun _ _ => rfl

theorem Coded.flrh : ∀ r t, Coded.Statement (.flrh r t) := fun _ _ => rfl

theorem Coded.clgh : ∀ r t, Coded.Statement (.clgh r t) := fun _ _ => rfl

theorem Coded.sqrth : ∀ r t, Coded.Statement (.sqrth r t) := fun _ _ => rfl

theorem Coded.adjsh : ∀ r sd t, Coded.Statement (.adjsh r sd t) := fun _ _ _ => rfl

theorem Coded.adjeh : ∀ r sd t, Coded.Statement (.adjeh r sd t) := fun _ _ _ => rfl

theorem Coded.linkv : ∀ r, Coded.Statement (.linkv r) := fun _ => rfl

theorem Coded.rddom : ∀ r t, Coded.Statement (.rddom r t) := fun _ _ => rfl

theorem Coded.rtorh : ∀ r t, Coded.Statement (.rtorh r t) := fun _ _ => rfl

theorem Coded.absh : ∀ r t, Coded.Statement (.absh r t) := fun _ _ => rfl

theorem Coded.exph : ∀ r t, Coded.Statement (.exph r t) := fun _ _ => rfl

theorem Coded.packh : ∀ r sd t, Coded.Statement (.packh r sd t) := fun _ _ _ => rfl

theorem Coded.exth : ∀ r t, Coded.Statement (.exth r t) := fun _ _ => rfl

theorem Coded.extxh : ∀ r t, Coded.Statement (.extxh r t) := fun _ _ => rfl

theorem Coded.lodh : ∀ r sd t, Coded.Statement (.lodh r sd t) := fun _ _ _ => rfl

theorem Coded.stoh : ∀ r sd t, Coded.Statement (.stoh r sd t) := fun _ _ _ => rfl

theorem Coded.addu : ∀ r sd t, Coded.Statement (.addu r sd t) := fun _ _ _ => rfl

theorem Coded.addl : ∀ r sd t, Coded.Statement (.addl r sd t) := fun _ _ _ => rfl

theorem Coded.addn : ∀ r sd t, Coded.Statement (.addn r sd t) := fun _ _ _ => rfl

theorem Coded.addx : ∀ r sd t, Coded.Statement (.addx r sd t) := fun _ _ _ => rfl

theorem Coded.subu : ∀ r sd t, Coded.Statement (.subu r sd t) := fun _ _ _ => rfl

theorem Coded.subl : ∀ r sd t, Coded.Statement (.subl r sd t) := fun _ _ _ => rfl

theorem Coded.subn : ∀ r sd t, Coded.Statement (.subn r sd t) := fun _ _ _ => rfl

theorem Coded.subx : ∀ r sd t, Coded.Statement (.subx r sd t) := fun _ _ _ => rfl

theorem Coded.mpyu : ∀ r sd t, Coded.Statement (.mpyu r sd t) := fun _ _ _ => rfl

theorem Coded.mpyl : ∀ r sd t, Coded.Statement (.mpyl r sd t) := fun _ _ _ => rfl

theorem Coded.mpys : ∀ r sd t, Coded.Statement (.mpys r sd t) := fun _ _ _ => rfl

theorem Coded.divu : ∀ r sd t, Coded.Statement (.divu r sd t) := fun _ _ _ => rfl

theorem Coded.insb : ∀ r sd t, Coded.Statement (.insb r sd t) := fun _ _ _ => rfl

theorem Coded.extb : ∀ r sd t, Coded.Statement (.extb r sd t) := fun _ _ _ => rfl

theorem Coded.divs : ∀ r sd t, Coded.Statement (.divs r sd t) := fun _ _ _ => rfl

theorem Coded.tru : ∀ r t, Coded.Statement (.tru r t) := fun _ _ => rfl

theorem Coded.flr : ∀ r t, Coded.Statement (.flr r t) := fun _ _ => rfl

theorem Coded.clg : ∀ r t, Coded.Statement (.clg r t) := fun _ _ => rfl

theorem Coded.sqrt : ∀ r t, Coded.Statement (.sqrt r t) := fun _ _ => rfl

theorem Coded.adjs : ∀ r sd t, Coded.Statement (.adjs r sd t) := fun _ _ _ => rfl

theorem Coded.adje : ∀ r sd t, Coded.Statement (.adje r sd t) := fun _ _ _ => rfl

theorem Coded.con : ∀ r t, Coded.Statement (.con r t) := fun _ _ => rfl

theorem Coded.rcon : ∀ r t, Coded.Statement (.rcon r t) := fun _ _ => rfl

theorem Coded.rtor : ∀ r t, Coded.Statement (.rtor r t) := fun _ _ => rfl

theorem Coded.abs : ∀ r t, Coded.Statement (.abs r t) := fun _ _ => rfl

theorem Coded.exp : ∀ r t, Coded.Statement (.exp r t) := fun _ _ => rfl

theorem Coded.pack : ∀ r sd t, Coded.Statement (.pack r sd t) := fun _ _ _ => rfl

theorem Coded.ltor : ∀ r t, Coded.Statement (.ltor r t) := fun _ _ => rfl

theorem Coded.rgap : ∀ r sd t, Coded.Statement (.rgap r sd t) := fun _ _ _ => rfl

theorem Coded.lod : ∀ r sd t, Coded.Statement (.lod r sd t) := fun _ _ _ => rfl

theorem Coded.sto : ∀ r sd t, Coded.Statement (.sto r sd t) := fun _ _ _ => rfl

theorem Coded.adduv : ∀ g x a y b z c, Coded.Statement (.adduv g x a y b z c) := fun _ _ _ _ _ _ _ => rfl

theorem Coded.addlv : ∀ g x a y b z c, Coded.Statement (.addlv g x a y b z c) := fun _ _ _ _ _ _ _ => rfl

theorem Coded.addnv : ∀ g x a y b z c, Coded.Statement (.addnv g x a y b z c) := fun _ _ _ _ _ _ _ => rfl

theorem Coded.addxv : ∀ g x a y b z c, Coded.Statement (.addxv g x a y b z c) := fun _ _ _ _ _ _ _ => rfl

theorem Coded.subuv : ∀ g x a y b z c, Coded.Statement (.subuv g x a y b z c) := fun _ _ _ _ _ _ _ => rfl

theorem Coded.sublv : ∀ g x a y b z c, Coded.Statement (.sublv g x a y b z c) := fun _ _ _ _ _ _ _ => rfl

theorem Coded.subnv : ∀ g x a y b z c, Coded.Statement (.subnv g x a y b z c) := fun _ _ _ _ _ _ _ => rfl

theorem Coded.subxv : ∀ g x a y b z c, Coded.Statement (.subxv g x a y b z c) := fun _ _ _ _ _ _ _ => rfl

theorem Coded.mpyuv : ∀ g x a y b z c, Coded.Statement (.mpyuv g x a y b z c) := fun _ _ _ _ _ _ _ => rfl

theorem Coded.mpylv : ∀ g x a y b z c, Coded.Statement (.mpylv g x a y b z c) := fun _ _ _ _ _ _ _ => rfl

theorem Coded.shiftv : ∀ g x a y b z c, Coded.Statement (.shiftv g x a y b z c) := fun _ _ _ _ _ _ _ => rfl

theorem Coded.mpysv : ∀ g x a y b z c, Coded.Statement (.mpysv g x a y b z c) := fun _ _ _ _ _ _ _ => rfl

theorem Coded.divuv : ∀ g x a y b z c, Coded.Statement (.divuv g x a y b z c) := fun _ _ _ _ _ _ _ => rfl

theorem Coded.divsv : ∀ g x a y b z c, Coded.Statement (.divsv g x a y b z c) := fun _ _ _ _ _ _ _ => rfl

theorem Coded.truv : ∀ g x a z c, Coded.Statement (.truv g x a z c) := fun _ _ _ _ _ => rfl

theorem Coded.flrv : ∀ g x a z c, Coded.Statement (.flrv g x a z c) := fun _ _ _ _ _ => rfl

theorem Coded.clgv : ∀ g x a z c, Coded.Statement (.clgv g x a z c) := fun _ _ _ _ _ => rfl

theorem Coded.sqrtv : ∀ g x a z c, Coded.Statement (.sqrtv g x a z c) := fun _ _ _ _ _ => rfl

theorem Coded.adjsv : ∀ g x a y b z c, Coded.Statement (.adjsv g x a y b z c) := fun _ _ _ _ _ _ _ => rfl

theorem Coded.adjev : ∀ g x a y b z c, Coded.Statement (.adjev g x a y b z c) := fun _ _ _ _ _ _ _ => rfl

theorem Coded.conv : ∀ g x a z c, Coded.Statement (.conv g x a z c) := fun _ _ _ _ _ => rfl

theorem Coded.rconv : ∀ g x a z c, Coded.Statement (.rconv g x a z c) := fun _ _ _ _ _ => rfl

theorem Coded.vtov : ∀ g x a z c, Coded.Statement (.vtov g x a z c) := fun _ _ _ _ _ => rfl

theorem Coded.absv : ∀ g x a z c, Coded.Statement (.absv g x a z c) := fun _ _ _ _ _ => rfl

theorem Coded.expv : ∀ g x a z c, Coded.Statement (.expv g x a z c) := fun _ _ _ _ _ => rfl

theorem Coded.packv : ∀ g x a y b z c, Coded.Statement (.packv g x a y b z c) := fun _ _ _ _ _ _ _ => rfl

theorem Coded.extv : ∀ g x a z c, Coded.Statement (.extv g x a z c) := fun _ _ _ _ _ => rfl

theorem Coded.xorv : ∀ g x a y b z c, Coded.Statement (.xorv g x a y b z c) := fun _ _ _ _ _ _ _ => rfl

theorem Coded.andv : ∀ g x a y b z c, Coded.Statement (.andv g x a y b z c) := fun _ _ _ _ _ _ _ => rfl

theorem Coded.iorv : ∀ g x a y b z c, Coded.Statement (.iorv g x a y b z c) := fun _ _ _ _ _ _ _ => rfl

theorem Coded.nandv : ∀ g x a y b z c, Coded.Statement (.nandv g x a y b z c) := fun _ _ _ _ _ _ _ => rfl

theorem Coded.norv : ∀ g x a y b z c, Coded.Statement (.norv g x a y b z c) := fun _ _ _ _ _ _ _ => rfl

theorem Coded.ornv : ∀ g x a y b z c, Coded.Statement (.ornv g x a y b z c) := fun _ _ _ _ _ _ _ => rfl

theorem Coded.andnv : ∀ g x a y b z c, Coded.Statement (.andnv g x a y b z c) := fun _ _ _ _ _ _ _ => rfl

theorem Coded.xornv : ∀ g x a y b z c, Coded.Statement (.xornv g x a y b z c) := fun _ _ _ _ _ _ _ => rfl

theorem Coded.addus : ∀ g x a y b z c, Coded.Statement (.addus g x a y b z c) := fun _ _ _ _ _ _ _ => rfl

theorem Coded.addls : ∀ g x a y b z c, Coded.Statement (.addls g x a y b z c) := fun _ _ _ _ _ _ _ => rfl

theorem Coded.addns : ∀ g x a y b z c, Coded.Statement (.addns g x a y b z c) := fun _ _ _ _ _ _ _ => rfl

theorem Coded.subus : ∀ g x a y b z c, Coded.Statement (.subus g x a y b z c) := fun _ _ _ _ _ _ _ => rfl

theorem Coded.subls : ∀ g x a y b z c, Coded.Statement (.subls g x a y b z c) := fun _ _ _ _ _ _ _ => rfl

theorem Coded.subns : ∀ g x a y b z c, Coded.Statement (.subns g x a y b z c) := fun _ _ _ _ _ _ _ => rfl

theorem Coded.mpyus : ∀ g x a y b z c, Coded.Statement (.mpyus g x a y b z c) := fun _ _ _ _ _ _ _ => rfl

theorem Coded.mpyls : ∀ g x a y b z c, Coded.Statement (.mpyls g x a y b z c) := fun _ _ _ _ _ _ _ => rfl

theorem Coded.mpyss : ∀ g x a y b z c, Coded.Statement (.mpyss g x a y b z c) := fun _ _ _ _ _ _ _ => rfl

theorem Coded.divus : ∀ g x a y b z c, Coded.Statement (.divus g x a y b z c) := fun _ _ _ _ _ _ _ => rfl

theorem Coded.divss : ∀ g x a y b z c, Coded.Statement (.divss g x a y b z c) := fun _ _ _ _ _ _ _ => rfl

theorem Coded.ibxeqBr : ∀ g x a y b z c, Coded.Statement (.ibxeqBr g x a y b z c) := fun _ _ _ _ _ _ _ => rfl

theorem Coded.ibxeqSc : ∀ g x a y z c, Coded.Statement (.ibxeqSc g x a y z c) := fun _ _ _ _ _ _ => rfl

theorem Coded.cfpeqBr : ∀ g x a y b, Coded.Statement (.cfpeqBr g x a y b) := fun _ _ _ _ _ => rfl

theorem Coded.cfpeqSc : ∀ g x a y, Coded.Statement (.cfpeqSc g x a y) := fun _ _ _ _ => rfl

theorem Coded.ibxneBr : ∀ g x a y b z c, Coded.Statement (.ibxneBr g x a y b z c) := fun _ _ _ _ _ _ _ => rfl

theorem Coded.ibxneSc : ∀ g x a y z c, Coded.Statement (.ibxneSc g x a y z c) := fun _ _ _ _ _ _ => rfl

theorem Coded.cfpneBr : ∀ g x a y b, Coded.Statement (.cfpneBr g x a y b) := fun _ _ _ _ _ => rfl

theorem Coded.cfpneSc : ∀ g x a y, Coded.Statement (.cfpneSc g x a y) := fun _ _ _ _ => rfl

theorem Coded.ibxgeBr : ∀ g x a y b z c, Coded.Statement (.ibxgeBr g x a y b z c) := fun _ _ _ _ _ _ _ => rfl

theorem Coded.ibxgeSc : ∀ g x a y z c, Coded.Statement (.ibxgeSc g x a y z c) := fun _ _ _ _ _ _ => rfl

theorem Coded.cfpgeBr : ∀ g x a y b, Coded.Statement (.cfpgeBr g x a y b) := fun _ _ _ _ _ => rfl

theorem Coded.cfpgeSc : ∀ g x a y, Coded.Statement (.cfpgeSc g x a y) := fun _ _ _ _ => rfl

theorem Coded.ibxltBr : ∀ g x a y b z c, Coded.Statement (.ibxltBr g x a y b z c) := fun _ _ _ _ _ _ _ => rfl

theorem Coded.ibxltSc : ∀ g x a y z c, Coded.Statement (.ibxltSc g x a y z c) := fun _ _ _ _ _ _ => rfl

theorem Coded.cfpltBr : ∀ g x a y b, Coded.Statement (.cfpltBr g x a y b) := fun _ _ _ _ _ => rfl

theorem Coded.cfpltSc : ∀ g x a y, Coded.Statement (.cfpltSc g x a y) := fun _ _ _ _ => rfl

theorem Coded.ibxleBr : ∀ g x a y b z c, Coded.Statement (.ibxleBr g x a y b z c) := fun _ _ _ _ _ _ _ => rfl

theorem Coded.ibxleSc : ∀ g x a y z c, Coded.Statement (.ibxleSc g x a y z c) := fun _ _ _ _ _ _ => rfl

theorem Coded.cfpleBr : ∀ g x a y b, Coded.Statement (.cfpleBr g x a y b) := fun _ _ _ _ _ => rfl

theorem Coded.cfpleSc : ∀ g x a y, Coded.Statement (.cfpleSc g x a y) := fun _ _ _ _ => rfl

theorem Coded.ibxgtBr : ∀ g x a y b z c, Coded.Statement (.ibxgtBr g x a y b z c) := fun _ _ _ _ _ _ _ => rfl

theorem Coded.ibxgtSc : ∀ g x a y z c, Coded.Statement (.ibxgtSc g x a y z c) := fun _ _ _ _ _ _ => rfl

theorem Coded.cfpgtBr : ∀ g x a y b, Coded.Statement (.cfpgtBr g x a y b) := fun _ _ _ _ _ => rfl

theorem Coded.cfpgtSc : ∀ g x a y, Coded.Statement (.cfpgtSc g x a y) := fun _ _ _ _ => rfl

theorem Coded.bim : ∀ r im, Coded.Statement (.bim r im) := fun _ _ => rfl

theorem Coded.vtovx : ∀ g x a y b c, Coded.Statement (.vtovx g x a y b c) := fun _ _ _ _ _ _ => rfl

theorem Coded.vrevv : ∀ g x a z c, Coded.Statement (.vrevv g x a z c) := fun _ _ _ _ _ => rfl

theorem Coded.vxtov : ∀ g x a y b c, Coded.Statement (.vxtov g x a y b c) := fun _ _ _ _ _ _ => rfl

theorem Coded.maskv : ∀ g x a y b z c, Coded.Statement (.maskv g x a y b z c) := fun _ _ _ _ _ _ _ => rfl

theorem Coded.cpsv : ∀ g x a z c, Coded.Statement (.cpsv g x a z c) := fun _ _ _ _ _ => rfl

theorem Coded.mrgv : ∀ g x a y b z c, Coded.Statement (.mrgv g x a y b z c) := fun _ _ _ _ _ _ _ => rfl

theorem Coded.ex : ∀ r im, Coded.Statement (.ex r im) := fun _ _ => rfl

theorem Coded.ix : ∀ r im, Coded.Statement (.ix r im) := fun _ _ => rfl

theorem Coded.seleq : ∀ g x a y b z c, Coded.Statement (.seleq g x a y b z c) := fun _ _ _ _ _ _ _ => rfl

theorem Coded.selne : ∀ g x a y b z c, Coded.Statement (.selne g x a y b z c) := fun _ _ _ _ _ _ _ => rfl

theorem Coded.selge : ∀ g x a y b z c, Coded.Statement (.selge g x a y b z c) := fun _ _ _ _ _ _ _ => rfl

theorem Coded.sellt : ∀ g x a y b z c, Coded.Statement (.sellt g x a y b z c) := fun _ _ _ _ _ _ _ => rfl

theorem Coded.cmpeq : ∀ g x a y b z, Coded.Statement (.cmpeq g x a y b z) := fun _ _ _ _ _ _ => rfl

theorem Coded.cmpne : ∀ g x a y b z, Coded.Statement (.cmpne g x a y b z) := fun _ _ _ _ _ _ => rfl

theorem Coded.cmpge : ∀ g x a y b z, Coded.Statement (.cmpge g x a y b z) := fun _ _ _ _ _ _ => rfl

theorem Coded.cmplt : ∀ g x a y b z, Coded.Statement (.cmplt g x a y b z) := fun _ _ _ _ _ _ => rfl

theorem Coded.srcheq : ∀ g x a y b z c, Coded.Statement (.srcheq g x a y b z c) := fun _ _ _ _ _ _ _ => rfl

theorem Coded.srchne : ∀ g x a y b z c, Coded.Statement (.srchne g x a y b z c) := fun _ _ _ _ _ _ _ => rfl

theorem Coded.srchge : ∀ g x a y b z c, Coded.Statement (.srchge g x a y b z c) := fun _ _ _ _ _ _ _ => rfl

theorem Coded.srchlt : ∀ g x a y b z c, Coded.Statement (.srchlt g x a y b z c) := fun _ _ _ _ _ _ _ => rfl

theorem Coded.mcmpw : ∀ g x a b c, Coded.Statement (.mcmpw g x a b c) := fun _ _ _ _ _ => rfl

theorem Coded.exh : ∀ r im, Coded.Statement (.exh r im) := fun _ _ => rfl

theorem Coded.ixh : ∀ r im, Coded.Statement (.ixh r im) := fun _ _ => rfl

theorem Coded.acps : ∀ g x a y b z c, Coded.Statement (.acps g x a y b z c) := fun _ _ _ _ _ _ _ => rfl

theorem Coded.avg : ∀ g x a y b z c, Coded.Statement (.avg g x a y b z c) := fun _ _ _ _ _ _ _ => rfl

theorem Coded.adjmean : ∀ g x a z c, Coded.Statement (.adjmean g x a z c) := fun _ _ _ _ _ => rfl

theorem Coded.avgd : ∀ g x a y b z c, Coded.Statement (.avgd g x a y b z c) := fun _ _ _ _ _ _ _ => rfl

theorem Coded.delta : ∀ g x a z c, Coded.Statement (.delta g x a z c) := fun _ _ _ _ _ => rfl

theorem Coded.max : ∀ g x a b z c, Coded.Statement (.max g x a b z c) := fun _ _ _ _ _ _ => rfl

theorem Coded.min : ∀ g x a b z c, Coded.Statement (.min g x a b z c) := fun _ _ _ _ _ _ => rfl

theorem Coded.sum : ∀ g x a z c, Coded.Statement (.sum g x a z c) := fun _ _ _ _ _ => rfl

theorem Coded.product : ∀ g x a z c, Coded.Statement (.product g x a z c) := fun _ _ _ _ _ => rfl

theorem Coded.dotv : ∀ g x a y b z c, Coded.Statement (.dotv g x a y b z c) := fun _ _ _ _ _ _ _ => rfl

theorem Coded.interval : ∀ g a b z c, Coded.Statement (.interval g a b z c) := fun _ _ _ _ _ => rfl

theorem Coded.xor : ∀ x a y b z c, Coded.Statement (.xor x a y b z c) := fun _ _ _ _ _ _ => rfl

theorem Coded.and : ∀ x a y b z c, Coded.Statement (.and x a y b z c) := fun _ _ _ _ _ _ => rfl

theorem Coded.ior : ∀ x a y b z c, Coded.Statement (.ior x a y b z c) := fun _ _ _ _ _ _ => rfl

theorem Coded.nand : ∀ x a y b z c, Coded.Statement (.nand x a y b z c) := fun _ _ _ _ _ _ => rfl

theorem Coded.nor : ∀ x a y b z c, Coded.Statement (.nor x a y b z c) := fun _ _ _ _ _ _ => rfl

theorem Coded.orn : ∀ x a y b z c, Coded.Statement (.orn x a y b z c) := fun _ _ _ _ _ _ => rfl

theorem Coded.andn : ∀ x a y b z c, Coded.Statement (.andn x a y b z c) := fun _ _ _ _ _ _ => rfl

theorem Coded.xorn : ∀ x a y b z c, Coded.Statement (.xorn x a y b z c) := fun _ _ _ _ _ _ => rfl

theorem Coded.movl : ∀ x a b z c, Coded.Statement (.movl x a b z c) := fun _ _ _ _ _ => rfl

theorem Coded.post : ∀ g x b c, Coded.Statement (.post g x b c) := fun _ _ _ _ => rfl

theorem Coded.wait : ∀ g x a b c, Coded.Statement (.wait g x a b c) := fun _ _ _ _ _ => rfl

theorem Coded.bbswap : ∀ g x a b c, Coded.Statement (.bbswap g x a b c) := fun _ _ _ _ _ => rfl

theorem Coded.bbldst : ∀ g x a b c, Coded.Statement (.bbldst g x a b c) := fun _ _ _ _ _ => rfl

theorem Coded.cbld : ∀ g x c, Coded.Statement (.cbld g x c) := fun _ _ _ => rfl

theorem Coded.cbsto : ∀ g x c, Coded.Statement (.cbsto g x c) := fun _ _ _ => rfl

end Sys2Proof.Laws
end

