-- ==== Sys2Proof/Tests/Slice0.lean ====
section
/-! SUPPORT. Tests: words written out from the encodings of spec/30_encoding.md and the opcode table, ill-formed
instructions, the examples of spec/95_test_vectors.md, one step each, and for every statement with hypotheses a concrete
state that meets them. -/

namespace Sys2Proof.Tests

-- One theorem at a time: each is small, and many at once need a thread each.
set_option Elab.async false

open Sys2Proof Sys2Proof.Machine

/-! ### Encoding: the bytes are written out from each row's bit pattern -/

/-- What the decoder reads; none where it refuses. -/
def reads (bytes : List Byte) : Option Decoded :=
  match decode bytes with
  | .ok d => some d
  | .error _ => none

/-- Each list of bytes decodes to the instruction beside it, with every unused bit zero, and is its encoding. -/
def coded (l : List (List Byte × Instr)) : Bool :=
  l.all fun p => decide (reads p.1 = some ⟨p.2, true⟩) && decide (encode p.2 = p.1)

theorem test_decode_0 : coded [
    ([0x00, 0x00, 0x00, 0x00], .idle),
    ([0x03, 0x00, 0x00, 0x00], .nop),
    ([0x04, 0x11, 0x00, 0x00], .bkpt 0x11),
    ([0x05, 0x00, 0x00, 0x33], .vsb 0x33),
    ([0x06, 0x11, 0x00, 0x00], .fault 0x11),
    ([0x07, 0x01, 0x00, 0x00], .setmod 0x01),
    ([0x08, 0x11, 0x00, 0x00], .setint 0x11),
    ([0x09, 0x11, 0x22, 0x33], .exit 0x11 0x22 0x33),
    ([0x0A, 0x11, 0x00, 0x00], .mtime 0x11),
    ([0x0C, 0x00, 0x00, 0x00], .stoar),
    ([0x0D, 0x00, 0x00, 0x00], .lodar),
    ([0x0E, 0x00, 0x00, 0x33], .rdint 0x33),
    ([0x0F, 0x11, 0x22, 0x33], .lodkey 0x11 0x22 0x33)] = true := by decide +kernel

theorem test_decode_1 : coded [
    ([0x10, 0x11, 0x00, 0x33], .dtob 0x11 0x33),
    ([0x11, 0x11, 0x00, 0x33], .btod 0x11 0x33),
    ([0x12, 0x11, 0x22, 0x33], .lodc 0x11 0x22 0x33),
    ([0x13, 0x11, 0x22, 0x33], .stoc 0x11 0x22 0x33),
    ([0x14, 0x11, 0x22, 0x33], .cpsb 0x11 0x22 0x33),
    ([0x15, 0x11, 0x22, 0x33], .mrgb 0x11 0x22 0x33),
    ([0x16, 0x11, 0x22, 0x33], .maskb 0x11 0x22 0x33),
    ([0x17, 0x00, 0x00, 0x00], .exdom),
    ([0x18, 0x00, 0x22, 0x33], .swcqta 0x22 0x33),
    ([0x19, 0x00, 0x22, 0x33], .strtio 0x22 0x33),
    ([0x1A, 0x00, 0x22, 0x33], .stopio 0x22 0x33),
    ([0x1B, 0x00, 0x00, 0x33], .testio 0x33),
    ([0x1C, 0x11, 0x22, 0x33], .maskz 0x11 0x22 0x33),
    ([0x1D, 0x11, 0x22, 0x33], .masko 0x11 0x22 0x33),
    ([0x1E, 0x11, 0x22, 0x33], .enteq 0x11 0x22 0x33),
    ([0x1F, 0x11, 0x22, 0x33], .ento 0x11 0x22 0x33)] = true := by decide +kernel

theorem test_decode_2 : coded [
    ([0x20, 0x11, 0x22, 0x33], .bheq 0x11 0x22 0x33),
    ([0x21, 0x11, 0x22, 0x33], .bhne 0x11 0x22 0x33),
    ([0x22, 0x11, 0x22, 0x33], .bhge 0x11 0x22 0x33),
    ([0x23, 0x11, 0x22, 0x33], .bhlt 0x11 0x22 0x33),
    ([0x24, 0x11, 0x22, 0x33], .beq 0x11 0x22 0x33),
    ([0x25, 0x11, 0x22, 0x33], .bne 0x11 0x22 0x33),
    ([0x26, 0x11, 0x22, 0x33], .bge 0x11 0x22 0x33),
    ([0x27, 0x11, 0x22, 0x33], .blt 0x11 0x22 0x33),
    ([0x28, 0x11, 0x22, 0x33], .scnleq 0x11 0x22 0x33),
    ([0x29, 0x00, 0x00, 0x33], .tfc 0x33),
    ([0x2A, 0x11, 0x81, 0x92], .elen 0x11 0x8192),
    ([0x2B, 0x11, 0x22, 0x33], .addlen 0x11 0x22 0x33),
    ([0x2C, 0x11, 0x22, 0x33], .rxor 0x11 0x22 0x33),
    ([0x2D, 0x11, 0x22, 0x33], .rand 0x11 0x22 0x33),
    ([0x2E, 0x11, 0x22, 0x33], .rior 0x11 0x22 0x33),
    ([0x2F, 0xB0, 0x22, 0x33], .barb 0xB0 0x22 0x33)] = true := by decide +kernel

theorem test_decode_3 : coded [
    ([0x30, 0x11, 0x22, 0x33], .shifti 0x11 0x22 0x33),
    ([0x31, 0x11, 0x22, 0x33], .ibnz 0x11 0x22 0x33),
    ([0x32, 0xB0, 0x22, 0x33], .bab 0xB0 0x22 0x33),
    ([0x33, 0xB0, 0x2B, 0x33], .badf 0xB0 0x2B 0x33),
    ([0x34, 0x11, 0x22, 0x33], .shift 0x11 0x22 0x33),
    ([0x35, 0x11, 0x22, 0x33], .dbnz 0x11 0x22 0x33),
    ([0x36, 0x11, 0x22, 0x33], .bsave 0x11 0x22 0x33),
    ([0x37, 0x00, 0x00, 0x33], .rjtime 0x33),
    ([0x38, 0x11, 0x00, 0x33], .ltol 0x11 0x33),
    ([0x39, 0x00, 0x00, 0x33], .clock 0x33),
    ([0x3A, 0x11, 0x00, 0x00], .wjtime 0x11),
    ([0x3B, 0x11, 0x00, 0x33], .lsdfr 0x11 0x33),
    ([0x3C, 0x11, 0x22, 0x33], .mpyxh 0x11 0x22 0x33),
    ([0x3D, 0x11, 0x22, 0x33], .mpyx 0x11 0x22 0x33),
    ([0x3E, 0x11, 0x81, 0x92], .es 0x11 0x8192),
    ([0x3F, 0x11, 0x81, 0x92], .is 0x11 0x8192)] = true := by decide +kernel

theorem test_decode_4 : coded [
    ([0x40, 0x11, 0x22, 0x33], .adduh 0x11 0x22 0x33),
    ([0x41, 0x11, 0x22, 0x33], .addlh 0x11 0x22 0x33),
    ([0x42, 0x11, 0x22, 0x33], .addnh 0x11 0x22 0x33),
    ([0x44, 0x11, 0x22, 0x33], .subuh 0x11 0x22 0x33),
    ([0x45, 0x11, 0x22, 0x33], .sublh 0x11 0x22 0x33),
    ([0x46, 0x11, 0x22, 0x33], .subnh 0x11 0x22 0x33),
    ([0x48, 0x11, 0x22, 0x33], .mpyuh 0x11 0x22 0x33),
    ([0x49, 0x11, 0x22, 0x33], .mpylh 0x11 0x22 0x33),
    ([0x4B, 0x11, 0x22, 0x33], .mpysh 0x11 0x22 0x33),
    ([0x4C, 0x11, 0x22, 0x33], .divuh 0x11 0x22 0x33),
    ([0x4D, 0x11, 0x81, 0x92], .esh 0x11 0x8192),
    ([0x4E, 0x11, 0x81, 0x92], .ish 0x11 0x8192),
    ([0x4F, 0x11, 0x22, 0x33], .divsh 0x11 0x22 0x33)] = true := by decide +kernel

theorem test_decode_5 : coded [
    ([0x50, 0x11, 0x00, 0x33], .truh 0x11 0x33),
    ([0x51, 0x11, 0x00, 0x33], .flrh 0x11 0x33),
    ([0x52, 0x11, 0x00, 0x33], .clgh 0x11 0x33),
    ([0x53, 0x11, 0x00, 0x33], .sqrth 0x11 0x33),
    ([0x54, 0x11, 0x22, 0x33], .adjsh 0x11 0x22 0x33),
    ([0x55, 0x11, 0x22, 0x33], .adjeh 0x11 0x22 0x33),
    ([0x56, 0x18, 0x00, 0x00], .linkv 0x18),
    ([0x57, 0x11, 0x00, 0x33], .rddom 0x11 0x33),
    ([0x58, 0x11, 0x00, 0x33], .rtorh 0x11 0x33),
    ([0x59, 0x11, 0x00, 0x33], .absh 0x11 0x33),
    ([0x5A, 0x11, 0x00, 0x33], .exph 0x11 0x33),
    ([0x5B, 0x11, 0x22, 0x33], .packh 0x11 0x22 0x33),
    ([0x5C, 0x11, 0x00, 0x33], .exth 0x11 0x33),
    ([0x5D, 0x11, 0x00, 0x33], .extxh 0x11 0x33),
    ([0x5E, 0x11, 0x22, 0x33], .lodh 0x11 0x22 0x33),
    ([0x5F, 0x11, 0x22, 0x33], .stoh 0x11 0x22 0x33)] = true := by decide +kernel

theorem test_decode_6 : coded [
    ([0x60, 0x11, 0x22, 0x33], .addu 0x11 0x22 0x33),
    ([0x61, 0x11, 0x22, 0x33], .addl 0x11 0x22 0x33),
    ([0x62, 0x11, 0x22, 0x33], .addn 0x11 0x22 0x33),
    ([0x63, 0x11, 0x22, 0x33], .addx 0x11 0x22 0x33),
    ([0x64, 0x11, 0x22, 0x33], .subu 0x11 0x22 0x33),
    ([0x65, 0x11, 0x22, 0x33], .subl 0x11 0x22 0x33),
    ([0x66, 0x11, 0x22, 0x33], .subn 0x11 0x22 0x33),
    ([0x67, 0x11, 0x22, 0x33], .subx 0x11 0x22 0x33),
    ([0x68, 0x11, 0x22, 0x33], .mpyu 0x11 0x22 0x33),
    ([0x69, 0x11, 0x22, 0x33], .mpyl 0x11 0x22 0x33),
    ([0x6B, 0x11, 0x22, 0x33], .mpys 0x11 0x22 0x33),
    ([0x6C, 0x11, 0x22, 0x33], .divu 0x11 0x22 0x33),
    ([0x6D, 0x11, 0x22, 0x33], .insb 0x11 0x22 0x33),
    ([0x6E, 0x11, 0x22, 0x33], .extb 0x11 0x22 0x33),
    ([0x6F, 0x11, 0x22, 0x33], .divs 0x11 0x22 0x33)] = true := by decide +kernel

theorem test_decode_7 : coded [
    ([0x70, 0x11, 0x00, 0x33], .tru 0x11 0x33),
    ([0x71, 0x11, 0x00, 0x33], .flr 0x11 0x33),
    ([0x72, 0x11, 0x00, 0x33], .clg 0x11 0x33),
    ([0x73, 0x11, 0x00, 0x33], .sqrt 0x11 0x33),
    ([0x74, 0x11, 0x22, 0x33], .adjs 0x11 0x22 0x33),
    ([0x75, 0x11, 0x22, 0x33], .adje 0x11 0x22 0x33),
    ([0x76, 0x11, 0x00, 0x33], .con 0x11 0x33),
    ([0x77, 0x11, 0x00, 0x33], .rcon 0x11 0x33),
    ([0x78, 0x11, 0x00, 0x33], .rtor 0x11 0x33),
    ([0x79, 0x11, 0x00, 0x33], .abs 0x11 0x33),
    ([0x7A, 0x11, 0x00, 0x33], .exp 0x11 0x33),
    ([0x7B, 0x11, 0x22, 0x33], .pack 0x11 0x22 0x33),
    ([0x7C, 0x11, 0x00, 0x33], .ltor 0x11 0x33),
    ([0x7D, 0x11, 0x22, 0x33], .rgap 0x11 0x22 0x33),
    ([0x7E, 0x11, 0x22, 0x33], .lod 0x11 0x22 0x33),
    ([0x7F, 0x11, 0x22, 0x33], .sto 0x11 0x22 0x33)] = true := by decide +kernel

theorem test_decode_8 : coded [
    ([0x80, 0xB9, 0x12, 0x23, 0x34, 0x45, 0x56, 0x67], .adduv 0xB9 0x12 0x23 0x34 0x45 0x56 0x67),
    ([0x81, 0xB9, 0x12, 0x23, 0x34, 0x45, 0x56, 0x67], .addlv 0xB9 0x12 0x23 0x34 0x45 0x56 0x67),
    ([0x82, 0xB9, 0x12, 0x23, 0x34, 0x45, 0x56, 0x67], .addnv 0xB9 0x12 0x23 0x34 0x45 0x56 0x67),
    ([0x83, 0x38, 0x12, 0x23, 0x34, 0x45, 0x56, 0x67], .addxv 0x38 0x12 0x23 0x34 0x45 0x56 0x67),
    ([0x84, 0xB9, 0x12, 0x23, 0x34, 0x45, 0x56, 0x67], .subuv 0xB9 0x12 0x23 0x34 0x45 0x56 0x67),
    ([0x85, 0xB9, 0x12, 0x23, 0x34, 0x45, 0x56, 0x67], .sublv 0xB9 0x12 0x23 0x34 0x45 0x56 0x67),
    ([0x86, 0xB9, 0x12, 0x23, 0x34, 0x45, 0x56, 0x67], .subnv 0xB9 0x12 0x23 0x34 0x45 0x56 0x67),
    ([0x87, 0x38, 0x12, 0x23, 0x34, 0x45, 0x56, 0x67], .subxv 0x38 0x12 0x23 0x34 0x45 0x56 0x67),
    ([0x88, 0xB9, 0x12, 0x23, 0x34, 0x45, 0x56, 0x67], .mpyuv 0xB9 0x12 0x23 0x34 0x45 0x56 0x67),
    ([0x89, 0xB9, 0x12, 0x23, 0x34, 0x45, 0x56, 0x67], .mpylv 0xB9 0x12 0x23 0x34 0x45 0x56 0x67),
    ([0x8A, 0x38, 0x12, 0x23, 0x34, 0x45, 0x56, 0x67], .shiftv 0x38 0x12 0x23 0x34 0x45 0x56 0x67),
    ([0x8B, 0xB9, 0x12, 0x23, 0x34, 0x45, 0x56, 0x67], .mpysv 0xB9 0x12 0x23 0x34 0x45 0x56 0x67),
    ([0x8C, 0xB9, 0x12, 0x23, 0x34, 0x45, 0x56, 0x67], .divuv 0xB9 0x12 0x23 0x34 0x45 0x56 0x67),
    ([0x8F, 0xB9, 0x12, 0x23, 0x34, 0x45, 0x56, 0x67], .divsv 0xB9 0x12 0x23 0x34 0x45 0x56 0x67)] = true := by decide +kernel

theorem test_decode_9a : coded [
    ([0x90, 0xB0, 0x12, 0x23, 0x00, 0x00, 0x56, 0x67], .truv 0xB0 0x12 0x23 0x56 0x67),
    ([0x91, 0xB0, 0x12, 0x23, 0x00, 0x00, 0x56, 0x67], .flrv 0xB0 0x12 0x23 0x56 0x67),
    ([0x92, 0xB0, 0x12, 0x23, 0x00, 0x00, 0x56, 0x67], .clgv 0xB0 0x12 0x23 0x56 0x67),
    ([0x93, 0xB0, 0x12, 0x23, 0x00, 0x00, 0x56, 0x67], .sqrtv 0xB0 0x12 0x23 0x56 0x67),
    ([0x94, 0xB8, 0x12, 0x23, 0x34, 0x45, 0x56, 0x67], .adjsv 0xB8 0x12 0x23 0x34 0x45 0x56 0x67),
    ([0x95, 0xB8, 0x12, 0x23, 0x34, 0x45, 0x56, 0x67], .adjev 0xB8 0x12 0x23 0x34 0x45 0x56 0x67),
    ([0x96, 0x30, 0x12, 0x23, 0x00, 0x00, 0x56, 0x67], .conv 0x30 0x12 0x23 0x56 0x67),
    ([0x97, 0x30, 0x12, 0x23, 0x00, 0x00, 0x56, 0x67], .rconv 0x30 0x12 0x23 0x56 0x67),
    ([0x98, 0xB0, 0x12, 0x23, 0x00, 0x00, 0x56, 0x67], .vtov 0xB0 0x12 0x23 0x56 0x67),
    ([0x99, 0xB0, 0x12, 0x23, 0x00, 0x00, 0x56, 0x67], .absv 0xB0 0x12 0x23 0x56 0x67),
    ([0x9A, 0xB0, 0x12, 0x23, 0x00, 0x00, 0x56, 0x67], .expv 0xB0 0x12 0x23 0x56 0x67),
    ([0x9B, 0xB8, 0x12, 0x23, 0x34, 0x45, 0x56, 0x67], .packv 0xB8 0x12 0x23 0x34 0x45 0x56 0x67),
    ([0x9C, 0x30, 0x12, 0x23, 0x00, 0x00, 0x56, 0x67], .extv 0x30 0x12 0x23 0x56 0x67),
    ([0x9D, 0xB8, 0x12, 0x23, 0x34, 0x45, 0x56, 0x67], .xorv 0xB8 0x12 0x23 0x34 0x45 0x56 0x67)] = true := by decide +kernel

theorem test_decode_9b : coded [
    ([0x9D, 0xB9, 0x12, 0x23, 0x34, 0x45, 0x56, 0x67], .andv 0xB9 0x12 0x23 0x34 0x45 0x56 0x67),
    ([0x9D, 0xBA, 0x12, 0x23, 0x34, 0x45, 0x56, 0x67], .iorv 0xBA 0x12 0x23 0x34 0x45 0x56 0x67),
    ([0x9D, 0xBB, 0x12, 0x23, 0x34, 0x45, 0x56, 0x67], .nandv 0xBB 0x12 0x23 0x34 0x45 0x56 0x67),
    ([0x9D, 0xBC, 0x12, 0x23, 0x34, 0x45, 0x56, 0x67], .norv 0xBC 0x12 0x23 0x34 0x45 0x56 0x67),
    ([0x9D, 0xBD, 0x12, 0x23, 0x34, 0x45, 0x56, 0x67], .ornv 0xBD 0x12 0x23 0x34 0x45 0x56 0x67),
    ([0x9D, 0xBE, 0x12, 0x23, 0x34, 0x45, 0x56, 0x67], .andnv 0xBE 0x12 0x23 0x34 0x45 0x56 0x67),
    ([0x9D, 0xBF, 0x12, 0x23, 0x34, 0x45, 0x56, 0x67], .xornv 0xBF 0x12 0x23 0x34 0x45 0x56 0x67)] = true := by decide +kernel

theorem test_decode_A : coded [
    ([0xA0, 0xB9, 0x12, 0x23, 0x34, 0x45, 0x56, 0x67], .addus 0xB9 0x12 0x23 0x34 0x45 0x56 0x67),
    ([0xA1, 0xB9, 0x12, 0x23, 0x34, 0x45, 0x56, 0x67], .addls 0xB9 0x12 0x23 0x34 0x45 0x56 0x67),
    ([0xA2, 0xB9, 0x12, 0x23, 0x34, 0x45, 0x56, 0x67], .addns 0xB9 0x12 0x23 0x34 0x45 0x56 0x67),
    ([0xA4, 0xB9, 0x12, 0x23, 0x34, 0x45, 0x56, 0x67], .subus 0xB9 0x12 0x23 0x34 0x45 0x56 0x67),
    ([0xA5, 0xB9, 0x12, 0x23, 0x34, 0x45, 0x56, 0x67], .subls 0xB9 0x12 0x23 0x34 0x45 0x56 0x67),
    ([0xA6, 0xB9, 0x12, 0x23, 0x34, 0x45, 0x56, 0x67], .subns 0xB9 0x12 0x23 0x34 0x45 0x56 0x67),
    ([0xA8, 0xB9, 0x12, 0x23, 0x34, 0x45, 0x56, 0x67], .mpyus 0xB9 0x12 0x23 0x34 0x45 0x56 0x67),
    ([0xA9, 0xB9, 0x12, 0x23, 0x34, 0x45, 0x56, 0x67], .mpyls 0xB9 0x12 0x23 0x34 0x45 0x56 0x67),
    ([0xAB, 0xB9, 0x12, 0x23, 0x34, 0x45, 0x56, 0x67], .mpyss 0xB9 0x12 0x23 0x34 0x45 0x56 0x67),
    ([0xAC, 0xB9, 0x12, 0x23, 0x34, 0x45, 0x56, 0x67], .divus 0xB9 0x12 0x23 0x34 0x45 0x56 0x67),
    ([0xAF, 0xB9, 0x12, 0x23, 0x34, 0x45, 0x56, 0x67], .divss 0xB9 0x12 0x23 0x34 0x45 0x56 0x67)] = true := by decide +kernel

theorem test_decode_Ba : coded [
    ([0xB0, 0x98, 0x12, 0x23, 0x34, 0x45, 0x56, 0x67], .ibxeqBr 0x98 0x12 0x23 0x34 0x45 0x56 0x67),
    ([0xB0, 0xB8, 0x12, 0x23, 0x34, 0x00, 0x56, 0x67], .ibxeqSc 0xB8 0x12 0x23 0x34 0x56 0x67),
    ([0xB0, 0xC0, 0x12, 0x23, 0x34, 0x45, 0x00, 0x00], .cfpeqBr 0xC0 0x12 0x23 0x34 0x45),
    ([0xB0, 0xE0, 0x12, 0x23, 0x34, 0x00, 0x00, 0x00], .cfpeqSc 0xE0 0x12 0x23 0x34),
    ([0xB1, 0x98, 0x12, 0x23, 0x34, 0x45, 0x56, 0x67], .ibxneBr 0x98 0x12 0x23 0x34 0x45 0x56 0x67),
    ([0xB1, 0xB8, 0x12, 0x23, 0x34, 0x00, 0x56, 0x67], .ibxneSc 0xB8 0x12 0x23 0x34 0x56 0x67),
    ([0xB1, 0xC0, 0x12, 0x23, 0x34, 0x45, 0x00, 0x00], .cfpneBr 0xC0 0x12 0x23 0x34 0x45),
    ([0xB1, 0xE0, 0x12, 0x23, 0x34, 0x00, 0x00, 0x00], .cfpneSc 0xE0 0x12 0x23 0x34),
    ([0xB2, 0x88, 0x12, 0x23, 0x34, 0x45, 0x56, 0x67], .ibxgeBr 0x88 0x12 0x23 0x34 0x45 0x56 0x67),
    ([0xB2, 0xA8, 0x12, 0x23, 0x34, 0x00, 0x56, 0x67], .ibxgeSc 0xA8 0x12 0x23 0x34 0x56 0x67),
    ([0xB2, 0xC0, 0x12, 0x23, 0x34, 0x45, 0x00, 0x00], .cfpgeBr 0xC0 0x12 0x23 0x34 0x45),
    ([0xB2, 0xE0, 0x12, 0x23, 0x34, 0x00, 0x00, 0x00], .cfpgeSc 0xE0 0x12 0x23 0x34),
    ([0xB3, 0x88, 0x12, 0x23, 0x34, 0x45, 0x56, 0x67], .ibxltBr 0x88 0x12 0x23 0x34 0x45 0x56 0x67),
    ([0xB3, 0xA8, 0x12, 0x23, 0x34, 0x00, 0x56, 0x67], .ibxltSc 0xA8 0x12 0x23 0x34 0x56 0x67)] = true := by decide +kernel

theorem test_decode_Bb : coded [
    ([0xB3, 0xC0, 0x12, 0x23, 0x34, 0x45, 0x00, 0x00], .cfpltBr 0xC0 0x12 0x23 0x34 0x45),
    ([0xB3, 0xE0, 0x12, 0x23, 0x34, 0x00, 0x00, 0x00], .cfpltSc 0xE0 0x12 0x23 0x34),
    ([0xB4, 0x88, 0x12, 0x23, 0x34, 0x45, 0x56, 0x67], .ibxleBr 0x88 0x12 0x23 0x34 0x45 0x56 0x67),
    ([0xB4, 0xA8, 0x12, 0x23, 0x34, 0x00, 0x56, 0x67], .ibxleSc 0xA8 0x12 0x23 0x34 0x56 0x67),
    ([0xB4, 0xC0, 0x12, 0x23, 0x34, 0x45, 0x00, 0x00], .cfpleBr 0xC0 0x12 0x23 0x34 0x45),
    ([0xB4, 0xE0, 0x12, 0x23, 0x34, 0x00, 0x00, 0x00], .cfpleSc 0xE0 0x12 0x23 0x34),
    ([0xB5, 0x88, 0x12, 0x23, 0x34, 0x45, 0x56, 0x67], .ibxgtBr 0x88 0x12 0x23 0x34 0x45 0x56 0x67),
    ([0xB5, 0xA8, 0x12, 0x23, 0x34, 0x00, 0x56, 0x67], .ibxgtSc 0xA8 0x12 0x23 0x34 0x56 0x67),
    ([0xB5, 0xC0, 0x12, 0x23, 0x34, 0x45, 0x00, 0x00], .cfpgtBr 0xC0 0x12 0x23 0x34 0x45),
    ([0xB5, 0xE0, 0x12, 0x23, 0x34, 0x00, 0x00, 0x00], .cfpgtSc 0xE0 0x12 0x23 0x34),
    ([0xB6, 0x11, 0x81, 0x92, 0xA3, 0xB4, 0xC5, 0xD6], .bim 0x11 0x8192A3B4C5D6),
    ([0xB7, 0x89, 0x12, 0x23, 0x34, 0x45, 0x00, 0x67], .vtovx 0x89 0x12 0x23 0x34 0x45 0x67),
    ([0xB8, 0xA0, 0x12, 0x23, 0x00, 0x00, 0x56, 0x67], .vrevv 0xA0 0x12 0x23 0x56 0x67),
    ([0xBA, 0x81, 0x12, 0x23, 0x34, 0x45, 0x00, 0x67], .vxtov 0x81 0x12 0x23 0x34 0x45 0x67)] = true := by decide +kernel

theorem test_decode_Bc : coded [
    ([0xBB, 0x98, 0x12, 0x23, 0x34, 0x45, 0x56, 0x67], .maskv 0x98 0x12 0x23 0x34 0x45 0x56 0x67),
    ([0xBC, 0x80, 0x12, 0x23, 0x00, 0x00, 0x56, 0x67], .cpsv 0x80 0x12 0x23 0x56 0x67),
    ([0xBD, 0x99, 0x12, 0x23, 0x34, 0x45, 0x56, 0x67], .mrgv 0x99 0x12 0x23 0x34 0x45 0x56 0x67),
    ([0xBE, 0x11, 0x81, 0x92, 0xA3, 0xB4, 0xC5, 0xD6], .ex 0x11 0x8192A3B4C5D6),
    ([0xBF, 0x11, 0x81, 0x92, 0xA3, 0xB4, 0xC5, 0xD6], .ix 0x11 0x8192A3B4C5D6)] = true := by decide +kernel

theorem test_decode_C : coded [
    ([0xC0, 0x98, 0x12, 0x23, 0x34, 0x45, 0x56, 0x67], .seleq 0x98 0x12 0x23 0x34 0x45 0x56 0x67),
    ([0xC1, 0x98, 0x12, 0x23, 0x34, 0x45, 0x56, 0x67], .selne 0x98 0x12 0x23 0x34 0x45 0x56 0x67),
    ([0xC2, 0x98, 0x12, 0x23, 0x34, 0x45, 0x56, 0x67], .selge 0x98 0x12 0x23 0x34 0x45 0x56 0x67),
    ([0xC3, 0x98, 0x12, 0x23, 0x34, 0x45, 0x56, 0x67], .sellt 0x98 0x12 0x23 0x34 0x45 0x56 0x67),
    ([0xC4, 0x98, 0x12, 0x23, 0x34, 0x45, 0x56, 0x00], .cmpeq 0x98 0x12 0x23 0x34 0x45 0x56),
    ([0xC5, 0x98, 0x12, 0x23, 0x34, 0x45, 0x56, 0x00], .cmpne 0x98 0x12 0x23 0x34 0x45 0x56),
    ([0xC6, 0x98, 0x12, 0x23, 0x34, 0x45, 0x56, 0x00], .cmpge 0x98 0x12 0x23 0x34 0x45 0x56),
    ([0xC7, 0x98, 0x12, 0x23, 0x34, 0x45, 0x56, 0x00], .cmplt 0x98 0x12 0x23 0x34 0x45 0x56),
    ([0xC8, 0xA0, 0x12, 0x23, 0x34, 0x45, 0x56, 0x67], .srcheq 0xA0 0x12 0x23 0x34 0x45 0x56 0x67),
    ([0xC9, 0xA0, 0x12, 0x23, 0x34, 0x45, 0x56, 0x67], .srchne 0xA0 0x12 0x23 0x34 0x45 0x56 0x67),
    ([0xCA, 0xA0, 0x12, 0x23, 0x34, 0x45, 0x56, 0x67], .srchge 0xA0 0x12 0x23 0x34 0x45 0x56 0x67),
    ([0xCB, 0xA0, 0x12, 0x23, 0x34, 0x45, 0x56, 0x67], .srchlt 0xA0 0x12 0x23 0x34 0x45 0x56 0x67),
    ([0xCC, 0x01, 0x12, 0x23, 0x00, 0x45, 0x00, 0x67], .mcmpw 0x01 0x12 0x23 0x45 0x67),
    ([0xCD, 0x11, 0x00, 0x00, 0x00, 0x81, 0x92, 0xA3], .exh 0x11 0x8192A3),
    ([0xCE, 0x11, 0x00, 0x00, 0x00, 0x81, 0x92, 0xA3], .ixh 0x11 0x8192A3),
    ([0xCF, 0x89, 0x12, 0x23, 0x34, 0x45, 0x56, 0x67], .acps 0x89 0x12 0x23 0x34 0x45 0x56 0x67)] = true := by decide +kernel

theorem test_decode_D : coded [
    ([0xD0, 0xB8, 0x12, 0x23, 0x34, 0x45, 0x56, 0x67], .avg 0xB8 0x12 0x23 0x34 0x45 0x56 0x67),
    ([0xD1, 0xA0, 0x12, 0x23, 0x00, 0x00, 0x56, 0x67], .adjmean 0xA0 0x12 0x23 0x56 0x67),
    ([0xD4, 0xB8, 0x12, 0x23, 0x34, 0x45, 0x56, 0x67], .avgd 0xB8 0x12 0x23 0x34 0x45 0x56 0x67),
    ([0xD5, 0xA0, 0x12, 0x23, 0x00, 0x00, 0x56, 0x67], .delta 0xA0 0x12 0x23 0x56 0x67),
    ([0xD8, 0x80, 0x12, 0x23, 0x00, 0x45, 0x56, 0x67], .max 0x80 0x12 0x23 0x45 0x56 0x67),
    ([0xD9, 0x80, 0x12, 0x23, 0x00, 0x45, 0x56, 0x67], .min 0x80 0x12 0x23 0x45 0x56 0x67),
    ([0xDA, 0x80, 0x12, 0x23, 0x00, 0x00, 0x56, 0x67], .sum 0x80 0x12 0x23 0x56 0x67),
    ([0xDB, 0x80, 0x12, 0x23, 0x00, 0x00, 0x56, 0x67], .product 0x80 0x12 0x23 0x56 0x67),
    ([0xDC, 0x98, 0x12, 0x23, 0x34, 0x45, 0x56, 0x67], .dotv 0x98 0x12 0x23 0x34 0x45 0x56 0x67),
    ([0xDF, 0xA0, 0x00, 0x23, 0x00, 0x45, 0x56, 0x67], .interval 0xA0 0x23 0x45 0x56 0x67)] = true := by decide +kernel

theorem test_decode_F : coded [
    ([0xF0, 0x00, 0x12, 0x23, 0x34, 0x45, 0x56, 0x67], .xor 0x12 0x23 0x34 0x45 0x56 0x67),
    ([0xF1, 0x00, 0x12, 0x23, 0x34, 0x45, 0x56, 0x67], .and 0x12 0x23 0x34 0x45 0x56 0x67),
    ([0xF2, 0x00, 0x12, 0x23, 0x34, 0x45, 0x56, 0x67], .ior 0x12 0x23 0x34 0x45 0x56 0x67),
    ([0xF3, 0x00, 0x12, 0x23, 0x34, 0x45, 0x56, 0x67], .nand 0x12 0x23 0x34 0x45 0x56 0x67),
    ([0xF4, 0x00, 0x12, 0x23, 0x34, 0x45, 0x56, 0x67], .nor 0x12 0x23 0x34 0x45 0x56 0x67),
    ([0xF5, 0x00, 0x12, 0x23, 0x34, 0x45, 0x56, 0x67], .orn 0x12 0x23 0x34 0x45 0x56 0x67),
    ([0xF6, 0x00, 0x12, 0x23, 0x34, 0x45, 0x56, 0x67], .andn 0x12 0x23 0x34 0x45 0x56 0x67),
    ([0xF7, 0x00, 0x12, 0x23, 0x34, 0x45, 0x56, 0x67], .xorn 0x12 0x23 0x34 0x45 0x56 0x67),
    ([0xF8, 0x00, 0x12, 0x23, 0x00, 0x45, 0x56, 0x67], .movl 0x12 0x23 0x45 0x56 0x67),
    ([0xFA, 0x30, 0x12, 0x00, 0x00, 0x45, 0x00, 0x67], .post 0x30 0x12 0x45 0x67),
    ([0xFB, 0x31, 0x12, 0x23, 0x00, 0x45, 0x00, 0x67], .wait 0x31 0x12 0x23 0x45 0x67),
    ([0xFC, 0x81, 0x12, 0x23, 0x00, 0x45, 0x00, 0x67], .bbswap 0x81 0x12 0x23 0x45 0x67),
    ([0xFD, 0x81, 0x12, 0x23, 0x00, 0x45, 0x00, 0x67], .bbldst 0x81 0x12 0x23 0x45 0x67),
    ([0xFE, 0x81, 0x12, 0x00, 0x00, 0x00, 0x00, 0x67], .cbld 0x81 0x12 0x67),
    ([0xFF, 0x81, 0x12, 0x00, 0x00, 0x00, 0x00, 0x67], .cbsto 0x81 0x12 0x67)] = true := by decide +kernel

/-! ### Ill-formed instructions: one for each bit pattern of a subfunction byte -/

theorem test_illformed_0 : ([
    .setmod 0x02, .setmod 0x80] : List Instr).all (fun i => !i.wf) = true := by decide +kernel

theorem test_illformed_2 : ([
    .barb 0x01 0x22 0x33, .barb 0x08 0x22 0x33] : List Instr).all (fun i => !i.wf) = true := by decide +kernel

theorem test_illformed_3 : ([
    .bab 0x01 0x22 0x33, .bab 0x08 0x22 0x33, .badf 0x01 0x2B 0x33, .badf 0x08 0x2B 0x33] : List Instr).all (fun i => !i.wf) = true := by decide +kernel

theorem test_illformed_5 : ([
    .linkv 0x01, .linkv 0x80] : List Instr).all (fun i => !i.wf) = true := by decide +kernel

theorem test_illformed_8 : ([
    .addxv 0x01 0x12 0x23 0x34 0x45 0x56 0x67, .addxv 0x80 0x12 0x23 0x34 0x45 0x56 0x67,
    .subxv 0x01 0x12 0x23 0x34 0x45 0x56 0x67, .subxv 0x80 0x12 0x23 0x34 0x45 0x56 0x67,
    .shiftv 0x01 0x12 0x23 0x34 0x45 0x56 0x67, .shiftv 0x80 0x12 0x23 0x34 0x45 0x56 0x67] : List Instr).all (fun i => !i.wf) = true := by decide +kernel

theorem test_illformed_9 : ([
    .truv 0x01 0x12 0x23 0x56 0x67, .truv 0x08 0x12 0x23 0x56 0x67, .flrv 0x01 0x12 0x23 0x56 0x67,
    .flrv 0x08 0x12 0x23 0x56 0x67, .clgv 0x01 0x12 0x23 0x56 0x67, .clgv 0x08 0x12 0x23 0x56 0x67,
    .sqrtv 0x01 0x12 0x23 0x56 0x67, .sqrtv 0x08 0x12 0x23 0x56 0x67, .adjsv 0x01 0x12 0x23 0x34 0x45 0x56 0x67,
    .adjsv 0x04 0x12 0x23 0x34 0x45 0x56 0x67, .adjev 0x01 0x12 0x23 0x34 0x45 0x56 0x67,
    .adjev 0x04 0x12 0x23 0x34 0x45 0x56 0x67, .conv 0x01 0x12 0x23 0x56 0x67, .conv 0x80 0x12 0x23 0x56 0x67,
    .rconv 0x01 0x12 0x23 0x56 0x67, .rconv 0x80 0x12 0x23 0x56 0x67, .vtov 0x01 0x12 0x23 0x56 0x67,
    .vtov 0x08 0x12 0x23 0x56 0x67, .absv 0x01 0x12 0x23 0x56 0x67, .absv 0x08 0x12 0x23 0x56 0x67,
    .expv 0x01 0x12 0x23 0x56 0x67, .expv 0x08 0x12 0x23 0x56 0x67, .packv 0x01 0x12 0x23 0x34 0x45 0x56 0x67,
    .packv 0x04 0x12 0x23 0x34 0x45 0x56 0x67, .extv 0x01 0x12 0x23 0x56 0x67, .extv 0x80 0x12 0x23 0x56 0x67,
    .xorv 0x01 0x12 0x23 0x34 0x45 0x56 0x67, .xorv 0x04 0x12 0x23 0x34 0x45 0x56 0x67,
    .andv 0x00 0x12 0x23 0x34 0x45 0x56 0x67, .andv 0x05 0x12 0x23 0x34 0x45 0x56 0x67,
    .iorv 0x03 0x12 0x23 0x34 0x45 0x56 0x67, .iorv 0x06 0x12 0x23 0x34 0x45 0x56 0x67,
    .nandv 0x02 0x12 0x23 0x34 0x45 0x56 0x67, .nandv 0x07 0x12 0x23 0x34 0x45 0x56 0x67,
    .norv 0x05 0x12 0x23 0x34 0x45 0x56 0x67, .norv 0x00 0x12 0x23 0x34 0x45 0x56 0x67,
    .ornv 0x04 0x12 0x23 0x34 0x45 0x56 0x67, .ornv 0x01 0x12 0x23 0x34 0x45 0x56 0x67,
    .andnv 0x07 0x12 0x23 0x34 0x45 0x56 0x67, .andnv 0x02 0x12 0x23 0x34 0x45 0x56 0x67,
    .xornv 0x06 0x12 0x23 0x34 0x45 0x56 0x67, .xornv 0x03 0x12 0x23 0x34 0x45 0x56 0x67] : List Instr).all (fun i => !i.wf) = true := by decide +kernel

theorem test_illformed_B : ([
    .ibxeqBr 0x01 0x12 0x23 0x34 0x45 0x56 0x67, .ibxeqBr 0x40 0x12 0x23 0x34 0x45 0x56 0x67,
    .ibxeqSc 0x21 0x12 0x23 0x34 0x56 0x67, .ibxeqSc 0x60 0x12 0x23 0x34 0x56 0x67,
    .cfpeqBr 0x41 0x12 0x23 0x34 0x45, .cfpeqBr 0x00 0x12 0x23 0x34 0x45, .cfpeqSc 0x61 0x12 0x23 0x34,
    .cfpeqSc 0x20 0x12 0x23 0x34, .ibxneBr 0x01 0x12 0x23 0x34 0x45 0x56 0x67,
    .ibxneBr 0x40 0x12 0x23 0x34 0x45 0x56 0x67, .ibxneSc 0x21 0x12 0x23 0x34 0x56 0x67,
    .ibxneSc 0x60 0x12 0x23 0x34 0x56 0x67, .cfpneBr 0x41 0x12 0x23 0x34 0x45, .cfpneBr 0x00 0x12 0x23 0x34 0x45,
    .cfpneSc 0x61 0x12 0x23 0x34, .cfpneSc 0x20 0x12 0x23 0x34, .ibxgeBr 0x01 0x12 0x23 0x34 0x45 0x56 0x67,
    .ibxgeBr 0x40 0x12 0x23 0x34 0x45 0x56 0x67, .ibxgeSc 0x21 0x12 0x23 0x34 0x56 0x67,
    .ibxgeSc 0x60 0x12 0x23 0x34 0x56 0x67, .cfpgeBr 0x41 0x12 0x23 0x34 0x45, .cfpgeBr 0x00 0x12 0x23 0x34 0x45,
    .cfpgeSc 0x61 0x12 0x23 0x34, .cfpgeSc 0x20 0x12 0x23 0x34, .ibxltBr 0x01 0x12 0x23 0x34 0x45 0x56 0x67,
    .ibxltBr 0x40 0x12 0x23 0x34 0x45 0x56 0x67, .ibxltSc 0x21 0x12 0x23 0x34 0x56 0x67,
    .ibxltSc 0x60 0x12 0x23 0x34 0x56 0x67, .cfpltBr 0x41 0x12 0x23 0x34 0x45, .cfpltBr 0x00 0x12 0x23 0x34 0x45,
    .cfpltSc 0x61 0x12 0x23 0x34, .cfpltSc 0x20 0x12 0x23 0x34, .ibxleBr 0x01 0x12 0x23 0x34 0x45 0x56 0x67,
    .ibxleBr 0x40 0x12 0x23 0x34 0x45 0x56 0x67, .ibxleSc 0x21 0x12 0x23 0x34 0x56 0x67,
    .ibxleSc 0x60 0x12 0x23 0x34 0x56 0x67, .cfpleBr 0x41 0x12 0x23 0x34 0x45, .cfpleBr 0x00 0x12 0x23 0x34 0x45,
    .cfpleSc 0x61 0x12 0x23 0x34, .cfpleSc 0x20 0x12 0x23 0x34, .ibxgtBr 0x01 0x12 0x23 0x34 0x45 0x56 0x67,
    .ibxgtBr 0x40 0x12 0x23 0x34 0x45 0x56 0x67, .ibxgtSc 0x21 0x12 0x23 0x34 0x56 0x67,
    .ibxgtSc 0x60 0x12 0x23 0x34 0x56 0x67, .cfpgtBr 0x41 0x12 0x23 0x34 0x45, .cfpgtBr 0x00 0x12 0x23 0x34 0x45,
    .cfpgtSc 0x61 0x12 0x23 0x34, .cfpgtSc 0x20 0x12 0x23 0x34, .vtovx 0x10 0x12 0x23 0x34 0x45 0x67,
    .vtovx 0x40 0x12 0x23 0x34 0x45 0x67, .vrevv 0x01 0x12 0x23 0x56 0x67, .vrevv 0x10 0x12 0x23 0x56 0x67,
    .vxtov 0x08 0x12 0x23 0x34 0x45 0x67, .vxtov 0x40 0x12 0x23 0x34 0x45 0x67,
    .maskv 0x01 0x12 0x23 0x34 0x45 0x56 0x67, .maskv 0x40 0x12 0x23 0x34 0x45 0x56 0x67,
    .cpsv 0x01 0x12 0x23 0x56 0x67, .cpsv 0x20 0x12 0x23 0x56 0x67, .mrgv 0x02 0x12 0x23 0x34 0x45 0x56 0x67,
    .mrgv 0x40 0x12 0x23 0x34 0x45 0x56 0x67] : List Instr).all (fun i => !i.wf) = true := by decide +kernel

theorem test_illformed_C : ([
    .seleq 0x01 0x12 0x23 0x34 0x45 0x56 0x67, .seleq 0x20 0x12 0x23 0x34 0x45 0x56 0x67,
    .selne 0x01 0x12 0x23 0x34 0x45 0x56 0x67, .selne 0x20 0x12 0x23 0x34 0x45 0x56 0x67,
    .selge 0x01 0x12 0x23 0x34 0x45 0x56 0x67, .selge 0x20 0x12 0x23 0x34 0x45 0x56 0x67,
    .sellt 0x01 0x12 0x23 0x34 0x45 0x56 0x67, .sellt 0x20 0x12 0x23 0x34 0x45 0x56 0x67,
    .cmpeq 0x01 0x12 0x23 0x34 0x45 0x56, .cmpeq 0x40 0x12 0x23 0x34 0x45 0x56,
    .cmpne 0x01 0x12 0x23 0x34 0x45 0x56, .cmpne 0x40 0x12 0x23 0x34 0x45 0x56,
    .cmpge 0x01 0x12 0x23 0x34 0x45 0x56, .cmpge 0x40 0x12 0x23 0x34 0x45 0x56,
    .cmplt 0x01 0x12 0x23 0x34 0x45 0x56, .cmplt 0x40 0x12 0x23 0x34 0x45 0x56,
    .srcheq 0x01 0x12 0x23 0x34 0x45 0x56 0x67, .srcheq 0x10 0x12 0x23 0x34 0x45 0x56 0x67,
    .srchne 0x01 0x12 0x23 0x34 0x45 0x56 0x67, .srchne 0x10 0x12 0x23 0x34 0x45 0x56 0x67,
    .srchge 0x01 0x12 0x23 0x34 0x45 0x56 0x67, .srchge 0x10 0x12 0x23 0x34 0x45 0x56 0x67,
    .srchlt 0x01 0x12 0x23 0x34 0x45 0x56 0x67, .srchlt 0x10 0x12 0x23 0x34 0x45 0x56 0x67,
    .mcmpw 0x02 0x12 0x23 0x45 0x67, .mcmpw 0x80 0x12 0x23 0x45 0x67, .acps 0x10 0x12 0x23 0x34 0x45 0x56 0x67,
    .acps 0x40 0x12 0x23 0x34 0x45 0x56 0x67] : List Instr).all (fun i => !i.wf) = true := by decide +kernel

theorem test_illformed_D : ([
    .avg 0x01 0x12 0x23 0x34 0x45 0x56 0x67, .avg 0x04 0x12 0x23 0x34 0x45 0x56 0x67,
    .adjmean 0x01 0x12 0x23 0x56 0x67, .adjmean 0x10 0x12 0x23 0x56 0x67, .avgd 0x01 0x12 0x23 0x34 0x45 0x56 0x67,
    .avgd 0x04 0x12 0x23 0x34 0x45 0x56 0x67, .delta 0x01 0x12 0x23 0x56 0x67, .delta 0x10 0x12 0x23 0x56 0x67,
    .max 0x01 0x12 0x23 0x45 0x56 0x67, .max 0x20 0x12 0x23 0x45 0x56 0x67, .min 0x01 0x12 0x23 0x45 0x56 0x67,
    .min 0x20 0x12 0x23 0x45 0x56 0x67, .sum 0x01 0x12 0x23 0x56 0x67, .sum 0x20 0x12 0x23 0x56 0x67,
    .product 0x01 0x12 0x23 0x56 0x67, .product 0x20 0x12 0x23 0x56 0x67, .dotv 0x01 0x12 0x23 0x34 0x45 0x56 0x67,
    .dotv 0x20 0x12 0x23 0x34 0x45 0x56 0x67, .interval 0x01 0x23 0x45 0x56 0x67,
    .interval 0x10 0x23 0x45 0x56 0x67] : List Instr).all (fun i => !i.wf) = true := by decide +kernel

theorem test_illformed_F : ([
    .post 0x01 0x12 0x45 0x67, .post 0x80 0x12 0x45 0x67, .wait 0x04 0x12 0x23 0x45 0x67,
    .wait 0x80 0x12 0x23 0x45 0x67, .bbswap 0x04 0x12 0x23 0x45 0x67, .bbswap 0x40 0x12 0x23 0x45 0x67,
    .bbldst 0x04 0x12 0x23 0x45 0x67, .bbldst 0x40 0x12 0x23 0x45 0x67, .cbld 0x04 0x12 0x67, .cbld 0x40 0x12 0x67,
    .cbsto 0x04 0x12 0x67, .cbsto 0x40 0x12 0x67] : List Instr).all (fun i => !i.wf) = true := by decide +kernel

/-- A one in an unused field is no other instruction: it is the same one, not clean (R116). -/
theorem test_unclean : decode [0x03, 0x00, 0x01, 0x00] = .ok ⟨.nop, false⟩ := rfl

/-- An unused function code is refused by name (R125). -/
theorem test_unused : decode [0x01, 0, 0, 0] = .error (.unusedCode 0x01) := rfl

/-- The rows of the opcode table as numbers: a 32-bit one, and a 64-bit one. -/
theorem test_table_words : decodeTableWord 32 0x2C101112 = some (.rxor 0x10 0x11 0x12) ∧
    decodeTableWord 64 0xBE10123456789ABC = some (.ex 0x10 0x123456789ABC) := by decide

/-! ### One step each: the examples of spec/95_test_vectors.md (and of the instructions' own rules) -/

/-- A machine in Monitor mode at #8000 with these registers, 32-bit registers, and words of CP memory at bit addresses. -/
def machine (regs : List (Byte × Word)) (halfs : List (Byte × Half)) (mem : List (Nat × Word)) : State :=
  let s := regs.foldl (fun s p => s.setReg p.1 p.2) State.reset
  let s := halfs.foldl (fun s p => s.setReg32 p.1 p.2) s
  { s with mem := mem.foldl (fun m p => Memory.setWord m (p.1 / 8) p.2) [] }

/-- The same with words in the communication buffer, which BLAPs 0 and 1 open from #1000 and #2000 on. -/
def bufferMachine (regs : List (Byte × Word)) (halfs : List (Byte × Half)) (cb : List (Nat × Word)) : State :=
  let s := machine regs halfs []
  { s with
    dom := { s.dom with blaps := #v[⟨0x1000, 0xFFFFFF, true, true⟩, ⟨0x2000, 0xFFFFFF, true, true⟩, ⟨0, 0, false, false⟩,
      ⟨0, 0, false, false⟩] }
    cb := cb.foldl (fun m p => Memory.setWord m (p.1 / 8) p.2) [] }

/-- The step that runs the opcode table's word `w` leaves a state that is `good`. -/
def passes (nbits w : Nat) (s : State) (good : State → Bool) : Bool :=
  match step (s.withFetchWord nbits w) with
  | .next t => good t
  | _ => false

/-- Words of memory at bit addresses. -/
def holds (m : List Host.Cell) (l : List (Nat × Word)) : Bool := l.all fun p => Memory.word m (p.1 / 8) == p.2

theorem test_nop : passes 32 0x03000000
    (machine [] [] [])
    (fun t => t.pc == 0x8020 &&
      t.dfr &&& 0xF7707FF == 0x0) = true := by decide +kernel

theorem test_vsb : passes 32 0x05000020
    (machine [(0x20, 0x4400)] [] [])
    (fun t => t.pc == 0x4400) = true := by decide +kernel

theorem test_dtob : passes 32 0x10100011
    (machine [(0x10, 0x1234B)] [] [])
    (fun t => t.reg 0x11 == 0xFFFFFFFFFB2E) = true := by decide +kernel

theorem test_btod : passes 32 0x11100011
    (machine [(0x10, 0xFFFFFFFFFB2E)] [] [])
    (fun t => t.reg 0x11 == 0x1234B) = true := by decide +kernel

theorem test_lodc : passes 32 0x12101112
    (machine [(0x10, 0x10000), (0x11, 0x3)] [] [(0x10000, 0xC700000000)])
    (fun t => t.reg 0x12 == 0xC7) = true := by decide +kernel

/-- R70: a breakpoint on reads at #40C0 matches the fourth of the words that #0D reads, one on writes does not. -/
theorem test_lodar_breakpoint :
    passes 32 0x0D000000 { machine [] [] [(0x40C0, 0x77)] with bkpt := 0x40C2 }
      (fun t => t.dfr == 0x0000000000010000 && t.ar[3] == 0x77) = true ∧
    passes 32 0x0D000000 { machine [] [] [] with bkpt := 0x40C4 } (fun t => t.dfr == 0) = true := by decide +kernel

theorem test_cpsb : passes 32 0x14101112
    (machine [(0x10, 0x2000000010000), (0x11, 0x1000000020000), (0x12, 0x4000000030000)] [] [(0x10000, 0xB800000000000000), (0x20000, 0x0)])
    (fun t => holds t.mem [(0x30000, 0xB000000000000000)]) = true := by decide +kernel

theorem test_mrgb : passes 32 0x15101112
    (machine [(0x10, 0x2000000010000), (0x11, 0x1000000020000), (0x12, 0x6000000030000)] [] [(0x10000, 0xF000000000000000), (0x20000, 0x0)])
    (fun t => holds t.mem [(0x30000, 0xD800000000000000)]) = true := by decide +kernel

theorem test_maskb : passes 32 0x16101112
    (machine [(0x10, 0x2000000010000), (0x11, 0x2000000020000), (0x12, 0x8000000030000)] [] [(0x10000, 0xFF00000000000000), (0x20000, 0x0)])
    (fun t => holds t.mem [(0x30000, 0xCC00000000000000)]) = true := by decide +kernel

theorem test_maskz : passes 32 0x1C101112
    (machine [(0x10, 0x1000000010000), (0x11, 0x3000000020000), (0x12, 0x7000000030000)] [] [(0x10000, 0x0), (0x20000, 0x0)])
    (fun t => holds t.mem [(0x30000, 0x6C00000000000000)]) = true := by decide +kernel

theorem test_ento : passes 32 0x1F101112
    (machine [(0x10, 0x8000000010000), (0x11, 0x0)] [] [(0x10000, 0xEF00000000000000)])
    (fun t => t.reg 0x12 == 0x7) = true := by decide +kernel

theorem test_beq : passes 32 0x24101112
    (machine [(0x10, 0x4), (0x11, 0x1000000000002), (0x12, 0x40000)] [] [])
    (fun t => t.pc == 0x40000) = true := by decide +kernel

theorem test_bheq : passes 32 0x20101112
    (machine [(0x12, 0x40000)] [(0x10, 0x5), (0x11, 0x5)] [])
    (fun t => t.pc == 0x40000) = true := by decide +kernel

theorem test_addlen : passes 32 0x2B101112
    (machine [(0x10, 0x10000000008000), (0x11, 0xFFFF)] [] [])
    (fun t => t.reg 0x12 == 0xF000000008000 &&
      t.pc == 0x8020 &&
      t.dfr &&& 0xF7707FF == 0x0) = true := by decide +kernel

theorem test_rxor : passes 32 0x2C101112
    (machine [(0x10, 0xFF), (0x11, 0xF0F)] [] [])
    (fun t => t.reg 0x12 == 0xFF0 &&
      t.pc == 0x8020 &&
      t.dfr &&& 0xF7707FF == 0x0) = true := by decide +kernel

theorem test_barb : passes 32 0x2FA01112
    (machine [(0x12, 0x1), (0x11, 0x9000)] [] [])
    (fun t => t.reg 0x12 == 0x1 &&
      t.pc == 0x9000) = true := by decide +kernel

theorem test_shifti : passes 32 0x30100411
    (machine [(0x10, 0xF000000000000001)] [] [])
    (fun t => t.reg 0x11 == 0x1F &&
      t.pc == 0x8020 &&
      t.dfr &&& 0xF7707FF == 0x0) = true := by decide +kernel

theorem test_shift : passes 32 0x34101112
    (machine [(0x10, 0x8000000000000000), (0x11, 0xFE)] [] [])
    (fun t => t.reg 0x12 == 0xE000000000000000 &&
      t.pc == 0x8020 &&
      t.dfr &&& 0xF7707FF == 0x0) = true := by decide +kernel

theorem test_ibnz : passes 32 0x31101112
    (machine [(0x10, 0xFFFFFFFFFFFF)] [] [])
    (fun t => t.reg 0x10 == 0x0 &&
      t.pc == 0x8020) = true := by decide +kernel

theorem test_bsave : passes 32 0x36101112
    { (machine [(0x11, 0x2), (0x12, 0x8000)] [] []) with pc := 0x1000 }
    (fun t => t.reg 0x10 == 0x1020 &&
      t.pc == 0x8040) = true := by decide +kernel

theorem test_ltol : passes 32 0x38100011
    (machine [(0x10, 0x1234AAAAAAAAAAAA), (0x11, 0x555555555555)] [] [])
    (fun t => t.reg 0x11 == 0x1234555555555555) = true := by decide +kernel

theorem test_lsdfr : passes 32 0x3B000010
    { (machine [] [] []) with dfr := 0x20000 }
    (fun t => t.reg 0x10 == 0x20000 &&
      t.dfr &&& 0xF7707FF == 0x0) = true := by decide +kernel

theorem test_mpyxh : passes 32 0x3C101112
    (machine [] [(0x10, 0x3), (0x11, 0xFFFFFE)] [])
    (fun t => t.reg32 0x12 == 0xFFFFFA) = true := by decide +kernel

theorem test_mpyx : passes 32 0x3D101112
    (machine [(0x10, 0x6), (0x11, 0x7)] [] [])
    (fun t => t.reg 0x12 == 0x2A &&
      t.pc == 0x8020 &&
      t.dfr &&& 0xF7707FF == 0x0) = true := by decide +kernel

theorem test_es : passes 32 0x3E10FFFE
    (machine [(0x10, 0x0)] [] [])
    (fun t => t.reg 0x10 == 0xFFFFFFFFFFFE &&
      t.pc == 0x8020 &&
      t.dfr &&& 0xF7707FF == 0x0) = true := by decide +kernel

theorem test_badf : passes 32 0x33E02901
    { (machine [(0x1, 0xA000), (0x2, 0x9000)] [] []) with dfr := 0x4000000800 }
    (fun t => t.reg 0x1 == 0xA000 &&
      t.pc == 0x9000 &&
      t.dfr &&& 0xF7707FF == 0x400000) = true := by decide +kernel

theorem test_adduh : passes 32 0x40101112
    (machine [(0x9, 0x1111111122222222)] [(0x10, 0x1), (0x11, 0x2)] [])
    (fun t => t.reg32 0x12 == 0x3 &&
      t.reg32 0x13 == 0x22222222 &&
      t.pc == 0x8020 &&
      t.dfr &&& 0xF7707FF == 0x0) = true := by decide +kernel

theorem test_subnh : passes 32 0x46101112
    (machine [(0x9, 0x1111111122222222)] [(0x10, 0x1), (0x11, 0x2)] [])
    (fun t => t.reg32 0x12 == 0xE9800000 &&
      t.reg32 0x13 == 0x22222222 &&
      t.pc == 0x8020 &&
      t.dfr &&& 0xF7707FF == 0x0) = true := by decide +kernel

theorem test_mpysh : passes 32 0x4B101112
    (machine [(0x9, 0x1111111122222222)] [(0x10, 0x1), (0x11, 0x2)] [])
    (fun t => t.reg32 0x12 == 0x1000001 &&
      t.reg32 0x13 == 0x22222222 &&
      t.pc == 0x8020 &&
      t.dfr &&& 0xF7707FF == 0x0) = true := by decide +kernel

theorem test_divuh : passes 32 0x4C101112
    (machine [(0x9, 0x1111111122222222)] [(0x10, 0x6), (0x11, 0x2)] [])
    (fun t => t.reg32 0x12 == 0xFF000006 &&
      t.reg32 0x13 == 0x22222222 &&
      t.pc == 0x8020 &&
      t.dfr &&& 0xF7707FF == 0x0) = true := by decide +kernel

theorem test_divsh : passes 32 0x4F101112
    (machine [(0x9, 0x1111111122222222)] [(0x10, 0x6), (0x11, 0x2)] [])
    (fun t => t.reg32 0x12 == 0x3 &&
      t.reg32 0x13 == 0x22222222 &&
      t.pc == 0x8020 &&
      t.dfr &&& 0xF7707FF == 0x0) = true := by decide +kernel

theorem test_truh : passes 32 0x50100011
    (machine [] [(0x10, 0xFF000007)] [])
    (fun t => t.reg32 0x11 == 0x3 &&
      t.reg32 0x10 == 0xFF000007 &&
      t.pc == 0x8020 &&
      t.dfr &&& 0xF7707FF == 0x0) = true := by decide +kernel

theorem test_sqrth : passes 32 0x53100011
    (machine [] [(0x10, 0x4)] [])
    (fun t => t.reg32 0x11 == 0xFF000004 &&
      t.reg32 0x10 == 0x4 &&
      t.pc == 0x8020 &&
      t.dfr &&& 0xF7707FF == 0x0) = true := by decide +kernel

theorem test_adjsh : passes 32 0x54101112
    (machine [(0x9, 0x1111111122222222)] [(0x10, 0x1), (0x11, 0x3)] [])
    (fun t => t.reg32 0x12 == 0xFD000008 &&
      t.reg32 0x13 == 0x22222222 &&
      t.pc == 0x8020 &&
      t.dfr &&& 0xF7707FF == 0x0) = true := by decide +kernel

theorem test_adjeh : passes 32 0x55101112
    (machine [(0x9, 0x1111111122222222)] [(0x10, 0x2000001), (0x11, 0x0)] [])
    (fun t => t.reg32 0x12 == 0x4 &&
      t.reg32 0x13 == 0x22222222 &&
      t.pc == 0x8020 &&
      t.dfr &&& 0xF7707FF == 0x0) = true := by decide +kernel

theorem test_absh : passes 32 0x59100011
    (machine [] [(0x10, 0xFFFFFE)] [])
    (fun t => t.reg32 0x11 == 0x2 &&
      t.reg32 0x10 == 0xFFFFFE &&
      t.pc == 0x8020 &&
      t.dfr &&& 0xF7707FF == 0x0) = true := by decide +kernel

theorem test_exph : passes 32 0x5A100011
    (machine [] [(0x10, 0xFE000003)] [])
    (fun t => t.reg32 0x11 == 0xFFFFFE &&
      t.reg32 0x10 == 0xFE000003 &&
      t.pc == 0x8020 &&
      t.dfr &&& 0xF7707FF == 0x0) = true := by decide +kernel

theorem test_packh : passes 32 0x5B101112
    (machine [(0x9, 0x1111111122222222)] [(0x10, 0xFFFFFE), (0x11, 0x3)] [])
    (fun t => t.reg32 0x12 == 0xFE000003 &&
      t.reg32 0x13 == 0x22222222 &&
      t.pc == 0x8020 &&
      t.dfr &&& 0xF7707FF == 0x0) = true := by decide +kernel

theorem test_exth : passes 32 0x5C100020
    (machine [] [(0x10, 0x3)] [])
    (fun t => t.reg 0x20 == 0xFFE8000003000000) = true := by decide +kernel

theorem test_extxh : passes 32 0x5D100020
    (machine [] [(0x10, 0xFFFFFE)] [])
    (fun t => t.reg 0x20 == 0xFFFFFFFFFFFE) = true := by decide +kernel

theorem test_lodh : passes 32 0x5E101120
    (machine [(0x10, 0x10000), (0x11, 0x2)] [] [(0x10040, 0xABCDEF0100000000)])
    (fun t => t.reg32 0x20 == 0xABCDEF01) = true := by decide +kernel

theorem test_addu : passes 32 0x60101112
    (machine [(0x10, 0x1), (0x11, 0x2)] [] [])
    (fun t => t.reg 0x12 == 0x3 &&
      t.pc == 0x8020 &&
      t.dfr &&& 0xF7707FF == 0x0) = true := by decide +kernel

theorem test_addn : passes 32 0x62101112
    (machine [(0x10, 0x1), (0x11, 0x2)] [] [])
    (fun t => t.reg 0x12 == 0xFFD3600000000000 &&
      t.pc == 0x8020 &&
      t.dfr &&& 0xF7707FF == 0x0) = true := by decide +kernel

theorem test_subu : passes 32 0x64101112
    (machine [(0x10, 0x1), (0x11, 0x2)] [] [])
    (fun t => t.reg 0x12 == 0xFFFFFFFFFFFF &&
      t.pc == 0x8020 &&
      t.dfr &&& 0xF7707FF == 0x0) = true := by decide +kernel

theorem test_subn : passes 32 0x66101112
    (machine [(0x10, 0x1), (0x11, 0x2)] [] [])
    (fun t => t.reg 0x12 == 0xFFD1800000000000 &&
      t.pc == 0x8020 &&
      t.dfr &&& 0xF7707FF == 0x0) = true := by decide +kernel

theorem test_mpys : passes 32 0x6B101112
    (machine [(0x10, 0x1), (0x11, 0x2)] [] [])
    (fun t => t.reg 0x12 == 0x1000000000001 &&
      t.pc == 0x8020 &&
      t.dfr &&& 0xF7707FF == 0x0) = true := by decide +kernel

theorem test_addx : passes 32 0x63101112
    (machine [(0x10, 0x5000000001000), (0x11, 0xFFFF000000000040)] [] [])
    (fun t => t.reg 0x12 == 0x5000000001040 &&
      t.pc == 0x8020 &&
      t.dfr &&& 0xF7707FF == 0x0) = true := by decide +kernel

theorem test_subx : passes 32 0x67101112
    (machine [(0x10, 0x5000000001000), (0x11, 0x40)] [] [])
    (fun t => t.reg 0x12 == 0x5000000000FC0 &&
      t.pc == 0x8020 &&
      t.dfr &&& 0xF7707FF == 0x0) = true := by decide +kernel

theorem test_divu : passes 32 0x6C101112
    (machine [(0x10, 0x6), (0x11, 0x2)] [] [])
    (fun t => t.reg 0x12 == 0xFFFF000000000006 &&
      t.pc == 0x8020 &&
      t.dfr &&& 0xF7707FF == 0x0) = true := by decide +kernel

theorem test_divs : passes 32 0x6F101112
    (machine [(0x10, 0x6), (0x11, 0x2)] [] [])
    (fun t => t.reg 0x12 == 0x3 &&
      t.pc == 0x8020 &&
      t.dfr &&& 0xF7707FF == 0x0) = true := by decide +kernel

theorem test_insb : passes 32 0x6D101112
    (machine [(0x10, 0xAB), (0x11, 0x8000000000010), (0x12, 0xFFFFFFFFFFFFFFFF)] [] [])
    (fun t => t.reg 0x12 == 0xFFFFABFFFFFFFFFF) = true := by decide +kernel

theorem test_extb : passes 32 0x6E101112
    (machine [(0x10, 0x123456789ABCDEF0), (0x11, 0x8000000000010)] [] [])
    (fun t => t.reg 0x12 == 0x56 &&
      t.pc == 0x8020 &&
      t.dfr &&& 0xF7707FF == 0x0) = true := by decide +kernel

theorem test_tru : passes 32 0x70100011
    (machine [(0x10, 0xFFFF000000000007)] [] [])
    (fun t => t.reg 0x11 == 0x3 &&
      t.pc == 0x8020 &&
      t.dfr &&& 0xF7707FF == 0x0) = true := by decide +kernel

theorem test_sqrt : passes 32 0x73100011
    (machine [(0x10, 0x4)] [] [])
    (fun t => t.reg 0x11 == 0xFFFF000000000004 &&
      t.pc == 0x8020 &&
      t.dfr &&& 0xF7707FF == 0x0) = true := by decide +kernel

theorem test_adjs : passes 32 0x74101112
    (machine [(0x10, 0x1), (0x11, 0x3)] [] [])
    (fun t => t.reg 0x12 == 0xFFFD000000000008 &&
      t.pc == 0x8020 &&
      t.dfr &&& 0xF7707FF == 0x0) = true := by decide +kernel

theorem test_adje : passes 32 0x75101112
    (machine [(0x10, 0x2000000000001), (0x11, 0x0)] [] [])
    (fun t => t.reg 0x12 == 0x4 &&
      t.pc == 0x8020 &&
      t.dfr &&& 0xF7707FF == 0x0) = true := by decide +kernel

theorem test_con : passes 32 0x76100021
    (machine [(0x10, 0xFFE8000003000000)] [] [])
    (fun t => t.reg32 0x21 == 0x3) = true := by decide +kernel

theorem test_rcon : passes 32 0x77110021
    (machine [(0x11, 0xFFE8000003800000)] [] [])
    (fun t => t.reg32 0x21 == 0x4) = true := by decide +kernel

theorem test_abs : passes 32 0x79100011
    (machine [(0x10, 0x800000000000)] [] [])
    (fun t => t.reg 0x11 == 0x1400000000000 &&
      t.pc == 0x8020 &&
      t.dfr &&& 0xF7707FF == 0x0) = true := by decide +kernel

theorem test_exp : passes 32 0x7A100011
    (machine [(0x10, 0xFFFE000000000003)] [] [])
    (fun t => t.reg 0x11 == 0xFFFFFFFFFFFE &&
      t.pc == 0x8020 &&
      t.dfr &&& 0xF7707FF == 0x0) = true := by decide +kernel

theorem test_pack : passes 32 0x7B101112
    (machine [(0x10, 0xFFFFFFFFFFFE), (0x11, 0x3)] [] [])
    (fun t => t.reg 0x12 == 0xFFFE000000000003 &&
      t.pc == 0x8020 &&
      t.dfr &&& 0xF7707FF == 0x0) = true := by decide +kernel

theorem test_ltor : passes 32 0x7C100011
    (machine [(0x10, 0xFFC0000000010000)] [] [])
    (fun t => t.reg 0x11 == 0xFFC0 &&
      t.pc == 0x8020 &&
      t.dfr &&& 0xF7707FF == 0x0) = true := by decide +kernel

theorem test_rgap : passes 32 0x7D101112
    (machine [(0x10, 0x4000000002000), (0x11, 0x20), (0x12, 0x4000000002000), (0x20, 0x1), (0x21, 0x2), (0x22, 0x3), (0x23, 0x4)] [] [])
    (fun t => t.reg 0x20 == 0x1 &&
      t.reg 0x21 == 0x2 &&
      t.reg 0x22 == 0x3 &&
      t.reg 0x23 == 0x4 &&
      holds t.mem [(0x2000, 0x1), (0x2040, 0x2), (0x2080, 0x3), (0x20C0, 0x4)]) = true := by decide +kernel

theorem test_lod : passes 32 0x7E101120
    (machine [(0x10, 0x10000), (0x11, 0x2)] [] [(0x10080, 0x1234)])
    (fun t => t.reg 0x20 == 0x1234) = true := by decide +kernel

theorem test_adduv : passes 64 0x8000001000110012
    (machine [(0x10, 0x3000000010000), (0x11, 0x2000000020000), (0x12, 0x3000000030000)] [] [(0x10000, 0x1), (0x10040, 0x2), (0x10080, 0x3), (0x20000, 0xA), (0x20040, 0x14), (0x30000, 0x99), (0x30040, 0x98), (0x30080, 0x97)])
    (fun t => holds t.mem [(0x30000, 0xB), (0x30040, 0x16), (0x30080, 0x3)] &&
      t.pc == 0x8040 &&
      t.dfr &&& 0xF7707FF == 0x0) = true := by decide +kernel

theorem test_addnv : passes 64 0x8200001000110012
    (machine [(0x10, 0x3000000010000), (0x11, 0x2000000020000), (0x12, 0x3000000030000)] [] [(0x10000, 0x1), (0x10040, 0x2), (0x10080, 0x3), (0x20000, 0xA), (0x20040, 0x14), (0x30000, 0x99), (0x30040, 0x98), (0x30080, 0x97)])
    (fun t => holds t.mem [(0x30000, 0xFFD5580000000000)] &&
      t.pc == 0x8040) = true := by decide +kernel

theorem test_mpyuv : passes 64 0x8800001000110012
    (machine [(0x10, 0x3000000010000), (0x11, 0x2000000020000), (0x12, 0x3000000030000)] [] [(0x10000, 0x1), (0x10040, 0x2), (0x10080, 0x3), (0x20000, 0xA), (0x20040, 0x14)])
    (fun t => holds t.mem [(0x30000, 0x2F000000000000), (0x30080, 0x1000000000001)]) = true := by decide +kernel

theorem test_shiftv : passes 64 0x8A08001000110012
    (machine [(0x10, 0x3000000010000), (0x11, 0x4), (0x12, 0x3000000030000)] [] [(0x10000, 0x1), (0x10040, 0x2), (0x10080, 0x3), (0x20000, 0xA), (0x20040, 0x14), (0x30000, 0x99), (0x30040, 0x98), (0x30080, 0x97)])
    (fun t => holds t.mem [(0x30000, 0x10), (0x30040, 0x20), (0x30080, 0x30)] &&
      t.pc == 0x8040) = true := by decide +kernel

theorem test_vtov : passes 64 0x9800001000000012
    (machine [(0x10, 0x3000000010000), (0x11, 0x2000000020000), (0x12, 0x3000000030000)] [] [(0x10000, 0x1), (0x10040, 0x2), (0x10080, 0x3), (0x20000, 0xA), (0x20040, 0x14), (0x30000, 0x99), (0x30040, 0x98), (0x30080, 0x97)])
    (fun t => holds t.mem [(0x30000, 0x1), (0x30040, 0x2), (0x30080, 0x3)] &&
      t.pc == 0x8040) = true := by decide +kernel

theorem test_extv : passes 64 0x9C00001000000012
    (machine [(0x10, 0x3000000010000), (0x11, 0x2000000020000), (0x12, 0x3000000030000)] [] [(0x10000, 0x300000000)])
    (fun t => holds t.mem [(0x30000, 0xFFE8000003000000)]) = true := by decide +kernel

theorem test_addus : passes 64 0xA000201021112212
    (machine [(0x20, 0x3000000020000), (0x10, 0x10000), (0x21, 0x3000000020040), (0x11, 0x11000), (0x22, 0x3000000020080), (0x12, 0x12000)] [] [(0x10000, 0x1), (0x10040, 0x2), (0x11000, 0xA), (0x11040, 0x14), (0x20000, 0xA000000000000000), (0x20040, 0x6000000000000000)])
    (fun t => t.reg 0x12 == 0x3000000012000 &&
      holds t.mem [(0x12000, 0x1), (0x12040, 0xA), (0x12080, 0x16), (0x20080, 0xE000000000000000)] &&
      t.pc == 0x8040) = true := by decide +kernel

theorem test_mpyus : passes 64 0xA800201021112212
    (machine [(0x20, 0x3000000020000), (0x10, 0x10000), (0x21, 0x3000000020040), (0x11, 0x11000), (0x22, 0x3000000020080), (0x12, 0x12000)] [] [(0x10000, 0x1), (0x10040, 0x2), (0x11000, 0xA), (0x11040, 0x14), (0x20000, 0xA000000000000000), (0x20040, 0x6000000000000000)])
    (fun t => t.reg 0x12 == 0x1000000012000 &&
      holds t.mem [(0x12000, 0x2F000000000000), (0x20080, 0x2000000000000000)] &&
      t.pc == 0x8040) = true := by decide +kernel

theorem test_divus : passes 64 0xAC00201021112212
    (machine [(0x20, 0x3000000020000), (0x10, 0x10000), (0x21, 0x3000000020040), (0x11, 0x11000), (0x22, 0x3000000020080), (0x12, 0x12000)] [] [(0x10000, 0x1), (0x10040, 0x2), (0x11000, 0xA), (0x11040, 0x14), (0x20000, 0xA000000000000000), (0x20040, 0x6000000000000000)])
    (fun t => t.reg 0x12 == 0x1000000012000 &&
      holds t.mem [(0x12000, 0xFFFC000000000001), (0x20080, 0x2000000000000000)] &&
      t.pc == 0x8040) = true := by decide +kernel

theorem test_ibxeqBr : passes 64 0xB000111013121415
    (machine [(0x10, 0x7000000000005), (0x11, 0x3), (0x12, 0x40000), (0x13, 0x2), (0x14, 0x8)] [] [])
    (fun t => t.reg 0x15 == 0x7000000000008 &&
      t.pc == 0x40040) = true := by decide +kernel

theorem test_ibxneBr : passes 64 0xB100111013121415
    (machine [(0x10, 0x7000000000005), (0x11, 0x3), (0x12, 0x40000), (0x13, 0x2), (0x14, 0x8)] [] [])
    (fun t => t.pc == 0x8040) = true := by decide +kernel

theorem test_ibxgeBr : passes 64 0xB200111013121415
    (machine [(0x10, 0x7000000000005), (0x11, 0x3), (0x12, 0x40000), (0x13, 0x2), (0x14, 0xFFFFFFFFFFFF)] [] [])
    (fun t => t.pc == 0x40040) = true := by decide +kernel

theorem test_ibxgtBr : passes 64 0xB500111013121415
    (machine [(0x10, 0x7000000000005), (0x11, 0x3), (0x12, 0x40000), (0x13, 0x2), (0x14, 0x8)] [] [])
    (fun t => t.pc == 0x8040) = true := by decide +kernel

theorem test_bim : passes 64 0xB610000000040000
    (machine [(0x10, 0x3), (0x11, 0x3), (0x12, 0x40000), (0x13, 0x2), (0x14, 0x8)] [] [])
    (fun t => t.pc == 0x40060) = true := by decide +kernel

theorem test_ex : passes 64 0xBE10123456789ABC
    (machine [(0x10, 0x7000000000005), (0x11, 0x3), (0x12, 0x40000), (0x13, 0x2), (0x14, 0x8)] [] [])
    (fun t => t.reg 0x10 == 0x123456789ABC &&
      t.pc == 0x8040) = true := by decide +kernel

theorem test_vtovx : passes 64 0xB700001000110012
    (machine [(0x10, 0x2000000010000), (0x11, 0x2000000020000), (0x12, 0x30000)] [] [(0x10000, 0x3), (0x10040, 0x0), (0x20000, 0xAA), (0x20040, 0xBB)])
    (fun t => holds t.mem [(0x300C0, 0xAA), (0x30000, 0xBB)]) = true := by decide +kernel

/-- With a constant (G = #08) the offset register, here #13, is not used. -/
theorem test_vtovx_constant : passes 64 0xB708001013110012
    (machine [(0x10, 0x2000000010000), (0x11, 0xAB), (0x12, 0x30000), (0x13, 0xFFFFFFFFFFFF)] [] [(0x10000, 0x3), (0x10040, 0x0)])
    (fun t => holds t.mem [(0x300C0, 0xAB), (0x30000, 0xAB)]) = true := by decide +kernel

theorem test_vxtov : passes 64 0xBA00001000110012
    (machine [(0x10, 0x2000000010000), (0x11, 0x2000000020000), (0x12, 0x30000)] [] [(0x10000, 0x3), (0x10040, 0x0), (0x20000, 0xAA), (0x20040, 0xBB), (0x20080, 0xCC), (0x200C0, 0xDD)])
    (fun t => holds t.mem [(0x30000, 0xDD), (0x30040, 0xAA)]) = true := by decide +kernel

theorem test_vrevv : passes 64 0xB800001000000012
    (machine [(0x10, 0x3000000010000), (0x11, 0x2000000020000), (0x12, 0x4000000030000)] [] [(0x10000, 0x1), (0x10040, 0x2), (0x10080, 0x3), (0x20000, 0xA), (0x20040, 0x14), (0x30000, 0x99), (0x30040, 0x98), (0x30080, 0x97)])
    (fun t => holds t.mem [(0x30000, 0x3), (0x30040, 0x2), (0x30080, 0x1), (0x300C0, 0x8000000000000000)] &&
      t.pc == 0x8040) = true := by decide +kernel

theorem test_maskv : passes 64 0xBB00001000110E12
    (machine [(0x10, 0x3000000010000), (0x11, 0x3000000050000), (0x12, 0x3000000030000), (0xE, 0x3000000020000)] [] [(0x10000, 0x1), (0x10040, 0x2), (0x10080, 0x3), (0x50000, 0xA), (0x50040, 0x14), (0x50080, 0x1E), (0x20000, 0xA000000000000000)])
    (fun t => t.reg 0x12 == 0x3000000030000 &&
      holds t.mem [(0x30000, 0x1), (0x30040, 0x14), (0x30080, 0x3)]) = true := by decide +kernel

theorem test_cpsv : passes 64 0xBC00001000000E12
    (machine [(0x10, 0x3000000010000), (0x11, 0x3000000050000), (0x12, 0x3000000030000), (0xE, 0x3000000020000)] [] [(0x10000, 0x1), (0x10040, 0x2), (0x10080, 0x3), (0x50000, 0xA), (0x50040, 0x14), (0x50080, 0x1E), (0x20000, 0xA000000000000000)])
    (fun t => t.reg 0x12 == 0x2000000030000 &&
      holds t.mem [(0x30000, 0x1), (0x30040, 0x3)]) = true := by decide +kernel

theorem test_mrgv : passes 64 0xBD00001000110E12
    (machine [(0x10, 0x3000000010000), (0x11, 0x3000000050000), (0x12, 0x3000000030000), (0xE, 0x3000000020000)] [] [(0x10000, 0x1), (0x10040, 0x2), (0x10080, 0x3), (0x50000, 0xA), (0x50040, 0x14), (0x50080, 0x1E), (0x20000, 0xA000000000000000)])
    (fun t => t.reg 0x12 == 0x3000000030000 &&
      holds t.mem [(0x30000, 0x1), (0x30040, 0xA), (0x30080, 0x2)]) = true := by decide +kernel

theorem test_seleq : passes 64 0xC000001000110012
    (machine [(0x10, 0x3000000010000), (0x11, 0x3000000020000), (0x12, 0x3000000030000), (0xE, 0x3000000040000)] [] [(0x10000, 0x1), (0x10040, 0x2), (0x10080, 0x3), (0x20000, 0x5), (0x20040, 0x2), (0x20080, 0x7)])
    (fun t => t.reg 0x12 == 0x1 &&
      t.pc == 0x8040 &&
      t.dfr &&& 0xF7707FF == 0x0) = true := by decide +kernel

theorem test_sellt : passes 64 0xC300001000110012
    (machine [(0x10, 0x3000000010000), (0x11, 0x3000000020000), (0x12, 0x3000000030000), (0xE, 0x3000000040000)] [] [(0x10000, 0x1), (0x10040, 0x2), (0x10080, 0x3), (0x20000, 0x5), (0x20040, 0x2), (0x20080, 0x7)])
    (fun t => t.reg 0x12 == 0x0 &&
      t.pc == 0x8040) = true := by decide +kernel

theorem test_cmpeq : passes 64 0xC400001000110E00
    (machine [(0x10, 0x3000000010000), (0x11, 0x3000000020000), (0x12, 0x3000000030000), (0xE, 0x3000000040000)] [] [(0x10000, 0x1), (0x10040, 0x2), (0x10080, 0x3), (0x20000, 0x5), (0x20040, 0x2), (0x20080, 0x7)])
    (fun t => holds t.mem [(0x40000, 0x4000000000000000)] &&
      t.pc == 0x8040) = true := by decide +kernel

theorem test_cmpge : passes 64 0xC600001000110E00
    (machine [(0x10, 0x3000000010000), (0x11, 0x3000000020000), (0x12, 0x3000000030000), (0xE, 0x3000000040000)] [] [(0x10000, 0x1), (0x10040, 0x2), (0x10080, 0x3), (0x20000, 0x5), (0x20040, 0x2), (0x20080, 0x7)])
    (fun t => holds t.mem [(0x40000, 0x4000000000000000)] &&
      t.pc == 0x8040) = true := by decide +kernel

theorem test_srcheq : passes 64 0xC800001000110012
    (machine [(0x10, 0x3000000010000), (0x11, 0x3000000020000), (0x12, 0x3000000030000), (0xE, 0x3000000040000)] [] [(0x10000, 0x1), (0x10040, 0x2), (0x10080, 0x3), (0x20000, 0x5), (0x20040, 0x2), (0x20080, 0x7)])
    (fun t => holds t.mem [(0x30000, 0x3), (0x30040, 0x1), (0x30080, 0x3)] &&
      t.pc == 0x8040) = true := by decide +kernel

theorem test_srchge : passes 64 0xCA00001000110012
    (machine [(0x10, 0x3000000010000), (0x11, 0x3000000020000), (0x12, 0x3000000030000), (0xE, 0x3000000040000)] [] [(0x10000, 0x1), (0x10040, 0x2), (0x10080, 0x3), (0x20000, 0x5), (0x20040, 0x2), (0x20080, 0x7)])
    (fun t => holds t.mem [(0x30000, 0x3), (0x30040, 0x1), (0x30080, 0x1)] &&
      t.pc == 0x8040) = true := by decide +kernel

theorem test_mcmpw : passes 64 0xCC00131000110012
    (machine [(0x10, 0x3000000010000), (0x11, 0x2), (0x12, 0xFFFFFFFFFFFFFFFF), (0xE, 0x3000000040000), (0x13, 0x0)] [] [(0x10000, 0x1), (0x10040, 0x2), (0x10080, 0x3), (0x20000, 0x5), (0x20040, 0x2), (0x20080, 0x7)])
    (fun t => t.reg 0x13 == 0x1 &&
      t.pc == 0x8040 &&
      t.dfr &&& 0xF7707FF == 0x0) = true := by decide +kernel

theorem test_exh : passes 64 0xCD10000000ABCDEF
    (machine [] [] [])
    (fun t => t.reg32 0x10 == 0xABCDEF &&
      t.pc == 0x8040) = true := by decide +kernel

theorem test_ixh : passes 64 0xCE10000000FFFFFF
    (machine [] [(0x10, 0x7000005)] [])
    (fun t => t.reg32 0x10 == 0x7000004) = true := by decide +kernel

theorem test_acps : passes 64 0xCF00001000110E12
    (machine [(0x10, 0x3000000010000), (0x11, 0x3000000020000), (0x12, 0x3000000030000), (0xE, 0x40000)] [] [(0x10000, 0x1), (0x10040, 0x2), (0x10080, 0x3), (0x20000, 0x5), (0x20040, 0x2), (0x20080, 0x7)])
    (fun t => t.reg 0xE == 0x3000000040000 &&
      t.reg 0x12 == 0x1000000030000 &&
      holds t.mem [(0x30000, 0x2), (0x40000, 0x4000000000000000)] &&
      t.pc == 0x8040) = true := by decide +kernel

theorem test_avg : passes 64 0xD000001000110012
    (machine [(0x10, 0x3000000010000), (0x11, 0x3000000020000), (0x12, 0x3000000030000), (0xE, 0x3000000040000)] [] [(0x10000, 0x1), (0x10040, 0x2), (0x10080, 0x3), (0x20000, 0x5), (0x20040, 0x2), (0x20080, 0x7)])
    (fun t => holds t.mem [(0x30000, 0xFFD3600000000000), (0x30040, 0xFFD3400000000000), (0x30080, 0xFFD4500000000000)] &&
      t.pc == 0x8040) = true := by decide +kernel

theorem test_adjmean : passes 64 0xD100001000000012
    (machine [(0x10, 0x3000000010000), (0x11, 0x3000000020000), (0x12, 0x2000000030000), (0xE, 0x3000000040000)] [] [(0x10000, 0x1), (0x10040, 0x2), (0x10080, 0x3), (0x20000, 0x5), (0x20040, 0x2), (0x20080, 0x7)])
    (fun t => holds t.mem [(0x30000, 0xFFD2600000000000), (0x30040, 0xFFD3500000000000)] &&
      t.pc == 0x8040) = true := by decide +kernel

theorem test_delta : passes 64 0xD500001000000012
    (machine [(0x10, 0x3000000010000), (0x11, 0x3000000020000), (0x12, 0x2000000030000), (0xE, 0x3000000040000)] [] [(0x10000, 0x1), (0x10040, 0x2), (0x10080, 0x3), (0x20000, 0x5), (0x20040, 0x2), (0x20080, 0x7)])
    (fun t => holds t.mem [(0x30000, 0xFFD2400000000000), (0x30040, 0xFFD2400000000000)] &&
      t.pc == 0x8040) = true := by decide +kernel

theorem test_sum : passes 64 0xDA00001000000012
    (machine [(0x10, 0x3000000010000), (0x11, 0x3000000020000), (0x12, 0x3000000030000), (0xE, 0x3000000040000)] [] [(0x10000, 0x1), (0x10040, 0x2), (0x10080, 0x3), (0x20000, 0x5), (0x20040, 0x2), (0x20080, 0x7)])
    (fun t => t.reg 0x12 == 0x6 &&
      t.reg 0x13 == 0xFFD1000000000000 &&
      t.pc == 0x8040 &&
      t.dfr &&& 0xF7707FF == 0x0) = true := by decide +kernel

theorem test_product : passes 64 0xDB00001000000012
    (machine [(0x10, 0x2000000010000), (0x11, 0x3000000020000), (0x12, 0x3000000030000), (0xE, 0x3000000040000)] [] [(0x10000, 0x2), (0x10040, 0x3), (0x10080, 0x3), (0x20000, 0x5), (0x20040, 0x2), (0x20080, 0x7)])
    (fun t => t.reg 0x12 == 0x1000000000003 &&
      t.pc == 0x8040) = true := by decide +kernel

theorem test_dotv : passes 64 0xDC00001000110012
    (machine [(0x10, 0x3000000010000), (0x11, 0x3000000020000), (0x12, 0x3000000030000), (0xE, 0x3000000040000)] [] [(0x10000, 0x1), (0x10040, 0x2), (0x10080, 0x3), (0x20000, 0x5), (0x20040, 0x2), (0x20080, 0x7)])
    (fun t => t.reg 0x12 == 0x2F000000000000 &&
      t.reg 0x13 == 0x1E &&
      t.pc == 0x8040) = true := by decide +kernel

theorem test_interval : passes 64 0xDF00001400150012
    (machine [(0x10, 0x3000000010000), (0x11, 0x3000000020000), (0x12, 0x3000000030000), (0xE, 0x3000000040000), (0x14, 0x1), (0x15, 0x2)] [] [(0x10000, 0x1), (0x10040, 0x2), (0x10080, 0x3), (0x20000, 0x5), (0x20040, 0x2), (0x20080, 0x7)])
    (fun t => holds t.mem [(0x30000, 0x1), (0x30040, 0x3), (0x30080, 0x5)] &&
      t.pc == 0x8040) = true := by decide +kernel

theorem test_xor : passes 64 0xF000001000110012
    (machine [(0x10, 0x8000000010000), (0x11, 0x4000000020000), (0x12, 0x8000000030000)] [] [(0x10000, 0xCA00000000000000), (0x20000, 0xA000000000000000)])
    (fun t => holds t.mem [(0x30000, 0x6A00000000000000)] &&
      t.pc == 0x8040 &&
      t.dfr &&& 0xF7707FF == 0x200) = true := by decide +kernel

theorem test_ior : passes 64 0xF200001000110012
    (machine [(0x10, 0x8000000010000), (0x11, 0x4000000020000), (0x12, 0x8000000030000)] [] [(0x10000, 0xCA00000000000000), (0x20000, 0xA000000000000000)])
    (fun t => holds t.mem [(0x30000, 0xEA00000000000000)] &&
      t.pc == 0x8040 &&
      t.dfr &&& 0xF7707FF == 0x200) = true := by decide +kernel

theorem test_andn : passes 64 0xF600001000110012
    (machine [(0x10, 0x8000000010000), (0x11, 0x4000000020000), (0x12, 0x8000000030000)] [] [(0x10000, 0xCA00000000000000), (0x20000, 0xA000000000000000)])
    (fun t => holds t.mem [(0x30000, 0x4A00000000000000)] &&
      t.pc == 0x8040 &&
      t.dfr &&& 0xF7707FF == 0x200) = true := by decide +kernel

theorem test_movl : passes 64 0xF800001000200012
    (machine [(0x10, 0x3000000010000), (0x12, 0x5000000030000)] [] [(0x10000, 0x4142430000000000)])
    (fun t => holds t.mem [(0x30000, 0x4142432020000000)]) = true := by decide +kernel

theorem test_post : passes 64 0xFA00200000210022
    (bufferMachine [(0x20, 0x400), (0x21, 0x50000), (0x23, 0x40)] [] [(0x1400, 0x200000000)])
    (fun t => t.reg 0x22 == 0x2 &&
      holds t.cb [(0x1400, 0x300000000)] &&
      t.pc == 0x8040) = true := by decide +kernel

theorem test_bbswap : passes 64 0xFC00202400210022
    (bufferMachine [(0x20, 0x800), (0x21, 0x50000), (0x23, 0x40), (0x24, 0x8000000000000001)] [] [(0x1800, 0x0)])
    (fun t => t.reg 0x22 == 0x0 &&
      holds t.cb [(0x1800, 0x8000000000000001)] &&
      t.pc == 0x8040) = true := by decide +kernel

theorem test_bbldst : passes 64 0xFD00202400210022
    (bufferMachine [(0x20, 0x800), (0x21, 0x50000), (0x23, 0x40), (0x24, 0x8000000000000001)] [] [(0x1840, 0xABCD)])
    (fun t => t.reg 0x22 == 0xABCD &&
      holds t.cb [(0x1800, 0x8000000000000001)] &&
      t.pc == 0x8040) = true := by decide +kernel

theorem test_cbld : passes 64 0xFE00200000000022
    (bufferMachine [(0x20, 0x800), (0x21, 0x50000), (0x23, 0x40), (0x24, 0x8000000000000001)] [] [(0x1800, 0x8000000000000001)])
    (fun t => t.reg 0x22 == 0x8000000000000001 &&
      t.pc == 0x8040) = true := by decide +kernel

theorem test_cbsto : passes 64 0xFF80200000000022
    (bufferMachine [(0x20, 0x820)] [(0x22, 0x12345678)] [])
    (fun t => holds t.cb [(0x1800, 0x12345678)]) = true := by decide +kernel

theorem test_wait : passes 64 0xFB00202000210022
    (bufferMachine [(0x20, 0x400), (0x21, 0x50000)] [] [(0x1400, 0x200000000)])
    (fun t => t.reg 0x22 == 0x2 && holds t.cb [(0x1400, 0x100000000)] && t.pc == 0x8040) = true := by decide +kernel

/-! ### Witnesses: for every statement with hypotheses a state and operands that meet them, clause by clause -/

/-- A machine in Job mode whose packages stand at absolute addresses #40000 and #60000. -/
def jobMachine (regs : List (Byte × Word)) : State :=
  { machine regs [] [] with
    mode := .job, jobRF := 0x60000, invPkg := 0x40000, arValid := true, bkpt := 0x12345 }

/-- A domain with these Illegal Instruction Mask bits, places of the domain stack, and changes. -/
def inDomain (s : State) (iim : Half) (index limit : BitVec 13) (mask : BitVec 128) : State :=
  { s with dom := { s.dom with iim := iim, stackIndex := index, stackLimit := limit, changeMask := mask } }

theorem witness_DecodeOfEncode :
    (Instr.adduv 0xFF 0x10 0x11 0x12 0x13 0x14 0x16).wf = true ∧ (Instr.lod 0 0xFF 0x80).wf = true := by decide

theorem witness_EncodeOfDecode :
    decode [0x3E, 0x10, 0x80, 0x01, 0x00] = .ok ⟨.es 0x10 0x8001, true⟩ ∧
    decode [0x80, 0x20, 1, 2, 3, 4, 5, 6] = .ok ⟨.adduv 0x20 1 2 3 4 5 6, true⟩ := ⟨rfl, rfl⟩

theorem witness_UnusedCodesRefused :
    7 ≤ (List.replicate 7 (0 : Byte)).length ∧ (0x01#8).toNat ∈ unusedCodes ∧ (0xF9#8).toNat ∈ unusedCodes ∧
    (0x00#8).toNat ∉ unusedCodes ∧ (0xFF#8).toNat ∉ unusedCodes := by decide

theorem witness_StepRunsDecoded : ∃ (s t : State) (bytes : List Byte), s.stopped = false ∧
    fetchBytes s.pc s = .ok (bytes, t) ∧ decode bytes = .ok ⟨.es 0x10 5, true⟩ ∧
    t.isTypeTwo (bytes.headD 0).toNat = false :=
  ⟨{ machine [] [] [] with mem := setBytes [] 0x1000 [0x3E, 0x10, 0, 5] }, _, _, rfl, rfl, rfl, rfl⟩

theorem witness_MonitorStepRunsMemory :
    let s := { machine [] [] [] with mem := setBytes [] 0x1000 (encode (.ex 0x10 0x10000)) }
    s.mode = .monitor ∧ s.stopped = false ∧ s.stale = [] ∧ (Instr.ex 0x10 0x10000).wf = true ∧
    s.instructionBytes s.pc = encode (.ex 0x10 0x10000) := by decide +kernel

theorem witness_MonitorTypeOneStops :
    let s := { machine [] [] [] with mem := setBytes [] 0x1000 [0x01, 0, 0, 7] }
    let u := { s with waits := .masterClear }
    (s.mode = .monitor ∧ s.stopped = false ∧ s.stale = [] ∧ s.env = [] ∧ s.instructionBytes s.pc = [0x01, 0, 0, 7] ∧
      (0x01#8).toNat ∈ unusedCodes) ∧
    (u.waits = .masterClear ∧ u.env = []) ∧
    ∃ e : Input, { u with env := [e] }.env = [e] ∧ { u with env := [e] }.stopped = true ∧ e.masterClear = true := by
  refine ⟨by decide +kernel, ⟨rfl, rfl⟩, { masterClear := true }, rfl, rfl, rfl⟩

theorem witness_StepKeepsInv : ∃ s t : State, s.Inv ∧ step s = .next t :=
  ⟨machine [(0x10, 5)] [] [(0x8000, 0x3E10000500000000)], _, ⟨rfl, rfl, rfl, rfl, rfl, fun _ => rfl⟩, rfl⟩

theorem witness_JobToMonitorExchange :
    let s := jobMachine [(3, 0x9000), (7, 0x77)]
    let u := { s with jobRF := 0 }
    (Memory.wf s.mem = true ∧ s.params.ok = true ∧ s.invPkg.toNat % 64 = 0 ∧ s.jobRF.toNat % 64 = 0 ∧
      s.packagesOverlap s.jobRF s.invPkg = false ∧ s.jobRF ≠ 0) ∧
    ((∀ p ∈ s.invisibleWords 0, ¬ (s.wrap (s.invPkg.toNat + 64 * p.1) / 8 ≤ 0x7FF ∧
        0x7FF < s.wrap (s.invPkg.toNat + 64 * p.1) / 8 + 8)) ∧
      ∀ n : Byte, ¬ (s.wrap (s.jobRF.toNat + 64 * n.toNat) / 8 ≤ 0x7FF ∧
        0x7FF < s.wrap (s.jobRF.toNat + 64 * n.toNat) / 8 + 8)) ∧
    (u.packagesOverlap u.jobRF u.invPkg = false ∧ u.jobRF = 0) := by decide +kernel

theorem none_below (n : Nat) : anyBelow (fun _ => false) n = false := by
  induction n with
  | zero => rfl
  | succ n ih => simp [anyBelow, ih]

/-- A job whose small page select is undefined has no storage to overlap with. -/
theorem no_storage (s : State) (rf pkg : Addr) (h : smallBits (s.toJob rf pkg).keys.small = none) :
    s.storageOverlaps rf pkg = false := by
  simp only [State.storageOverlaps, State.reaches, h, none_below]

/-- A Monitor about to start a job whose invisible package, in register #12, gives the page select 01. -/
def exitMachine : State :=
  { machine [(0x11, 0x4000), (0x12, 0x8000)] [] [(0x8080, 0x0000800000000000)] with arValid := true }

theorem witness_MonitorToJobExchange :
    let s := exitMachine
    (s.mode = .monitor ∧ Memory.wf s.mem = true ∧ s.params.ok = true ∧ s.faultTest = 0 ∧ s.arValid = true) ∧
    ((s.addr 0x11).toNat % 4096 = 0 ∧ (s.addr 0x12).toNat % 4096 = 0 ∧ 0x4000 ≤ (s.addr 0x11).toNat ∧
      s.packagesOverlap (s.addr 0x11) (s.addr 0x12) = false) ∧
    s.packagesOverlap 0 (s.addr 0x12) = false := by decide +kernel

/-- The word with the page selects lies outside the Monitor's register file. -/
theorem exitMachine_keys : smallBits (exitMachine.toJob (exitMachine.addr 0x11) (exitMachine.addr 0x12)).keys.small = none := by
  rw [toJob_keys _ (by decide +kernel), State.pkgWord, State.absWord]
  have h : ∀ b, 0x1010 ≤ b → b < 0x1010 + 8 → Memory.byte (State.storeRegs
      { exitMachine with jobRF := exitMachine.addr 0x11, invPkg := exitMachine.addr 0x12 } 0 256).mem b =
        Memory.byte exitMachine.mem b := fun b hb _ =>
    byte_storeRegs_out 0 256 (by decide +kernel) fun k hk => by
      rintro ⟨_, h⟩
      have : State.wrap { exitMachine with jobRF := exitMachine.addr 0x11, invPkg := exitMachine.addr 0x12 } (0 + 64 * k)
        ≤ 0 + 64 * k := Nat.mod_le _ _
      omega
  have hw : (State.storeRegs { exitMachine with jobRF := exitMachine.addr 0x11, invPkg := exitMachine.addr 0x12 } 0 256).wrap
      ((exitMachine.addr 0x12).toNat + 64 * exitMachine.params.layout.keysWord) / 8 = 0x1010 := by
    rw [storeRegs_eq]
    decide +kernel
  rw [hw, Memory.word_congr h]
  decide +kernel

theorem witness_MonitorToJobExchange_storage :
    exitMachine.storageOverlaps (exitMachine.addr 0x11) (exitMachine.addr 0x12) = false ∧
    exitMachine.storageOverlaps 0 (exitMachine.addr 0x12) = false :=
  ⟨no_storage _ _ _ exitMachine_keys, no_storage exitMachine 0 (exitMachine.addr 0x12) (by
    rw [toJob_keys_none]
    decide +kernel)⟩

theorem witness_ExchangeRoundTrip : ∃ s : State, s.Inv ∧ s.mode = .job ∧ s.params.ok = true ∧
    s.invPkg.toNat % 64 = 0 ∧ s.jobRF.toNat % 64 = 0 ∧ s.packagesOverlap s.jobRF s.invPkg = false ∧ s.jobRF ≠ 0 :=
  ⟨jobMachine [(3, 0x9000)], ⟨rfl, rfl, rfl, rfl, rfl, fun _ => rfl⟩, by decide +kernel⟩

theorem witness_JobModeTraps :
    let s := inDomain (jobMachine []) 0 0 0 0
    let u := inDomain s 0xFFFFFFFF 0 0 0
    (s.mode = .job ∧ s.forbidden 5 = false) ∧ (u.mode = .job ∧ bitAt u.dom.iim 3 = true ∧ bitAt u.dom.iim 31 = true) ∧
    (machine [] [] []).mode = .monitor := by decide +kernel

theorem witness_NoInterruptLeftInJob : ∃ s t u v : State, (s.stopped = true → s.mode = .monitor) ∧ step s = .next t ∧
    u.stopped = true ∧ u.mode = .monitor ∧ step u = .next v :=
  ⟨machine [] [] [(0x8000, 0x3E10000500000000)], _, { machine [] [] [] with waits := .interrupt }, _,
    fun _ => rfl, rfl, rfl, rfl, rfl⟩

theorem witness_NoInterruptLeftInJob_interrupts :
    let s := { jobMachine [] with ir := 0x8 }
    (s.mode = .job ∧ s.ir ≠ 0) ∧ { s with mode := .monitor }.mode = .monitor ∧ { s with ir := 0 }.ir = 0 := by decide +kernel

theorem witness_DataFlagBranch :
    let s := { machine [] [] [] with dfr := 0x1800 }
    (s.stopped = false ∧ s.env = []) ∧ (bitAt s.dfr 51 = true ∧ bitAt s.dfr 52 = true) ∧
    ¬ (bitAt { s with dfr := 0x1000 }.dfr 51 = true ∧ bitAt { s with dfr := 0x1000 }.dfr 52 = true) := by decide +kernel

theorem witness_IntervalTimers :
    let s := { jobMachine [] with mit := 5, jit := 5 }
    (({ s with mit := 0 }).mit = 0) ∧ (s.mit ≠ 0 ∧ s.mit.toNat ≤ 5) ∧ 4 < s.mit.toNat ∧
    ((machine [] [] []).mode = .monitor ∨ (machine [] [] []).jit = 0) ∧
    (s.mode = .job ∧ s.jit ≠ 0 ∧ s.jit.toNat ≤ 5) ∧ 4 < s.jit.toNat := by decide +kernel

/-- Whether an address has a page table entry is open to the search, so the statement says what happens in either case. -/
theorem witness_JobAccessesTranslate :
    let s := jobMachine [(0x10, 0x123456), (0x11, 0x0003000000010000), (0x12, 0x000300000001FF80)]
    (s.mode = .job ∧ s.arValid = true ∧ smallBits s.keys.small = some 16 ∧ largeBits s.keys.large = some 22) ∧
    (Memory.wf s.mem = true ∧ s.stopped = false ∧ s.stale = []) ∧
    (bitAt 0x80#8 2 = false ∧ bitAt 0x80#8 3 = false ∧ (0x11 : Byte) ≠ 0x12 ∧ 0 < s.len 0x12) ∧ s.sourceOk false 0 :=
  ⟨by decide +kernel, by decide +kernel, by decide +kernel, .inr (by decide +kernel)⟩

theorem witness_DerivedFlags : (63 < 64 ∧ 63 ∉ derivedBits) ∧ (0 < 64 ∧ 0 ∉ derivedBits) := by decide

theorem witness_HalfRegisters : (1 : Byte) ≠ 0 ∧ 128 ≤ (128#8).toNat ∧ 128 ≤ (255#8).toNat := by decide

theorem witness_ControlResults :
    let s := machine [(0x10, 0x0000123456789ABC0)] [] []
    let u := { s with ir := 1 }
    let f := { s with forceExec := .serial }
    let w := { s with waits := .interrupt }
    let v := { u with waits := .interrupt }
    (s.mode = .monitor ∧ s.ir = 0) ∧ (u.mode = .monitor ∧ u.ir ≠ 0) ∧ s.reg 0x11 &&& breakpointReserved = 0 ∧
    (w.waits = .interrupt ∧ w.env = [] ∧ w.ir = 0) ∧
    (v.waits = .interrupt ∧ v.ir ≠ 0 ∧ (bitAt v.dfr 51 && bitAt v.dfr 52) = false) ∧
    (s.forbidden 3 = false ∧ s.forceExec = .none ∧ bitAt (1#8) 7 = true ∧ bitAt (0#8) 7 = false) ∧
    (f.forbidden 3 = false ∧ f.forceExec ≠ .none) := by decide +kernel

theorem witness_TimerResults : (machine [] [] []).mode = .monitor ∧ (jobMachine []).mode = .job := by decide +kernel

theorem witness_TransferResults :
    let s := machine [] [] []
    let u := { s with sent := [0x8000000000000000, 1], taken := 1, arrivals := [0, 1] }
    s.forbidden 4 = false ∧ s.reg 0x10 &&& ~~~s.destinations = 0 ∧
    (u.sent = 0x8000000000000000 :: [1] ∧ u.taken = [(1 : Word)].length ∧ 0 ∈ u.arrivals ∧ 0 + 1 ∈ u.arrivals) ∧
    s.forbidden 10 = false ∧ s.forbidden 11 = false ∧
    s.forbidden 12 = false ∧ (0x11 : Byte) ≠ 0x12 ∧ s.forbidden 13 = false := by decide +kernel

theorem witness_AssociativeResults :
    let s := { machine [(0x10, 0x0FFF0FFF0FFF0FFF), (0x11, 0x0FFF8FFF0FFF0FFF)] [] [] with arValid := true }
    s.mode = .monitor ∧ s.arValid = true ∧ Memory.wf s.mem = true ∧ s.params.ok = true ∧
    (s.reg 0x10 &&& keysReserved = 0 ∧ (keysOfWord (s.reg 0x10)).small ≠ 1) ∧
    (s.reg 0x11 &&& keysReserved = 0 ∧ (keysOfWord (s.reg 0x11)).small = 1) := by decide +kernel

/-- The first and the last word that #0D reads, each with a breakpoint on it; and no breakpoint on reads. -/
theorem witness_AssociativeResults_breakpoint :
    (∀ p ∈ [((0x4002 : Word), 0), (0x43C2, 15)], bitAt p.1 62 = true ∧ p.2 < 16 ∧ ∀ k, k < 59 → 16 ≤ k →
      bitAt p.1 k = bitAt (BitVec.ofNat 48 (0x4000 + 64 * p.2)) (k - 16)) ∧
    bitAt (0x4004 : Word) 62 = false := by decide +kernel

theorem witness_ShiftsAndProducts :
    let s := machine [(0x10, 0xFFFF800000000000), (0x11, 1), (0x12, 0x7FFFFFFFFFFF), (0x13, 2)] [(4, 0x800000), (5, 1)] []
    let p (a b : Byte) := (addrPart (s.reg a)).toInt * (addrPart (s.reg b)).toInt
    let q (a b : Byte) := ((s.reg32 a).extractLsb' 0 24).toInt * ((s.reg32 b).extractLsb' 0 24).toInt
    ((0x3F#8).toNat ≤ 0x3F ∧ 0xC1 ≤ (0xC1#8).toNat ∧ 0x40 ≤ (0x40#8).toNat ∧ (0xC0#8).toNat ≤ 0xC0) ∧
    (-(2 ^ 47 : Int) = p 0x10 0x11 ∧ p 0x12 0x11 < 2 ^ 47 ∧ ¬ (-(2 ^ 47 : Int) ≤ p 0x10 0x13 ∧ p 0x10 0x13 < 2 ^ 47)) ∧
    (-(2 ^ 23 : Int) = q 4 5 ∧ ¬ (-(2 ^ 23 : Int) ≤ q 4 4 ∧ q 4 4 < 2 ^ 23)) := by decide +kernel

theorem witness_BitFieldResults :
    let s := machine [(0x11, 0x000100000000003F), (0x12, 5), (0x13, 0x000200000000003F)] [] []
    let m (r : Byte) := (field (s.reg r) 10 6).toNat
    let p (r : Byte) := (field (s.reg r) 58 6).toNat
    (s.reg 0x11 &&& bitFieldReserved = 0 ∧ m 0x11 ≠ 0 ∧ m 0x11 + p 0x11 = 64) ∧
    (s.reg 0x12 &&& bitFieldReserved = 0 ∧ m 0x12 = 0) ∧
    (s.reg 0x13 &&& bitFieldReserved = 0 ∧ 64 < m 0x13 + p 0x13) := by decide +kernel

theorem witness_BcdConversions :
    let s := machine [(0x10, 0x140737488355327C), (0x11, 0x140737488355328D), (0x12, 0x140737488355328C), (0x13, 0x1)] [] []
    (bcdValid (s.reg 0x10) = true ∧ bcdInt (s.reg 0x10) = 2 ^ 47 - 1) ∧
    (bcdValid (s.reg 0x11) = true ∧ -(2 ^ 47 : Int) = bcdInt (s.reg 0x11) ∧ bcdInt (s.reg 0x11) < 2 ^ 47) ∧
    (bcdValid (s.reg 0x12) = true ∧ ¬ bcdInt (s.reg 0x12) < 2 ^ 47) ∧ bcdValid (s.reg 0x13) = false := by decide +kernel

/-- Coefficients with their significant bit counts, and normalized ones: the largest, zero, the least. -/
theorem witness_FpBinaryResults :
    (SigCount (coefOf .w64 0x00007FFFFFFFFFFF) 47 ∧ SigCount (coefOf .w64 0) 0 ∧ SigCount (coefOf .w64 0x0000800000000000) 47 ∧
      SigCount (coefOf .w32 0xFFFFFE) 1) ∧
    (Normalized .w64 (3 * (2 ^ 45 : Nat)) ∧ Normalized .w64 (-1 * (2 ^ 47 : Nat))) ∧
    ((5 : Int).natAbs * (2 ^ 46 : Int).natAbs ≤ (5 : Int).natAbs * 2 ^ 46 ∧
      (5 : Int).natAbs * 2 ^ 46 < ((5 : Int).natAbs + 1) * (2 ^ 46 : Int).natAbs) := by
  refine ⟨⟨?_, ?_, ?_, ?_⟩, ⟨?_, ?_⟩, by decide⟩
  · exact ⟨by decide, by decide, by decide⟩
  · exact rfl
  · exact ⟨by decide, by decide, by decide⟩
  · exact ⟨by decide, by decide, by decide⟩
  · exact ⟨by decide, .inl (by decide)⟩
  · exact ⟨by decide, .inr (by decide)⟩

/-- The root of 2 with a coefficient of 23 bits. -/
theorem witness_FpUnaryResults :
    SigCount (coefOf .w32 2) 2 ∧ (2896 * 2896 : Nat) ≤ (2 : Int) * (2 ^ 22 : Nat) ∧
      (2 : Int) * (2 ^ 22 : Nat) < ((2896 + 1) * (2896 + 1) : Nat) :=
  ⟨⟨by decide, by decide, by decide⟩, by decide, by decide⟩

theorem witness_AdjustSignificance :
    let s := machine [(0x11, 0xFFFFFFFFFFD1), (0x12, 0x7000000000000000), (0x13, 0x8000000000000000)]
      [(0x50, 0xFFFFE9), (0x51, 0x70000000), (0x52, 0x80000000)] []
    (s.addr 0x11).toInt.natAbs = 47 ∧ unpack .w64 (s.reg 0x12) = .ind ∧ unpack .w64 (s.reg 0x13) = .mz ∧
    ((s.reg32 0x50).extractLsb' 0 24).toInt.natAbs = 23 ∧ unpack .w32 (s.operand32 0x51) = .ind ∧
    unpack .w32 (s.operand32 0x52) = .mz ∧ (-23 : Int).natAbs ≤ Width.w32.n := by decide +kernel

/-- Breakpoint register of address #10040 for writes and reads: it matches there, and not at #10000. -/
theorem witness_MonitorLoads :
    let s := { machine [] [] [] with bkpt := 0x10046 }
    s.mode = .monitor ∧ bitAt s.bkpt 62 = true ∧ bitAt s.bkpt 61 = true ∧
    (∀ k, k < 59 → 16 ≤ k → bitAt s.bkpt k = bitAt (0x10040 : Addr) (k - 16)) ∧
    bitAt s.bkpt 57 ≠ bitAt (0x10000 : Addr) (57 - 16) := by decide +kernel

theorem witness_MonitorStores :
    let s := machine [] [] [(0x10000, 1)]
    s.mode = .monitor ∧ Memory.wf s.mem = true := by decide +kernel

theorem witness_RegisterSwap :
    let s := machine [(0x10, 0x0002000000020000), (0x11, 0xFE), (0x12, 0x0002000000030000)] [] []
    let w := s.swapOf 0x10 0x11 0x12
    s.mode = .monitor ∧ Memory.wf s.mem = true ∧ s.params.ok = true ∧ w.illegal = false ∧ w.first + w.nStore = 256 ∧
    w.first + w.nLoad = 256 ∧ w.overlaps = false := by decide +kernel

theorem witness_CountAndSubroutineBranches :
    let s := machine [(0x10, 0xFFFFFFFFFFFF), (0x11, 1), (0x12, 0x9000), (0x13, 0x8000000000000000)] [] []
    s.addr 0x10 + 1 = 0 ∧ s.addr 0x11 - 1 = 0 ∧ s.addr 0x11 + 1 ≠ 0 ∧ (0x11 : Byte) ≠ 0x14 ∧ (0x11 : Byte) ≠ 0x12 ∧
    bitAt (s.reg 0x12) 0 = false ∧ ¬ ((0x10 : Byte) = 0x11 ∧ (0x10 : Byte) ≠ 0) ∧
    (bitAt (s.reg 0x13) 0 = false ∨ (0x13 : Byte) = 0x13) := by decide +kernel

theorem witness_BitBranches :
    let s := machine [(0x11, 0x9000), (0x12, 1), (0x14, 0x1FFF1FFF1FFF1FFF)] [] []
    (afterBranch 0x90 (bitAt (s.reg 0x12) 63) s.pc (s.addr 0x11) (s.addr 0x11) = some 0x9000) ∧
    (altered 0xF4 (bitAt (s.reg 0x12) 63) = some false ∧ afterBranch 0x74 (bitAt (s.reg 0x12) 63) s.pc 0 0 = some s.pc) ∧
    (bitAt undefinedMask 52 = false ∧ afterBranch 0x44 (bitAt s.dfr 52) s.pc (s.addr 0x11) 0x11 = some 0x8220) ∧
    (bitAt undefinedMask 50 = true ∧ branchTarget 0xF0 s.pc (s.addr 0x11) 0x11 = some 0x9000) ∧
    (s.mode = .monitor ∧ Memory.wf s.mem = true ∧
      afterBranch 0x30 (s.bitOfMemory (s.addr 0x11)) s.pc (s.addr 0x11) 0x11 = some 0x8020) ∧
    (3 ∈ derivedBits ∧ 52 ∉ derivedBits ∧ bitAt undefinedMask 52 = false) ∧ s.reg 0x14 &&& undefinedMask = 0 := by
  decide +kernel

theorem witness_ScanResults :
    let s := machine [(0x10, 0xFFFF000000010000), (0x12, 0x0001000000010000)] [] []
    s.mode = .monitor ∧ s.len 0x12 ≠ 0 ∧ s.len 0x10 ≠ 0 ∧ s.len 0x13 = 0 := by decide +kernel

theorem witness_BitFieldStores :
    let s := machine [(0x10, 3), (0x11, 0x0003000000000000), (0x12, 0x0009000000030003), (0x13, 0x0002000000010007),
      (0x14, 0x0003000000020000)] [] []
    (s.mode = .monitor ∧ Memory.wf s.mem = true ∧ s.len 0x10 ≤ s.len 0x11 ∧ s.len 0x11 ≤ s.len 0x11 ∧
      s.params.ok = true ∧ s.len 0x12 ≤ 2 ^ s.params.cpmLog ∧ s.len 0x11 ≠ 0) ∧
    (decide (s.len 0x10 = 0) = true ∧ decide (s.len 0x13 = 0 ∨ s.len 0x14 = 0) = false) ∧
    ∀ k, k < 9 → ∀ j, j < 9 →
      s.bitByte (s.addr 0x13 + BitVec.ofNat 48 (k / 2 * 5 + k % 2)) ≠ s.bitByte (s.addr 0x12 + BitVec.ofNat 48 j) ∧
      s.bitByte (s.addr 0x13 + BitVec.ofNat 48 k) ≠ s.bitByte (s.addr 0x12 + BitVec.ofNat 48 j) ∧
      s.bitByte (s.addr 0x14 + BitVec.ofNat 48 k) ≠ s.bitByte (s.addr 0x12 + BitVec.ofNat 48 j) := by decide +kernel

theorem all_ones_bit : ∀ n : BitVec 7, bitAt (BitVec.allOnes 128) n.toNat = true := by decide +kernel

theorem witness_DomainChanges :
    let s := inDomain (jobMachine [(0x12, 0x8000000000000000)]) 0 1 2 (BitVec.allOnes 128)
    let target := Config.domainNumber (s.reg 0x12)
    s.mode = .job ∧ bitAt (s.reg 0x12) 0 = true ∧ (0x10 : Byte) ≠ 0x12 ∧ Memory.wf s.mem = true ∧ s.params.ok = true ∧
    (s.dom.stackIndex.toNat < s.dom.stackLimit.toNat ∧ bitAt s.dom.changeMask target.toNat = true) ∧
    ¬ (({ s with dom := { s.dom with stackIndex := 2 } } : State).dom.stackIndex.toNat < s.dom.stackLimit.toNat) ∧
    s.dom.stackIndex ≠ 0 ∧ s.forbidden 15 = false ∧ (machine [] [] []).mode = .monitor ∧ (1 : Byte) ≠ 0 ∧
    (∃ b : Nat, s.wrap (s.invPkg.toNat + 64 * s.params.layout.bkptWord) / 8 + 8 ≤ b) :=
  ⟨rfl, by decide +kernel, by decide, rfl, by decide +kernel, ⟨by decide, all_ones_bit _⟩, by decide, by decide, rfl, rfl,
    by decide, ⟨_, Nat.le_refl _⟩⟩

/-- A machine with two instructions behind the place of a #56. -/
def linkMachine (i j : Instr) : State :=
  { machine [(0x10, 0x0003000000010000), (0x11, 0x0002000000020000), (0x12, 0x0003000000030000), (0x13, 0x0003000000040000)]
      [] [] with
    mem := setBytes [] 0x1004 (encode i ++ encode j) }

theorem witness_LinkedPair_none : linkOf 0 = .none ∧ linkOf 0xE7 = .none ∧ linkable .nop = none := by decide

/-- The fields of these machines lie apart, and what the operations give. -/
theorem witness_LinkedPair_fields :
    let s := linkMachine (.adduv 0 0 0x10 0 0x11 0 0x12) (.truv 0 0 0x10 0 0x12)
    let d := s.destOf .w64 false 0x12
    s.params.ok = true ∧ d.len = 3 ∧ d.len * 64 ≤ 2 ^ s.params.cpmLog ∧
    (∀ r ∈ [0x10, 0x11], s.apart (s.streamOf .w64 false r 0) .w64 .w64 d.start d.len ∧
      s.apartFromBits (s.streamOf .w64 false r 0) .w64 (s.addr 0x13) (s.len 0x13)) ∧
    s.controlApart (s.control 0 0x13 d.off) .w64 d.start d.len ∧
    (s.permissive (s.control 0 0x13 d.off) 0 = false ∧ s.permissive (s.control 0x40 0x13 d.off) 0 = true) ∧
    (∃ e f, pairOp (.mpyuv 0 0 0x10 0 0x11 0 0x12) = some (e, f) ∧ (f 0 0).isSome = true) ∧
    (∃ e f, pairOp (.cmplt 0 0 0x10 0 0x11 0x13) = some (e, f) ∧ (f 0 0).isSome = true) :=
  ⟨by decide +kernel, by decide +kernel, by decide +kernel, fun r hr => by
      simp only [List.mem_cons, List.not_mem_nil, or_false] at hr
      rcases hr with rfl | rfl
      · exact ⟨show ∀ i, i < 3 → ∀ j, j < 3 → _ by decide +kernel, show ∀ i, i < 3 → ∀ j, j < 3 → _ by decide +kernel⟩
      · exact ⟨show ∀ i, i < 2 → ∀ j, j < 3 → _ by decide +kernel, show ∀ i, i < 3 → ∀ j, j < 2 → _ by decide +kernel⟩,
    show ∀ i, i < 3 → ∀ j, j < 3 → _ by decide +kernel, by decide +kernel, ⟨_, _, rfl, rfl⟩, ⟨_, _, rfl, rfl⟩⟩

/-- A multiply vector whose product goes on to an add vector, a compare and a rounding, and a pair of one unit. -/
theorem witness_LinkedPair :
    (∀ p ∈ [((0x10 : Byte), Instr.mpyuv 0 0 0x10 0 0x11 0 0x12, Instr.adduv 0x08 0 0x10 0 0x11 0 0x12, Link.ra),
        (0x08, .adduv 0 0 0x10 0 0x11 0 0x12, .mpyuv 0x10 0 0x10 0 0x11 0 0x12, .rb),
        (0x18, .xorv 0 0 0x10 0 0x11 0 0x12, .cmplt 0 0 0x10 0 0x11 0x13, .both),
        (0x10, .adduv 0 0 0x10 0 0x11 0 0x12, .truv 0 0 0x10 0 0x12, .ra)],
      let s := linkMachine p.2.1 p.2.2.1
      s.mode = .monitor ∧ s.stale = [] ∧ s.link = .none ∧ Memory.wf s.mem = true ∧ linkOf p.1 = p.2.2.2 ∧
      p.2.1.wf = true ∧ p.2.2.1.wf = true ∧ s.instructionBytes (s.pc + 32) = encode p.2.1 ∧
      s.instructionBytes (s.pc + 96) = encode p.2.2.1) ∧
    (∃ l m, linkable (.mpyuv 0 0 0x10 0 0x11 0 0x12) = some l ∧ linkable (.adduv 0x08 0 0x10 0 0x11 0 0x12) = some m ∧
      linkValid .ra l m = true ∧ bitAt l.g 3 = false ∧ bitAt m.g 2 = false ∧ m.order = false) ∧
    (∃ l m, linkable (.adduv 0 0 0x10 0 0x11 0 0x12) = some l ∧ linkable (.mpyuv 0x10 0 0x10 0 0x11 0 0x12) = some m ∧
      linkValid .rb l m = true) ∧
    (∃ l m, linkable (.xorv 0 0 0x10 0 0x11 0 0x12) = some l ∧ linkable (.cmplt 0 0 0x10 0 0x11 0x13) = some m ∧
      linkValid .both l m = true ∧ m.order = true) ∧
    (∃ l m, linkable (.adduv 0 0 0x10 0 0x11 0 0x12) = some l ∧ linkable (.truv 0 0 0x10 0 0x12) = some m ∧
      linkValid .ra l m = false) ∧
    ∀ s : State, s.sourceOk false 0 ∧ s.destOk false 0x12 := by
  refine ⟨by decide +kernel, ⟨_, _, rfl, rfl, ?_⟩, ⟨_, _, rfl, rfl, ?_⟩, ⟨_, _, rfl, rfl, ?_⟩, ⟨_, _, rfl, rfl, ?_⟩,
    fun s => ⟨.inr (Nat.zero_lt_succ _), .inr (.inl rfl)⟩⟩ <;> decide +kernel

/-- A machine with vectors of three elements in registers #10 to #12, offsets in #13 (the largest) and #17, and an order
vector in #14. -/
def vectorMachine : State :=
  machine [(0x10, 0x0003000000010000), (0x11, 0x0002000000020000), (0x12, 0x0003000000030000), (0x13, 0xFFFF),
    (0x14, 0x0003000000040000), (0x16, 0x0005000000050000), (0x17, 0x0002), (0x18, 0x0003000000060000),
    (0x19, 0xFFFF)] [] [(0x40000, 0xA000000000000000)]

theorem witness_VectorTwoSource :
    let s := vectorMachine
    s.mode = .monitor ∧ Memory.wf s.mem = true ∧ (s.sourceOk false 0x13 ∧ s.sourceOk true 0x10) ∧ s.sourceOk false 0 ∧
    (s.destOk false 0x12 ∧ s.destOk true 0x16 ∧ s.destOk true 0x18 ∧ s.destOk true 0) :=
  ⟨rfl, rfl, ⟨.inr (by decide +kernel), .inl rfl⟩, .inr (by decide +kernel),
    .inr (.inl rfl), .inr (.inr (by decide +kernel)), .inr (.inr (by decide +kernel)), .inl rfl⟩

theorem witness_VectorOneSource :
    let s := vectorMachine
    s.mode = .monitor ∧ Memory.wf s.mem = true ∧ s.destOk true 0x18 ∧ s.sourceOk true 0x10 ∧ s.sourceOk false 0x13 :=
  ⟨rfl, rfl, .inr (.inr (by decide +kernel)), .inl rfl, .inr (by decide +kernel)⟩

theorem witness_VectorElements :
    let s := vectorMachine
    let d := s.destOf .w64 false 0x12
    (s.mode = .monitor ∧ Memory.wf s.mem = true ∧ s.params.ok = true ∧ d.len = 3 ∧ d.len * 64 ≤ 2 ^ s.params.cpmLog) ∧
    (s.sourceOk (bitAt 0#8 3) 0x17 ∧ s.sourceOk (bitAt 0#8 4) 0 ∧ s.destOk (bitAt 0#8 2) 0x12) ∧
    s.apart (s.streamOf .w64 false 0x10 0x17) .w64 .w64 d.start d.len ∧
    s.apart (s.streamOf .w64 false 0x11 0) .w64 .w64 d.start d.len ∧
    s.apart (s.streamOf .w64 true 0x11 0) .w64 .w64 d.start d.len ∧
    s.controlApart (s.control 0 0x14 d.off) .w64 d.start d.len ∧ s.controlApart (s.control 0 0 d.off) .w64 d.start d.len :=
  ⟨by decide +kernel, ⟨.inr (by decide +kernel), .inr (by decide +kernel), .inr (.inl rfl)⟩,
    show ∀ i, i < 1 → ∀ j, j < 3 → _ by decide +kernel, show ∀ i, i < 2 → ∀ j, j < 3 → _ by decide +kernel, trivial,
    show ∀ i, i < 3 → ∀ j, j < 3 → _ by decide +kernel, trivial⟩

/-- From 64-bit to 32-bit elements and back, for the instructions of two widths; with the control vector of #14. -/
theorem witness_VectorOneSource_elements :
    let s := vectorMachine
    let d := s.destOf .w64 false 0x12
    let e := s.destOf .w32 false 0x12
    (s.params.ok = true ∧ s.destOk (bitAt 0#8 2) 0x12 ∧ d.len * 64 ≤ 2 ^ s.params.cpmLog ∧ e.len * 32 ≤ 2 ^ s.params.cpmLog) ∧
    s.apart (s.streamOf .w64 false 0x10 0) .w64 .w32 e.start e.len ∧
    s.apart (s.streamOf .w32 false 0x10 0) .w32 .w64 d.start d.len ∧
    s.controlApart (s.control 0 0x14 e.off) .w32 e.start e.len ∧ SigCount (coefOf .w64 5) 3 :=
  ⟨⟨by decide +kernel, .inr (.inl rfl), by decide +kernel, by decide +kernel⟩,
    show ∀ i, i < 3 → ∀ j, j < 3 → _ by decide +kernel, show ∀ i, i < 3 → ∀ j, j < 3 → _ by decide +kernel,
    show ∀ i, i < 3 → ∀ j, j < 3 → _ by decide +kernel, ⟨by decide, by decide, by decide⟩⟩

/-- Order vectors X (three bits) and Y (two) at #70000 and #78000, Z in #14 (three bits); A, B, C in #10 to #12. -/
theorem witness_SparseVectors :
    let s := machine [(0x10, 0x0003000000010000), (0x11, 0x0002000000020000), (0x12, 0x0003000000030000),
      (0x14, 0x0003000000040000), (0x15, 0x0003000000070000), (0x16, 0x0002000000078000)] []
      [(0x70000, 0xA000000000000000), (0x78000, 0x4000000000000000)]
    let xb (i : Nat) : Bool := decide (i < s.len 0x15) && s.bitOfMemory (s.addr 0x15 + BitVec.ofNat 48 i)
    let yb (i : Nat) : Bool := decide (i < s.len 0x16) && s.bitOfMemory (s.addr 0x16 + BitVec.ofNat 48 i)
    let stored := countBelow (fun i => orderFunction true 0 (xb i) (yb i)) (s.len 0x14)
    (s.mode = .monitor ∧ Memory.wf s.mem = true ∧ s.len 0x14 ≠ 0 ∧ s.len 0x17 = 0 ∧ s.params.ok = true ∧
      s.len 0x14 ≤ 2 ^ s.params.cpmLog ∧ stored = 3 ∧ countBelow xb 3 = 2 ∧ countBelow yb 3 = 1 ∧
      stored * 64 ≤ 2 ^ s.params.cpmLog) ∧
    (s.stringsApart (s.addr 0x15) 3 (s.addr 0x14) 3 ∧ s.stringsApart (s.addr 0x16) 2 (s.addr 0x14) 3) ∧
    (s.bitsApart (s.addr 0x15) 3 .w64 (s.addr 0x12) 3 ∧ s.bitsApart (s.addr 0x16) 2 .w64 (s.addr 0x12) 3 ∧
      s.bitsApart (s.addr 0x14) 3 .w64 (s.addr 0x12) 3) ∧
    (s.bitsApart (s.addr 0x14) 3 .w64 (s.addr 0x10) 2 ∧ s.fieldsApart .w64 (s.addr 0x10) 2 .w64 (s.addr 0x12) 3) ∧
    (s.bitsApart (s.addr 0x14) 3 .w64 (s.addr 0x11) 1 ∧ s.fieldsApart .w64 (s.addr 0x11) 1 .w64 (s.addr 0x12) 3) :=
  ⟨by decide +kernel, ⟨show ∀ i, i < 3 → ∀ j, j < 3 → _ by decide +kernel, show ∀ i, i < 2 → ∀ j, j < 3 → _ by decide +kernel⟩,
    ⟨show ∀ i, i < 3 → ∀ j, j < 3 → _ by decide +kernel, show ∀ i, i < 2 → ∀ j, j < 3 → _ by decide +kernel,
      show ∀ i, i < 3 → ∀ j, j < 3 → _ by decide +kernel⟩,
    ⟨show ∀ i, i < 3 → ∀ j, j < 2 → _ by decide +kernel, show ∀ i, i < 2 → ∀ j, j < 3 → _ by decide +kernel⟩,
    show ∀ i, i < 3 → ∀ j, j < 1 → _ by decide +kernel, show ∀ i, i < 1 → ∀ j, j < 3 → _ by decide +kernel⟩

theorem witness_IntegerCompares :
    let s := machine [(0x10, 5), (0x11, 2), (0x12, 7), (0x13, 0x9000)] [] []
    let v := intCompare 0 0x11 0x10 0x12 false s
    (bitAt 0#8 3 && bitAt 0#8 0) = false ∧ (bitAt 0x10#8 3 && bitAt 0x10#8 0) = false ∧ v.left = v.right ∧
    compareTarget 0 0 0x13 s = some 0x9000 ∧ compareTarget 0x06 0 0x13 s = some 0x7DA0 ∧ (0x14 : Byte) ≠ 0x12 ∧
    (intCompare 0x10 0x11 0x10 0x13 true s).left ≠ (intCompare 0x10 0x11 0x10 0x13 true s).right := by decide +kernel

theorem witness_FpCompares :
    let s := machine [(0x10, 5), (0x11, 2), (0x13, 0x9000)] [] []
    let r := fpCompare .w64 (s.reg 0x10) (s.reg 0x11)
    r.eq = false ∧ r.ne = true ∧ r.ge = true ∧ r.lt = false ∧ compareTarget 0 0 0x13 s = some 0x9000 := by decide +kernel

theorem witness_ScatterGather :
    let s := machine [(0x10, 0x0002000000010000), (0x11, 0x0002000000020000), (0x12, 0x0003000000030000)] []
      [(0x10000, 1), (0x10040, 7)]
    let ix := s.indexesOf 0 0 0x10
    let stored (j : Nat) : Addr := s.addr 0x12 + (s.itemCount ix j <<< 6)
    (s.mode = .monitor ∧ Memory.wf s.mem = true ∧ ix.count = 2 ∧ (bitAt 0#8 6 && bitAt 0#8 7) = false ∧
      s.params.ok = true ∧ 2 * 1 * 64 ≤ 2 ^ s.params.cpmLog ∧ (s.indexesOf 0 0 0x17).count = 0) ∧
    ((s.sourceOk false 0 ∧ s.sourceOk (bitAt 0x08#8 4) 0x10) ∧ (bitAt 0x04#8 5 = true → (0 : Byte) = 0)) ∧
    (∀ j, j < 2 → s.indexesApart ix .w64 (s.addr 0x12 + (s.itemCount ix j <<< Width.w64.shift)) 1) ∧
    s.indexesApart ix .w64 (s.addr 0x12) (2 * 1) ∧ (∀ b m, s.indexesApart (s.indexesOf 0x04 0 0x10) .w64 b m) ∧
    (∀ j, j < 2 → (itemAddr .w64 0 j).toNat < 0x4000) ∧
    (s.elemsApart .w64 (stored 0) .w64 (stored 1) ∧ s.elemsApart .w64 (stored 1) .w64 (stored 0)) ∧
    (s.elemsApart .w64 (s.addr 0x11) .w64 (stored 0) ∧ s.elemsApart .w64 (s.addr 0x11) .w64 (stored 1) ∧
      s.elemsApart .w64 (s.addr 0x11 + (7 <<< 6)) .w64 (s.addr 0x12)) :=
  ⟨by decide +kernel, ⟨⟨.inr (by decide +kernel), .inl rfl⟩, fun _ => rfl⟩,
    fun j hj => show ∀ i, i < 2 → ∀ k, k < 1 → _ by
      rcases j with _ | _ | j
      · decide +kernel
      · decide +kernel
      · omega,
    show ∀ i, i < 2 → ∀ j, j < 2 → _ by decide +kernel, fun _ _ => trivial, by decide +kernel,
    ⟨.inl (by decide +kernel), .inr (by decide +kernel)⟩,
    .inl (by decide +kernel), .inl (by decide +kernel), .inl (by decide +kernel)⟩

theorem witness_MaskCompressMerge :
    let s := vectorMachine
    s.mode = .monitor ∧ Memory.wf s.mem = true ∧ s.len 0x14 ≠ 0 ∧ s.len 0x17 = 0 ∧ s.sourceOk false 0x17 ∧
    s.sourceOk false 0 ∧ s.len 0x10 - s.offsetOf 0x17 ≠ 0 ∧ s.len 0x10 - s.offsetOf 0x13 = 0 ∧ (0x14 : Byte) ≠ 0x12 ∧
    (s.params.ok = true ∧ s.len 0x14 * 64 ≤ 2 ^ s.params.cpmLog ∧ s.len 0x10 - s.offsetOf 0 = 3) ∧
    s.bitsApart (s.addr 0x14) 3 .w64 (s.addr 0x12) 3 ∧
    (∀ r ∈ [0x10, 0x11], s.fieldsApart .w64 (s.addr r) 3 .w64 (s.addr 0x12) 3) ∧
    (s.apart (s.streamOf .w64 false 0x10 0) .w64 .w64 (s.addr 0x12) 3 ∧
      s.apart (s.streamOf .w64 false 0x11 0) .w64 .w64 (s.addr 0x12) 3 ∧
      s.apartFromBits (s.streamOf .w64 false 0x10 0) .w64 (s.addr 0x14) 3 ∧
      s.apartFromBits (s.streamOf .w64 false 0x11 0) .w64 (s.addr 0x14) 3) :=
  ⟨rfl, rfl, by decide +kernel, by decide +kernel, .inr (by decide +kernel), .inr (by decide +kernel),
    by decide +kernel, by decide +kernel, by decide, by decide +kernel,
    show ∀ i, i < 3 → ∀ j, j < 3 → _ by decide +kernel, fun r hr => by
      simp only [List.mem_cons, List.not_mem_nil, or_false] at hr
      rcases hr with rfl | rfl
      · exact show ∀ i, i < 3 → ∀ j, j < 3 → _ by decide +kernel
      · exact show ∀ i, i < 3 → ∀ j, j < 3 → _ by decide +kernel,
    show ∀ i, i < 3 → ∀ j, j < 3 → _ by decide +kernel, show ∀ i, i < 2 → ∀ j, j < 3 → _ by decide +kernel,
    show ∀ i, i < 3 → ∀ j, j < 3 → _ by decide +kernel, show ∀ i, i < 3 → ∀ j, j < 2 → _ by decide +kernel⟩

theorem witness_SelectResults :
    let s := vectorMachine
    (s.mode = .monitor ∧ s.sourceOk true 0 ∧ s.sourceOk false 0 ∧ s.sourceOk false 0x13) ∧
    (bitAt 0#8 3 && bitAt 0#8 4) = false ∧ (bitAt 0x10#8 3 && bitAt 0x10#8 4) = false ∧
    pairCount (s.streamOf .w64 false 0x10 0) (s.streamOf .w64 false 0x11 0) ≠ 0 ∧
    pairCount (s.streamOf .w64 false 0x10 0x13) (s.streamOf .w64 true 0x11 0) = 0 ∧
    s.len 0x10 - (s.addr 0x17).toNat ≠ 0 ∧ s.len 0x10 - (s.addr 0x13).toNat = 0 ∧ (0x18 : Byte) ≠ 0 :=
  ⟨⟨rfl, .inl rfl, .inr (by decide +kernel), .inr (by decide +kernel)⟩, by decide +kernel⟩

theorem witness_OrderVectorsAndSearch :
    let s := vectorMachine
    (s.mode = .monitor ∧ Memory.wf s.mem = true ∧ s.params.ok = true ∧ s.len 0x14 ≤ 2 ^ s.params.cpmLog) ∧
    (s.sourceOk false 0x13 ∧ s.sourceOk false 0) ∧
    s.apartFromBits (s.streamOf .w64 false 0x10 0) .w64 (s.addr 0x14) (s.len 0x14) ∧
    s.apartFromBits (s.streamOf .w64 true 0x10 0) .w64 (s.addr 0x14) (s.len 0x14) ∧
    (s.len 0x10 - s.offsetOf 0x13 = 0 ∧ s.len 0x10 - s.offsetOf 0 = 3 ∧ 3 * 64 ≤ 2 ^ s.params.cpmLog) ∧
    s.apart (s.streamOf .w64 false 0x10 0) .w64 .w64 (s.addr 0x12) 3 ∧
    s.apart (s.streamOf .w64 false 0x11 0) .w64 .w64 (s.addr 0x12) 3 ∧
    s.controlApart (s.control 0 0x14 0) .w64 (s.addr 0x12) 3 ∧ s.controlApart (s.control 0 0 0) .w64 (s.addr 0x12) 3 :=
  ⟨by decide +kernel, ⟨.inr (by decide +kernel), .inr (by decide +kernel)⟩,
    show ∀ i, i < 3 → ∀ j, j < 3 → _ by decide +kernel, trivial, by decide +kernel,
    show ∀ i, i < 3 → ∀ j, j < 3 → _ by decide +kernel, show ∀ i, i < 2 → ∀ j, j < 3 → _ by decide +kernel,
    show ∀ i, i < 3 → ∀ j, j < 3 → _ by decide +kernel, trivial⟩

theorem witness_MacroResults :
    let s := vectorMachine
    (s.mode = .monitor ∧ s.sourceOk false 0 ∧ s.sourceOk false 0x13 ∧ s.sourceOk true 0) ∧
    s.len 0x10 - s.offsetOf 0 ≠ 0 ∧ s.len 0x10 - s.offsetOf 0x13 = 0 ∧ (0x18 : Byte) ≠ 0x1A ∧
    regOfW .w64 0x1A ≠ 0x18 ∧ badPair 0x1A = false ∧
    pairCount (s.streamOf .w64 false 0x10 0) (s.streamOf .w64 false 0x11 0) ≠ 0 ∧
    pairCount (s.streamOf .w64 false 0x10 0x13) (s.streamOf .w64 true 0x11 0) = 0 :=
  ⟨⟨rfl, .inr (by decide +kernel), .inr (by decide +kernel), .inl rfl⟩, by decide +kernel⟩

/-- An accumulator at the ends of its range, and a scan whose best element so far is -1, compared by its magnitude. -/
theorem witness_MacroResults_steps :
    (Acc.value 0x6FFF (2 ^ 94 - 1)).inRange .w64 ∧ (Acc.value (-0x7000) (-2 ^ 94)).inRange .w64 ∧
    unpack .w64 0x0000FFFFFFFFFFFF ≠ .ind ∧ scanned .w64 true 0x0000FFFFFFFFFFFF = .normal 0 1 :=
  ⟨⟨by decide, by decide, by decide, by decide⟩, ⟨by decide, by decide, by decide, by decide⟩, by decide, by decide⟩

theorem witness_StringsAndBytes :
    let s := machine [(0x10, 0x0009000000010000), (0x11, 0x0003000000020000), (0x12, 0x0009000000030000), (0x13, 9)] [] []
    (s.mode = .monitor ∧ Memory.wf s.mem = true ∧ s.params.ok = true ∧ s.len 0x12 - (s.index 0).toNat ≠ 0 ∧
      s.len 0x12 - (s.index 0x13).toNat = 0 ∧ 8 * 9 ≤ 2 ^ s.params.cpmLog) ∧
    s.stringsApart (s.addr 0x10) 9 (s.addr 0x12) 9 ∧ s.stringsApart (s.addr 0x11) 3 (s.addr 0x12) 9 ∧
    (∀ i, i < 3 → ∀ j, j < 9 → s.oneByte (s.addr 0x11 + (BitVec.ofNat 48 i <<< 3)) ≠
      s.oneByte (s.addr 0x12 + (BitVec.ofNat 48 j <<< 3))) :=
  ⟨by decide +kernel, show ∀ i, i < 9 → ∀ j, j < 9 → _ by decide +kernel,
    show ∀ i, i < 3 → ∀ j, j < 9 → _ by decide +kernel, by decide +kernel⟩

theorem witness_BufferTransfers :
    let s := bufferMachine [(0x10, 0x400), (0x11, 0x3FFDFFF), (0x12, 0x3FFEFC0)] [] [(0x1400, 0x8000000000000000)]
    (Memory.wf s.cb = true ∧ s.beyondLimit 0 (s.cbAddr 0 0x10) = false ∧ s.params.cbBits ≤ 2 ^ 48) ∧
    (∀ b ∈ [26, 27, 28, 29, 30, 31], s.forbidden b = false) ∧ s.lockedOut 0 true true = false ∧
    s.lockedOut 0 true false = false ∧ s.lockedOut 0 false true = false ∧
    (bitAt (s.bufferElem .w64 ((s.cbAddr 0 0x10).toNat / 64)) 0 = true ∧
      bitAt (s.bufferElem .w64 ((s.cbAddr 1 0x10).toNat / 64)) 0 = false) ∧
    s.beyondLimit 0 (BitVec.ofNat 48 (((s.cbAddr 0 0x10).toNat / 64 + 1) * 64)) = false ∧
    ((s.cbAddr 0 0x12).toNat / 64 + 1) * 64 = s.params.cbBits := by decide +kernel

theorem witness_Semaphores :
    let s := bufferMachine [(0x10, 0x400), (0x11, 0x480), (0x12, 0x500), (0x13, 0x580)] []
      [(0x1400, 0x0000000200000000), (0x1480, 0xFFFFFFFF00002000), (0x14C0, 0x0000200000000000), (0x1500, 0xFFFFFFFE00002000),
       (0x1540, 0x0000200000000000)]
    let v (x : Byte) := waitOf (s.bufferElem .w64 ((s.cbAddr 0 x).toNat / 64) ++
      s.bufferElem .w64 ((s.cbAddr 0 x).toNat / 64 + 1))
    (Memory.wf s.cb = true ∧ s.lockedOut 0 true true = false ∧ s.forbidden 26 = false ∧ s.forbidden 27 = false ∧
      (∀ x ∈ [0x10, 0x11, 0x12, 0x13], s.beyondLimit 0 (s.cbAddr 0 x) = false ∧
        ((s.cbAddr 0 x).toNat / 64 + 2) * 64 ≤ s.params.cbBits)) ∧
    (0 < (v 0x10).toInt ∧ v 0x11 = 0xFFFFFFFF ∧ (v 0x12).toInt < -1 ∧ v 0x13 = 0) ∧
    (∀ f ∈ [s.params.sem.head, s.params.sem.tail],
      let w := addressField f (s.bufferElem .w64 0x52 ++ s.bufferElem .w64 0x53) / 64
      (w + 1) * 64 ≤ s.params.cbBits ∧ w ≠ 0x52 ∧ w ≠ 0x53) := by decide +kernel

/-- A queue whose tail is the semaphore's own second word. -/
theorem witness_Semaphores_tail :
    let s := bufferMachine [(0x10, 0x400)] [] [(0x1400, 0xFFFFFFFF00001440), (0x1440, 0x0000144000000000)]
    let v := s.bufferElem .w64 0x50 ++ s.bufferElem .w64 0x51
    (s.cbAddr 0 0x10).toNat / 64 = 0x50 ∧ (waitOf v).toInt < 0 ∧ addressField s.params.sem.tail v / 64 = 0x51 ∧
    (0x50 + 2) * 64 ≤ s.params.cbBits := by decide +kernel

theorem witness_BufferChecks :
    let s := bufferMachine [(0x10, 0x400), (0x11, 0x1000000), (0x12, 0x340)] []
      [(0x1340, 0xFFFFFFFF00002000), (0x1380, 0x0000200000000000)]
    let u := { s with params := { s.params with cbBits := 0x1400 } }
    let v := u.bufferElem .w64 0x4D ++ u.bufferElem .w64 0x4E
    (∀ b ∈ [26, 27, 28, 29, 30, 31], s.forbidden b = false) ∧ s.beyondLimit 0 (s.cbAddr 0 0x11) = true ∧
    s.lockedOut 2 true false = true ∧ s.lockedOut 2 false true = true ∧ s.mode = .monitor ∧
    { s with mode := .job }.mode = .job ∧ { s with mode := .job }.forbidden 30 = false ∧
    (u.lockedOut 0 true true = false ∧ u.beyondLimit 0 (u.cbAddr 0 0x10) = false ∧
      u.params.cbBits < ((u.cbAddr 0 0x10).toNat / 64 + 1) * 64 ∧
      u.beyondLimit 0 (BitVec.ofNat 48 (((u.cbAddr 0 0x10).toNat / 64 + 1) * 64)) = false) ∧
    (let t := { u with params := { u.params with cbBits := 0x1380 } }
     t.beyondLimit 0 (t.cbAddr 0 0x12) = false ∧ t.params.cbBits ≤ 2 ^ 48 ∧
      ((t.cbAddr 0 0x12).toNat / 64 + 1) * 64 = t.params.cbBits ∧ t.params.cbBits < (0x4D + 2) * 64 ∧ (0x4D + 1) * 64 ≠ 2 ^ 48 ∧
      bitAt (t.bufferElem .w32 0) 32 = false) ∧
    ((u.cbAddr 0 0x12).toNat / 64 = 0x4D ∧ u.params.cbBits < ((u.cbAddr 0 0x10).toNat / 64 + 1 + 1) * 64 ∧
      (waitOf v).toInt < 0 ∧ u.params.cbBits < (addressField u.params.sem.head v / 64 + 1) * 64 ∧
      u.params.cbBits < (addressField u.params.sem.tail v / 64 + 1) * 64 ∧
      u.cbAddr (semaphorePair 0) 0x12 = u.cbAddr (dataPair 0) 0x12) := by decide +kernel

theorem witness_UndefinedScalarForms :
    let s := machine [(0x10, 0xFFFF000000000000), (0x11, 0xFFFF000000000001), (0x12, 0x8000000000000800),
      (0x13, 0x0001000000000000), (0x14, 0x30), (0x15, 1), (0x16, 0x0002000000020000), (0x17, 0xFF), (0x18, 0xFE),
      (0x19, 0x0004000000030000), (0x1A, 0x0004000000030080), (0x1B, 0x3000), (0x1C, 0x8000), (0x1D, 0x0000800000000000)]
      [(0x50, 0x18)] []
    let u := { s with arValid := true }
    (s.reg 0x10 &&& breakpointReserved ≠ 0 ∧ s.forbidden 4 = false ∧ s.reg 0x11 &&& ~~~s.destinations ≠ 0) ∧
    (s.mode = .monitor ∧ { s with faultTest := 1 }.faultTest ≠ 0 ∧ s.faultTest = 0 ∧ s.arValid = false ∧ u.arValid = true ∧
      ((u.addr 0x1C).toNat % 4096 = 0 ∧ ¬ (u.addr 0x12).toNat % 4096 = 0 ∧ (u.addr 0x1B).toNat % 4096 = 0 ∧
        u.addr 0x1B ≠ 0 ∧ (u.addr 0x1B).toNat < 0x4000 ∧ u.packagesOverlap 0 (u.addr 0x1B) = true) ∧
      u.reg 0x10 &&& keysReserved ≠ 0 ∧ (keysOfWord (u.reg 0x1D)).small = 1 ∧ bitAt (s.reg 0x12) 0 = true ∧
      afterBranch 0x42 (s.bitOfMemory (s.addr 0x10)) s.pc (s.addr 0x11) 0x11 = none) ∧
    ((jobMachine []).mode = .job ∧ (jobMachine []).dom.stackIndex = 0 ∧ (jobMachine []).forbidden 5 = false) ∧
    (s.len 0x13 ≠ 0 ∧ s.len 0x13 < s.len 0x16) ∧
    afterBranch 0x82 (bitAt (s.reg 0x15) 63) s.pc (s.addr 0x10) (s.addr 0x10) = none ∧
    (bitAt undefinedMask 63 = false ∧ afterBranch 0xC2 (bitAt s.dfr 63) s.pc (s.addr 0x10) 0x10 = none) ∧
    (bitAt (s.reg 0x13) 0 = false ∧ s.reg 0x11 &&& bitFieldReserved ≠ 0) ∧
    (unpack .w64 (s.reg 0x15) ≠ .ind ∧ unpack .w64 (s.reg 0x15) ≠ .mz ∧ 47 < (s.addr 0x14).toInt.natAbs) ∧
    (unpack .w32 (s.operand32 0x52) ≠ .ind ∧ unpack .w32 (s.operand32 0x52) ≠ .mz ∧
      23 < ((s.reg32 0x50).extractLsb' 0 24).toInt.natAbs) ∧
    (s.swapOf 0x16 0x17 0x16).illegal = true ∧
    ((s.swapOf 0x19 0x18 0x16).illegal = false ∧ 256 < 0xFE + (s.swapOf 0x19 0x18 0x16).nLoad) ∧
    ((s.swapOf 0x19 0x14 0x1A).illegal = false ∧ (s.swapOf 0x19 0x14 0x1A).overlaps = true) := by decide +kernel

theorem witness_UndefinedVectorForms :
    let s := bufferMachine [(0x10, 0x10000), (0x11, 0x10000), (0x12, 0xFFFF), (0x13, 0x10000), (0x14, 5), (0x15, 5),
      (0x16, 0x00020000000101FF), (0x17, 0x3FC0), (0x18, 0x0001000000020000)] [] []
    (bitAt 0#8 3 = false ∧ bitAt 0#8 4 = false ∧ 0x10000 = s.offsetOf 0x10 ∧ bitAt 0x20#8 2 = true ∧ bitAt 0x11#8 7 = true ∧
      bitAt 0x12#8 7 = false ∧ 0x10000 ≤ (s.addr (0x12 + 1)).toNat ∧ s.len 0x16 - s.offsetOf 0 ≠ 0) ∧
    (s.sourceOk false 0x12 ∧ s.sourceOk true 0x10) ∧
    (bitAt 0x90#8 3 = true ∧ bitAt 0x90#8 0 = true ∧ compareTarget 0x02 0x10 0x10 s = none) ∧
    ((intCompare 0 0x14 0x14 0x14 false s).left ≠ (intCompare 0 0x14 0x14 0x14 false s).right ∧
      (fpCompare .w64 (s.reg 0x14) (s.reg 0x15)).eq = true) ∧
    (bitAt 0x03#8 6 = true ∧ bitAt 0x03#8 7 = true ∧ bitAt 0x0A#8 4 = true ∧ bitAt 0x0A#8 6 = true) ∧
    (bitAt 0x04#8 5 = true ∧ (s.indexesOf 0x04 0 0x16).count * 1 ≠ 0 ∧ (s.indexesOf 0 0 0x18).count = 1) ∧
    (s.mode = .monitor ∧ bitAt 0x05#8 6 = false ∧ bitAt 0x05#8 7 = true ∧
      0x4000 = (itemAddr .w64 (s.addr 0x17) 1).toNat ∧
      0x4000 ≤ (itemAddr .w64 (s.addr 0x17) 0 + (s.itemCount (s.indexesOf 0x05 0 0x16) 1 <<< 6)).toNat) ∧
    (bitAt 0x18#8 3 = true ∧ bitAt 0x18#8 4 = true) ∧
    (s.forbidden 27 = false ∧ s.lockedOut (semaphorePair 0x01) true true = false ∧ s.lockedOut (dataPair 0x01) true true = false ∧
      s.beyondLimit (semaphorePair 0x01) (s.cbAddr (semaphorePair 0x01) 0x14) = false ∧
      s.beyondLimit (dataPair 0x01) (s.cbAddr (dataPair 0x01) 0x14) = false ∧
      s.cbAddr (semaphorePair 0x01) 0x14 ≠ s.cbAddr (dataPair 0x01) 0x14) :=
  ⟨by decide +kernel, ⟨.inr (by decide +kernel), .inl rfl⟩, by decide +kernel⟩

end Sys2Proof.Tests
end

