-- ==== Sys2Proof/Proofs/RegisterResults.lean ====
section
/-! PROOFS. Instructions whose whole effect is one value in one 64-bit register (spec/43_branch_register.md,
spec/45_scalar_fp64.md, spec/47_sparse_compare_index.md). They all end in `State.put` or `State.put64`; what those leave
unchanged is said once, and each instruction is an equation that gives the stored value. -/

namespace Sys2Proof.Machine

/-! ### What a register store leaves unchanged -/

theorem State.flagsOnly_of_dfr_eq {s t : State} (h : t.dfr = s.dfr) (flags : List Nat) : s.FlagsOnly t flags :=
  ⟨fun _ => h, fun k _ _ _ => by rw [h]⟩

/-- A register store and a jump change one register and the program address. -/
theorem registerResult_of_setReg_goto {i : Instr} {s : State} {d : Byte} {v : Word} {a : Addr}
    (h : exec i s = .next ((s.setReg d v).goto a)) : RegisterResult i s (halfAligned a) d v := by
  have hreg : ((s.setReg d v).goto a).reg d = v := by simp
  have hframe : ∀ n, ¬ n = d → ((s.setReg d v).goto a).reg n = s.reg n := fun n hn => by
    rw [State.goto_reg, State.setReg_reg_ne s v hn]
  exact ⟨_, h, hreg, rfl, hframe, State.flagsOnly_of_dfr_eq rfl [], fun _ _ => rfl, fun _ => rfl, fun _ => rfl, rfl⟩

theorem registerResult_of_put {i : Instr} {s : State} {d : Byte} {v : Word} (h : exec i s = s.put d v) :
    RegisterResult i s s.behind32 d v :=
  registerResult_of_setReg_goto h

theorem registerResult_of_put64 {i : Instr} {s : State} {d : Byte} {v : Word} (h : exec i s = s.put64 d v) :
    RegisterResult i s s.behind64 d v :=
  registerResult_of_setReg_goto h

/-! ### The value each instruction stores -/

/-- R13: designator #00 as a source provides machine zero. -/
theorem State.regOrMz_eq (s : State) (n : Byte) :
    s.regOrMz n = if n = 0 then 0x8000000000000000 else s.reg n := rfl

/-- R185 for 64-bit operands: the exponent, its sign extended, is the coefficient, under exponent zero. -/
theorem fpExp_w64 (x : Word) : fpExp .w64 x = 0#16 ++ (lenPart x).signExtend 48 := rfl

section
variable (s : State) (r sd t : Byte) (im : BitVec 16) (jm : BitVec 48)

theorem exec_rxor : exec (.rxor r sd t) s = s.put t (s.regOrMz r ^^^ s.regOrMz sd) := rfl

theorem exec_rand : exec (.rand r sd t) s = s.put t (s.regOrMz r &&& s.regOrMz sd) := rfl

theorem exec_rior : exec (.rior r sd t) s = s.put t (s.regOrMz r ||| s.regOrMz sd) := rfl

theorem exec_elen : exec (.elen r im) s = s.put r (im ++ addrPart (s.reg r)) := rfl

theorem exec_ltol : exec (.ltol r t) s = s.put t (lenPart (s.reg r) ++ addrPart (s.reg t)) := rfl

theorem exec_es : exec (.es r im) s = s.put r (0#16 ++ im.signExtend 48) := rfl

theorem exec_addx :
    exec (.addx r sd t) s = s.put t (lenPart (s.reg r) ++ (addrPart (s.reg r) + addrPart (s.reg sd))) := rfl

theorem exec_subx :
    exec (.subx r sd t) s = s.put t (lenPart (s.reg r) ++ (addrPart (s.reg r) - addrPart (s.reg sd))) := rfl

theorem exec_rtor : exec (.rtor r t) s = s.put t (s.reg r) := rfl

theorem exec_exp : exec (.exp r t) s = s.put t (0#16 ++ (lenPart (s.reg r)).signExtend 48) :=
  congrArg (s.put t) (fpExp_w64 (s.reg r))

theorem exec_pack : exec (.pack r sd t) s = s.put t ((s.reg r).extractLsb' 0 16 ++ addrPart (s.reg sd)) := rfl

theorem exec_ltor : exec (.ltor r t) s = s.put t (0#48 ++ lenPart (s.reg r)) := rfl

theorem exec_ex : exec (.ex r jm) s = s.put64 r (0#16 ++ jm) := rfl

end

/-! ### The statements -/

/-- Settles O25: each instruction is a `State.put` of the operation on the operands read by `State.regOrMz`. -/
theorem logicalResults : Obligations.LogicalResults := by
  intro s r sd t
  simp only [← State.regOrMz_eq]
  exact ⟨registerResult_of_put (exec_rxor s r sd t), registerResult_of_put (exec_rand s r sd t),
    registerResult_of_put (exec_rior s r sd t)⟩

/-- Settles O26: nine instructions end in `State.put`, the 64-bit one, #BE, in `State.put64`. -/
theorem transmitResults : Obligations.TransmitResults := fun s r sd t im jm =>
  ⟨registerResult_of_put (exec_elen s r im), registerResult_of_put (exec_ltol s r t),
    registerResult_of_put (exec_es s r im), registerResult_of_put (exec_addx s r sd t),
    registerResult_of_put (exec_subx s r sd t), registerResult_of_put (exec_rtor s r t),
    registerResult_of_put (exec_exp s r t), registerResult_of_put (exec_pack s r sd t),
    registerResult_of_put (exec_ltor s r t), registerResult_of_put64 (exec_ex s r jm)⟩

end Sys2Proof.Machine
end

