-- ==== Sys2Proof/Proofs/Codec.lean ====
section
/-! PROOFS. Decoder and encoder are inverse to each other on well-formed instructions (spec/30_encoding.md). -/

-- One declaration at a time, as in the tests: many at once need a thread each.
set_option Elab.async false

namespace Sys2Proof

open Machine

/-! ### Immediates, and the fields that select among the rows of one function code -/

theorem imm16_bytes (v : BitVec 16) : imm16 (v.extractLsb' 8 8) (v.extractLsb' 0 8) = v := by
  unfold imm16
  rw [BitVec.extractLsb'_append_extractLsb'_eq_extractLsb' (by rfl)]
  simp

theorem imm24_bytes (v : BitVec 24) :
    imm24 (v.extractLsb' 16 8) (v.extractLsb' 8 8) (v.extractLsb' 0 8) = v := by
  unfold imm24
  iterate 2 rw [BitVec.extractLsb'_append_extractLsb'_eq_extractLsb' (by rfl)]
  simp

theorem imm48_bytes (v : BitVec 48) : imm48 (v.extractLsb' 40 8) (v.extractLsb' 32 8) (v.extractLsb' 24 8)
    (v.extractLsb' 16 8) (v.extractLsb' 8 8) (v.extractLsb' 0 8) = v := by
  unfold imm48
  iterate 5 rw [BitVec.extractLsb'_append_extractLsb'_eq_extractLsb' (by rfl)]
  simp

/-- The last byte of a joined immediate. -/
theorem append_last {n : Nat} (u : BitVec n) (v : Byte) : (u ++ v).extractLsb' 0 8 = v := by
  apply BitVec.eq_of_getLsbD_eq
  intro i hi
  simp [BitVec.getLsbD_append, hi]

/-- A byte before the last one of a joined immediate. -/
theorem append_before {n : Nat} (u : BitVec n) (v : Byte) (k : Nat) :
    (u ++ v).extractLsb' (k + 8) 8 = u.extractLsb' k 8 := by
  ext i hi
  simp [BitVec.getLsbD_append, show k + 8 + i - 8 = k + i by omega, show ¬ k + 8 + i < 8 by omega]

theorem bytes16_imm16 (a b : Byte) : bytes16 (imm16 a b) = [a, b] := by
  simp [bytes16, imm16, append_last, append_before _ _ 0]

theorem bytes24_imm24 (a b c : Byte) : bytes24 (imm24 a b c) = [a, b, c] := by
  simp [bytes24, imm24, append_last, append_before _ _ 0, append_before _ _ 8]

theorem bytes48_imm48 (a b c d e f : Byte) : bytes48 (imm48 a b c d e f) = [a, b, c, d, e, f] := by
  simp [bytes48, imm48, append_last, append_before _ _ 0, append_before _ _ 8, append_before _ _ 16, append_before _ _ 24,
    append_before _ _ 32]

/-- The bit number of #33 fills a byte whose two left-most bits are zero. -/
theorem setWidth_bitNumber : ∀ v : Byte, fixedBits v 0xC0 0 = true → (v.extractLsb' 0 6).setWidth 8 = v := by decide

theorem bitNumber_byte : ∀ v : BitVec 6, (v.setWidth 8).extractLsb' 0 6 = v := by decide

theorem bitNumber_clean : ∀ v : BitVec 6, fixedBits (v.setWidth 8) 0xC0 0 = true := by decide

/-- The operation of #9D is the right-most three bits of G. -/
theorem operation_of_fixedBits {g v : Byte} (h : fixedBits g 0x07 v = true) : g.toNat % 8 = v.toNat := by
  rw [← eq_of_beq h, BitVec.toNat_and]
  exact (Nat.and_two_pow_sub_one_eq_mod g.toNat 3).symm

/-- The form of #B0 to #B5 is bits 1 and 2 of G. -/
theorem form_eq (g : Byte) : g.toNat / 32 % 4 = (g &&& 0x60).toNat / 32 := by
  revert g
  decide

theorem form_of_fixedBits {g mask v : Byte} (h : fixedBits g mask v = true) (hm : mask &&& 0x60 = 0x60) :
    g.toNat / 32 % 4 = (v &&& 0x60).toNat / 32 := by
  rw [form_eq, ← eq_of_beq h, BitVec.and_assoc, hm]

/-! ### The decoder at the end of a table row -/

theorem decoded_of_eq {i j : Instr} {clean : Bool} (h : i = j) (hc : clean = true) : decoded i clean = .ok ⟨j, true⟩ := by
  rw [h, hc]
  rfl

theorem decoded_clean {i : Instr} {clean : Bool} (hc : clean = true) : decoded i clean = .ok ⟨i, true⟩ :=
  decoded_of_eq rfl hc

theorem decoded_eq_ok {i j : Instr} {clean : Bool} : decoded i clean = .ok ⟨j, true⟩ ↔ i = j ∧ clean = true := by
  simp [decoded]

/-! ### Decoding what was encoded -/

/-- R100 to R124, an instruction for each row of the table. -/
theorem decode_encode (i : Instr) (rest : List Byte) (h : i.wf = true) : decode (encode i ++ rest) = .ok ⟨i, true⟩ := by
  cases i with
  | elen r im => exact decoded_of_eq (congrArg (Instr.elen r) (imm16_bytes im)) rfl
  | es r im => exact decoded_of_eq (congrArg (Instr.es r) (imm16_bytes im)) rfl
  | is r im => exact decoded_of_eq (congrArg (Instr.is r) (imm16_bytes im)) rfl
  | esh r im => exact decoded_of_eq (congrArg (Instr.esh r) (imm16_bytes im)) rfl
  | ish r im => exact decoded_of_eq (congrArg (Instr.ish r) (imm16_bytes im)) rfl
  | bim r im => exact decoded_of_eq (congrArg (Instr.bim r) (imm48_bytes im)) rfl
  | ex r im => exact decoded_of_eq (congrArg (Instr.ex r) (imm48_bytes im)) rfl
  | ix r im => exact decoded_of_eq (congrArg (Instr.ix r) (imm48_bytes im)) rfl
  | exh r im => exact decoded_of_eq (congrArg (Instr.exh r) (imm24_bytes im)) rfl
  | ixh r im => exact decoded_of_eq (congrArg (Instr.ixh r) (imm24_bytes im)) rfl
  | badf g im t =>
    have hc : (fixedBits g 0x09 0 && fixedBits (im.setWidth 8) 0xC0 0) = true := by
      rw [bitNumber_clean, Bool.and_true]
      exact h
    exact decoded_of_eq (congrArg (Instr.badf g · t) (bitNumber_byte im)) hc
  | xorv | andv | iorv | nandv | norv | ornv | andnv | xornv =>
    show decode9 13 0x9D _ _ _ _ _ _ _ = _
    unfold decode9
    rw [operation_of_fixedBits h]
    exact decoded_clean h
  | ibxeqBr | ibxeqSc | cfpeqBr | cfpeqSc =>
    show decodeB 0 0xB0 _ _ _ _ _ _ _ = _
    unfold decodeB
    rw [form_of_fixedBits h (by decide)]
    exact decoded_clean (by first | exact h | (simp only [beq_self_eq_true, Bool.and_true]; exact h))
  | ibxneBr | ibxneSc | cfpneBr | cfpneSc =>
    show decodeB 1 0xB1 _ _ _ _ _ _ _ = _
    unfold decodeB
    rw [form_of_fixedBits h (by decide)]
    exact decoded_clean (by first | exact h | (simp only [beq_self_eq_true, Bool.and_true]; exact h))
  | ibxgeBr | ibxgeSc | cfpgeBr | cfpgeSc =>
    show decodeB 2 0xB2 _ _ _ _ _ _ _ = _
    unfold decodeB
    rw [form_of_fixedBits h (by decide)]
    exact decoded_clean (by first | exact h | (simp only [beq_self_eq_true, Bool.and_true]; exact h))
  | ibxltBr | ibxltSc | cfpltBr | cfpltSc =>
    show decodeB 3 0xB3 _ _ _ _ _ _ _ = _
    unfold decodeB
    rw [form_of_fixedBits h (by decide)]
    exact decoded_clean (by first | exact h | (simp only [beq_self_eq_true, Bool.and_true]; exact h))
  | ibxleBr | ibxleSc | cfpleBr | cfpleSc =>
    show decodeB 4 0xB4 _ _ _ _ _ _ _ = _
    unfold decodeB
    rw [form_of_fixedBits h (by decide)]
    exact decoded_clean (by first | exact h | (simp only [beq_self_eq_true, Bool.and_true]; exact h))
  | ibxgtBr | ibxgtSc | cfpgtBr | cfpgtSc =>
    show decodeB 5 0xB5 _ _ _ _ _ _ _ = _
    unfold decodeB
    rw [form_of_fixedBits h (by decide)]
    exact decoded_clean (by first | exact h | (simp only [beq_self_eq_true, Bool.and_true]; exact h))
  | _ => exact decoded_clean (by first | exact h | (simp only [beq_self_eq_true, Bool.and_true]; exact h))

/-- Settles O1. -/
theorem decodeOfEncode : Obligations.DecodeOfEncode := decode_encode

/-! ### Encoding what was decoded -/

/-- What is claimed of each row: an instruction read without an unused bit set is well-formed, and its bytes are those
it was read from. -/
def Encodes (i : Instr) (bytes : List Byte) : Prop := i.wf = true ∧ encode i = bytes

/-- The rows with an immediate. -/
theorem encodes_imm16 {i : Instr} {f r a b : Byte} (hw : i.wf = true) (h : encode i = [f, r] ++ bytes16 (imm16 a b)) :
    Encodes i [f, r, a, b] := by
  rw [bytes16_imm16] at h
  exact ⟨hw, h⟩

theorem encodes_imm24 {i : Instr} {l : List Byte} {a b c : Byte} (hw : i.wf = true)
    (h : encode i = l ++ bytes24 (imm24 a b c)) : Encodes i (l ++ [a, b, c]) := by
  rw [bytes24_imm24] at h
  exact ⟨hw, h⟩

theorem encodes_imm48 {i : Instr} {f r a b c d e g : Byte} (hw : i.wf = true)
    (h : encode i = [f, r] ++ bytes48 (imm48 a b c d e g)) : Encodes i [f, r, a, b, c, d, e, g] := by
  rw [bytes48_imm48] at h
  exact ⟨hw, h⟩

theorem encodes_badf {g n t : Byte} (h : fixedBits g 0x09 0 = true ∧ fixedBits n 0xC0 0 = true) :
    Encodes (.badf g (n.extractLsb' 0 6) t) [0x33, g, n, t] :=
  ⟨h.1, congrArg ([0x33, g, ·, t]) (setWidth_bitNumber n h.2)⟩

theorem encodes_of_decode0 {low : Nat} {f r sd t : Byte} {i : Instr} (h : decode0 low f r sd t = .ok ⟨i, true⟩) :
    Encodes i [BitVec.ofNat 8 (0x00 + low), r, sd, t] := by
  unfold decode0 at h
  split at h
  all_goals
    simp only [decoded_eq_ok, reduceCtorEq, Bool.and_eq_true, beq_iff_eq, and_assoc] at h
  all_goals
    obtain ⟨rfl, hc⟩ := h
    try simp_all only
    first | exact ⟨rfl, rfl⟩ | exact ⟨hc, rfl⟩ | exact ⟨hc.1, rfl⟩

theorem encodes_of_decode1 {low : Nat} {f r sd t : Byte} {i : Instr} (h : decode1 low f r sd t = .ok ⟨i, true⟩) :
    Encodes i [BitVec.ofNat 8 (0x10 + low), r, sd, t] := by
  unfold decode1 at h
  split at h
  all_goals
    simp only [decoded_eq_ok, reduceCtorEq, Bool.and_eq_true, beq_iff_eq, and_assoc] at h
  all_goals
    obtain ⟨rfl, hc⟩ := h
    try simp_all only
    exact ⟨rfl, rfl⟩

theorem encodes_of_decode2 {low : Nat} {f r sd t : Byte} {i : Instr} (h : decode2 low f r sd t = .ok ⟨i, true⟩) :
    Encodes i [BitVec.ofNat 8 (0x20 + low), r, sd, t] := by
  unfold decode2 at h
  split at h
  all_goals
    simp only [decoded_eq_ok, reduceCtorEq, Bool.and_eq_true, beq_iff_eq] at h
  all_goals
    obtain ⟨rfl, hc⟩ := h
    try simp_all only
    first | exact ⟨rfl, rfl⟩ | exact ⟨hc, rfl⟩ | exact ⟨hc.1, rfl⟩ | exact encodes_imm16 rfl rfl

theorem encodes_of_decode3 {low : Nat} {f r sd t : Byte} {i : Instr} (h : decode3 low f r sd t = .ok ⟨i, true⟩) :
    Encodes i [BitVec.ofNat 8 (0x30 + low), r, sd, t] := by
  unfold decode3 at h
  split at h
  all_goals
    simp only [decoded_eq_ok, reduceCtorEq, Bool.and_eq_true, beq_iff_eq] at h
  all_goals
    obtain ⟨rfl, hc⟩ := h
    try simp_all only
    first | exact ⟨rfl, rfl⟩ | exact ⟨hc, rfl⟩ | exact ⟨hc.1, rfl⟩ | exact encodes_imm16 rfl rfl | exact encodes_badf hc

theorem encodes_of_decode4 {low : Nat} {f r sd t : Byte} {i : Instr} (h : decode4 low f r sd t = .ok ⟨i, true⟩) :
    Encodes i [BitVec.ofNat 8 (0x40 + low), r, sd, t] := by
  unfold decode4 at h
  split at h
  all_goals
    simp only [decoded_eq_ok, reduceCtorEq] at h
  all_goals
    obtain ⟨rfl, hc⟩ := h
    try simp_all only
    first | exact ⟨rfl, rfl⟩ | exact ⟨hc, rfl⟩ | exact ⟨hc.1, rfl⟩ | exact encodes_imm16 rfl rfl

theorem encodes_of_decode5 {low : Nat} {f r sd t : Byte} {i : Instr} (h : decode5 low f r sd t = .ok ⟨i, true⟩) :
    Encodes i [BitVec.ofNat 8 (0x50 + low), r, sd, t] := by
  unfold decode5 at h
  split at h
  all_goals
    simp only [decoded_eq_ok, reduceCtorEq, Bool.and_eq_true, beq_iff_eq, and_assoc] at h
  all_goals
    obtain ⟨rfl, hc⟩ := h
    try simp_all only
    first | exact ⟨rfl, rfl⟩ | exact ⟨hc, rfl⟩ | exact ⟨hc.1, rfl⟩

theorem encodes_of_decode6 {low : Nat} {f r sd t : Byte} {i : Instr} (h : decode6 low f r sd t = .ok ⟨i, true⟩) :
    Encodes i [BitVec.ofNat 8 (0x60 + low), r, sd, t] := by
  unfold decode6 at h
  split at h
  all_goals
    simp only [decoded_eq_ok, reduceCtorEq] at h
  all_goals
    obtain ⟨rfl, hc⟩ := h
    try simp_all only
    exact ⟨rfl, rfl⟩

theorem encodes_of_decode7 {low : Nat} {f r sd t : Byte} {i : Instr} (h : decode7 low f r sd t = .ok ⟨i, true⟩) :
    Encodes i [BitVec.ofNat 8 (0x70 + low), r, sd, t] := by
  unfold decode7 at h
  split at h
  all_goals
    simp only [decoded_eq_ok, reduceCtorEq, beq_iff_eq] at h
  all_goals
    obtain ⟨rfl, hc⟩ := h
    try simp_all only
    exact ⟨rfl, rfl⟩

theorem encodes_of_decode8 {low : Nat} {f g x a y b z c : Byte} {i : Instr}
    (h : decode8 low f g x a y b z c = .ok ⟨i, true⟩) :
    Encodes i [BitVec.ofNat 8 (0x80 + low), g, x, a, y, b, z, c] := by
  unfold decode8 at h
  split at h
  all_goals
    simp only [decoded_eq_ok, reduceCtorEq] at h
  all_goals
    obtain ⟨rfl, hc⟩ := h
    try simp_all only
    first | exact ⟨rfl, rfl⟩ | exact ⟨hc, rfl⟩

theorem encodes_of_decode9 {low : Nat} {f g x a y b z c : Byte} {i : Instr}
    (h : decode9 low f g x a y b z c = .ok ⟨i, true⟩) :
    Encodes i [BitVec.ofNat 8 (0x90 + low), g, x, a, y, b, z, c] := by
  unfold decode9 at h
  repeat' split at h
  all_goals
    simp only [decoded_eq_ok, reduceCtorEq, Bool.and_eq_true, beq_iff_eq, and_assoc] at h
  all_goals
    obtain ⟨rfl, hc⟩ := h
    try simp_all only
    first | exact ⟨rfl, rfl⟩ | exact ⟨hc, rfl⟩ | exact ⟨hc.1, rfl⟩

theorem encodes_of_decodeA {low : Nat} {f g x a y b z c : Byte} {i : Instr}
    (h : decodeA low f g x a y b z c = .ok ⟨i, true⟩) :
    Encodes i [BitVec.ofNat 8 (0xA0 + low), g, x, a, y, b, z, c] := by
  unfold decodeA at h
  split at h
  all_goals
    simp only [decoded_eq_ok, reduceCtorEq] at h
  all_goals
    obtain ⟨rfl, hc⟩ := h
    try simp_all only
    exact ⟨rfl, rfl⟩

theorem encodes_of_decodeB {low : Nat} {f g x a y b z c : Byte} {i : Instr}
    (h : decodeB low f g x a y b z c = .ok ⟨i, true⟩) :
    Encodes i [BitVec.ofNat 8 (0xB0 + low), g, x, a, y, b, z, c] := by
  unfold decodeB at h
  repeat' split at h
  all_goals
    simp only [decoded_eq_ok, reduceCtorEq, Bool.and_eq_true, beq_iff_eq, and_assoc] at h
  all_goals
    obtain ⟨rfl, hc⟩ := h
    try simp_all only
    first | exact ⟨rfl, rfl⟩ | exact ⟨hc, rfl⟩ | exact ⟨hc.1, rfl⟩ | exact encodes_imm48 rfl rfl

theorem encodes_of_decodeC {low : Nat} {f g x a y b z c : Byte} {i : Instr}
    (h : decodeC low f g x a y b z c = .ok ⟨i, true⟩) :
    Encodes i [BitVec.ofNat 8 (0xC0 + low), g, x, a, y, b, z, c] := by
  unfold decodeC at h
  split at h
  all_goals
    simp only [decoded_eq_ok, reduceCtorEq, Bool.and_eq_true, beq_iff_eq, and_assoc] at h
  all_goals
    obtain ⟨rfl, hc⟩ := h
    try simp_all only
    first | exact ⟨rfl, rfl⟩ | exact ⟨hc, rfl⟩ | exact ⟨hc.1, rfl⟩ | exact encodes_imm24 (l := [_, g, 0, 0, 0]) rfl rfl

theorem encodes_of_decodeD {low : Nat} {f g x a y b z c : Byte} {i : Instr}
    (h : decodeD low f g x a y b z c = .ok ⟨i, true⟩) :
    Encodes i [BitVec.ofNat 8 (0xD0 + low), g, x, a, y, b, z, c] := by
  unfold decodeD at h
  split at h
  all_goals
    simp only [decoded_eq_ok, reduceCtorEq, Bool.and_eq_true, beq_iff_eq, and_assoc] at h
  all_goals
    obtain ⟨rfl, hc⟩ := h
    try simp_all only
    first | exact ⟨rfl, rfl⟩ | exact ⟨hc, rfl⟩ | exact ⟨hc.1, rfl⟩

theorem encodes_of_decodeF {low : Nat} {f g x a y b z c : Byte} {i : Instr}
    (h : decodeF low f g x a y b z c = .ok ⟨i, true⟩) :
    Encodes i [BitVec.ofNat 8 (0xF0 + low), g, x, a, y, b, z, c] := by
  unfold decodeF at h
  split at h
  all_goals
    simp only [decoded_eq_ok, reduceCtorEq, Bool.and_eq_true, beq_iff_eq, and_assoc] at h
  all_goals
    obtain ⟨rfl, hc⟩ := h
    try simp_all only
    first | exact ⟨rfl, rfl⟩ | exact ⟨hc, rfl⟩ | exact ⟨hc.1, rfl⟩

/-- A function code is its two digits. -/
theorem code_of_digits {f : Byte} {high : Nat} (h : f.toNat / 16 = high) : BitVec.ofNat 8 (16 * high + f.toNat % 16) = f := by
  apply BitVec.eq_of_toNat_eq
  rw [BitVec.toNat_ofNat]
  omega

theorem encodes_of_decode32 {f r sd t : Byte} {i : Instr} (hf : f.toNat < 0x80) (h : decode32 f r sd t = .ok ⟨i, true⟩) :
    Encodes i [f, r, sd, t] := by
  unfold decode32 at h
  split at h
  · next k => exact code_of_digits k ▸ encodes_of_decode0 h
  · next k => exact code_of_digits k ▸ encodes_of_decode1 h
  · next k => exact code_of_digits k ▸ encodes_of_decode2 h
  · next k => exact code_of_digits k ▸ encodes_of_decode3 h
  · next k => exact code_of_digits k ▸ encodes_of_decode4 h
  · next k => exact code_of_digits k ▸ encodes_of_decode5 h
  · next k => exact code_of_digits k ▸ encodes_of_decode6 h
  · exact code_of_digits (f := f) (high := 7) (by simp only [imp_false] at *; omega) ▸ encodes_of_decode7 h

theorem encodes_of_decode64 {f g x a y b z c : Byte} {i : Instr} (hf : ¬ f.toNat < 0x80)
    (h : decode64 f g x a y b z c = .ok ⟨i, true⟩) : Encodes i [f, g, x, a, y, b, z, c] := by
  unfold decode64 at h
  split at h
  · next k => exact code_of_digits k ▸ encodes_of_decode8 h
  · next k => exact code_of_digits k ▸ encodes_of_decode9 h
  · next k => exact code_of_digits k ▸ encodes_of_decodeA h
  · next k => exact code_of_digits k ▸ encodes_of_decodeB h
  · next k => exact code_of_digits k ▸ encodes_of_decodeC h
  · next k => exact code_of_digits k ▸ encodes_of_decodeD h
  · cases h
  · exact code_of_digits (f := f) (high := 15) (by simp only [imp_false] at *; omega) ▸ encodes_of_decodeF h

theorem encode_decode {bytes : List Byte} {i : Instr} (h : decode bytes = .ok ⟨i, true⟩) :
    i.wf = true ∧ encode i = bytes.take (encode i).length := by
  unfold decode at h
  split at h
  · next f r sd t rest =>
    split at h
    · next hf =>
      obtain ⟨hw, he⟩ := encodes_of_decode32 hf h
      exact ⟨hw, by rw [he]; rfl⟩
    · next hf =>
      split at h
      · obtain ⟨hw, he⟩ := encodes_of_decode64 hf h
        exact ⟨hw, by rw [he]; rfl⟩
      · cases h
  · cases h

/-- Settles O2: table by table. -/
theorem encodeOfDecode : Obligations.EncodeOfDecode := fun _ _ => encode_decode

/-! ### The unused function codes -/

/-- #9D and #B0 to #B5 have a row for every value of the bits that select one. -/
theorem decode_operation (g x a y b z c : Byte) (rest : List Byte) :
    ∃ d, decode (0x9D :: g :: x :: a :: y :: b :: z :: c :: rest) = .ok d := by
  show ∃ d, decode9 13 0x9D g x a y b z c = .ok d
  unfold decode9
  simp only
  split <;> exact ⟨_, rfl⟩

theorem decode_form {f : Byte} (h : 0xB0 ≤ f.toNat ∧ f.toNat < 0xB6) (g x a y b z c : Byte) (rest : List Byte) :
    ∃ d, decode (f :: g :: x :: a :: y :: b :: z :: c :: rest) = .ok d := by
  have hd : decode (f :: g :: x :: a :: y :: b :: z :: c :: rest) = decodeB (f.toNat - 0xB0) f g x a y b z c := by
    simp only [decode, decode64, if_neg (show ¬ f.toNat < 0x80 by omega), show f.toNat / 16 = 11 by omega,
      show f.toNat % 16 = f.toNat - 0xB0 by omega]
  rw [hd]
  have hl : f.toNat - 0xB0 < 6 := by omega
  generalize f.toNat - 0xB0 = low at hl
  unfold decodeB
  rcases (by omega : low = 0 ∨ low = 1 ∨ low = 2 ∨ low = 3 ∨ low = 4 ∨ low = 5) with rfl | rfl | rfl | rfl | rfl | rfl
  all_goals
    simp only
    split <;> exact ⟨_, rfl⟩

/-- The codes whose row depends on bits of G. -/
def codesByG : List Nat := [0x9D, 0xB0, 0xB1, 0xB2, 0xB3, 0xB4, 0xB5]

/-- What R125 says of the answer for function code `n`. -/
def answersCode (n : Nat) (answer : Decode) : Bool :=
  match answer with
  | .error (.unusedCode f) => unusedCodes.contains n && f == BitVec.ofNat 8 n
  | .error _ => false
  | .ok _ => !unusedCodes.contains n

/-- R125, one function code after the other, but for those whose row depends on G. -/
theorem answersCode_all (r sd t y b z c : Byte) (rest : List Byte) :
    (List.range 16).all (fun high => (List.range 16).all fun low => codesByG.contains (16 * high + low) ||
      answersCode (16 * high + low)
        (decode (BitVec.ofNat 8 (16 * high + low) :: r :: sd :: t :: y :: b :: z :: c :: rest))) = true := rfl

theorem unusedCodes_disjoint : ∀ n ∈ unusedCodes, n ∉ codesByG := by decide

theorem decode_code (f r sd t y b z c : Byte) (rest : List Byte) :
    (f.toNat ∈ unusedCodes → decode (f :: r :: sd :: t :: y :: b :: z :: c :: rest) = .error (.unusedCode f)) ∧
    (f.toNat ∉ unusedCodes → ∃ d, decode (f :: r :: sd :: t :: y :: b :: z :: c :: rest) = .ok d) := by
  have hd := List.all_eq_true.mp (answersCode_all r sd t y b z c rest) (f.toNat / 16) (List.mem_range.mpr (by omega))
  have h := List.all_eq_true.mp hd (f.toNat % 16) (List.mem_range.mpr (by omega))
  rw [Nat.div_add_mod, BitVec.ofNat_toNat, BitVec.setWidth_eq, Bool.or_eq_true, List.contains_iff_mem] at h
  rcases h with h | h
  · have hok : ∃ d, decode (f :: r :: sd :: t :: y :: b :: z :: c :: rest) = .ok d := by
      by_cases h9 : f.toNat = 0x9D
      · obtain rfl : f = 0x9D := BitVec.eq_of_toNat_eq h9
        exact decode_operation ..
      · exact decode_form (by simp only [codesByG, List.mem_cons, List.not_mem_nil, or_false] at h; omega) ..
    exact ⟨fun hu => absurd h (unusedCodes_disjoint _ hu), fun _ => hok⟩
  · unfold answersCode at h
    split at h
    · next g hd =>
      rw [Bool.and_eq_true, List.contains_iff_mem, beq_iff_eq, BitVec.ofNat_toNat, BitVec.setWidth_eq] at h
      exact ⟨fun _ => h.2 ▸ hd, fun hn => absurd h.1 hn⟩
    · cases h
    · next d hd =>
      rw [Bool.not_eq_true', ← Bool.not_eq_true, List.contains_iff_mem] at h
      exact ⟨fun hu => absurd hu h, fun _ => ⟨d, hd⟩⟩

/-- Settles O3. -/
theorem unusedCodesRefused : Obligations.UnusedCodesRefused := by
  intro f rest h
  match rest, h with
  | r :: sd :: t :: y :: b :: z :: c :: rest, _ => exact decode_code f r sd t y b z c rest

/-- Settles O4. -/
theorem sampleWords : Obligations.SampleWords := ⟨rfl, rfl, rfl, rfl⟩

end Sys2Proof
end

