-- ==== Sys2Proof/Proofs/Flags.lean ====
section
/-! PROOFS. The Data Flag Register: what recomputing its derived bits does, bit by bit (spec/10_state.md R22). -/

-- One declaration at a time, as in the tests: many at once need a thread each.
set_option Elab.async false

namespace Sys2Proof.Machine

/-! ### Bits of words -/

theorem bitAt_and {w : Nat} (x y : BitVec w) (k : Nat) : bitAt (x &&& y) k = (bitAt x k && bitAt y k) := BitVec.getMsbD_and

theorem bitAt_or {w : Nat} (x y : BitVec w) (k : Nat) : bitAt (x ||| y) k = (bitAt x k || bitAt y k) := BitVec.getMsbD_or

theorem bitAt_not {w : Nat} (x : BitVec w) {k : Nat} (hk : k < w) : bitAt (~~~x) k = !bitAt x k := by
  unfold bitAt
  simp [hk]

theorem bitAt_shiftLeft {w : Nat} (x : BitVec w) (n k : Nat) : bitAt (x <<< n) k = bitAt x (k + n) :=
  BitVec.getMsbD_shiftLeft x n

@[simp] theorem bitAt_zero {w : Nat} (k : Nat) : bitAt (0 : BitVec w) k = false := BitVec.getMsbD_zero

theorem eq_of_bitAt {w : Nat} {x y : BitVec w} (h : ∀ k, k < w → bitAt x k = bitAt y k) : x = y :=
  BitVec.eq_of_getMsbD_eq h

theorem bitAt_setBitAt_self {w : Nat} (x : BitVec w) {i : Nat} (v : Bool) (hi : i < w) : bitAt (setBitAt x i v) i = v := by
  rw [bitAt_setBitAt x i i v hi hi, if_pos rfl]

theorem bitAt_setBitAt_ne {w : Nat} (x : BitVec w) {i k : Nat} (v : Bool) (hi : i < w) (hk : k < w) (h : k ≠ i) :
    bitAt (setBitAt x i v) k = bitAt x k := by
  rw [bitAt_setBitAt x i k v hi hk, if_neg h]

/-! ### The derived bits -/

theorem bitAt_productMask : ∀ k, k < 64 → bitAt productMask k = decide (3 ≤ k ∧ k ≤ 15) := by decide

theorem bitAt_deriveSums (x : Word) {k : Nat} (hk : k < 64) : bitAt (deriveSums x) k =
    if k = 44 then bitAt x 41 || bitAt x 42 || bitAt x 43
    else if k = 40 then bitAt x 37 || bitAt x 38 || bitAt x 39 else bitAt x k := by
  unfold deriveSums
  have sum (j : Nat) (hj : j < 64) (hne : j ≠ 40) (v : Bool) : bitAt (setBitAt x 40 v) j = bitAt x j :=
    bitAt_setBitAt_ne x v (by omega) hj hne
  simp only
  rw [bitAt_setBitAt _ 44 k _ (by omega) hk, sum 41 (by omega) (by omega), sum 42 (by omega) (by omega),
    sum 43 (by omega) (by omega), bitAt_setBitAt x 40 k _ (by omega) hk]

theorem bitAt_products (x : Word) {k : Nat} (hk : k < 64) :
    bitAt (products x) k = (decide (3 ≤ k ∧ k ≤ 15) && (bitAt x (k + 16) && bitAt x (k + 32))) := by
  unfold products
  rw [bitAt_and, bitAt_and, bitAt_shiftLeft, bitAt_shiftLeft, bitAt_productMask k hk, Bool.and_comm]

/-- A bit of the register with its derived bits recomputed, but for bit 51. -/
theorem bitAt_deriveDfr (x : Word) {k : Nat} (hk : k < 64) (h51 : k ≠ 51) : bitAt (deriveDfr x) k =
    if 3 ≤ k ∧ k ≤ 15 then bitAt (deriveSums x) (k + 16) && bitAt (deriveSums x) (k + 32) else bitAt (deriveSums x) k := by
  unfold deriveDfr
  simp only
  rw [bitAt_setBitAt_ne _ _ (by omega) hk h51, bitAt_or, bitAt_and, bitAt_not _ hk, bitAt_productMask k hk,
    bitAt_products _ hk]
  by_cases hp : 3 ≤ k ∧ k ≤ 15
  · simp [hp]
  · simp [hp]

theorem bitAt_deriveDfr_51 (x : Word) : bitAt (deriveDfr x) 51 = (products (deriveSums x) != 0) :=
  bitAt_setBitAt_self _ _ (by omega)

theorem mem_derivedBits {k : Nat} : k ∈ derivedBits ↔ (3 ≤ k ∧ k ≤ 15) ∨ k = 40 ∨ k = 44 ∨ k = 51 := by
  simp only [derivedBits, List.mem_cons, List.not_mem_nil, or_false]
  omega

/-- A bit that is not derived is kept. -/
theorem bitAt_deriveDfr_stored (x : Word) {k : Nat} (hk : k < 64) (hd : k ∉ derivedBits) :
    bitAt (deriveDfr x) k = bitAt x k := by
  simp only [mem_derivedBits] at hd
  rw [bitAt_deriveDfr x hk (by omega), if_neg (by omega), bitAt_deriveSums x hk, if_neg (by omega), if_neg (by omega)]

/-- Bits 40 and 44 are the sums of the flags before them. -/
theorem bitAt_deriveDfr_40 (x : Word) : bitAt (deriveDfr x) 40 = (bitAt x 37 || bitAt x 38 || bitAt x 39) := by
  rw [bitAt_deriveDfr x (by omega) (by omega), if_neg (by omega), bitAt_deriveSums x (by omega), if_neg (by omega), if_pos rfl]

theorem bitAt_deriveDfr_44 (x : Word) : bitAt (deriveDfr x) 44 = (bitAt x 41 || bitAt x 42 || bitAt x 43) := by
  rw [bitAt_deriveDfr x (by omega) (by omega), if_neg (by omega), bitAt_deriveSums x (by omega), if_pos rfl]

/-- Outside the products and bit 51 the register is the one with bits 40 and 44 recomputed. -/
theorem bitAt_deriveDfr_sums (x : Word) {k : Nat} (hk : k < 64) (h51 : k ≠ 51) (hp : ¬ (3 ≤ k ∧ k ≤ 15)) :
    bitAt (deriveDfr x) k = bitAt (deriveSums x) k := by
  rw [bitAt_deriveDfr x hk h51, if_neg hp]

/-- A product bit is the product of a data flag and its mask bit, as the register then holds them. -/
theorem bitAt_deriveDfr_product (x : Word) {k : Nat} (hp : 3 ≤ k ∧ k ≤ 15) :
    bitAt (deriveDfr x) k = (bitAt (deriveDfr x) (k + 16) && bitAt (deriveDfr x) (k + 32)) := by
  rw [bitAt_deriveDfr x (by omega) (by omega), if_pos hp, bitAt_deriveDfr_sums x (k := k + 16) (by omega) (by omega) (by omega),
    bitAt_deriveDfr_sums x (k := k + 32) (by omega) (by omega) (by omega)]

theorem bitAt_products_deriveSums (x : Word) {k : Nat} (hp : 3 ≤ k ∧ k ≤ 15) :
    bitAt (products (deriveSums x)) k = bitAt (deriveDfr x) k := by
  rw [bitAt_products _ (by omega), bitAt_deriveDfr x (by omega) (by omega), if_pos hp]
  simp [hp]

/-- Bit 51 is the sum of the product bits. -/
theorem bitAt_deriveDfr_51_iff (x : Word) : bitAt (deriveDfr x) 51 = true ↔ ∃ k, 3 ≤ k ∧ k ≤ 15 ∧ bitAt (deriveDfr x) k = true := by
  rw [bitAt_deriveDfr_51, bne_iff_ne]
  constructor
  · intro hne
    refine Classical.byContradiction fun hno => ?_
    refine hne (eq_of_bitAt fun k hk => ?_)
    rw [bitAt_zero]
    by_cases hp : 3 ≤ k ∧ k ≤ 15
    · rw [bitAt_products_deriveSums x hp]
      exact Bool.eq_false_iff.mpr fun ht => hno ⟨k, hp.1, hp.2, ht⟩
    · rw [bitAt_products _ hk]
      simp [hp]
  · rintro ⟨k, h3, h15, ht⟩ he
    rw [← bitAt_products_deriveSums x ⟨h3, h15⟩, he, bitAt_zero] at ht
    exact Bool.noConfusion ht

/-- Two words with the same stored bits have the same derived register. -/
theorem deriveDfr_congr {x y : Word} (h : ∀ k, k < 64 → k ∉ derivedBits → bitAt x k = bitAt y k) : deriveDfr x = deriveDfr y := by
  have stored (k : Nat) (hk : k < 64) (hd : ¬ ((3 ≤ k ∧ k ≤ 15) ∨ k = 40 ∨ k = 44 ∨ k = 51)) : bitAt x k = bitAt y k :=
    h k hk (by rwa [mem_derivedBits])
  have sums (k : Nat) (hk : k < 64) (h51 : k ≠ 51) (hp : ¬ (3 ≤ k ∧ k ≤ 15)) :
      bitAt (deriveSums x) k = bitAt (deriveSums y) k := by
    rw [bitAt_deriveSums x hk, bitAt_deriveSums y hk]
    split
    · rw [stored 41 (by omega) (by omega), stored 42 (by omega) (by omega), stored 43 (by omega) (by omega)]
    split
    · rw [stored 37 (by omega) (by omega), stored 38 (by omega) (by omega), stored 39 (by omega) (by omega)]
    · exact stored k hk (by omega)
  have derived (k : Nat) (hk : k < 64) (h51 : k ≠ 51) : bitAt (deriveDfr x) k = bitAt (deriveDfr y) k := by
    rw [bitAt_deriveDfr x hk h51, bitAt_deriveDfr y hk h51]
    split
    · next hp => rw [sums _ (by omega) (by omega) (by omega), sums _ (by omega) (by omega) (by omega)]
    · next hp => exact sums k hk h51 hp
  refine eq_of_bitAt fun k hk => ?_
  by_cases h51 : k = 51
  · subst h51
    refine Bool.eq_iff_iff.mpr ((bitAt_deriveDfr_51_iff x).trans (Iff.trans ?_ (bitAt_deriveDfr_51_iff y).symm))
    refine exists_congr fun j => and_congr_right fun h3 => and_congr_right fun h15 => ?_
    rw [derived j (by omega) (by omega)]
  · exact derived k hk h51

/-- Recomputing the derived bits twice is recomputing them once. -/
@[simp] theorem deriveDfr_deriveDfr (x : Word) : deriveDfr (deriveDfr x) = deriveDfr x :=
  deriveDfr_congr fun _ hk hd => bitAt_deriveDfr_stored x hk hd

theorem bitAt_setFlag_stored (s : State) {i k : Nat} (v : Bool) (hi : i < 64) (hk : k < 64) (hd : k ∉ derivedBits) :
    bitAt (s.setFlag i v).dfr k = if k = i then v else bitAt s.dfr k := by
  rw [State.setFlag_dfr, bitAt_deriveDfr_stored _ hk hd, bitAt_setBitAt _ _ _ _ hi hk]

end Sys2Proof.Machine

namespace Sys2Proof
open Machine

/-- Settles O19, by the bit-by-bit description of `deriveDfr`. -/
theorem derivedFlags : Obligations.DerivedFlags := by
  intro x
  have kept (k : Nat) (hk : k < 64) (hd : k ∉ derivedBits) := bitAt_deriveDfr_stored x hk hd
  refine ⟨?_, ?_, fun k h3 h15 => bitAt_deriveDfr_product x ⟨h3, h15⟩, bitAt_deriveDfr_51_iff x, kept, ?_⟩
  · rw [bitAt_deriveDfr_40, kept 37 (by omega) (by decide), kept 38 (by omega) (by decide), kept 39 (by omega) (by decide)]
  · rw [bitAt_deriveDfr_44, kept 41 (by omega) (by decide), kept 42 (by omega) (by decide), kept 43 (by omega) (by decide)]
  · intro s i hi hd
    rw [bitAt_setFlag_stored s true hi hi hd, if_pos rfl]

end Sys2Proof
end

