-- ==== Sys2Proof/Proofs/Stores.lean ====
section
/-! PROOFS. What the shared operations leave of the state: each store, each compare and each flag as a new value of the few
fields that it changes (spec/20_memory.md R63 to R70, R93). -/

-- One declaration at a time, as in the tests: many at once need a thread each.
set_option Elab.async false

namespace Sys2Proof.Machine

theorem State.keepStale_eq (s : State) (k n : Nat) : s.keepStale k n = { s with stale := (s.keepStale k n).stale } := by
  unfold State.keepStale
  split <;> rfl

theorem State.putWord_eq (s : State) (p : Nat) (v : Word) : s.putWord p v =
    { s with mem := Memory.setWord s.mem (p / 8) v, stale := (s.keepStale (p / 32) 2).stale } := by
  unfold State.putWord
  rw [State.keepStale_eq]

theorem State.putHalf_eq (s : State) (p : Nat) (v : Half) : s.putHalf p v =
    { s with mem := Memory.setHalf s.mem (p / 8) v, stale := (s.keepStale (p / 32) 1).stale } := by
  unfold State.putHalf
  rw [State.keepStale_eq]

theorem State.putByte_eq (s : State) (p : Nat) (v : Byte) : s.putByte p v =
    { s with mem := Memory.setByte s.mem (p / 8) v, stale := (s.keepStale (p / 32) 1).stale } := by
  unfold State.putByte
  rw [State.keepStale_eq]

theorem State.pushDown_eq (s : State) (i : Nat) (w : Word) : s.pushDown i w =
    { s with
      ar := Vector.ofFn fun k => if k.val = 0 then w else if k.val ≤ i then s.ar[k.val - 1] else s.ar[k.val]
      mem := pushTable s.mem tableBase (i - 15) s.ar[15]
      stale := (s.keepStale (tableBase / 4) (2 * (i - 15))).stale } := by
  unfold State.pushDown
  rw [State.keepStale_eq]

theorem State.breakpoint_eq (s : State) (write : Bool) (a : Addr) : s.breakpoint write a =
    { s with dfr := (s.breakpoint write a).dfr } := by
  unfold State.breakpoint
  split <;> rfl

end Sys2Proof.Machine
end

