-- ==== Sys2Proof/Proofs/Closed.lean ====
section
/-! PROOFS. What every instruction keeps: a property of the state that withstands the shared operations (`Closed`) holds
of every next state that `exec` answers (spec/60_exceptions.md, all instruction chapters). -/

-- One declaration at a time, as in the tests: many at once need a thread each.
set_option Elab.async false

namespace Sys2Proof.Machine

/-! ### Keeping a property of the state -/

/-- The part of the state that the properties kept by every step speak about. -/
def State.core (s : State) : List Host.Cell × List Host.Cell × Addr × Word × Link × Bool × List (Nat × Half) × Wait × Mode :=
  (s.mem, s.cb, s.pc, s.dfr, s.link, s.serial, s.stale, s.waits, s.mode)

/-- `P` depends on the core of the state alone, and withstands every change that an instruction makes of it, but for the
start of a link and the exchange to Job mode. -/
structure Closed (P : State → Prop) : Prop extends Steady P where
  congr : ∀ s t : State, P s → s.core = t.core → P t
  goto : ∀ s a, P s → P (s.goto a)
  voidStack : ∀ s, P s → P s.voidStack
  abandon : ∀ s t c k, P s → P t → P { t with dfr := someFlags s.dfr t.dfr c, free := k, regs := s.regs }
  toMonitorMode : ∀ s, P s → P { s with mode := .monitor, link := .none }
  wait : ∀ s w, s.mode = .monitor → P s → P { s with waits := w }
  resume : ∀ s, P s → P { s with waits := .running }
  parallel : ∀ s, P s → P { s with serial := false }
  serial : ∀ s, P s → P { s with serial := true, stale := [] }
  setBuffer : ∀ s a v, P s → P { s with cb := Memory.setByte s.cb a v }

/-- A result keeps `P`: the next state, if there is one, has it. -/
def KeepsResult (P : State → Prop) (r : Result) : Prop := ∀ t, r = .next t → P t

theorem Keeps.ite {α : Type} {P : State → Prop} {c : Prop} [Decidable c] {m n : M α} (hm : Keeps P m) (hn : Keeps P n) :
    Keeps P (if c then m else n) := by
  split
  · exact hm
  · exact hn

/-- A choice between two ways to come by a value that the same computation goes on with. -/
theorem Keeps.iteBind {α β : Type} {P : State → Prop} {c : Prop} [Decidable c] {m n : M α} {k : α → M β} (hm : Keeps P m)
    (hn : Keeps P n) (hk : ∀ a, Keeps P (k a)) : Keeps P (if c then m >>= k else n >>= k) :=
  Keeps.ite (Keeps.bind hm hk) (Keeps.bind hn hk)

theorem Keeps.stop {α : Type} {P : State → Prop} {r : Stop} (h : ∀ t, r ≠ .partly t) : Keeps P (stop r : M α) := by
  intro s _
  cases r with
  | partly t => exact absurd rfl (h t)
  | _ => exact trivial

namespace KeepsResult

variable {P : State → Prop}

theorem next {t : State} (h : P t) : KeepsResult P (.next t) := fun _ e => by cases e; exact h

theorem refused (r : Refusal) : KeepsResult P (.refused r) := fun _ e => by cases e

theorem ite {c : Prop} [Decidable c] {r u : Result} (hr : KeepsResult P r) (hu : KeepsResult P u) :
    KeepsResult P (if c then r else u) := by
  split
  · exact hr
  · exact hu

end KeepsResult

/-! ### Parts of the semantics that change no state -/

namespace Keeps

variable {P : State → Prop}

theorem monitorOnly : Keeps P monitorOnly := by
  intro s hs
  unfold Machine.monitorOnly
  split
  · exact trivial
  · exact hs

theorem maskedBy (b : Nat) : Keeps P (maskedBy b) := by
  intro s hs
  unfold Machine.maskedBy
  split
  · exact trivial
  · exact hs

theorem offset (x : Byte) : Keeps P (offset x) :=
  Keeps.bind Keeps.get fun _ => Keeps.bind (Keeps.refuseIf _ _) fun _ => Keeps.pure _

theorem dest (w : Width) (o : Bool) (c : Byte) : Keeps P (dest w o c) :=
  Keeps.bind Keeps.get fun _ => Keeps.bind (Keeps.refuseIf _ _) fun _ => Keeps.bind (Keeps.refuseIf _ _) fun _ => Keeps.pure _

theorem bufferCheck (lockout limit : Bool) : Keeps P (bufferCheck lockout limit) :=
  Keeps.ite (Keeps.stop fun _ => Stop.noConfusion) (Keeps.pure _)

theorem inBuffer (a n : Nat) : Keeps P (inBuffer a n) := by
  intro s hs
  unfold Machine.inBuffer
  split
  · exact hs
  · exact trivial

theorem source (w : Width) (broadcast : Bool) (a x : Byte) : Keeps P (source w broadcast a x) := by
  cases broadcast
  · exact Keeps.bind (Keeps.offset x) fun _ => Keeps.bind Keeps.get fun _ => Keeps.pure _
  · exact Keeps.bind Keeps.get fun _ => Keeps.pure _

theorem indexes (g x a : Byte) : Keeps P (indexes g x a) :=
  Keeps.ite (Keeps.bind (Keeps.refuseIf _ _) fun _ => Keeps.bind Keeps.get fun _ => Keeps.pure _)
    (Keeps.bind (Keeps.offset x) fun _ => Keeps.bind Keeps.get fun _ => Keeps.pure _)

theorem readBuffer (w : Width) (a : Nat) : Keeps P (readBuffer w a) :=
  Keeps.bind (Keeps.inBuffer _ _) fun _ => Keeps.bind Keeps.get fun _ => Keeps.pure _

theorem readSemaphore (a : Nat) : Keeps P (readSemaphore a) :=
  Keeps.bind (Keeps.readBuffer _ _) fun _ => Keeps.bind (Keeps.readBuffer _ _) fun _ => Keeps.pure _

end Keeps

namespace Closed

variable {P : State → Prop} {m : M Unit} {s : State} (h : Closed P)
include h

/-! ### The exchange to Monitor mode, and the ends of an instruction -/

theorem next32 (s : State) (hs : P s) : P s.next32 := h.goto s _ hs

theorem next64 (s : State) (hs : P s) : P s.next64 := h.goto s _ hs

theorem post (s : State) (b : Nat) (hs : P s) : P (s.post b) := h.congr s _ hs (by simp only [State.core, State.post])

theorem setAbsWord (s : State) (a : Nat) (v : Word) (hs : P s) : P (s.setAbsWord a v) := h.putWord s _ v hs

theorem storePkg (base : Addr) (l : List (Nat × Word)) : ∀ s : State, P s → P (s.storePkg base l) := by
  induction l with
  | nil => exact fun _ hs => hs
  | cons c rest ih => exact fun s hs => ih _ (h.setAbsWord s _ _ hs)

theorem storeRegs (base n : Nat) : ∀ s : State, P s → P (s.storeRegs base n) := by
  induction n with
  | zero => exact fun _ hs => hs
  | succ n ih => exact fun s hs => ih _ (h.setAbsWord s _ _ hs)

theorem loadRegs (s : State) (base : Nat) (hs : P s) : P (s.loadRegs base) :=
  h.congr s _ hs (by simp only [State.core, State.loadRegs_mem, State.loadRegs_cb, State.loadRegs_pc, State.loadRegs_dfr,
    State.loadRegs_link, State.loadRegs_serial, State.loadRegs_stale, State.loadRegs_waits, State.loadRegs_mode])

theorem loadRights (s : State) (base : Addr) (hs : P s) : P (s.loadRights base) :=
  h.congr s _ hs (by simp only [State.core, State.loadRights])

theorem exchangeRegs (s : State) (b c : Nat) (rf : Addr) (hs : P s) :
    P (if rf = 0 then s else (s.storeRegs b 256).loadRegs c) := by
  split
  · exact hs
  · exact h.loadRegs _ _ (h.storeRegs _ _ s hs)

theorem enterMonitor (s : State) (hs : P s) : P { s with bkpt := 0, mode := .monitor, link := .none } :=
  h.congr { s with mode := .monitor, link := .none } _ (h.toMonitorMode s hs) (by simp only [State.core])

theorem toMonitor (s : State) (saved : Addr) (hs : P s) : P (s.toMonitor saved) := by
  unfold State.toMonitor
  exact h.goto _ _ (h.voidStack _ (h.setDfr _ _ (h.enterMonitor _ (h.exchangeRegs _ _ _ _ (h.storePkg _ _ s hs)))))

theorem typeOne (s : State) (hs : P s) : P s.typeOne := by
  unfold State.typeOne
  split
  · exact h.toMonitor _ _ (h.post s _ hs)
  · next hm => exact h.wait (s.post 58) .masterClear hm (h.post s _ hs)

theorem typeTwo (s : State) (hs : P s) : P s.typeTwo := h.toMonitor _ _ (h.post s _ hs)

theorem accessInterrupt (s : State) (pc : Addr) (hs : P s) : P (s.accessInterrupt pc) := h.toMonitor _ _ (h.post s _ hs)

theorem bufferFault (s : State) (lockout limit : Bool) (hs : P s) : P (s.bufferFault lockout limit) := by
  have post_if (b : Bool) (k : Nat) (t : State) (ht : P t) : P (if b then t.post k else t) := by
    split
    · exact h.post t k ht
    · exact ht
  unfold State.bufferFault
  simp only
  cases s.mode
  · exact h.next64 _ (post_if _ _ _ (post_if _ _ s hs))
  · exact h.toMonitor _ _ (post_if _ _ _ (post_if _ _ s hs))

/-- However the computation of an instruction came out, if it kept `P` then so does what the instruction comes to. -/
theorem settle {r : Except Stop (Unit × State)} (hk : Kept P r) (hs : P s) : KeepsResult P (settle s r) := by
  intro t e
  rcases settle_next e with he | ⟨free, -, rfl⟩ | ⟨left, he, rfl⟩ | ⟨-, rfl⟩ | ⟨-, rfl⟩ | ⟨lockout, limit, -, rfl⟩
  · rw [he] at hk
    exact hk
  · exact h.accessInterrupt _ _ (h.draw s free hs)
  · rw [he] at hk
    exact h.accessInterrupt left _ hk
  · exact h.typeOne s hs
  · exact h.typeTwo s hs
  · exact h.bufferFault s _ _ hs

theorem run (hm : Keeps P m) (hs : P s) : KeepsResult P (run m s) := h.settle (hm s hs) hs

theorem run32 (hm : Keeps P m) (hs : P s) : KeepsResult P (run32 m s) :=
  h.run (Keeps.bind hm fun _ => Keeps.update h.next32) hs

theorem run64 (hm : Keeps P m) (hs : P s) : KeepsResult P (run64 m s) :=
  h.run (Keeps.bind hm fun _ => Keeps.update h.next64) hs

theorem elements {α : Type} {b : Nat → α → M α} (hb : ∀ k x, Keeps P (b k x)) (n : Nat) (x : α) : Keeps P (elements n b x) :=
  Keeps.elements hb n x h.abandon

/-! ### Results that are one register, one branch or one flag set -/

theorem put (hs : P s) (d : Byte) (v : Word) : KeepsResult P (s.put d v) :=
  .next (h.next32 _ (h.setReg s d v hs))

theorem put32 (hs : P s) (d : Byte) (v : Half) : KeepsResult P (s.put32 d v) :=
  .next (h.next32 _ (h.setReg32 d v s hs))

theorem put64 (hs : P s) (d : Byte) (v : Word) : KeepsResult P (s.put64 d v) :=
  .next (h.next64 _ (h.setReg s d v hs))

theorem put32wide (hs : P s) (d : Byte) (v : Half) : KeepsResult P (s.put32wide d v) :=
  .next (h.next64 _ (h.setReg32 d v s hs))

theorem putFp (hs : P s) (k : FlagKind) (d : Byte) (r : FpResult) : KeepsResult P (s.putFp k d r) :=
  .next (h.next32 _ (h.raiseFlags _ _ _ (h.setReg s d _ hs)))

theorem putFp32 (hs : P s) (k : FlagKind) (d : Byte) (r : FpResult) : KeepsResult P (s.putFp32 k d r) :=
  .next (h.next32 _ (h.raiseFlags _ _ _ (h.setReg32 d _ s hs)))

theorem putFree (hs : P s) (d : Byte) : KeepsResult P (s.putFree d) := h.put (h.draw s _ hs) d _

theorem putFree32 (hs : P s) (d : Byte) : KeepsResult P (s.putFree32 d) := h.put32 (h.draw s _ hs) d _

theorem putOpt (hs : P s) (d : Byte) (v : Option Word) : KeepsResult P (s.putOpt d v) := by
  cases v with
  | none => exact h.putFree hs d
  | some v => exact h.put hs d v

theorem compareBranch (hs : P s) (c : Cmp) (sel : Cmp → Bool) (t : Byte) :
    KeepsResult P (s.compareBranch c sel t) := by
  refine .next ?_
  split
  · exact h.goto _ _ (h.raiseFlags _ _ s hs)
  · exact h.next32 _ (h.raiseFlags _ _ s hs)

theorem countBranch (hs : P s) (r sd t : Byte) (v : Addr) : KeepsResult P (s.countBranch r sd t v) := by
  have hu := h.setReg s r (joinLen (lenPart (s.reg r)) v) hs
  exact .ite (.next (h.next32 _ hu)) (.ite (.next (h.goto _ _ (h.draw _ _ hu))) (.next (h.goto _ _ hu)))

theorem subroutine (hs : P s) (r sd t : Byte) : KeepsResult P (s.subroutine r sd t) := by
  have hu := h.setReg s r (joinLen 0 (s.pc + 32)) hs
  unfold State.subroutine
  refine .next ?_
  repeat' split
  all_goals exact h.goto _ _ hu

theorem branchMet (hs : P s) (met : Bool) (target : Option Addr) : KeepsResult P (branchMet met target s) := by
  unfold Machine.branchMet
  split
  · split
    · exact .next (h.goto _ _ hs)
    · exact .refused _
  · exact .next (h.next64 _ hs)

theorem intBranch (hs : P s) (fwc : Bool) (cond : Int → Int → Bool) (g x a y b z c : Byte) :
    KeepsResult P (intBranch fwc cond g x a y b z c s) :=
  .ite (.refused _) (h.branchMet (h.setRegW _ _ _ s hs) _ _)

theorem intSet (hs : P s) (fwc : Bool) (cond : Int → Int → Bool) (g x a y z c : Byte) :
    KeepsResult P (intSet fwc cond g x a y z c s) :=
  .ite (.refused _) (.ite (.refused _) (.next (h.next64 _ (h.setRegW _ _ _ _ (h.setRegW _ _ _ s hs)))))

theorem fpBranch (hs : P s) (cond : Cmp → Bool) (g x a y b : Byte) :
    KeepsResult P (fpBranch cond g x a y b s) := h.branchMet (h.raiseFlags _ _ s hs) _ _

theorem fpSet (hs : P s) (cond : Cmp → Bool) (g x a y : Byte) : KeepsResult P (fpSet cond g x a y s) :=
  .next (h.next64 _ (h.setRegW _ _ _ _ (h.raiseFlags _ _ s hs)))

/-! ### Computations over vectors and bit fields -/

theorem fillBits (n : Nat) (dst : Addr) {src : Nat → M Bool} (hb : ∀ k, Keeps P (src k)) : Keeps P (fillBits n dst src) :=
  h.elements (fun k _ => Keeps.bind (hb k) fun _ => h.writeBit _ _) n _

theorem bitOf (a : Addr) (k : Nat) : Keeps P (bitOf a k) := h.readBit _

theorem bitOrZero (a : Addr) (k : Nat) : Keeps P (bitOrZero a k) := Keeps.ite (Keeps.pure _) (h.bitOf a k)

theorem repeatedMask (v : Bool) (lead m n : Nat) (dst : Addr) : Keeps P (repeatedMask v lead m n dst) :=
  Keeps.ite (Keeps.pure _) (Keeps.bind (Keeps.refuseIf _ _) fun _ => h.fillBits n dst fun _ => Keeps.pure _)

theorem vectorLoop (w : Width) (d : Dest) (ctl : Control) {elem : Nat → M FpResult} (he : ∀ i, Keeps P (elem i)) :
    Keeps P (vectorLoop w d ctl elem) :=
  h.elements (fun i _ => Keeps.bind (he i) fun _ => Keeps.bind (h.permits ctl i) fun _ =>
    Keeps.ite (h.storeElem _ _ _) (Keeps.pure _)) _ _

theorem vector2 (w : Width) (ext : Word) {f : Word → Word → M FpResult} (hf : ∀ u v, Keeps P (f u v)) (g x a y b z c : Byte)
    (hs : P s) : KeepsResult P (vector2 w ext f g x a y b z c s) :=
  h.run64 (Keeps.bind (Keeps.source _ _ _ _) fun _ => Keeps.bind (Keeps.source _ _ _ _) fun _ => Keeps.bind (Keeps.dest _ _ _) fun _ =>
    h.vectorLoop _ _ _ fun _ => Keeps.bind (h.elem _ _ _ _) fun _ => Keeps.bind (h.elem _ _ _ _) fun _ => hf _ _) hs

theorem vector1 (wa wc : Width) {f : Word → M FpResult} (hf : ∀ u, Keeps P (f u)) (g x a z c : Byte)
    (hs : P s) : KeepsResult P (vector1 wa wc f g x a z c s) :=
  h.run64 (Keeps.bind (Keeps.source _ _ _ _) fun _ => Keeps.bind (Keeps.dest _ _ _) fun _ =>
    h.vectorLoop _ _ _ fun _ => Keeps.bind (h.elem _ _ _ _) fun _ => hf _) hs

theorem freeElem (w : Width) : Keeps P (freeElem w) := Keeps.bind h.drawFree fun _ => Keeps.pure _

theorem shiftElem (u v : Word) : Keeps P (shiftElem u v) := by
  unfold Machine.shiftElem
  split
  · exact Keeps.pure _
  · exact Keeps.bind h.drawFree fun _ => Keeps.pure _

theorem adjsElem (g : Byte) (u v : Word) : Keeps P (adjsElem g u v) := by
  unfold Machine.adjsElem
  split
  · exact Keeps.pure _
  · exact Keeps.bind (h.freeElem _) fun _ => Keeps.bind h.drawFree fun _ => Keeps.pure _

theorem sparse (orDefault : Bool) (op : FpOp) (g x a y b z c : Byte) (hs : P s) :
    KeepsResult P (sparse orDefault op g x a y b z c s) := by
  have orderBit (n : Nat) (a : Addr) (i : Nat) : Keeps P (orderBit n a i) := Keeps.ite (h.readBit _) (Keeps.pure _)
  have sparseElem (w : Width) (o bc : Bool) (v : Word) (a : Addr) (i : Nat) (fill : Word) :
      Keeps P (sparseElem w o bc v a i fill) := Keeps.ite (Keeps.ite (Keeps.pure _) (h.readElem _ _)) (Keeps.pure _)
  refine h.run64 (Keeps.ite (Keeps.pure _) (Keeps.bind (h.elements (fun i k => ?_) _ _) fun _ =>
    Keeps.update fun s => h.setReg s _ _)) hs
  refine Keeps.bind (orderBit _ _ _) fun _ => Keeps.bind (orderBit _ _ _) fun _ => Keeps.bind (sparseElem _ _ _ _ _ _ _) fun _ =>
    Keeps.bind (sparseElem _ _ _ _ _ _ _) fun _ => Keeps.bind (h.writeBit _ _) fun _ => ?_
  exact Keeps.ite (Keeps.bind (h.storeElem _ _ _) fun _ => Keeps.pure _) (Keeps.pure _)

/-! ### Compare, scatter, gather, mask -/

theorem index (ix : Indexes) (j : Nat) : Keeps P (ix.get j) := by
  cases ix with
  | fixed n inc => exact Keeps.pure _
  | listed start n => exact Keeps.bind (h.readWord _) fun _ => Keeps.pure _

theorem groupSource (w : Width) (rf : Bool) (a : Addr) : Keeps P (groupSource w rf a) :=
  Keeps.ite (Keeps.bind (Keeps.refuseIf _ _) fun _ => Keeps.bind Keeps.get fun _ => Keeps.pure _) (h.readElem w a)

theorem groupLoop (ix : Indexes) (size : Nat) {body : Nat → Nat → Addr → M Unit} (hb : ∀ j e i, Keeps P (body j e i)) :
    Keeps P (groupLoop ix size body) :=
  Keeps.bind (h.elements (fun _ _ => Keeps.iteBind (h.index ix _) (Keeps.pure _) fun _ =>
    Keeps.bind (hb _ _ _) fun _ => Keeps.pure _) _ _) fun _ => Keeps.pure _

theorem pickElem (w : Width) (bc : Bool) (r : Byte) (i : Nat) (s : State) : Keeps P (pickElem w bc r i s) :=
  Keeps.ite (Keeps.pure _) (h.readElem _ _)

theorem setLength (s : State) (c : Byte) (n : Nat) : Keeps P (setLength s c n) := Keeps.update fun t => h.setReg t _ _

theorem vtovx (hs : P s) (g x a y b c : Byte) : KeepsResult P (execVtovx g x a y b c s) :=
  h.run64 (Keeps.bind (Keeps.refuseIf _ _) fun _ => Keeps.bind (Keeps.indexes _ _ _) fun _ => Keeps.ite (Keeps.pure _)
    (Keeps.iteBind (Keeps.pure _) (Keeps.offset _) fun _ => h.groupLoop _ _ fun _ _ _ =>
      Keeps.iteBind (Keeps.pure _) (h.groupSource _ _ _) fun _ => h.writeElem _ _ _)) hs

theorem vxtov (hs : P s) (g x a y b c : Byte) : KeepsResult P (execVxtov g x a y b c s) :=
  h.run64 (Keeps.bind (Keeps.refuseIf _ _) fun _ => Keeps.bind (Keeps.indexes _ _ _) fun _ => Keeps.ite (Keeps.pure _)
    (Keeps.bind (Keeps.offset _) fun _ => h.groupLoop _ _ fun _ _ _ =>
      Keeps.bind (h.groupSource _ _ _) fun _ => h.writeElem _ _ _)) hs

theorem vrevv (hs : P s) (g x a z c : Byte) : KeepsResult P (execVrevv g x a z c s) :=
  h.run64 (Keeps.bind (Keeps.offset _) fun _ => Keeps.bind (Keeps.dest _ _ _) fun _ => h.vectorLoop _ _ _ fun _ =>
    Keeps.iteBind (h.readElem _ _) (Keeps.pure _) fun _ => Keeps.pure _) hs

theorem maskv (hs : P s) (g x a y b z c : Byte) : KeepsResult P (execMaskv g x a y b z c s) :=
  h.run64 (Keeps.bind (Keeps.refuseIf _ _) fun _ => Keeps.ite (Keeps.pure _) (Keeps.bind (h.elements (fun _ _ =>
    Keeps.bind (h.readBit _) fun _ => Keeps.iteBind (h.pickElem _ _ _ _ _) (h.pickElem _ _ _ _ _) fun _ =>
      h.writeElem _ _ _) _ _) fun _ => h.setLength _ _ _)) hs

theorem cpsv (hs : P s) (g x a z c : Byte) : KeepsResult P (execCpsv g x a z c s) :=
  h.run64 (Keeps.bind (Keeps.refuseIf _ _) fun _ => Keeps.ite (Keeps.pure _) (Keeps.bind (h.elements (fun _ _ =>
    Keeps.bind (h.readBit _) fun _ => Keeps.ite (Keeps.bind (h.readElem _ _) fun _ => Keeps.bind (h.writeElem _ _ _) fun _ =>
      Keeps.pure _) (Keeps.pure _)) _ _) fun _ => h.setLength _ _ _)) hs

theorem mrgv (hs : P s) (g x a y b z c : Byte) : KeepsResult P (execMrgv g x a y b z c s) :=
  h.run64 (Keeps.bind (Keeps.refuseIf _ _) fun _ => Keeps.ite (Keeps.pure _) (Keeps.bind (h.elements (fun _ _ =>
    Keeps.bind (h.readBit _) fun _ => Keeps.ite
      (Keeps.bind (h.pickElem _ _ _ _ _) fun _ => Keeps.bind (h.writeElem _ _ _) fun _ => Keeps.pure _)
      (Keeps.bind (h.pickElem _ _ _ _ _) fun _ => Keeps.bind (h.writeElem _ _ _) fun _ => Keeps.pure _)) _ _)
    fun _ => h.setLength _ _ _)) hs

/-! ### Select, compare, search, extremes and sums -/

theorem pairAt (w : Width) (p q : Stream) (i : Nat) : Keeps P (pairAt w p q i) :=
  Keeps.bind (h.elem _ _ _ _) fun _ => Keeps.bind (h.elem _ _ _ _) fun _ => Keeps.pure _

theorem comparePair (w : Width) (p q : Stream) (i : Nat) : Keeps P (comparePair w p q i) :=
  Keeps.bind (h.pairAt _ _ _ _) fun _ => Keeps.bind (Keeps.update (h.raiseFlags _ _)) fun _ => Keeps.pure _

theorem updateReg (c : Byte) (v : Word) : Keeps P (update (·.setReg c v)) := Keeps.update fun s => h.setReg s _ _

theorem updateFlag (k : Nat) (v : Bool) : Keeps P (update (·.setFlag k v)) := Keeps.update (h.setFlag _ _)

theorem setResult (c : Byte) (v : Word) : Keeps P (setResult c v) :=
  Keeps.iteBind h.drawFree (Keeps.pure _) fun _ => h.updateReg _ _

theorem select (cond : Cmp → Bool) (g x a y b z c : Byte) (hs : P s) :
    KeepsResult P (select cond g x a y b z c s) := by
  have step (i : Nat) (found : Option Nat) (p q : Stream) (w : Width) (ctl : Control) :
      Keeps P (selectStep w cond p q ctl i found) := by
    cases found with
    | some k => exact Keeps.pure _
    | none =>
      exact Keeps.bind (h.permits _ _) fun _ =>
        Keeps.ite (Keeps.bind (h.comparePair _ _ _ _) fun _ => Keeps.pure _) (Keeps.pure _)
  exact h.run64 (Keeps.bind (Keeps.refuseIf _ _) fun _ => Keeps.bind (Keeps.source _ _ _ _) fun _ =>
    Keeps.bind (Keeps.source _ _ _ _) fun _ => Keeps.ite (Keeps.pure _) (Keeps.bind (h.elements (fun i f => step i f _ _ _ _) _ _)
      fun _ => Keeps.bind (h.setResult _ _) fun _ => Keeps.ite (h.updateFlag _ _) (Keeps.pure _))) hs

theorem compareVector (cond : Cmp → Bool) (g x a y b z : Byte) (hs : P s) :
    KeepsResult P (compareVector cond g x a y b z s) :=
  h.run64 (Keeps.bind (Keeps.source _ _ _ _) fun _ => Keeps.bind (Keeps.source _ _ _ _) fun _ => h.elements (fun _ _ =>
    Keeps.bind (h.comparePair _ _ _ _) fun _ => h.writeBit _ _) _ _) hs

theorem searchFrom (w : Width) (cond : Cmp → Bool) (p q : Stream) (j start count : Nat) :
    Keeps P (searchFrom w cond p q j start count) := by
  refine Keeps.upTo (fun k acc => ?_) _ _
  cases acc.1 with
  | some _ => exact Keeps.pure _
  | none => exact Keeps.bind (h.elem _ _ _ _) fun _ => Keeps.bind (h.elem _ _ _ _) fun _ => Keeps.pure _

theorem searchList (cond : Cmp → Bool) (g x a y b z c : Byte) (hs : P s) :
    KeepsResult P (searchList cond g x a y b z c s) :=
  h.run64 (Keeps.bind (Keeps.source _ _ _ _) fun _ => Keeps.ite (Keeps.pure _) (Keeps.bind (Keeps.source _ _ _ _) fun _ =>
    Keeps.bind (h.elements (fun _ _ => Keeps.bind (h.searchFrom _ _ _ _ _ _ _) fun _ => Keeps.bind (h.permits _ _) fun _ =>
      Keeps.ite (Keeps.bind (h.writeWord _ _) fun _ => Keeps.bind (Keeps.update (h.raiseFlags _ _)) fun _ => Keeps.pure _)
        (Keeps.pure _)) _ _) fun _ => Keeps.pure _)) hs

theorem mcmpw (hs : P s) (g x a b c : Byte) : KeepsResult P (execMcmpw g x a b c s) := by
  refine h.run64 (Keeps.ite (Keeps.pure _) (Keeps.bind (h.elements (fun j r => ?_) _ _) fun _ =>
    Keeps.bind (h.updateReg _ _) fun _ => Keeps.ite (h.updateFlag _ _) (Keeps.pure _))) hs
  cases r with
  | some k => exact Keeps.pure _
  | none => exact Keeps.bind (h.readWord _) fun _ => Keeps.pure _

theorem compressStep (w : Width) (g : Byte) (p q : Stream) (zAddr cAddr : Addr) (same : Bool) (i k : Nat) :
    Keeps P (compressStep w g p q zAddr cAddr same i k) :=
  Keeps.bind (h.pairAt _ _ _ _) fun _ => Keeps.bind (Keeps.update (h.raiseFlags _ _)) fun _ => Keeps.ite
    (Keeps.bind (h.freeElem _) fun _ => Keeps.bind (h.writeElem _ _ _) fun _ => Keeps.pure _)
    (Keeps.ite (Keeps.bind (h.writeElem _ _ _) fun _ => Keeps.bind (h.writeBit _ _) fun _ => Keeps.pure _)
      (Keeps.bind (h.writeBit _ _) fun _ => Keeps.pure _))

theorem acps (hs : P s) (g x a y b z c : Byte) : KeepsResult P (execAcps g x a y b z c s) :=
  h.run64 (Keeps.bind (Keeps.source _ _ _ _) fun _ => Keeps.ite (Keeps.pure _) (Keeps.bind (Keeps.source _ _ _ _) fun _ =>
    Keeps.bind (h.elements (fun _ _ => h.compressStep _ _ _ _ _ _ _ _ _) _ _) fun _ => Keeps.ite
      (Keeps.bind h.drawFree fun _ => h.updateReg _ _) (Keeps.bind (h.updateReg _ _) fun _ => h.updateReg _ _))) hs

theorem adjacent (f : Width → Num → Num → FpResult) (g x a z c : Byte) (hs : P s) :
    KeepsResult P (adjacent f g x a z c s) :=
  h.run64 (Keeps.bind (Keeps.source _ _ _ _) fun _ => Keeps.bind (Keeps.dest _ _ _) fun _ => h.vectorLoop _ _ _ fun _ =>
    Keeps.bind (h.elem _ _ _ _) fun _ => Keeps.bind (h.elem _ _ _ _) fun _ => Keeps.pure _) hs

theorem setPair (w : Width) (b c : Byte) (value count : Word) : Keeps P (setPair w b c value count) :=
  Keeps.iteBind (h.freeElem _) (Keeps.pure _) fun _ => Keeps.iteBind h.drawFree (Keeps.pure _) fun _ =>
    Keeps.update fun s hs => h.setReg _ _ _ (h.setRegW _ _ _ s hs)

theorem finishScan (w : Width) (n : Nat) (b c : Byte) (k : Scan) : Keeps P (finishScan w n b c k) := by
  refine Keeps.ite (Keeps.bind h.drawFree fun _ => Keeps.bind (h.setPair _ _ _ _ _) fun _ => Keeps.update fun s hs =>
    h.setFreeFlags _ _ _ _ (h.raiseFlags _ _ s hs)) ?_
  cases k.best with
  | none =>
    exact Keeps.bind (h.freeElem _) fun _ => Keeps.bind (h.setPair _ _ _ _ _) fun _ => Keeps.update (h.setFreeFlags _ _ _)
  | some t => exact Keeps.bind (h.setPair _ _ _ _ _) fun _ => Keeps.update (h.setFreeFlags _ _ _)

theorem extreme (better : Cmp → Bool) (g x a b z c : Byte) (hs : P s) :
    KeepsResult P (extreme better g x a b z c s) :=
  h.run64 (Keeps.bind (Keeps.source _ _ _ _) fun _ => Keeps.ite (Keeps.pure _) (Keeps.bind (h.elements (fun _ _ =>
    Keeps.bind (h.permits _ _) fun _ => Keeps.ite (Keeps.bind (h.elem _ _ _ _) fun _ => Keeps.pure _) (Keeps.pure _)) _ _)
    fun _ => h.finishScan _ _ _ _ _)) hs

theorem finishSum (w : Width) (c : Byte) (acc : Acc) (f : FpFlags) : Keeps P (finishSum w c acc f) := by
  refine Keeps.iteBind (h.freeElem _) (Keeps.pure _) fun _ => ?_
  split
  · exact Keeps.bind (Keeps.pure _) fun _ => Keeps.update fun s hs =>
      h.raiseFlags _ _ _ (h.setRegW _ _ _ _ (h.setRegW _ _ _ s hs))
  · exact Keeps.bind (h.freeElem _) fun _ => Keeps.update fun s hs =>
      h.raiseFlags _ _ _ (h.setRegW _ _ _ _ (h.setRegW _ _ _ s hs))

theorem sum (hs : P s) (g x a z c : Byte) : KeepsResult P (execSum g x a z c s) :=
  h.run64 (Keeps.bind (Keeps.source _ _ _ _) fun _ => Keeps.ite (Keeps.pure _) (Keeps.bind (h.elements (fun _ _ =>
    Keeps.bind (h.permits _ _) fun _ => Keeps.ite (Keeps.bind (h.elem _ _ _ _) fun _ => Keeps.pure _) (Keeps.pure _)) _ _)
    fun _ => h.finishSum _ _ _ _)) hs

theorem product (hs : P s) (g x a z c : Byte) : KeepsResult P (execProduct g x a z c s) :=
  h.run64 (Keeps.bind (Keeps.source _ _ _ _) fun _ => Keeps.ite (Keeps.pure _) (Keeps.bind (h.elements (fun _ _ =>
    Keeps.bind (h.permits _ _) fun _ => Keeps.ite (Keeps.bind (h.elem _ _ _ _) fun _ => Keeps.pure _) (Keeps.pure _)) _ _)
    fun _ => Keeps.iteBind (h.freeElem _) (Keeps.pure _) fun _ => Keeps.update fun s hs =>
      h.raiseFlags _ _ _ (h.setRegW _ _ _ s hs))) hs

theorem dotv (hs : P s) (g x a y b z c : Byte) : KeepsResult P (execDotv g x a y b z c s) :=
  h.run64 (Keeps.bind (Keeps.refuseIf _ _) fun _ => Keeps.bind (Keeps.source _ _ _ _) fun _ => Keeps.bind (Keeps.source _ _ _ _)
    fun _ => Keeps.ite (Keeps.pure _) (Keeps.bind (h.elements (fun _ _ => Keeps.bind (h.permits _ _) fun _ =>
      Keeps.ite (Keeps.bind (h.pairAt _ _ _ _) fun _ => Keeps.pure _) (Keeps.pure _)) _ _)
      fun _ => h.finishSum _ _ _ _)) hs

theorem interval (hs : P s) (g a b z c : Byte) : KeepsResult P (execInterval g a b z c s) :=
  h.run64 (Keeps.bind (Keeps.dest _ _ _) fun _ => Keeps.bind (h.elements (fun _ _ => Keeps.bind (h.permits _ _) fun _ =>
    Keeps.ite (Keeps.bind (h.storeElem _ _ _) fun _ => Keeps.pure _) (Keeps.pure _)) _ _) fun _ => Keeps.pure _) hs

/-! ### Bit strings, bytes, and the communication buffer -/

theorem stringBit (n : Nat) (a : Addr) (i : Nat) : Keeps P (stringBit n a i) := Keeps.ite (h.readBit _) (Keeps.pure _)

theorem stringLogic (f : Bool → Bool → Bool) (x a y b z c : Byte) (hs : P s) :
    KeepsResult P (stringLogic f x a y b z c s) :=
  h.run64 (Keeps.ite (Keeps.pure _) (Keeps.bind (h.elements (fun _ _ => Keeps.bind (h.stringBit _ _ _) fun _ =>
    Keeps.bind (h.stringBit _ _ _) fun _ => Keeps.bind (h.writeBit _ _) fun _ => Keeps.pure _) _ _) fun _ =>
    Keeps.update (h.setFreeFlags _ _ _))) hs

theorem movl (hs : P s) (x a b z c : Byte) : KeepsResult P (execMovl x a b z c s) :=
  h.run64 (h.elements (fun _ _ => Keeps.iteBind (h.readByte _) (Keeps.pure _) fun _ => h.writeByte _ _) _ _) hs

theorem setBufferHalf (s : State) (a : Nat) (v : Half) (hs : P s) : P { s with cb := Memory.setHalf s.cb a v } :=
  h.setBuffer _ _ _ (h.setBuffer _ _ _ (h.setBuffer _ _ _ (h.setBuffer s _ _ hs)))

theorem setBufferWord (s : State) (a : Nat) (v : Word) (hs : P s) : P { s with cb := Memory.setWord s.cb a v } :=
  h.setBufferHalf _ _ _ (h.setBufferHalf s _ _ hs)

theorem writeBuffer (w : Width) (a : Nat) (v : Word) : Keeps P (writeBuffer w a v) := by
  refine Keeps.bind (Keeps.inBuffer _ _) fun _ => Keeps.update fun s hs => ?_
  cases w
  · exact h.setBufferHalf s _ _ hs
  · exact h.setBufferWord s _ _ hs

theorem writeSemaphore (a : Nat) (v : BitVec 128) : Keeps P (writeSemaphore a v) :=
  Keeps.bind (h.writeBuffer _ _ _) fun _ => h.writeBuffer _ _ _

theorem regThenNext (w : Width) (c : Byte) (v : Word) : Keeps P (update fun t => (t.setRegW w c v).next64) :=
  Keeps.update fun s hs => h.next64 _ (h.setRegW _ _ _ s hs)

theorem regThenGoto (w : Width) (c : Byte) (v : Word) (a : Addr) : Keeps P (update fun t => (t.setRegW w c v).goto a) :=
  Keeps.update fun s hs => h.goto _ _ (h.setRegW _ _ _ s hs)

theorem postSemaphore (hs : P s) (g x b c : Byte) : KeepsResult P (execPost g x b c s) :=
  h.run (Keeps.bind (Keeps.maskedBy _) fun _ => Keeps.bind (Keeps.bufferCheck _ _) fun _ => Keeps.bind (Keeps.readSemaphore _) fun _ =>
    Keeps.ite (Keeps.bind (h.writeSemaphore _ _) fun _ => h.regThenNext .w64 _ _)
      (Keeps.bind (Keeps.readBuffer _ _) fun _ => Keeps.bind (h.writeSemaphore _ _) fun _ => h.regThenGoto .w64 _ _ _)) hs

theorem waitSemaphore (hs : P s) (g x a b c : Byte) : KeepsResult P (execWait g x a b c s) :=
  h.run (Keeps.bind (Keeps.maskedBy _) fun _ => Keeps.bind (Keeps.bufferCheck _ _) fun _ => Keeps.bind (Keeps.refuseIf _ _) fun _ =>
    Keeps.bind (Keeps.readSemaphore _) fun _ => Keeps.ite (Keeps.bind (h.writeSemaphore _ _) fun _ => h.regThenNext .w64 _ _)
      (Keeps.ite (Keeps.bind (h.writeSemaphore _ _) fun _ => h.regThenGoto .w64 _ _ _)
        (Keeps.bind (Keeps.readBuffer _ _) fun _ => Keeps.bind (h.writeBuffer _ _ _) fun _ =>
          Keeps.bind (h.writeSemaphore _ _) fun _ => h.regThenGoto .w64 _ _ _))) hs

theorem bbswap (hs : P s) (g x a b c : Byte) : KeepsResult P (execBbswap g x a b c s) :=
  h.run (Keeps.bind (Keeps.maskedBy _) fun _ => Keeps.bind (Keeps.bufferCheck _ _) fun _ => Keeps.bind (Keeps.readBuffer _ _) fun _ =>
    Keeps.ite (h.regThenGoto _ _ _ _) (Keeps.bind (h.writeBuffer _ _ _) fun _ => h.regThenNext _ _ _)) hs

theorem bbldst (hs : P s) (g x a b c : Byte) : KeepsResult P (execBbldst g x a b c s) :=
  h.run (Keeps.bind (Keeps.maskedBy _) fun _ => Keeps.bind (Keeps.bufferCheck _ _) fun _ => Keeps.bind (Keeps.readBuffer _ _) fun _ =>
    Keeps.ite (h.regThenGoto _ _ _ _) (Keeps.bind (h.writeBuffer _ _ _) fun _ => Keeps.bind (Keeps.readBuffer _ _) fun _ =>
      h.regThenNext _ _ _)) hs

theorem cbld (hs : P s) (g x c : Byte) : KeepsResult P (execCbld g x c s) :=
  h.run64 (Keeps.bind (Keeps.maskedBy _) fun _ => Keeps.bind (Keeps.bufferCheck _ _) fun _ => Keeps.bind (Keeps.readBuffer _ _) fun _ =>
    Keeps.update fun s => h.setRegW _ _ _ s) hs

theorem cbsto (hs : P s) (g x c : Byte) : KeepsResult P (execCbsto g x c s) :=
  h.run64 (Keeps.bind (Keeps.maskedBy _) fun _ => Keeps.bind (Keeps.bufferCheck _ _) fun _ => h.writeBuffer _ _ _) hs

/-! ### Monitor and system control -/

theorem endIdle (s : State) (hs : P s) : P s.endIdle := h.goto _ _ (h.setReg s _ _ hs)

theorem idle (hs : P s) : KeepsResult P (execIdle s) := by
  refine h.run ?_ hs
  intro u hu
  cases hm : u.mode with
  | job =>
    have e : Machine.monitorOnly u = .error .typeTwo := by simp [Machine.monitorOnly, hm]
    show Kept P (Except.bind (Machine.monitorOnly u) _)
    rw [e]
    exact trivial
  | monitor =>
    have e : Machine.monitorOnly u = .ok ((), u) := by simp [Machine.monitorOnly, hm]
    show Kept P (Except.bind (Machine.monitorOnly u) _)
    rw [e]
    show P (if u.ir = 0 then { u with waits := .interrupt } else u.endIdle)
    split
    · exact h.wait u _ hm hu
    · exact h.endIdle u hu

theorem bkpt (hs : P s) (r : Byte) : KeepsResult P (execBkpt r s) :=
  .ite (.refused _) (.next (h.next32 _ (h.congr s _ hs (by simp only [State.core]))))

theorem setmod (hs : P s) (r : Byte) : KeepsResult P (execSetmod r s) := by
  refine h.run32 (Keeps.bind (Keeps.maskedBy _) fun _ => Keeps.update fun u hu => ?_) hs
  split
  · split
    · exact h.serial u hu
    · exact h.parallel u hu
  · exact hu

theorem setint (hs : P s) (r : Byte) : KeepsResult P (execSetint r s) :=
  h.run32 (Keeps.bind (Keeps.maskedBy _) fun _ => Keeps.bind (Keeps.refuseIf _ _) fun _ =>
    Keeps.update fun u hu => h.congr u _ hu (by simp only [State.core])) hs

theorem mtime (hs : P s) (r : Byte) : KeepsResult P (execMtime r s) :=
  h.run32 (Keeps.bind Keeps.monitorOnly fun _ => Keeps.update fun u hu => h.congr u _ hu (by simp only [State.core])) hs

theorem storeAssoc (n : Nat) : ∀ s : State, P s → P (s.storeAssoc n) := by
  induction n with
  | zero => exact fun _ hs => hs
  | succ n ih => exact fun s hs => ih _ (h.setAbsWord s _ _ hs)

theorem stoar (hs : P s) : KeepsResult P (execStoar s) :=
  h.run32 (Keeps.bind Keeps.monitorOnly fun _ => Keeps.bind (Keeps.refuseIf _ _) fun _ =>
    Keeps.update fun u hu => h.congr (u.storeAssoc 16) _ (h.storeAssoc 16 u hu) (by simp only [State.core])) hs

theorem compareReads (s : State) (a n : Nat) (hs : P s) : P (s.compareReads a n) := by
  unfold State.compareReads
  split
  · exact h.setFlag _ _ s hs
  · exact hs

theorem lodar (hs : P s) : KeepsResult P (execLodar s) :=
  h.run32 (Keeps.bind Keeps.monitorOnly fun _ => Keeps.update fun u hu =>
    h.congr (u.compareReads assocBase 16) _ (h.compareReads u _ _ hu) (by simp only [State.core])) hs

theorem rdint (hs : P s) (t : Byte) : KeepsResult P (execRdint t s) :=
  h.run32 (Keeps.bind Keeps.monitorOnly fun _ => Keeps.update fun u hu =>
    h.congr (u.setReg t u.ir) _ (h.setReg u _ _ hu) (by simp only [State.core])) hs

theorem translate (s : State) (sd t : Byte) (hs : P s) : P (s.translate sd t) := by
  unfold State.translate
  split
  · split
    · exact h.setReg _ _ _ (h.pushDown s _ _ hs)
    · exact h.setReg s _ _ hs
  · exact h.setReg s _ _ hs

theorem lodkey (hs : P s) (r sd t : Byte) : KeepsResult P (execLodkey r sd t s) :=
  h.run32 (Keeps.bind Keeps.monitorOnly fun _ => Keeps.bind (Keeps.refuseIf _ _) fun _ => Keeps.bind (Keeps.refuseIf _ _) fun _ =>
    Keeps.update fun u hu => h.translate _ _ _ (h.congr u _ hu (by simp only [State.core]))) hs

/-! ### Domain changes -/

theorem forwardDomain (t : Word) : Keeps P (forwardDomain t) := by
  intro s hs
  unfold Machine.forwardDomain
  simp only
  split
  · exact trivial
  split
  · exact trivial
  have hb : P s.saveBreakpoint := h.storePkg s.invPkg _ s hs
  have hu := h.storePkg (Config.domainPackage s.dom.cur s.invPkg) s.counterWords _ (h.storePkg
    (Config.stackedPackage s.dom.stackIndex s.invPkg) [(s.params.layout.pWord, joinLen 0 (s.pc + 32)),
      (s.params.layout.bkptWord, s.bkpt), (Layout.dfrWord, s.dfr), (s.params.layout.domWord, s.dom.word)] _
    hb)
  refine h.goto _ _ (h.voidStack _ (h.setDfr _ _ (h.loadRights _ _ ?_)))
  exact h.congr _ _ hu (by simp only [State.core])

theorem backwardDomain : Keeps P backwardDomain := by
  intro s hs
  unfold Machine.backwardDomain
  split
  · exact trivial
  have hu : P s.saveBreakpoint := h.storePkg s.invPkg _ s hs
  exact h.goto _ _ (h.voidStack _ (h.setDfr _ _ (h.loadRights _ _ (h.congr _ _ hu (by simp only [State.core])))))

theorem bsave (hs : P s) (r sd t : Byte) : KeepsResult P (execBsave r sd t s) :=
  .ite (.ite (.refused _) (h.subroutine hs _ _ _)) (.ite (.refused _) (h.run (h.forwardDomain _) hs))

theorem rddom (hs : P s) (r t : Byte) : KeepsResult P (execRddom r t s) := by
  refine h.run32 (Keeps.bind (Keeps.maskedBy _) fun _ => Keeps.update fun u hu => ?_) hs
  simp only
  split
  · exact h.setReg _ _ _ hu
  · exact h.setReg _ _ _ (h.draw _ _ hu)

/-! ### Bits, bytes and the transfer registers -/

theorem loadInto {α : Type} {m : M α} (hm : Keeps P m) (f : α → Word) (t : Byte) :
    Keeps P (m >>= fun v => update (·.setReg t (f v))) := Keeps.bind hm fun _ => h.updateReg _ _

theorem dtob (hs : P s) (r t : Byte) : KeepsResult P (execDtob r t s) :=
  .ite (h.putFree (h.setDfr _ _ (h.draw s _ hs)) t) (.ite (h.putFree (h.setDfr s _ hs) t) (h.put hs t _))

theorem lodc (hs : P s) (r sd t : Byte) : KeepsResult P (execLodc r sd t s) :=
  h.run32 (h.loadInto (h.readByte _) _ t) hs

theorem cpsb (hs : P s) (r sd t : Byte) : KeepsResult P (execCpsb r sd t s) :=
  h.run32 (Keeps.ite (Keeps.pure _) (h.fillBits _ _ fun _ => h.bitOf _ _)) hs

theorem mrgb (hs : P s) (r sd t : Byte) : KeepsResult P (execMrgb r sd t s) :=
  h.run32 (Keeps.ite (Keeps.pure _) (h.fillBits _ _ fun _ => Keeps.ite (h.bitOf _ _) (h.bitOrZero _ _))) hs

theorem maskb (hs : P s) (r sd t : Byte) : KeepsResult P (execMaskb r sd t s) :=
  h.run32 (Keeps.ite (Keeps.pure _) (h.fillBits _ _ fun _ => Keeps.ite (h.bitOf _ _) (h.bitOrZero _ _))) hs

theorem exdom (hs : P s) : KeepsResult P (execExdom s) :=
  h.run (Keeps.bind (Keeps.refuseIf _ _) fun _ => h.backwardDomain) hs

theorem swcqta (hs : P s) (sd t : Byte) : KeepsResult P (execSwcqta sd t s) :=
  h.run32 (Keeps.bind (Keeps.maskedBy _) fun _ => Keeps.update fun u hu =>
    h.congr (u.setReg t (0#32 ++ u.xfer.cqta)) _ (h.setReg u _ _ hu) (by simp only [State.core])) hs

theorem strtio (hs : P s) (sd t : Byte) : KeepsResult P (execStrtio sd t s) :=
  h.run32 (Keeps.bind (Keeps.maskedBy _) fun _ => Keeps.update fun u hu => h.congr u _ hu (by simp only [State.core])) hs

theorem stopio (hs : P s) (sd t : Byte) : KeepsResult P (execStopio sd t s) := by
  refine h.run32 (Keeps.bind (Keeps.maskedBy _) fun _ => Keeps.update fun u hu => ?_) hs
  refine h.congr (if sd = t then { u with free := u.free + 1 }.setReg t (Config.freeWord u.free) else
    (u.setReg sd (0#32 ++ u.xfer.iqha)).setReg t (BitVec.ofBool u.xfer.iqvf ++ 0#31 ++ u.xfer.iqta)) _ ?_ rfl
  split
  · exact h.setReg _ _ _ (h.draw u _ hu)
  · exact h.setReg _ _ _ (h.setReg u _ _ hu)

theorem testio (hs : P s) (t : Byte) : KeepsResult P (execTestio t s) := by
  refine h.run32 (Keeps.bind (Keeps.maskedBy _) fun _ => Keeps.update fun u hu => ?_) hs
  simp only
  have hv := h.setReg u t (BitVec.ofBool u.xfer.iqvf ++ BitVec.ofBool u.xfer.busy ++ u.xfer.fatal ++ 0#22 ++ u.xfer.trbsa) hu
  split
  · exact h.congr _ _ hv (by simp only [State.core])
  · exact hv

theorem enteq (hs : P s) (r sd t : Byte) : KeepsResult P (execEnteq r sd t s) := by
  have leading (a : Addr) (n : Nat) : Keeps P (leadingEquals a n) := h.elements (fun _ _ => Keeps.ite
    (Keeps.bind (h.bitOf _ _) fun _ => Keeps.ite (Keeps.pure _) (Keeps.ite (Keeps.pure _) (Keeps.pure _))) (Keeps.pure _)) _ _
  exact h.run32 (Keeps.ite (Keeps.pure _) (Keeps.bind (leading _ _) fun _ => Keeps.update fun u hu =>
    h.setFreeFlags _ _ _ _ (h.setReg u _ _ hu))) hs

theorem ento (hs : P s) (r sd t : Byte) : KeepsResult P (execEnto r sd t s) :=
  h.run32 (Keeps.ite (Keeps.pure _) (Keeps.bind (h.elements (fun _ _ => Keeps.bind (h.bitOf _ _) fun _ => Keeps.pure _) _ _)
    fun _ => h.updateReg _ _)) hs

/-! ### Branches, the Data Flag Register, and the register swap -/

theorem scnleq (hs : P s) (r sd t : Byte) : KeepsResult P (execScnleq r sd t s) := by
  have scan (v : Byte) (a idx : Addr) (n : Nat) : Keeps P (scanBytes v a idx n) := h.elements (fun _ _ => Keeps.ite
    (Keeps.bind (h.readByte _) fun _ => Keeps.ite (Keeps.pure _) (Keeps.pure _)) (Keeps.pure _)) _ _
  exact h.run32 (Keeps.ite (Keeps.pure _) (Keeps.bind (scan _ _ _ _) fun _ => Keeps.update fun u hu =>
    h.setFreeFlags _ _ _ _ (h.setReg u _ _ hu))) hs

theorem barb (hs : P s) (g sd t : Byte) : KeepsResult P (execBarb g sd t s) := by
  have hu : P (s.alterBit g t) := by
    unfold State.alterBit
    split
    · exact h.setReg s _ _ hs
    · exact hs
  unfold execBarb
  simp only
  split
  · exact .refused _
  · exact .next (h.goto _ _ hu)

theorem bab (hs : P s) (g sd t : Byte) : KeepsResult P (execBab g sd t s) := by
  refine h.run (Keeps.bind (h.readBit _) fun ob => ?_) hs
  have branch : Keeps P (match afterBranch g ob s.pc (s.addr t) (t.setWidth 48) with
      | none => refuse .branchQualifier
      | some a => update (·.goto a)) := by
    split
    · exact Keeps.refuse _
    · exact Keeps.update fun u hu => h.goto u _ hu
  cases altered g ob with
  | some b => exact Keeps.bind (h.writeBit _ _) fun _ => branch
  | none => exact branch

theorem badf (hs : P s) (g : Byte) (im : BitVec 6) (t : Byte) : KeepsResult P (execBadf g im t s) := by
  have hu (b : Bool) : P (if b then { s with free := s.free + 1 } else s) := by
    split
    · exact h.draw s _ hs
    · exact hs
  unfold execBadf
  simp only
  split
  · exact .refused _
  · refine .next ?_
    split
    · exact h.goto _ _ (h.setFlag _ _ _ (hu _))
    · exact h.goto _ _ (hu _)

theorem lsdfr (hs : P s) (r t : Byte) : KeepsResult P (execLsdfr r t s) :=
  .ite (.next (h.next32 _ (h.setDfr _ _ (h.setReg s _ _ hs))))
    (.next (h.next32 _ (h.setDfr _ _ (h.setReg _ _ _ (h.draw s _ hs)))))

theorem wjtime (hs : P s) (r : Byte) : KeepsResult P (execWjtime r s) := by
  refine .next ?_
  split
  · exact h.next32 _ (h.congr s _ hs (by simp only [State.core]))
  · exact h.next32 s hs

theorem mpyxh (hs : P s) (r sd t : Byte) : KeepsResult P (execMpyxh r sd t s) := by
  unfold execMpyxh
  split
  · exact h.put32 hs t _
  · exact h.putFree32 hs t

theorem adjs (hs : P s) (r sd t : Byte) : KeepsResult P (execAdjs r sd t s) := by
  unfold execAdjs
  split
  · exact h.putFp hs _ t _
  · exact .refused _

theorem adjsh (hs : P s) (r sd t : Byte) : KeepsResult P (execAdjsh r sd t s) := by
  unfold execAdjsh
  split
  · exact h.putFp32 hs _ t _
  · exact .refused _

theorem lodh (hs : P s) (r sd t : Byte) : KeepsResult P (execLodh r sd t s) :=
  h.run32 (Keeps.bind (h.readHalf _) fun _ => Keeps.update fun u => h.setReg32 _ _ u) hs

theorem rgap (hs : P s) (r sd t : Byte) : KeepsResult P (execRgap r sd t s) :=
  h.run32 (Keeps.ite (Keeps.stop fun _ => Stop.noConfusion) (Keeps.ite (Keeps.refuse _) (Keeps.ite (Keeps.refuse _)
    (h.elements (fun _ _ => Keeps.ite (h.writeWord _ _) (h.loadInto (h.readWord _) _ _)) _ _)))) hs

/-! ### The linked pair -/

theorem linkedPair (k : Link) (l m : Linkable) (hl : ∀ u v, Keeps P (l.op u v)) (hm : ∀ u v, Keeps P (m.op u v)) (s : State) :
    Keeps P (linkedPair k l m s) := by
  have sources : Keeps P l.sources :=
    Keeps.bind (Keeps.source _ _ _ _) fun _ => Keeps.iteBind (Keeps.source _ _ _ _) (Keeps.pure _) fun _ => Keeps.pure _
  have sources' : Keeps P (linkSources k m) :=
    Keeps.iteBind (Keeps.pure _) (Keeps.source _ _ _ _) fun _ => Keeps.iteBind (Keeps.pure _) (Keeps.source _ _ _ _) fun _ => Keeps.pure _
  have input (c : Bool) (o : Word) (st : Stream) (i : Nat) : Keeps P (linkInput m c o st i) :=
    Keeps.ite (Keeps.pure _) (h.elem _ _ _ _)
  have step (p q : Stream × Stream) (i : Nat) : Keeps P (linkStep k l m p q i) :=
    Keeps.bind (h.elem _ _ _ _) fun _ => Keeps.bind (h.elem _ _ _ _) fun _ => Keeps.bind (hl _ _) fun _ =>
      Keeps.bind (Keeps.update (h.raiseFlags _ _)) fun _ => Keeps.bind (input _ _ _ _) fun _ => Keeps.bind (input _ _ _ _)
        fun _ => hm _ _
  refine Keeps.bind sources fun p => Keeps.bind sources' fun q => Keeps.ite (h.elements (fun i _ => ?_) _ _)
    (Keeps.bind (Keeps.dest _ _ _) fun d => h.vectorLoop _ _ _ fun i => step _ _ i)
  exact Keeps.bind (step p q i) fun _ => Keeps.bind (h.writeBit _ _) fun _ => Keeps.update (h.raiseFlags _ _)

end Closed

/-- What every instruction keeps: a closed property holds of every next state, if it does for #56 and #09, which start a
link and an exchange to Job mode. -/
theorem Closed.exec {P : State → Prop} (h : Closed P) {s : State} (hs : P s) (hl : ∀ r, KeepsResult P (execLinkv r s))
    (he : ∀ r sd t, KeepsResult P (execExit r sd t s)) (i : Instr) : KeepsResult P (exec i s) := by
  cases i with
  | idle => exact h.idle hs
  | nop => exact .next (h.next32 s hs)
  | bkpt r => exact h.bkpt hs r
  | vsb t => exact .next (h.goto _ _ (h.voidStack s hs))
  | fault r => exact .next (h.next32 _ (h.congr s _ hs (by simp only [State.core])))
  | setmod r => exact h.setmod hs r
  | setint r => exact h.setint hs r
  | exit r sd t => exact he r sd t
  | mtime r => exact h.mtime hs r
  | stoar => exact h.stoar hs
  | lodar => exact h.lodar hs
  | rdint t => exact h.rdint hs t
  | lodkey r sd t => exact h.lodkey hs r sd t
  | dtob r t => exact h.dtob hs r t
  | btod r t => exact h.put hs t _
  | lodc r sd t => exact h.lodc hs r sd t
  | stoc r sd t => exact h.run32 (h.writeByte _ _) hs
  | cpsb r sd t => exact h.cpsb hs r sd t
  | mrgb r sd t => exact h.mrgb hs r sd t
  | maskb r sd t => exact h.maskb hs r sd t
  | exdom => exact h.exdom hs
  | swcqta sd t => exact h.swcqta hs sd t
  | strtio sd t => exact h.strtio hs sd t
  | stopio sd t => exact h.stopio hs sd t
  | testio t => exact h.testio hs t
  | maskz r sd t => exact h.run32 (h.repeatedMask _ _ _ _ _) hs
  | masko r sd t => exact h.run32 (h.repeatedMask _ _ _ _ _) hs
  | enteq r sd t => exact h.enteq hs r sd t
  | ento r sd t => exact h.ento hs r sd t
  | bheq r sd t => exact h.compareBranch hs _ _ t
  | bhne r sd t => exact h.compareBranch hs _ _ t
  | bhge r sd t => exact h.compareBranch hs _ _ t
  | bhlt r sd t => exact h.compareBranch hs _ _ t
  | beq r sd t => exact h.compareBranch hs _ _ t
  | bne r sd t => exact h.compareBranch hs _ _ t
  | bge r sd t => exact h.compareBranch hs _ _ t
  | blt r sd t => exact h.compareBranch hs _ _ t
  | scnleq r sd t => exact h.scnleq hs r sd t
  | tfc t => exact h.put hs t _
  | elen r im => exact h.put hs r _
  | addlen r sd t => exact h.put hs t _
  | rxor r sd t => exact h.put hs t _
  | rand r sd t => exact h.put hs t _
  | rior r sd t => exact h.put hs t _
  | barb g sd t => exact h.barb hs g sd t
  | shifti r sd t => exact h.putOpt hs t _
  | ibnz r sd t => exact h.countBranch hs r sd t _
  | bab g sd t => exact h.bab hs g sd t
  | badf g im t => exact h.badf hs g im t
  | shift r sd t => exact h.putOpt hs t _
  | dbnz r sd t => exact h.countBranch hs r sd t _
  | bsave r sd t => exact h.bsave hs r sd t
  | rjtime t => exact .ite (.refused _) (h.put hs t _)
  | ltol r t => exact h.put hs t _
  | clock t => exact h.put hs t _
  | wjtime r => exact h.wjtime hs r
  | lsdfr r t => exact h.lsdfr hs r t
  | mpyxh r sd t => exact h.mpyxh hs r sd t
  | mpyx r sd t => exact h.putOpt hs t _
  | es r im => exact h.put hs r _
  | is r im => exact h.put hs r _
  | adduh r sd t => exact h.putFp32 hs _ t _
  | addlh r sd t => exact h.putFp32 hs _ t _
  | addnh r sd t => exact h.putFp32 hs _ t _
  | subuh r sd t => exact h.putFp32 hs _ t _
  | sublh r sd t => exact h.putFp32 hs _ t _
  | subnh r sd t => exact h.putFp32 hs _ t _
  | mpyuh r sd t => exact h.putFp32 hs _ t _
  | mpylh r sd t => exact h.putFp32 hs _ t _
  | mpysh r sd t => exact h.putFp32 hs _ t _
  | divuh r sd t => exact h.putFp32 hs _ t _
  | esh r im => exact h.put32 hs r _
  | ish r im => exact h.put32 hs r _
  | divsh r sd t => exact h.putFp32 hs _ t _
  | truh r t => exact h.putFp32 hs _ t _
  | flrh r t => exact h.putFp32 hs _ t _
  | clgh r t => exact h.putFp32 hs _ t _
  | sqrth r t => exact h.putFp32 hs _ t _
  | adjsh r sd t => exact h.adjsh hs r sd t
  | adjeh r sd t => exact h.putFp32 hs _ t _
  | linkv r => exact hl r
  | rddom r t => exact h.rddom hs r t
  | rtorh r t => exact h.put32 hs t _
  | absh r t => exact h.putFp32 hs _ t _
  | exph r t => exact h.put32 hs t _
  | packh r sd t => exact h.put32 hs t _
  | exth r t => exact h.putFp hs _ t _
  | extxh r t => exact h.putFp hs _ t _
  | lodh r sd t => exact h.lodh hs r sd t
  | stoh r sd t => exact h.run32 (h.writeHalf _ _) hs
  | addu r sd t => exact h.putFp hs _ t _
  | addl r sd t => exact h.putFp hs _ t _
  | addn r sd t => exact h.putFp hs _ t _
  | addx r sd t => exact h.put hs t _
  | subu r sd t => exact h.putFp hs _ t _
  | subl r sd t => exact h.putFp hs _ t _
  | subn r sd t => exact h.putFp hs _ t _
  | subx r sd t => exact h.put hs t _
  | mpyu r sd t => exact h.putFp hs _ t _
  | mpyl r sd t => exact h.putFp hs _ t _
  | mpys r sd t => exact h.putFp hs _ t _
  | divu r sd t => exact h.putFp hs _ t _
  | insb r sd t => exact .ite (.refused _) (h.putOpt hs t _)
  | extb r sd t => exact .ite (.refused _) (h.putOpt hs t _)
  | divs r sd t => exact h.putFp hs _ t _
  | tru r t => exact h.putFp hs _ t _
  | flr r t => exact h.putFp hs _ t _
  | clg r t => exact h.putFp hs _ t _
  | sqrt r t => exact h.putFp hs _ t _
  | adjs r sd t => exact h.adjs hs r sd t
  | adje r sd t => exact h.putFp hs _ t _
  | con r t => exact h.putFp32 hs _ t _
  | rcon r t => exact h.putFp32 hs _ t _
  | rtor r t => exact h.put hs t _
  | abs r t => exact h.putFp hs _ t _
  | exp r t => exact h.put hs t _
  | pack r sd t => exact h.put hs t _
  | ltor r t => exact h.put hs t _
  | rgap r sd t => exact h.rgap hs r sd t
  | lod r sd t => exact h.run32 (h.loadInto (h.readWord _) _ t) hs
  | sto r sd t => exact h.run32 (h.writeWord _ _) hs
  | adduv g x a y b z c => exact h.vector2 _ _ (fun _ _ => Keeps.pure _) g x a y b z c hs
  | addlv g x a y b z c => exact h.vector2 _ _ (fun _ _ => Keeps.pure _) g x a y b z c hs
  | addnv g x a y b z c => exact h.vector2 _ _ (fun _ _ => Keeps.pure _) g x a y b z c hs
  | addxv g x a y b z c => exact h.vector2 _ _ (fun _ _ => Keeps.pure _) g x a y b z c hs
  | subuv g x a y b z c => exact h.vector2 _ _ (fun _ _ => Keeps.pure _) g x a y b z c hs
  | sublv g x a y b z c => exact h.vector2 _ _ (fun _ _ => Keeps.pure _) g x a y b z c hs
  | subnv g x a y b z c => exact h.vector2 _ _ (fun _ _ => Keeps.pure _) g x a y b z c hs
  | subxv g x a y b z c => exact h.vector2 _ _ (fun _ _ => Keeps.pure _) g x a y b z c hs
  | mpyuv g x a y b z c => exact h.vector2 _ _ (fun _ _ => Keeps.pure _) g x a y b z c hs
  | mpylv g x a y b z c => exact h.vector2 _ _ (fun _ _ => Keeps.pure _) g x a y b z c hs
  | shiftv g x a y b z c => exact h.vector2 _ _ h.shiftElem g x a y b z c hs
  | mpysv g x a y b z c => exact h.vector2 _ _ (fun _ _ => Keeps.pure _) g x a y b z c hs
  | divuv g x a y b z c => exact h.vector2 _ _ (fun _ _ => Keeps.pure _) g x a y b z c hs
  | divsv g x a y b z c => exact h.vector2 _ _ (fun _ _ => Keeps.pure _) g x a y b z c hs
  | truv g x a z c => exact h.vector1 _ _ (fun _ => Keeps.pure _) g x a z c hs
  | flrv g x a z c => exact h.vector1 _ _ (fun _ => Keeps.pure _) g x a z c hs
  | clgv g x a z c => exact h.vector1 _ _ (fun _ => Keeps.pure _) g x a z c hs
  | sqrtv g x a z c => exact h.vector1 _ _ (fun _ => Keeps.pure _) g x a z c hs
  | adjsv g x a y b z c => exact h.vector2 _ _ (h.adjsElem g) g x a y b z c hs
  | adjev g x a y b z c => exact h.vector2 _ _ (fun _ _ => Keeps.pure _) g x a y b z c hs
  | conv g x a z c => exact h.vector1 _ _ (fun _ => Keeps.pure _) g x a z c hs
  | rconv g x a z c => exact h.vector1 _ _ (fun _ => Keeps.pure _) g x a z c hs
  | vtov g x a z c => exact h.vector1 _ _ (fun _ => Keeps.pure _) g x a z c hs
  | absv g x a z c => exact h.vector1 _ _ (fun _ => Keeps.pure _) g x a z c hs
  | expv g x a z c => exact h.vector1 _ _ (fun _ => Keeps.pure _) g x a z c hs
  | packv g x a y b z c => exact h.vector2 _ _ (fun _ _ => Keeps.pure _) g x a y b z c hs
  | extv g x a z c => exact h.vector1 _ _ (fun _ => Keeps.pure _) g x a z c hs
  | xorv g x a y b z c => exact h.vector2 _ _ (fun _ _ => Keeps.pure _) g x a y b z c hs
  | andv g x a y b z c => exact h.vector2 _ _ (fun _ _ => Keeps.pure _) g x a y b z c hs
  | iorv g x a y b z c => exact h.vector2 _ _ (fun _ _ => Keeps.pure _) g x a y b z c hs
  | nandv g x a y b z c => exact h.vector2 _ _ (fun _ _ => Keeps.pure _) g x a y b z c hs
  | norv g x a y b z c => exact h.vector2 _ _ (fun _ _ => Keeps.pure _) g x a y b z c hs
  | ornv g x a y b z c => exact h.vector2 _ _ (fun _ _ => Keeps.pure _) g x a y b z c hs
  | andnv g x a y b z c => exact h.vector2 _ _ (fun _ _ => Keeps.pure _) g x a y b z c hs
  | xornv g x a y b z c => exact h.vector2 _ _ (fun _ _ => Keeps.pure _) g x a y b z c hs
  | addus g x a y b z c => exact h.sparse _ _ g x a y b z c hs
  | addls g x a y b z c => exact h.sparse _ _ g x a y b z c hs
  | addns g x a y b z c => exact h.sparse _ _ g x a y b z c hs
  | subus g x a y b z c => exact h.sparse _ _ g x a y b z c hs
  | subls g x a y b z c => exact h.sparse _ _ g x a y b z c hs
  | subns g x a y b z c => exact h.sparse _ _ g x a y b z c hs
  | mpyus g x a y b z c => exact h.sparse _ _ g x a y b z c hs
  | mpyls g x a y b z c => exact h.sparse _ _ g x a y b z c hs
  | mpyss g x a y b z c => exact h.sparse _ _ g x a y b z c hs
  | divus g x a y b z c => exact h.sparse _ _ g x a y b z c hs
  | divss g x a y b z c => exact h.sparse _ _ g x a y b z c hs
  | ibxeqBr g x a y b z c => exact h.intBranch hs _ _ g x a y b z c
  | ibxeqSc g x a y z c => exact h.intSet hs _ _ g x a y z c
  | cfpeqBr g x a y b => exact h.fpBranch hs _ g x a y b
  | cfpeqSc g x a y => exact h.fpSet hs _ g x a y
  | ibxneBr g x a y b z c => exact h.intBranch hs _ _ g x a y b z c
  | ibxneSc g x a y z c => exact h.intSet hs _ _ g x a y z c
  | cfpneBr g x a y b => exact h.fpBranch hs _ g x a y b
  | cfpneSc g x a y => exact h.fpSet hs _ g x a y
  | ibxgeBr g x a y b z c => exact h.intBranch hs false (fun l r => decide (r ≤ l)) g x a y b z c
  | ibxgeSc g x a y z c => exact h.intSet hs false (fun l r => decide (r ≤ l)) g x a y z c
  | cfpgeBr g x a y b => exact h.fpBranch hs _ g x a y b
  | cfpgeSc g x a y => exact h.fpSet hs _ g x a y
  | ibxltBr g x a y b z c => exact h.intBranch hs false (fun l r => decide (l < r)) g x a y b z c
  | ibxltSc g x a y z c => exact h.intSet hs false (fun l r => decide (l < r)) g x a y z c
  | cfpltBr g x a y b => exact h.fpBranch hs _ g x a y b
  | cfpltSc g x a y => exact h.fpSet hs _ g x a y
  | ibxleBr g x a y b z c => exact h.intBranch hs false (fun l r => decide (l ≤ r)) g x a y b z c
  | ibxleSc g x a y z c => exact h.intSet hs false (fun l r => decide (l ≤ r)) g x a y z c
  | cfpleBr g x a y b => exact h.fpBranch hs _ g x a y b
  | cfpleSc g x a y => exact h.fpSet hs _ g x a y
  | ibxgtBr g x a y b z c => exact h.intBranch hs false (fun l r => decide (r < l)) g x a y b z c
  | ibxgtSc g x a y z c => exact h.intSet hs false (fun l r => decide (r < l)) g x a y z c
  | cfpgtBr g x a y b => exact h.fpBranch hs _ g x a y b
  | cfpgtSc g x a y => exact h.fpSet hs _ g x a y
  | bim r im => exact .next (h.goto s _ hs)
  | vtovx g x a y b c => exact h.vtovx hs g x a y b c
  | vrevv g x a z c => exact h.vrevv hs g x a z c
  | vxtov g x a y b c => exact h.vxtov hs g x a y b c
  | maskv g x a y b z c => exact h.maskv hs g x a y b z c
  | cpsv g x a z c => exact h.cpsv hs g x a z c
  | mrgv g x a y b z c => exact h.mrgv hs g x a y b z c
  | ex r im => exact h.put64 hs r _
  | ix r im => exact h.put64 hs r _
  | seleq g x a y b z c => exact h.select _ g x a y b z c hs
  | selne g x a y b z c => exact h.select _ g x a y b z c hs
  | selge g x a y b z c => exact h.select _ g x a y b z c hs
  | sellt g x a y b z c => exact h.select _ g x a y b z c hs
  | cmpeq g x a y b z => exact h.compareVector _ g x a y b z hs
  | cmpne g x a y b z => exact h.compareVector _ g x a y b z hs
  | cmpge g x a y b z => exact h.compareVector _ g x a y b z hs
  | cmplt g x a y b z => exact h.compareVector _ g x a y b z hs
  | srcheq g x a y b z c => exact h.searchList _ g x a y b z c hs
  | srchne g x a y b z c => exact h.searchList _ g x a y b z c hs
  | srchge g x a y b z c => exact h.searchList _ g x a y b z c hs
  | srchlt g x a y b z c => exact h.searchList _ g x a y b z c hs
  | mcmpw g x a b c => exact h.mcmpw hs g x a b c
  | exh r im => exact h.put32wide hs r _
  | ixh r im => exact h.put32wide hs r _
  | acps g x a y b z c => exact h.acps hs g x a y b z c
  | avg g x a y b z c => exact h.vector2 _ _ (fun _ _ => Keeps.pure _) g x a y b z c hs
  | adjmean g x a z c => exact h.adjacent fpHalf g x a z c hs
  | avgd g x a y b z c => exact h.vector2 _ _ (fun _ _ => Keeps.pure _) g x a y b z c hs
  | delta g x a z c => exact h.adjacent (fun w => fpSub w .norm) g x a z c hs
  | max g x a b z c => exact h.extreme _ g x a b z c hs
  | min g x a b z c => exact h.extreme _ g x a b z c hs
  | sum g x a z c => exact h.sum hs g x a z c
  | product g x a z c => exact h.product hs g x a z c
  | dotv g x a y b z c => exact h.dotv hs g x a y b z c
  | interval g a b z c => exact h.interval hs g a b z c
  | xor x a y b z c => exact h.stringLogic _ x a y b z c hs
  | and x a y b z c => exact h.stringLogic _ x a y b z c hs
  | ior x a y b z c => exact h.stringLogic _ x a y b z c hs
  | nand x a y b z c => exact h.stringLogic _ x a y b z c hs
  | nor x a y b z c => exact h.stringLogic _ x a y b z c hs
  | orn x a y b z c => exact h.stringLogic _ x a y b z c hs
  | andn x a y b z c => exact h.stringLogic _ x a y b z c hs
  | xorn x a y b z c => exact h.stringLogic _ x a y b z c hs
  | movl x a b z c => exact h.movl hs x a b z c
  | post g x b c => exact h.postSemaphore hs g x b c
  | wait g x a b c => exact h.waitSemaphore hs g x a b c
  | bbswap g x a b c => exact h.bbswap hs g x a b c
  | bbldst g x a b c => exact h.bbldst hs g x a b c
  | cbld g x c => exact h.cbld hs g x c
  | cbsto g x c => exact h.cbsto hs g x c

end Sys2Proof.Machine
end

