-- ==== Sys2Proof/Proofs/Invariant.lean ====
section
/-! PROOFS. What every step keeps: the invariant of the machine, and a zero Interrupt Register in Job mode
(spec/60_exceptions.md, spec/10_state.md). -/

-- One declaration at a time, as in the tests: many at once need a thread each.
set_option Elab.async false

namespace Sys2Proof.Machine

/-! ### Fetching, linking, and what stands between two instructions -/

namespace Steady

variable {P : State → Prop} (h : Steady P)
include h

theorem fetchHalf (va : Addr) : Keeps P (fetchHalf va) := by
  refine Keeps.bind (h.physical _ _) fun p => Keeps.bind Keeps.get fun u => ?_
  split
  · exact Keeps.pure _
  · exact Keeps.bind h.drawFree fun _ => Keeps.pure _

theorem fetchBytes (pc : Addr) : Keeps P (fetchBytes pc) :=
  Keeps.bind (h.fetchHalf pc) fun _ => Keeps.ite (Keeps.pure _) (Keeps.bind (h.fetchHalf _) fun _ => Keeps.pure _)

end Steady

namespace Closed

variable {P : State → Prop} {s : State} (h : Closed P)
include h

/-- The operation of an instruction that may be linked. -/
theorem linkable_op {i : Instr} {l : Linkable} (hi : linkable i = some l) (u v : Word) : Keeps P (l.op u v) := by
  unfold linkable at hi
  split at hi
  case h_1 => cases hi; exact h.shiftElem u v
  all_goals cases hi
  all_goals exact Keeps.pure _

theorem tickMit (n : Nat) (hs : P s) : P (s.tickMit n) := by
  unfold State.tickMit
  split
  · exact hs
  · split
    · exact h.post _ _ (h.congr s _ hs (by simp only [State.core]))
    · exact h.congr s _ hs (by simp only [State.core])

theorem tickJit (n : Nat) (hs : P s) : P (s.tickJit n) := by
  unfold State.tickJit
  split
  · exact hs
  · split
    · exact h.setFlag _ _ _ (h.congr s _ hs (by simp only [State.core]))
    · exact h.congr s _ hs (by simp only [State.core])

theorem passTime (n : Nat) (hs : P s) : P (s.passTime n) := by
  unfold State.passTime
  exact h.tickJit _ (h.tickMit _ (h.congr s _ hs (by simp only [State.core])))

theorem arrive (hs : P s) : P s.arrive := by
  have hu := h.congr s { s with arrivals := (s.arrivals.filter (· != 0)).map (· - 1) } hs (by simp only [State.core])
  unfold State.arrive
  simp only
  split
  · exact h.post _ _ hu
  · exact hu

theorem takeUp (hs : P s) : P s.takeUp := h.congr s _ hs (by simp only [State.core, State.takeUp])

theorem countCycles (hs : P s) : P s.countCycles := by
  unfold State.countCycles
  exact h.arrive (h.takeUp (h.passTime _ (h.congr s _ hs (by simp only [State.core]))))

theorem otherStores (l : List (Nat × Byte)) : ∀ {s : State}, P s → P (s.otherStores l) := by
  induction l with
  | nil => exact fun hs => hs
  | cons c rest ih => exact fun hs => ih (h.putByte _ _ _ hs)

theorem otherBuffer (l : List (Nat × Byte)) : ∀ {s : State}, P s → P (s.otherBuffer l) := by
  induction l with
  | nil => exact fun hs => hs
  | cons c rest ih => exact fun hs => ih (h.setBuffer _ _ _ hs)

theorem forceMode (f : ForceExec) (hs : P s) : P (s.forceMode f) := by
  cases f with
  | none => exact h.congr s _ hs (by simp only [State.core, State.forceMode])
  | serial =>
    exact h.congr { s with serial := true, stale := [] } _ (h.serial s hs)
      (by simp only [State.core, State.forceMode, State.voidStack])
  | parallel => exact h.congr { s with serial := false } _ (h.parallel s hs) (by simp only [State.core, State.forceMode])

theorem masterClear (hs : P s) : P s.masterClear := by
  have hm := h.resume _ (h.toMonitorMode s hs)
  unfold State.masterClear
  refine h.goto _ _ ?_
  cases decide (s.forceExec = ForceExec.serial) with
  | false =>
    refine h.congr _ _ (h.voidStack _ (h.setDfr _ 0 (h.parallel _ hm))) ?_
    simp only [State.core, State.voidStack, State.setDfr]
  | true =>
    refine h.congr _ _ (h.setDfr _ 0 (h.serial _ hm)) ?_
    simp only [State.core, State.voidStack, State.setDfr]

theorem receive (e : Input) (hs : P s) : P (s.receive e) := by
  have transfer (x : Option Transfer) {u : State} (hu : P u) :
      P (match x with | some x => { u with xfer := x } | none => u) := by
    cases x with
    | some x => exact h.congr u _ hu (by simp only [State.core])
    | none => exact hu
  have force (f : Option ForceExec) {u : State} (hu : P u) : P (match f with | some f => u.forceMode f | none => u) := by
    cases f with
    | some f => exact h.forceMode f hu
    | none => exact hu
  have asked := h.congr s { s with ir := s.ir ||| (e.irq &&& s.asynchronous) } hs (by simp only [State.core])
  have hu := force e.force (transfer e.transfer (h.otherBuffer e.cbWrites (h.otherStores e.memWrites (h.passTime e.nanos asked))))
  unfold State.receive
  simp only
  cases e.masterClear with
  | true => exact h.masterClear hu
  | false => exact hu

theorem inputs (hs : P s) : P s.inputs := by
  unfold State.inputs
  split
  · exact hs
  · exact h.receive _ (h.congr s _ hs (by simp only [State.core]))

theorem dataFlagBranch (hs : P s) : P s.dataFlagBranch := by
  unfold State.dataFlagBranch
  split
  · exact h.goto _ _ (h.setFlag _ _ _ (h.setReg s _ _ hs))
  · exact hs

theorem interrupts (hs : P s) : P s.interrupts := by
  unfold State.interrupts
  split
  · exact h.toMonitor s _ hs
  · exact hs

theorem wake (hs : P s) : P s.wake := by
  unfold State.wake
  split
  · exact h.dataFlagBranch (h.resume _ (h.endIdle s hs))
  · exact hs

theorem after (hs : P s) : P s.after := by
  unfold State.after
  split
  · exact h.wake (h.inputs (h.countCycles hs))
  · exact h.interrupts (h.dataFlagBranch (h.inputs (h.countCycles hs)))

/-! ### A step -/

/-- What an error of the fetch comes to keeps the property. -/
theorem fetchError {pc : Addr} {e : Stop} (hs : P s) (he : Machine.fetchBytes pc s = .error e) :
    KeepsResult P (Machine.settle s (.error e)) := by
  have hk := h.fetchBytes pc s hs
  rw [he] at hk
  refine h.settle ?_ hs
  cases e <;> exact hk

/-- A step that answers a next state ends some state with the property, if the instructions that start a link or an
exchange to Job mode keep it. -/
theorem step_next {t : State} (hs : P s)
    (hx : s.stopped = false → ∀ bytes u, Machine.fetchBytes s.pc s = .ok (bytes, u) → P u →
      (∀ r, KeepsResult P (execLinkv r u)) ∧ ∀ r sd t, KeepsResult P (execExit r sd t u))
    (ht : step s = .next t) : ∃ u, P u ∧ t = u.after := by
  have ended {r : Result} (hr : KeepsResult P r) (e : afterOutcome r = .next t) : ∃ u, P u ∧ t = u.after := by
    cases r with
    | next u => cases e; exact ⟨u, hr u rfl, rfl⟩
    | fault => cases e
    | refused => cases e
  unfold step at ht
  split at ht
  · cases ht
    exact ⟨s, hs, rfl⟩
  next hstop =>
  split at ht
  · next e he => exact ended (h.fetchError hs he) ht
  next bytes u hu =>
    have hk : P u := by
      have := h.fetchBytes s.pc s hs
      rwa [hu] at this
    obtain ⟨hl, he⟩ := hx (Bool.eq_false_iff.mpr hstop) bytes u hu hk
    split at ht
    · cases ht; exact ⟨_, h.typeOne u hk, rfl⟩
    · cases ht; exact ⟨_, h.typeTwo u hk, rfl⟩
    · cases ht
    · exact ended (h.exec hk hl he _) ht

end Closed

/-! ### #56 and #09 -/

/-- An outcome with an answer and a state as `Q` says, or an abandoned instruction that leaves a state with `P`. -/
def Reached {α : Type} (P : State → Prop) (Q : α → State → Prop) : Except Stop (α × State) → Prop
  | .ok x => Q x.1 x.2
  | .error (.partly t) => P t
  | .error _ => True

/-- From a state with `P` the computation leaves, at its end, an answer and a state as `Q` says, and where it is abandoned
a state with `P`. -/
def Finishes {α : Type} (P : State → Prop) (Q : α → State → Prop) (m : M α) : Prop := ∀ s, P s → Reached P Q (m s)

namespace Finishes

variable {α β : Type} {P : State → Prop}

theorem bind {V : α → Prop} {Q : β → State → Prop} {m : M α} {k : α → M β} (hm : Finishes P (fun a t => V a ∧ P t) m)
    (hk : ∀ a, V a → Finishes P Q (k a)) : Finishes P Q (m >>= k) := by
  intro s hs
  have h1 := hm s hs
  have e : (m >>= k) s = (m s).bind fun x => k x.1 x.2 := rfl
  rw [e]
  cases h : m s with
  | error r => rw [h] at h1; cases r <;> exact h1
  | ok x => rw [h] at h1; exact hk x.1 h1.1 x.2 h1.2

theorem of_keeps {m : M α} (h : Keeps P m) : Finishes P (fun _ t => True ∧ P t) m := by
  intro s hs
  have h1 := h s hs
  cases e : m s with
  | error r => rw [e] at h1; cases r <;> exact h1
  | ok x => rw [e] at h1; exact ⟨trivial, h1⟩

theorem bindKeeps {Q : β → State → Prop} {m : M α} {k : α → M β} (hm : Keeps P m) (hk : ∀ a, Finishes P Q (k a)) :
    Finishes P Q (m >>= k) := bind (of_keeps hm) fun a _ => hk a

theorem pure {V : α → Prop} {x : α} (hx : V x) : Finishes P (fun a t => V a ∧ P t) (Pure.pure x : M α) :=
  fun _ hs => ⟨hx, hs⟩

theorem refuse {Q : α → State → Prop} (r : Refusal) : Finishes P Q (refuse r : M α) := fun _ _ => trivial

theorem update {Q : Unit → State → Prop} {f : State → State} (h : ∀ s, P s → Q () (f s)) : Finishes P Q (update f) := h

end Finishes

/-- An instruction that is fetched for a linked pair keeps what its operation is given to keep. -/
theorem Closed.fetchLinked {P : State → Prop} (h : Closed P) (pc : Addr) :
    Finishes P (fun l t => (∀ u v, Keeps P (Linkable.op l u v)) ∧ P t) (fetchLinked pc) := by
  refine Finishes.bindKeeps (h.fetchBytes pc) fun bytes => ?_
  cases decode bytes with
  | error e => exact Finishes.refuse _
  | ok d =>
    refine Finishes.bindKeeps (Keeps.refuseIf _ _) fun _ => ?_
    cases hl : linkable d.instr with
    | some l => exact Finishes.pure fun u v => h.linkable_op hl u v
    | none => exact Finishes.refuse _

/-- What #56 comes to, when its computation has come out as `r`. -/
theorem Closed.settleTo {P Q : State → Prop} (hP : Closed P) (hQ : Closed Q) (finish : ∀ s, P s → Q { s with link := .none })
    {s : State} (hs : Q s) {r : Except Stop (Unit × State)} (hr : Reached P (fun _ => Q) r) :
    KeepsResult Q (Machine.settle s r) := by
  intro t ht
  rcases settle_next ht with e | ⟨free, e, rfl⟩ | ⟨left, rfl, rfl⟩ | ⟨e, rfl⟩ | ⟨e, rfl⟩ | ⟨lockout, limit, e, rfl⟩
  · subst e
    exact hr
  · exact hQ.accessInterrupt _ _ (hQ.draw s free hs)
  · exact finish _ (hP.accessInterrupt left s.pc hr)
  · exact hQ.typeOne s hs
  · exact hQ.typeTwo s hs
  · exact hQ.bufferFault s _ _ hs

/-- #56 keeps `Q`, if what holds while the pair is linked is kept too. -/
theorem Closed.linkv {P Q : State → Prop} (hP : Closed P) (hQ : Closed Q) (start : ∀ s k, Q s → P { s with link := k })
    (finish : ∀ s, P s → Q { s with link := .none }) {s : State} (hs : Q s) (r : Byte) : KeepsResult Q (execLinkv r s) := by
  unfold execLinkv
  refine KeepsResult.ite (.next (hQ.next32 s hs)) ?_
  have body : Finishes P (fun _ => Q) (do
      let l ← Machine.fetchLinked (s.pc + 32)
      let m ← Machine.fetchLinked (s.pc + 96)
      refuseIf (!linkValid (linkOf r) l m) .linkInvalid
      Machine.linkedPair (linkOf r) l m s
      Machine.update fun t => { t with link := .none }.goto (s.pc + 160)) :=
    Finishes.bind (hP.fetchLinked _) fun l hl => Finishes.bind (hP.fetchLinked _) fun m hm =>
      Finishes.bindKeeps (Keeps.refuseIf _ _) fun _ => Finishes.bindKeeps (hP.linkedPair _ l m hl hm s) fun _ =>
        Finishes.update fun t ht => hQ.goto _ _ (finish t ht)
  exact hP.settleTo hQ finish hs (body _ (start s (linkOf r) hs))

/-- #09 keeps a closed property, if the exchange to Job mode does. -/
theorem Closed.exit {P : State → Prop} (h : Closed P) {s : State} (hs : P s) (hj : ∀ rf pkg, P (s.toJob rf pkg))
    (r sd t : Byte) : KeepsResult P (execExit r sd t s) := by
  have exchange (rf pkg : Addr) : Kept P (exchangeToJob rf pkg s) := by
    unfold exchangeToJob
    repeat'
      split
      next => exact trivial
    exact hj rf pkg
  unfold execExit
  split
  · refine h.settle ?_ hs
    unfold refuseIf
    split
    · exact trivial
    · exact exchange _ _
  · exact h.run (Keeps.bind (Keeps.maskedBy _) fun _ => Keeps.bind (Keeps.refuseIf _ _) fun _ => Keeps.update fun u hu =>
      h.toMonitor _ _ (h.post u _ hu)) hs

/-! ### The invariant of the machine (R16, R22, R31, R46, R61, R85) -/

/-- The invariant of the machine, and inside a linked pair (`linked`) the invariant without its part about the link. -/
structure State.Sound (linked : Bool) (s : State) : Prop where
  memory : Memory.wf s.mem = true
  buffer : Memory.wf s.cb = true
  aligned : halfAligned s.pc = s.pc
  derived : deriveDfr s.dfr = s.dfr
  unlinked : linked = false → s.link = .none
  serialVoid : s.serial = true → s.stale = []

theorem State.sound_iff_inv (s : State) : s.Sound false ↔ s.Inv :=
  ⟨fun h => ⟨h.memory, h.buffer, h.aligned, h.derived, h.unlinked rfl, h.serialVoid⟩,
    fun h => ⟨h.memory, h.buffer, h.aligned, h.derived, fun _ => h.unlinked, h.serialVoid⟩⟩

theorem State.keepStale_serialVoid {s : State} (hs : s.serial = true → s.stale = []) (k n : Nat) :
    (s.keepStale k n).serial = true → (s.keepStale k n).stale = [] := by
  unfold State.keepStale
  split
  · exact hs
  · next hf => exact fun h => absurd h hf

theorem State.Sound.store {b : Bool} {s : State} (h : s.Sound b) {m : List Host.Cell} (hm : Memory.wf m = true)
    (a : Vector Word 16) (k n : Nat) : State.Sound b { s with ar := a, mem := m, stale := (s.keepStale k n).stale } := by
  refine ⟨hm, h.buffer, h.aligned, h.derived, h.unlinked, fun hs => ?_⟩
  exact State.keepStale_serialVoid h.serialVoid k n ((s.keepStale_serial k n).trans hs)

theorem closed_sound (b : Bool) : Closed (State.Sound b) where
  congr s t h e := by
    simp only [State.core, Prod.mk.injEq] at e
    obtain ⟨hmem, hcb, hpc, hdfr, hlink, hserial, hstale, -, -⟩ := e
    exact ⟨hmem ▸ h.memory, hcb ▸ h.buffer, hpc ▸ h.aligned, hdfr ▸ h.derived, hlink ▸ h.unlinked,
      hserial ▸ hstale ▸ h.serialVoid⟩
  pushDown s i w h := s.pushDown_eq i w ▸ h.store (wf_pushTable h.memory _ _ _) _ _ _
  setDfr s x h := ⟨h.memory, h.buffer, h.aligned, deriveDfr_deriveDfr x, h.unlinked, h.serialVoid⟩
  setReg s n v h := ⟨h.memory, h.buffer, h.aligned, h.derived, h.unlinked, h.serialVoid⟩
  draw s k h := ⟨h.memory, h.buffer, h.aligned, h.derived, h.unlinked, h.serialVoid⟩
  putWord s p v h := s.putWord_eq p v ▸ h.store (Memory.wf_setWord h.memory _ _) _ _ _
  putHalf s p v h := s.putHalf_eq p v ▸ h.store (Memory.wf_setHalf h.memory _ _) _ _ _
  putByte s p v h := s.putByte_eq p v ▸ h.store (Memory.wf_setByte h.memory _ _) _ _ _
  goto s a h := ⟨h.memory, h.buffer, halfAligned_idem a, h.derived, h.unlinked, h.serialVoid⟩
  voidStack s h := ⟨h.memory, h.buffer, h.aligned, h.derived, h.unlinked, fun _ => rfl⟩
  abandon s t c k _ h := ⟨h.memory, h.buffer, h.aligned, deriveDfr_deriveDfr _, h.unlinked, h.serialVoid⟩
  toMonitorMode s h := ⟨h.memory, h.buffer, h.aligned, h.derived, fun _ => rfl, h.serialVoid⟩
  wait s w _ h := ⟨h.memory, h.buffer, h.aligned, h.derived, h.unlinked, h.serialVoid⟩
  resume s h := ⟨h.memory, h.buffer, h.aligned, h.derived, h.unlinked, h.serialVoid⟩
  parallel s h := ⟨h.memory, h.buffer, h.aligned, h.derived, h.unlinked, Bool.noConfusion⟩
  serial s h := ⟨h.memory, h.buffer, h.aligned, h.derived, h.unlinked, fun _ => rfl⟩
  setBuffer s a v h := ⟨h.memory, Memory.wf_setByte h.buffer a v, h.aligned, h.derived, h.unlinked, h.serialVoid⟩

theorem State.Sound.toJob {s : State} (h : s.Sound false) (rf pkg : Addr) : (s.toJob rf pkg).Sound false := by
  have hc := closed_sound false
  have hu : State.Sound false { s with jobRF := rf, invPkg := pkg } := hc.congr s _ h (by simp only [State.core])
  have mode {u : State} (hv : u.Sound false) : State.Sound false { u with mode := .job } :=
    ⟨hv.memory, hv.buffer, hv.aligned, hv.derived, hv.unlinked, hv.serialVoid⟩
  have invisible {u : State} (hv : u.Sound false) : (u.loadInvisible pkg).Sound false := by
    unfold State.loadInvisible
    exact hc.goto _ _ (hc.loadRights _ _ (hc.setDfr _ _ (hc.congr u _ hv (by simp only [State.core]))))
  unfold State.toJob
  exact hc.voidStack _ (mode (invisible (hc.exchangeRegs _ _ _ _ hu)))

/-! ### Stopped in Monitor mode only (R633, R665) -/

/-- A stopped CPU is in Monitor mode. -/
def State.StopsInMonitor (s : State) : Prop := s.waits = .running ∨ s.mode = .monitor

theorem State.stopsInMonitor_iff (s : State) : s.StopsInMonitor ↔ (s.stopped = true → s.mode = .monitor) := by
  unfold State.StopsInMonitor State.stopped
  rw [bne_iff_ne, Classical.or_iff_not_imp_left]

theorem closed_stopsInMonitor : Closed State.StopsInMonitor where
  congr s t h e := by
    simp only [State.core, Prod.mk.injEq] at e
    obtain ⟨-, -, -, -, -, -, -, hwaits, hmode⟩ := e
    unfold State.StopsInMonitor at h ⊢
    rwa [← hwaits, ← hmode]
  pushDown s i w h := s.pushDown_eq i w ▸ h
  setDfr _ _ h := h
  setReg _ _ _ h := h
  draw _ _ h := h
  putWord s p v h := s.putWord_eq p v ▸ h
  putHalf s p v h := s.putHalf_eq p v ▸ h
  putByte s p v h := s.putByte_eq p v ▸ h
  goto _ _ h := h
  voidStack _ h := h
  abandon _ _ _ _ _ h := h
  toMonitorMode _ _ := .inr rfl
  wait _ _ hm _ := .inr hm
  resume _ _ := .inl rfl
  parallel _ h := h
  serial _ h := h
  setBuffer _ _ _ h := h

/-- The fetch leaves a running CPU running. -/
theorem running_of_fetchBytes {s u : State} {bytes : List Byte} (hs : s.waits = .running)
    (h : fetchBytes s.pc s = .ok (bytes, u)) : u.waits = .running := by
  have steady : Steady fun s => s.waits = .running :=
    { pushDown := fun s i w h => s.pushDown_eq i w ▸ h
      setDfr := fun _ _ h => h
      setReg := fun _ _ _ h => h
      draw := fun _ _ h => h
      putWord := fun s p v h => s.putWord_eq p v ▸ h
      putHalf := fun s p v h => s.putHalf_eq p v ▸ h
      putByte := fun s p v h => s.putByte_eq p v ▸ h }
  have := steady.fetchBytes s.pc s hs
  rwa [h] at this

/-! ### The Interrupt Register between two instructions -/

theorem State.interrupts_exchange {s : State} (hm : s.mode = .job) (hi : s.ir ≠ 0) : s.interrupts = s.toMonitor s.pc :=
  if_pos ⟨hm, hi⟩

theorem State.interrupts_none {s : State} (h : s.mode = .monitor ∨ s.ir = 0) : s.interrupts = s := by
  refine if_neg ?_
  rintro ⟨hm, hi⟩
  rcases h with h | h
  · rw [h] at hm
    exact Mode.noConfusion hm
  · exact hi h

/-- After the interrupts have been looked at, a CPU in Job mode has none. -/
theorem State.interrupts_ir {s : State} (h : s.interrupts.mode = .job) : s.interrupts.ir = 0 := by
  unfold State.interrupts at h ⊢
  split
  · next hc => rw [if_pos hc] at h; exact Mode.noConfusion h
  · next hc =>
    rw [if_neg hc] at h
    exact Classical.not_not.mp fun hi => hc ⟨h, hi⟩

/-- An instruction other than #09 leaves a CPU in Monitor mode there, and so does what stands between two instructions. -/
theorem closed_inMonitor : Closed (fun s => s.mode = .monitor) where
  congr s t h e := by
    simp only [State.core, Prod.mk.injEq] at e
    obtain ⟨-, -, -, -, -, -, -, -, hmode⟩ := e
    exact hmode ▸ h
  pushDown s i w h := s.pushDown_eq i w ▸ h
  setDfr _ _ h := h
  setReg _ _ _ h := h
  draw _ _ h := h
  putWord s p v h := s.putWord_eq p v ▸ h
  putHalf s p v h := s.putHalf_eq p v ▸ h
  putByte s p v h := s.putByte_eq p v ▸ h
  goto _ _ h := h
  voidStack _ h := h
  abandon _ _ _ _ _ h := h
  toMonitorMode _ _ := rfl
  wait _ _ _ h := h
  resume _ h := h
  parallel _ h := h
  serial _ h := h
  setBuffer _ _ _ h := h

/-- The exchange to Job mode does not stop the CPU. -/
theorem State.toJob_waits (s : State) (rf pkg : Addr) : (s.toJob rf pkg).waits = s.waits := by
  have stored (u : State) : (u.storeRegs 0 256).waits = u.waits :=
    storeRegs_field State.waits (fun t a v => by rw [setAbsWord_eq]) 0 256 u
  have started (u : State) : (State.voidStack { u.loadInvisible pkg with mode := .job }).waits = u.waits := rfl
  unfold State.toJob
  rw [started]
  split
  · rfl
  · exact (State.loadRegs_waits _ _).trans (stored _)

/-- After the end of an instruction that stopped the CPU in Monitor mode only, a CPU in Job mode has no interrupt left. -/
theorem State.after_ir {s : State} (hs : s.StopsInMonitor) (hm : s.after.mode = .job) : s.after.ir = 0 := by
  unfold State.after at hm ⊢
  split
  · next hstop =>
    rw [if_pos hstop] at hm
    have hmon := s.stopsInMonitor_iff.mp hs hstop
    have := closed_inMonitor.wake (closed_inMonitor.inputs (closed_inMonitor.countCycles hmon))
    rw [this] at hm
    exact Mode.noConfusion hm
  · next hstop =>
    rw [if_neg hstop] at hm
    exact State.interrupts_ir hm

end Sys2Proof.Machine

namespace Sys2Proof
open Machine

/-- Settles O8: the invariant is closed under every change that a step makes. -/
theorem stepKeepsInv : Obligations.StepKeepsInv := by
  intro s t hs ht
  have hc := closed_sound false
  have hi := s.sound_iff_inv.mpr hs
  obtain ⟨u, hu, rfl⟩ := hc.step_next hi (fun _ _ u _ hu =>
    ⟨(closed_sound true).linkv hc (fun s k h => ⟨h.memory, h.buffer, h.aligned, h.derived, Bool.noConfusion, h.serialVoid⟩)
      (fun s h => ⟨h.memory, h.buffer, h.aligned, h.derived, fun _ => rfl, h.serialVoid⟩) hu, hc.exit hu hu.toJob⟩) ht
  exact (State.sound_iff_inv _).mp (hc.after hu)

/-- Settles O15: a CPU stops in Monitor mode only, which every step keeps, and a running CPU ends its step with the
interrupts. -/
theorem noInterruptLeftInJob : Obligations.NoInterruptLeftInJob := by
  refine ⟨fun s => ⟨State.interrupts_exchange, State.interrupts_none⟩, fun s t hs ht => ?_⟩
  have hc := closed_stopsInMonitor
  have hx (hrun : s.stopped = false) (bytes : List Byte) (u : State) (hf : fetchBytes s.pc s = .ok (bytes, u))
      (hu : u.StopsInMonitor) : (∀ r, KeepsResult State.StopsInMonitor (execLinkv r u)) ∧
        ∀ r sd t, KeepsResult State.StopsInMonitor (execExit r sd t u) := by
    have hw : u.waits = .running := running_of_fetchBytes (bne_eq_false_iff_eq.mp hrun) hf
    exact ⟨hc.linkv hc (fun _ _ h => h) (fun _ h => h) hu, hc.exit hu fun rf pkg => .inl ((u.toJob_waits rf pkg).trans hw)⟩
  obtain ⟨u, hu, rfl⟩ := hc.step_next (s.stopsInMonitor_iff.mpr hs) hx ht
  exact ⟨(State.stopsInMonitor_iff _).mp (hc.after hu), State.after_ir hu⟩

end Sys2Proof
end

