-- ==== Sys2Proof/Proofs/Steps.lean ====
section
/-! PROOFS. A step: what a fetch in Monitor mode reads, what becomes of the fetched bytes, and a stopped CPU
(spec/60_exceptions.md R633, R643, spec/20_memory.md R66). -/

-- One declaration at a time, as in the tests: many at once need a thread each.
set_option Elab.async false

namespace Sys2Proof.Machine

/-! ### Fetching (R66, R93) -/

theorem fetchHalf_monitor {s : State} (hm : s.mode = .monitor) (hs : s.stale = []) (va : Addr) :
    fetchHalf va s = .ok (Memory.half s.mem (4 * (s.wrap va.toNat / 32)), s) := by
  have hf (k : Nat) : s.fetchable k = [Memory.half s.mem (4 * k)] := by simp [State.fetchable, hs]
  show Except.bind (physical .fetch va s) _ = _
  rw [physical_monitor hm]
  show (match s.fetchable (s.wrap va.toNat / 32) with
    | [v] => pure v
    | vs => do
      let k ← drawFree
      return vs.getD (k.toNat % vs.length) 0 : M Half) s = _
  rw [hf]
  rfl

/-- In Monitor mode, with nothing in the instruction stack that memory does not hold, a fetch reads CP memory. -/
theorem fetchBytes_monitor {s : State} (hm : s.mode = .monitor) (hs : s.stale = []) (pc : Addr) :
    fetchBytes pc s = .ok (s.instructionBytes pc, s) := by
  show Except.bind (fetchHalf pc s) _ = _
  rw [fetchHalf_monitor hm hs]
  unfold State.instructionBytes
  simp only [Except.bind]
  split
  · rfl
  · show Except.bind (fetchHalf (pc + 32) s) _ = _
    rw [fetchHalf_monitor hm hs]
    rfl

/-! ### What becomes of the fetched bytes (R126) -/

theorem step_of_fetch {s t : State} {bytes : List Byte} (hs : s.stopped = false) (hf : fetchBytes s.pc s = .ok (bytes, t)) :
    step s = match t.judge bytes with
      | .typeOne => .next t.typeOne.after
      | .typeTwo => .next t.typeTwo.after
      | .unclean => .refused .unusedFieldNonZero
      | .run i => afterOutcome (exec i t) := by
  unfold step
  rw [if_neg (by simp [hs])]
  split
  · next e he => rw [hf] at he; cases he
  · next b u hu => rw [hf] at hu; cases hu; rfl

theorem State.judge_run {s : State} {bytes : List Byte} {i : Instr} (hd : decode bytes = .ok ⟨i, true⟩)
    (ht : s.isTypeTwo (bytes.headD 0).toNat = false) : s.judge bytes = .run i := by
  simp only [State.judge, hd, ht, Bool.false_eq_true, if_false, if_true]

theorem step_of_decode {s t : State} {bytes : List Byte} (hs : s.stopped = false) (hf : fetchBytes s.pc s = .ok (bytes, t))
    {i : Instr} (hd : decode bytes = .ok ⟨i, true⟩) (ht : t.isTypeTwo (bytes.headD 0).toNat = false) :
    step s = afterOutcome (exec i t) := by
  rw [step_of_fetch hs hf, State.judge_run hd ht]

theorem isTypeTwo_monitor {s : State} (hm : s.mode = .monitor) (f : Nat) : s.isTypeTwo f = false := by
  simp [State.isTypeTwo, hm]

/-- An unused function code is no instruction, whatever stands behind it. -/
theorem decode_unused {f : Byte} (hf : f.toNat ∈ unusedCodes) (rest : List Byte) : ∃ e, decode (f :: rest) = .error e := by
  by_cases h32 : f.toNat < 0x80
  · match rest with
    | r :: sd :: t :: more =>
      refine ⟨_, Eq.trans ?_ ((decode_code f r sd t 0 0 0 0 []).1 hf)⟩
      simp only [decode, if_pos h32]
    | [] => exact ⟨_, rfl⟩
    | [_] => exact ⟨_, rfl⟩
    | [_, _] => exact ⟨_, rfl⟩
  · match rest with
    | r :: sd :: t :: y :: b :: z :: c :: more => exact ⟨_, (decode_code f r sd t y b z c more).1 hf⟩
    | [_, _, _] | [_, _, _, _] | [_, _, _, _, _] | [_, _, _, _, _, _] =>
      refine ⟨.truncated, ?_⟩
      simp only [decode, if_neg h32]
    | [] => exact ⟨_, rfl⟩
    | [_] => exact ⟨_, rfl⟩
    | [_, _] => exact ⟨_, rfl⟩

theorem step_of_unused {s t : State} {f : Byte} {rest : List Byte} (hs : s.stopped = false)
    (hf : fetchBytes s.pc s = .ok (f :: rest, t)) (hu : f.toNat ∈ unusedCodes) : step s = .next t.typeOne.after := by
  obtain ⟨e, he⟩ := decode_unused hu rest
  rw [step_of_fetch hs hf]
  simp [State.judge, he]

/-! ### A stopped CPU (R633, R680) -/

theorem State.typeOne_monitor {s : State} (hm : s.mode = .monitor) :
    s.typeOne = { s.post 58 with waits := .masterClear } := by
  unfold State.typeOne
  split
  · next hj => rw [hm] at hj; exact Mode.noConfusion hj
  · rfl

theorem State.stopped_of_waits {s : State} {w : Wait} (h : s.waits = w) (hw : w ≠ .running) : s.stopped = true := by
  unfold State.stopped
  rw [h]
  exact bne_iff_ne.mpr hw

theorem State.after_stopped {s : State} (h : s.stopped = true) : s.after = s.countCycles.inputs.wake := if_pos h

theorem State.inputs_nil {s : State} (h : s.env = []) : s.inputs = s := by
  unfold State.inputs
  rw [h]

theorem State.wake_of_waits {s : State} (h : s.waits ≠ .interrupt) : s.wake = s := if_neg fun hc => h hc.1

/-- While a CPU waits for a Master Clear and no input comes, only time passes. -/
theorem State.after_masterClear {s : State} (hw : s.waits = .masterClear) (he : s.env = []) : s.after = s.countCycles := by
  have henv : s.countCycles.env = [] := (State.countCycles_env s).trans he
  have hwaits : s.countCycles.waits = .masterClear := (State.countCycles_waits s).trans hw
  rw [State.after_stopped (State.stopped_of_waits hw Wait.noConfusion), State.inputs_nil henv]
  exact State.wake_of_waits (by rw [hwaits]; exact Wait.noConfusion)

/-- A Master Clear on the tape of inputs lets a stopped CPU go on. -/
theorem State.receive_masterClear (s : State) {e : Input} (he : e.masterClear = true) :
    ∃ u : State, s.receive e = u.masterClear := by
  unfold State.receive
  simp only [he, if_true]
  exact ⟨_, rfl⟩

end Sys2Proof.Machine

namespace Sys2Proof
open Machine

/-- Settles O5: `judge` is the order of the checks. -/
theorem stepRunsDecoded : Obligations.StepRunsDecoded := by
  intro s t bytes hs hf
  refine ⟨fun i hd ht => step_of_decode hs hf hd ht, ?_⟩
  rw [step_of_fetch hs hf]
  unfold State.judge
  cases decode bytes with
  | error e => rfl
  | ok d =>
    simp only
    by_cases ht : t.isTypeTwo (bytes.headD 0).toNat
    · simp only [if_pos ht]
    · simp only [if_neg ht]
      by_cases hc : d.clean
      · simp only [if_pos hc]
      · simp only [if_neg hc]

/-- Settles O6: the fetch reads memory, and the bytes it reads decode to the instruction they encode. -/
theorem monitorStepRunsMemory : Obligations.MonitorStepRunsMemory := by
  intro s i hm hs hst hw hb
  have hf := fetchBytes_monitor hm hst s.pc
  have hd := decode_encode i [] hw
  rw [List.append_nil, ← hb] at hd
  exact step_of_decode hs hf hd (isTypeTwo_monitor hm _)

/-- Settles O7. -/
theorem monitorTypeOneStops : Obligations.MonitorTypeOneStops := by
  refine ⟨fun s f rest hm hs hst he hb hf => ?_, fun s hw he => ?_, fun s e rest hs he hc => ?_⟩
  · have hread := fetchBytes_monitor hm hst s.pc
    rw [hb] at hread
    rw [step_of_unused hs hread hf, State.typeOne_monitor hm]
    exact congrArg Host.Outcome.next (State.after_masterClear rfl he)
  · unfold step
    rw [if_pos (State.stopped_of_waits hw Wait.noConfusion), State.after_masterClear hw he]
  · obtain ⟨u, hu⟩ := State.receive_masterClear { s.countCycles with env := rest } hc
    have hi : s.countCycles.inputs = u.masterClear := by
      unfold State.inputs
      rw [State.countCycles_env, he]
      exact hu
    refine ⟨u.masterClear, ?_, rfl, rfl, rfl, rfl⟩
    unfold step
    rw [if_pos hs, State.after_stopped hs, hi, State.wake_of_waits Wait.noConfusion]

/-- Settles O9. -/
theorem resetInv : Obligations.ResetInv := ⟨rfl, rfl, rfl, rfl, rfl, fun _ => rfl⟩

/-- Settles O10. -/
theorem masterClearLeaves : Obligations.MasterClearLeaves :=
  ⟨fun _ => ⟨rfl, rfl, rfl, rfl, rfl, rfl, rfl, rfl, rfl, rfl, rfl, rfl, rfl, rfl, rfl, rfl⟩, rfl⟩

end Sys2Proof
end

