-- ==== Sys2Proof/Proofs/Runs.lean ====
section
/-! PROOFS. How an instruction that is a computation comes out, from how its parts come out (spec/60_exceptions.md R630,
R652). -/

-- One declaration at a time, as in the tests: many at once need a thread each.
set_option Elab.async false

namespace Sys2Proof.Machine

/-! ### Computations that end or stop -/

theorem bind_ok {α β : Type} {m : M α} {k : α → M β} {s t : State} {a : α} (h : m s = .ok (a, t)) : (m >>= k) s = k a t := by
  show Except.bind (m s) _ = _
  rw [h]
  rfl

theorem bind_error {α β : Type} {m : M α} {k : α → M β} {s : State} {e : Stop} (h : m s = .error e) :
    (m >>= k) s = .error e := by
  show Except.bind (m s) _ = _
  rw [h]
  rfl

theorem run_of_ok {m : M Unit} {s t : State} (h : m s = .ok ((), t)) : run m s = .next t := by
  unfold run
  rw [h]
  rfl

theorem run32_of_ok {m : M Unit} {s t : State} (h : m s = .ok ((), t)) : run32 m s = .next t.next32 :=
  run_of_ok (bind_ok h)

theorem run64_of_ok {m : M Unit} {s t : State} (h : m s = .ok ((), t)) : run64 m s = .next t.next64 :=
  run_of_ok (bind_ok h)

theorem run_of_error {m : M Unit} {s : State} {e : Stop} (h : m s = .error e) : run m s = settle s (.error e) :=
  congrArg (settle s) h

theorem run32_of_error {m : M Unit} {s : State} {e : Stop} (h : m s = .error e) : run32 m s = settle s (.error e) :=
  run_of_error (bind_error h)

theorem run64_of_error {m : M Unit} {s : State} {e : Stop} (h : m s = .error e) : run64 m s = settle s (.error e) :=
  run_of_error (bind_error h)

theorem refuseIf_false {b : Bool} {r : Refusal} {s : State} (h : b = false) : refuseIf b r s = .ok ((), s) := by
  subst h
  rfl

theorem refuseIf_true {b : Bool} {r : Refusal} {s : State} (h : b = true) : refuseIf b r s = .error (.refuse r) := by
  subst h
  rfl

/-! ### Legality (R634, R652) -/

theorem monitorOnly_monitor {s : State} (h : s.mode = .monitor) : monitorOnly s = .ok ((), s) := by
  simp [monitorOnly, h]

theorem monitorOnly_job {s : State} (h : s.mode = .job) : monitorOnly s = .error .typeTwo := by
  simp [monitorOnly, h]

theorem maskedBy_allowed {s : State} {b : Nat} (h : s.forbidden b = false) : maskedBy b s = .ok ((), s) := by
  simp [maskedBy, h]

theorem maskedBy_forbidden {s : State} {b : Nat} (h : s.forbidden b = true) : maskedBy b s = .error .typeTwo := by
  simp [maskedBy, h]

theorem forbidden_job {s : State} {b : Nat} (hm : s.mode = .job) (h : bitAt s.dom.iim b = true) : s.forbidden b = true := by
  simp [State.forbidden, hm, h]

theorem forbidden_monitor {s : State} (hm : s.mode = .monitor) (b : Nat) : s.forbidden b = false := by
  simp [State.forbidden, hm]

end Sys2Proof.Machine
end

