-- ==== Sys2Proof/Proofs/Control.lean ====
section
/-! PROOFS. Monitor and system control, timers, the transfer registers, and what stands between two instructions
(spec/41_monitor_system.md, spec/42_bit_byte_sm.md, spec/60_exceptions.md). -/

-- One declaration at a time, as in the tests: many at once need a thread each.
set_option Elab.async false

namespace Sys2Proof.Machine

/-! ### Idle (R200, R665) -/

theorem State.wake_idle {s : State} (hw : s.waits = .interrupt) (hi : s.ir ≠ 0) :
    s.wake = State.dataFlagBranch { s.endIdle with waits := .running } := if_pos ⟨hw, hi⟩

theorem State.dataFlagBranch_none {s : State} (h : (bitAt s.dfr 51 && bitAt s.dfr 52) = false) : s.dataFlagBranch = s := by
  unfold State.dataFlagBranch
  rw [h]
  rfl

theorem State.dataFlagBranch_due {s : State} (h : (bitAt s.dfr 51 && bitAt s.dfr 52) = true) :
    s.dataFlagBranch = ((s.setReg 1 (joinLen 0 s.pc)).setFlag 52 false).goto (s.addr 2) := by
  unfold State.dataFlagBranch
  rw [h]
  rfl

/-! ### Traps in Job mode (R639, R652) -/

/-- The instructions with a bit in the Illegal Instruction Mask look at it first. -/
theorem run_masked {b : Nat} {k : Unit → M Unit} {s : State} (hm : s.mode = .job) (h : bitAt s.dom.iim b = true) :
    run (maskedBy b >>= k) s = .next s.typeTwo :=
  run_of_error (bind_error (maskedBy_forbidden (forbidden_job hm h)))

theorem run32_masked {b : Nat} {k : Unit → M Unit} {s : State} (hm : s.mode = .job) (h : bitAt s.dom.iim b = true) :
    run32 (maskedBy b >>= k) s = .next s.typeTwo :=
  run32_of_error (bind_error (maskedBy_forbidden (forbidden_job hm h)))

theorem run64_masked {b : Nat} {k : Unit → M Unit} {s : State} (hm : s.mode = .job) (h : bitAt s.dom.iim b = true) :
    run64 (maskedBy b >>= k) s = .next s.typeTwo :=
  run64_of_error (bind_error (maskedBy_forbidden (forbidden_job hm h)))

/-- The Monitor's instructions are Type Two illegal in Job mode. -/
theorem run32_monitorOnly {k : Unit → M Unit} {s : State} (hm : s.mode = .job) :
    run32 (monitorOnly >>= k) s = .next s.typeTwo :=
  run32_of_error (bind_error (monitorOnly_job hm))

theorem execExit_job {s : State} (hm : s.mode = .job) (r sd t : Byte) : execExit r sd t s = run (do
      maskedBy 5
      refuseIf (r != 0 || sd != 0 || t != 0) .unusedFieldNonZero
      update fun s => (s.post 62).toMonitor (halfAligned (s.pc + 32))) s := by
  unfold execExit
  rw [hm]

/-! ### The interval timers (R33, R34, R660) -/

theorem State.tickMit_zero {s : State} (n : Nat) (h : s.mit = 0) : s.tickMit n = s := if_pos h

theorem State.tickMit_reached {s : State} {n : Nat} (h : s.mit ≠ 0) (hn : s.mit.toNat ≤ n) :
    s.tickMit n = { s with mit := 0 }.post 60 := by
  unfold State.tickMit
  rw [if_neg h, if_pos hn]

theorem State.tickMit_running {s : State} {n : Nat} (hn : n < s.mit.toNat) :
    s.tickMit n = { s with mit := s.mit - BitVec.ofNat 32 n } := by
  have h : s.mit ≠ 0 := by
    intro e
    rw [e] at hn
    exact absurd hn (Nat.not_lt_zero n)
  unfold State.tickMit
  rw [if_neg h, if_neg (by omega)]

theorem State.tickJit_stands {s : State} (n : Nat) (h : s.mode = .monitor ∨ s.jit = 0) : s.tickJit n = s := if_pos h

theorem State.tickJit_reached {s : State} {n : Nat} (hm : s.mode = .job) (h : s.jit ≠ 0) (hn : s.jit.toNat ≤ n) :
    s.tickJit n = { s with jit := 0 }.setFlag 36 true := by
  unfold State.tickJit
  rw [if_neg (by simpa [hm] using h), if_pos hn]

theorem State.tickJit_running {s : State} {n : Nat} (hm : s.mode = .job) (hn : n < s.jit.toNat) :
    s.tickJit n = { s with jit := s.jit - BitVec.ofNat 32 n } := by
  have h : s.jit ≠ 0 := by
    intro e
    rw [e] at hn
    exact absurd hn (Nat.not_lt_zero n)
  unfold State.tickJit
  rw [if_neg (by simpa [hm] using h), if_neg (by omega)]

/-- A timer that has not reached zero has gone down by what passed. -/
theorem toNat_sub_ofNat {x : Half} {n : Nat} (h : n < x.toNat) : (x - BitVec.ofNat 32 n).toNat = x.toNat - n := by
  have := x.isLt
  rw [BitVec.toNat_sub_of_le, BitVec.toNat_ofNat]
  · omega
  · rw [BitVec.le_def, BitVec.toNat_ofNat]
    omega

/-! ### External interrupts (R206, R632) -/

theorem State.takeUp_one {s : State} {w : Word} {sent : List Word} (hs : s.sent = w :: sent) (ht : s.taken = sent.length) :
    s.takeUp = if bitAt w s.params.cpuId.toNat then
        { s with taken := sent.length + 1, free := s.free + 1, arrivals := s.arrivals ++ [Config.delay s.free] }
      else { s with taken := sent.length + 1 } := by
  unfold State.takeUp
  rw [hs, ht]
  have h1 : (w :: sent).length - sent.length = 1 := by simp
  rw [h1]
  cases h : bitAt w s.params.cpuId.toNat <;> simp [h]

theorem State.arrive_of_mem {s : State} (h : 0 ∈ s.arrivals) : bitAt s.arrive.ir s.params.cpuId.toNat = true := by
  unfold State.arrive
  simp only [List.contains_iff_mem, h, if_true]
  exact bitAt_setBitAt_self _ _ (Nat.lt_trans s.params.cpuId.isLt (by decide))

theorem State.arrive_arrivals (s : State) : s.arrive.arrivals = (s.arrivals.filter (· != 0)).map (· - 1) := by
  unfold State.arrive
  simp only
  split <;> rfl

theorem State.mem_arrive_arrivals {s : State} {d : Nat} (h : d + 1 ∈ s.arrivals) : d ∈ s.arrive.arrivals := by
  rw [State.arrive_arrivals]
  exact List.mem_map.mpr ⟨d + 1, List.mem_filter.mpr ⟨h, by simp⟩, by simp⟩

/-! ### The results of the instructions -/

section
variable {s : State} (r sd t : Byte)

theorem exec_idle (hm : s.mode = .monitor) :
    exec .idle s = .next (if s.ir = 0 then { s with waits := .interrupt } else s.endIdle) :=
  run_of_ok (bind_ok (monitorOnly_monitor hm))

/-- What #07 makes of the state. -/
def State.withMode (s : State) (r : Byte) : State :=
  if s.forceExec = .none then
    if bitAt r 7 then { s with serial := true }.voidStack else { s with serial := false }
  else s

theorem exec_setmod (h : s.forbidden 3 = false) : exec (.setmod r) s = .next (s.withMode r).next32 :=
  run32_of_ok (bind_ok (maskedBy_allowed h))

theorem exec_mtime (hm : s.mode = .monitor) : exec (.mtime r) s = .next { s with mit := rightHalf (s.reg r) }.next32 :=
  run32_of_ok (bind_ok (monitorOnly_monitor hm))

theorem exec_rdint (hm : s.mode = .monitor) : exec (.rdint t) s = .next { s.setReg t s.ir with ir := 0 }.next32 :=
  run32_of_ok (bind_ok (monitorOnly_monitor hm))

theorem exec_rjtime (hm : s.mode = .job) : exec (.rjtime t) s = s.put t (0#32 ++ s.jit) :=
  if_neg (by rw [hm]; exact Mode.noConfusion)

theorem exec_wjtime_job (hm : s.mode = .job) : exec (.wjtime r) s = .next { s with jit := rightHalf (s.reg r) }.next32 :=
  congrArg Host.Outcome.next (if_pos hm)

theorem exec_wjtime_monitor (hm : s.mode = .monitor) : exec (.wjtime r) s = .next s.next32 :=
  congrArg Host.Outcome.next (if_neg (by rw [hm]; exact Mode.noConfusion))

theorem exec_setint (hf : s.forbidden 4 = false) (hd : s.reg r &&& ~~~s.destinations = 0) :
    exec (.setint r) s = .next { s with sent := s.reg r :: s.sent }.next32 :=
  run32_of_ok ((bind_ok (maskedBy_allowed hf)).trans (bind_ok (refuseIf_false (by rw [hd]; rfl))))

theorem exec_swcqta (hf : s.forbidden 10 = false) : exec (.swcqta sd t) s =
    .next { s.setReg t (0#32 ++ s.xfer.cqta) with xfer := { s.xfer with cqta := rightHalf (s.reg sd) } }.next32 :=
  run32_of_ok (bind_ok (maskedBy_allowed hf))

theorem exec_strtio (hf : s.forbidden 11 = false) : exec (.strtio sd t) s =
    .next { s with xfer := { s.xfer with iqha := rightHalf (s.reg sd), iqta := rightHalf (s.reg t), iqvf := true } }.next32 :=
  run32_of_ok (bind_ok (maskedBy_allowed hf))

/-- What #1A leaves in registers S and T. -/
def State.stopRegs (s : State) (sd t : Byte) : State :=
  if sd = t then { s with free := s.free + 1 }.setReg t (Config.freeWord s.free)
  else (s.setReg sd (0#32 ++ s.xfer.iqha)).setReg t (BitVec.ofBool s.xfer.iqvf ++ 0#31 ++ s.xfer.iqta)

theorem exec_stopio (hf : s.forbidden 12 = false) : exec (.stopio sd t) s =
    .next { s.stopRegs sd t with xfer := { s.xfer with iqvf := false } }.next32 :=
  run32_of_ok (bind_ok (maskedBy_allowed hf))

/-- What #1B leaves in register T. -/
def State.testReg (s : State) (t : Byte) : State :=
  s.setReg t (BitVec.ofBool s.xfer.iqvf ++ BitVec.ofBool s.xfer.busy ++ s.xfer.fatal ++ 0#22 ++ s.xfer.trbsa)

theorem exec_testio (hf : s.forbidden 13 = false) : exec (.testio t) s = .next (if !s.xfer.busy && bitAt s.xfer.fatal 0 then
    { s.testReg t with xfer := { s.xfer with iqvf := false, fatal := 0 } } else s.testReg t).next32 :=
  run32_of_ok (bind_ok (maskedBy_allowed hf))

end

end Sys2Proof.Machine

namespace Sys2Proof
open Machine

/-- Settles O14. -/
theorem jobModeTraps : Obligations.JobModeTraps := by
  intro s r sd t g x a b c
  refine ⟨fun hm => ⟨fun hf => ?_, ?_, ?_⟩, isTypeTwo_monitor⟩
  · rw [show exec (.exit 0 0 0) s = execExit 0 0 0 s from rfl, execExit_job hm]
    exact run_of_ok ((bind_ok (maskedBy_allowed hf)).trans rfl)
  · simp only [List.forall_mem_cons]
    refine ⟨run_of_error (bind_error (monitorOnly_job hm)), run32_monitorOnly hm, run32_monitorOnly hm,
      run32_monitorOnly hm, run32_monitorOnly hm, run32_monitorOnly hm, fun _ h => by cases h⟩
  · simp only [List.forall_mem_cons]
    refine ⟨run32_masked hm, run32_masked hm, fun h => ?_, run32_masked hm, run32_masked hm, run32_masked hm, run32_masked hm,
      run32_masked hm, run_masked hm, run_masked hm, run_masked hm, run_masked hm, run64_masked hm, run64_masked hm,
      fun _ h => by cases h⟩
    exact (execExit_job hm r sd t).trans (run_masked hm h)

/-- Settles O16. -/
theorem dataFlagBranch : Obligations.DataFlagBranch := by
  refine ⟨fun s hs he => ?_, fun s => ⟨fun ⟨h51, h52⟩ => ?_, fun h => ?_⟩⟩
  · have henv : s.countCycles.env = [] := (State.countCycles_env s).trans he
    show s.after = s.countCycles.dataFlagBranch.interrupts
    unfold State.after State.between
    rw [if_neg (by simp [hs]), State.inputs_nil henv]
  · rw [State.dataFlagBranch_due (by rw [h51, h52]; rfl)]
    have kept (k : Nat) (hk : k < 64) (hd : k ∉ derivedBits) := bitAt_setFlag_stored (s.setReg 1 (joinLen 0 s.pc)) false
      (i := 52) (by omega) hk hd
    refine ⟨by simp, ?_, rfl, ⟨fun h => (by cases h), fun k hk hf hd => ?_⟩, fun n hn => ?_, rfl⟩
    · exact (kept 52 (by omega) (by decide)).trans (if_pos rfl)
    · exact (kept k hk hd).trans (if_neg fun e => hf (by simp [e]))
    · rw [State.goto_reg, State.setFlag_reg, State.setReg_reg_ne _ _ hn]
  · exact State.dataFlagBranch_none (by simpa using h)

/-- Settles O17. -/
theorem intervalTimers : Obligations.IntervalTimers := by
  intro s n
  refine ⟨State.tickMit_zero n, State.tickMit_reached, fun hn => ?_, State.tickJit_stands n, fun hm h hn => ?_, fun hm hn => ?_⟩
  · rw [State.tickMit_running hn]
    exact ⟨toNat_sub_ofNat hn, rfl⟩
  · rw [State.tickJit_reached hm h hn]
    exact ⟨rfl, (bitAt_setFlag_stored _ true (by omega) (by omega) (by decide)).trans (if_pos rfl)⟩
  · rw [State.tickJit_running hm hn]
    exact ⟨toNat_sub_ofNat hn, rfl⟩

/-- Settles O21. -/
theorem controlResults : Obligations.ControlResults := by
  intro s r t
  refine ⟨fun hm hi => ?_, fun hm hi => ?_, fun hw he => ?_, fun hw hi => ?_, fun hw hi hd => ?_, rfl, fun hr => ?_, rfl, rfl,
    fun hf he hb => ?_, fun hf he hb => ?_, fun hf he => ?_⟩
  · rw [exec_idle hm, if_pos hi]
  · rw [exec_idle hm, if_neg hi]
    rfl
  · have henv : s.countCycles.env = [] := (State.countCycles_env s).trans he
    have hstop := State.stopped_of_waits hw Wait.noConfusion
    unfold step
    rw [if_pos hstop, State.after_stopped hstop, State.inputs_nil henv]
  · exact if_neg fun hc => hc.2 hi
  · rw [State.wake_idle hw hi]
    exact State.dataFlagBranch_none hd
  · exact if_neg (not_not_intro hr)
  · rw [exec_setmod r hf, State.withMode, if_pos he, if_pos hb]
    rfl
  · rw [exec_setmod r hf, State.withMode, if_pos he, if_neg (by rw [hb]; exact Bool.false_ne_true)]
    rfl
  · rw [exec_setmod r hf, State.withMode, if_neg he]
    rfl

/-- Settles O22. -/
theorem timerResults : Obligations.TimerResults := fun _ r t =>
  ⟨exec_mtime r, exec_rdint t, fun hm => registerResult_of_put (exec_rjtime t hm), exec_wjtime_job r, exec_wjtime_monitor r,
    registerResult_of_put rfl, registerResult_of_put rfl⟩

/-- Settles O23. -/
theorem transferResults : Obligations.TransferResults := by
  intro s r sd t
  refine ⟨exec_setint r, fun w sent => State.takeUp_one, State.arrive_of_mem, fun d => State.mem_arrive_arrivals,
    exec_swcqta sd t, exec_strtio sd t, fun hf => ⟨_, exec_stopio sd t hf, rfl, fun hne => ?_, fun n hs ht => ?_, ?_⟩,
    fun hf => ⟨_, exec_testio t hf, ?_, ?_, fun n hn => ?_, ?_⟩⟩
  · show (s.stopRegs sd t).reg sd = _ ∧ (s.stopRegs sd t).reg t = _
    rw [State.stopRegs, if_neg hne, State.setReg_reg_ne _ _ hne, State.setReg_reg_self, State.setReg_reg_self]
    exact ⟨rfl, rfl⟩
  · show (s.stopRegs sd t).reg n = _
    unfold State.stopRegs
    split
    · rw [State.setReg_reg_ne _ _ ht]
      rfl
    · rw [State.setReg_reg_ne _ _ ht, State.setReg_reg_ne _ _ hs]
  · unfold State.stopRegs
    split <;> rfl
  · rw [State.next32_reg]
    split <;> exact State.setReg_reg_self s t _
  · by_cases h : s.xfer.busy = false ∧ bitAt s.xfer.fatal 0 = true
    · rw [if_pos h, if_pos (by simp [h])]
      rfl
    · rw [if_neg h, if_neg (by simpa using h)]
      rfl
  · rw [State.next32_reg]
    split <;> exact State.setReg_reg_ne s _ hn
  · split <;> rfl

end Sys2Proof
end

