-- ==== Sys2Proof/Proofs/Frame.lean ====
section
/-! PROOFS. What an instruction leaves as it was: the frame of the claims, kept by each of the shared operations, and the
claims of completion assembled from it. -/

-- One declaration at a time, as in the tests: many at once need a thread each.
set_option Elab.async false

namespace Sys2Proof.Machine

/-- From `s` to `t` only the registers in `changed`, the data flags in `flags` and the bytes in `stored` may have changed,
besides the program address, what the instruction stack remembers of stored bytes, and the free values drawn. -/
structure State.Frame (s t : State) (changed : Byte → Prop) (flags : List Nat) (stored : Nat → Prop) : Prop where
  regs : ∀ n, ¬ changed n → t.reg n = s.reg n
  flagsOnly : s.FlagsOnly t flags
  wf : Memory.wf s.mem = true → Memory.wf t.mem = true
  bytes : Memory.wf s.mem = true → ∀ a, ¬ stored a → Memory.byte t.mem a = Memory.byte s.mem a
  same : (∀ a, ¬ stored a) → t.mem = s.mem ∧ t.stale = s.stale
  rest : t = { s with regs := t.regs, dfr := t.dfr, mem := t.mem, stale := t.stale, pc := t.pc, free := t.free }

/-! ### Flag sets -/

/-- The bits that a flag set raises are among `flags`. -/
def FpFlags.Raises (f : FpFlags) (k : FlagKind) (flags : List Nat) : Prop :=
  flags ≠ [] ∧ ∀ j, j < 64 → bitAt (raisedBits k f) j = true → j ∈ flags

theorem bitAt_oneBitIf (b : Bool) (i : Nat) {k : Nat} (hi : i < 64) (hk : k < 64) :
    bitAt (if b then oneBit 64 i else 0 : Word) k = (b && decide (k = i)) := by
  cases b
  · exact bitAt_zero k
  · exact bitAt_oneBit i k hi hk

theorem bitAt_bits (f : FpFlags) {k : Nat} (hk : k < 64) : bitAt f.bits k =
    ((f.divide && decide (k = 41)) || (f.overflow && decide (k = 42)) || (f.zero && decide (k = 43)) ||
      (f.root && decide (k = 45)) || (f.indefinite && decide (k = 46))) := by
  unfold FpFlags.bits
  rw [bitAt_or, bitAt_or, bitAt_or, bitAt_or, bitAt_oneBitIf _ _ (by omega) hk, bitAt_oneBitIf _ _ (by omega) hk,
    bitAt_oneBitIf _ _ (by omega) hk, bitAt_oneBitIf _ _ (by omega) hk, bitAt_oneBitIf _ _ (by omega) hk]

theorem bitAt_pipeBits (f : FpFlags) {k : Nat} (hk : k < 64) : bitAt f.pipeBits k =
    ((f.divide && decide (k = 59)) || (f.overflow && decide (k = 60)) || (f.zero && decide (k = 61)) ||
      (f.root && decide (k = 62)) || (f.indefinite && decide (k = 63))) := by
  unfold FpFlags.pipeBits
  rw [bitAt_or, bitAt_or, bitAt_or, bitAt_or, bitAt_oneBitIf _ _ (by omega) hk, bitAt_oneBitIf _ _ (by omega) hk,
    bitAt_oneBitIf _ _ (by omega) hk, bitAt_oneBitIf _ _ (by omega) hk, bitAt_oneBitIf _ _ (by omega) hk]


theorem bitAt_raisedBits_convert (f : FpFlags) {k : Nat} (hk : k < 64) : bitAt (raisedBits .convert f) k =
    (bitAt f.bits k || (!f.isEmpty && decide (k = 58))) := by
  show bitAt (f.bits ||| _) k = _
  rw [bitAt_or]
  cases f.isEmpty
  · exact congrArg _ (bitAt_oneBit 58 k (by omega) hk)
  · exact congrArg _ (bitAt_zero k)

/-- The data flags 41 to 46 that a flag set names are among `flags`. -/
structure FpFlags.Among (f : FpFlags) (flags : List Nat) : Prop where
  divide : f.divide = true → 41 ∈ flags
  overflow : f.overflow = true → 42 ∈ flags
  zero : f.zero = true → 43 ∈ flags
  root : f.root = true → 45 ∈ flags
  indefinite : f.indefinite = true → 46 ∈ flags

namespace FpFlags

variable {f : FpFlags} {flags : List Nat}

theorem Among.mem_of_bits (h : f.Among flags) {k : Nat} (hk : k < 64) (hb : bitAt f.bits k = true) : k ∈ flags := by
  rw [bitAt_bits f hk] at hb
  simp only [Bool.or_eq_true, Bool.and_eq_true, decide_eq_true_eq] at hb
  rcases hb with (((⟨h1, rfl⟩ | ⟨h1, rfl⟩) | ⟨h1, rfl⟩) | ⟨h1, rfl⟩) | ⟨h1, rfl⟩
  · exact h.divide h1
  · exact h.overflow h1
  · exact h.zero h1
  · exact h.root h1
  · exact h.indefinite h1

theorem Among.scalar (h : f.Among flags) (hne : flags ≠ []) : f.Raises .scalar flags := ⟨hne, fun _ hk => h.mem_of_bits hk⟩

theorem Among.convert (h : f.Among flags) (h58 : 58 ∈ flags) : f.Raises .convert flags :=
  ⟨List.ne_nil_of_mem h58, fun k hk hb => by
    rw [bitAt_raisedBits_convert f hk, Bool.or_eq_true, Bool.and_eq_true, decide_eq_true_eq] at hb
    rcases hb with hb | ⟨-, rfl⟩
    · exact h.mem_of_bits hk hb
    · exact h58⟩

/-- The flags of a vector instruction with their duplicates. -/
theorem Among.vector (h : f.Among flags) : f.Raises .vector (vectorFlags flags) := by
  have up {a b : Nat} (ha : a ∈ flags) (hb : (if a = 41 then some 59 else if a = 42 then some 60 else if a = 43 then some 61
      else if a = 45 then some 62 else if a = 46 then some 63 else none) = some b) : b ∈ vectorFlags flags :=
    List.mem_append_right _ (List.mem_filterMap.mpr ⟨a, ha, hb⟩)
  refine ⟨List.ne_nil_of_mem (a := 47) List.mem_cons_self, fun k hk hb => ?_⟩
  have hv : bitAt (f.bits ||| f.pipeBits) k = true := hb
  rw [bitAt_or, Bool.or_eq_true] at hv
  rcases hv with hv | hv
  · exact List.mem_append_left _ (List.mem_cons_of_mem _ (h.mem_of_bits hk hv))
  · rw [bitAt_pipeBits f hk] at hv
    simp only [Bool.or_eq_true, Bool.and_eq_true, decide_eq_true_eq] at hv
    rcases hv with (((⟨h1, rfl⟩ | ⟨h1, rfl⟩) | ⟨h1, rfl⟩) | ⟨h1, rfl⟩) | ⟨h1, rfl⟩
    · exact up (h.divide h1) rfl
    · exact up (h.overflow h1) rfl
    · exact up (h.zero h1) rfl
    · exact up (h.root h1) rfl
    · exact up (h.indefinite h1) rfl

end FpFlags

namespace State.Frame

variable {s t : State} {changed : Byte → Prop} {flags : List Nat} {stored : Nat → Prop}

theorem refl : s.Frame s changed flags stored :=
  ⟨fun _ _ => rfl, ⟨fun _ => rfl, fun _ _ _ _ => rfl⟩, id, fun _ _ _ => rfl, fun _ => ⟨rfl, rfl⟩, rfl⟩

theorem mode (h : s.Frame t changed flags stored) : t.mode = s.mode := by rw [h.rest]

theorem params (h : s.Frame t changed flags stored) : t.params = s.params := by rw [h.rest]

theorem bkpt (h : s.Frame t changed flags stored) : t.bkpt = s.bkpt := by rw [h.rest]

theorem cb (h : s.Frame t changed flags stored) : t.cb = s.cb := by rw [h.rest]

theorem wrap (h : s.Frame t changed flags stored) (a : Nat) : t.wrap a = s.wrap a := by
  unfold State.wrap
  rw [h.params]

/-! ### Each operation keeps it -/

theorem goto (h : s.Frame t changed flags stored) (a : Addr) : s.Frame (t.goto a) changed flags stored :=
  ⟨h.regs, h.flagsOnly, h.wf, h.bytes, h.same, congrArg (State.goto · a) h.rest⟩

theorem next32 (h : s.Frame t changed flags stored) : s.Frame t.next32 changed flags stored := h.goto _

theorem next64 (h : s.Frame t changed flags stored) : s.Frame t.next64 changed flags stored := h.goto _

theorem draw (h : s.Frame t changed flags stored) (k : Nat) : s.Frame { t with free := k } changed flags stored :=
  ⟨h.regs, h.flagsOnly, h.wf, h.bytes, h.same, congrArg (fun u : State => { u with free := k }) h.rest⟩

theorem setReg (h : s.Frame t changed flags stored) {d : Byte} (v : Word) (hd : changed d) :
    s.Frame (t.setReg d v) changed flags stored :=
  ⟨fun n hn => (t.setReg_reg_ne v fun e => hn (by rw [e]; exact hd)).trans (h.regs n hn), h.flagsOnly, h.wf, h.bytes, h.same,
    congrArg (State.setReg · d v) h.rest⟩

theorem setReg32 (h : s.Frame t changed flags stored) {d : Byte} (v : Half) (hd : changed (halfOf d)) :
    s.Frame (t.setReg32 d v) changed flags stored := h.setReg _ hd

theorem setRegW (h : s.Frame t changed flags stored) {w : Width} {d : Byte} (v : Word) (hd : changed (regOfW w d)) :
    s.Frame (t.setRegW w d v) changed flags stored := by
  cases w
  · exact h.setReg32 _ hd
  · exact h.setReg v hd

/-- An assignment of the Data Flag Register that changes none but the named flags. -/
theorem setDfr (h : s.Frame t changed flags stored) {x : Word} (hne : flags ≠ [])
    (hx : ∀ k, k < 64 → k ∉ flags → k ∉ derivedBits → bitAt x k = bitAt t.dfr k) :
    s.Frame (t.setDfr x) changed flags stored :=
  ⟨h.regs, ⟨fun e => absurd e hne, fun k hk hf hd => by
    rw [State.setDfr_dfr, bitAt_deriveDfr_stored x hk hd, hx k hk hf hd, h.flagsOnly.2 k hk hf hd]⟩,
    h.wf, h.bytes, h.same, congrArg (State.setDfr · x) h.rest⟩

theorem setFlag (h : s.Frame t changed flags stored) {i : Nat} (v : Bool) (hi : i < 64) (hf : i ∈ flags) :
    s.Frame (t.setFlag i v) changed flags stored :=
  h.setDfr (List.ne_nil_of_mem hf) fun _ hk hn _ => bitAt_setBitAt_ne _ _ hi hk fun e => hn (e ▸ hf)

theorem raiseFlags (h : s.Frame t changed flags stored) {k : FlagKind} {f : FpFlags} (hf : f.Raises k flags) :
    s.Frame (t.raiseFlags k f) changed flags stored :=
  h.setDfr hf.1 fun j hj hn _ => by
    rw [bitAt_or, Bool.eq_false_iff.mpr fun hb => hn (hf.2 j hj hb), Bool.or_false]

theorem breakpoint (h : s.Frame t changed flags stored) (write : Bool) (a : Addr) (hf : 47 ∈ flags) :
    s.Frame (t.breakpoint write a) changed flags stored := by
  unfold State.breakpoint
  split
  · exact h.setFlag true (by omega) hf
  · exact h

theorem setFreeFlags (h : s.Frame t changed flags stored) (a b c : Option Bool) (hf : ∀ k, k ∈ [53, 54, 55] → k ∈ flags) :
    s.Frame (t.setFreeFlags a b c) changed flags stored := by
  have h53 : 53 ∈ flags := hf 53 (by simp)
  refine (h.draw _).setDfr (List.ne_nil_of_mem h53) fun k hk hn _ => ?_
  have ne (i : Nat) (hi : i ∈ [53, 54, 55]) : k ≠ i := fun e => hn (e ▸ hf i hi)
  simp only
  rw [bitAt_setBitAt_ne _ _ (by omega) hk (ne 55 (by simp)), bitAt_setBitAt_ne _ _ (by omega) hk (ne 54 (by simp)),
    bitAt_setBitAt_ne _ _ (by omega) hk (ne 53 (by simp))]

/-- A store of some bytes that are named. -/
theorem store (h : s.Frame t changed flags stored) {m : List Host.Cell} {st : List (Nat × Half)} {a : Nat} (ha : stored a)
    (hw : Memory.wf t.mem = true → Memory.wf m = true)
    (hb : Memory.wf t.mem = true → ∀ b, ¬ stored b → Memory.byte m b = Memory.byte t.mem b) :
    s.Frame { t with mem := m, stale := st } changed flags stored :=
  ⟨h.regs, h.flagsOnly, fun hs => hw (h.wf hs), fun hs b hn => (hb (h.wf hs) b hn).trans (h.bytes hs b hn),
    fun hn => absurd ha (hn a), congrArg (fun u : State => { u with mem := m, stale := st }) h.rest⟩

theorem putByte (h : s.Frame t changed flags stored) {p : Nat} (v : Byte) (hp : stored (p / 8)) :
    s.Frame (t.putByte p v) changed flags stored := by
  rw [t.putByte_eq]
  exact h.store hp (fun hw => Memory.wf_setByte hw _ _) fun hw b hb => by
    rw [Memory.byte_setByte hw, if_neg fun e => hb (by rw [e]; exact hp)]

theorem putBit (h : s.Frame t changed flags stored) {p : Nat} (v : Bool) (hp : stored (p / 8)) :
    s.Frame (t.putBit p v) changed flags stored := h.putByte _ hp

theorem putHalf (h : s.Frame t changed flags stored) {p : Nat} (v : Half) (hp : ∀ b, p / 8 ≤ b → b < p / 8 + 4 → stored b) :
    s.Frame (t.putHalf p v) changed flags stored := by
  rw [t.putHalf_eq]
  exact h.store (hp _ (Nat.le_refl _) (by omega)) (fun hw => Memory.wf_setHalf hw _ _) fun hw b hb =>
    Memory.byte_setHalf_out hw v (by
      refine Classical.byContradiction fun hc => ?_
      exact hb (hp b (by omega) (by omega)))

theorem putWord (h : s.Frame t changed flags stored) {p : Nat} (v : Word) (hp : ∀ b, p / 8 ≤ b → b < p / 8 + 8 → stored b) :
    s.Frame (t.putWord p v) changed flags stored := by
  rw [t.putWord_eq]
  exact h.store (hp _ (Nat.le_refl _) (by omega)) (fun hw => Memory.wf_setWord hw _ _) fun hw b hb =>
    Memory.byte_setWord_out hw v (by
      refine Classical.byContradiction fun hc => ?_
      exact hb (hp b (by omega) (by omega)))

/-! ### Completion -/

/-- An instruction completes in a state within the frame. -/
theorem completes (h : s.Frame t changed flags stored) {i : Instr} {next : Addr} {result : State → Prop}
    (hw : Memory.wf s.mem = true) (he : exec i s = .next t) (hr : result t) (hp : t.pc = next) :
    Completes i s next changed flags stored result :=
  ⟨t, he, hr, hp, h.regs, h.flagsOnly, h.bytes hw, fun _ => by rw [h.cb], fun hn => (h.same hn).2, h.rest⟩

/-- The same for an instruction that stores nothing. -/
theorem completes_nothing (h : s.Frame t changed flags nothing) {i : Instr} {next : Addr} {result : State → Prop}
    (he : exec i s = .next t) (hr : result t) (hp : t.pc = next) :
    Completes i s next changed flags nothing result := by
  obtain ⟨hm, hs⟩ := h.same fun _ => id
  exact ⟨t, he, hr, hp, h.regs, h.flagsOnly, fun _ _ => by rw [hm], fun _ => by rw [h.cb], fun _ => hs, h.rest⟩

end State.Frame

end Sys2Proof.Machine
end

