-- ==== Sys2Proof/Proofs/Halves.lean ====
section
/-! PROOFS. The 32-bit registers as halves of the lower 64-bit ones (spec/10_state.md R12), and the claims whose whole
effect is one register, from what the instruction stores. -/

-- One declaration at a time, as in the tests: many at once need a thread each.
set_option Elab.async false

namespace Sys2Proof.Machine

theorem toNat_halfOf (d : Byte) : (halfOf d).toNat = d.toNat / 2 := by
  simp [halfOf, Nat.shiftRight_eq_div_pow]

theorem halfOf_eq (d : Byte) : halfOf d = BitVec.ofNat 8 (d.toNat / 2) :=
  BitVec.eq_of_toNat_eq (by rw [toNat_halfOf, BitVec.toNat_ofNat, Nat.mod_eq_of_lt (by omega)])

theorem bitAt_seven (d : Byte) : bitAt d 7 = decide (d.toNat % 2 = 1) := by
  simp [bitAt, BitVec.getMsbD_eq_getLsbD, BitVec.getLsbD, Nat.testBit_zero]

@[simp] theorem State.reg32_setReg32_self (s : State) (d : Byte) (v : Half) : (s.setReg32 d v).reg32 d = v :=
  (s.setReg32_reg32 d d v).trans (if_pos rfl)

theorem State.reg32_setReg32_ne (s : State) {d e : Byte} (v : Half) (h : e ≠ d) :
    (s.setReg32 d v).reg32 e = s.reg32 e := (s.setReg32_reg32 d e v).trans (if_neg h)

/-! ### Claims about one register -/

theorem State.Frame.ofSetReg (s : State) (d : Byte) (v : Word) (flags : List Nat) :
    s.Frame (s.setReg d v) (· = d) flags nothing := State.Frame.refl.setReg v rfl

theorem State.Frame.ofSetReg32 (s : State) (d : Byte) (v : Half) (flags : List Nat) :
    s.Frame (s.setReg32 d v) (· = halfOf d) flags nothing := State.Frame.refl.setReg32 v rfl

theorem State.Frame.ofDraw (s : State) (k : Nat) (changed : Byte → Prop) (flags : List Nat) :
    s.Frame { s with free := k } changed flags nothing := State.Frame.refl.draw k

/-! ### Claims about one register -/

/-- A value into a 32-bit register, and a jump. -/
theorem halfResult_of_setReg32_goto {i : Instr} {s : State} {d : Byte} {v : Half} {a : Addr}
    (h : exec i s = .next ((s.setReg32 d v).goto a)) : HalfResult i s (halfAligned a) d v :=
  ((State.Frame.ofSetReg32 s d v []).goto a).completes_nothing h
    ⟨by simp, fun n hn => by rw [State.goto_reg32, s.reg32_setReg32_ne v hn]⟩ rfl

theorem halfResult_of_put32 {i : Instr} {s : State} {d : Byte} {v : Half} (h : exec i s = s.put32 d v) :
    HalfResult i s s.behind32 d v := halfResult_of_setReg32_goto h

theorem halfResult_of_put32wide {i : Instr} {s : State} {d : Byte} {v : Half} (h : exec i s = s.put32wide d v) :
    HalfResult i s s.behind64 d v := halfResult_of_setReg32_goto h

/-- A free value into a register (log entry 11). -/
theorem registerResult_of_putFree {i : Instr} {s : State} {d : Byte} (h : exec i s = s.putFree d) :
    ∃ f, RegisterResult i s s.behind32 d f :=
  ⟨Config.freeWord s.free, ((State.Frame.ofDraw s _ (· = d) []).setReg (Config.freeWord s.free) rfl).next32.completes_nothing h (by simp) rfl⟩

theorem halfResult_of_putFree32 {i : Instr} {s : State} {d : Byte} (h : exec i s = s.putFree32 d) :
    ∃ f, HalfResult i s s.behind32 d f :=
  ⟨rightHalf (Config.freeWord s.free), ((State.Frame.ofDraw s _ (· = halfOf d) []).setReg32 (rightHalf (Config.freeWord s.free)) rfl).next32.completes_nothing h
    ⟨by simp, fun n hn => by rw [State.next32_reg32, State.reg32_setReg32_ne _ _ hn]; rfl⟩ rfl⟩

theorem State.putOpt_some {s : State} {d : Byte} {o : Option Word} {v : Word} (h : o = some v) :
    s.putOpt d o = s.put d v := by rw [h]; rfl

theorem State.putOpt_none {s : State} {d : Byte} {o : Option Word} (h : o = none) : s.putOpt d o = s.putFree d := by
  rw [h]; rfl

/-- A branch without effect. -/
theorem branchResult_of_goto {i : Instr} {s : State} {a : Addr} (h : exec i s = .next (s.goto a)) {flags : List Nat} :
    BranchResult i s (halfAligned a) s.dfr flags :=
  (State.Frame.refl.goto a).completes_nothing h rfl rfl

/-- A branch that raises flags. -/
theorem branchResult_of_raiseFlags {i : Instr} {s : State} {k : FlagKind} {f : FpFlags} {flags : List Nat} {b : Bool}
    {a : Addr} (h : exec i s = (s.raiseFlags k f).branchIf b a) (hf : f.Raises k flags) :
    BranchResult i s (if b then halfAligned a else s.behind32) (deriveDfr (s.dfr ||| raisedBits k f)) flags := by
  cases b
  · exact (State.Frame.refl.raiseFlags hf).next32.completes_nothing h rfl rfl
  · exact ((State.Frame.refl.raiseFlags hf).goto a).completes_nothing h rfl rfl

/-- A floating-point result into a register. -/
theorem fpRegisterResult_of_putFp {i : Instr} {s : State} {k : FlagKind} {d : Byte} {r : FpResult} {flags : List Nat}
    (h : exec i s = s.putFp k d r) (hf : r.flags.Raises k flags) : FpRegisterResult i s k d r flags :=
  ((State.Frame.ofSetReg s d r.value flags).raiseFlags hf).next32.completes_nothing h ⟨by simp, rfl⟩ rfl

theorem fpHalfResult_of_putFp32 {i : Instr} {s : State} {k : FlagKind} {d : Byte} {r : FpResult} {flags : List Nat}
    (h : exec i s = s.putFp32 k d r) (hf : r.flags.Raises k flags) : FpHalfResult i s k d r flags :=
  ((State.Frame.ofSetReg32 s d (rightHalf r.value) flags).raiseFlags hf).next32.completes_nothing h
    ⟨by simp, fun n hn => by
      rw [State.next32_reg32, State.raiseFlags_reg32, State.reg32_setReg32_ne _ _ hn], rfl⟩ rfl

end Sys2Proof.Machine

namespace Sys2Proof
open Machine

/-- Settles O20. -/
theorem halfRegisters : Obligations.HalfRegisters := by
  intro s d e v
  refine ⟨?_, s.reg32_setReg32_self d v, s.reg32_setReg32_ne v, fun n hn => s.setReg32_reg_ne v fun h => ?_⟩
  · rw [State.reg32, bitAt_seven, ← halfOf_eq]
    rcases Nat.mod_two_eq_zero_or_one d.toNat with h | h <;> rw [h] <;> rfl
  · have hd := toNat_halfOf d
    rw [← h] at hd
    omega

end Sys2Proof
end

