-- ==== Sys2Proof/Proofs/Access.lean ====
section
/-! PROOFS. What an access to CP memory answers in Monitor mode, and what it leaves (spec/20_memory.md). -/

-- One declaration at a time, as in the tests: many at once need a thread each.
set_option Elab.async false

namespace Sys2Proof.Machine

theorem Completes.mono {i : Instr} {s : State} {next : Addr} {changed : Byte → Prop} {flags : List Nat} {stored : Nat → Prop}
    {p q : State → Prop} (h : Completes i s next changed flags stored p) (hi : ∀ t, p t → q t) :
    Completes i s next changed flags stored q := by
  obtain ⟨t, he, hr, rest⟩ := h
  exact ⟨t, he, hi t hr, rest⟩

theorem Ends.eq_ok {α : Type} {m : M α} {s t : State} {a : α} (h : Ends m s fun b u => b = a ∧ u = t) : m s = .ok (a, t) := by
  obtain ⟨b, u, e, rfl, rfl⟩ := h
  exact e

section
variable {s : State} (h : s.mode = .monitor) (va : Addr)
include h

theorem readWord_monitor : readWord va s = .ok (Memory.word s.mem (s.wordByte va), s.breakpoint false (wordAligned va)) :=
  (Ends.readWord h ⟨rfl, rfl⟩).eq_ok

theorem readHalf_monitor : readHalf va s = .ok (Memory.half s.mem (s.halfByte va), s.breakpoint false (halfAligned va)) :=
  (Ends.readHalf h ⟨rfl, rfl⟩).eq_ok

theorem readByte_monitor : readByte va s = .ok (Memory.byte s.mem (s.oneByte va), s.breakpoint false (byteAligned va)) :=
  (Ends.readByte h ⟨rfl, rfl⟩).eq_ok

theorem readBit_monitor : readBit va s = .ok (s.bitOfMemory va, s.breakpoint false va) :=
  (Ends.readBit h ⟨rfl, rfl⟩).eq_ok

theorem writeWord_monitor (v : Word) : writeWord va v s =
    .ok ((), (s.breakpoint true (wordAligned va)).putWord (s.wrap (wordAligned va).toNat) v) :=
  (Ends.writeWord h ⟨rfl, rfl⟩).eq_ok

theorem writeHalf_monitor (v : Half) : writeHalf va v s =
    .ok ((), (s.breakpoint true (halfAligned va)).putHalf (s.wrap (halfAligned va).toNat) v) :=
  (Ends.writeHalf h ⟨rfl, rfl⟩).eq_ok

theorem writeByte_monitor (v : Byte) : writeByte va v s =
    .ok ((), (s.breakpoint true (byteAligned va)).putByte (s.wrap (byteAligned va).toNat) v) :=
  (Ends.writeByte h ⟨rfl, rfl⟩).eq_ok

theorem writeBit_monitor (v : Bool) : writeBit va v s =
    .ok ((), (s.breakpoint true va).putBit (s.wrap va.toNat) v) :=
  (Ends.writeBit h ⟨rfl, rfl⟩).eq_ok

end

/-! ### Addresses -/

theorem State.wrap_congr {s t : State} (h : t.params = s.params) (a : Nat) : t.wrap a = s.wrap a := by
  unfold State.wrap
  rw [h]

@[simp] theorem State.breakpoint_wrap (s : State) (w : Bool) (a : Addr) (n : Nat) : (s.breakpoint w a).wrap n = s.wrap n :=
  State.wrap_congr (by simp) n

theorem State.next32_pc_of {s t : State} (h : t.pc = s.pc) : t.next32.pc = s.behind32 :=
  congrArg (fun a : Addr => halfAligned (a + 32)) h

theorem State.next64_pc_of {s t : State} (h : t.pc = s.pc) : t.next64.pc = s.behind64 :=
  congrArg (fun a : Addr => halfAligned (a + 64)) h

/-! ### The breakpoint compare (R70) -/

/-- The usage bit that an access looks at. -/
def usageBit (write : Bool) : Nat := if write then 61 else 62

/-- The bits compared are 16 to 58 of the breakpoint register and 0 to 42 of the address. -/
theorem State.breaks_iff (s : State) (write : Bool) (a : Addr) : s.breaks write a = true ↔
    bitAt s.bkpt (usageBit write) = true ∧ ∀ k, 16 ≤ k → k < 59 → bitAt s.bkpt k = bitAt a (k - 16) := by
  unfold State.breaks usageBit
  rw [Bool.and_eq_true, beq_iff_eq]
  refine and_congr_right fun _ => ⟨fun h k h1 h2 => ?_, fun h => BitVec.eq_of_getLsbD_eq fun i hi => ?_⟩
  · have e := congrArg (BitVec.getLsbD · (58 - k)) h
    simp only [BitVec.getLsbD_extractLsb'] at e
    unfold bitAt
    rw [BitVec.getMsbD_eq_getLsbD, BitVec.getMsbD_eq_getLsbD, decide_eq_true (by omega), decide_eq_true (by omega)]
    rw [decide_eq_true (by omega), Bool.true_and, Bool.true_and] at e
    rwa [show 64 - 1 - k = 5 + (58 - k) by omega, show 48 - 1 - (k - 16) = 5 + (58 - k) by omega]
  · have e := h (58 - i) (by omega) (by omega)
    unfold bitAt at e
    rw [BitVec.getMsbD_eq_getLsbD, BitVec.getMsbD_eq_getLsbD, decide_eq_true (by omega), decide_eq_true (by omega),
      show 64 - 1 - (58 - i) = 5 + i by omega, show 48 - 1 - (58 - i - 16) = 5 + i by omega] at e
    rw [BitVec.getLsbD_extractLsb', BitVec.getLsbD_extractLsb', decide_eq_true hi]
    exact e

theorem State.breakpoint_hit {s : State} {write : Bool} {a : Addr} (h : bitAt s.bkpt (usageBit write) = true ∧
    ∀ k, 16 ≤ k → k < 59 → bitAt s.bkpt k = bitAt a (k - 16)) :
    s.breakpoint write a = { s with dfr := deriveDfr (setBitAt s.dfr 47 true) } :=
  if_pos ((s.breaks_iff write a).mpr h)

theorem State.breakpoint_miss {s : State} {write : Bool} {a : Addr} (h : ¬ (bitAt s.bkpt (usageBit write) = true ∧
    ∀ k, 16 ≤ k → k < 59 → bitAt s.bkpt k = bitAt a (k - 16))) : s.breakpoint write a = s :=
  if_neg fun hb => h ((s.breaks_iff write a).mp hb)

theorem State.Frame.ofBreakpoint (s : State) (write : Bool) (a : Addr) (changed : Byte → Prop) (stored : Nat → Prop) :
    s.Frame (s.breakpoint write a) changed [47] stored := State.Frame.refl.breakpoint write a (by simp)

/-! ### Loads and stores of registers (R232, R233, R338, R339, R390, R391) -/

section
variable {s : State} (h : s.mode = .monitor) (r sd t : Byte)

/-- Where a load or store of items of `2 ^ k` bits finds its item. -/
def State.itemOf (s : State) (k : Nat) (r sd : Byte) : Addr := s.addr r + scaled k (s.addr sd)

include h

theorem exec_lod : exec (.lod r sd t) s = .next ((s.breakpoint false (wordAligned (s.itemOf 6 r sd))).setReg t
    (Memory.word s.mem (s.wordByte (s.itemOf 6 r sd)))).next32 :=
  run32_of_ok (bind_ok (readWord_monitor h _))

theorem exec_lodh : exec (.lodh r sd t) s = .next ((s.breakpoint false (halfAligned (s.itemOf 5 r sd))).setReg32 t
    (Memory.half s.mem (s.halfByte (s.itemOf 5 r sd)))).next32 :=
  run32_of_ok (bind_ok (readHalf_monitor h _))

theorem exec_lodc : exec (.lodc r sd t) s = .next ((s.breakpoint false (byteAligned (s.itemOf 3 r sd))).setReg t
    (0#56 ++ Memory.byte s.mem (s.oneByte (s.itemOf 3 r sd)))).next32 :=
  run32_of_ok (bind_ok (readByte_monitor h _))

theorem exec_sto : exec (.sto r sd t) s = .next ((s.breakpoint true (wordAligned (s.itemOf 6 r sd))).putWord
    (s.wrap (wordAligned (s.itemOf 6 r sd)).toNat) (s.reg t)).next32 :=
  run32_of_ok (writeWord_monitor h _ _)

theorem exec_stoh : exec (.stoh r sd t) s = .next ((s.breakpoint true (halfAligned (s.itemOf 5 r sd))).putHalf
    (s.wrap (halfAligned (s.itemOf 5 r sd)).toNat) (s.reg32 t)).next32 :=
  run32_of_ok (writeHalf_monitor h _ _)

theorem exec_stoc : exec (.stoc r sd t) s = .next ((s.breakpoint true (byteAligned (s.itemOf 3 r sd))).putByte
    (s.wrap (byteAligned (s.itemOf 3 r sd)).toNat) ((s.reg t).extractLsb' 0 8)).next32 :=
  run32_of_ok (writeByte_monitor h _ _)

end

end Sys2Proof.Machine

namespace Sys2Proof
open Machine

/-- Settles O34. -/
theorem monitorLoads : Obligations.MonitorLoads := by
  refine ⟨fun s a => ⟨State.breakpoint_hit (write := false), State.breakpoint_miss (write := false)⟩,
    fun s r sd t hm => ⟨?_, ?_, ?_⟩⟩
  · exact ((State.Frame.ofBreakpoint s _ _ (· = t) nothing).setReg _ rfl).next32.completes_nothing (exec_lod hm r sd t)
      ⟨State.setReg_reg_self _ t _, rfl⟩ (State.next32_pc_of (by simp))
  · exact ((State.Frame.ofBreakpoint s _ _ (· = halfOf t) nothing).setReg32 _ rfl).next32.completes_nothing
      (exec_lodh hm r sd t) ⟨(State.next32_reg32 _ t).trans (State.reg32_setReg32_self _ t _), fun n hn => by
        rw [State.next32_reg32, State.reg32_setReg32_ne _ _ hn, State.breakpoint_reg32], rfl⟩ (State.next32_pc_of (by simp))
  · exact ((State.Frame.ofBreakpoint s _ _ (· = t) nothing).setReg _ rfl).next32.completes_nothing (exec_lodc hm r sd t)
      ⟨State.setReg_reg_self _ t _, rfl⟩ (State.next32_pc_of (by simp))

/-- Settles O35. -/
theorem monitorStores : Obligations.MonitorStores := by
  refine ⟨fun s a => ⟨State.breakpoint_hit (write := true), State.breakpoint_miss (write := true)⟩,
    fun s r sd t hm hw => ⟨?_, ?_, ?_⟩⟩
  · refine ((State.Frame.ofBreakpoint s true _ nothing _).putWord _ fun b h1 h2 => ⟨h1, h2⟩).next32.completes hw
      (exec_sto hm r sd t) ⟨?_, by simp; rfl⟩ (State.next32_pc_of (by simp))
    rw [State.next32_mem, State.putWord_mem, State.breakpoint_mem]
    exact Memory.word_setWord hw _ _
  · refine ((State.Frame.ofBreakpoint s true _ nothing _).putHalf _ fun b h1 h2 => ⟨h1, h2⟩).next32.completes hw
      (exec_stoh hm r sd t) ⟨?_, by simp; rfl⟩ (State.next32_pc_of (by simp))
    rw [State.next32_mem, State.putHalf_mem, State.breakpoint_mem]
    exact Memory.half_setHalf hw _ _
  · refine ((State.Frame.ofBreakpoint s true _ nothing
      fun b => b = s.oneByte (s.addr r + scaled 3 (s.addr sd))).putByte _ rfl).next32.completes hw
      (exec_stoc hm r sd t) ⟨?_, by simp; rfl⟩ (State.next32_pc_of (by simp))
    rw [State.next32_mem, State.putByte_mem, State.breakpoint_mem]
    exact (Memory.byte_setByte hw _ _ _).trans (if_pos rfl)

end Sys2Proof
end

