-- ==== Sys2Proof/Proofs/Registers.lean ====
section
/-! PROOFS. Instructions whose effect is a register, a data flag or a branch, integers and bit fields
(spec/43_branch_register.md, spec/44_scalar_fp32.md, spec/45_scalar_fp64.md). -/

-- One declaration at a time, as in the tests: many at once need a thread each.
set_option Elab.async false

namespace Sys2Proof.Machine

/-! ### Shifts and products (R277, R281, R289, R290) -/

theorem shiftWord_left (v : Word) {n : Nat} (h : n ≤ 0x3F) : shiftWord v n = some (v.rotateLeft n) := if_pos h

theorem shiftWord_right (v : Word) {n : Nat} (h : 0xC1 ≤ n) : shiftWord v n = some (v.sshiftRight (256 - n)) := by
  unfold shiftWord
  rw [if_neg (by omega), if_pos h]

theorem shiftWord_none (v : Word) {n : Nat} (h1 : 0x40 ≤ n) (h2 : n ≤ 0xC0) : shiftWord v n = none := by
  unfold shiftWord
  rw [if_neg (by omega), if_neg (by omega)]

/-- A shift by `n` puts the shifted word, or a free value where that is undefined. -/
theorem shift_results {i : Instr} {s : State} {t : Byte} {v : Word} {n : Nat} (h : exec i s = s.putOpt t (shiftWord v n)) :
    (n ≤ 0x3F → RegisterResult i s s.behind32 t (v.rotateLeft n)) ∧
    (0xC1 ≤ n → RegisterResult i s s.behind32 t (v.sshiftRight (256 - n))) ∧
    (0x40 ≤ n → n ≤ 0xC0 → ∃ f, RegisterResult i s s.behind32 t f) :=
  ⟨fun hn => registerResult_of_put (h.trans (State.putOpt_some (shiftWord_left v hn))),
    fun hn => registerResult_of_put (h.trans (State.putOpt_some (shiftWord_right v hn))),
    fun h1 h2 => registerResult_of_putFree (h.trans (State.putOpt_none (shiftWord_none v h1 h2)))⟩

theorem indexProduct_in {w : Nat} {x y : BitVec w} (h1 : -(2 ^ (w - 1) : Int) ≤ x.toInt * y.toInt)
    (h2 : x.toInt * y.toInt < (2 ^ (w - 1) : Int)) : indexProduct x y = some (BitVec.ofInt w (x.toInt * y.toInt)) :=
  if_pos ⟨h1, h2⟩

theorem indexProduct_out {w : Nat} {x y : BitVec w}
    (h : ¬ (-(2 ^ (w - 1) : Int) ≤ x.toInt * y.toInt ∧ x.toInt * y.toInt < (2 ^ (w - 1) : Int))) : indexProduct x y = none :=
  if_neg h

section
variable (s : State) (r sd t : Byte)

theorem exec_mpyx : exec (.mpyx r sd t) s = s.putOpt t ((indexProduct (s.addr r) (s.addr sd)).map (joinLen 0)) := rfl

theorem exec_mpyxh_some {p : BitVec 24}
    (h : indexProduct ((s.reg32 r).extractLsb' 0 24) ((s.reg32 sd).extractLsb' 0 24) = some p) :
    exec (.mpyxh r sd t) s = s.put32 t (0#8 ++ p) := by
  show execMpyxh r sd t s = _
  unfold execMpyxh
  rw [h]

theorem exec_mpyxh_none (h : indexProduct ((s.reg32 r).extractLsb' 0 24) ((s.reg32 sd).extractLsb' 0 24) = none) :
    exec (.mpyxh r sd t) s = s.putFree32 t := by
  show execMpyxh r sd t s = _
  unfold execMpyxh
  rw [h]

end

/-! ### Exponents and packing of 32-bit registers (R334, R335) -/

/-- A 32-bit operand has the bits of its register. -/
theorem extract_operand (h : Half) {i n : Nat} (hn : i + n ≤ 32) :
    (0#32 ++ h : Word).extractLsb' i n = h.extractLsb' i n := by
  refine BitVec.eq_of_getLsbD_eq fun k hk => ?_
  rw [BitVec.getLsbD_extractLsb', BitVec.getLsbD_extractLsb', getLsbD_halves, if_pos (by omega)]

/-- The right half of a 32-bit number that is right-justified. -/
theorem rightHalf_pack32 (e : Byte) (c : BitVec 24) : rightHalf (0#32 ++ e ++ c : Word) = e ++ c := by
  refine BitVec.eq_of_getLsbD_eq fun k hk => ?_
  unfold rightHalf
  rw [BitVec.getLsbD_extractLsb', Nat.zero_add, decide_eq_true hk, Bool.true_and]
  simp only [BitVec.getLsbD_append]
  by_cases h : k < 24
  · simp only [if_pos h]
  · simp only [if_neg h, if_pos (show k - 24 < 8 by omega)]

theorem rightHalf_fpExp (h : Half) : rightHalf (fpExp .w32 (0#32 ++ h)) = 0#8 ++ (h.extractLsb' 24 8).signExtend 24 := by
  show rightHalf (0#32 ++ BitVec.ofInt 8 0 ++ BitVec.ofInt 24 ((0#32 ++ h : Word).extractLsb' 24 8).toInt) = _
  rw [rightHalf_pack32, extract_operand h (by omega)]
  rfl

theorem rightHalf_fpPack (h k : Half) :
    rightHalf (fpPack .w32 (0#32 ++ h) (0#32 ++ k)) = h.extractLsb' 0 8 ++ k.extractLsb' 0 24 := by
  show rightHalf (0#32 ++ (0#32 ++ h : Word).extractLsb' 0 8 ++ (0#32 ++ k : Word).extractLsb' 0 24) = _
  rw [rightHalf_pack32, extract_operand h (by omega), extract_operand k (by omega)]

/-! ### Bit fields (R373, R374) -/

theorem bitAt_ushiftRight {w : Nat} (x : BitVec w) (n : Nat) {k : Nat} (hk : k < w) :
    bitAt (x >>> n) k = (decide (n ≤ k) && bitAt x (k - n)) := by
  unfold bitAt
  simp [BitVec.getMsbD_ushiftRight, hk, ← decide_not]

theorem bitAt_rightOnes {m k : Nat} (hm : m ≤ 64) (hk : k < 64) : bitAt (rightOnes m) k = decide (64 - m ≤ k) := by
  unfold bitAt rightOnes
  rw [BitVec.getMsbD_eq_getLsbD, BitVec.getLsbD_ofNat, Nat.testBit_two_pow_sub_one]
  rw [decide_eq_true hk, Bool.true_and]
  by_cases h : 64 - m ≤ k
  · rw [decide_eq_true h, decide_eq_true (by omega), decide_eq_true (by omega), Bool.and_self]
  · rw [decide_eq_false h, decide_eq_false (p := 64 - 1 - k < m) (by omega), Bool.and_false]

theorem bitAt_shifted_rightOnes {m p k : Nat} (hm : m + p ≤ 64) :
    bitAt (rightOnes m <<< (64 - p - m)) k = decide (p ≤ k ∧ k < p + m) := by
  rw [bitAt_shiftLeft]
  by_cases h : k < p + m
  · rw [bitAt_rightOnes (by omega) (by omega)]
    simp [h]
    omega
  · have hw : 64 ≤ k + (64 - p - m) := by omega
    have hz : bitAt (rightOnes m) (k + (64 - p - m)) = false := BitVec.getMsbD_of_ge _ _ hw
    rw [hz]
    simp [h]

theorem bitAt_insertBits {m p k : Nat} (src x : Word) (hm : m + p ≤ 64) (hk : k < 64) : bitAt (insertBits m p src x) k =
    if p ≤ k ∧ k < p + m then bitAt src (64 - m + (k - p)) else bitAt x k := by
  unfold insertBits
  rw [bitAt_or, bitAt_and, bitAt_not _ hk, bitAt_shifted_rightOnes hm, bitAt_shiftLeft, bitAt_and, ← bitAt_shiftLeft (rightOnes m),
    bitAt_shifted_rightOnes hm]
  by_cases h : p ≤ k ∧ k < p + m
  · simp only [h, and_self, decide_true, Bool.not_true, Bool.and_false, Bool.false_or, Bool.and_true, if_true]
    congr 1
    omega
  · simp [h]

theorem bitAt_extractBits {m p k : Nat} (src : Word) (hm : m + p ≤ 64) (hk : k < 64) : bitAt (extractBits m p src) k =
    (decide (64 - m ≤ k) && bitAt src (p + (k - (64 - m)))) := by
  unfold extractBits
  rw [bitAt_and, bitAt_ushiftRight _ _ hk, bitAt_rightOnes (by omega) hk]
  by_cases h : 64 - m ≤ k
  · have e : k - (64 - p - m) = p + (k - (64 - m)) := by omega
    have h' : 64 - p - m ≤ k := by omega
    simp [h, h', e]
  · simp [h]

section
variable {s : State} (r : Byte) {sd : Byte} (t : Byte)

theorem exec_insb (h : s.reg sd &&& bitFieldReserved = 0) : exec (.insb r sd t) s =
    s.putOpt t (if inWord (bitCount (s.reg sd)) (bitStart (s.reg sd)) then
      some (insertBits (bitCount (s.reg sd)) (bitStart (s.reg sd)) (s.regOrMz r) (s.reg t)) else none) :=
  if_neg (not_not_intro h)

theorem exec_extb (h : s.reg sd &&& bitFieldReserved = 0) : exec (.extb r sd t) s =
    s.putOpt t (if inWord (bitCount (s.reg sd)) (bitStart (s.reg sd)) then
      some (extractBits (bitCount (s.reg sd)) (bitStart (s.reg sd)) (s.regOrMz r)) else none) :=
  if_neg (not_not_intro h)

end

theorem inWord_eq (m p : Nat) : inWord m p = decide (m ≠ 0 ∧ m + p ≤ 64) := by
  unfold inWord
  rw [Bool.decide_and]
  congr 1
  by_cases h : m = 0 <;> simp [h]

/-! ### Count and subroutine branches (R278, R282, R283) -/

section
variable (s : State) (r sd t : Byte)

/-- The register that #31 and #35 leave. -/
def State.counted (s : State) (r : Byte) (v : Addr) : State := s.setReg r (lenPart (s.reg r) ++ v)

theorem State.countBranch_zero : s.countBranch r sd t 0 = s.put r (lenPart (s.reg r) ++ (0 : Addr)) := by
  unfold State.countBranch
  exact if_pos rfl

variable {r sd t}

theorem State.countBranch_taken {v : Addr} (hv : v ≠ 0) (hs : r ≠ sd) (ht : r ≠ t) :
    s.countBranch r sd t v = .next ((s.counted r v).goto (indexed (s.addr t) (s.addr sd))) := by
  unfold State.countBranch
  simp only
  rw [if_neg hv, if_neg (by simp [hs, ht])]
  rfl

theorem State.countBranch_free {v : Addr} (hv : v ≠ 0) (h : r = sd ∨ r = t) : s.countBranch r sd t v =
    .next ({ s.counted r v with free := s.free + 1 }.goto (addrPart (Config.freeWord s.free))) := by
  unfold State.countBranch
  simp only
  rw [if_neg hv, if_pos h]
  rfl

/-- What #31 and #35 do, `v` being the new count. -/
theorem countBranch_results {i : Instr} {v : Addr} (h : exec i s = s.countBranch r sd t v) :
    (v = 0 → RegisterResult i s s.behind32 r (lenPart (s.reg r) ++ v)) ∧
    (v ≠ 0 → r ≠ sd → r ≠ t →
      RegisterResult i s (halfAligned (s.addr t + (s.addr sd <<< 5))) r (lenPart (s.reg r) ++ v)) ∧
    (v ≠ 0 → r = sd ∨ r = t → ∃ next, RegisterResult i s next r (lenPart (s.reg r) ++ v)) := by
  refine ⟨fun hv => ?_, fun hv hs ht => ?_, fun hv hs => ?_⟩
  · subst hv
    exact registerResult_of_put (h.trans (s.countBranch_zero r sd t))
  · exact registerResult_of_setReg_goto (h.trans (s.countBranch_taken hv hs ht))
  · have hf := ((State.Frame.ofSetReg s r (lenPart (s.reg r) ++ v) []).draw (s.free + 1)).goto (addrPart (Config.freeWord s.free))
    exact ⟨_, hf.completes_nothing (h.trans (s.countBranch_free hv hs)) (s.setReg_reg_self r _) rfl⟩

/-- #36 where it is no domain change and register R need not be two things. -/
theorem exec_bsave_branch (h : bitAt (s.reg t) 0 = false ∨ r = t) (hr : ¬ (r = sd ∧ r ≠ 0)) :
    exec (.bsave r sd t) s = s.subroutine r sd t := by
  show execBsave r sd t s = _
  unfold execBsave
  rw [if_pos (by simpa using h), if_neg hr]

theorem State.subroutine_eq : s.subroutine r sd t = .next ((s.setReg r (joinLen 0 (s.pc + 32))).goto
    (if (if sd = 0 then 0 else s.addr sd) = 0 then s.pc + 32
      else (if r = t then s.pc + 32 else s.addr t) + ((if sd = 0 then 0 else s.addr sd) <<< 5))) := by
  unfold State.subroutine
  simp only
  by_cases hi : (if sd = 0 then (0 : Addr) else s.addr sd) = 0
  · rw [if_pos hi, if_pos hi]
  · rw [if_neg hi, if_neg hi]
    by_cases h : r = t
    · rw [if_pos h, if_pos h]
      rfl
    · rw [if_neg h, if_neg h]
      rfl

end

/-! ### Bit branches (R276, R280, R288, R293) -/

theorem setBitAt_same {w : Nat} (x : BitVec w) {i : Nat} (hi : i < w) : setBitAt x i (bitAt x i) = x :=
  eq_of_bitAt fun k hk => by
    rw [bitAt_setBitAt x i k _ hi hk]
    split
    · next h => rw [h]
    · rfl

/-- Register T with its object bit altered. -/
def State.alteredReg (s : State) (g t : Byte) : Word :=
  setBitAt (s.reg t) 63 ((altered g (bitAt (s.reg t) 63)).getD (bitAt (s.reg t) 63))

theorem State.alterBit_reg (s : State) (g t : Byte) : (s.alterBit g t).reg t = s.alteredReg g t := by
  unfold State.alterBit State.alteredReg
  cases altered g (bitAt (s.reg t) 63) with
  | none => exact (setBitAt_same _ (by omega)).symm
  | some b => simp

theorem State.alterBit_reg_ne (s : State) (g : Byte) {t n : Byte} (h : n ≠ t) : (s.alterBit g t).reg n = s.reg n := by
  unfold State.alterBit
  split
  · exact s.setReg_reg_ne _ h
  · rfl

theorem State.alterBit_addr (s : State) (g sd t : Byte) :
    (s.alterBit g t).addr sd = addrPart (if sd = t then s.alteredReg g t else s.reg sd) := by
  unfold State.addr
  split
  · next h => rw [h, s.alterBit_reg]
  · next h => rw [s.alterBit_reg_ne g h]

theorem State.Frame.alterBit (s : State) (g t : Byte) : s.Frame (s.alterBit g t) (· = t) [] nothing := by
  unfold State.alterBit
  split
  · exact State.Frame.ofSetReg s t _ []
  · exact State.Frame.refl

section
variable {s : State} {g sd t : Byte} {im : BitVec 6} {a : Addr}

theorem exec_barb (h : afterBranch g (bitAt (s.reg t) 63) s.pc ((s.alterBit g t).addr sd) ((s.alterBit g t).addr sd) = some a) :
    exec (.barb g sd t) s = .next ((s.alterBit g t).goto a) := by
  show execBarb g sd t s = _
  unfold execBarb
  simp only
  rw [h]

/-- The Data Flag Register that #33 leaves. -/
def State.alterFlag (s : State) (g : Byte) (ob : Bool) (im : BitVec 6) : State :=
  match altered g ob with
  | some b => s.setFlag im.toNat b
  | none => s

theorem State.Frame.alterFlag {u : State} {flags : List Nat} (h : s.Frame u nothing flags nothing) (g : Byte) (ob : Bool)
    (im : BitVec 6) (hf : im.toNat ∈ flags) : s.Frame (u.alterFlag g ob im) nothing flags nothing := by
  unfold State.alterFlag
  split
  · exact h.setFlag _ im.isLt hf
  · exact h

theorem State.alterFlag_dfr (s : State) (g : Byte) (ob : Bool) (im : BitVec 6) : (s.alterFlag g ob im).dfr =
    match altered g ob with
    | some b => deriveDfr (setBitAt s.dfr im.toNat b)
    | none => s.dfr := by
  unfold State.alterFlag
  cases altered g ob <;> rfl

theorem exec_badf (hu : bitAt undefinedMask im.toNat = false)
    (h : afterBranch g (bitAt s.dfr im.toNat) s.pc (s.addr t) (t.setWidth 48) = some a) :
    exec (.badf g im t) s = .next ((s.alterFlag g (bitAt s.dfr im.toNat) im).goto a) := by
  show execBadf g im t s = _
  unfold execBadf State.alterFlag
  simp only [hu, Bool.false_eq_true, if_false]
  rw [h]
  cases altered g (bitAt s.dfr im.toNat) <;> rfl

/-- #33 with an undefined bit: the object bit and the bit stored are free. -/
theorem exec_badf_undefined (hu : bitAt undefinedMask im.toNat = true)
    (h : afterBranch g (bitAt (Config.freeWord s.free) 0) s.pc (s.addr t) (t.setWidth 48) = some a) :
    exec (.badf g im t) s = .next ((match altered g (bitAt (Config.freeWord s.free) 0) with
      | some _ => { s with free := s.free + 1 }.setFlag im.toNat (bitAt (Config.freeWord s.free) 1)
      | none => { s with free := s.free + 1 }).goto a) := by
  show execBadf g im t s = _
  unfold execBadf
  simp only [hu, if_true]
  rw [h]
  cases altered g (bitAt (Config.freeWord s.free) 0) <;> rfl

/-- Where the branch would go, there is a place where it goes on. -/
theorem afterBranch_of_branchTarget {g : Byte} {pc x y a : Addr} (h : branchTarget g pc x y = some a) (ob : Bool) :
    ∃ b, afterBranch g ob pc x y = some b := by
  unfold afterBranch
  split
  · exact ⟨a, h⟩
  · exact ⟨_, rfl⟩

/-- The word that #3B stores into the Data Flag Register. -/
def State.storedDfr (s : State) (v : Word) : Word :=
  if v &&& undefinedMask = 0 then v else (v &&& ~~~undefinedMask) ||| (Config.freeWord s.free &&& undefinedMask)

theorem State.bitAt_storedDfr (s : State) (v : Word) {k : Nat} (hk : k < 64) (hu : bitAt undefinedMask k = false) :
    bitAt (s.storedDfr v) k = bitAt v k := by
  unfold State.storedDfr
  split
  · rfl
  · rw [bitAt_or, bitAt_and, bitAt_and, bitAt_not _ hk, hu]
    simp

theorem exec_lsdfr_eq (s : State) (r t : Byte) : ∃ k, exec (.lsdfr r t) s =
    .next ({ s.setReg t s.dfr with free := k }.setDfr (s.storedDfr (s.reg r))).next32 := by
  show ∃ k, execLsdfr r t s = _
  unfold execLsdfr State.storedDfr
  simp only
  split
  · exact ⟨s.free, rfl⟩
  · exact ⟨s.free + 1, rfl⟩

/-- #3B completes with register R stored, but for undefined bits. -/
theorem lsdfr_completes (s : State) (r t : Byte) : Completes (.lsdfr r t) s s.behind32 (· = t) (List.range 64) nothing fun u =>
    u.reg t = s.dfr ∧ u.dfr = deriveDfr (s.storedDfr (s.reg r)) := by
  obtain ⟨k, h⟩ := exec_lsdfr_eq s r t
  refine (((State.Frame.ofSetReg s t s.dfr (List.range 64)).draw k).setDfr (by decide) fun j hj hn _ => ?_).next32.completes_nothing
    h ⟨?_, rfl⟩ rfl
  · exact absurd (List.mem_range.mpr hj) hn
  · rw [State.next32_reg, State.setDfr_reg]
    exact s.setReg_reg_self t _

/-! ### The bit branch over memory (R279) -/

/-- The bits of the byte that a stored bit lies in. -/
theorem State.bitAt_putBit {u : State} (hw : Memory.wf u.mem = true) (p : Nat) (v : Bool) {b : Nat} (hb : b < 8) :
    bitAt (Memory.byte (u.putBit p v).mem (p / 8)) b =
      if b = p % 8 then v else bitAt (Memory.byte u.mem (p / 8)) b := by
  rw [State.putBit, State.putByte_mem, Memory.byte_setByte hw, if_pos rfl, bitAt_setBitAt _ _ _ _ (Nat.mod_lt _ (by omega)) hb]

/-- What #32 leaves in memory. -/
def State.alterMemory (s : State) (g : Byte) (a : Addr) : State :=
  match altered g (s.bitOfMemory a) with
  | some b => ((s.breakpoint false a).breakpoint true a).putBit (s.wrap a.toNat) b
  | none => s.breakpoint false a

theorem exec_bab (hm : s.mode = .monitor)
    (h : afterBranch g (s.bitOfMemory (s.addr sd)) s.pc (s.addr t) (t.setWidth 48) = some a) :
    exec (.bab g sd t) s = .next ((s.alterMemory g (s.addr sd)).goto a) := by
  show execBab g sd t s = _
  unfold execBab
  refine run_of_ok ((bind_ok (readBit_monitor hm _)).trans ?_)
  have hgo : (match afterBranch g (s.bitOfMemory (s.addr sd)) s.pc (s.addr t) (t.setWidth 48) with
    | none => refuse .branchQualifier
    | some a => update (·.goto a)) = update (·.goto a) := by rw [h]
  unfold State.alterMemory
  cases hal : altered g (s.bitOfMemory (s.addr sd)) with
  | none => exact congrFun hgo _
  | some b =>
    refine (bind_ok (writeBit_monitor (by simpa using hm) _ b)).trans ((congrFun hgo _).trans ?_)
    rw [State.breakpoint_wrap]
    rfl

theorem State.Frame.alterMemory (s : State) (g : Byte) (a : Addr) : s.Frame (s.alterMemory g a) nothing [47]
    fun b => altered g (s.bitOfMemory a) ≠ none ∧ b = s.bitByte a := by
  unfold State.alterMemory
  split
  · next b hb => exact ((State.Frame.ofBreakpoint s _ _ _ _).breakpoint _ _ (by simp)).putBit b ⟨by simp [hb], rfl⟩
  · exact State.Frame.ofBreakpoint s _ _ _ _

theorem State.alterMemory_bits (hw : Memory.wf s.mem = true) (g : Byte) (a : Addr) {b : Nat} (hb : b < 8) :
    bitAt (Memory.byte (s.alterMemory g a).mem (s.bitByte a)) b = if b = s.wrap a.toNat % 8 then
      (altered g (s.bitOfMemory a)).getD (s.bitOfMemory a) else bitAt (Memory.byte s.mem (s.bitByte a)) b := by
  unfold State.alterMemory
  cases altered g (s.bitOfMemory a) with
  | some c =>
    refine (State.bitAt_putBit (by simpa using hw) _ c hb).trans ?_
    simp only [State.breakpoint_mem, Option.getD_some]
    rfl
  | none =>
    simp only [State.breakpoint_mem, Option.getD_none]
    split
    · next h => rw [h]; rfl
    · rfl

theorem bab_completes (hm : s.mode = .monitor) (hw : Memory.wf s.mem = true)
    (h : afterBranch g (s.bitOfMemory (s.addr sd)) s.pc (s.addr t) (t.setWidth 48) = some a) :
    Completes (.bab g sd t) s (halfAligned a) nothing [47]
      (fun b => altered g (s.bitOfMemory (s.addr sd)) ≠ none ∧ b = s.bitByte (s.addr sd)) fun u =>
        u.bitOfMemory (s.addr sd) = (altered g (s.bitOfMemory (s.addr sd))).getD (s.bitOfMemory (s.addr sd)) ∧
        ∀ b, b < 8 → b ≠ s.wrap (s.addr sd).toNat % 8 →
          bitAt (Memory.byte u.mem (s.bitByte (s.addr sd))) b = bitAt (Memory.byte s.mem (s.bitByte (s.addr sd))) b := by
  have hf := State.Frame.alterMemory s g (s.addr sd)
  refine (hf.goto a).completes hw (exec_bab hm h) ⟨?_, fun b hb hne => ?_⟩ rfl
  · show bitAt (Memory.byte (s.alterMemory g (s.addr sd)).mem ((s.alterMemory g (s.addr sd)).wrap (s.addr sd).toNat / 8))
      ((s.alterMemory g (s.addr sd)).wrap (s.addr sd).toNat % 8) = _
    rw [hf.wrap]
    exact (State.alterMemory_bits hw g _ (Nat.mod_lt _ (by omega))).trans (if_pos rfl)
  · exact (State.alterMemory_bits hw g _ hb).trans (if_neg hne)

end

end Sys2Proof.Machine

namespace Sys2Proof
open Machine

/-- Settles O27. -/
theorem increaseResults : Obligations.IncreaseResults := fun _ _ _ _ _ _ _ =>
  ⟨registerResult_of_put rfl, registerResult_of_put rfl, registerResult_of_put64 rfl, halfResult_of_put32 rfl,
    halfResult_of_put32 rfl, halfResult_of_put32wide rfl, halfResult_of_put32wide rfl, halfResult_of_put32 rfl,
    halfResult_of_put32 (congrArg (State.put32 _ _) (rightHalf_fpExp _)),
    halfResult_of_put32 (congrArg (State.put32 _ _) (rightHalf_fpPack _ _))⟩

/-- Settles O28. -/
theorem shiftsAndProducts : Obligations.ShiftsAndProducts := by
  intro s r sd t v p q
  refine ⟨?_, fun h1 h2 => ?_, fun h => ?_, fun h1 h2 => ?_, fun h => ?_⟩
  · simp only [List.forall_mem_cons]
    exact ⟨shift_results rfl, shift_results rfl, fun _ h => by cases h⟩
  · exact registerResult_of_put ((exec_mpyx s r sd t).trans
      (State.putOpt_some (by rw [indexProduct_in (x := s.addr r) (y := s.addr sd) h1 h2]; rfl)))
  · exact registerResult_of_putFree ((exec_mpyx s r sd t).trans
      (State.putOpt_none (by rw [indexProduct_out (x := s.addr r) (y := s.addr sd) h]; rfl)))
  · exact halfResult_of_put32 (exec_mpyxh_some s r sd t (indexProduct_in h1 h2))
  · exact halfResult_of_putFree32 (exec_mpyxh_none s r sd t (indexProduct_out h))

/-- Settles O29. -/
theorem bitFieldResults : Obligations.BitFieldResults := by
  intro s r sd t src m p hz
  refine ⟨fun hm hp => ?_, fun h => ?_⟩
  · have hin : inWord (bitCount (s.reg sd)) (bitStart (s.reg sd)) = true := by
      rw [inWord_eq]
      exact decide_eq_true ⟨hm, hp⟩
    exact ⟨Completes.mono (registerResult_of_put ((exec_insb r t hz).trans (State.putOpt_some (if_pos hin)))) fun u hu k hk => by
        rw [hu]
        exact bitAt_insertBits _ _ hp hk,
      Completes.mono (registerResult_of_put ((exec_extb r t hz).trans (State.putOpt_some (if_pos hin)))) fun u hu k hk => by
        rw [hu]
        exact bitAt_extractBits _ hp hk⟩
  · have hin : ¬ inWord (bitCount (s.reg sd)) (bitStart (s.reg sd)) = true := by
      rw [inWord_eq, decide_eq_true_eq]
      rcases h with h | h
      · exact fun hc => hc.1 h
      · exact fun hc => absurd hc.2 (by show ¬ m + p ≤ 64; omega)
    exact ⟨registerResult_of_putFree ((exec_insb r t hz).trans (State.putOpt_none (if_neg hin))),
      registerResult_of_putFree ((exec_extb r t hz).trans (State.putOpt_none (if_neg hin)))⟩

/-- Settles O38. -/
theorem countAndSubroutineBranches : Obligations.CountAndSubroutineBranches := by
  intro s r sd t jm
  refine ⟨?_, fun h hr => ?_, branchResult_of_goto rfl⟩
  · simp only [List.forall_mem_cons]
    exact ⟨countBranch_results s rfl, countBranch_results s rfl, fun _ h => by cases h⟩
  · have he := registerResult_of_setReg_goto ((exec_bsave_branch s h hr).trans s.subroutine_eq)
    rw [apply_ite halfAligned] at he
    exact he

/-- Settles O39. -/
theorem bitBranches : Obligations.BitBranches := by
  intro s g sd t im a
  refine ⟨fun h => ?_, fun hu h => ?_, fun hu h => ?_, fun hm hw h => ?_, ?_, fun hz => ?_⟩
  · have h' : afterBranch g (bitAt (s.reg t) 63) s.pc ((s.alterBit g t).addr sd) ((s.alterBit g t).addr sd) = some a := by
      rw [s.alterBit_addr]
      exact h
    exact ((State.Frame.alterBit s g t).goto a).completes_nothing (exec_barb h') (s.alterBit_reg g t) rfl
  · exact ((State.Frame.refl.alterFlag g _ im List.mem_cons_self).goto a).completes_nothing (exec_badf hu h)
      (s.alterFlag_dfr g _ im) rfl
  · obtain ⟨b, hb⟩ := afterBranch_of_branchTarget h (bitAt (Config.freeWord s.free) 0)
    have hf := State.Frame.ofDraw s (s.free + 1) nothing [im.toNat]
    refine ⟨_, State.Frame.completes_nothing ?_ (exec_badf_undefined hu hb) trivial rfl⟩
    split
    · exact (hf.setFlag _ im.isLt List.mem_cons_self).goto b
    · exact hf.goto b
  · exact bab_completes hm hw h
  · refine (lsdfr_completes s sd t).mono fun u hu => ⟨hu.1, fun k hk hd hn => ?_⟩
    rw [hu.2, bitAt_deriveDfr_stored _ hk hd, s.bitAt_storedDfr _ hk hn]
  · refine (lsdfr_completes s sd t).mono fun u hu => ⟨hu.1, ?_⟩
    rw [hu.2, State.storedDfr, if_pos hz]

end Sys2Proof
end

