-- ==== Sys2Proof/Proofs/Numbers.lean ====
section
/-! PROOFS. Numbers behind the floating-point arithmetic: scaling with rounding down, how many bits a coefficient needs,
packed and unpacked operands (spec/40_fp_arithmetic.md R150 to R155). -/

-- One declaration at a time, as in the tests: many at once need a thread each.
set_option Elab.async false

namespace Sys2Proof.Machine

/-! ### Scaling -/

theorem floorScale_nat (v : Int) (k : Nat) : floorScale v k = v * (2 ^ k : Nat) := by
  unfold floorScale
  rw [if_pos (by omega), Int.toNat_natCast]

theorem floorScale_neg (v : Int) (k : Nat) : floorScale v (-k) = v / (2 ^ k : Nat) := by
  rcases Nat.eq_zero_or_pos k with rfl | hk
  · simp [floorScale]
  · unfold floorScale
    rw [if_neg (by omega), Int.neg_neg, Int.toNat_natCast]

theorem floorScale_zero_right (v : Int) : floorScale v 0 = v := by
  simpa using floorScale_nat v 0

theorem asr_eq (v : Int) (k : Nat) : asr v k = floorScale v (-k) := (floorScale_neg v k).symm

theorem shl_eq (v : Int) (k : Nat) : shl v k = floorScale v k := (floorScale_nat v k).symm

theorem two_pow_pos_int (k : Nat) : (0 : Int) < (2 ^ k : Nat) := by
  have := Nat.two_pow_pos k
  omega

theorem two_pow_add_int (j k : Nat) : ((2 ^ (j + k) : Nat) : Int) = (2 ^ j : Nat) * (2 ^ k : Nat) := by
  rw [Nat.pow_add, Int.natCast_mul]

/-- Scaling, then scaling down, rounds down once. -/
theorem floorScale_floorScale (v a : Int) (b : Nat) : floorScale (floorScale v a) (-b) = floorScale v (a - b) := by
  obtain ⟨k, rfl | rfl⟩ := Int.eq_nat_or_neg a
  · rw [floorScale_nat, floorScale_neg]
    rcases Nat.le_total b k with h | h
    · obtain ⟨j, rfl⟩ := Nat.exists_eq_add_of_le h
      rw [show ((b + j : Nat) : Int) - b = j by omega, floorScale_nat, two_pow_add_int, ← Int.mul_assoc,
        Int.mul_right_comm, Int.mul_ediv_cancel _ (Int.ne_of_gt (two_pow_pos_int b))]
    · obtain ⟨j, rfl⟩ := Nat.exists_eq_add_of_le h
      rw [show (k : Int) - (k + j : Nat) = -j by omega, floorScale_neg, two_pow_add_int, Int.mul_comm v,
        Int.mul_ediv_mul_of_pos _ _ (two_pow_pos_int k)]
  · rw [floorScale_neg, floorScale_neg, show -(k : Int) - b = -((k + b : Nat) : Int) by omega, floorScale_neg,
      two_pow_add_int, Int.ediv_ediv_of_nonneg (Int.le_of_lt (two_pow_pos_int k))]

/-- Scaling up is exact. -/
theorem floorScale_mul_pow (v a : Int) (b : Nat) : floorScale (v * (2 ^ b : Nat)) a = floorScale v (a + b) := by
  obtain ⟨k, rfl | rfl⟩ := Int.eq_nat_or_neg a
  · rw [floorScale_nat, show (k : Int) + b = ((b + k : Nat) : Int) by omega, floorScale_nat, two_pow_add_int, Int.mul_assoc]
  · rw [← floorScale_nat, floorScale_floorScale]
    congr 1
    omega

theorem floorScale_zero (k : Int) : floorScale 0 k = 0 := by
  unfold floorScale
  split <;> simp

/-- An integer added before rounding down. -/
theorem floorScale_add (u v : Int) (k : Nat) : u + floorScale v (-k) = floorScale (u * (2 ^ k : Nat) + v) (-k) := by
  rw [floorScale_neg, floorScale_neg, Int.add_comm (u * _) v, Int.add_mul_ediv_right _ _ (Int.ne_of_gt (two_pow_pos_int k)),
    Int.add_comm]

/-! ### How many bits a coefficient needs -/

theorem bitLength_le_iff (m k : Nat) : bitLength m ≤ k ↔ m < 2 ^ k := by
  unfold bitLength
  split
  · next h =>
    subst h
    exact iff_of_true (Nat.zero_le k) (Nat.two_pow_pos k)
  · next h => rw [Nat.succ_le_iff, Nat.log2_lt h]

/-- A coefficient of `k` bits besides its sign. -/
theorem magnitudeBits_le_iff (c : Int) (k : Nat) : magnitudeBits c ≤ k ↔ -(2 ^ k : Nat) ≤ c ∧ c < (2 ^ k : Nat) := by
  unfold magnitudeBits
  rw [bitLength_le_iff]
  split <;> omega

theorem inRange_iff (w : Width) (c : Int) : InRange w c ↔ magnitudeBits c ≤ w.n := (magnitudeBits_le_iff c w.n).symm

theorem Width.n_pos (w : Width) : 0 < w.n := by cases w <;> decide

theorem normalized_iff (w : Width) (c : Int) : Normalized w c ↔ magnitudeBits c = w.n := by
  have h := magnitudeBits_le_iff c (w.n - 1)
  have hn := w.n_pos
  unfold Normalized
  rw [inRange_iff]
  omega

/-- Two numbers with the same upper bounds. -/
theorem eq_of_upper_bounds {a b : Nat} (h : ∀ k, a ≤ k ↔ b ≤ k) : a = b :=
  Nat.le_antisymm ((h b).mpr (Nat.le_refl b)) ((h a).mp (Nat.le_refl a))

theorem magnitudeBits_mul_pow {c : Int} (hc : c ≠ 0) (j : Nat) : magnitudeBits (c * (2 ^ j : Nat)) = magnitudeBits c + j := by
  refine eq_of_upper_bounds fun k => ?_
  rw [magnitudeBits_le_iff]
  rcases Nat.lt_or_ge k j with hk | hk
  · have hlt : ((2 ^ k : Nat) : Int) < (2 ^ j : Nat) := by exact_mod_cast Nat.pow_lt_pow_right (by omega) hk
    refine ⟨fun ⟨h1, h2⟩ => ?_, fun h => by omega⟩
    rcases Int.lt_or_gt_of_ne hc with h | h
    · have := Int.mul_le_mul_of_nonneg_right (show c ≤ -1 by omega) (Int.le_of_lt (two_pow_pos_int j))
      omega
    · have := Int.mul_le_mul_of_nonneg_right (show 1 ≤ c by omega) (Int.le_of_lt (two_pow_pos_int j))
      omega
  · obtain ⟨i, rfl⟩ := Nat.exists_eq_add_of_le' hk
    rw [two_pow_add_int, ← Int.neg_mul, Int.mul_le_mul_right (two_pow_pos_int j), Int.mul_lt_mul_right (two_pow_pos_int j),
      ← magnitudeBits_le_iff]
    omega

theorem magnitudeBits_asr_le {c : Int} {j m : Nat} (h : magnitudeBits c ≤ m + j) : magnitudeBits (floorScale c (-j)) ≤ m := by
  rw [magnitudeBits_le_iff, two_pow_add_int] at h
  have hj := two_pow_pos_int j
  rw [magnitudeBits_le_iff, floorScale_neg, Int.le_ediv_iff_mul_le hj, Int.ediv_lt_iff_lt_mul hj, Int.neg_mul]
  exact h

theorem magnitudeBits_zero : magnitudeBits 0 = 0 := rfl

/-- A scaled coefficient has as many bits more, or fewer. -/
theorem magnitudeBits_floorScale_le {c k : Int} {m : Nat} (h : (magnitudeBits c : Int) + k ≤ m) :
    magnitudeBits (floorScale c k) ≤ m := by
  by_cases hc : c = 0
  · rw [hc, floorScale_zero, magnitudeBits_zero]
    omega
  · obtain ⟨j, rfl | rfl⟩ := Int.eq_nat_or_neg k
    · rw [floorScale_nat, magnitudeBits_mul_pow hc]
      omega
    · exact magnitudeBits_asr_le (by omega)

/-- The significant bit count of R154 is the number of bits. -/
theorem sigCount_eq {c : Int} {n : Nat} (h : SigCount c n) : n = magnitudeBits c := by
  unfold SigCount at h
  split at h
  · next hc => rcases hc with rfl | rfl <;> exact h
  · obtain ⟨hn, h1, h2⟩ := h
    have ha := magnitudeBits_le_iff c n
    have hb := magnitudeBits_le_iff c (n - 1)
    split at h1 <;> split at h2 <;> omega

/-! ### Packed operands -/

theorem toInt_ofInt {n : Nat} {e : Int} (hn : 0 < n) (h1 : -(2 ^ (n - 1) : Nat) ≤ e) (h2 : e < (2 ^ (n - 1) : Nat)) :
    (BitVec.ofInt n e).toInt = e := by
  have hp : 2 ^ n = 2 * 2 ^ (n - 1) := by rw [← Nat.pow_succ', Nat.succ_eq_add_one, Nat.sub_add_cancel hn]
  rw [BitVec.toInt_ofInt]
  exact Int.bmod_eq_of_le (by omega) (by omega)

theorem toInt_range {n : Nat} (x : BitVec n) : -(2 ^ (n - 1) : Nat) ≤ x.toInt ∧ x.toInt < (2 ^ (n - 1) : Nat) := by
  have h1 := BitVec.le_toInt x
  have h2 := BitVec.toInt_lt (x := x)
  push_cast
  exact ⟨h1, h2⟩

theorem extract_pack32 (e : BitVec 8) (c : BitVec 24) :
    (0#32 ++ e ++ c : Word).extractLsb' 24 8 = e ∧ (0#32 ++ e ++ c : Word).extractLsb' 0 24 = c := by
  refine ⟨BitVec.eq_of_getLsbD_eq fun k hk => ?_, BitVec.extractLsb'_append_eq_right⟩
  rw [BitVec.getLsbD_extractLsb', decide_eq_true hk, Bool.true_and, BitVec.getLsbD_append, if_neg (by omega),
    BitVec.getLsbD_append, if_pos (by omega), Nat.add_sub_cancel_left]

theorem expOf_pack (w : Width) {e c : Int} (h1 : w.emin ≤ e) (h2 : e ≤ w.emax) : expOf w (pack w e c) = e := by
  cases w
  · show ((0#32 ++ BitVec.ofInt 8 e ++ BitVec.ofInt 24 c : Word).extractLsb' 24 8).toInt = e
    rw [(extract_pack32 _ _).1]
    exact toInt_ofInt (by omega) (by simp only [Width.emin] at h1; omega) (by simp only [Width.emax] at h2; omega)
  · show ((BitVec.ofInt 16 e ++ BitVec.ofInt 48 c : Word).extractLsb' 48 16).toInt = e
    rw [BitVec.extractLsb'_append_eq_left]
    exact toInt_ofInt (by omega) (by simp only [Width.emin] at h1; omega) (by simp only [Width.emax] at h2; omega)

theorem coefOf_pack (w : Width) {e c : Int} (h : InRange w c) : coefOf w (pack w e c) = c := by
  cases w
  · show ((0#32 ++ BitVec.ofInt 8 e ++ BitVec.ofInt 24 c : Word).extractLsb' 0 24).toInt = c
    rw [(extract_pack32 _ _).2]
    exact toInt_ofInt (by omega) h.1 h.2
  · show ((BitVec.ofInt 16 e ++ BitVec.ofInt 48 c : Word).extractLsb' 0 48).toInt = c
    rw [BitVec.extractLsb'_append_eq_right]
    exact toInt_ofInt (by omega) h.1 h.2

/-- A number that is packed is read back. -/
theorem unpack_pack (w : Width) {e c : Int} (h1 : w.emin ≤ e) (h2 : e ≤ w.emax) (h : InRange w c) :
    unpack w (pack w e c) = .normal e c := by
  unfold unpack
  rw [expOf_pack w h1 h2, coefOf_pack w h, if_neg (by omega), if_neg (by omega)]

theorem coefOf_inRange (w : Width) (x : Word) : InRange w (coefOf w x) := by
  cases w
  · exact toInt_range _
  · exact toInt_range _

/-- An operand that is a number lies in the ranges of its width. -/
def Num.Ok (w : Width) : Num → Prop
  | .normal e c => w.emin ≤ e ∧ e ≤ w.emax ∧ InRange w c
  | _ => True

theorem unpack_ok (w : Width) (x : Word) : (unpack w x).Ok w := by
  unfold unpack
  split
  · trivial
  · split
    · trivial
    · exact ⟨by omega, by omega, coefOf_inRange w x⟩

theorem unpack_normal {w : Width} {x : Word} {e c : Int} (h : unpack w x = .normal e c) :
    (w.emin ≤ e ∧ e ≤ w.emax ∧ InRange w c) ∧ c = coefOf w x := by
  have hk := unpack_ok w x
  rw [h] at hk
  refine ⟨hk, ?_⟩
  unfold unpack at h
  split at h
  · cases h
  · split at h
    · cases h
    · injection h with _ h2
      exact h2.symm

/-! ### The end of an operation (R155) -/

theorem isNumber_pack (w : Width) {e c : Int} (h1 : w.emin ≤ e) (h2 : e ≤ w.emax) (h : InRange w c) :
    IsNumber w e c ⟨pack w e c, {}⟩ := ⟨unpack_pack w h1 h2 h, rfl⟩

theorem delivers_finish (w : Width) (e : Int) {c : Int} (h : InRange w c) : Delivers w e c (finish w e c) := by
  unfold Delivers finish
  split
  · rfl
  · split
    · rfl
    · exact isNumber_pack w (by omega) (by omega) h

theorem delivers_normalize (w : Width) (e c : Int) :
    if c = 0 then IsMachineZero w (normalize w e c)
    else ∀ j : Nat, Normalized w (c * (2 ^ j : Nat)) → Delivers w (e - j) (c * (2 ^ j : Nat)) (normalize w e c) := by
  unfold normalize
  split
  · rfl
  · next hc =>
    intro j hj
    have hb : magnitudeBits c + j = w.n := (magnitudeBits_mul_pow hc j).symm.trans ((normalized_iff w _).mp hj)
    have hk : normCount w.n c = j := by unfold normCount; omega
    rw [hk]
    exact delivers_finish w _ hj.1

end Sys2Proof.Machine
end

