-- ==== Sys2Proof/Proofs/Arithmetic.lean ====
section
/-! PROOFS. The floating-point functions deliver what spec/40_fp_arithmetic.md says, over exact integers: sums, products,
quotients, roots, rounding, contraction, sign control and comparison. -/

-- One declaration at a time, as in the tests: many at once need a thread each.
set_option Elab.async false

namespace Sys2Proof.Machine

/-! ### Sums (R160) -/

/-- The exact sum of `u * 2^e` and `v * 2^f`, at the lower exponent. -/
def exactSum (e u f v : Int) : Int :=
  u * (2 ^ (e - min e f).toNat : Nat) + v * (2 ^ (f - min e f).toNat : Nat)

/-- Aligning and adding rounds the exact sum down once. -/
theorem alignedSum_eq (e u f v : Int) : asr u (max e f - e).toNat + asr v (max e f - f).toNat =
    floorScale (exactSum e u f v) (min e f - max e f) := by
  unfold exactSum
  rw [asr_eq, asr_eq]
  rcases Int.le_total e f with h | h
  · rw [Int.max_eq_right h, Int.min_eq_left h, Int.sub_self, Int.sub_self, show e - f = -((f - e).toNat : Int) by omega,
      Int.toNat_zero, Int.natCast_zero, Int.neg_zero, floorScale_zero_right, Int.add_comm, floorScale_add, Nat.pow_zero,
      Int.natCast_one, Int.mul_one, Int.add_comm]
  · rw [Int.max_eq_left h, Int.min_eq_right h, Int.sub_self, Int.sub_self, show f - e = -((e - f).toNat : Int) by omega,
      Int.toNat_zero, Int.natCast_zero, Int.neg_zero, floorScale_zero_right, floorScale_add, Nat.pow_zero, Int.natCast_one,
      Int.mul_one]

/-- The sum, and where it does not fit the next exponent, is what `addExact` computes. -/
theorem roundedSum_iff (w : Width) (e u f v : Int) (ends : Int → Int → Prop) : RoundedSum w e u f v ends ↔
    ends (addExact w.n (e, u) (f, v)).1 (addExact w.n (e, u) (f, v)).2 := by
  unfold RoundedSum addExact
  simp only
  rw [alignedSum_eq]
  change ((-(2 ^ (2 * w.n) : Nat) ≤ floorScale (exactSum e u f v) (min e f - max e f) ∧
    floorScale (exactSum e u f v) (min e f - max e f) < (2 ^ (2 * w.n) : Nat) → _) ∧ _) ↔ _
  by_cases h : (2 ^ (2 * w.n) : Nat) ≤ floorScale (exactSum e u f v) (min e f - max e f) ∨
      floorScale (exactSum e u f v) (min e f - max e f) < -(2 ^ (2 * w.n) : Nat)
  · rw [if_pos h, asr_eq, floorScale_floorScale]
    have hn : ¬ (-(2 ^ (2 * w.n) : Nat) ≤ floorScale (exactSum e u f v) (min e f - max e f) ∧
      floorScale (exactSum e u f v) (min e f - max e f) < (2 ^ (2 * w.n) : Nat)) := by omega
    rw [show min e f - max e f - ((1 : Nat) : Int) = min e f - (max e f + 1) by omega]
    exact ⟨fun ha => ha.2 hn, fun ha => ⟨fun hc => absurd hc hn, fun _ => ha⟩⟩
  · rw [if_neg h]
    have hy : -(2 ^ (2 * w.n) : Nat) ≤ floorScale (exactSum e u f v) (min e f - max e f) ∧
      floorScale (exactSum e u f v) (min e f - max e f) < (2 ^ (2 * w.n) : Nat) := by omega
    exact ⟨fun ha => ha.1 hy, fun ha => ⟨fun _ => ha, fun hc => absurd hy hc⟩⟩

theorem magnitudeBits_addExact {n : Nat} {p q : Int × Int} (hp : magnitudeBits p.2 ≤ 2 * n) (hq : magnitudeBits q.2 ≤ 2 * n) :
    magnitudeBits (addExact n p q).2 ≤ 2 * n := by
  have h1 : magnitudeBits (asr p.2 (max p.1 q.1 - p.1).toNat) ≤ 2 * n := by
    rw [asr_eq]
    exact magnitudeBits_asr_le (by omega)
  have h2 : magnitudeBits (asr q.2 (max p.1 q.1 - q.1).toNat) ≤ 2 * n := by
    rw [asr_eq]
    exact magnitudeBits_asr_le (by omega)
  rw [magnitudeBits_le_iff] at h1 h2
  unfold addExact
  simp only
  split
  · rw [asr_eq]
    dsimp only
    refine magnitudeBits_asr_le (m := 2 * n) (j := 1) ((magnitudeBits_le_iff _ _).mpr ?_)
    rw [Nat.pow_succ]
    omega
  · rw [magnitudeBits_le_iff]
    omega

/-- A coefficient as a double-length one. -/
theorem magnitudeBits_shl {w : Width} {c : Int} (hc : InRange w c) : magnitudeBits (shl c w.n) ≤ 2 * w.n := by
  rw [inRange_iff] at hc
  rw [shl_eq]
  exact magnitudeBits_floorScale_le (by omega)

theorem magnitudeBits_addExact_shl {w : Width} {e c f d : Int} (hc : InRange w c) (hd : InRange w d) :
    magnitudeBits (addExact w.n (e, shl c w.n) (f, shl d w.n)).2 ≤ 2 * w.n :=
  magnitudeBits_addExact (magnitudeBits_shl hc) (magnitudeBits_shl hd)

theorem inRange_upper {w : Width} {sum : Int} (h : magnitudeBits sum ≤ 2 * w.n) : InRange w (floorScale sum (-w.n)) :=
  (inRange_iff w _).mpr (magnitudeBits_asr_le (by omega))

theorem inRange_lower (w : Width) (v : Int) : InRange w (v % (2 ^ w.n : Nat)) := by
  have hp := two_pow_pos_int w.n
  have h1 := Int.emod_nonneg v (Int.ne_of_gt hp)
  have h2 := Int.emod_lt_of_pos v hp
  exact ⟨by omega, h2⟩

theorem sumEnds_addResult (w : Width) (k : Kind) {e sum : Int} (he : w.emin ≤ e) (h : magnitudeBits sum ≤ 2 * w.n) :
    SumEnds w k e sum (addResult w k e sum) := by
  have hu := inRange_upper h
  have hl := inRange_lower w sum
  unfold SumEnds addResult
  rw [asr_eq]
  cases k with
  | upper => exact delivers_finish w e hu
  | signif => exact delivers_finish w e hu
  | norm => exact delivers_normalize w e _
  | lower =>
    simp only
    split
    · exact isNumber_pack w (by cases w <;> decide) (by cases w <;> decide) hl
    · have hn : ¬ w.emax < e - w.n := by omega
      unfold Delivers
      rw [if_neg hn]
      split
      · rfl
      · exact isNumber_pack w (by omega) (by omega) hl

theorem zeroAsMz_ok {w : Width} (k : Kind) {x : Num} (h : x.Ok w) : (zeroAsMz k x).Ok w := by
  cases x with
  | normal e c =>
    unfold zeroAsMz
    simp only
    split
    · trivial
    · exact h
  | ind => trivial
  | mz => trivial

theorem addExact_fst (n : Nat) (p q : Int × Int) : max p.1 q.1 ≤ (addExact n p q).1 := by
  unfold addExact
  simp only
  split <;> omega

/-- A sum of two operands ends in the stored part of the exact sum, if that is what `ends` wants of it. -/
theorem sumIs_intro {w : Width} {k : Kind} {x y : Num} {r : FpResult} {ends : Int → Int → Prop}
    {result : Int → Int → FpResult}
    (hr : r = match zeroAsMz k x, zeroAsMz k y with
      | .ind, _ => resInd w
      | _, .ind => resInd w
      | .mz, .mz => resZero w
      | .mz, .normal e c => result e (shl c w.n)
      | .normal e c, .mz => result e (shl c w.n)
      | .normal e c, .normal f d =>
        result (addExact w.n (e, shl c w.n) (f, shl d w.n)).1 (addExact w.n (e, shl c w.n) (f, shl d w.n)).2) (hx : x.Ok w) (hy : y.Ok w)
    (he : ∀ e sum, w.emin ≤ e → magnitudeBits sum ≤ 2 * w.n → r = result e sum → ends e sum) : SumIs w k x y r ends := by
  have hx' := zeroAsMz_ok k hx
  have hy' := zeroAsMz_ok k hy
  unfold SumIs
  generalize zeroAsMz k x = x' at *
  generalize zeroAsMz k y = y' at *
  cases x' with
  | ind => exact hr
  | mz =>
    cases y' with
    | ind => exact hr
    | mz => exact hr
    | normal e c => exact he _ _ hy'.1 (magnitudeBits_shl hy'.2.2) hr
  | normal e c =>
    cases y' with
    | ind => exact hr
    | mz => exact he _ _ hx'.1 (magnitudeBits_shl hx'.2.2) hr
    | normal f d =>
      refine (roundedSum_iff w _ _ _ _ _).mpr (he _ _ ?_ (magnitudeBits_addExact_shl hx'.2.2 hy'.2.2) hr)
      exact Int.le_trans hx'.1 (Int.le_trans (Int.le_max_left e f) (addExact_fst w.n (e, shl c w.n) (f, shl d w.n)))

theorem addIs_fpAdd {w : Width} (k : Kind) {x y : Num} (hx : x.Ok w) (hy : y.Ok w) : AddIs w k x y (fpAdd w k x y) :=
  sumIs_intro (result := addResult w k) rfl hx hy fun e sum he hs hr => by
    rw [hr]
    exact sumEnds_addResult w k he hs

/-! ### Complements and sign control (R154, R186) -/

theorem half_pow_lt (w : Width) : 2 ^ (w.n - 1) < 2 ^ w.n :=
  Nat.pow_lt_pow_right (by omega) (by have := w.n_pos; omega)

/-- The complement in the model's form and in the claim's. -/
theorem negateNum_eq {w : Width} {x : Num} (h : x.Ok w) : negateNum w x = complemented w x := by
  cases x with
  | ind => rfl
  | mz => rfl
  | normal e c =>
    obtain ⟨-, he, -⟩ := h
    unfold negateNum complemented negate
    simp only
    by_cases hc : c = -(2 ^ w.n : Nat)
    · rw [if_pos hc, if_pos hc]
      by_cases hm : e = w.emax
      · rw [if_pos hm, if_pos (by simp only; omega)]
      · rw [if_neg hm, if_neg (by simp only; omega)]
    · rw [if_neg hc, if_neg hc, if_neg (by simp only; omega)]

theorem complemented_ok {w : Width} {x : Num} (h : x.Ok w) : (complemented w x).Ok w := by
  cases x with
  | ind => trivial
  | mz => trivial
  | normal e c =>
    obtain ⟨h1, h2, h3, h4⟩ := h
    have hp := two_pow_pos_int w.n
    unfold complemented
    simp only
    split
    · split
      · trivial
      · refine ⟨by omega, by omega, (inRange_iff w _).mpr ((magnitudeBits_le_iff _ _).mpr ?_)⟩
        have hlt := half_pow_lt w
        have hq := two_pow_pos_int (w.n - 1)
        omega
    · exact ⟨h1, h2, by omega, by omega⟩

theorem onA_eq {w : Width} (g : Sign) {x : Num} (h : x.Ok w) : g.onA w x = signedA w g x := by
  have hc := negateNum_eq h
  obtain ⟨g5, g6, g7⟩ := g
  cases x with
  | ind => cases g5 <;> cases g6 <;> rfl
  | mz => cases g5 <;> cases g6 <;> rfl
  | normal e c => cases g5 <;> cases g6 <;> simp [Sign.onA, signedA, negativeNum, magnitudeNum, hc]

theorem onB_eq {w : Width} (g : Sign) {x : Num} (h : x.Ok w) : g.onB w x = signedB w g x := by
  have hc := negateNum_eq h
  obtain ⟨g5, g6, g7⟩ := g
  cases x with
  | ind => cases g7 <;> rfl
  | mz => cases g7 <;> rfl
  | normal e c => cases g7 <;> simp [Sign.onB, signedB, magnitudeNum, hc]

theorem signedA_ok {w : Width} (g : Sign) {x : Num} (h : x.Ok w) : (signedA w g x).Ok w := by
  cases x with
  | ind => trivial
  | mz => trivial
  | normal e c =>
    unfold signedA
    simp only
    split
    · exact complemented_ok h
    · exact h

theorem signedB_ok {w : Width} (g : Sign) {x : Num} (h : x.Ok w) : (signedB w g x).Ok w := by
  cases x with
  | ind => trivial
  | mz => trivial
  | normal e c =>
    unfold signedB
    simp only
    split
    · exact complemented_ok h
    · exact h

theorem signedA_none (w : Width) (x : Num) : signedA w {} x = x := by cases x <;> simp [signedA]

theorem signedB_none (w : Width) (x : Num) : signedB w {} x = x := by cases x <;> simp [signedB]

/-! ### Differences (R161) -/

/-- A subtraction is the addition of the complement. -/
theorem differenceIs_intro {w : Width} {x y : Num} {r : FpResult} {add : Num → Prop} {result : Num → FpResult}
    (hr : r = match x, y, negateNum w y with
      | .ind, _, _ => resInd w
      | _, .normal _ _, .ind => ⟨indefinite w, flagOvf⟩
      | _, _, z => result z) (hy : y.Ok w)
    (ha : ∀ z, z.Ok w → r = result z → add z) : DifferenceIs w x y r add := by
  have hz := complemented_ok hy
  rw [negateNum_eq hy] at hr
  unfold DifferenceIs
  generalize complemented w y = z at *
  cases x with
  | ind => exact hr
  | mz =>
    cases y with
    | ind => exact ha z hz hr
    | mz => exact ha z hz hr
    | normal f d =>
      cases z with
      | ind => exact hr
      | mz => exact ha _ hz hr
      | normal _ _ => exact ha _ hz hr
  | normal e c =>
    cases y with
    | ind => exact ha z hz hr
    | mz => exact ha z hz hr
    | normal f d =>
      cases z with
      | ind => exact hr
      | mz => exact ha _ hz hr
      | normal _ _ => exact ha _ hz hr

theorem subIs_fpSub {w : Width} (k : Kind) {x y : Num} (hx : x.Ok w) (hy : y.Ok w) : SubIs w k x y (fpSub w k x y) :=
  differenceIs_intro (result := fpAdd w k x) rfl hy fun z hz hr => by
    rw [hr]
    exact addIs_fpAdd k hx hz

/-! ### Products (R165) -/

theorem fix8000_eq (w : Width) (e c : Int) : fix8000 w.n e c = fixed w e c := rfl

/-- A coefficient that is taken with its exponent one higher is no longer the lowest one. -/
theorem fixed_range {w : Width} (e : Int) {c : Int} (h : InRange w c) :
    -(2 ^ w.n : Nat) < (fixed w e c).2 ∧ (fixed w e c).2 < (2 ^ w.n : Nat) := by
  have hlt := half_pow_lt w
  have hq := two_pow_pos_int (w.n - 1)
  obtain ⟨h1, h2⟩ := h
  unfold fixed
  split <;> simp only <;> omega

theorem magnitudeBits_product {m : Nat} {a b : Int} (ha : -(2 ^ m : Nat) < a ∧ a < (2 ^ m : Nat))
    (hb : -(2 ^ m : Nat) < b ∧ b < (2 ^ m : Nat)) : magnitudeBits (a * b) ≤ 2 * m := by
  have h1 : a.natAbs ≤ 2 ^ m := by omega
  have h2 : b.natAbs < 2 ^ m := by omega
  have h : (a * b).natAbs < 2 ^ (2 * m) := by
    rw [Int.natAbs_mul, Nat.two_mul, Nat.pow_add]
    exact Nat.mul_lt_mul_of_le_of_lt h1 h2 (Nat.two_pow_pos m)
  rw [magnitudeBits_le_iff]
  omega

/-- Adjustment for significance (R175). -/
theorem adjusted_sigAdjust {w : Width} {width : Nat} (e : Int) {v : Int} {sIn : Nat} (hw : width = w.n ∨ width = 2 * w.n)
    (hs : sIn ≤ w.n) (hv : magnitudeBits v ≤ width) : Adjusted w width e v sIn
      (finish w (sigAdjust w.n width e v sIn).1 (sigAdjust w.n width e v sIn).2) := by
  intro b hb
  have hbv := sigCount_eq hb
  simp only
  have hlost : ((width - w.n : Nat) : Int) = width - w.n := by omega
  generalize hm : (sIn : Int) - (if v = 0 ∨ v = -1 then 0 else (b : Int) - (width - w.n)) = move
  have he : (sigAdjust w.n width e v sIn).1 = e - move := by
    unfold sigAdjust
    simp only
    rw [hlost, ← hbv, hm]
  have hc : (sigAdjust w.n width e v sIn).2 = floorScale v (move - (width - w.n)) := by
    unfold sigAdjust
    simp only
    rw [hlost, ← hbv, hm]
    have hmoved : (if 0 ≤ move then shl v move.toNat else asr v (-move).toNat) = floorScale v move := by
      split
      · next h => rw [shl_eq, Int.toNat_of_nonneg h]
      · next h =>
        rw [asr_eq]
        congr 1
        omega
    rw [hmoved]
    rcases hw with rfl | rfl
    · rw [if_pos rfl, Int.sub_self, Int.sub_zero]
    · have hn := w.n_pos
      rw [if_neg (by omega), asr_eq, floorScale_floorScale]
      congr 1
      omega
  have hr : InRange w (floorScale v (move - (width - w.n))) := by
    rw [inRange_iff]
    refine magnitudeBits_floorScale_le ?_
    rw [← hbv, ← hm]
    split
    · next h0 =>
      have hb0 : b = 0 := by
        rcases h0 with rfl | rfl <;> exact hbv
      omega
    · omega
  rw [he, hc]
  exact delivers_finish w _ hr

theorem mulIs_fpMul {w : Width} (k : Kind) {sIn : Nat} {x y : Num} (hx : x.Ok w) (hy : y.Ok w) (hs : sIn ≤ w.n) :
    MulIs w k sIn x y (fpMul w k sIn x y) := by
  cases x with
  | ind => rfl
  | mz => cases y <;> rfl
  | normal e c =>
    cases y with
    | ind => rfl
    | mz => rfl
    | normal f d =>
      have hp := magnitudeBits_product (fixed_range e hx.2.2) (fixed_range f hy.2.2)
      unfold MulIs fpMul
      simp only [fix8000_eq]
      rw [asr_eq]
      cases k with
      | lower => exact delivers_finish w _ (inRange_lower w _)
      | signif => exact adjusted_sigAdjust _ (.inr rfl) hs hp
      | upper => exact delivers_finish w _ (inRange_upper hp)
      | norm => exact delivers_finish w _ (inRange_upper hp)

/-! ### Quotients (R168) -/

/-- The truncated quotient, from the inequalities and signs that name it. -/
theorem tdiv_unique {n d t : Int} (h1 : t.natAbs * d.natAbs ≤ n.natAbs) (h2 : n.natAbs < (t.natAbs + 1) * d.natAbs)
    (hp : 0 < t → (0 < n ↔ 0 < d)) (hn : t < 0 → (0 < n ↔ d < 0)) : t = Int.tdiv n d := by
  have hd : 0 < d.natAbs := Nat.pos_of_ne_zero fun h => by simp [h] at h2
  have ha : t.natAbs = n.natAbs / d.natAbs := ((Nat.div_eq_iff hd).mpr ⟨by omega, by
    rw [Nat.add_mul] at h2
    omega⟩).symm
  have h0 : n.natAbs = 0 → n.natAbs / d.natAbs = 0 := fun h => by rw [h, Nat.zero_div]
  obtain ⟨a, rfl | rfl⟩ := Int.eq_nat_or_neg n <;> obtain ⟨b, rfl | rfl⟩ := Int.eq_nat_or_neg d <;>
    simp only [Int.neg_tdiv, Int.tdiv_neg, ← Int.ofNat_tdiv, Int.natAbs_neg, Int.natAbs_natCast] at ha h0 hd ⊢ <;>
    generalize a / b = q at * <;> omega

theorem mul_pos_iff_of_pos {a b : Int} (hb : 0 < b) : 0 < a * b ↔ 0 < a :=
  ⟨fun h => by
    refine Classical.byContradiction fun hc => ?_
    have := Int.mul_le_mul_of_nonneg_right (show a ≤ 0 by omega) (show 0 ≤ b by omega)
    omega, fun h => Int.mul_pos h hb⟩

theorem mul_neg_iff_of_pos {a b : Int} (hb : 0 < b) : a * b < 0 ↔ a < 0 :=
  ⟨fun h => by
    refine Classical.byContradiction fun hc => ?_
    have := Int.mul_nonneg (show 0 ≤ a by omega) (show 0 ≤ b by omega)
    omega, fun h => Int.mul_neg_of_neg_of_pos h hb⟩

theorem divIs_fpDiv {w : Width} (k : Kind) {sIn : Nat} {x y : Num} (hx : x.Ok w) (hy : y.Ok w) (hs : sIn ≤ w.n) :
    DivIs w k sIn x y (fpDiv w k sIn x y) := by
  cases x with
  | ind => rfl
  | mz =>
    cases y with
    | ind => rfl
    | mz => rfl
    | normal f d =>
      unfold DivIs fpDiv
      simp only
      split <;> rfl
  | normal e c =>
    cases y with
    | ind => rfl
    | mz => rfl
    | normal f d =>
      have hc := fixed_range e hx.2.2
      unfold DivIs fpDiv
      simp only [fix8000_eq]
      by_cases hd0 : d = 0
      · rw [if_pos hd0, if_pos hd0]
        rfl
      rw [if_neg hd0, if_neg hd0]
      intro j t hj h1 h2 hp hn
      have hq0 : (fixed w f d).2 ≠ 0 := by
        have hq := two_pow_pos_int (w.n - 1)
        unfold fixed
        split <;> simp only <;> omega
      have hb := (magnitudeBits_mul_pow hq0 j).symm.trans ((normalized_iff w _).mp hj)
      have hk : normCount w.n (fixed w f d).2 = j := by unfold normCount; omega
      have hpow := two_pow_pos_int j
      have hdiv : Int.tdiv (shl (fixed w e c).2 (w.n - 1)) (shl (fixed w f d).2 j) = t := by
        refine (tdiv_unique ?_ ?_ (fun ht => (?_ : _ ↔ _)) (fun ht => (?_ : _ ↔ _))).symm
        · rw [shl, shl, Int.natAbs_mul (fixed w e c).2, Int.natAbs_natCast]
          exact h1
        · rw [shl, shl, Int.natAbs_mul (fixed w e c).2, Int.natAbs_natCast]
          exact h2
        · rw [shl, shl, mul_pos_iff_of_pos (two_pow_pos_int _), mul_pos_iff_of_pos hpow]
          exact hp ht
        · rw [shl, shl, mul_pos_iff_of_pos (two_pow_pos_int _), mul_neg_iff_of_pos hpow]
          exact hn ht
      rw [hk, hdiv]
      have ht : InRange w t := by
        have hD : 2 ^ (w.n - 1) ≤ ((fixed w f d).2 * (2 ^ j : Nat)).natAbs := by
          have := hj.2
          omega
        have hN : (fixed w e c).2.natAbs < 2 ^ w.n := by omega
        have : t.natAbs < 2 ^ w.n := by
          refine Nat.lt_of_not_le fun hle => ?_
          have := Nat.mul_le_mul hle hD
          have := Nat.mul_lt_mul_of_pos_right hN (Nat.two_pow_pos (w.n - 1))
          omega
        exact ⟨by omega, by omega⟩
      have he : ((w.n - 1 : Nat) : Int) = w.n - 1 := by have := w.n_pos; omega
      rw [he]
      cases k with
      | signif => exact adjusted_sigAdjust _ (.inl rfl) hs ((inRange_iff w t).mp ht)
      | upper => exact delivers_finish w _ ht
      | lower => exact delivers_finish w _ ht
      | norm => exact delivers_finish w _ ht

/-! ### Roots (R170) -/

theorem rootBits_spec (v : Nat) : ∀ (b acc : Nat), acc * acc ≤ v → v < (acc + 2 ^ b) * (acc + 2 ^ b) →
    rootBits v b acc * rootBits v b acc ≤ v ∧ v < (rootBits v b acc + 1) * (rootBits v b acc + 1) := by
  intro b
  induction b with
  | zero => exact fun acc h1 h2 => ⟨h1, h2⟩
  | succ b ih =>
    intro acc h1 h2
    unfold rootBits
    split
    · next h => exact ih _ h (by rwa [Nat.add_assoc, ← Nat.two_mul, ← Nat.pow_succ'])
    · next h => exact ih _ h1 (Nat.lt_of_not_le h)

theorem floorRoot_unique {v q : Nat} (hv : v < 2 ^ 100) (h1 : q * q ≤ v) (h2 : v < (q + 1) * (q + 1)) : floorRoot v = q := by
  obtain ⟨h3, h4⟩ := rootBits_spec v 50 0 (Nat.zero_le _) (by rw [Nat.zero_add]; exact hv)
  have ha : floorRoot v < q + 1 := Nat.mul_self_lt_mul_self_iff.mp (Nat.lt_of_le_of_lt h3 h2)
  have hb : q < floorRoot v + 1 := Nat.mul_self_lt_mul_self_iff.mp (Nat.lt_of_le_of_lt h1 h4)
  omega

theorem half_eq (e : Int) : asr e 1 = floorScale e (-1) := asr_eq e 1

/-- The root of a number that is not negative. -/
theorem rootIs_rootOf {w : Width} (flip : Bool) {sIn : Nat} {e c : Int} (hc : 0 ≤ c) (hr : InRange w c) (hs : sIn ≤ w.n) :
    RootIs w flip sIn e c (rootOf w flip sIn e c) := by
  unfold RootIs rootOf
  by_cases h0 : c = 0
  · rw [if_pos h0, if_pos h0, half_eq]
    exact delivers_finish w _ ((inRange_iff w 0).mpr (Nat.zero_le _))
  rw [if_neg h0, if_neg h0]
  intro q
  simp only
  intro h1 h2
  have hm : e % 2 = 0 ∨ e % 2 = 1 := by omega
  have hd : (if e % 2 = 0 then c else 2 * c) = c * (2 ^ (e % 2).toNat : Nat) := by
    rcases hm with h | h
    · rw [if_pos h, h]
      simp
    · rw [if_neg (by omega), h]
      simp [Int.mul_comm]
  have he : (if e % 2 = 0 then e else e - 1) = e - e % 2 := by
    rcases hm with h | h
    · rw [if_pos h, h, Int.sub_zero]
    · rw [if_neg (by omega), h]
  rw [hd, he]
  rw [← hd] at h1 h2 ⊢
  generalize hdd : (if e % 2 = 0 then c else 2 * c) = d at *
  have hdr : 0 ≤ d ∧ d < 2 * (2 ^ w.n : Nat) := by
    have := hr.2
    rw [← hdd]
    split <;> omega
  have hv : (shl d (w.n - 1)).toNat = d.toNat * 2 ^ (w.n - 1) := by
    unfold shl
    rw [Int.toNat_mul hdr.1 (Int.natCast_nonneg _), Int.toNat_natCast]
  have hcast : ((d.toNat * 2 ^ (w.n - 1) : Nat) : Int) = d * (2 ^ (w.n - 1) : Nat) := by
    rw [Int.natCast_mul, Int.toNat_of_nonneg hdr.1]
  have hlt : d.toNat * 2 ^ (w.n - 1) < 2 ^ w.n * 2 ^ w.n := by
    have hp : 2 ^ w.n = 2 * 2 ^ (w.n - 1) := by
      rw [← Nat.pow_succ', Nat.succ_eq_add_one, Nat.sub_add_cancel w.n_pos]
    calc d.toNat * 2 ^ (w.n - 1) < (2 * 2 ^ w.n) * 2 ^ (w.n - 1) :=
          Nat.mul_lt_mul_of_pos_right (by omega) (Nat.two_pow_pos _)
      _ = 2 ^ w.n * 2 ^ w.n := by rw [Nat.mul_comm 2, Nat.mul_assoc, ← hp]
  have hq : floorRoot (shl d (w.n - 1)).toNat = q := by
    rw [hv]
    rw [← hcast] at h1 h2
    refine floorRoot_unique (Nat.lt_of_lt_of_le hlt ?_) (Int.ofNat_le.mp h1) (Int.ofNat_lt.mp h2)
    rw [← Nat.pow_add]
    exact Nat.pow_le_pow_right (by omega) (by cases w <;> decide)
  have hqn : q < 2 ^ w.n := Nat.mul_self_lt_mul_self_iff.mp (Nat.lt_of_le_of_lt (Int.ofNat_le.mp (hcast ▸ h1)) hlt)
  rw [hq]
  have hexp : (e - e % 2) / 2 - ((w.n - 1) / 2 : Nat) = floorScale (e - e % 2) (-1) - ((w.n : Int) - 1) / 2 := by
    rw [← half_eq, asr]
    have := w.n_pos
    have hw : (((w.n - 1) / 2 : Nat) : Int) = ((w.n : Int) - 1) / 2 := by omega
    rw [hw, Nat.pow_one]
    rfl
  rw [hexp]
  refine adjusted_sigAdjust _ (.inl rfl) hs ((magnitudeBits_le_iff _ _).mpr ?_)
  cases flip
  · exact ⟨by simp only [Bool.false_eq_true, if_false]; omega, by simp only [Bool.false_eq_true, if_false]; omega⟩
  · exact ⟨by simp only [if_true]; omega, by simp only [if_true]; omega⟩

/-- `finish` never raises flag 45. -/
theorem finish_root (w : Width) (e c : Int) : (finish w e c).flags.root = false := by
  unfold finish
  split
  · rfl
  · split <;> rfl

theorem rootOf_root (w : Width) (flip : Bool) (sIn : Nat) (e c : Int) : (rootOf w flip sIn e c).flags.root = false := by
  unfold rootOf
  split <;> exact finish_root w _ _

theorem FpFlags.or_root {f : FpFlags} (h : f.root = false) :
    { f.or { root := true } with root := false } = f := by
  cases f
  simp_all [FpFlags.or]

theorem sqrtIs_fpSqrt {w : Width} {sIn : Nat} {x : Num} (hx : x.Ok w) (hs : sIn ≤ w.n) : SqrtIs w sIn x (fpSqrt w sIn x) := by
  cases x with
  | ind => rfl
  | mz => rfl
  | normal e c =>
    unfold SqrtIs fpSqrt
    simp only
    by_cases hc : 0 ≤ c
    · rw [if_pos hc, if_neg (by omega)]
      exact rootIs_rootOf false hc hx.2.2 hs
    · have hf := fixed_range e hx.2.2
      have hneg : negate w.n (fixed w e c).1 (fixed w e c).2 = ((fixed w e c).1, -(fixed w e c).2) := by
        unfold negate
        rw [if_neg (by omega)]
      have hpos : (fixed w e c).2 < 0 := by
        have hq := two_pow_pos_int (w.n - 1)
        unfold fixed
        split <;> simp only <;> omega
      rw [if_neg hc, if_pos (by omega), fix8000_eq, hneg]
      refine ⟨by simp [FpFlags.or], ?_⟩
      rw [FpFlags.or_root (rootOf_root w true sIn _ _)]
      exact rootIs_rootOf true (by omega) ⟨by omega, by omega⟩ hs

/-! ### Rounding, contraction, extension, absolute value (R178, R183 to R185) -/

theorem zero_in_exponents (w : Width) : w.emin ≤ 0 ∧ 0 ≤ w.emax := by cases w <;> decide

/-- Rounding toward minus infinity, and the magnitude bounds of it. -/
theorem asr_bounds (c : Int) (k : Nat) : asr c k * (2 ^ k : Nat) ≤ c ∧ c < (asr c k + 1) * (2 ^ k : Nat) :=
  ⟨Int.ediv_mul_le c (Int.ne_of_gt (two_pow_pos_int k)), Int.lt_ediv_add_one_mul_self c (two_pow_pos_int k)⟩

theorem inRange_asr {w : Width} {c : Int} {k : Nat} (h : InRange w c) : InRange w (asr c k) := by
  rw [inRange_iff] at h ⊢
  rw [asr_eq]
  exact magnitudeBits_asr_le (by omega)

/-- The negated quotient of the negated coefficient, rounded up. -/
theorem inRange_neg_asr_neg {w : Width} {c : Int} {k : Nat} (hk : 0 < k) (h : InRange w c) : InRange w (-(asr (-c) k)) := by
  obtain ⟨h1, h2⟩ := asr_bounds (-c) k
  obtain ⟨h3, h4⟩ := h
  have hp : (2 : Int) ≤ (2 ^ k : Nat) := by
    have := Nat.pow_le_pow_right (n := 2) (by omega) hk
    omega
  generalize asr (-c) k = q at *
  generalize ((2 ^ k : Nat) : Int) = p at *
  constructor
  · refine Classical.byContradiction fun hc => ?_
    have := Int.mul_le_mul_of_nonneg_left hp (show 0 ≤ q by omega)
    omega
  · refine Classical.byContradiction fun hc => ?_
    have := Int.mul_le_mul_of_nonpos_left (show q + 1 ≤ 0 by omega) hp
    omega

theorem roundIs_fpRound (w : Width) (m : Rounding) (x : Word) : RoundIs w m x (fpRound w m x) := by
  unfold RoundIs fpRound
  cases hx : unpack w x with
  | ind => rfl
  | mz => rfl
  | normal e c =>
    obtain ⟨⟨-, -, hc⟩, -⟩ := unpack_normal hx
    obtain ⟨hz1, hz2⟩ := zero_in_exponents w
    simp only
    by_cases he : 0 ≤ e
    · rw [if_pos he, if_pos he]
    · rw [if_neg he, if_neg he]
      have hk : 0 < (-e).toNat := by omega
      have hf := asr_bounds c (-e).toNat
      have hg := asr_bounds (-c) (-e).toNat
      have hp := two_pow_pos_int (-e).toNat
      have hup := inRange_neg_asr_neg hk hc
      have up : (-asr (-c) (-e).toNat - 1) * (2 ^ (-e).toNat : Nat) < c ∧ c ≤ -asr (-c) (-e).toNat * (2 ^ (-e).toNat : Nat) := by
        rw [Int.sub_mul, Int.neg_mul]
        rw [Int.add_mul] at hg
        omega
      cases m with
      | floor => exact ⟨_, isNumber_pack w hz1 hz2 (inRange_asr hc), hf⟩
      | ceil => exact ⟨_, isNumber_pack w hz1 hz2 hup, up⟩
      | trunc =>
        by_cases h0 : 0 ≤ c
        · rw [if_pos h0]
          refine ⟨_, isNumber_pack w hz1 hz2 (inRange_asr hc), fun _ => ⟨?_, hf⟩, fun h => by omega⟩
          exact Int.ediv_nonneg h0 (Int.le_of_lt hp)
        · rw [if_neg h0]
          refine ⟨_, isNumber_pack w hz1 hz2 hup, fun h => by omega, fun _ => ⟨?_, up⟩⟩
          have := Int.ediv_nonneg (show 0 ≤ -c by omega) (Int.le_of_lt hp)
          unfold asr
          omega

theorem contractIs_fpContract (round : Bool) (x : Word) : ContractIs round x (fpContract round x) := by
  have hc := coefOf_inRange .w64 x
  unfold ContractIs fpContract
  simp only
  generalize expOf .w64 x = e at *
  generalize coefOf .w64 x = c at *
  simp only [InRange, Width.n] at hc
  split
  · rfl
  split
  · rfl
  split
  · rfl
  cases round
  · refine isNumber_pack .w32 (by simp only [Width.emin]; omega) (by simp only [Width.emax]; omega) ?_
    rw [asr_eq]
    exact (inRange_iff .w32 _).mpr (magnitudeBits_asr_le ((magnitudeBits_le_iff c _).mpr hc))
  · simp only [if_true]
    by_cases ht : c + 2 ^ 23 < 2 ^ 47
    · rw [if_pos ht, if_neg (by omega), asr_eq]
      refine delivers_finish .w32 _ ((inRange_iff .w32 _).mpr (magnitudeBits_asr_le ((magnitudeBits_le_iff _ _).mpr ?_)))
      simp only [Width.n]
      omega
    · rw [if_neg ht, if_pos (by omega), asr_eq, asr_eq, floorScale_floorScale]
      refine (show e + 1 + 24 = e + 25 by omega) ▸ delivers_finish .w32 _ ((inRange_iff .w32 _).mpr
        (magnitudeBits_asr_le (j := 25) ((magnitudeBits_le_iff _ _).mpr ?_)))
      simp only [Width.n]
      omega

theorem absIs_fpAbs (w : Width) (x : Word) : AbsIs w x (fpAbs w x) := by
  unfold AbsIs fpAbs
  cases hx : unpack w x with
  | ind => rfl
  | mz => rfl
  | normal e c =>
    obtain ⟨⟨h1, h2, h3, h4⟩, -⟩ := unpack_normal hx
    have hq := two_pow_pos_int (w.n - 1)
    have hlt := half_pow_lt w
    unfold negate
    simp only
    by_cases h0 : 0 ≤ c
    · rw [if_pos h0, if_pos h0]
    · rw [if_neg h0, if_neg h0]
      by_cases hm : c = -(2 ^ w.n : Nat)
      · rw [if_pos hm, if_pos hm]
        exact delivers_finish w _ ⟨by omega, by omega⟩
      · rw [if_neg hm, if_neg hm]
        have hd := delivers_finish w e (c := -c) ⟨by omega, by omega⟩
        unfold Delivers at hd
        rwa [if_neg (by omega), if_neg (by omega)] at hd

theorem extendIs_fpExtend (x : Word) : ExtendIs (fun e c => (e - 24, c * 2 ^ 24)) (unpack .w32 x) (fpExtend x) := by
  unfold ExtendIs fpExtend
  cases hx : unpack .w32 x with
  | ind => rfl
  | mz => rfl
  | normal e c =>
    obtain ⟨⟨h1, h2, h3⟩, -⟩ := unpack_normal hx
    simp only [Width.emin, Width.emax, InRange, Width.n] at h1 h2 h3
    have hs : shl c 24 = c * 2 ^ 24 := rfl
    simp only
    rw [hs]
    refine isNumber_pack .w64 (by simp only [Width.emin]; omega) (by simp only [Width.emax]; omega) ?_
    simp only [InRange, Width.n]
    omega

theorem extendIs_fpIndexExtend (x : Word) : ExtendIs (fun e c => (e, c)) (unpack .w32 x) (fpIndexExtend x) := by
  unfold ExtendIs fpIndexExtend
  cases hx : unpack .w32 x with
  | ind => rfl
  | mz => rfl
  | normal e c =>
    obtain ⟨⟨h1, h2, h3⟩, -⟩ := unpack_normal hx
    simp only [Width.emin, Width.emax, InRange, Width.n] at h1 h2 h3
    refine isNumber_pack .w64 (by simp only [Width.emin]; omega) (by simp only [Width.emax]; omega) ?_
    simp only [InRange, Width.n]
    omega

/-! ### Adjust significance and exponent (R180, R181) -/

theorem inRange_mul_iff {w : Width} {c : Int} (hc : c ≠ 0) (j : Nat) :
    InRange w (c * (2 ^ j : Nat)) ↔ magnitudeBits c + j ≤ w.n := by
  rw [inRange_iff, magnitudeBits_mul_pow hc]

theorem fpAdjs_normal {w : Width} {x : Word} {e c : Int} (hx : unpack w x = .normal e c) {count : Int}
    (h : count.natAbs ≤ w.n) : fpAdjs w x count =
      if 0 ≤ count then
        some (finish w (e - (if c = 0 then count.toNat else min count.toNat (normCount w.n c) : Nat))
          (shl c (if c = 0 then count.toNat else min count.toNat (normCount w.n c))))
      else some (finish w (e - count) (asr c (-count).toNat)) := by
  unfold fpAdjs
  rw [hx]
  simp only
  rw [if_neg (by omega)]

theorem fpAdjs_ind {w : Width} {x : Word} (hx : unpack w x = .ind) (count : Int) : fpAdjs w x count = some (resInd w) := by
  unfold fpAdjs
  rw [hx]

theorem fpAdjs_mz {w : Width} {x : Word} (hx : unpack w x = .mz) (count : Int) : fpAdjs w x count = some (resZero w) := by
  unfold fpAdjs
  rw [hx]

theorem adjsIs_fpAdjs (w : Width) (x : Word) {count : Int} (h : count.natAbs ≤ w.n) :
    ∃ v, fpAdjs w x count = some v ∧ AdjsIs w (unpack w x) count v := by
  cases hx : unpack w x with
  | ind => exact ⟨_, fpAdjs_ind hx count, rfl⟩
  | mz => exact ⟨_, fpAdjs_mz hx count, rfl⟩
  | normal e c =>
    obtain ⟨⟨-, -, hc⟩, -⟩ := unpack_normal hx
    rw [fpAdjs_normal hx h]
    unfold AdjsIs
    simp only
    by_cases h0 : 0 ≤ count
    · rw [if_pos h0]
      refine ⟨_, rfl, ?_⟩
      rw [if_pos h0]
      by_cases hz : c = 0
      · subst hz
        refine ⟨count.toNat, by omega, by rw [Int.zero_mul]; exact hc, .inl (by omega), ?_⟩
        rw [if_pos rfl, shl, Int.zero_mul]
        exact delivers_finish w _ hc
      · have hb := (inRange_iff w c).mp hc
        have hn : normCount w.n c = w.n - magnitudeBits c := rfl
        refine ⟨min count.toNat (normCount w.n c), by omega, (inRange_mul_iff hz _).mpr (by omega), ?_, ?_⟩
        · rw [inRange_mul_iff hz]
          omega
        · rw [if_neg hz, shl]
          exact delivers_finish w _ ((inRange_mul_iff hz _).mpr (by omega))
    · rw [if_neg h0]
      refine ⟨_, rfl, ?_⟩
      rw [if_neg h0, asr_eq, show -((-count).toNat : Int) = count by omega]
      exact delivers_finish w _ ((inRange_iff w _).mpr (magnitudeBits_floorScale_le (by
        have := (inRange_iff w c).mp hc
        omega)))

theorem adjeIs_fpAdje {w : Width} {x y : Num} (hx : x.Ok w) (hy : y.Ok w) : AdjeIs w x y (fpAdje w x y) := by
  cases x with
  | ind => rfl
  | mz => rfl
  | normal e c =>
    cases y with
    | ind => rfl
    | mz => rfl
    | normal f d =>
      obtain ⟨-, -, hc⟩ := hx
      obtain ⟨h1, h2, -⟩ := hy
      have hb := (inRange_iff w c).mp hc
      unfold AdjeIs fpAdje
      simp only
      by_cases hz : c = 0
      · subst hz
        rw [floorScale_zero, if_pos hc, if_pos rfl]
        exact isNumber_pack w h1 h2 hc
      rw [if_neg hz]
      by_cases hd : 0 < e - f
      · have hs : floorScale c (e - f) = c * (2 ^ (e - f).toNat : Nat) := by
          rw [← floorScale_nat, Int.toNat_of_nonneg (by omega)]
        have hn : normCount w.n c = w.n - magnitudeBits c := rfl
        have hr := inRange_mul_iff (w := w) hz (e - f).toNat
        rw [if_pos hd, hs]
        by_cases hk : (normCount w.n c : Int) < e - f
        · rw [if_pos hk, if_neg fun hc => by have := hr.mp hc; omega]
          rfl
        · have hi := hr.mpr (by omega)
          rw [if_neg hk, if_pos hi, shl]
          exact isNumber_pack w h1 h2 hi
      · have hr : InRange w (floorScale c (e - f)) :=
          (inRange_iff w _).mpr (magnitudeBits_floorScale_le (by omega))
        rw [if_neg hd, if_pos hr, asr_eq, show -((-(e - f)).toNat : Int) = e - f by omega]
        exact isNumber_pack w h1 h2 hr

/-! ### Comparison (R188) -/

theorem Cmp.bySign_ofSign (c : Int) : (Cmp.ofSign c).bySign c := by
  unfold Cmp.ofSign
  split
  · next h => simp [Cmp.bySign, Cmp.equal, h]
  · next h =>
    split
    · next h1 => simp [Cmp.bySign, Cmp.greater, h]; omega
    · next h1 => simp [Cmp.bySign, Cmp.less, h]; omega

theorem Cmp.bySign_greater : Cmp.greater.bySign 1 := by simp [Cmp.bySign, Cmp.greater]

theorem Cmp.bySign_less : Cmp.less.bySign (-1) := by simp [Cmp.bySign, Cmp.less]

/-- The exact difference of `d * 2^e` and `g * 2^f`, at the lower exponent. -/
def exactDifference (e d f g : Int) : Int := d * (2 ^ (e - min e f).toNat : Nat) - g * (2 ^ (f - min e f).toNat : Nat)

/-- The double-length sum of the minuend and the complemented subtrahend is the exact difference. -/
theorem exactSum_complement (n : Nat) {e d f g h g' : Int} (hh : (h = f ∧ g' = -g) ∨ (h = f + 1 ∧ 2 * g' = -g)) :
    exactSum e (shl d n) h (shl g' n) * (2 ^ (min e h - min e f).toNat : Nat) = exactDifference e d f g * (2 ^ n : Nat) := by
  unfold exactSum exactDifference shl
  rcases hh with ⟨rfl, rfl⟩ | ⟨rfl, hg⟩
  · rw [Int.sub_self, Int.toNat_zero, Nat.pow_zero]
    grind
  · have hg' : g = -(2 * g') := by omega
    subst hg'
    rcases Int.lt_or_le f e with h | h
    · rw [Int.min_eq_right (by omega), Int.min_eq_right (by omega), show (e - f).toNat = (e - (f + 1)).toNat + 1 by omega,
        show (f + 1 - f).toNat = 1 by omega, Int.sub_self, Int.sub_self, Nat.pow_succ]
      push_cast
      grind
    · rw [Int.min_eq_left (by omega), Int.min_eq_left h, show (f + 1 - e).toNat = (f - e).toNat + 1 by omega, Int.sub_self,
        Nat.pow_succ]
      push_cast
      grind

/-- The sum of two double-length coefficients of different sign fits. -/
theorem sum_fits {m : Nat} {u v : Int} (hu : magnitudeBits u ≤ m) (hv : magnitudeBits v ≤ m)
    (hs : (0 ≤ u ∧ v ≤ 0) ∨ (u < 0 ∧ 0 ≤ v)) (a b : Nat) :
    ¬ ((2 ^ m : Nat) ≤ asr u a + asr v b ∨ asr u a + asr v b < -(2 ^ m : Nat)) := by
  have hu' : magnitudeBits (asr u a) ≤ m := by
    rw [asr_eq]
    exact magnitudeBits_asr_le (by omega)
  have hv' : magnitudeBits (asr v b) ≤ m := by
    rw [asr_eq]
    exact magnitudeBits_asr_le (by omega)
  rw [magnitudeBits_le_iff] at hu' hv'
  have pos {x : Int} (k : Nat) (h : 0 ≤ x) : 0 ≤ asr x k := Int.ediv_nonneg h (Int.le_of_lt (two_pow_pos_int k))
  have neg {x : Int} (k : Nat) (h : x < 0) : asr x k < 0 := Int.ediv_neg_of_neg_of_pos h (two_pow_pos_int k)
  rcases hs with ⟨h1, h2⟩ | ⟨h1, h2⟩
  · have := pos a h1
    rcases Int.lt_or_eq_of_le h2 with h2 | rfl
    · have := neg b h2
      omega
    · have h0 : asr 0 b = 0 := Int.zero_ediv _
      omega
  · have := neg a h1
    have := pos b h2
    omega

/-- The upper result of the subtraction of numbers of the same sign. -/
theorem upperDifference_eq {w : Width} {e d f g h g' : Int} (hd : InRange w d) (hg : InRange w g')
    (hs : (0 ≤ d ∧ g' ≤ 0) ∨ (d < 0 ∧ 0 ≤ g')) (hh : (h = f ∧ g' = -g) ∨ (h = f + 1 ∧ 2 * g' = -g)) :
    asr (addExact w.n (e, shl d w.n) (h, shl g' w.n)).2 w.n = floorScale (exactDifference e d f g) (min e f - max e h) := by
  have hp := two_pow_pos_int w.n
  have hs' : (0 ≤ shl d w.n ∧ shl g' w.n ≤ 0) ∨ (shl d w.n < 0 ∧ 0 ≤ shl g' w.n) := by
    unfold shl
    rcases hs with ⟨h1, h2⟩ | ⟨h1, h2⟩
    · exact .inl ⟨Int.mul_nonneg h1 (Int.le_of_lt hp), Int.mul_nonpos_of_nonpos_of_nonneg h2 (Int.le_of_lt hp)⟩
    · exact .inr ⟨Int.mul_neg_of_neg_of_pos h1 hp, Int.mul_nonneg h2 (Int.le_of_lt hp)⟩
  have hle : min e f ≤ min e h := by omega
  unfold addExact
  simp only
  rw [if_neg (sum_fits (magnitudeBits_shl hd) (magnitudeBits_shl hg) hs' _ _), alignedSum_eq, asr_eq, floorScale_floorScale,
    show min e h - max e h - w.n = (min e f - max e h - w.n) + (min e h - min e f).toNat by omega, ← floorScale_mul_pow,
    exactSum_complement w.n hh, floorScale_mul_pow]
  congr 1
  omega

/-- What the comparison takes for the complement of the subtrahend. -/
theorem negate_cases (w : Width) (f g : Int) (hg : InRange w g) :
    (negate w.n f g).1 = (if g = -(2 ^ w.n : Nat) then f + 1 else f) ∧ InRange w (negate w.n f g).2 ∧
    (((negate w.n f g).1 = f ∧ (negate w.n f g).2 = -g) ∨ ((negate w.n f g).1 = f + 1 ∧ 2 * (negate w.n f g).2 = -g)) := by
  have hlt := half_pow_lt w
  have hq := two_pow_pos_int (w.n - 1)
  have hp : 2 ^ w.n = 2 * 2 ^ (w.n - 1) := by rw [← Nat.pow_succ', Nat.succ_eq_add_one, Nat.sub_add_cancel w.n_pos]
  obtain ⟨h1, h2⟩ := hg
  unfold negate
  split
  · next h => exact ⟨rfl, ⟨by simp only; omega, by simp only; omega⟩, .inr ⟨rfl, by simp only; omega⟩⟩
  · next h => exact ⟨rfl, ⟨by simp only; omega, by simp only; omega⟩, .inl ⟨rfl, rfl⟩⟩

theorem compareIs_fpCmp {w : Width} {x y : Num} (hx : x.Ok w) (hy : y.Ok w) : CompareIs w x y (fpCmp w x y) := by
  cases x with
  | ind => cases y <;> rfl
  | mz =>
    cases y with
    | ind => rfl
    | mz => exact Cmp.bySign_ofSign 0
    | normal f g => exact Cmp.bySign_ofSign _
  | normal e d =>
    cases y with
    | ind => rfl
    | mz => exact Cmp.bySign_ofSign _
    | normal f g =>
      unfold CompareIs fpCmp
      simp only
      split
      · exact Cmp.bySign_greater
      split
      · exact Cmp.bySign_less
      · next h1 h2 =>
        obtain ⟨he, hr, hh⟩ := negate_cases w f g hy.2.2
        have hu := upperDifference_eq (e := e) hx.2.2 hr (by omega) hh
        rw [hu, he]
        exact Cmp.bySign_ofSign _

end Sys2Proof.Machine
end

