-- ==== Sys2Proof/Proofs/FpResults.lean ====
section
/-! PROOFS. The scalar floating-point instructions: which flags the arithmetic functions can raise, and the claims about
the instructions from those and from what the functions deliver (spec/44_scalar_fp32.md, spec/45_scalar_fp64.md). -/

-- One declaration at a time, as in the tests: many at once need a thread each.
set_option Elab.async false

namespace Sys2Proof.Machine

/-! ### Which flags a result can raise (R155, R191, R192) -/

namespace FpFlags

theorem Among.mono {f : FpFlags} {a b : List Nat} (h : f.Among a) (hs : ∀ k, k ∈ a → k ∈ b) : f.Among b :=
  ⟨fun e => hs _ (h.divide e), fun e => hs _ (h.overflow e), fun e => hs _ (h.zero e), fun e => hs _ (h.root e),
    fun e => hs _ (h.indefinite e)⟩

variable {flags : List Nat}

theorem among_none : ({} : FpFlags).Among flags := ⟨nofun, nofun, nofun, nofun, nofun⟩

theorem among_ind (h : 46 ∈ flags) : flagInd.Among flags := ⟨nofun, nofun, nofun, nofun, fun _ => h⟩

theorem among_zero (h : 43 ∈ flags) : flagZero.Among flags := ⟨nofun, nofun, fun _ => h, nofun, nofun⟩

theorem among_ovf (h : 42 ∈ flags) (h' : 46 ∈ flags) : flagOvf.Among flags := ⟨nofun, fun _ => h, nofun, nofun, fun _ => h'⟩

theorem among_div (h : 41 ∈ flags) (h' : 46 ∈ flags) : flagDiv.Among flags := ⟨fun _ => h, nofun, nofun, nofun, fun _ => h'⟩

end FpFlags

open FpFlags

/-- The flags of the end of an operation: exponent overflow, machine zero, indefinite. -/
def endFlags : List Nat := [42, 43, 46]

theorem among_finish (w : Width) (e c : Int) : (finish w e c).flags.Among endFlags := by
  unfold finish
  split
  · exact among_ovf (by decide) (by decide)
  · split
    · exact among_zero (by decide)
    · exact among_none

theorem among_normalize (w : Width) (e c : Int) : (normalize w e c).flags.Among endFlags := by
  unfold normalize
  split
  · exact among_zero (by decide)
  · exact among_finish w _ _

theorem among_addResult (w : Width) (k : Kind) (e sum : Int) : (addResult w k e sum).flags.Among endFlags := by
  unfold addResult
  cases k with
  | upper => exact among_finish w _ _
  | signif => exact among_finish w _ _
  | norm => exact among_normalize w _ _
  | lower =>
    simp only
    split
    · exact among_none
    · split
      · exact among_zero (by decide)
      · exact among_none

theorem among_fpAdd (w : Width) (k : Kind) (x y : Num) : (fpAdd w k x y).flags.Among endFlags := by
  unfold fpAdd
  split
  · exact among_ind (by decide)
  · exact among_ind (by decide)
  · exact among_zero (by decide)
  · exact among_addResult w k _ _
  · exact among_addResult w k _ _
  · exact among_addResult w k _ _

theorem among_fpSub (w : Width) (k : Kind) (x y : Num) : (fpSub w k x y).flags.Among endFlags := by
  unfold fpSub
  split
  · exact among_ind (by decide)
  · exact among_ovf (by decide) (by decide)
  · exact among_fpAdd w k _ _

theorem among_fpMul (w : Width) (k : Kind) (n : Nat) (x y : Num) : (fpMul w k n x y).flags.Among endFlags := by
  unfold fpMul
  split
  · exact among_ind (by decide)
  · exact among_ind (by decide)
  · exact among_zero (by decide)
  · exact among_zero (by decide)
  · cases k <;> exact among_finish w _ _

theorem among_fpDiv (w : Width) (k : Kind) (n : Nat) (x y : Num) : (fpDiv w k n x y).flags.Among (41 :: endFlags) := by
  unfold fpDiv
  split
  · exact among_ind (by decide)
  · exact among_ind (by decide)
  · exact among_div (by decide) (by decide)
  · split
    · exact among_div (by decide) (by decide)
    · exact among_zero (by decide)
  · split
    · exact among_div (by decide) (by decide)
    · cases k <;> exact (among_finish w _ _).mono fun _ => List.mem_cons_of_mem _

/-- Is the operation one of the divides? -/
def FpOp.divides : FpOp → Bool
  | .div _ => true
  | _ => false

theorem among_fpBinary {w : Width} {op : FpOp} (h : op.divides = false) (g : Sign) (x y : Word) :
    (fpBinary w op g x y).flags.Among endFlags := by
  cases op with
  | add k => exact among_fpAdd w k _ _
  | sub k => exact among_fpSub w k _ _
  | mul k => exact among_fpMul w k _ _ _
  | div k => cases h

theorem among_fpBinary_div (w : Width) (k : Kind) (g : Sign) (x y : Word) :
    (fpBinary w (.div k) g x y).flags.Among (41 :: endFlags) := among_fpDiv w k _ _ _

theorem among_fpRound (w : Width) (m : Rounding) (x : Word) : (fpRound w m x).flags.Among [46] := by
  unfold fpRound
  split
  · exact among_none
  · exact among_ind (by decide)
  · split
    · exact among_none
    · cases m <;> exact among_none

theorem among_fpAdje (w : Width) (x y : Num) : (fpAdje w x y).flags.Among [42, 46] := by
  unfold fpAdje
  split
  · split
    · exact among_none
    · simp only
      split
      · split
        · exact among_ovf (by decide) (by decide)
        · exact among_none
      · exact among_none
  · exact among_ind (by decide)

theorem among_fpAbs (w : Width) (x : Word) : (fpAbs w x).flags.Among endFlags := by
  unfold fpAbs
  split
  · exact among_ind (by decide)
  · exact among_zero (by decide)
  · split
    · exact among_none
    · exact among_finish w _ _

theorem among_fpContract (round : Bool) (x : Word) : (fpContract round x).flags.Among endFlags := by
  unfold fpContract
  simp only
  split
  · exact among_ind (by decide)
  split
  · exact among_ovf (by decide) (by decide)
  split
  · exact among_zero (by decide)
  split
  · split <;> exact among_finish _ _ _
  · exact among_none

theorem among_fpExtend (x : Word) : (fpExtend x).flags.Among [43, 46] := by
  unfold fpExtend
  split
  · exact among_ind (by decide)
  · exact among_zero (by decide)
  · exact among_none

theorem among_fpIndexExtend (x : Word) : (fpIndexExtend x).flags.Among [43, 46] := by
  unfold fpIndexExtend
  split
  · exact among_ind (by decide)
  · exact among_zero (by decide)
  · exact among_none

theorem among_fpAdjs {w : Width} {x : Word} {count : Int} {r : FpResult} (h : fpAdjs w x count = some r) :
    r.flags.Among endFlags := by
  unfold fpAdjs at h
  split at h
  · cases h
    exact among_ind (by decide)
  · cases h
    exact among_zero (by decide)
  · split at h
    · cases h
    · split at h
      · cases h
        exact among_finish w _ _
      · cases h
        exact among_finish w _ _

/-- An exponent that is not too large cannot overflow. -/
theorem among_finish_low {w : Width} {e : Int} (h : e ≤ w.emax) (c : Int) : (finish w e c).flags.Among [43, 46] := by
  unfold finish
  rw [if_neg (by omega)]
  split
  · exact among_zero (by decide)
  · exact among_none

theorem rootBits_lt (v : Nat) : ∀ b acc : Nat, rootBits v b acc < acc + 2 ^ b := by
  intro b
  induction b with
  | zero => exact fun acc => Nat.lt_succ_self acc
  | succ b ih =>
    intro acc
    have hp := Nat.pow_succ' (m := 2) (n := b)
    have hb := Nat.two_pow_pos b
    unfold rootBits
    split
    · have := ih (acc + 2 ^ b)
      omega
    · have := ih acc
      omega

/-- The adjustment for significance raises an exponent by no more than the bits there are. -/
theorem sigAdjust_fst_le (n : Nat) (e v : Int) (sIn : Nat) : (sigAdjust n n e v sIn).1 ≤ e + magnitudeBits v := by
  unfold sigAdjust
  simp only
  split <;> omega

/-- A root has half the exponent, which is far from overflow. -/
theorem among_rootOf {w : Width} (flip : Bool) (sIn : Nat) {e : Int} (h : e ≤ w.emax + 1) (c : Int) :
    (rootOf w flip sIn e c).flags.Among [43, 46] := by
  have hw : w.emax + 1 ≤ 2 * (w.emax - 50 + ((w.n - 1) / 2 : Nat)) ∧ 0 ≤ w.emax := by
    cases w <;> decide
  unfold rootOf
  split
  · exact among_finish_low (by rw [asr, Nat.pow_one]; omega) 0
  · simp only
    refine among_finish_low (Int.le_trans (sigAdjust_fst_le _ _ _ _) ?_) _
    have hm (v : Nat) : magnitudeBits (if flip then -(floorRoot v : Int) else floorRoot v) ≤ 50 := by
      have hv : floorRoot v < 0 + 2 ^ 50 := rootBits_lt v 50 0
      rw [magnitudeBits_le_iff]
      split <;> omega
    generalize hd : shl (if e % 2 = 0 then c else 2 * c) (w.n - 1) = d
    have := hm d.toNat
    split <;> omega

theorem among_fpSqrt {w : Width} {x : Num} (hx : x.Ok w) (sIn : Nat) : (fpSqrt w sIn x).flags.Among [43, 45, 46] := by
  have hsub : ∀ k, k ∈ [43, 46] → k ∈ [43, 45, 46] := by decide
  cases x with
  | ind => exact among_ind (by decide)
  | mz => exact among_zero (by decide)
  | normal e c =>
    obtain ⟨-, he, hr⟩ := hx
    unfold fpSqrt
    simp only
    split
    · have hf := fixed_range e hr
      have hfe : (fixed w e c).1 ≤ w.emax + 1 := by
        unfold fixed
        split <;> simp only <;> omega
      have hneg : negate w.n (fixed w e c).1 (fixed w e c).2 = ((fixed w e c).1, -(fixed w e c).2) := by
        unfold negate
        rw [if_neg (by omega)]
      rw [fix8000_eq, hneg]
      have h := (among_rootOf true sIn hfe (-(fixed w e c).2)).mono hsub
      exact ⟨fun hd => h.divide (by simpa [FpFlags.or] using hd), fun ho => h.overflow (by simpa [FpFlags.or] using ho),
        fun _ => by decide, fun _ => by decide, fun _ => by decide⟩
    · exact (among_rootOf false sIn (by omega) c).mono hsub

end Sys2Proof.Machine

namespace Sys2Proof
open Machine

theorem sigCount_min {w : Width} {x y : Word} {m n : Nat} (hm : SigCount (coefOf w x) m) (hn : SigCount (coefOf w y) n) :
    min (sigOf w x) (sigOf w y) = min m n ∧ min m n ≤ w.n := by
  have h1 := sigCount_eq hm
  have h2 := (inRange_iff w _).mp (coefOf_inRange w x)
  subst h1
  have h3 := sigCount_eq hn
  subst h3
  exact ⟨rfl, by omega⟩

/-- What the four functions deliver of operands under sign control. -/
theorem fpBinary_delivers (w : Width) (g : Sign) (k : Kind) {x y : Word} {m n : Nat} (hm : SigCount (coefOf w x) m)
    (hn : SigCount (coefOf w y) n) :
    AddIs w k (signedA w g (unpack w x)) (signedB w g (unpack w y)) (fpBinary w (.add k) g x y) ∧
    SubIs w k (signedA w g (unpack w x)) (signedB w g (unpack w y)) (fpBinary w (.sub k) g x y) ∧
    MulIs w k (min m n) (signedA w g (unpack w x)) (signedB w g (unpack w y)) (fpBinary w (.mul k) g x y) ∧
    DivIs w k (min m n) (signedA w g (unpack w x)) (signedB w g (unpack w y)) (fpBinary w (.div k) g x y) := by
  have hx := unpack_ok w x
  have hy := unpack_ok w y
  have ha := signedA_ok g hx
  have hb := signedB_ok g hy
  obtain ⟨hs, hle⟩ := sigCount_min hm hn
  unfold fpBinary
  simp only
  rw [onA_eq g hx, onB_eq g hy, hs]
  exact ⟨addIs_fpAdd k ha hb, subIs_fpSub k ha hb, mulIs_fpMul k ha hb hle, divIs_fpDiv k ha hb hle⟩

section
variable {i : Instr} {s : State} {op : FpOp} {r sd t : Byte}

theorem binary64_result (h : exec i s = s.binary64 op r sd t) (ho : op.divides = false) :
    FpRegisterResult i s .scalar t (fpBinary .w64 op {} (s.reg r) (s.reg sd)) [42, 43, 46] := by
  have hk : op.kind = .scalar := by cases op <;> first | rfl | cases ho
  refine fpRegisterResult_of_putFp ?_ ((among_fpBinary ho {} _ _).scalar (by decide))
  rw [h, State.binary64, hk]

theorem binary32_result (h : exec i s = s.binary32 op r sd t) (ho : op.divides = false) :
    FpHalfResult i s .scalar t (fpBinary .w32 op {} (s.operand32 r) (s.operand32 sd)) [42, 43, 46] := by
  have hk : op.kind = .scalar := by cases op <;> first | rfl | cases ho
  refine fpHalfResult_of_putFp32 ?_ ((among_fpBinary ho {} _ _).scalar (by decide))
  rw [h, State.binary32, hk]

theorem divide64_result {k : Kind} (h : exec i s = s.binary64 (.div k) r sd t) :
    FpRegisterResult i s .convert t (fpBinary .w64 (.div k) {} (s.reg r) (s.reg sd)) [41, 42, 43, 46, 58] :=
  fpRegisterResult_of_putFp h (((among_fpBinary_div .w64 k {} _ _).mono (by decide)).convert (by decide))

theorem divide32_result {k : Kind} (h : exec i s = s.binary32 (.div k) r sd t) :
    FpHalfResult i s .convert t (fpBinary .w32 (.div k) {} (s.operand32 r) (s.operand32 sd)) [41, 42, 43, 46, 58] :=
  fpHalfResult_of_putFp32 h (((among_fpBinary_div .w32 k {} _ _).mono (by decide)).convert (by decide))

end

/-- Settles O31. -/
theorem fpBinaryResults : Obligations.FpBinaryResults := by
  refine ⟨fun s r sd t => ⟨?_, ?_, ?_, ?_⟩, fun w k x y m n hm hn => ?_, fun w g k x y m n hm hn => ?_⟩
  · simp only [List.forall_mem_cons]
    exact ⟨binary64_result rfl rfl, binary64_result rfl rfl, binary64_result rfl rfl, binary64_result rfl rfl,
      binary64_result rfl rfl, binary64_result rfl rfl, binary64_result rfl rfl, binary64_result rfl rfl,
      binary64_result rfl rfl, fun _ h => by cases h⟩
  · simp only [List.forall_mem_cons]
    exact ⟨divide64_result rfl, divide64_result rfl, fun _ h => by cases h⟩
  · simp only [List.forall_mem_cons]
    exact ⟨binary32_result rfl rfl, binary32_result rfl rfl, binary32_result rfl rfl, binary32_result rfl rfl,
      binary32_result rfl rfl, binary32_result rfl rfl, binary32_result rfl rfl, binary32_result rfl rfl,
      binary32_result rfl rfl, fun _ h => by cases h⟩
  · simp only [List.forall_mem_cons]
    exact ⟨divide32_result rfl, divide32_result rfl, fun _ h => by cases h⟩
  · have h := fpBinary_delivers w {} k hm hn
    rwa [signedA_none, signedB_none] at h
  · exact ⟨onA_eq g (unpack_ok w x), onB_eq g (unpack_ok w y), fpBinary_delivers w g k hm hn⟩

section
variable {i : Instr} {s : State} {w : Width} {d : Byte}

theorem round64_result {m : Rounding} {x : Word} (h : exec i s = s.putFp .scalar d (fpRound w m x)) :
    FpRegisterResult i s .scalar d (fpRound w m x) [46] :=
  fpRegisterResult_of_putFp h ((among_fpRound w m x).scalar (by decide))

theorem round32_result {m : Rounding} {x : Word} (h : exec i s = s.putFp32 .scalar d (fpRound w m x)) :
    FpHalfResult i s .scalar d (fpRound w m x) [46] :=
  fpHalfResult_of_putFp32 h ((among_fpRound w m x).scalar (by decide))

theorem raises_fpSqrt (w : Width) (n : Nat) (x : Word) : (fpSqrt w n (unpack w x)).flags.Raises .convert [43, 45, 46, 58] :=
  ((among_fpSqrt (unpack_ok w x) n).mono (by decide)).convert (by decide)

theorem raises_fpAdje (w : Width) (x y : Word) : (fpAdje w (unpack w x) (unpack w y)).flags.Raises .scalar [42, 46] :=
  (among_fpAdje w _ _).scalar (by decide)

theorem raises_fpAbs (w : Width) (x : Word) : (fpAbs w x).flags.Raises .scalar [42, 43, 46] :=
  (among_fpAbs w x).scalar (by decide)

theorem raises_fpContract (b : Bool) (x : Word) : (fpContract b x).flags.Raises .convert [42, 43, 46, 58] :=
  ((among_fpContract b x).mono (by decide)).convert (by decide)

end

/-- Settles O32. -/
theorem fpUnaryResults : Obligations.FpUnaryResults := by
  refine ⟨fun s r sd t => ⟨round64_result rfl, round64_result rfl, round64_result rfl, ?_, ?_, ?_, ?_, ?_, round32_result rfl,
    round32_result rfl, round32_result rfl, ?_, ?_, ?_, ?_, ?_⟩, fun w x y => ⟨fun n hn => ?_,
    fun m => roundIs_fpRound w m x, fun b => contractIs_fpContract b x, adjeIs_fpAdje (unpack_ok w x) (unpack_ok w y),
    absIs_fpAbs w x, extendIs_fpExtend x, extendIs_fpIndexExtend x⟩⟩
  · exact fpRegisterResult_of_putFp rfl (raises_fpSqrt _ _ _)
  · exact fpRegisterResult_of_putFp rfl (raises_fpAdje _ _ _)
  · exact fpRegisterResult_of_putFp rfl (raises_fpAbs _ _)
  · exact fpHalfResult_of_putFp32 rfl (raises_fpContract _ _)
  · exact fpHalfResult_of_putFp32 rfl (raises_fpContract _ _)
  · exact fpHalfResult_of_putFp32 rfl (raises_fpSqrt _ _ _)
  · exact fpHalfResult_of_putFp32 rfl (raises_fpAdje _ _ _)
  · exact fpHalfResult_of_putFp32 rfl (raises_fpAbs _ _)
  · exact fpRegisterResult_of_putFp rfl ((among_fpExtend _).scalar (by decide))
  · exact fpRegisterResult_of_putFp rfl ((among_fpIndexExtend _).scalar (by decide))
  · have h1 := sigCount_eq hn
    subst h1
    exact sqrtIs_fpSqrt (unpack_ok w x) ((inRange_iff w _).mp (coefOf_inRange w x))

/-- An operand with a value for every count that its rule allows. -/
theorem fpAdjs_some {w : Width} {x : Word} {count : Int}
    (h : count.natAbs ≤ w.n ∨ unpack w x = .ind ∨ unpack w x = .mz) : ∃ v, fpAdjs w x count = some v := by
  rcases h with h | h | h
  · obtain ⟨v, hv, -⟩ := adjsIs_fpAdjs w x h
    exact ⟨v, hv⟩
  · exact ⟨_, fpAdjs_ind h count⟩
  · exact ⟨_, fpAdjs_mz h count⟩

theorem exec_adjs {s : State} {r sd : Byte} (t : Byte) {v : FpResult} (h : fpAdjs .w64 (s.reg r) (s.addr sd).toInt = some v) :
    exec (.adjs r sd t) s = s.putFp .scalar t v := by
  show execAdjs r sd t s = _
  unfold execAdjs
  rw [h]

theorem exec_adjsh {s : State} {r sd : Byte} (t : Byte) {v : FpResult}
    (h : fpAdjs .w32 (s.operand32 r) ((s.reg32 sd).extractLsb' 0 24).toInt = some v) :
    exec (.adjsh r sd t) s = s.putFp32 .scalar t v := by
  show execAdjsh r sd t s = _
  unfold execAdjsh
  rw [h]

/-- Settles O33. -/
theorem adjustSignificance : Obligations.AdjustSignificance := by
  refine ⟨fun s r sd t => ⟨fun h => ?_, fun h => ?_⟩, fun w x count h => adjsIs_fpAdjs w x h⟩
  · obtain ⟨v, hv⟩ := fpAdjs_some (w := .w64) h
    exact ⟨v, hv, fpRegisterResult_of_putFp (exec_adjs t hv) ((among_fpAdjs hv).scalar (by decide))⟩
  · obtain ⟨v, hv⟩ := fpAdjs_some (w := .w32) h
    exact ⟨v, hv, fpHalfResult_of_putFp32 (exec_adjsh t hv) ((among_fpAdjs hv).scalar (by decide))⟩

theorem raises_cmp (c : Cmp) : c.flags.Raises .scalar [46] :=
  FpFlags.Among.scalar (f := c.flags) ⟨fun h => (by cases h), fun h => (by cases h), fun h => (by cases h),
    fun h => (by cases h), fun _ => by decide⟩ (by decide)

/-- Settles O37. -/
theorem compareBranches : Obligations.CompareBranches := by
  refine ⟨fun s r sd t => ⟨?_, ?_⟩, fun w x y => compareIs_fpCmp (unpack_ok w x) (unpack_ok w y), fun w g x y => ?_⟩
  · simp only [List.forall_mem_cons]
    exact ⟨branchResult_of_raiseFlags rfl (raises_cmp _), branchResult_of_raiseFlags rfl (raises_cmp _),
      branchResult_of_raiseFlags rfl (raises_cmp _), branchResult_of_raiseFlags rfl (raises_cmp _), fun _ h => by cases h⟩
  · simp only [List.forall_mem_cons]
    exact ⟨branchResult_of_raiseFlags rfl (raises_cmp _), branchResult_of_raiseFlags rfl (raises_cmp _),
      branchResult_of_raiseFlags rfl (raises_cmp _), branchResult_of_raiseFlags rfl (raises_cmp _), fun _ h => by cases h⟩
  · rw [onA_eq g (unpack_ok w x), onB_eq g (unpack_ok w y)]
    exact compareIs_fpCmp (signedA_ok g (unpack_ok w x)) (signedB_ok g (unpack_ok w y))

end Sys2Proof
end

