-- ==== Sys2Proof/Proofs/Compares.lean ====
section
/-! PROOFS. The compares #B0 to #B5 (spec/47_sparse_compare_index.md R490 to R506). -/

-- One declaration at a time, as in the tests: many at once need a thread each.
set_option Elab.async false

namespace Sys2Proof.Machine

/-! ### Registers of the operand width -/

theorem State.regW_setRegW_self (s : State) (w : Width) (d : Byte) (v : Word) : (s.setRegW w d v).regW w d = narrow w v := by
  cases w
  · exact congrArg (0#32 ++ ·) (s.reg32_setReg32_self d (rightHalf v))
  · exact s.setReg_reg_self d v

theorem State.regW_setRegW_ne (s : State) {w : Width} {d e : Byte} (v : Word) (h : e ≠ d) :
    (s.setRegW w d v).regW w e = s.regW w e := by
  cases w
  · exact congrArg (0#32 ++ ·) (s.reg32_setReg32_ne (rightHalf v) h)
  · exact s.setReg_reg_ne v h

theorem State.next64_regW (s : State) (w : Width) (d : Byte) : s.next64.regW w d = s.regW w d := by cases w <;> rfl

theorem State.raiseFlags_regW (s : State) (k : FlagKind) (f : FpFlags) (w : Width) (d : Byte) :
    (s.raiseFlags k f).regW w d = s.regW w d := by cases w <;> rfl

theorem widthResult_of_setRegW_goto {i : Instr} {s : State} {w : Width} {d : Byte} {v : Word} {a : Addr}
    (h : exec i s = .next ((s.setRegW w d v).goto a)) : WidthResult i s (halfAligned a) w d v := by
  cases w
  · exact halfResult_of_setReg32_goto h
  · exact registerResult_of_setReg_goto h

theorem branchResult_of_raiseFlags_goto {i : Instr} {s : State} {k : FlagKind} {f : FpFlags} {flags : List Nat} {a : Addr}
    (h : exec i s = .next ((s.raiseFlags k f).goto a)) (hf : f.Raises k flags) :
    BranchResult i s (halfAligned a) (deriveDfr (s.dfr ||| raisedBits k f)) flags :=
  ((State.Frame.refl.raiseFlags hf).goto a).completes_nothing h rfl rfl

/-! ### Branches and condition codes (R490 to R494) -/

/-- An integer branch form. -/
theorem intBranch_results {i : Instr} {s : State} {fwc : Bool} {cond : Int → Int → Bool} (met : Int → Int → Bool)
    {g x a y b z c : Byte} (h : exec i s = intBranch fwc cond g x a y b z c s) (hm : ∀ u v, cond u v = met u v)
    (hq : (fwc && bitAt g 0) = false) :
    let v := intCompare g x a z fwc s
    (met v.left v.right = false → WidthResult i s s.behind64 (gWidth g) c v.value) ∧
    (met v.left v.right = true → ∀ k, compareTarget g y b s = some k →
      WidthResult i s (halfAligned k) (gWidth g) c v.value) := by
  obtain rfl : cond = met := funext fun u => funext fun v => hm u v
  unfold intBranch badCompare branchMet at h
  rw [if_neg (by rw [hq]; exact Bool.false_ne_true)] at h
  refine ⟨fun hc => ?_, fun hc k hk => ?_⟩
  · simp only [hc, Bool.false_eq_true, if_false] at h
    have hr := widthResult_of_setRegW_goto h
    rwa [State.setRegW_pc] at hr
  · simp only [hc, if_true, hk] at h
    exact widthResult_of_setRegW_goto h

theorem narrow_right (l : Byte) (c : BitVec 24) : narrow .w32 (0#32 ++ l ++ c) = 0#32 ++ l ++ c :=
  (congrArg (0#32 ++ · : BitVec 32 → Word) (rightHalf_pack32 l c)).trans ((BitVec.cast_eq rfl _).symm.trans BitVec.append_assoc.symm)

theorem narrow_intCompare (g x a z : Byte) (fwc : Bool) (s : State) :
    narrow (gWidth g) (intCompare g x a z fwc s).value = (intCompare g x a z fwc s).value := by
  unfold intCompare
  cases gWidth g
  · exact narrow_right _ _
  · simp only
    split <;> rfl

/-- An integer set-condition form. -/
theorem intSet_results {i : Instr} {s : State} {fwc : Bool} {cond : Int → Int → Bool} (met : Int → Int → Bool)
    {g x a y z c : Byte} (h : exec i s = intSet fwc cond g x a y z c s) (hm : ∀ u v, cond u v = met u v) :
    (fwc && bitAt g 0) = false → c ≠ z →
    let v := intCompare g x a z fwc s
    Completes i s s.behind64 (fun n => n = regOfW (gWidth g) c ∨ n = regOfW (gWidth g) y) [] nothing fun u =>
      u.regW (gWidth g) y = (if met v.left v.right then 1 else 0) ∧
      (y ≠ c → u.regW (gWidth g) c = v.value) ∧ s.othersAs u (gWidth g) fun n => n = c ∨ n = y := by
  intro hq hcz
  obtain rfl : cond = met := funext fun u => funext fun v => hm u v
  unfold intSet badCompare at h
  rw [if_neg (by rw [hq]; exact Bool.false_ne_true), if_neg hcz] at h
  have hcode (w : Width) (met : Bool) : narrow w (conditionCode met) = if met then 1 else 0 := by cases w <;> cases met <;> rfl
  refine ((State.Frame.refl.setRegW _ (.inl rfl)).setRegW _ (.inr rfl)).next64.completes_nothing h
    ⟨?_, fun hy => ?_, fun n hn => ?_⟩ (State.next64_pc_of (by simp))
  · rw [State.next64_regW, State.regW_setRegW_self, hcode]
  · rw [State.next64_regW, State.regW_setRegW_ne _ _ hy.symm, State.regW_setRegW_self, narrow_intCompare]
  · rw [not_or] at hn
    rw [State.next64_regW, State.regW_setRegW_ne _ _ hn.2, State.regW_setRegW_ne _ _ hn.1]

theorem exec_ibxeqSc (s : State) (g x a y z c : Byte) :
    exec (.ibxeqSc g x a y z c) s = intSet (bitAt g 3) (fun l r => l == r) g x a y z c s := rfl

theorem exec_ibxneSc (s : State) (g x a y z c : Byte) :
    exec (.ibxneSc g x a y z c) s = intSet (bitAt g 3) (fun l r => l != r) g x a y z c s := rfl

theorem exec_ibxgeSc (s : State) (g x a y z c : Byte) :
    exec (.ibxgeSc g x a y z c) s = intSet false (fun l r => decide (r ≤ l)) g x a y z c s := rfl

theorem exec_ibxltSc (s : State) (g x a y z c : Byte) :
    exec (.ibxltSc g x a y z c) s = intSet false (fun l r => decide (l < r)) g x a y z c s := rfl

theorem exec_ibxleSc (s : State) (g x a y z c : Byte) :
    exec (.ibxleSc g x a y z c) s = intSet false (fun l r => decide (l ≤ r)) g x a y z c s := rfl

theorem exec_ibxgtSc (s : State) (g x a y z c : Byte) :
    exec (.ibxgtSc g x a y z c) s = intSet false (fun l r => decide (r < l)) g x a y z c s := rfl

/-- A floating-point branch form. -/
theorem fpBranch_results {i : Instr} {s : State} {cond : Cmp → Bool} {g x a y b : Byte}
    (h : exec i s = fpBranch cond g x a y b s) :
    let r := fpCompare (gWidth g) (s.regW (gWidth g) a) (s.regW (gWidth g) x)
    let dfr := deriveDfr (s.dfr ||| raisedBits .scalar r.flags)
    (cond r = false → BranchResult i s s.behind64 dfr [46]) ∧
    (cond r = true → ∀ k, compareTarget g y b s = some k → BranchResult i s (halfAligned k) dfr [46]) := by
  intro r dfr
  unfold fpBranch fpCompared branchMet at h
  refine ⟨fun hc => ?_, fun hc k hk => ?_⟩
  · simp only [show cond (fpCompare (gWidth g) (s.regW (gWidth g) a) (s.regW (gWidth g) x)) = false from hc,
      Bool.false_eq_true, if_false] at h
    exact branchResult_of_raiseFlags_goto h (raises_cmp r)
  · simp only [show cond (fpCompare (gWidth g) (s.regW (gWidth g) a) (s.regW (gWidth g) x)) = true from hc, if_true, hk] at h
    exact branchResult_of_raiseFlags_goto h (raises_cmp r)

/-- A floating-point set-condition form. -/
theorem fpSet_results {i : Instr} {s : State} {cond : Cmp → Bool} {g x a y : Byte} (h : exec i s = fpSet cond g x a y s) :
    let r := fpCompare (gWidth g) (s.regW (gWidth g) a) (s.regW (gWidth g) x)
    let dfr := deriveDfr (s.dfr ||| raisedBits .scalar r.flags)
    Completes i s s.behind64 (· = regOfW (gWidth g) y) [46] nothing fun u =>
      u.regW (gWidth g) y = (if cond r then 1 else 0) ∧ u.dfr = dfr ∧ s.othersAs u (gWidth g) (· = y) := by
  intro r dfr
  have hcode (w : Width) (met : Bool) : narrow w (conditionCode met) = if met then 1 else 0 := by cases w <;> cases met <;> rfl
  have hf : s.Frame ((s.raiseFlags .scalar r.flags).setRegW (gWidth g) y (conditionCode (cond r)))
      (· = regOfW (gWidth g) y) [46] nothing := (State.Frame.refl.raiseFlags (raises_cmp r)).setRegW _ rfl
  refine hf.next64.completes_nothing h ⟨?_, ?_, fun n hn => ?_⟩ (State.next64_pc_of (by simp))
  · rw [State.next64_regW, State.regW_setRegW_self, hcode]
  · rw [State.next64_dfr, State.setRegW_dfr]
    rfl
  · rw [State.next64_regW, State.regW_setRegW_ne _ _ hn, State.raiseFlags_regW]

/-! ### The sum and the numbers compared (R492) -/

theorem numberOf_eq {w : Nat} (hw : 0 < w) (unsigned : Bool) (x : BitVec w) :
    numberOf unsigned x = integerOf unsigned w x.toNat := by
  have hp : 2 ^ w = 2 * 2 ^ (w - 1) := by rw [← Nat.pow_succ', Nat.succ_eq_add_one, Nat.sub_add_cancel hw]
  unfold numberOf integerOf
  cases unsigned
  · rw [if_neg Bool.false_ne_true, BitVec.toInt_eq_toNat_cond]
    by_cases h : x.toNat < 2 ^ (w - 1)
    · rw [if_pos (by omega), if_pos (.inr h)]
    · rw [if_neg (by omega), if_neg (by simp [h])]
  · rw [if_pos rfl, if_pos (.inl rfl)]

theorem toNat_append {n m : Nat} (x : BitVec n) (y : BitVec m) : (x ++ y).toNat = x.toNat * 2 ^ m + y.toNat := by
  rw [BitVec.toNat_append, ← Nat.shiftLeft_add_eq_or_of_lt y.isLt, Nat.shiftLeft_eq]

theorem intCompareIs_w64 {g : Byte} (hg : gWidth g = .w64) (x a z : Byte) (s : State) (fwc : Bool) :
    IntCompareIs (bitAt g 4) fwc 48 64 (s.regOrMz a).toNat (s.regOrMz x).toNat (if z = 0 then 0 else s.reg z).toNat
      (intCompare g x a z fwc s) := by
  have hs : (addrPart (s.regOrMz a) + addrPart (s.regOrMz x)).toNat =
      ((s.regOrMz a).toNat % 2 ^ 48 + (s.regOrMz x).toNat % 2 ^ 48) % 2 ^ 48 := by
    simp only [addrPart, BitVec.toNat_add, BitVec.extractLsb'_toNat, Nat.shiftRight_zero]
  have hl : (lenPart (s.regOrMz a)).toNat = (s.regOrMz a).toNat / 2 ^ 48 := by
    have := (s.regOrMz a).isLt
    simp only [lenPart, BitVec.extractLsb'_toNat, Nat.shiftRight_eq_div_pow]
    omega
  have hv : (joinLen (lenPart (s.regOrMz a)) (addrPart (s.regOrMz a) + addrPart (s.regOrMz x))).toNat =
      (s.regOrMz a).toNat / 2 ^ 48 * 2 ^ 48 +
        ((s.regOrMz a).toNat % 2 ^ 48 + (s.regOrMz x).toNat % 2 ^ 48) % 2 ^ 48 := by
    rw [joinLen, toNat_append, hl, hs]
  have hz : (addrPart (if z = 0 then 0 else s.reg z)).toNat = (if z = 0 then 0 else s.reg z).toNat % 2 ^ 48 := by
    simp only [addrPart, BitVec.extractLsb'_toNat, Nat.shiftRight_zero]
  unfold IntCompareIs intCompare
  rw [hg]
  simp only
  cases fwc
  · simp only [Bool.false_eq_true, if_false]
    rw [numberOf_eq (by omega), numberOf_eq (by omega), hs, hz]
    exact ⟨hv, rfl, rfl⟩
  · simp only [if_true]
    rw [numberOf_eq (by omega), numberOf_eq (by omega)]
    exact ⟨hv, rfl, rfl⟩

theorem intCompareIs_w32 {g : Byte} (hg : gWidth g = .w32) (x a z : Byte) (s : State) :
    IntCompareIs (bitAt g 4) false 24 32 (s.reg32OrMz a).toNat (s.reg32OrMz x).toNat (if z = 0 then 0 else s.reg32 z).toNat
      (intCompare g x a z false s) := by
  have hs : ((s.reg32OrMz a).extractLsb' 0 24 + (s.reg32OrMz x).extractLsb' 0 24).toNat =
      ((s.reg32OrMz a).toNat % 2 ^ 24 + (s.reg32OrMz x).toNat % 2 ^ 24) % 2 ^ 24 := by
    simp only [BitVec.toNat_add, BitVec.extractLsb'_toNat, Nat.shiftRight_zero]
  have hl : ((s.reg32OrMz a).extractLsb' 24 8).toNat = (s.reg32OrMz a).toNat / 2 ^ 24 := by
    have := (s.reg32OrMz a).isLt
    simp only [BitVec.extractLsb'_toNat, Nat.shiftRight_eq_div_pow]
    omega
  have hz : ((if z = 0 then 0 else s.reg32 z).extractLsb' 0 24).toNat = (if z = 0 then 0 else s.reg32 z).toNat % 2 ^ 24 := by
    simp only [BitVec.extractLsb'_toNat, Nat.shiftRight_zero]
  unfold IntCompareIs intCompare
  rw [hg]
  simp only [Bool.false_eq_true, if_false]
  rw [numberOf_eq (by omega), numberOf_eq (by omega), toNat_append, toNat_append, hs, hl, hz]
  exact ⟨by simp, rfl, rfl⟩

/-! ### The branch target (R491) -/

theorem indexed_eq (a c : Addr) : indexed a c = BitVec.ofNat 48 (a.toNat + 32 * c.toNat) :=
  BitVec.eq_of_toNat_eq (by
    simp only [indexed, scaled, BitVec.toNat_add, BitVec.toNat_shiftLeft, BitVec.toNat_ofNat, Nat.shiftLeft_eq]
    omega)

theorem toNat_count (y b : Byte) : (0#32 ++ y ++ b : Addr).toNat = 256 * y.toNat + b.toNat := by
  rw [toNat_append, toNat_append, BitVec.toNat_ofNat]
  omega

theorem sub_scaled_eq (p c : Addr) : p - scaled 5 c = BitVec.ofInt 48 ((p.toNat : Int) - (32 * c.toNat : Nat)) :=
  BitVec.eq_of_toNat_eq (by
    have hp := p.isLt
    simp only [scaled, BitVec.toNat_sub, BitVec.toNat_shiftLeft, BitVec.toNat_ofInt, Nat.shiftLeft_eq]
    omega)

theorem compareTarget_eq (g y b : Byte) (s : State) : compareTarget g y b s = match bitAt g 5, bitAt g 6 with
    | false, false => some (BitVec.ofNat 48 ((s.addr b).toNat + 32 * (s.addr y).toNat))
    | true, false => some (BitVec.ofNat 48 (s.pc.toNat + 32 * (256 * y.toNat + b.toNat)))
    | true, true => some (BitVec.ofInt 48 ((s.pc.toNat : Int) - (32 * (256 * y.toNat + b.toNat) : Nat)))
    | false, true => none := by
  have h1 : s.pc + scaled 5 (0#32 ++ y ++ b) = BitVec.ofNat 48 (s.pc.toNat + 32 * (256 * y.toNat + b.toNat)) := by
    rw [← toNat_count]
    exact indexed_eq _ _
  have h2 : s.pc - scaled 5 (0#32 ++ y ++ b) =
      BitVec.ofInt 48 ((s.pc.toNat : Int) - (32 * (256 * y.toNat + b.toNat) : Nat)) := by
    rw [← toNat_count]
    exact sub_scaled_eq _ _
  unfold compareTarget branchTarget
  rw [h1, h2, indexed_eq] <;> rfl

end Sys2Proof.Machine

namespace Sys2Proof
open Machine

/-- Settles O48. -/
theorem integerCompares : Obligations.IntegerCompares := by
  intro s g x a y b z c
  have hne (u v : Int) : (u != v) = decide (u ≠ v) := (decide_not).symm
  refine ⟨?_, ?_, ?_, compareTarget_eq g y b s⟩
  · refine List.forall_mem_cons.2 ⟨?_, List.forall_mem_cons.2 ⟨?_, List.forall_mem_cons.2 ⟨?_, List.forall_mem_cons.2 ⟨?_,
      List.forall_mem_cons.2 ⟨?_, List.forall_mem_singleton.2 ?_⟩⟩⟩⟩⟩
    · exact intBranch_results (i := .ibxeqBr g x a y b z c) (fun u v => decide (u = v)) rfl (fun _ _ => rfl)
    · exact intBranch_results (i := .ibxneBr g x a y b z c) (fun u v => decide (u ≠ v)) rfl hne
    · exact intBranch_results (i := .ibxgeBr g x a y b z c) (fun u v => decide (v ≤ u)) rfl (fun _ _ => rfl)
    · exact intBranch_results (i := .ibxltBr g x a y b z c) (fun u v => decide (u < v)) rfl (fun _ _ => rfl)
    · exact intBranch_results (i := .ibxleBr g x a y b z c) (fun u v => decide (u ≤ v)) rfl (fun _ _ => rfl)
    · exact intBranch_results (i := .ibxgtBr g x a y b z c) (fun u v => decide (v < u)) rfl (fun _ _ => rfl)
  · refine List.forall_mem_cons.2 ⟨?_, List.forall_mem_cons.2 ⟨?_, List.forall_mem_cons.2 ⟨?_, List.forall_mem_cons.2 ⟨?_,
      List.forall_mem_cons.2 ⟨?_, List.forall_mem_singleton.2 ?_⟩⟩⟩⟩⟩
    · exact intSet_results (fun u v => decide (u = v)) (exec_ibxeqSc ..) (fun _ _ => rfl)
    · exact intSet_results (fun u v => decide (u ≠ v)) (exec_ibxneSc ..) hne
    · exact intSet_results (fun u v => decide (v ≤ u)) (exec_ibxgeSc ..) (fun _ _ => rfl)
    · exact intSet_results (fun u v => decide (u < v)) (exec_ibxltSc ..) (fun _ _ => rfl)
    · exact intSet_results (fun u v => decide (u ≤ v)) (exec_ibxleSc ..) (fun _ _ => rfl)
    · exact intSet_results (fun u v => decide (v < u)) (exec_ibxgtSc ..) (fun _ _ => rfl)
  · simp only
    split
    · next hg => exact intCompareIs_w64 hg x a z s
    · next hg => exact intCompareIs_w32 hg x a z s

/-- Settles O49. -/
theorem fpCompares : Obligations.FpCompares := by
  intro s g x a y b
  refine ⟨?_, ?_⟩
  · simp only [List.forall_mem_cons]
    exact ⟨fpBranch_results (cond := Cmp.eq) rfl, fpBranch_results (cond := Cmp.ne) rfl, fpBranch_results (cond := Cmp.ge) rfl,
      fpBranch_results (cond := Cmp.lt) rfl, fpBranch_results (cond := Cmp.le) rfl, fpBranch_results (cond := Cmp.gt) rfl, fun _ h => by cases h⟩
  · simp only [List.forall_mem_cons]
    exact ⟨fpSet_results (cond := Cmp.eq) rfl, fpSet_results (cond := Cmp.ne) rfl, fpSet_results (cond := Cmp.ge) rfl,
      fpSet_results (cond := Cmp.lt) rfl, fpSet_results (cond := Cmp.le) rfl, fpSet_results (cond := Cmp.gt) rfl,
      fun _ h => by cases h⟩

end Sys2Proof
end

