-- ==== Sys2Proof/Proofs/Buffer.lean ====
section
/-! PROOFS. The communication buffer instructions #FA to #FF (spec/49_string_cb.md R610 to R617). -/

-- One declaration at a time, as in the tests: many at once need a thread each.
set_option Elab.async false

namespace Sys2Proof.Machine

/-! ### Items of the buffer (R85) -/

/-- The state with item `i` of the communication buffer stored. -/
def State.setItem (s : State) (w : Width) (i : Nat) (v : Word) : State :=
  { s with cb := match w with
    | .w32 => Memory.setHalf s.cb (4 * i) (rightHalf v)
    | .w64 => Memory.setWord s.cb (8 * i) v }

theorem mul_bits_div (w : Width) (i : Nat) : i * w.bits / 8 = w.bytes * i := by
  cases w <;> simp only [Width.bits, Width.bytes] <;> omega

theorem bits_pos (w : Width) : 0 < w.bits := by cases w <;> decide

theorem inBuffer_ok {a n : Nat} {s : State} (h : a + n ≤ s.params.cbBits) : inBuffer a n s = .ok ((), s) := if_pos h

theorem inBuffer_out {a n : Nat} {s : State} (h : s.params.cbBits < a + n) :
    inBuffer a n s = .error (.fault .outsideCommunicationBuffer) := if_neg (by omega)

theorem readBuffer_ok {w : Width} {a : Nat} {s : State} (h : (a / w.bits + 1) * w.bits ≤ s.params.cbBits) :
    readBuffer w a s = .ok (s.bufferElem w (a / w.bits), s) := by
  refine (bind_ok (inBuffer_ok (by rwa [← Nat.succ_mul]))).trans ((bind_ok rfl).trans ?_)
  rw [mul_bits_div]
  cases w <;> rfl

theorem readBuffer_out {w : Width} {a : Nat} {s : State} (h : s.params.cbBits < (a / w.bits + 1) * w.bits) :
    readBuffer w a s = .error (.fault .outsideCommunicationBuffer) :=
  bind_error (inBuffer_out (by rwa [← Nat.succ_mul]))

theorem writeBuffer_ok {w : Width} {a : Nat} {s : State} (v : Word) (h : (a / w.bits + 1) * w.bits ≤ s.params.cbBits) :
    writeBuffer w a v s = .ok ((), s.setItem w (a / w.bits) v) := by
  refine (bind_ok (inBuffer_ok (by rwa [← Nat.succ_mul]))).trans ?_
  rw [mul_bits_div]
  cases w <;> rfl

theorem writeBuffer_out {w : Width} {a : Nat} {s : State} (v : Word) (h : s.params.cbBits < (a / w.bits + 1) * w.bits) :
    writeBuffer w a v s = .error (.fault .outsideCommunicationBuffer) :=
  bind_error (inBuffer_out (by rwa [← Nat.succ_mul]))

theorem State.wf_setItem {s : State} (h : Memory.wf s.cb = true) (w : Width) (i : Nat) (v : Word) :
    Memory.wf (s.setItem w i v).cb = true := by
  cases w
  · exact Memory.wf_setHalf h _ _
  · exact Memory.wf_setWord h _ _

theorem State.byte_setItem_out {s : State} (h : Memory.wf s.cb = true) (w : Width) {i a : Nat} (v : Word)
    (ha : ¬ s.inItem w i a) : Memory.byte (s.setItem w i v).cb a = Memory.byte s.cb a := by
  have ha' : a < i * w.bytes ∨ (i + 1) * w.bytes ≤ a := by
    refine Classical.byContradiction fun hc => ?_
    exact ha ⟨by omega, by omega⟩
  cases w <;> simp only [Width.bytes] at ha'
  · exact Memory.byte_setHalf_out h _ (by omega)
  · exact Memory.byte_setWord_out h _ (by omega)

theorem State.bufferElem_setItem_self {s : State} (h : Memory.wf s.cb = true) (w : Width) (i : Nat) (v : Word) :
    (s.setItem w i v).bufferElem w i = narrow w v := by
  cases w
  · exact congrArg (0#32 ++ ·) (Memory.half_setHalf h _ _)
  · exact Memory.word_setWord h _ _

theorem State.bufferElem_setItem_ne {s : State} (h : Memory.wf s.cb = true) (w : Width) {i j : Nat} (v : Word) (hj : j ≠ i) :
    (s.setItem w i v).bufferElem w j = s.bufferElem w j := by
  cases w
  · exact congrArg (0#32 ++ ·) (Memory.half_congr fun b hb hb' => Memory.byte_setHalf_out h _ (by omega))
  · exact Memory.word_setWord_out h _ (by omega)

theorem bufferElem_setRegW (s : State) (v w : Width) (d : Byte) (x : Word) (i : Nat) :
    (s.setRegW v d x).bufferElem w i = s.bufferElem w i := by cases v <;> rfl

theorem State.setItem_regW (s : State) (v w : Width) (i : Nat) (x : Word) (d : Byte) : (s.setItem v i x).regW w d = s.regW w d := by
  cases w <;> rfl

theorem narrow_bufferElem (s : State) (w : Width) (i : Nat) : narrow w (s.bufferElem w i) = s.bufferElem w i := by
  cases w
  · exact congrArg (0#32 ++ ·) (rightHalf_append _ _)
  · rfl

theorem narrow_regW (s : State) (w : Width) (d : Byte) : narrow w (s.regW w d) = s.regW w d := by
  cases w
  · exact congrArg (0#32 ++ ·) (rightHalf_append _ _)
  · rfl

/-! ### Semaphores (R617) -/

/-- The state with the semaphore at word `n` stored. -/
def State.setSemaphore (s : State) (n : Nat) (v : BitVec 128) : State :=
  (s.setItem .w64 n (v.extractLsb' 64 64)).setItem .w64 (n + 1) (v.extractLsb' 0 64)

/-- The semaphore at word `n`. -/
def State.semaphore (s : State) (n : Nat) : BitVec 128 := s.bufferElem .w64 n ++ s.bufferElem .w64 (n + 1)

theorem readSemaphore_ok {a : Nat} {s : State} (h : (a / 64 + 2) * 64 ≤ s.params.cbBits) :
    readSemaphore a s = .ok (s.semaphore (a / 64), s) := by
  have h1 : a / 64 * 64 / Width.w64.bits = a / 64 := Nat.mul_div_cancel _ (by decide)
  have h2 : (a / 64 * 64 + 64) / Width.w64.bits = a / 64 + 1 := by simp only [Width.bits]; omega
  refine (bind_ok (readBuffer_ok ?_)).trans ((bind_ok (readBuffer_ok ?_)).trans ?_)
  · rw [h1]; simp only [Width.bits]; omega
  · rw [h2]; simp only [Width.bits]; omega
  · rw [h1, h2]; rfl

theorem readSemaphore_out {a : Nat} {s : State} (h : s.params.cbBits < (a / 64 + 2) * 64) :
    readSemaphore a s = .error (.fault .outsideCommunicationBuffer) := by
  have h1 : a / 64 * 64 / Width.w64.bits = a / 64 := Nat.mul_div_cancel _ (by decide)
  have h2 : (a / 64 * 64 + 64) / Width.w64.bits = a / 64 + 1 := by simp only [Width.bits]; omega
  by_cases hf : s.params.cbBits < (a / 64 + 1) * 64
  · exact bind_error (readBuffer_out (by rw [h1]; exact hf))
  · refine (bind_ok (readBuffer_ok (by rw [h1]; exact Nat.le_of_not_lt hf))).trans (bind_error (readBuffer_out ?_))
    rw [h2]; exact h

theorem writeSemaphore_ok {a : Nat} {s : State} (v : BitVec 128) (h : (a / 64 + 2) * 64 ≤ s.params.cbBits) :
    writeSemaphore a v s = .ok ((), s.setSemaphore (a / 64) v) := by
  have h1 : a / 64 * 64 / Width.w64.bits = a / 64 := Nat.mul_div_cancel _ (by decide)
  have h2 : (a / 64 * 64 + 64) / Width.w64.bits = a / 64 + 1 := by simp only [Width.bits]; omega
  refine (bind_ok (writeBuffer_ok _ ?_)).trans ((writeBuffer_ok _ ?_).trans ?_)
  · rw [h1]; simp only [Width.bits]; omega
  · rw [h2]; exact h
  · rw [h1, h2]; rfl

theorem State.semaphore_setSemaphore {s : State} (h : Memory.wf s.cb = true) (n : Nat) (v : BitVec 128) :
    (s.setSemaphore n v).semaphore n = v := by
  unfold State.semaphore State.setSemaphore
  rw [State.bufferElem_setItem_ne (State.wf_setItem h ..) _ _ (by omega), State.bufferElem_setItem_self h,
    State.bufferElem_setItem_self (State.wf_setItem h ..)]
  exact BitVec.eq_of_toNat_eq (by
    simp only [narrow, toNat_append, BitVec.extractLsb'_toNat, Nat.shiftRight_eq_div_pow]
    omega)

theorem State.bufferElem_setSemaphore_ne {s : State} (h : Memory.wf s.cb = true) {n j : Nat} (v : BitVec 128) (h1 : j ≠ n)
    (h2 : j ≠ n + 1) : (s.setSemaphore n v).bufferElem .w64 j = s.bufferElem .w64 j := by
  unfold State.setSemaphore
  rw [State.bufferElem_setItem_ne (State.wf_setItem h ..) _ _ h2, State.bufferElem_setItem_ne h _ _ h1]

/-! ### What a buffer instruction leaves as it was -/

/-- From `s` to `t` only the registers in `changed` and the bytes in `stored` of the buffer have changed. -/
structure State.BufferFrame (s t : State) (changed : Byte → Prop) (stored : Nat → Prop) : Prop where
  regs : ∀ n, ¬ changed n → t.reg n = s.reg n
  wf : Memory.wf t.cb = true
  bytes : ∀ a, ¬ stored a → Memory.byte t.cb a = Memory.byte s.cb a
  rest : t = { s with regs := t.regs, cb := t.cb }

namespace State.BufferFrame

variable {s t : State} {changed : Byte → Prop} {stored : Nat → Prop}

theorem refl (h : Memory.wf s.cb = true) : s.BufferFrame s changed stored := ⟨fun _ _ => rfl, h, fun _ _ => rfl, rfl⟩

theorem params (h : s.BufferFrame t changed stored) : t.params = s.params := by rw [h.rest]

theorem pc (h : s.BufferFrame t changed stored) : t.pc = s.pc := by rw [h.rest]

theorem setReg (h : s.BufferFrame t changed stored) {d : Byte} (v : Word) (hd : changed d) :
    s.BufferFrame (t.setReg d v) changed stored :=
  ⟨fun n hn => (t.setReg_reg_ne v fun e => hn (by rw [e]; exact hd)).trans (h.regs n hn), h.wf, h.bytes,
    congrArg (State.setReg · d v) h.rest⟩

theorem setRegW (h : s.BufferFrame t changed stored) {w : Width} {d : Byte} (v : Word) (hd : changed (regOfW w d)) :
    s.BufferFrame (t.setRegW w d v) changed stored := by
  cases w
  · exact h.setReg _ hd
  · exact h.setReg v hd

theorem setItem (h : s.BufferFrame t changed stored) {w : Width} {i : Nat} (v : Word) (hi : ∀ a, s.inItem w i a → stored a) :
    s.BufferFrame (t.setItem w i v) changed stored :=
  ⟨h.regs, State.wf_setItem h.wf .., fun a ha => (State.byte_setItem_out h.wf w v fun hc => ha (hi a hc)).trans (h.bytes a ha),
    congrArg (State.setItem · w i v) h.rest⟩

theorem setSemaphore (h : s.BufferFrame t changed stored) {n : Nat} (v : BitVec 128)
    (hn : ∀ a, s.inItem .w64 n a ∨ s.inItem .w64 (n + 1) a → stored a) : s.BufferFrame (t.setSemaphore n v) changed stored :=
  (h.setItem _ fun a ha => hn a (.inl ha)).setItem _ fun a ha => hn a (.inr ha)

theorem goto_result (h : s.BufferFrame t changed stored) {i : Instr} {a : Addr} {result : State → Prop}
    (he : exec i s = .next (t.goto a)) (hr : result (t.goto a)) : BufferResult i s (halfAligned a) changed stored result :=
  ⟨t.goto a, he, hr, h.regs, h.bytes, congrArg (State.goto · a) h.rest⟩

theorem next64_result (h : s.BufferFrame t changed stored) {i : Instr} {result : State → Prop}
    (he : exec i s = .next t.next64) (hr : result t.next64) : BufferResult i s s.behind64 changed stored result :=
  ⟨t.next64, he, hr, h.regs, h.bytes, (congrArg State.next64 h.rest).trans (by rfl)⟩

end State.BufferFrame

/-! ### The checks (R86, R637) -/

theorem bufferCheck_ok {l b : Bool} {s : State} (hl : l = false) (hb : b = false) : bufferCheck l b s = .ok ((), s) := by
  subst hl hb
  rfl

theorem bufferCheck_stop {l b : Bool} {s : State} (h : (l || b) = true) : bufferCheck l b s = .error (.buffer l b) := by
  unfold bufferCheck
  rw [if_pos h]
  rfl

/-- An instruction that is not forbidden and passes its checks goes on. -/
theorem checks_pass {m : M Unit} {n : Nat} {l b : Bool} {s : State} {r : Except Stop (Unit × State)}
    (hf : s.forbidden n = false) (hl : l = false) (hb : b = false) (h : m s = r) :
    (maskedBy n >>= fun _ => bufferCheck l b >>= fun _ => m) s = r :=
  (bind_ok (maskedBy_allowed hf)).trans ((bind_ok (bufferCheck_ok hl hb)).trans h)

theorem checks_fail {m : M Unit} {n : Nat} {l b : Bool} {s : State} (hf : s.forbidden n = false) (h : (l || b) = true) :
    (maskedBy n >>= fun _ => bufferCheck l b >>= fun _ => m) s = .error (.buffer l b) :=
  (bind_ok (maskedBy_allowed hf)).trans (bind_error (bufferCheck_stop h))

theorem bufferFault_job {s : State} (hm : s.mode = .job) (l b : Bool) :
    s.bufferFault l b = (if b then (if l then s.post 55 else s).post 56 else (if l then s.post 55 else s)).toMonitor s.pc := by
  unfold State.bufferFault
  simp only [hm]

theorem bufferFault_monitor {s : State} (hm : s.mode = .monitor) (l b : Bool) :
    s.bufferFault l b =
      { (if b then (if l then s.post 55 else s).post 56 else (if l then s.post 55 else s)) with pc := s.behind64 } := by
  unfold State.bufferFault
  simp only [hm]
  cases l <;> cases b <;> rfl

/-! ### The instructions where the checks pass -/

theorem cbld_result {g x c : Byte} {s : State} (hf : s.forbidden 30 = false)
    (hl : s.lockedOut (dataPair g) true false = false) (hb : s.beyondLimit (dataPair g) (s.cbAddr (dataPair g) x) = false)
    (hi : ((s.cbAddr (dataPair g) x).toNat / (gWidth g).bits + 1) * (gWidth g).bits ≤ s.params.cbBits) :
    WidthResult (.cbld g x c) s s.behind64 (gWidth g) c
      (s.bufferElem (gWidth g) ((s.cbAddr (dataPair g) x).toNat / (gWidth g).bits)) := by
  refine (widthResult_of_setRegW_goto (a := s.pc + 64) ?_)
  refine (run64_of_ok (checks_pass hf hl hb ((bind_ok (readBuffer_ok hi)).trans rfl))).trans ?_
  rw [State.next64, State.setRegW_pc]

theorem cbsto_result {g x c : Byte} {s : State} (hw : Memory.wf s.cb = true) (hf : s.forbidden 31 = false)
    (hl : s.lockedOut (dataPair g) false true = false) (hb : s.beyondLimit (dataPair g) (s.cbAddr (dataPair g) x) = false)
    (hi : ((s.cbAddr (dataPair g) x).toNat / (gWidth g).bits + 1) * (gWidth g).bits ≤ s.params.cbBits) :
    let item := (s.cbAddr (dataPair g) x).toNat / (gWidth g).bits
    BufferResult (.cbsto g x c) s s.behind64 nothing (s.inItem (gWidth g) item) fun u =>
      u.bufferElem (gWidth g) item = s.regW (gWidth g) c := by
  have he : exec (.cbsto g x c) s = .next (s.setItem _ _ (s.regW (gWidth g) c)).next64 :=
    run64_of_ok (checks_pass hf hl hb (writeBuffer_ok _ hi))
  refine ((State.BufferFrame.refl hw).setItem _ fun _ => id).next64_result he ?_
  exact (State.bufferElem_setItem_self hw ..).trans (narrow_regW ..)

/-- The object bit decides: a branch with a zero register, or the store of register A. -/
theorem bbswap_results {g x a b c : Byte} {s : State} (hw : Memory.wf s.cb = true) (hf : s.forbidden 28 = false)
    (hl : s.lockedOut (dataPair g) true true = false) (hb : s.beyondLimit (dataPair g) (s.cbAddr (dataPair g) x) = false)
    (hi : ((s.cbAddr (dataPair g) x).toNat / (gWidth g).bits + 1) * (gWidth g).bits ≤ s.params.cbBits) :
    let w := gWidth g
    let ea := s.cbAddr (dataPair g) x
    let item := ea.toNat / w.bits
    let old := s.bufferElem w item
    (objectBit w ea old = true → WidthResult (.bbswap g x a b c) s (halfAligned (s.addr b)) w c 0) ∧
    (objectBit w ea old = false →
      BufferResult (.bbswap g x a b c) s s.behind64 (· = regOfW w c) (s.inItem w item) fun u =>
        u.bufferElem w item = s.regW w a ∧ u.regW w c = old ∧ s.othersAs u w (· = c)) := by
  intro w ea item old
  refine ⟨fun ho => widthResult_of_setRegW_goto (run_of_ok (checks_pass hf hl hb ((bind_ok (readBuffer_ok hi)).trans ?_))), fun ho => ?_⟩
  · rw [if_pos ho]
    rfl
  have he : exec (.bbswap g x a b c) s = .next ((s.setItem w item (s.regW w a)).setRegW w c old).next64 :=
    run_of_ok (checks_pass hf hl hb ((bind_ok (readBuffer_ok hi)).trans (by
      rw [if_neg (by rw [ho]; exact Bool.false_ne_true)]
      exact (bind_ok (writeBuffer_ok _ hi)).trans rfl)))
  have hframe : s.BufferFrame ((s.setItem w item (s.regW w a)).setRegW w c old) (· = regOfW w c) (s.inItem w item) :=
    ((State.BufferFrame.refl hw).setItem _ fun _ => id).setRegW _ rfl
  refine hframe.next64_result he ⟨?_, ?_, fun n hn => ?_⟩
  · exact ((bufferElem_setRegW ..).trans (State.bufferElem_setItem_self hw ..)).trans (narrow_regW ..)
  · rw [State.next64_regW, State.regW_setRegW_self, narrow_bufferElem]
  · rw [State.next64_regW, State.regW_setRegW_ne _ _ hn, State.setItem_regW]

/-- The address of the item that follows (decision D18). -/
theorem following_eq (ea : Addr) (w : Width) :
    BitVec.ofNat 48 (ea.toNat / w.bits * w.bits + w.bits) = BitVec.ofNat 48 ((ea.toNat / w.bits + 1) * w.bits) := by
  rw [Nat.succ_mul]

theorem following_div {ea : Addr} {w : Width} (h : (ea.toNat / w.bits + 1) * w.bits < 2 ^ 48) :
    (BitVec.ofNat 48 (ea.toNat / w.bits * w.bits + w.bits)).toNat / w.bits = ea.toNat / w.bits + 1 := by
  rw [following_eq, BitVec.toNat_ofNat, Nat.mod_eq_of_lt h, Nat.mul_div_cancel _ (bits_pos w)]

theorem bbldst_results {g x a b c : Byte} {s : State} (hw : Memory.wf s.cb = true) (hf : s.forbidden 29 = false)
    (hl : s.lockedOut (dataPair g) true true = false) (hb : s.beyondLimit (dataPair g) (s.cbAddr (dataPair g) x) = false)
    (hn : s.beyondLimit (dataPair g)
      (BitVec.ofNat 48 (((s.cbAddr (dataPair g) x).toNat / (gWidth g).bits + 1) * (gWidth g).bits)) = false)
    (hi : ((s.cbAddr (dataPair g) x).toNat / (gWidth g).bits + 2) * (gWidth g).bits ≤ s.params.cbBits)
    (hs : s.params.cbBits ≤ 2 ^ 48) :
    let w := gWidth g
    let ea := s.cbAddr (dataPair g) x
    let item := ea.toNat / w.bits
    let old := s.bufferElem w item
    (objectBit w ea old = true → WidthResult (.bbldst g x a b c) s (halfAligned (s.addr b)) w c 0) ∧
    (objectBit w ea old = false →
      BufferResult (.bbldst g x a b c) s s.behind64 (· = regOfW w c) (s.inItem w item) fun u =>
        u.bufferElem w item = s.regW w a ∧ u.regW w c = s.bufferElem w (item + 1) ∧ s.othersAs u w (· = c)) := by
  intro w ea item old
  have hbits : 0 < w.bits := bits_pos w
  have hstep : (item + 2) * w.bits = (item + 1) * w.bits + w.bits := Nat.succ_mul _ _
  have hi1 : (item + 1) * w.bits ≤ s.params.cbBits := Nat.le_trans (Nat.le_add_right _ _) (hstep ▸ hi)
  have hnext : (BitVec.ofNat 48 (ea.toNat / w.bits * w.bits + w.bits)).toNat / w.bits = item + 1 :=
    following_div (Nat.lt_of_lt_of_le (Nat.lt_add_of_pos_right hbits) (Nat.le_trans (hstep ▸ hi) hs))
  have hb' : (s.beyondLimit (dataPair g) ea ||
      s.beyondLimit (dataPair g) (BitVec.ofNat 48 (ea.toNat / w.bits * w.bits + w.bits))) = false := by
    rw [following_eq, hb, hn]
    rfl
  refine ⟨fun ho => widthResult_of_setRegW_goto (run_of_ok (checks_pass hf hl hb' ((bind_ok (readBuffer_ok hi1)).trans ?_))),
    fun ho => ?_⟩
  · rw [if_pos ho]
    rfl
  have he : exec (.bbldst g x a b c) s =
      .next ((s.setItem w item (s.regW w a)).setRegW w c (s.bufferElem w (item + 1))).next64 :=
    run_of_ok (checks_pass hf hl hb' ((bind_ok (readBuffer_ok hi1)).trans (by
      rw [if_neg (by rw [ho]; exact Bool.false_ne_true)]
      refine (bind_ok (writeBuffer_ok _ hi1)).trans ((bind_ok (readBuffer_ok (by rw [hnext]; exact hi))).trans ?_)
      rw [hnext, State.bufferElem_setItem_ne hw _ _ (Nat.succ_ne_self _)]
      rfl)))
  have hframe : s.BufferFrame ((s.setItem w item (s.regW w a)).setRegW w c (s.bufferElem w (item + 1))) (· = regOfW w c)
      (s.inItem w item) := ((State.BufferFrame.refl hw).setItem _ fun _ => id).setRegW _ rfl
  refine hframe.next64_result he ⟨?_, ?_, fun n hn => ?_⟩
  · exact ((bufferElem_setRegW ..).trans (State.bufferElem_setItem_self hw ..)).trans (narrow_regW ..)
  · rw [State.next64_regW, State.regW_setRegW_self, narrow_bufferElem]
  · rw [State.next64_regW, State.regW_setRegW_ne _ _ hn, State.setItem_regW]

/-! ### Post and wait -/

/-- Post without a waiter. -/
theorem exec_post_up {g x b c : Byte} {s : State} (hf : s.forbidden 26 = false)
    (hl : s.lockedOut (semaphorePair g) true true = false)
    (hb : s.beyondLimit (semaphorePair g) (s.cbAddr (semaphorePair g) x) = false)
    (hi : ((s.cbAddr (semaphorePair g) x).toNat / 64 + 2) * 64 ≤ s.params.cbBits) :
    let n := (s.cbAddr (semaphorePair g) x).toNat / 64
    let v := s.semaphore n
    0 ≤ (waitOf v).toInt → exec (.post g x b c) s =
      .next ((s.setSemaphore n (setWait v (waitOf v + 1))).setReg c (0#32 ++ waitOf v)).next64 := by
  intro n v ho
  refine run_of_ok (checks_pass hf hl hb ((bind_ok (readSemaphore_ok hi)).trans ?_))
  simp only
  rw [if_pos ho]
  exact (bind_ok (writeSemaphore_ok _ hi)).trans rfl

/-- Post that takes the first waiter out of the queue. -/
theorem exec_post_unlink {g x b c : Byte} {s : State} (hf : s.forbidden 26 = false)
    (hl : s.lockedOut (semaphorePair g) true true = false)
    (hb : s.beyondLimit (semaphorePair g) (s.cbAddr (semaphorePair g) x) = false)
    (hi : ((s.cbAddr (semaphorePair g) x).toNat / 64 + 2) * 64 ≤ s.params.cbBits) :
    let n := (s.cbAddr (semaphorePair g) x).toNat / 64
    let v := s.semaphore n
    let lay := s.params.sem
    let pw := s.bufferElem .w64 (addressField lay.head v / 64)
    (waitOf v).toInt < 0 → (addressField lay.head v / 64 + 1) * 64 ≤ s.params.cbBits → exec (.post g x b c) s =
      .next (((s.setSemaphore n (if waitOf v = 0xFFFFFFFF then setWait v (waitOf v + 1)
        else withAddressField lay.head (setWait v (waitOf v + 1)) (addressField lay.link pw))).setReg c
          (leftHalf pw ++ waitOf v)).goto (s.addr b)) := by
  intro n v lay pw ho hq
  refine run_of_ok (checks_pass hf hl hb ((bind_ok (readSemaphore_ok hi)).trans ?_))
  simp only
  rw [if_neg (Int.not_le.mpr ho)]
  exact (bind_ok (readBuffer_ok hq)).trans ((bind_ok (writeSemaphore_ok _ hi)).trans rfl)

section Wait

variable {g x a b c : Byte} {s : State} (hf : s.forbidden 27 = false)
  (hl : s.lockedOut (semaphorePair g) true true = false) (hl' : s.lockedOut (dataPair g) true true = false)
  (hb : s.beyondLimit (semaphorePair g) (s.cbAddr (semaphorePair g) x) = false)
  (hb' : s.beyondLimit (dataPair g) (s.cbAddr (dataPair g) a) = false)
  (hside : s.cbAddr (semaphorePair g) x = s.cbAddr (dataPair g) a ∨
    Config.cbSide (s.cbAddr (semaphorePair g) x).toNat = Config.cbSide (s.cbAddr (dataPair g) a).toNat)
include hf hl hl' hb hb' hside

/-- Wait goes on behind its checks. -/
theorem wait_checks_pass {m : M Unit} {r : Except Stop (Unit × State)} (h : m s = r) :
    (maskedBy 27 >>= fun _ => bufferCheck (s.lockedOut (semaphorePair g) true true || s.lockedOut (dataPair g) true true)
        (s.beyondLimit (semaphorePair g) (s.cbAddr (semaphorePair g) x) ||
          s.beyondLimit (dataPair g) (s.cbAddr (dataPair g) a)) >>= fun _ =>
      refuseIf (s.cbAddr (semaphorePair g) x != s.cbAddr (dataPair g) a &&
        Config.cbSide (s.cbAddr (semaphorePair g) x).toNat != Config.cbSide (s.cbAddr (dataPair g) a).toNat)
        .cbSideMismatch >>= fun _ => m) s = r :=
  checks_pass hf (by rw [hl, hl']; rfl) (by rw [hb, hb']; rfl)
    ((bind_ok (refuseIf_false (by rcases hside with h | h <;> simp [h]))).trans h)

theorem exec_wait_out (hi : s.params.cbBits < ((s.cbAddr (semaphorePair g) x).toNat / 64 + 2) * 64) :
    exec (.wait g x a b c) s = .fault .outsideCommunicationBuffer :=
  run_of_error (wait_checks_pass hf hl hl' hb hb' hside (bind_error (readSemaphore_out hi)))

/-- What wait does behind its checks: the new semaphore and, with a waiter, the link in the last process word. -/
theorem exec_wait (hi : ((s.cbAddr (semaphorePair g) x).toNat / 64 + 2) * 64 ≤ s.params.cbBits) :
    let n := (s.cbAddr (semaphorePair g) x).toNat / 64
    let pwa := (s.cbAddr (dataPair g) a).toNat
    let v := s.semaphore n
    let lay := s.params.sem
    let u := setWait v (waitOf v - 1)
    let tail := addressField lay.tail v / 64
    (0 < (waitOf v).toInt →
      exec (.wait g x a b c) s = .next ((s.setSemaphore n u).setReg c (0#32 ++ waitOf v)).next64) ∧
    (waitOf v = 0 → exec (.wait g x a b c) s =
      .next (((s.setSemaphore n (withAddressField lay.tail (withAddressField lay.head u pwa) pwa)).setReg c
        (0#32 ++ waitOf v)).goto (s.addr b))) ∧
    ((waitOf v).toInt < 0 → (tail + 1) * 64 ≤ s.params.cbBits → exec (.wait g x a b c) s =
      .next ((((s.setItem .w64 tail (withAddressField lay.link (s.bufferElem .w64 tail) pwa)).setSemaphore n
        (withAddressField lay.tail u pwa)).setReg c (0#32 ++ waitOf v)).goto (s.addr b))) ∧
    ((waitOf v).toInt < 0 → s.params.cbBits < (tail + 1) * 64 →
      exec (.wait g x a b c) s = .fault .outsideCommunicationBuffer) := by
  intro n pwa v lay u tail
  have hneg (h : (waitOf v).toInt < 0) : ¬ 0 < (waitOf v).toInt ∧ waitOf v ≠ 0 :=
    ⟨by omega, fun e => by rw [e] at h; exact absurd h (by decide)⟩
  refine ⟨fun ho => run_of_ok (wait_checks_pass hf hl hl' hb hb' hside ((bind_ok (readSemaphore_ok hi)).trans ?_)),
    fun ho => run_of_ok (wait_checks_pass hf hl hl' hb hb' hside ((bind_ok (readSemaphore_ok hi)).trans ?_)),
    fun ho hq => run_of_ok (wait_checks_pass hf hl hl' hb hb' hside ((bind_ok (readSemaphore_ok hi)).trans ?_)),
    fun ho hq => run_of_error (e := .fault .outsideCommunicationBuffer)
      (wait_checks_pass hf hl hl' hb hb' hside ((bind_ok (readSemaphore_ok hi)).trans ?_))⟩
  · rw [if_pos ho]
    exact (bind_ok (writeSemaphore_ok _ hi)).trans rfl
  · rw [if_neg (show ¬ 0 < (waitOf v).toInt by rw [ho]; decide), if_pos ho]
    exact (bind_ok (writeSemaphore_ok _ hi)).trans rfl
  · rw [if_neg (hneg ho).1, if_neg (hneg ho).2]
    refine (bind_ok (readBuffer_ok hq)).trans ((bind_ok (writeBuffer_ok _ hq)).trans ?_)
    exact (bind_ok (writeSemaphore_ok (s := s.setItem _ _ _) _ hi)).trans rfl
  · rw [if_neg (hneg ho).1, if_neg (hneg ho).2]
    exact bind_error (readBuffer_out hq)

end Wait

theorem BufferResult.mono {i : Instr} {s : State} {next : Addr} {changed : Byte → Prop} {stored : Nat → Prop}
    {p q : State → Prop} (h : BufferResult i s next changed stored p) (hi : ∀ u, p u → q u) :
    BufferResult i s next changed stored q := by
  obtain ⟨t, he, hp, hrest⟩ := h
  exact ⟨t, he, hi t hp, hrest⟩

theorem bufferElem_setReg_goto (s : State) (c : Byte) (x : Word) (a : Addr) (w : Width) (n : Nat) :
    ((s.setReg c x).goto a).bufferElem w n = s.bufferElem w n := rfl

theorem semaphore_setReg_goto (s : State) (c : Byte) (x : Word) (a : Addr) (n : Nat) :
    ((s.setReg c x).goto a).semaphore n = s.semaphore n := rfl

theorem next64_setSemaphore (s : State) (n : Nat) (v : BitVec 128) (c : Byte) (x : Word) :
    ((s.setSemaphore n v).setReg c x).next64 = ((s.setSemaphore n v).setReg c x).goto (s.pc + 64) := by
  rw [State.next64, State.setReg_pc]
  rfl

/-- A semaphore is stored, then register C gets the count. -/
theorem semaphoreResult {i : Instr} {s r : State} {c : Byte} {n : Nat} {v : BitVec 128} {x : Word} {a : Addr}
    {stored : Nat → Prop} (h : s.BufferFrame r (· = c) stored)
    (hn : ∀ k, s.inItem .w64 n k ∨ s.inItem .w64 (n + 1) k → stored k)
    (he : exec i s = .next (((r.setSemaphore n v).setReg c x).goto a)) :
    BufferResult i s (halfAligned a) (· = c) stored fun u =>
      u.semaphore n = v ∧ (∀ j, j ≠ n → j ≠ n + 1 → u.bufferElem .w64 j = r.bufferElem .w64 j) ∧ u.reg c = x :=
  ((h.setSemaphore v hn).setReg x rfl).goto_result he ⟨(semaphore_setReg_goto ..).trans (State.semaphore_setSemaphore h.wf n v),
    fun _ h1 h2 => (bufferElem_setReg_goto ..).trans (State.bufferElem_setSemaphore_ne h.wf v h1 h2),
    (State.goto_reg ..).trans (State.setReg_reg_self ..)⟩

/-! ### The checks fail, or an item lies beyond the buffer (R637) -/

/-- A failing check has no other effect than its interrupt. -/
theorem results_of_bufferFault {i : Instr} {l b : Bool} {s : State} (he : exec i s = .next (s.bufferFault l b)) :
    let t := if l then s.post 55 else s
    let t := if b then t.post 56 else t
    (s.mode = .job → exec i s = .next (t.toMonitor s.pc)) ∧
    (s.mode = .monitor → exec i s = .next { t with pc := s.behind64 }) :=
  ⟨fun hm => he.trans (congrArg Host.Outcome.next (bufferFault_job hm l b)),
    fun hm => he.trans (congrArg Host.Outcome.next (bufferFault_monitor hm l b))⟩

end Sys2Proof.Machine

namespace Sys2Proof
open Machine

/-- Settles O56. -/
theorem bufferTransfers : Obligations.BufferTransfers := by
  intro s g x a b c hw w k ea item old ob hb hi hs
  exact ⟨fun hf hl => cbld_result hf hl hb hi, fun hf hl => cbsto_result hw hf hl hb hi,
    fun hf hl => bbswap_results hw hf hl hb hi, fun hf hl hn hi' => bbldst_results hw hf hl hb hn hi' hs⟩

/-- Settles O57. -/
theorem semaphores : Obligations.Semaphores := by
  intro s g x a b c hw k j sem pwa n v old lay stored hl hb hi
  have hrefl : s.BufferFrame s (· = c) stored := State.BufferFrame.refl hw
  have plain {i : Instr} {a : Addr} {u : BitVec 128} {y : Word}
      (he : exec i s = .next (((s.setSemaphore n u).setReg c y).goto a)) :
      BufferResult i s (halfAligned a) (· = c) stored fun t => t.semaphore n = u ∧ t.reg c = y :=
    (semaphoreResult hrefl (fun _ => id) he).mono fun _ ⟨hv, _, hc⟩ => ⟨hv, hc⟩
  have plain64 {i : Instr} {u : BitVec 128} {y : Word} (he : exec i s = .next ((s.setSemaphore n u).setReg c y).next64) :
      BufferResult i s s.behind64 (· = c) stored fun t => t.semaphore n = u ∧ t.reg c = y :=
    plain (he.trans (congrArg Host.Outcome.next (next64_setSemaphore ..)))
  refine ⟨fun hf => ⟨fun ho => plain64 (exec_post_up hf hl hb hi ho), fun ho hq => ?_⟩, fun hf hl' hb' hside => ?_⟩
  · exact (plain (exec_post_unlink hf hl hb hi ho hq)).mono fun _ ⟨hv, hc⟩ => ⟨hc, hv⟩
  obtain ⟨hup, hzero, hlinked, -⟩ := exec_wait (b := b) (c := c) hf hl hl' hb hb' hside hi
  refine ⟨fun ho => plain64 (hup ho), fun ho => plain (hzero ho), fun ho hq h1 h2 => ?_, fun ho ht => ?_⟩
  · have hr : s.BufferFrame (s.setItem .w64 (addressField lay.tail v / 64)
        (withAddressField lay.link (s.bufferElem .w64 (addressField lay.tail v / 64)) pwa.toNat)) (· = c)
        (fun i => stored i ∨ s.inItem .w64 (addressField lay.tail v / 64) i) :=
      (State.BufferFrame.refl hw).setItem _ fun _ => .inr
    exact (semaphoreResult hr (fun _ => .inl) (hlinked ho hq)).mono fun _ ⟨hv, hj, hc⟩ =>
      ⟨hv, (hj _ h1 h2).trans (State.bufferElem_setItem_self hw ..), hc⟩
  · have hr : s.BufferFrame (s.setItem .w64 (addressField lay.tail v / 64)
        (withAddressField lay.link (s.bufferElem .w64 (addressField lay.tail v / 64)) pwa.toNat)) (· = c) stored :=
      hrefl.setItem _ fun k hk => ht.imp (fun h => by rwa [h] at hk) (fun h => by rwa [h] at hk)
    have hq : (addressField lay.tail v / 64 + 1) * 64 ≤ s.params.cbBits := by omega
    exact (semaphoreResult hr (fun _ => id) (hlinked ho hq)).mono fun _ ⟨hv, _, hc⟩ => ⟨hv, hc⟩

/-- Settles O58. -/
theorem bufferChecks : Obligations.BufferChecks := by
  intro s g x a b c d e w ea sem pwa following
  have hfollow : BitVec.ofNat 48 (ea.toNat / w.bits * w.bits + w.bits) = following := following_eq ea w
  refine ⟨?_, ?_, fun hf hl hb hn hs hi ho hne hz => ?_, ?_⟩
  · refine List.forall_mem_cons.2 ⟨fun hf h => ?_, List.forall_mem_cons.2 ⟨fun hf h => ?_, List.forall_mem_cons.2
      ⟨fun hf h => ?_, List.forall_mem_cons.2 ⟨fun hf h => ?_, List.forall_mem_cons.2 ⟨fun hf h => ?_,
      List.forall_mem_singleton.2 fun hf h => ?_⟩⟩⟩⟩⟩
    · exact results_of_bufferFault (run64_of_error (checks_fail hf h))
    · exact results_of_bufferFault (run64_of_error (checks_fail hf h))
    · exact results_of_bufferFault (run_of_error (checks_fail hf h))
    · rw [← hfollow] at h ⊢
      exact results_of_bufferFault (run_of_error (checks_fail hf h))
    · exact results_of_bufferFault (run_of_error (checks_fail hf h))
    · exact results_of_bufferFault (run_of_error (checks_fail hf h))
  · refine List.forall_mem_cons.2 ⟨fun hf hl hb hi => ?_, List.forall_mem_cons.2 ⟨fun hf hl hb hi => ?_,
      List.forall_mem_cons.2 ⟨fun hf hl hb hi => ?_, List.forall_mem_singleton.2 fun hf hl hb hi => ?_⟩⟩⟩
    · exact run64_of_error (checks_pass hf hl hb (bind_error (readBuffer_out hi)))
    · exact run64_of_error (checks_pass hf hl hb (writeBuffer_out _ hi))
    · exact run_of_error (checks_pass hf hl hb (bind_error (readBuffer_out hi)))
    · obtain ⟨hl, hn⟩ := Bool.or_eq_false_iff.mp hl
      exact run_of_error (checks_pass hf hl (by rw [hfollow, hb]; exact hn) (bind_error (readBuffer_out hi)))
  · have hlt : (ea.toNat / w.bits + 1) * w.bits < 2 ^ 48 := Nat.lt_of_le_of_ne (Nat.le_trans hi hs) hne
    refine run_of_error (e := .fault .outsideCommunicationBuffer)
      (checks_pass hf hl (by rw [hfollow, hb]; exact hn) ((bind_ok (readBuffer_ok hi)).trans ?_))
    rw [if_neg (show ¬ objectBit w ea _ = true by rw [objectBit, hz]; exact Bool.false_ne_true)]
    refine (bind_ok (writeBuffer_ok _ hi)).trans (bind_error (readBuffer_out ?_))
    rw [following_div hlt]
    exact ho
  · intro n v beyond postOk waitOk
    refine ⟨fun ⟨hf, hl, hb⟩ hout => ?_, fun ⟨hf, hl, hl', hb, hb', hside⟩ hout => ?_⟩ <;>
    by_cases hi : s.params.cbBits < (n + 2) * 64
    · exact run_of_error (checks_pass hf hl hb (bind_error (readSemaphore_out hi)))
    · obtain ⟨ho, hq⟩ := hout.resolve_left hi
      refine run_of_error (e := .fault .outsideCommunicationBuffer)
        (checks_pass hf hl hb ((bind_ok (readSemaphore_ok (Nat.le_of_not_lt hi))).trans ?_))
      rw [if_neg (show ¬ 0 ≤ (waitOf (s.semaphore (sem.toNat / 64))).toInt from Int.not_le.mpr ho)]
      exact bind_error (readBuffer_out hq)
    · exact exec_wait_out hf hl hl' hb hb' hside hi
    · obtain ⟨ho, hq⟩ := hout.resolve_left hi
      obtain ⟨-, -, -, hfault⟩ := exec_wait (b := b) (c := c) hf hl hl' hb hb' hside (Nat.le_of_not_lt hi)
      exact hfault ho hq

end Sys2Proof
end

