-- ==== Sys2Proof/Proofs/UndefinedScalar.lean ====
section
/-! PROOFS. The undefined forms of the scalar and control instructions (spec/93_implementation_defined.md). -/

-- One declaration at a time, as in the tests: many at once need a thread each.
set_option Elab.async false

namespace Sys2Proof.Machine

variable {s : State} {r sd t g : Byte}

/-! ### Refusals of a computation -/

theorem run_refused {m : M Unit} {e : Refusal} (h : m s = .error (.refuse e)) : run m s = .refused e := run_of_error h

theorem run32_refused {m : M Unit} {e : Refusal} (h : m s = .error (.refuse e)) : run32 m s = .refused e := run32_of_error h

theorem run64_refused {m : M Unit} {e : Refusal} (h : m s = .error (.refuse e)) : run64 m s = .refused e := run64_of_error h

/-- A step that only looks at the state and refuses, behind one that has no effect. -/
theorem refuses_behind {α : Type} {m : M Unit} {k : Unit → M α} {b : Bool} {e : Refusal} (hm : m s = .ok ((), s)) (hb : b = true) :
    (m >>= fun _ => refuseIf b e >>= k) s = .error (.refuse e) :=
  (bind_ok hm).trans (bind_error (refuseIf_true hb))

/-! ### The exchange to Job mode (R207) -/

theorem aligned_iff (x : Addr) : x.extractLsb' 0 12 = 0 ↔ x.toNat % 4096 = 0 := by
  rw [← BitVec.toNat_inj]
  simp only [BitVec.extractLsb'_toNat, Nat.shiftRight_zero]
  exact Iff.rfl

theorem exchangeToJob_faultTest {rf pkg : Addr} (h : s.faultTest ≠ 0) :
    exchangeToJob rf pkg s = .error (.refuse .faultTestAtExchange) := if_pos h

theorem exchangeToJob_notLoaded {rf pkg : Addr} (h : s.faultTest = 0) (ha : s.arValid = false) :
    exchangeToJob rf pkg s = .error (.refuse .assocRegsNotLoaded) := by
  unfold exchangeToJob
  rw [if_neg (Classical.not_not.mpr h), if_pos (by rw [ha]; rfl)]

/-- What the exchange does once the associative registers are loaded. -/
theorem exchangeToJob_loaded {rf pkg : Addr} (h : s.faultTest = 0) (ha : s.arValid = true) : exchangeToJob rf pkg s =
    if ¬ (rf.toNat % 4096 = 0 ∧ pkg.toNat % 4096 = 0) then .error (.refuse .exchangeAlign)
    else if (rf ≠ 0 ∧ rf.toNat < 0x4000) ∨ s.packagesOverlap rf pkg = true ∨ s.storageOverlaps rf pkg = true then
      .error (.refuse .exchangeOverlap)
    else .ok ((), s.toJob rf pkg) := by
  have hal : (rf.extractLsb' 0 12 ≠ 0 ∨ pkg.extractLsb' 0 12 ≠ 0) ↔ ¬ (rf.toNat % 4096 = 0 ∧ pkg.toNat % 4096 = 0) := by
    rw [← aligned_iff, ← aligned_iff, Classical.not_and_iff_not_or_not]
  unfold exchangeToJob
  rw [if_neg (Classical.not_not.mpr h), if_neg (by rw [ha]; exact Bool.false_ne_true), ite_cond_congr (propext hal)]
  by_cases h1 : ¬ (rf.toNat % 4096 = 0 ∧ pkg.toNat % 4096 = 0)
  · rw [if_pos h1, if_pos h1]
  rw [if_neg h1, if_neg h1]
  by_cases h2 : (rf ≠ 0 ∧ rf.toNat < 0x4000) ∨ s.packagesOverlap rf pkg = true
  · rw [if_pos h2, if_pos (or_assoc.mp (.inl h2))]
  rw [if_neg h2]
  by_cases h3 : s.storageOverlaps rf pkg = true
  · rw [if_pos h3, if_pos (.inr (.inr h3))]
  · rw [if_neg h3, if_neg fun hc => (or_assoc.mpr hc).elim h2 h3]

theorem exec_exit_monitor (hm : s.mode = .monitor) (sd t : Byte) :
    exec (.exit 0 sd t) s = run (exchangeToJob (if sd = 0 then 0 else s.addr sd) (s.addr t)) s := by
  show execExit 0 sd t s = _
  unfold execExit
  rw [hm]
  exact congrArg (settle s) (bind_ok rfl)

theorem exec_exit_monitor_unused (hm : s.mode = .monitor) (hr : r ≠ 0) (sd t : Byte) :
    exec (.exit r sd t) s = .refused .unusedFieldNonZero := by
  show execExit r sd t s = _
  unfold execExit
  rw [hm]
  exact run_refused (bind_error (refuseIf_true (bne_iff_ne.mpr hr)))

theorem exec_exit_job_unused (hm : s.mode = .job) (hf : s.forbidden 5 = false) (h : r ≠ 0 ∨ sd ≠ 0 ∨ t ≠ 0) :
    exec (.exit r sd t) s = .refused .unusedFieldNonZero := by
  show execExit r sd t s = _
  unfold execExit
  rw [hm]
  exact run_refused (refuses_behind (maskedBy_allowed hf) (by simpa [or_assoc] using h))

/-! ### Branches -/

/-- Whether a branch address is undefined depends on its qualifiers alone. -/
theorem afterBranch_none_iff (ob : Bool) (pc a c : Addr) :
    afterBranch g ob pc a c = none ↔ branchTaken g ob = true ∧ bitAt g 5 = false ∧ bitAt g 6 = true := by
  unfold afterBranch branchTarget
  cases branchTaken g ob <;> cases bitAt g 5 <;> cases bitAt g 6 <;> simp

theorem exec_bab_refused (hm : s.mode = .monitor)
    (h : afterBranch g (s.bitOfMemory (s.addr sd)) s.pc (s.addr t) (t.setWidth 48) = none) :
    exec (.bab g sd t) s = .refused .branchQualifier := by
  show execBab g sd t s = _
  unfold execBab
  refine run_refused ((bind_ok (readBit_monitor hm _)).trans ?_)
  have hm' : (s.breakpoint false (s.addr sd)).mode = .monitor := by rw [State.breakpoint_mode]; exact hm
  simp only [h]
  cases altered g (s.bitOfMemory (s.addr sd)) with
  | none => rfl
  | some b => exact (bind_ok (writeBit_monitor hm' _ _)).trans rfl

theorem exec_barb_refused (h : afterBranch g (bitAt (s.reg t) 63) s.pc (s.addr sd) (s.addr sd) = none) :
    exec (.barb g sd t) s = .refused .branchQualifier := by
  show execBarb g sd t s = _
  unfold execBarb
  simp only
  rw [(afterBranch_none_iff ..).mpr ((afterBranch_none_iff ..).mp h)]

theorem exec_badf_refused {im : BitVec 6} (hu : bitAt undefinedMask im.toNat = false)
    (h : afterBranch g (bitAt s.dfr im.toNat) s.pc (s.addr t) (t.setWidth 48) = none) :
    exec (.badf g im t) s = .refused .branchQualifier := by
  show execBadf g im t s = _
  unfold execBadf
  simp only [hu, Bool.false_eq_true, if_false, h]

theorem exec_bsave_same (h : bitAt (s.reg t) 0 = false ∨ r = t) (hr : r = sd) (h0 : r ≠ 0) :
    exec (.bsave r sd t) s = .refused .branchRegisterSame := by
  show execBsave r sd t s = _
  unfold execBsave
  rw [if_pos (by simpa using h), if_pos ⟨hr, h0⟩]

theorem exec_bsave_domain_monitor (hm : s.mode = .monitor) (h : bitAt (s.reg t) 0 = true) (hr : r ≠ t) :
    exec (.bsave r sd t) s = .refused .domainChangeInMonitor := by
  show execBsave r sd t s = _
  unfold execBsave
  rw [if_neg (by simp [h, hr]), if_pos hm]

/-! ### Other refusals -/

theorem fpAdjs_none {w : Width} {x : Word} {count : Int} (hi : unpack w x ≠ .ind) (hz : unpack w x ≠ .mz)
    (h : w.n < count.natAbs) : fpAdjs w x count = none := by
  unfold fpAdjs
  cases hu : unpack w x with
  | ind => exact absurd hu hi
  | mz => exact absurd hu hz
  | normal e c => exact if_pos (by omega)

theorem exec_adjs_refused (h : fpAdjs .w64 (s.reg r) (s.addr sd).toInt = none) :
    exec (.adjs r sd t) s = .refused .adjsCount := by
  show execAdjs r sd t s = _
  unfold execAdjs
  rw [h]

theorem exec_adjsh_refused (h : fpAdjs .w32 (s.operand32 r) ((s.reg32 sd).extractLsb' 0 24).toInt = none) :
    exec (.adjsh r sd t) s = .refused .adjsCount := by
  show execAdjsh r sd t s = _
  unfold execAdjsh
  rw [h]

theorem repeatedMask_refused {v : Bool} {lead m n : Nat} {a : Addr} (h0 : m ≠ 0) (h : m < lead) :
    repeatedMask v lead m n a s = .error (.refuse .maskLength) := by
  unfold repeatedMask
  rw [if_neg h0]
  exact bind_error (refuseIf_true (decide_eq_true h))

/-- The forms of #7D that are undefined (R389). -/
theorem exec_rgap_refused (r sd t : Byte) (s : State) :
    let w := s.swapOf r sd t
    (w.illegal = true → exec (.rgap r sd t) s = .next s.typeOne) ∧
    (w.illegal = false → 256 < w.first + w.nStore ∨ 256 < w.first + w.nLoad →
      exec (.rgap r sd t) s = .refused .swapRange) ∧
    (w.illegal = false → w.first + w.nStore ≤ 256 → w.first + w.nLoad ≤ 256 → w.overlaps = true →
      exec (.rgap r sd t) s = .refused .swapOverlap) := by
  intro w
  have ok (hl : w.illegal = false) : ¬ w.illegal = true := by rw [hl]; exact Bool.false_ne_true
  refine ⟨fun hl => run32_of_error (e := .typeOne) ?_, fun hl hr => run32_refused ?_, fun hl h1 h2 ho => run32_refused ?_⟩
  · rw [if_pos hl]
    rfl
  · rw [if_neg (ok hl), if_pos hr]
    rfl
  · rw [if_neg (ok hl), if_neg (not_or.mpr ⟨Nat.not_lt.mpr h1, Nat.not_lt.mpr h2⟩), if_pos ho]
    rfl

end Sys2Proof.Machine

namespace Sys2Proof
open Machine

/-- Settles O59. -/
theorem undefinedScalarForms : Obligations.UndefinedScalarForms := by
  intro s r sd t g im
  refine ⟨fun h => if_pos h, fun hf h => run32_refused (refuses_behind (maskedBy_allowed hf) (bne_iff_ne.mpr h)),
    exec_exit_job_unused, fun hm => ⟨fun hr => exec_exit_monitor_unused hm hr sd t, fun h => ?_, fun h ha => ?_,
      fun h ha => ⟨fun hal => ?_, fun hal ho => ?_⟩, fun ha => ⟨?_, ?_⟩, fun ha h => ?_, ?_,
      fun hb hr => exec_bsave_domain_monitor hm hb hr, if_pos hm, exec_bab_refused hm⟩,
    fun hm h => ?_, fun h0 h => ⟨run32_refused (repeatedMask_refused h0 h), run32_refused (repeatedMask_refused h0 h)⟩,
    exec_barb_refused, exec_badf_refused, exec_bsave_same, fun h => ⟨if_pos h, if_pos h⟩,
    fun hi hz h => exec_adjs_refused (fpAdjs_none hi hz h), fun hi hz h => exec_adjsh_refused (fpAdjs_none hi hz h),
    exec_rgap_refused r sd t s⟩
  · rw [exec_exit_monitor hm]
    exact run_refused (exchangeToJob_faultTest h)
  · rw [exec_exit_monitor hm]
    exact run_refused (exchangeToJob_notLoaded h ha)
  · rw [exec_exit_monitor hm]
    exact run_refused ((exchangeToJob_loaded h ha).trans (if_pos hal))
  · rw [exec_exit_monitor hm]
    exact run_refused ((exchangeToJob_loaded h ha).trans ((if_neg (Classical.not_not.mpr hal)).trans (if_pos ho)))
  · exact run32_refused (refuses_behind (monitorOnly_monitor hm) (by rw [ha]; rfl))
  · exact run32_refused (refuses_behind (monitorOnly_monitor hm) (by rw [ha]; rfl))
  · refine run32_refused ((bind_ok (monitorOnly_monitor hm)).trans (refuses_behind (refuseIf_false (by rw [ha]; rfl)) ?_))
    rw [Bool.or_eq_true, bne_iff_ne, beq_iff_eq]
    exact h
  · exact run_refused (bind_error (refuseIf_true (decide_eq_true hm)))
  · refine run_refused ((bind_ok (refuseIf_false (by rw [hm]; rfl))).trans (if_pos h))

end Sys2Proof
end

