-- ==== Sys2Proof/Proofs/Sources.lean ====
section
/-! PROOFS. Source streams and destination fields: what they are where their offsets are in range, and the refusals
(spec/46_vector.md R411, R413). -/

-- One declaration at a time, as in the tests: many at once need a thread each.
set_option Elab.async false

namespace Sys2Proof.Machine

variable {s : State}

theorem offset_ok {x : Byte} (h : s.offsetOf x < 0x10000) : offset x s = .ok (s.offsetOf x, s) :=
  (bind_ok rfl).trans ((bind_ok (refuseIf_false (decide_eq_false (Nat.not_le.mpr h)))).trans rfl)

theorem offset_large {x : Byte} (h : 0x10000 ≤ s.offsetOf x) : offset x s = .error (.refuse .vectorOffsetRange) :=
  (bind_ok rfl).trans (bind_error (refuseIf_true (decide_eq_true h)))

theorem source_broadcast (w : Width) (a x : Byte) : source w true a x s = .ok (s.streamOf w true a x, s) := rfl

theorem source_field (w : Width) (a x : Byte) (h : s.offsetOf x < 0x10000) :
    source w false a x s = .ok (s.streamOf w false a x, s) :=
  (bind_ok (offset_ok h)).trans rfl

theorem source_ok (w : Width) {bc : Bool} (a : Byte) {x : Byte} (h : s.sourceOk bc x) :
    source w bc a x s = .ok (s.streamOf w bc a x, s) := by
  cases bc
  · exact source_field w a x (h.resolve_left Bool.false_ne_true)
  · exact source_broadcast w a x

theorem source_large (w : Width) {bc : Bool} (a : Byte) {x : Byte} (hb : bc = false) (h : 0x10000 ≤ s.offsetOf x) :
    source w bc a x s = .error (.refuse .vectorOffsetRange) := by
  subst hb
  exact bind_error (offset_large h)

theorem dest_ok (w : Width) {o : Bool} {c : Byte} (h : s.destOk o c) : dest w o c s = .ok (s.destOf w o c, s) := by
  refine (bind_ok rfl).trans ((bind_ok (refuseIf_false ?_)).trans ((bind_ok (refuseIf_false ?_)).trans rfl)) <;>
    rcases h with h | h | ⟨h1, h2⟩
  · rw [h]; rfl
  · rw [h, Bool.and_false]; rfl
  · rw [h1, Bool.and_false]
  · rw [h]; rfl
  · rw [h, Bool.and_false]; rfl
  · rw [decide_eq_false (Nat.not_le.mpr h2), Bool.and_false]

/-- The refusal of a destination with an offset (R413). -/
def State.destRefusal (s : State) (c : Byte) : Option Refusal :=
  if bitAt c 7 then some .oddCWithOffset
  else if 0x10000 ≤ (s.addr (c + 1)).toNat then some .vectorOffsetRange else none

theorem dest_refused (w : Width) {o : Bool} {c : Byte} {e : Refusal} (hc : c ≠ 0) (ho : o = true)
    (h : s.destRefusal c = some e) : dest w o c s = .error (.refuse e) := by
  subst ho
  have hcb : (c != 0) = true := bne_iff_ne.mpr hc
  unfold State.destRefusal at h
  by_cases h7 : bitAt c 7 = true
  · rw [if_pos h7] at h
    cases h
    exact (bind_ok rfl).trans (bind_error (refuseIf_true (by rw [hcb, h7]; rfl)))
  · rw [if_neg h7] at h
    by_cases hl : 0x10000 ≤ (s.addr (c + 1)).toNat
    · rw [if_pos hl] at h
      cases h
      exact (bind_ok rfl).trans ((bind_ok (refuseIf_false (by rw [Bool.eq_false_iff.mpr h7, Bool.and_false]))).trans
        (bind_error (refuseIf_true (by rw [hcb, decide_eq_true hl]; rfl))))
    · rw [if_neg hl] at h
      cases h

/-- The two cases of a refused destination. -/
theorem destRefusals {i : Instr} {c : Byte} (h : ∀ e, s.destRefusal c = some e → exec i s = .refused e) :
    (bitAt c 7 = true → exec i s = .refused .oddCWithOffset) ∧
    (bitAt c 7 = false → 0x10000 ≤ (s.addr (c + 1)).toNat → exec i s = .refused .vectorOffsetRange) :=
  ⟨fun h7 => h _ (if_pos h7), fun h7 hl => h _ ((if_neg (by rw [h7]; exact Bool.false_ne_true)).trans (if_pos hl))⟩

end Sys2Proof.Machine
end

