-- ==== Sys2Proof/Proofs/Elements.lean ====
section
/-! PROOFS. Elements, bytes and bits of CP memory in Monitor mode: where they lie, what a store leaves of the others, and
what is read behind a frame (spec/20_memory.md R61, R65, R71; spec/46_vector.md R410). -/

-- One declaration at a time, as in the tests: many at once need a thread each.
set_option Elab.async false

namespace Sys2Proof.Machine

/-! ### Addresses -/

theorem toNat_and_mask {k : Nat} {mask : Addr} (h : ∀ i : Fin 48, mask.getLsbD i = decide (k ≤ i.val)) (a : Addr) :
    (a &&& mask).toNat = a.toNat / 2 ^ k * 2 ^ k := by
  have he : a &&& mask = (a >>> k) <<< k := BitVec.eq_of_getLsbD_eq fun i hi => by
    have hm : mask.getLsbD i = decide (k ≤ i) := h ⟨i, hi⟩
    rw [BitVec.getLsbD_and, BitVec.getLsbD_shiftLeft, BitVec.getLsbD_ushiftRight, hm]
    by_cases hk : k ≤ i
    · simp [hk, hi, Nat.add_sub_cancel' hk]
    · simp [hk, Nat.lt_of_not_le hk]
  have hle : a.toNat / 2 ^ k * 2 ^ k ≤ a.toNat := Nat.div_mul_le_self _ _
  rw [he, BitVec.toNat_shiftLeft, BitVec.toNat_ushiftRight, Nat.shiftLeft_eq, Nat.shiftRight_eq_div_pow,
    Nat.mod_eq_of_lt (Nat.lt_of_le_of_lt hle a.isLt)]

theorem toNat_halfAligned (a : Addr) : (halfAligned a).toNat = a.toNat / 2 ^ 5 * 2 ^ 5 := toNat_and_mask (by decide) a
theorem toNat_wordAligned (a : Addr) : (wordAligned a).toNat = a.toNat / 2 ^ 6 * 2 ^ 6 := toNat_and_mask (by decide) a
theorem toNat_byteAligned (a : Addr) : (byteAligned a).toNat = a.toNat / 2 ^ 3 * 2 ^ 3 := toNat_and_mask (by decide) a

theorem toNat_add_scaled (sh : Nat) (a : Addr) (k : Nat) :
    (a + scaled sh (BitVec.ofNat 48 k)).toNat = (a.toNat + k * 2 ^ sh) % 2 ^ 48 := by
  rw [scaled, BitVec.toNat_add, BitVec.toNat_shiftLeft, BitVec.toNat_ofNat, Nat.shiftLeft_eq, Nat.add_mod_mod,
    Nat.add_mod, Nat.mul_mod, Nat.mod_mod, ← Nat.mul_mod, ← Nat.add_mod]

/-- An aligned address within memory, counted in its units. -/
theorem wrapped_aligned {n sh : Nat} (h : sh ≤ n) (x : Nat) :
    x / 2 ^ sh * 2 ^ sh % 2 ^ n = x / 2 ^ sh % 2 ^ (n - sh) * 2 ^ sh := by
  rw [← Nat.mul_mod_mul_right, ← Nat.pow_add, Nat.sub_add_cancel h]

theorem unit_of_sum {n sh : Nat} (h : sh ≤ n) (hn : n ≤ 48) (a k : Nat) :
    (a + k * 2 ^ sh) % 2 ^ 48 / 2 ^ sh % 2 ^ (n - sh) = (a / 2 ^ sh + k) % 2 ^ (n - sh) := by
  have h48 : 2 ^ 48 = 2 ^ sh * 2 ^ (48 - sh) := by rw [← Nat.pow_add, Nat.add_sub_cancel' (Nat.le_trans h hn)]
  rw [h48, Nat.mod_mul_right_div_self, Nat.mod_mod_of_dvd _ (Nat.pow_dvd_pow 2 (by omega)),
    Nat.add_mul_div_right _ _ (Nat.two_pow_pos sh)]

theorem mod_below_twice {m x : Nat} (h : x < 2 * m) : x % m = if x < m then x else x - m := by
  split
  next h' => exact Nat.mod_eq_of_lt h'
  next h' => rw [Nat.mod_eq_sub_mod (by omega), Nat.mod_eq_of_lt (by omega)]

/-- Units counted from one place on are different within the size of memory. -/
theorem unit_ne {M q i j n : Nat} (hn : n ≤ M) (hi : i < n) (hj : j < n) (h : i ≠ j) : (q + i) % M ≠ (q + j) % M := by
  intro he
  have hq := Nat.mod_lt q (show 0 < M by omega)
  rw [← Nat.mod_add_mod q M i, ← Nat.mod_add_mod q M j] at he
  generalize q % M = x at hq he
  rw [mod_below_twice (x := x + i) (by omega), mod_below_twice (x := x + j) (by omega)] at he
  exact h (by split at he <;> split at he <;> omega)

/-! ### Where elements, bits and bytes lie -/

theorem Width.bytes_eq (w : Width) : w.bytes * 8 = 2 ^ w.shift := by cases w <;> rfl

theorem Width.bits_eq (w : Width) : w.bits = 2 ^ w.shift := by cases w <;> rfl

/-- The address that an access of the width uses. -/
def Width.aligned (w : Width) (a : Addr) : Addr :=
  match w with
  | .w32 => halfAligned a
  | .w64 => wordAligned a

theorem State.elemByte_eq (s : State) (w : Width) (a : Addr) : s.elemByte w a = s.wrap (w.aligned a).toNat / 8 := by
  cases w <;> rfl

theorem toNat_aligned (w : Width) (a : Addr) : (w.aligned a).toNat = a.toNat / 2 ^ w.shift * 2 ^ w.shift := by
  cases w
  · exact toNat_halfAligned a
  · exact toNat_wordAligned a

theorem Params.cpmLog_range {p : Params} (h : p.ok = true) : 15 ≤ p.cpmLog ∧ p.cpmLog ≤ 48 := by
  unfold Params.ok at h
  simp only [Bool.and_eq_true, decide_eq_true_eq] at h
  exact ⟨h.1.1.1.1.1.1, h.1.1.1.1.1.2⟩

section
variable {s : State} (hp : s.params.ok = true)
include hp

theorem State.elemByte_units (w : Width) (a : Addr) :
    s.elemByte w a = a.toNat / 2 ^ w.shift % 2 ^ (s.params.cpmLog - w.shift) * w.bytes := by
  obtain ⟨h15, -⟩ := Params.cpmLog_range hp
  rw [State.elemByte_eq, State.wrap, toNat_aligned, wrapped_aligned (by cases w <;> simp only [Width.shift] <;> omega),
    ← w.bytes_eq, ← Nat.mul_assoc, Nat.mul_div_cancel _ (by decide)]

theorem State.elemByte_item (w : Width) (a : Addr) (i : Nat) : s.elemByte w (itemAddr w a i) =
    (a.toNat / 2 ^ w.shift + i) % 2 ^ (s.params.cpmLog - w.shift) * w.bytes := by
  obtain ⟨h15, h48⟩ := Params.cpmLog_range hp
  rw [State.elemByte_units hp, itemAddr, toNat_add_scaled,
    unit_of_sum (by cases w <;> simp only [Width.shift] <;> omega) h48]

/-- The elements of a field that fits into memory do not overlap. -/
theorem State.items_apart {w : Width} {n : Nat} (hn : n * w.bits ≤ 2 ^ s.params.cpmLog) (a : Addr) {i j : Nat} (hi : i < n)
    (hj : j < n) (h : i ≠ j) : s.elemsApart w (itemAddr w a i) w (itemAddr w a j) := by
  obtain ⟨h15, -⟩ := Params.cpmLog_range hp
  have hsh : w.shift ≤ s.params.cpmLog := by cases w <;> simp only [Width.shift] <;> omega
  have hM : n ≤ 2 ^ (s.params.cpmLog - w.shift) := by
    rw [w.bits_eq, ← Nat.sub_add_cancel hsh, Nat.pow_add] at hn
    exact Nat.le_of_mul_le_mul_right hn (Nat.two_pow_pos _)
  have hne := unit_ne (q := a.toNat / 2 ^ w.shift) hM hi hj h
  unfold State.elemsApart
  rw [State.elemByte_item hp, State.elemByte_item hp]
  rcases Nat.lt_or_gt_of_ne hne with hlt | hlt
  · exact .inl (by rw [← Nat.succ_mul]; exact Nat.mul_le_mul_right _ hlt)
  · exact .inr (by rw [← Nat.succ_mul]; exact Nat.mul_le_mul_right _ hlt)

/-- The bits of a string that fits into memory are different bits. -/
theorem State.bits_ne {n : Nat} (hn : n ≤ 2 ^ s.params.cpmLog) (a : Addr) {i j : Nat} (hi : i < n) (hj : j < n) (h : i ≠ j) :
    s.wrap (a + BitVec.ofNat 48 i).toNat ≠ s.wrap (a + BitVec.ofNat 48 j).toNat := by
  obtain ⟨-, h48⟩ := Params.cpmLog_range hp
  have he (k : Nat) : s.wrap (a + BitVec.ofNat 48 k).toNat = (a.toNat + k) % 2 ^ s.params.cpmLog := by
    rw [State.wrap, BitVec.toNat_add, BitVec.toNat_ofNat, Nat.mod_mod_of_dvd _ (Nat.pow_dvd_pow 2 h48)]
    rw [Nat.add_mod, Nat.mod_mod_of_dvd _ (Nat.pow_dvd_pow 2 h48), ← Nat.add_mod]
  rw [he, he]
  exact unit_ne hn hi hj h

/-- The bytes of a string that fits into memory are different bytes. -/
theorem State.bytes_ne {n : Nat} (hn : 8 * n ≤ 2 ^ s.params.cpmLog) (a : Addr) {i j : Nat} (hi : i < n) (hj : j < n)
    (h : i ≠ j) : s.oneByte (a + scaled 3 (BitVec.ofNat 48 i)) ≠ s.oneByte (a + scaled 3 (BitVec.ofNat 48 j)) := by
  obtain ⟨h15, h48⟩ := Params.cpmLog_range hp
  have hM : n ≤ 2 ^ (s.params.cpmLog - 3) := by
    rw [← Nat.sub_add_cancel (show 3 ≤ s.params.cpmLog by omega), Nat.pow_add, Nat.mul_comm] at hn
    exact Nat.le_of_mul_le_mul_right hn (Nat.two_pow_pos 3)
  have he (k : Nat) : s.oneByte (a + scaled 3 (BitVec.ofNat 48 k)) = (a.toNat / 2 ^ 3 + k) % 2 ^ (s.params.cpmLog - 3) := by
    rw [State.oneByte, State.wrap, toNat_byteAligned, wrapped_aligned (by omega), toNat_add_scaled,
      unit_of_sum (by omega) h48]
    exact Nat.mul_div_cancel _ (by decide)
  rw [he, he]
  exact unit_ne hM hi hj h

end

/-! ### Reading the same bytes -/

section
variable {s t : State} (hp : t.params = s.params)
include hp

theorem State.elemByte_congr (w : Width) (a : Addr) : t.elemByte w a = s.elemByte w a := by
  rw [State.elemByte_eq, State.elemByte_eq, State.wrap_congr hp]

theorem State.elemOfMemory_congr {w : Width} {a : Addr}
    (h : ∀ b, s.elemByte w a ≤ b → b < s.elemByte w a + w.bytes → Memory.byte t.mem b = Memory.byte s.mem b) :
    t.elemOfMemory w a = s.elemOfMemory w a := by
  have he := State.elemByte_congr hp w a
  cases w
  · exact congrArg (0#32 ++ ·) ((congrArg (Memory.half t.mem) he).trans (Memory.half_congr h))
  · exact (congrArg (Memory.word t.mem) he).trans (Memory.word_congr h)

theorem State.bitOfMemory_congr {a : Addr} (h : Memory.byte t.mem (s.bitByte a) = Memory.byte s.mem (s.bitByte a)) :
    t.bitOfMemory a = s.bitOfMemory a := by
  unfold State.bitOfMemory State.bitByte at *
  rw [State.wrap_congr hp, h]

end

/-! ### Storing an element -/

/-- The state with an element stored, behind the breakpoint compare. -/
def State.withElem (s : State) (w : Width) (a : Addr) (v : Word) : State :=
  match w with
  | .w32 => (s.breakpoint true (halfAligned a)).putHalf (s.wrap (halfAligned a).toNat) (rightHalf v)
  | .w64 => (s.breakpoint true (wordAligned a)).putWord (s.wrap (wordAligned a).toNat) v

theorem readElem_monitor {s : State} (h : s.mode = .monitor) (w : Width) (a : Addr) :
    readElem w a s = .ok (s.elemOfMemory w a, s.breakpoint false (w.aligned a)) := by
  cases w
  · exact bind_ok (readHalf_monitor h a)
  · exact readWord_monitor h a

theorem writeElem_monitor {s : State} (h : s.mode = .monitor) (w : Width) (a : Addr) (v : Word) :
    writeElem w a v s = .ok ((), s.withElem w a v) := by
  cases w
  · exact writeHalf_monitor h a (rightHalf v)
  · exact writeWord_monitor h a v

section
variable (s : State) (w : Width) (a : Addr) (v : Word)

theorem State.withElem_params : (s.withElem w a v).params = s.params := by cases w <;> simp [State.withElem]

theorem State.withElem_mode : (s.withElem w a v).mode = s.mode := by cases w <;> simp [State.withElem]

theorem State.withElem_pc : (s.withElem w a v).pc = s.pc := by cases w <;> simp [State.withElem]

theorem State.withElem_dfr : (s.withElem w a v).dfr = (s.breakpoint true (w.aligned a)).dfr := by
  cases w <;> simp [State.withElem, Width.aligned]

theorem State.byte_withElem_out (hw : Memory.wf s.mem = true) {b : Nat}
    (hb : b < s.elemByte w a ∨ s.elemByte w a + w.bytes ≤ b) :
    Memory.byte (s.withElem w a v).mem b = Memory.byte s.mem b := by
  cases w
  · exact (congrArg (Memory.byte · b) (State.putHalf_mem ..)).trans
      ((Memory.byte_setHalf_out (by simpa using hw) _ hb).trans (by rw [State.breakpoint_mem]))
  · exact (congrArg (Memory.byte · b) (State.putWord_mem ..)).trans
      ((Memory.byte_setWord_out (by simpa using hw) _ hb).trans (by rw [State.breakpoint_mem]))

theorem State.elemOfMemory_withElem_self (hw : Memory.wf s.mem = true) :
    (s.withElem w a v).elemOfMemory w a = narrow w v := by
  have he := State.elemByte_congr (s.withElem_params w a v) w a
  cases w
  · refine congrArg (0#32 ++ ·) ((congrArg (Memory.half _) he).trans ?_)
    exact (congrArg (Memory.half · _) (State.putHalf_mem ..)).trans (Memory.half_setHalf (by simpa using hw) _ _)
  · refine (congrArg (Memory.word _) he).trans ?_
    exact (congrArg (Memory.word · _) (State.putWord_mem ..)).trans (Memory.word_setWord (by simpa using hw) _ _)

theorem State.elemOfMemory_withElem_ne (hw : Memory.wf s.mem = true) {u : Width} {b : Addr} (h : s.elemsApart w a u b) :
    (s.withElem w a v).elemOfMemory u b = s.elemOfMemory u b :=
  State.elemOfMemory_congr (s.withElem_params w a v) fun k h1 h2 =>
    s.byte_withElem_out w a v hw (by unfold State.elemsApart at h; omega)

end

theorem State.elemsApart_symm {s : State} {w u : Width} {a b : Addr} (h : s.elemsApart w a u b) : s.elemsApart u b w a :=
  Or.symm h

/-! ### Storing a bit -/

/-- The state with a bit stored, behind the breakpoint compare. -/
def State.withBit (s : State) (a : Addr) (v : Bool) : State := (s.breakpoint true a).putBit (s.wrap a.toNat) v

theorem writeBit_withBit {s : State} (h : s.mode = .monitor) (a : Addr) (v : Bool) :
    writeBit a v s = .ok ((), s.withBit a v) := writeBit_monitor h a v

section
variable (s : State) (a : Addr) (v : Bool)

theorem State.withBit_params : (s.withBit a v).params = s.params := by simp [State.withBit, State.putBit]

theorem State.withBit_mode : (s.withBit a v).mode = s.mode := by simp [State.withBit, State.putBit]

theorem State.withBit_pc : (s.withBit a v).pc = s.pc := by simp [State.withBit, State.putBit]

theorem State.withBit_dfr : (s.withBit a v).dfr = (s.breakpoint true a).dfr := by simp [State.withBit, State.putBit]

theorem State.byte_withBit_out (hw : Memory.wf s.mem = true) {b : Nat} (hb : b ≠ s.bitByte a) :
    Memory.byte (s.withBit a v).mem b = Memory.byte s.mem b := by
  refine (congrArg (Memory.byte · b) (State.putByte_mem ..)).trans
    ((Memory.byte_setByte (by simpa using hw) _ _ _).trans ?_)
  rw [if_neg (show ¬ b = s.wrap a.toNat / 8 from hb), State.breakpoint_mem]

theorem State.bitOfMemory_withBit (hw : Memory.wf s.mem = true) (b : Addr) :
    (s.withBit a v).bitOfMemory b = if s.wrap b.toNat = s.wrap a.toNat then v else s.bitOfMemory b := by
  have hwr : (s.withBit a v).wrap b.toNat = s.wrap b.toNat := State.wrap_congr (s.withBit_params a v) _
  have hw' : Memory.wf (s.breakpoint true a).mem = true := by simpa using hw
  have hmem : (s.breakpoint true a).mem = s.mem := by rw [State.breakpoint_mem]
  unfold State.bitOfMemory State.bitByte
  rw [hwr]
  by_cases hb : s.wrap b.toNat / 8 = s.wrap a.toNat / 8
  · have hbit := State.bitAt_putBit hw' (s.wrap a.toNat) v (Nat.mod_lt (s.wrap b.toNat) (by decide : 0 < 8))
    rw [hmem] at hbit
    rw [hb]
    refine hbit.trans ?_
    by_cases hm : s.wrap b.toNat % 8 = s.wrap a.toNat % 8
    · rw [if_pos hm, if_pos (by omega)]
    · rw [if_neg hm, if_neg fun e => hm (by rw [e])]
  · rw [if_neg fun e => hb (by rw [e]), s.byte_withBit_out a v hw hb]

end

/-! ### Frames of stores and reads -/

namespace State.Frame

variable {s t : State} {changed : Byte → Prop} {flags : List Nat} {stored : Nat → Prop}

theorem elemByte (h : s.Frame t changed flags stored) (w : Width) (a : Addr) : t.elemByte w a = s.elemByte w a :=
  State.elemByte_congr h.params w a

theorem bitByte (h : s.Frame t changed flags stored) (a : Addr) : t.bitByte a = s.bitByte a := by
  unfold State.bitByte
  rw [h.wrap]

theorem withElem (h : s.Frame t changed flags stored) {w : Width} {a : Addr} (v : Word) (hf : 47 ∈ flags)
    (hb : ∀ b, s.elemByte w a ≤ b → b < s.elemByte w a + w.bytes → stored b) :
    s.Frame (t.withElem w a v) changed flags stored := by
  rw [← h.elemByte w a] at hb
  cases w
  · exact (h.breakpoint true _ hf).putHalf _ hb
  · exact (h.breakpoint true _ hf).putWord _ hb

theorem withBit (h : s.Frame t changed flags stored) {a : Addr} (v : Bool) (hf : 47 ∈ flags) (hb : stored (s.bitByte a)) :
    s.Frame (t.withBit a v) changed flags stored := by
  rw [← h.bitByte a] at hb
  exact (h.breakpoint true _ hf).putBit _ hb

/-- A frame of fewer stored bytes. -/
theorem mono (h : s.Frame t changed flags stored) {stored' : Nat → Prop} (hi : ∀ b, stored b → stored' b) :
    s.Frame t changed flags stored' :=
  ⟨h.regs, h.flagsOnly, h.wf, fun hw b hb => h.bytes hw b fun hc => hb (hi b hc),
    fun hn => h.same fun b hb => hn b (hi b hb), h.rest⟩

theorem elemOfMemory (h : s.Frame t changed flags stored) (hw : Memory.wf s.mem = true) {w : Width} {a : Addr}
    (hb : ∀ b, s.elemByte w a ≤ b → b < s.elemByte w a + w.bytes → ¬ stored b) : t.elemOfMemory w a = s.elemOfMemory w a :=
  State.elemOfMemory_congr h.params fun b h1 h2 => h.bytes hw b (hb b h1 h2)

theorem bitOfMemory (h : s.Frame t changed flags stored) (hw : Memory.wf s.mem = true) {a : Addr}
    (hb : ¬ stored (s.bitByte a)) : t.bitOfMemory a = s.bitOfMemory a :=
  State.bitOfMemory_congr h.params (h.bytes hw _ hb)

end State.Frame

end Sys2Proof.Machine
end

