-- ==== Sys2Proof/Proofs/Loops.lean ====
section
/-! PROOFS. The loop of the vector instructions in Monitor mode: what it reads, what it stores and which flags it raises
(spec/46_vector.md R411 to R420). -/

-- One declaration at a time, as in the tests: many at once need a thread each.
set_option Elab.async false

namespace Sys2Proof.Machine

/-! ### Looking at memory -/

/-- From `t` to `u` the machine has only read memory and drawn free values. -/
structure State.Looked (t u : State) : Prop where
  flags : ∀ k, k < 64 → k ≠ 47 → k ∉ derivedBits → bitAt u.dfr k = bitAt t.dfr k
  rest : u = { t with dfr := u.dfr, free := u.free }

theorem State.bitAt_breakpoint (s : State) (write : Bool) (a : Addr) {k : Nat} (hk : k < 64) (h47 : k ≠ 47)
    (hd : k ∉ derivedBits) : bitAt (s.breakpoint write a).dfr k = bitAt s.dfr k :=
  (State.Frame.ofBreakpoint s write a nothing nothing).flagsOnly.2 k hk (by simpa using h47) hd

namespace State.Looked

variable {s t u : State}

theorem refl : t.Looked t := ⟨fun _ _ _ _ => rfl, rfl⟩

theorem breakpoint (h : s.Looked t) (a : Addr) : s.Looked (t.breakpoint false a) :=
  ⟨fun k hk h47 hd => (t.bitAt_breakpoint false a hk h47 hd).trans (h.flags k hk h47 hd), by
    rw [State.breakpoint_eq]
    exact congrArg (fun v : State => { v with dfr := (t.breakpoint false a).dfr }) h.rest⟩

theorem draw (h : s.Looked t) (n : Nat) : s.Looked { t with free := n } :=
  ⟨h.flags, congrArg (fun v : State => { v with free := n }) h.rest⟩

theorem trans (h : s.Looked t) (h' : t.Looked u) : s.Looked u :=
  ⟨fun k hk h47 hd => (h'.flags k hk h47 hd).trans (h.flags k hk h47 hd), by
    rw [h'.rest]
    exact congrArg (fun v : State => { v with dfr := u.dfr, free := u.free }) h.rest⟩

theorem of_breakpoint (h : u = t ∨ ∃ a, u = t.breakpoint false a) : t.Looked u := by
  rcases h with rfl | ⟨a, rfl⟩
  · exact refl
  · exact refl.breakpoint a

theorem mem (h : t.Looked u) : u.mem = t.mem := by rw [h.rest]
theorem mode (h : t.Looked u) : u.mode = t.mode := by rw [h.rest]
theorem params (h : t.Looked u) : u.params = t.params := by rw [h.rest]
theorem regs (h : t.Looked u) : u.regs = t.regs := by rw [h.rest]

theorem elemOfMemory (h : t.Looked u) (w : Width) (a : Addr) : u.elemOfMemory w a = t.elemOfMemory w a :=
  State.elemOfMemory_congr h.params fun _ _ _ => by rw [h.mem]

theorem bitOfMemory (h : t.Looked u) (a : Addr) : u.bitOfMemory a = t.bitOfMemory a :=
  State.bitOfMemory_congr h.params (by rw [h.mem])

theorem permissive (h : t.Looked u) (ctl : Control) (i : Nat) : u.permissive ctl i = t.permissive ctl i := by
  unfold State.permissive
  split
  · rfl
  · rw [h.bitOfMemory]

theorem streamElem (h : t.Looked u) (st : Stream) (w : Width) (ext : Word) (i : Nat) :
    u.streamElem st w ext i = t.streamElem st w ext i := by
  unfold State.streamElem
  split
  · rfl
  · rw [h.elemOfMemory]

end State.Looked

theorem State.Frame.looked {s t u : State} {changed : Byte → Prop} {flags : List Nat} {stored : Nat → Prop}
    (h : s.Frame t changed flags stored) (hl : t.Looked u) (h47 : 47 ∈ flags) : s.Frame u changed flags stored := by
  refine ⟨fun n hn => ?_, ⟨fun e => absurd e (List.ne_nil_of_mem h47), fun k hk hf hd => ?_⟩, fun hw => ?_, fun hw b hb => ?_,
    fun hn => ?_, ?_⟩
  · rw [State.reg, hl.regs]
    exact h.regs n hn
  · exact (hl.flags k hk (fun e => hf (e ▸ h47)) hd).trans (h.flagsOnly.2 k hk hf hd)
  · rw [hl.mem]
    exact h.wf hw
  · rw [hl.mem]
    exact h.bytes hw b hb
  · rw [hl.rest]
    exact h.same hn
  · rw [hl.rest]
    exact congrArg (fun v : State => { v with dfr := u.dfr, free := u.free }) h.rest

/-! ### Within an instruction -/

/-- A frame in which the program address has not changed yet. -/
structure State.Within (s t : State) (changed : Byte → Prop) (flags : List Nat) (stored : Nat → Prop) : Prop extends
    State.Frame s t changed flags stored where
  pc : t.pc = s.pc

namespace State.Within

variable {s t u : State} {changed : Byte → Prop} {flags : List Nat} {stored : Nat → Prop}

theorem refl : s.Within s changed flags stored := ⟨State.Frame.refl, rfl⟩

theorem looked (h : s.Within t changed flags stored) (hl : t.Looked u) (h47 : 47 ∈ flags) : s.Within u changed flags stored :=
  ⟨h.toFrame.looked hl h47, by rw [hl.rest]; exact h.pc⟩

theorem mono (h : s.Within t changed flags stored) {stored' : Nat → Prop} (hi : ∀ b, stored b → stored' b) :
    s.Within t changed flags stored' := ⟨h.toFrame.mono hi, h.pc⟩

theorem raiseFlags (h : s.Within t changed flags stored) {k : FlagKind} {f : FpFlags} (hf : f.Raises k flags) :
    s.Within (t.raiseFlags k f) changed flags stored := ⟨h.toFrame.raiseFlags hf, h.pc⟩

theorem withElem (h : s.Within t changed flags stored) {w : Width} {a : Addr} (v : Word) (hf : 47 ∈ flags)
    (hb : ∀ b, s.elemByte w a ≤ b → b < s.elemByte w a + w.bytes → stored b) :
    s.Within (t.withElem w a v) changed flags stored :=
  ⟨h.toFrame.withElem v hf hb, by rw [State.withElem_pc]; exact h.pc⟩

theorem withBit (h : s.Within t changed flags stored) {a : Addr} (v : Bool) (hf : 47 ∈ flags) (hb : stored (s.bitByte a)) :
    s.Within (t.withBit a v) changed flags stored :=
  ⟨h.toFrame.withBit v hf hb, by rw [State.withBit_pc]; exact h.pc⟩

theorem setReg (h : s.Within t changed flags stored) {d : Byte} (v : Word) (hd : changed d) :
    s.Within (t.setReg d v) changed flags stored := ⟨h.toFrame.setReg v hd, h.pc⟩

theorem setRegW (h : s.Within t changed flags stored) {w : Width} {d : Byte} (v : Word) (hd : changed (regOfW w d)) :
    s.Within (t.setRegW w d v) changed flags stored := ⟨h.toFrame.setRegW v hd, by rw [State.setRegW_pc]; exact h.pc⟩

theorem setFlag (h : s.Within t changed flags stored) {i : Nat} (v : Bool) (hi : i < 64) (hf : i ∈ flags) :
    s.Within (t.setFlag i v) changed flags stored := ⟨h.toFrame.setFlag v hi hf, h.pc⟩

theorem draw (h : s.Within t changed flags stored) (k : Nat) : s.Within { t with free := k } changed flags stored :=
  ⟨h.toFrame.draw k, h.pc⟩

/-- One more element of a field is stored. -/
theorem storeItem {w : Width} {start : Addr} {k : Nat} (h : s.Within t changed flags (s.inField w start k)) (v : Word)
    (h47 : 47 ∈ flags) : s.Within (t.withElem w (itemAddr w start k) v) changed flags (s.inField w start (k + 1)) :=
  (h.mono fun _ ⟨j, hj, hb⟩ => ⟨j, Nat.lt_succ_of_lt hj, hb⟩).withElem v h47 fun _ h1 h2 => ⟨k, Nat.lt_succ_self k, h1, h2⟩

/-- One more bit of a string is stored. -/
theorem storeBit {start : Addr} {k : Nat} (h : s.Within t changed flags (s.inBits start k)) (v : Bool)
    (h47 : 47 ∈ flags) : s.Within (t.withBit (start + BitVec.ofNat 48 k) v) changed flags (s.inBits start (k + 1)) :=
  (h.mono fun _ ⟨j, hj, hb⟩ => ⟨j, Nat.lt_succ_of_lt hj, hb⟩).withBit v h47 ⟨k, Nat.lt_succ_self k, rfl⟩

/-- An instruction of 64 bits completes behind its computation. -/
theorem completes64 (h : s.Within t changed flags stored) {i : Instr} {result : State → Prop} (hw : Memory.wf s.mem = true)
    (he : exec i s = .next t.next64) (hr : result t.next64) : Completes i s s.behind64 changed flags stored result :=
  h.toFrame.next64.completes hw he hr (State.next64_pc_of h.pc)

end State.Within

/-! ### The flags that results raise (R25, R420) -/

theorem arithmeticFlags_plain : ∀ p ∈ arithmeticFlags, p.2 < 64 ∧ p.2 ≠ 47 ∧ p.2 ∉ derivedBits := by
  simp [arithmeticFlags, derivedBits]

theorem bitAt_raisedBits_vector (f : FpFlags) : ∀ p ∈ arithmeticFlags, bitAt (raisedBits .vector f) p.2 = p.1 f := by
  have h {k : Nat} (hk : k < 64) : bitAt (raisedBits .vector f) k = (bitAt f.bits k || bitAt f.pipeBits k) := bitAt_or ..
  simp [arithmeticFlags, h, bitAt_bits, bitAt_pipeBits]

theorem arithmeticFlags_none : ∀ p ∈ arithmeticFlags, p.1 {} = false := by simp [arithmeticFlags]

namespace State.FlagsRaised

variable {s t u : State} {n : Nat} {raised : Nat → Option FpFlags}

theorem zero (s : State) (raised : Nat → Option FpFlags) : s.FlagsRaised s 0 raised := fun _ _ =>
  ⟨fun h => h.elim id fun ⟨_, _, hi, _⟩ => absurd hi (Nat.not_lt_zero _), .inl⟩

theorem congr (h : s.FlagsRaised t n raised)
    (hd : ∀ k, k < 64 → k ≠ 47 → k ∉ derivedBits → bitAt u.dfr k = bitAt t.dfr k) : s.FlagsRaised u n raised := by
  intro p hp
  obtain ⟨h1, h2, h3⟩ := arithmeticFlags_plain p hp
  rw [hd p.2 h1 h2 h3]
  exact h p hp

theorem looked (h : s.FlagsRaised t n raised) (hl : t.Looked u) : s.FlagsRaised u n raised := h.congr hl.flags

/-- One more result raises its flags. -/
theorem raise (h : s.FlagsRaised t n raised) {f : FpFlags} (hf : ∀ e, raised n = some e → e = f) :
    s.FlagsRaised (t.raiseFlags .vector f) (n + 1) raised := by
  intro p hp
  obtain ⟨h1, h2, h3⟩ := arithmeticFlags_plain p hp
  have hbit : bitAt (t.raiseFlags .vector f).dfr p.2 = (bitAt t.dfr p.2 || p.1 f) := by
    rw [State.raiseFlags_dfr, bitAt_deriveDfr_stored _ h1 h3, bitAt_or, bitAt_raisedBits_vector f p hp]
  obtain ⟨hset, hback⟩ := h p hp
  rw [hbit, Bool.or_eq_true]
  refine ⟨fun hs => ?_, fun hu => ?_⟩
  · rcases hs with hs | ⟨i, e, hi, he, hpe⟩
    · exact .inl (hset (.inl hs))
    · rcases Nat.lt_succ_iff_lt_or_eq.mp hi with hi | rfl
      · exact .inl (hset (.inr ⟨i, e, hi, he, hpe⟩))
      · exact .inr (by rw [← hf e he]; exact hpe)
  · rcases hu with hu | hu
    · exact (hback hu).imp id fun ⟨i, hi, hall⟩ => ⟨i, Nat.lt_succ_of_lt hi, hall⟩
    · exact .inr ⟨n, Nat.lt_succ_self n, fun e he => by rw [hf e he]; exact hu⟩

/-- One more position raises none. -/
theorem skip (h : s.FlagsRaised t n raised) (hf : ∀ e, raised n = some e → e = {}) : s.FlagsRaised t (n + 1) raised := by
  intro p hp
  obtain ⟨hset, hback⟩ := h p hp
  refine ⟨fun hs => ?_, fun hu => (hback hu).imp id fun ⟨i, hi, hall⟩ => ⟨i, Nat.lt_succ_of_lt hi, hall⟩⟩
  rcases hs with hs | ⟨i, e, hi, he, hpe⟩
  · exact hset (.inl hs)
  · rcases Nat.lt_succ_iff_lt_or_eq.mp hi with hi | rfl
    · exact hset (.inr ⟨i, e, hi, he, hpe⟩)
    · rw [hf e he, arithmeticFlags_none p hp] at hpe
      cases hpe

end State.FlagsRaised

/-! ### Reading behind the stores of a field -/

/-- The first `k` elements of a field share no byte with an element that lies apart from them. -/
theorem State.not_inField {s : State} {w v : Width} {start a : Addr} {k : Nat}
    (h : ∀ j, j < k → s.elemsApart w (itemAddr w start j) v a) {b : Nat} (h1 : s.elemByte v a ≤ b)
    (h2 : b < s.elemByte v a + v.bytes) : ¬ s.inField w start k b := by
  rintro ⟨j, hj, h3, h4⟩
  have := h j hj
  unfold State.elemsApart at this
  omega

namespace State.Frame

variable {s t : State} {changed : Byte → Prop} {flags : List Nat} {w : Width} {start : Addr} {k : Nat}
  (h : s.Frame t changed flags (s.inField w start k)) (hw : Memory.wf s.mem = true)
include h hw

theorem elem_out {v : Width} {a : Addr} (ha : ∀ j, j < k → s.elemsApart w (itemAddr w start j) v a) :
    t.elemOfMemory v a = s.elemOfMemory v a :=
  h.elemOfMemory hw fun _ h1 h2 => State.not_inField ha h1 h2

theorem bit_out {a : Addr} (ha : ∀ j, j < k → s.bitByte a < s.elemByte w (itemAddr w start j) ∨
    s.elemByte w (itemAddr w start j) + w.bytes ≤ s.bitByte a) : t.bitOfMemory a = s.bitOfMemory a :=
  h.bitOfMemory hw fun ⟨j, hj, h1, h2⟩ => by
    have := ha j hj
    omega

theorem streamElem_out {st : Stream} {v : Width} {m : Nat} (ha : s.apart st v w start m) (hk : k ≤ m) (ext : Word) (i : Nat) :
    t.streamElem st v ext i = s.streamElem st v ext i := by
  unfold State.streamElem
  cases st with
  | const c => rfl
  | vec a len =>
    simp only
    split
    · next hi => exact h.elem_out hw fun j hj => State.elemsApart_symm (ha i hi j (Nat.lt_of_lt_of_le hj hk))
    · rfl

theorem permissive_out {ctl : Control} {m i : Nat} (ha : s.controlApart ctl w start m) (hi : i < m) (hk : k ≤ m) :
    t.permissive ctl i = s.permissive ctl i := by
  unfold State.permissive
  unfold State.controlApart at ha
  cases hb : ctl.base with
  | none => rfl
  | some a =>
    rw [hb] at ha
    simp only
    rw [h.bit_out hw fun j hj => ha i hi j (Nat.lt_of_lt_of_le hj hk)]

end State.Frame

/-! ### The loop of R415 -/

theorem narrow_narrow (w : Width) (v : Word) : narrow w (narrow w v) = narrow w v := by
  cases w
  · exact congrArg (0#32 ++ ·) (rightHalf_append _ _)
  · rfl

/-- A result is as a claim says, in the value that an element of the width holds and in its flags. -/
def FpResult.Matches (r : FpResult) (w : Width) (claim : Option FpResult) : Prop :=
  ∀ x, claim = some x → narrow w r.value = narrow w x.value ∧ r.flags = x.flags

theorem FpResult.Matches.of_eq {r : FpResult} {w : Width} {claim : Option FpResult} (h : ∀ x, claim = some x → r = x) :
    r.Matches w claim := fun x hx => by rw [h x hx]; exact ⟨rfl, rfl⟩

/-- The flags that a vector instruction is said to raise at position `k`. -/
def State.flagsAt (s : State) (ctl : Control) (result : Nat → Option FpResult) (k : Nat) : Option FpFlags :=
  if s.permissive ctl k then (result k).map FpResult.flags else some {}

section
variable {s : State} {w : Width} {d : Dest} {ctl : Control} {result : Nat → Option FpResult}

/-- One more element of the destination is stored. -/
theorem State.ElementsAre.store {t : State} {k : Nat} {value : Nat → Option Word} {v : Word}
    (h : s.ElementsAre t w { d with len := k } ctl value) (hv : ∀ x, value k = some x → narrow w v = narrow w x)
    (hw : Memory.wf t.mem = true) (hp : t.params = s.params) (hctl : s.permissive ctl k = true)
    (hap : ∀ j, j < k → s.elemsApart w (itemAddr w d.start k) w (itemAddr w d.start j)) :
    s.ElementsAre (t.withElem w (itemAddr w d.start k) v) w { d with len := k + 1 } ctl value := by
  have hap' (j : Nat) (hj : j < k) : t.elemsApart w (itemAddr w d.start k) w (itemAddr w d.start j) := by
    unfold State.elemsApart
    rw [State.elemByte_congr hp, State.elemByte_congr hp]
    exact hap j hj
  intro j hj
  rcases Nat.lt_succ_iff_lt_or_eq.mp hj with hj | rfl
  · rw [State.elemOfMemory_withElem_ne t w _ v hw (hap' j hj)]
    exact h j hj
  · exact ⟨fun _ x hx => (State.elemOfMemory_withElem_self t w _ v hw).trans (hv x hx),
      fun hc => absurd (hc.symm.trans hctl) Bool.false_ne_true⟩

/-- One more position that is not permitted. -/
theorem State.ElementsAre.skip {t : State} {k : Nat} {value : Nat → Option Word}
    (h : s.ElementsAre t w { d with len := k } ctl value) (hctl : s.permissive ctl k = false)
    (hk : t.elemOfMemory w (itemAddr w d.start k) = s.elemOfMemory w (itemAddr w d.start k)) :
    s.ElementsAre t w { d with len := k + 1 } ctl value := by
  intro j hj
  rcases Nat.lt_succ_iff_lt_or_eq.mp hj with hj | rfl
  · exact h j hj
  · exact ⟨fun hc => absurd (hctl.symm.trans hc) Bool.false_ne_true, fun _ => hk⟩

theorem State.ElementsAre.looked {t u : State} {e : Dest} {value : Nat → Option Word} (h : s.ElementsAre t w e ctl value)
    (hl : t.Looked u) : s.ElementsAre u w e ctl value :=
  fun j hj => by rw [hl.elemOfMemory]; exact h j hj

/-- The elements done and the flags raised behind `k` positions. -/
def State.DoneUpTo (s t : State) (w : Width) (d : Dest) (ctl : Control) (result : Nat → Option FpResult) (k : Nat) : Prop :=
  s.ElementsAre t w { d with len := k } ctl (fun i => (result i).map FpResult.value) ∧
  s.FlagsRaised t k (s.flagsAt ctl result)

/-- One more element of the destination is stored and its flags are raised. -/
theorem State.DoneUpTo.store {t : State} {k : Nat} {r : FpResult} (h : s.DoneUpTo t w d ctl result k)
    (hm : r.Matches w (result k)) (hw : Memory.wf t.mem = true) (hp : t.params = s.params) (hctl : s.permissive ctl k = true)
    (hap : ∀ j, j < k → s.elemsApart w (itemAddr w d.start k) w (itemAddr w d.start j)) :
    s.DoneUpTo ((t.withElem w (itemAddr w d.start k) r.value).raiseFlags .vector r.flags) w d ctl result (k + 1) := by
  refine ⟨h.1.store (v := r.value) (fun v hv => ?_) hw hp hctl hap, (h.2.congr fun i hi h47 hd => ?_).raise fun e he => ?_⟩
  · obtain ⟨x, hx, rfl⟩ := Option.map_eq_some_iff.mp hv
    exact (hm x hx).1
  · rw [State.withElem_dfr, t.bitAt_breakpoint true _ hi h47 hd]
  · unfold State.flagsAt at he
    rw [if_pos hctl] at he
    obtain ⟨x, hx, rfl⟩ := Option.map_eq_some_iff.mp he
    exact (hm x hx).2.symm

/-- A position that is not permitted. -/
theorem State.DoneUpTo.skip {t : State} {k : Nat} (h : s.DoneUpTo t w d ctl result k) (hctl : s.permissive ctl k = false)
    (hk : t.elemOfMemory w (itemAddr w d.start k) = s.elemOfMemory w (itemAddr w d.start k)) :
    s.DoneUpTo t w d ctl result (k + 1) := by
  refine ⟨h.1.skip hctl hk, h.2.skip fun e he => ?_⟩
  unfold State.flagsAt at he
  rw [if_neg (by rw [hctl]; exact Bool.false_ne_true)] at he
  exact (Option.some.inj he).symm

theorem State.DoneUpTo.looked {t u : State} {k : Nat} (h : s.DoneUpTo t w d ctl result k) (hl : t.Looked u) :
    s.DoneUpTo u w d ctl result k :=
  ⟨h.1.looked hl, h.2.looked hl⟩

/-- The fields of a vector instruction are such that its elements are told apart. -/
structure State.FieldsClear (s : State) (w : Width) (d : Dest) (ctl : Control) : Prop where
  ok : s.params.ok = true
  fits : d.len * w.bits ≤ 2 ^ s.params.cpmLog
  control : s.controlApart ctl w d.start d.len

/-- The loop of R415 with an element operation that only reads: it ends, stores within its field only and, where the
fields lie apart, as `result` says. -/
theorem vectorLoop_results {f : Nat → M FpResult} {flags : List Nat} {P : Prop} (hmode : s.mode = .monitor)
    (hw : Memory.wf s.mem = true)
    (hf : ∀ k t, k < d.len → s.Within t nothing (vectorFlags flags) (s.inField w d.start k) → Ends (f k) t fun r u =>
      t.Looked u ∧ r.flags.Among flags ∧ (P → r.Matches w (result k))) :
    Ends (vectorLoop w d ctl f) s fun _ t => s.Within t nothing (vectorFlags flags) (s.inField w d.start d.len) ∧
      (P → s.FieldsClear w d ctl → s.DoneUpTo t w d ctl result d.len) := by
  have h47 : 47 ∈ vectorFlags flags := List.mem_cons_self
  refine Ends.vectorLoop (fun k t => s.Within t nothing (vectorFlags flags) (s.inField w d.start k) ∧
      (P → s.FieldsClear w d ctl → s.DoneUpTo t w d ctl result k))
    ⟨State.Within.refl, fun _ _ => ⟨fun j hj => absurd hj (Nat.not_lt_zero j), State.FlagsRaised.zero s _⟩⟩
    fun k t hk ⟨hframe, hdone⟩ => (hf k t hk hframe).mono fun r u ⟨hlook, hamong, hmatch⟩ => ?_
  refine ⟨hlook.mode.trans (hframe.toFrame.mode.trans hmode), fun u' hu' => ?_⟩
  have hlook' : t.Looked u' := hlook.trans (State.Looked.of_breakpoint hu')
  have hframe' : s.Within u' nothing (vectorFlags flags) (s.inField w d.start k) := hframe.looked hlook' h47
  have happart (hc : s.FieldsClear w d ctl) (j : Nat) (hj : j < k) :
      s.elemsApart w (itemAddr w d.start k) w (itemAddr w d.start j) :=
    State.items_apart hc.ok hc.fits d.start hk (Nat.lt_trans hj hk) (Nat.ne_of_gt hj)
  have hperm (hc : s.FieldsClear w d ctl) : u.permissive ctl k = s.permissive ctl k :=
    (hlook.permissive ctl k).trans (hframe.toFrame.permissive_out hw hc.control hk (Nat.le_of_lt hk))
  cases hctl : u.permissive ctl k with
  | true =>
    rw [if_pos rfl]
    refine Ends.bind ⟨_, _, writeElem_monitor (hframe'.toFrame.mode.trans hmode) .., Ends.update ⟨?_, fun hP hc => ?_⟩⟩
    · exact (hframe'.storeItem r.value h47).raiseFlags hamong.vector
    · exact ((hdone hP hc).looked hlook').store (hmatch hP) (hframe'.toFrame.wf hw) hframe'.toFrame.params ((hperm hc).symm.trans hctl)
        (happart hc)
  | false =>
    rw [if_neg Bool.false_ne_true]
    refine ⟨hframe'.mono fun _ ⟨j, hj, hb⟩ => ⟨j, Nat.lt_succ_of_lt hj, hb⟩, fun hP hc => ((hdone hP hc).looked hlook').skip ((hperm hc).symm.trans hctl) ?_⟩
    exact hframe'.toFrame.elem_out hw fun j hj => State.elemsApart_symm (happart hc j hj)

end

end Sys2Proof.Machine
end

