-- ==== Sys2Proof/Proofs/VectorPairs.lean ====
section
/-! PROOFS. The two-source vector instructions #80 to #9D, #D0, #D4 (spec/46_vector.md R421 to R448,
spec/48_vector_macro.md R567, R569, R583). -/

-- One declaration at a time, as in the tests: many at once need a thread each.
set_option Elab.async false

namespace Sys2Proof.Machine

/-! ### The half sum (R583) -/

theorem among_halved (w : Width) (e c : Int) : (halved w e c).flags.Among endFlags := by
  unfold halved
  split
  · exact FpFlags.among_zero (by decide)
  · exact among_finish w _ _

theorem among_fpHalf (w : Width) (x y : Num) : (fpHalf w x y).flags.Among endFlags := by
  unfold fpHalf
  split
  · exact FpFlags.among_ind (by decide)
  · exact FpFlags.among_ind (by decide)
  · exact FpFlags.among_zero (by decide)
  · exact among_halved w _ _
  · exact among_halved w _ _
  · exact among_halved w _ _

theorem among_fpHalfDiff (w : Width) (x y : Num) : (fpHalfDiff w x y).flags.Among endFlags := by
  unfold fpHalfDiff
  split
  · exact FpFlags.among_ind (by decide)
  · exact FpFlags.among_ovf (by decide) (by decide)
  · exact among_fpHalf w _ _

theorem delivers_halved (w : Width) (e c : Int) :
    if c = 0 then IsMachineZero w (halved w e c)
    else ∀ j : Nat, Normalized w (c * (2 ^ j : Nat)) → Delivers w (e - j - 1) (c * (2 ^ j : Nat)) (halved w e c) := by
  unfold halved
  split
  · rfl
  · next hc =>
    intro j hj
    have hb : magnitudeBits c + j = w.n := (magnitudeBits_mul_pow hc j).symm.trans ((normalized_iff w _).mp hj)
    have hk : normCount w.n c = j := by unfold normCount; omega
    rw [hk]
    exact delivers_finish w _ hj.1

theorem asr_shl (c : Int) (n : Nat) : asr (shl c n) n = c := Int.mul_ediv_cancel c (Int.ne_of_gt (two_pow_pos_int n))

theorem halfIs_fpHalf {w : Width} {x y : Num} (hx : x.Ok w) (hy : y.Ok w) : HalfIs w x y (fpHalf w x y) := by
  refine sumIs_intro (result := fun e sum => halved w e (asr sum w.n)) ?_ hx hy fun e sum _ _ hr => ?_
  · unfold fpHalf
    cases zeroAsMz .norm x <;> cases zeroAsMz .norm y <;> simp only [asr_shl]
  · rw [hr, ← asr_eq]
    exact delivers_halved w e _

theorem halfDifferenceIs_fpHalfDiff {w : Width} {x y : Num} (hx : x.Ok w) (hy : y.Ok w) :
    HalfDifferenceIs w x y (fpHalfDiff w x y) :=
  differenceIs_intro (result := fpHalf w x) rfl hy fun z hz hr => by
    rw [hr]
    exact halfIs_fpHalf hx hz

/-! ### Element operations -/

/-- What an element operation on two elements does: it only draws free values, raises flags among `flags` and, where `claim`
names a result, gives it. -/
def ElemOp (w : Width) (f : Word → Word → M FpResult) (flags : List Nat) (claim : Word → Word → Option FpResult) : Prop :=
  ∀ u v t, Ends (f u v) t fun r t' => t.Looked t' ∧ r.flags.Among flags ∧ r.Matches w (claim u v)

theorem ElemOp.pure {w : Width} {op res : Word → Word → FpResult} {flags : List Nat}
    (h : ∀ u v, (op u v).flags.Among flags) (hv : ∀ u v, narrow w (op u v).value = narrow w (res u v).value)
    (hf : ∀ u v, (op u v).flags = (res u v).flags) :
    ElemOp w (fun u v => Pure.pure (op u v)) flags fun u v => some (res u v) := fun u v _ =>
  Ends.pure ⟨State.Looked.refl, h u v, fun x hx => by cases hx; exact ⟨hv u v, hf u v⟩⟩

theorem ElemOp.ofEq {w : Width} {op : Word → Word → FpResult} {flags : List Nat} (h : ∀ u v, (op u v).flags.Among flags) :
    ElemOp w (fun u v => Pure.pure (op u v)) flags fun u v => some (op u v) := ElemOp.pure h (fun _ _ => rfl) fun _ _ => rfl

theorem elemOp_plain {w : Width} (op res : Word → Word → Word) (hv : ∀ u v, narrow w (op u v) = narrow w (res u v)) :
    ElemOp w (fun u v => plain (op u v)) [] fun u v => some ⟨res u v, {}⟩ :=
  ElemOp.pure (op := fun u v => ⟨op u v, {}⟩) (res := fun u v => ⟨res u v, {}⟩) (fun _ _ => FpFlags.among_none) hv fun _ _ => rfl

theorem elemOp_fp {g : Byte} {op : FpOp} (h : op.divides = false) :
    ElemOp (gWidth g) (fpElem op g) endFlags fun u v => some (fpBinary (gWidth g) op (gSign g) u v) :=
  ElemOp.ofEq fun u v => among_fpBinary h (gSign g) u v

theorem elemOp_div (g : Byte) (k : Kind) :
    ElemOp (gWidth g) (fpElem (.div k) g) (41 :: endFlags) fun u v => some (fpBinary (gWidth g) (.div k) (gSign g) u v) :=
  ElemOp.ofEq fun u v => among_fpBinary_div (gWidth g) k (gSign g) u v

theorem elemOp_logic (g : Byte) (f : Word → Word → Word) :
    ElemOp (gWidth g) (logicElem f g) [] fun u v => some ⟨f u v, {}⟩ :=
  elemOp_plain (fun u v => narrow (gWidth g) (f u v)) f fun _ _ => narrow_narrow ..

theorem elemOp_pack (g : Byte) : ElemOp (gWidth g) (packElem g) [] fun u v => some ⟨fpPack (gWidth g) u v, {}⟩ :=
  elemOp_plain (fpPack (gWidth g)) _ fun _ _ => rfl

theorem elemOp_adje (g : Byte) : ElemOp (gWidth g) (adjeElem g) [42, 46] fun u v =>
    some (fpAdje (gWidth g) (unpack (gWidth g) u) (unpack (gWidth g) v)) :=
  ElemOp.ofEq fun u v => among_fpAdje (gWidth g) (unpack (gWidth g) u) (unpack (gWidth g) v)

theorem elemOp_addx : ElemOp .w64 addxElem [] fun u v => some ⟨lenPart u ++ (addrPart u + addrPart v), {}⟩ :=
  elemOp_plain (fun u v => joinLen (lenPart u) (addrPart u + addrPart v)) _ fun _ _ => rfl

theorem elemOp_subx : ElemOp .w64 subxElem [] fun u v => some ⟨lenPart u ++ (addrPart u - addrPart v), {}⟩ :=
  elemOp_plain (fun u v => joinLen (lenPart u) (addrPart u - addrPart v)) _ fun _ _ => rfl

theorem elemOp_shift : ElemOp .w64 shiftElem [] fun u v =>
    if (v.extractLsb' 0 8).toNat ≤ 0x3F then some ⟨u.rotateLeft (v.extractLsb' 0 8).toNat, {}⟩
    else if 0xC1 ≤ (v.extractLsb' 0 8).toNat then some ⟨u.sshiftRight (256 - (v.extractLsb' 0 8).toNat), {}⟩ else none := by
  intro u v t
  unfold shiftElem
  dsimp only
  generalize (v.extractLsb' 0 8).toNat = n
  have hsome (x : Word) : Ends (plain x) t fun r t' => t.Looked t' ∧ r.flags.Among [] ∧ r.Matches .w64 (some ⟨x, {}⟩) :=
    Ends.pure ⟨State.Looked.refl, FpFlags.among_none, .of_eq fun _ hx => Option.some.inj hx⟩
  rcases Nat.lt_or_ge 0x3F n with h1 | h1
  · rw [if_neg (Nat.not_le.mpr h1)]
    rcases Nat.lt_or_ge n 0xC1 with h2 | h2
    · rw [if_neg (Nat.not_le.mpr h2), shiftWord_none u h1 (Nat.le_of_lt_succ h2)]
      exact Ends.bind (Ends.drawFree (Ends.pure ⟨State.Looked.refl.draw _, FpFlags.among_none, fun _ h => by cases h⟩))
    · rw [if_pos h2, shiftWord_right u h2]
      exact hsome _
  · rw [if_pos h1, shiftWord_left u h1]
    exact hsome _

theorem among_freeFlagsOf (w : Width) (v choice : Word) : (freeFlagsOf w v choice).Among endFlags := by
  unfold freeFlagsOf
  split
  · exact ⟨nofun, fun _ => by decide, nofun, nofun, fun _ => by decide⟩
  · exact FpFlags.among_zero (by decide)
  · exact FpFlags.among_none

theorem elemOp_adjs (g : Byte) : ElemOp (gWidth g) (adjsElem g) endFlags fun u v =>
    fpAdjs (gWidth g) u (coefOf (gWidth g) v) := by
  intro u v t
  unfold adjsElem
  dsimp only
  cases h : fpAdjs (gWidth g) u (coefOf (gWidth g) v) with
  | some r => exact Ends.pure ⟨State.Looked.refl, among_fpAdjs h, .of_eq fun x hx => Option.some.inj hx⟩
  | none =>
    refine Ends.bind (Ends.bind (Ends.drawFree (Ends.pure (Ends.bind (Ends.drawFree (Ends.pure
      ⟨(State.Looked.refl.draw _).draw _, among_freeFlagsOf .., fun _ hx => by cases hx⟩))))))

theorem elemOp_avg (g : Byte) : ElemOp (gWidth g)
    (fun p q => Pure.pure (fpHalf (gWidth g) (unpack (gWidth g) p) (unpack (gWidth g) q))) endFlags fun u v =>
    some (fpHalf (gWidth g) (unpack (gWidth g) u) (unpack (gWidth g) v)) :=
  ElemOp.ofEq fun _ _ => among_fpHalf ..

theorem elemOp_avgd (g : Byte) : ElemOp (gWidth g)
    (fun p q => Pure.pure (fpHalfDiff (gWidth g) (unpack (gWidth g) p) (unpack (gWidth g) q))) endFlags fun u v =>
    some (fpHalfDiff (gWidth g) (unpack (gWidth g) u) (unpack (gWidth g) v)) :=
  ElemOp.ofEq fun _ _ => among_fpHalfDiff ..

/-! ### The instructions -/

/-- A vector instruction whose computation ends within its frame completes. -/
theorem vectorCompletes_of_ends {i : Instr} {s : State} {m : M Unit} {w : Width} {o : Bool} {c : Byte} {flags : List Nat}
    {Q : State → Prop} (he : exec i s = run64 m s) (hw : Memory.wf s.mem = true)
    (h : Ends m s fun _ t => s.Within t nothing (vectorFlags flags) (s.inField w (s.destOf w o c).start (s.destOf w o c).len) ∧ Q t) :
    VectorCompletes i s w o c flags ∧ ∃ t, exec i s = .next t.next64 ∧ Q t := by
  obtain ⟨_, t, ht, hf, hq⟩ := h
  have hx : exec i s = .next t.next64 := he.trans (run64_of_ok ht)
  exact ⟨hf.completes64 hw hx trivial, t, hx, hq⟩

theorem elementsStored_of_done {i : Instr} {s t : State} {w : Width} {d : Dest} {ctl : Control}
    {result : Nat → Option FpResult} (he : exec i s = .next t.next64) (h : s.DoneUpTo t w d ctl result d.len) :
    ElementsStored i s w d ctl result := ⟨t.next64, he, h.1, h.2⟩

section
variable {s : State} {g x a y b z c : Byte}

/-- A two-source vector instruction: what it completes with and what it stores. -/
theorem vector2_results {w : Width} {ext : Word} {f : Word → Word → M FpResult} {flags : List Nat}
    {claim : Word → Word → Option FpResult} {i : Instr} (hi : exec i s = vector2 w ext f g x a y b z c s)
    (hop : ElemOp w f flags claim) (hm : s.mode = .monitor) (hw : Memory.wf s.mem = true) (hx : s.sourceOk (bitAt g 3) x)
    (hy : s.sourceOk (bitAt g 4) y) (hc : s.destOk (bitAt g 2) c) :
    let d := s.destOf w (bitAt g 2) c
    let p := s.streamOf w (bitAt g 3) a x
    let q := s.streamOf w (bitAt g 4) b y
    VectorCompletes i s w (bitAt g 2) c flags ∧
    (s.params.ok = true → d.len * w.bits ≤ 2 ^ s.params.cpmLog → s.apart p w w d.start d.len → s.apart q w w d.start d.len →
      s.controlApart (s.control g z d.off) w d.start d.len →
      ElementsStored i s w d (s.control g z d.off) fun k => claim (s.streamElem p w ext k) (s.streamElem q w ext k)) := by
  intro d p q
  have hloop := vectorLoop_results (s := s) (w := w) (d := d) (ctl := s.control g z d.off)
    (result := fun k => claim (s.streamElem p w ext k) (s.streamElem q w ext k))
    (f := fun k => do f (← p.elem w ext k) (← q.elem w ext k)) (flags := flags)
    (P := s.apart p w w d.start d.len ∧ s.apart q w w d.start d.len) hm hw fun k t hk hframe => by
      refine Ends.bind (Ends.elem (hframe.toFrame.mode.trans hm) fun t1 h1 => ?_)
      have hl1 := State.Looked.of_breakpoint h1
      refine Ends.bind (Ends.elem (hl1.mode.trans (hframe.toFrame.mode.trans hm)) fun t2 h2 => ?_)
      have hl2 := hl1.trans (State.Looked.of_breakpoint h2)
      refine (hop _ _ t2).mono fun r t3 ⟨hl3, hamong, hmatch⟩ => ⟨hl2.trans hl3, hamong, fun hap => ?_⟩
      rwa [hl1.streamElem, hframe.toFrame.streamElem_out hw hap.1 (Nat.le_of_lt hk),
        hframe.toFrame.streamElem_out hw hap.2 (Nat.le_of_lt hk)] at hmatch
  obtain ⟨hcomp, t, ht, hdone⟩ := vectorCompletes_of_ends hi hw (Ends.bind ⟨_, _, source_ok w a hx,
    Ends.bind ⟨_, _, source_ok w b hy, Ends.bind ⟨_, _, dest_ok w hc, hloop⟩⟩⟩)
  exact ⟨hcomp, fun hok hfit hp hq hctl => elementsStored_of_done ht (hdone ⟨hp, hq⟩ ⟨hok, hfit, hctl⟩)⟩

end

end Sys2Proof.Machine

namespace Sys2Proof
open Machine

/-- Settles O44. -/
theorem vectorTwoSource : Obligations.VectorTwoSource := by
  intro s g x a y b z c hm hw hx hy hc
  simp only [List.forall_mem_cons]
  exact ⟨(vector2_results (i := .adduv g x a y b z c) rfl (elemOp_fp rfl) hm hw hx hy hc).1,
      (vector2_results (i := .addlv g x a y b z c) rfl (elemOp_fp rfl) hm hw hx hy hc).1,
      (vector2_results (i := .addnv g x a y b z c) rfl (elemOp_fp rfl) hm hw hx hy hc).1,
      (vector2_results (i := .addxv g x a y b z c) rfl elemOp_addx hm hw hx hy hc).1,
      (vector2_results (i := .subuv g x a y b z c) rfl (elemOp_fp rfl) hm hw hx hy hc).1,
      (vector2_results (i := .sublv g x a y b z c) rfl (elemOp_fp rfl) hm hw hx hy hc).1,
      (vector2_results (i := .subnv g x a y b z c) rfl (elemOp_fp rfl) hm hw hx hy hc).1,
      (vector2_results (i := .subxv g x a y b z c) rfl elemOp_subx hm hw hx hy hc).1,
      (vector2_results (i := .mpyuv g x a y b z c) rfl (elemOp_fp rfl) hm hw hx hy hc).1,
      (vector2_results (i := .mpylv g x a y b z c) rfl (elemOp_fp rfl) hm hw hx hy hc).1,
      (vector2_results (i := .mpysv g x a y b z c) rfl (elemOp_fp rfl) hm hw hx hy hc).1,
      (vector2_results (i := .shiftv g x a y b z c) rfl elemOp_shift hm hw hx hy hc).1,
      (vector2_results (i := .divuv g x a y b z c) rfl (elemOp_div g .upper) hm hw hx hy hc).1,
      (vector2_results (i := .divsv g x a y b z c) rfl (elemOp_div g .signif) hm hw hx hy hc).1,
      (vector2_results (i := .adjsv g x a y b z c) rfl (elemOp_adjs g) hm hw hx hy hc).1,
      (vector2_results (i := .adjev g x a y b z c) rfl (elemOp_adje g) hm hw hx hy hc).1,
      (vector2_results (i := .packv g x a y b z c) rfl (elemOp_pack g) hm hw hx hy hc).1,
      (vector2_results (i := .xorv g x a y b z c) rfl (elemOp_logic g fun u v => u ^^^ v) hm hw hx hy hc).1,
      (vector2_results (i := .andv g x a y b z c) rfl (elemOp_logic g fun u v => u &&& v) hm hw hx hy hc).1,
      (vector2_results (i := .iorv g x a y b z c) rfl (elemOp_logic g fun u v => u ||| v) hm hw hx hy hc).1,
      (vector2_results (i := .nandv g x a y b z c) rfl (elemOp_logic g fun u v => ~~~(u &&& v)) hm hw hx hy hc).1,
      (vector2_results (i := .norv g x a y b z c) rfl (elemOp_logic g fun u v => ~~~(u ||| v)) hm hw hx hy hc).1,
      (vector2_results (i := .ornv g x a y b z c) rfl (elemOp_logic g fun u v => u ||| ~~~v) hm hw hx hy hc).1,
      (vector2_results (i := .andnv g x a y b z c) rfl (elemOp_logic g fun u v => u &&& ~~~v) hm hw hx hy hc).1,
      (vector2_results (i := .xornv g x a y b z c) rfl (elemOp_logic g fun u v => ~~~(u ^^^ v)) hm hw hx hy hc).1,
      (vector2_results (i := .avg g x a y b z c) rfl (elemOp_avg g) hm hw hx hy hc).1,
      (vector2_results (i := .avgd g x a y b z c) rfl (elemOp_avgd g) hm hw hx hy hc).1,
      fun _ h => by cases h⟩

/-- Settles O46. -/
theorem vectorElements : Obligations.VectorElements := by
  refine ⟨fun s g x a y b z c hm hw hok hx hy hc => ?_, fun s g x a y b z c hm hw hok hx hy hc => ?_, fun w x y =>
      ⟨halfIs_fpHalf (unpack_ok w x) (unpack_ok w y), halfDifferenceIs_fpHalfDiff (unpack_ok w x) (unpack_ok w y)⟩⟩
  · intro w d p q fp hfit hp hq hctl
    simp only [List.forall_mem_cons]
    exact ⟨(vector2_results (i := .adduv g x a y b z c) rfl (elemOp_fp rfl) hm hw hx hy hc).2 hok hfit hp hq hctl,
      (vector2_results (i := .addlv g x a y b z c) rfl (elemOp_fp rfl) hm hw hx hy hc).2 hok hfit hp hq hctl,
      (vector2_results (i := .addnv g x a y b z c) rfl (elemOp_fp rfl) hm hw hx hy hc).2 hok hfit hp hq hctl,
      (vector2_results (i := .subuv g x a y b z c) rfl (elemOp_fp rfl) hm hw hx hy hc).2 hok hfit hp hq hctl,
      (vector2_results (i := .sublv g x a y b z c) rfl (elemOp_fp rfl) hm hw hx hy hc).2 hok hfit hp hq hctl,
      (vector2_results (i := .subnv g x a y b z c) rfl (elemOp_fp rfl) hm hw hx hy hc).2 hok hfit hp hq hctl,
      (vector2_results (i := .mpyuv g x a y b z c) rfl (elemOp_fp rfl) hm hw hx hy hc).2 hok hfit hp hq hctl,
      (vector2_results (i := .mpylv g x a y b z c) rfl (elemOp_fp rfl) hm hw hx hy hc).2 hok hfit hp hq hctl,
      (vector2_results (i := .mpysv g x a y b z c) rfl (elemOp_fp rfl) hm hw hx hy hc).2 hok hfit hp hq hctl,
      (vector2_results (i := .divuv g x a y b z c) rfl (elemOp_div g .upper) hm hw hx hy hc).2 hok hfit hp hq hctl,
      (vector2_results (i := .divsv g x a y b z c) rfl (elemOp_div g .signif) hm hw hx hy hc).2 hok hfit hp hq hctl,
      (vector2_results (i := .adjev g x a y b z c) rfl (elemOp_adje g) hm hw hx hy hc).2 hok hfit hp hq hctl,
      (vector2_results (i := .packv g x a y b z c) rfl (elemOp_pack g) hm hw hx hy hc).2 hok hfit hp hq hctl,
      (vector2_results (i := .xorv g x a y b z c) rfl (elemOp_logic g fun u v => u ^^^ v) hm hw hx hy hc).2 hok hfit hp hq hctl,
      (vector2_results (i := .andv g x a y b z c) rfl (elemOp_logic g fun u v => u &&& v) hm hw hx hy hc).2 hok hfit hp hq hctl,
      (vector2_results (i := .iorv g x a y b z c) rfl (elemOp_logic g fun u v => u ||| v) hm hw hx hy hc).2 hok hfit hp hq hctl,
      (vector2_results (i := .nandv g x a y b z c) rfl (elemOp_logic g fun u v => ~~~(u &&& v)) hm hw hx hy hc).2 hok hfit hp hq hctl,
      (vector2_results (i := .norv g x a y b z c) rfl (elemOp_logic g fun u v => ~~~(u ||| v)) hm hw hx hy hc).2 hok hfit hp hq hctl,
      (vector2_results (i := .ornv g x a y b z c) rfl (elemOp_logic g fun u v => u ||| ~~~v) hm hw hx hy hc).2 hok hfit hp hq hctl,
      (vector2_results (i := .andnv g x a y b z c) rfl (elemOp_logic g fun u v => u &&& ~~~v) hm hw hx hy hc).2 hok hfit hp hq hctl,
      (vector2_results (i := .xornv g x a y b z c) rfl (elemOp_logic g fun u v => ~~~(u ^^^ v)) hm hw hx hy hc).2 hok hfit hp hq hctl,
      fun _ h => by cases h⟩
  · simp only [List.forall_mem_cons]
    exact ⟨(vector2_results (i := .addxv g x a y b z c) rfl elemOp_addx hm hw hx hy hc).2 hok,
      (vector2_results (i := .subxv g x a y b z c) rfl elemOp_subx hm hw hx hy hc).2 hok,
      (vector2_results (i := .shiftv g x a y b z c) rfl elemOp_shift hm hw hx hy hc).2 hok,
      (vector2_results (i := .adjsv g x a y b z c) rfl (elemOp_adjs g) hm hw hx hy hc).2 hok,
      (vector2_results (i := .avg g x a y b z c) rfl (elemOp_avg g) hm hw hx hy hc).2 hok,
      (vector2_results (i := .avgd g x a y b z c) rfl (elemOp_avgd g) hm hw hx hy hc).2 hok,
      fun _ h => by cases h⟩

end Sys2Proof
end

