-- ==== Sys2Proof/Proofs/VectorSingles.lean ====
section
/-! PROOFS. The vector instructions with one source or none: #90 to #9C, #B8, #D1, #D5, #DF (spec/46_vector.md R435 to
R447, spec/47_sparse_compare_index.md R509, spec/48_vector_macro.md R568, R570, R576). -/

-- One declaration at a time, as in the tests: many at once need a thread each.
set_option Elab.async false

namespace Sys2Proof.Machine

variable {s : State} {g x a b z c : Byte}

theorem Ends.plain {v : Word} {Q : FpResult → State → Prop} (h : Q ⟨v, {}⟩ s) : Ends (plain v) s Q := Ends.pure h

/-! ### A loop over elements that are only read -/

/-- An instruction that comes down to the loop of R415. -/
theorem loop_results {i : Instr} {m : M Unit} {w : Width} {o : Bool} {ctl : Control} {f : Nat → M FpResult}
    {flags : List Nat} {result : Nat → FpResult} {P : Prop} (he : exec i s = run64 m s)
    (hl : m s = vectorLoop w (s.destOf w o c) ctl f s) (hmode : s.mode = .monitor) (hw : Memory.wf s.mem = true)
    (hf : ∀ k t, k < (s.destOf w o c).len →
      s.Within t nothing (vectorFlags flags) (s.inField w (s.destOf w o c).start k) → Ends (f k) t fun r u =>
        t.Looked u ∧ r.flags.Among flags ∧ (P → r.Matches w (some (result k)))) :
    VectorCompletes i s w o c flags ∧
    (P → s.FieldsClear w (s.destOf w o c) ctl → ElementsStored i s w (s.destOf w o c) ctl fun k => some (result k)) := by
  obtain ⟨r, t, ht, hpost⟩ := vectorLoop_results (ctl := ctl) (result := fun k => some (result k)) hmode hw hf
  obtain ⟨hcomp, u, hu, hdone⟩ := vectorCompletes_of_ends (w := w) (o := o) (c := c) (flags := flags)
    (Q := fun t => P → s.FieldsClear w (s.destOf w o c) ctl → s.DoneUpTo t w (s.destOf w o c) ctl (fun k => some (result k)) _)
    he hw ⟨r, t, hl.trans ht, hpost⟩
  exact ⟨hcomp, fun hP hc => elementsStored_of_done hu (hdone hP hc)⟩

/-- A one-source instruction with an operation on one element. -/
theorem vector1_results {wa wc : Width} {op claim : Word → FpResult} {flags : List Nat} {i : Instr}
    (hi : exec i s = vector1 wa wc (fun u => pure (op u)) g x a z c s) (ha : ∀ u, (op u).flags.Among flags)
    (hop : ∀ u, op u = claim u) (hm : s.mode = .monitor) (hw : Memory.wf s.mem = true) (hx : s.sourceOk (bitAt g 3) x)
    (hc : s.destOk (bitAt g 2) c) :
    let d := s.destOf wc (bitAt g 2) c
    let p := s.streamOf wa (bitAt g 3) a x
    VectorCompletes i s wc (bitAt g 2) c flags ∧
    (s.params.ok = true → d.len * wc.bits ≤ 2 ^ s.params.cpmLog → s.apart p wa wc d.start d.len →
      s.controlApart (s.control g z d.off) wc d.start d.len →
      ElementsStored i s wc d (s.control g z d.off) fun k => some (claim (s.streamElem p wa (machineZero wa) k))) := by
  intro d p
  have h := loop_results (ctl := s.control g z d.off) (flags := flags)
    (result := fun k => claim (s.streamElem p wa (machineZero wa) k)) (P := s.apart p wa wc d.start d.len) hi
    ((bind_ok (source_ok wa a hx)).trans (bind_ok (dest_ok wc hc))) hm hw fun k t hk hframe => by
      refine Ends.bind (Ends.elem (hframe.toFrame.mode.trans hm) fun t1 h1 => Ends.pure
        ⟨State.Looked.of_breakpoint h1, ha _, fun hap => .of_eq fun r hr => ?_⟩)
      rw [hframe.toFrame.streamElem_out hw hap (Nat.le_of_lt hk), hop]
      exact Option.some.inj hr
  exact ⟨h.1, fun hok hfit hp hctl => h.2 hp ⟨hok, hfit, hctl⟩⟩

/-! ### The values of the element operations -/

theorem fpExp_eq (w : Width) (u : Word) : fpExp w u = match w with
    | .w64 => 0#16 ++ BitVec.ofInt 48 (expOf .w64 u)
    | .w32 => 0#40 ++ BitVec.ofInt 24 (expOf .w32 u) := by
  cases w <;> rfl

theorem fpBinary_unsigned_add (w : Width) (k : Kind) (u v : Word) :
    fpBinary w (.add k) {} u v = fpAdd w k (unpack w u) (unpack w v) := rfl

theorem fpBinary_unsigned_sub (w : Width) (k : Kind) (u v : Word) :
    fpBinary w (.sub k) {} u v = fpSub w k (unpack w u) (unpack w v) := rfl

/-! ### Transmit reverse, adjacent mean, delta -/

section
variable (hm : s.mode = .monitor) (hw : Memory.wf s.mem = true) (hx : s.sourceOk false x) (hc : s.destOk (bitAt g 2) c)
include hm hw hx hc

theorem vrevv_results :
    let w := gWidth g
    let d := s.destOf w (bitAt g 2) c
    let p := s.streamOf w false a x
    let len := s.len a - s.offsetOf x
    VectorCompletes (.vrevv g x a z c) s w (bitAt g 2) c [] ∧
    (s.apart p w w d.start d.len → s.FieldsClear w d (s.control g z d.off) →
      ElementsStored (.vrevv g x a z c) s w d (s.control g z d.off) fun i =>
        some ⟨if i < len then s.streamElem p w (machineZero w) (len - 1 - i) else machineZero w, {}⟩) := by
  intro w d p len
  refine loop_results (P := s.apart p w w d.start d.len) rfl
    ((bind_ok (offset_ok (hx.resolve_left Bool.false_ne_true))).trans (bind_ok (dest_ok w hc))) hm hw fun k t hk hframe => ?_
  have hmt := hframe.toFrame.mode.trans hm
  have hlen : s.len a - s.offsetOf x = len := rfl
  by_cases hi : k < len
  · have hpos : len - 1 - k < len := by omega
    have hst (u : State) : u.streamElem p w (machineZero w) (len - 1 - k) =
        u.elemOfMemory w (itemAddr w (itemAddr w (s.addr a) (s.offsetOf x)) (len - 1 - k)) := if_pos hpos
    simp only [hlen, hi, if_true]
    refine Ends.bind ⟨_, _, readElem_monitor hmt w _, Ends.plain
      ⟨State.Looked.refl.breakpoint _, FpFlags.among_none, fun hap => .of_eq fun r hr => ?_⟩⟩
    rw [← hframe.toFrame.streamElem_out hw hap (Nat.le_of_lt hk), hst] at hr
    exact Option.some.inj hr
  · simp only [hlen, hi, if_false]
    exact Ends.plain ⟨State.Looked.refl, FpFlags.among_none, fun _ => .of_eq fun r hr => Option.some.inj hr⟩

theorem adjacent_results {f : Width → Num → Num → FpResult} {claim : Word → Word → FpResult} {i : Instr}
    (hi : exec i s = adjacent f g x a z c s) (hf : ∀ p q, (f (gWidth g) p q).flags.Among endFlags)
    (hcl : ∀ u v, f (gWidth g) (unpack (gWidth g) u) (unpack (gWidth g) v) = claim u v) :
    let w := gWidth g
    let d := s.destOf w (bitAt g 2) c
    let p := s.streamOf w false a x
    VectorCompletes i s w (bitAt g 2) c endFlags ∧
    (s.apart p w w d.start d.len → s.FieldsClear w d (s.control g z d.off) →
      ElementsStored i s w d (s.control g z d.off) fun k =>
        some (claim (s.streamElem p w (machineZero w) (k + 1)) (s.streamElem p w (machineZero w) k))) := by
  intro w d p
  refine loop_results (P := s.apart p w w d.start d.len) hi
    ((bind_ok (source_ok w a hx)).trans (bind_ok (dest_ok w hc))) hm hw fun k t hk hframe => ?_
  have hmt := hframe.toFrame.mode.trans hm
  refine Ends.bind (Ends.elem hmt fun t1 h1 => Ends.bind (Ends.elem ?_ fun t2 h2 => Ends.pure ⟨?_, hf _ _, fun hap =>
    .of_eq fun r hr => ?_⟩))
  · exact (State.Looked.of_breakpoint h1).mode.trans hmt
  · exact (State.Looked.of_breakpoint h1).trans (State.Looked.of_breakpoint h2)
  · rw [(State.Looked.of_breakpoint h1).streamElem, hframe.toFrame.streamElem_out hw hap (Nat.le_of_lt hk),
      hframe.toFrame.streamElem_out hw hap (Nat.le_of_lt hk), hcl]
    exact Option.some.inj hr

end

/-! ### Interval (R576) -/

theorem arithmeticFlags_or (e f : FpFlags) : ∀ p ∈ arithmeticFlags, p.1 (e.or f) = (p.1 e || p.1 f) := by
  simp [arithmeticFlags, FpFlags.or]

theorem among_or {e f : FpFlags} {flags : List Nat} (he : e.Among flags) (hf : f.Among flags) : (e.or f).Among flags :=
  ⟨fun h => (Bool.or_eq_true_iff.mp h).elim he.divide hf.divide, fun h => (Bool.or_eq_true_iff.mp h).elim he.overflow hf.overflow,
    fun h => (Bool.or_eq_true_iff.mp h).elim he.zero hf.zero, fun h => (Bool.or_eq_true_iff.mp h).elim he.root hf.root,
    fun h => (Bool.or_eq_true_iff.mp h).elim he.indefinite hf.indefinite⟩

/-- The flags behind `k` positions: those of each step that a permitted position follows are raised, the others pend. -/
def State.Pending (s t : State) (perm : Nat → Bool) (step : Nat → FpFlags) (pend : FpFlags) (k : Nat) : Prop :=
  ∀ p ∈ arithmeticFlags,
    (bitAt t.dfr p.2 = true ↔ bitAt s.dfr p.2 = true ∨ ∃ i j, i ≤ j ∧ j < k ∧ perm j = true ∧ p.1 (step i) = true) ∧
    (p.1 pend = true ↔ ∃ i, i < k ∧ p.1 (step i) = true ∧ ∀ j, i ≤ j → j < k → perm j = false)

section
variable {t u : State} {perm : Nat → Bool} {step : Nat → FpFlags} {pend : FpFlags} {k : Nat}

theorem State.Pending.zero : s.Pending s perm step {} 0 := fun p hp =>
  ⟨⟨.inl, fun h => h.elim id fun ⟨_, _, _, hj, _⟩ => absurd hj (Nat.not_lt_zero _)⟩,
    ⟨fun h => absurd ((arithmeticFlags_none p hp).symm.trans h) Bool.false_ne_true, fun ⟨_, hi, _⟩ => absurd hi (Nat.not_lt_zero _)⟩⟩

/-- What pends at the next position. -/
theorem State.Pending.pend_succ (h : s.Pending t perm step pend k) : ∀ p ∈ arithmeticFlags,
    p.1 (pend.or (step k)) = true ↔ ∃ i, i ≤ k ∧ p.1 (step i) = true ∧ ∀ j, i ≤ j → j < k → perm j = false := by
  intro p hp
  rw [arithmeticFlags_or pend (step k) p hp, Bool.or_eq_true, (h p hp).2]
  constructor
  · rintro (⟨i, hi, hs, hn⟩ | hs)
    · exact ⟨i, Nat.le_of_lt hi, hs, hn⟩
    · exact ⟨k, Nat.le_refl k, hs, fun j h1 h2 => absurd h2 (Nat.not_lt.mpr h1)⟩
  · rintro ⟨i, hi, hs, hn⟩
    rcases Nat.lt_or_eq_of_le hi with hi | rfl
    · exact .inl ⟨i, hi, hs, hn⟩
    · exact .inr hs

theorem State.Pending.skip (h : s.Pending t perm step pend k) (hk : perm k = false)
    (hd : ∀ j, j < 64 → j ≠ 47 → j ∉ derivedBits → bitAt u.dfr j = bitAt t.dfr j) :
    s.Pending u perm step (pend.or (step k)) (k + 1) := by
  intro p hp
  obtain ⟨h1, h2, h3⟩ := arithmeticFlags_plain p hp
  rw [hd p.2 h1 h2 h3, (h p hp).1, h.pend_succ p hp]
  refine ⟨or_congr_right ⟨fun ⟨i, j, hij, hj, hs⟩ => ⟨i, j, hij, Nat.lt_succ_of_lt hj, hs⟩, fun ⟨i, j, hij, hj, hpj, hs⟩ => ?_⟩,
    exists_congr fun i => and_congr Nat.lt_succ_iff.symm (and_congr_right fun _ => forall_congr' fun j => ?_)⟩
  · rcases Nat.lt_succ_iff_lt_or_eq.mp hj with hj | rfl
    · exact ⟨i, j, hij, hj, hpj, hs⟩
    · rw [hk] at hpj
      cases hpj
  · refine forall_congr' fun _ => ⟨fun hn hj => ?_, fun hn hj => hn (Nat.lt_succ_of_lt hj)⟩
    rcases Nat.lt_succ_iff_lt_or_eq.mp hj with hj | rfl
    · exact hn hj
    · exact hk

theorem State.Pending.store (h : s.Pending t perm step pend k) (hk : perm k = true)
    (hd : ∀ j, j < 64 → j ≠ 47 → j ∉ derivedBits → bitAt u.dfr j = bitAt t.dfr j) :
    s.Pending (u.raiseFlags .vector (pend.or (step k))) perm step {} (k + 1) := by
  intro p hp
  obtain ⟨h1, h2, h3⟩ := arithmeticFlags_plain p hp
  have hbit : bitAt (u.raiseFlags .vector (pend.or (step k))).dfr p.2 = (bitAt t.dfr p.2 || p.1 (pend.or (step k))) := by
    rw [State.raiseFlags_dfr, bitAt_deriveDfr_stored _ h1 h3, bitAt_or, bitAt_raisedBits_vector _ p hp, hd p.2 h1 h2 h3]
  rw [hbit, Bool.or_eq_true, (h p hp).1, h.pend_succ p hp, arithmeticFlags_none p hp]
  refine ⟨⟨?_, ?_⟩, fun hc => absurd hc Bool.false_ne_true, fun ⟨i, hi, _, hn⟩ => ?_⟩
  · rintro ((hs | ⟨i, j, hij, hj, hs⟩) | ⟨i, hi, hs, -⟩)
    · exact .inl hs
    · exact .inr ⟨i, j, hij, Nat.lt_succ_of_lt hj, hs⟩
    · exact .inr ⟨i, k, hi, Nat.lt_succ_self k, hk, hs⟩
  · rintro (hs | ⟨i, j, hij, hj, hpj, hs⟩)
    · exact .inl (.inl hs)
    · by_cases hq : ∃ l, i ≤ l ∧ l < k ∧ perm l = true
      · obtain ⟨l, hil, hlk, hpl⟩ := hq
        exact .inl (.inr ⟨i, l, hil, hlk, hpl, hs⟩)
      · exact .inr ⟨i, Nat.le_trans hij (Nat.lt_succ_iff.mp hj), hs, fun l hil hlk => Bool.eq_false_iff.mpr fun hpl => hq ⟨l, hil, hlk, hpl⟩⟩
  · exact absurd ((hn k (Nat.lt_succ_iff.mp hi) (Nat.lt_succ_self k)).symm.trans hk) Bool.false_ne_true

/-- At the end exactly the flags of the steps that a stored element follows are raised. -/
theorem State.Pending.flagsRaised {n : Nat} (h : s.Pending t perm step pend n) {raised : Nat → Option FpFlags}
    (hr : ∀ i, i < n → raised i = some (if (List.range n).any (fun j => decide (i ≤ j) && perm j) = true then step i else {})) :
    s.FlagsRaised t n raised := by
  have hany (i : Nat) : (List.range n).any (fun j => decide (i ≤ j) && perm j) = true ↔ ∃ j, i ≤ j ∧ j < n ∧ perm j = true := by
    simp only [List.any_eq_true, List.mem_range, Bool.and_eq_true, decide_eq_true_eq]
    exact exists_congr fun j => and_left_comm
  intro p hp
  rw [(h p hp).1]
  refine ⟨fun hs => hs.imp id fun ⟨i, f, hi, hf, hpf⟩ => ?_, fun hu => hu.imp id fun ⟨i, j, hij, hj, hpj, hs⟩ => ?_⟩
  · rw [hr i hi] at hf
    cases hf
    by_cases ha : (List.range n).any (fun j => decide (i ≤ j) && perm j) = true
    · rw [if_pos ha] at hpf
      obtain ⟨j, hij, hj, hpj⟩ := (hany i).mp ha
      exact ⟨i, j, hij, hj, hpj, hpf⟩
    · rw [if_neg ha, arithmeticFlags_none p hp] at hpf
      cases hpf
  · have hi : i < n := Nat.lt_of_le_of_lt hij hj
    refine ⟨i, hi, fun f hf => ?_⟩
    rw [hr i hi, if_pos ((hany i).mpr ⟨j, hij, hj, hpj⟩)] at hf
    cases hf
    exact hs

end

/-- The result of one step of interval. -/
def State.intervalNext (s : State) (g b : Byte) (v : Word) : FpResult := fpBinary (gWidth g) (.add .upper) {} v (s.regW (gWidth g) b)

/-- The constant with the step added `i` times. -/
def State.intervalValue (s : State) (g a b : Byte) (i : Nat) : Word :=
  (List.range i).foldl (fun v _ => (s.intervalNext g b v).value) (if a = 0 then machineZero (gWidth g) else s.regW (gWidth g) a)

/-- The result at position `i`. -/
def State.intervalAt (s : State) (g a b : Byte) (i : Nat) : FpResult :=
  if i = 0 then ⟨s.intervalValue g a b 0, {}⟩ else s.intervalNext g b (s.intervalValue g a b (i - 1))

theorem State.intervalAt_value (s : State) (g a b : Byte) (i : Nat) : (s.intervalAt g a b i).value = s.intervalValue g a b i := by
  cases i with
  | zero => rfl
  | succ i =>
    unfold State.intervalValue
    rw [List.range_succ, List.foldl_append]
    rfl

theorem State.intervalAt_pos (s : State) (g a b : Byte) {i : Nat} (h : i ≠ 0) :
    s.intervalAt g a b i = s.intervalNext g b (s.intervalValue g a b (i - 1)) := if_neg h

theorem among_intervalAt (s : State) (g a b : Byte) (i : Nat) : (s.intervalAt g a b i).flags.Among endFlags := by
  unfold State.intervalAt
  split
  · exact FpFlags.among_none
  · exact among_fpBinary (op := .add .upper) rfl {} _ _

theorem interval_results (hm : s.mode = .monitor) (hw : Memory.wf s.mem = true) (hc : s.destOk (bitAt g 2) c) :
    let w := gWidth g
    let d := s.destOf w (bitAt g 2) c
    let ctl := s.control g z d.off
    VectorCompletes (.interval g a b z c) s w (bitAt g 2) c endFlags ∧
    ∃ u, exec (.interval g a b z c) s = .next u ∧ (s.FieldsClear w d ctl →
      s.ElementsAre u w d ctl (fun i => some (s.intervalValue g a b i)) ∧
      ∃ pend, s.Pending u (s.permissive ctl) (fun i => (s.intervalAt g a b i).flags) pend d.len) := by
  intro w d ctl
  have h47 : 47 ∈ vectorFlags endFlags := List.mem_cons_self
  have hloop := Ends.elements (s := s) (x := (s.intervalValue g a b 0, ({} : FpFlags)))
    (b := fun i (k : Word × FpFlags) => do
      let r := if i = 0 then ⟨k.1, {}⟩ else fpBinary w (.add .upper) {} k.1 (s.regW w b)
      let pend := k.2.or r.flags
      if ← ctl.permits i then
        storeElem w (itemAddr w d.start i) ⟨r.value, pend⟩
        return (r.value, {})
      else return (r.value, pend))
    (fun k v t => v.1 = s.intervalValue g a b (k - 1) ∧ v.2.Among endFlags ∧
      s.Within t nothing (vectorFlags endFlags) (s.inField w d.start k) ∧ (s.FieldsClear w d ctl →
        s.ElementsAre t w { d with len := k } ctl (fun i => some (s.intervalValue g a b i)) ∧
        s.Pending t (s.permissive ctl) (fun i => (s.intervalAt g a b i).flags) v.2 k)) d.len
    ⟨rfl, FpFlags.among_none, State.Within.refl, fun _ => ⟨fun j hj => absurd hj (Nat.not_lt_zero j), State.Pending.zero⟩⟩
    fun k v t hk ⟨hv, hamong, hframe, hdone⟩ => by
      have hr : (if k = 0 then ⟨v.1, {}⟩ else fpBinary w (.add .upper) {} v.1 (s.regW w b)) = s.intervalAt g a b k := by
        unfold State.intervalAt
        by_cases h0 : k = 0
        · rw [if_pos h0, if_pos h0, hv, h0]
        · rw [if_neg h0, if_neg h0, hv]
          rfl
      have hpend := among_or hamong (among_intervalAt s g a b k)
      have hmt := hframe.toFrame.mode.trans hm
      simp only [hr]
      refine Ends.bind (Ends.permits hmt fun u hu => ?_)
      have hlook := State.Looked.of_breakpoint hu
      have hframe' := hframe.looked hlook h47
      have happart (hcl : s.FieldsClear w d ctl) (j : Nat) (hj : j < k) :
          s.elemsApart w (itemAddr w d.start k) w (itemAddr w d.start j) :=
        State.items_apart hcl.ok hcl.fits d.start hk (Nat.lt_trans hj hk) (Nat.ne_of_gt hj)
      have hperm (hcl : s.FieldsClear w d ctl) : t.permissive ctl k = s.permissive ctl k :=
        hframe.toFrame.permissive_out hw hcl.control hk (Nat.le_of_lt hk)
      cases hctl : t.permissive ctl k with
      | true =>
        simp only [if_true]
        refine Ends.bind (Ends.bind ⟨_, _, writeElem_monitor (hlook.mode.trans hmt) .., Ends.update (Ends.pure ?_)⟩)
        refine ⟨s.intervalAt_value g a b k, FpFlags.among_none, (hframe'.storeItem _ h47).raiseFlags hpend.vector, fun hcl => ?_⟩
        obtain ⟨hel, hfl⟩ := hdone hcl
        refine ⟨(hel.looked hlook).store (fun x hx => ?_) (hframe'.toFrame.wf hw) hframe'.toFrame.params
          ((hperm hcl).symm.trans hctl) (happart hcl), hfl.store ((hperm hcl).symm.trans hctl) fun j h1 h2 h3 => ?_⟩
        · rw [s.intervalAt_value g a b k, Option.some.inj hx]
        · rw [State.withElem_dfr, State.bitAt_breakpoint _ _ _ h1 h2 h3, hlook.flags j h1 h2 h3]
      | false =>
        simp only [Bool.false_eq_true, if_false]
        refine Ends.pure ⟨s.intervalAt_value g a b k, hpend, hframe'.mono fun _ ⟨j, hj, hb⟩ => ⟨j, Nat.lt_succ_of_lt hj, hb⟩,
          fun hcl => ?_⟩
        obtain ⟨hel, hfl⟩ := hdone hcl
        exact ⟨(hel.looked hlook).skip ((hperm hcl).symm.trans hctl) (hframe'.toFrame.elem_out hw fun j hj =>
          State.elemsApart_symm (happart hcl j hj)), hfl.skip ((hperm hcl).symm.trans hctl) hlook.flags⟩
  obtain ⟨v, t, ht, -, -, hframe, hdone⟩ := hloop
  have he : exec (.interval g a b z c) s = .next t.next64 :=
    run64_of_ok ((bind_ok (dest_ok w hc)).trans ((bind_ok ht).trans rfl))
  exact ⟨hframe.completes64 hw he trivial, t.next64, he, fun hcl => ⟨(hdone hcl).1, v.2, (hdone hcl).2⟩⟩

end Sys2Proof.Machine

namespace Sys2Proof
open Machine

/-- Settles O45. -/
theorem vectorOneSource : Obligations.VectorOneSource := by
  intro s g x a b z c hm hw hc
  have hsigned (u : Word) : fpSqrt (gWidth g) (sigOf (gWidth g) u) ((gSign g).onA (gWidth g) (unpack (gWidth g) u)) =
      fpSqrt (gWidth g) (sigOf (gWidth g) u) (signedA (gWidth g) (gSign g) (unpack (gWidth g) u)) := by
    rw [onA_eq _ (unpack_ok _ u)]
  have hsqrt (u : Word) : (fpSqrt (gWidth g) (sigOf (gWidth g) u) ((gSign g).onA (gWidth g) (unpack (gWidth g) u))).flags.Among
      [43, 45, 46] := by
    rw [hsigned]
    exact among_fpSqrt (signedA_ok _ (unpack_ok _ u)) _
  have hexp (u : Word) : (⟨fpExp (gWidth g) u, {}⟩ : FpResult) = match gWidth g with
      | .w64 => ⟨0#16 ++ BitVec.ofInt 48 (expOf .w64 u), {}⟩
      | .w32 => ⟨0#40 ++ BitVec.ofInt 24 (expOf .w32 u), {}⟩ := by
    rw [fpExp_eq]
    cases gWidth g <;> rfl
  refine ⟨fun hx => ?_, fun hx => ?_, (interval_results hm hw hc).1, fun hok => ⟨fun hx => ?_, fun hx hfit => ?_,
    fun hfit hctl => ?_, fun u n hn => ?_⟩⟩
  · simp only [List.forall_mem_cons]
    exact ⟨(vector1_results (i := .truv g x a z c) (op := fun u => fpRound (gWidth g) .trunc u) rfl (fun _ => among_fpRound ..) (fun _ => rfl) hm hw hx hc).1,
      (vector1_results (i := .flrv g x a z c) (op := fun u => fpRound (gWidth g) .floor u) rfl (fun _ => among_fpRound ..) (fun _ => rfl) hm hw hx hc).1,
      (vector1_results (i := .clgv g x a z c) (op := fun u => fpRound (gWidth g) .ceil u) rfl (fun _ => among_fpRound ..) (fun _ => rfl) hm hw hx hc).1,
      (vector1_results (i := .sqrtv g x a z c) (op := fun u => fpSqrt (gWidth g) (sigOf (gWidth g) u) ((gSign g).onA (gWidth g) (unpack (gWidth g) u))) rfl hsqrt hsigned hm hw hx hc).1,
      (vector1_results (i := .conv g x a z c) (op := fun u => fpContract false u) rfl (fun _ => among_fpContract ..) (fun _ => rfl) hm hw hx hc).1,
      (vector1_results (i := .rconv g x a z c) (op := fun u => fpContract true u) rfl (fun _ => among_fpContract ..) (fun _ => rfl) hm hw hx hc).1,
      (vector1_results (i := .vtov g x a z c) (flags := []) (op := fun u => ⟨u, {}⟩) rfl (fun _ => FpFlags.among_none) (fun _ => rfl) hm hw hx hc).1,
      (vector1_results (i := .absv g x a z c) (op := fun u => fpAbs (gWidth g) u) rfl (fun _ => among_fpAbs ..) (fun _ => rfl) hm hw hx hc).1,
      (vector1_results (i := .expv g x a z c) (flags := []) (op := fun u => ⟨fpExp (gWidth g) u, {}⟩) rfl (fun _ => FpFlags.among_none) hexp hm hw hx hc).1,
      (vector1_results (i := .extv g x a z c) (op := fun u => fpExtend u) rfl (fun _ => among_fpExtend _) (fun _ => rfl) hm hw hx hc).1,
      fun _ h => by cases h⟩
  · simp only [List.forall_mem_cons]
    exact ⟨(vrevv_results hm hw hx hc).1, (adjacent_results hm hw hx hc (f := fpHalf) rfl (fun _ _ => among_fpHalf ..) (fun _ _ => rfl)).1,
      (adjacent_results hm hw hx hc (f := fun w => fpSub w .norm) rfl (fun _ _ => among_fpSub ..) (fun _ _ => rfl)).1,
      fun _ h => by cases h⟩
  · simp only [List.forall_mem_cons]
    exact ⟨(vector1_results (i := .truv g x a z c) (op := fun u => fpRound (gWidth g) .trunc u) rfl (fun _ => among_fpRound ..) (fun _ => rfl) hm hw hx hc).2 hok,
      (vector1_results (i := .flrv g x a z c) (op := fun u => fpRound (gWidth g) .floor u) rfl (fun _ => among_fpRound ..) (fun _ => rfl) hm hw hx hc).2 hok,
      (vector1_results (i := .clgv g x a z c) (op := fun u => fpRound (gWidth g) .ceil u) rfl (fun _ => among_fpRound ..) (fun _ => rfl) hm hw hx hc).2 hok,
      (vector1_results (i := .sqrtv g x a z c) (op := fun u => fpSqrt (gWidth g) (sigOf (gWidth g) u) ((gSign g).onA (gWidth g) (unpack (gWidth g) u))) rfl hsqrt hsigned hm hw hx hc).2 hok,
      (vector1_results (i := .conv g x a z c) (op := fun u => fpContract false u) rfl (fun _ => among_fpContract ..) (fun _ => rfl) hm hw hx hc).2 hok,
      (vector1_results (i := .rconv g x a z c) (op := fun u => fpContract true u) rfl (fun _ => among_fpContract ..) (fun _ => rfl) hm hw hx hc).2 hok,
      (vector1_results (i := .vtov g x a z c) (flags := []) (op := fun u => ⟨u, {}⟩) rfl (fun _ => FpFlags.among_none) (fun _ => rfl) hm hw hx hc).2 hok,
      (vector1_results (i := .absv g x a z c) (op := fun u => fpAbs (gWidth g) u) rfl (fun _ => among_fpAbs ..) (fun _ => rfl) hm hw hx hc).2 hok,
      (vector1_results (i := .expv g x a z c) (flags := []) (op := fun u => ⟨fpExp (gWidth g) u, {}⟩) rfl (fun _ => FpFlags.among_none) hexp hm hw hx hc).2 hok,
      (vector1_results (i := .extv g x a z c) (op := fun u => fpExtend u) rfl (fun _ => among_fpExtend _) (fun _ => rfl) hm hw hx hc).2 hok,
      fun _ h => by cases h⟩
  · intro p len elem hp hctl
    simp only [List.forall_mem_cons]
    exact ⟨(vrevv_results hm hw hx hc).2 hp ⟨hok, hfit, hctl⟩,
      (adjacent_results hm hw hx hc (f := fpHalf) (claim := fun u v => fpHalf (gWidth g) (unpack (gWidth g) u) (unpack (gWidth g) v))
        rfl (fun _ _ => among_fpHalf ..) (fun _ _ => rfl)).2 hp ⟨hok, hfit, hctl⟩,
      (adjacent_results hm hw hx hc (f := fun w => fpSub w .norm) (claim := fun u v => fpBinary (gWidth g) (.sub .norm) {} u v) rfl
        (fun _ _ => among_fpSub ..) (fun _ _ => rfl)).2 hp ⟨hok, hfit, hctl⟩, fun _ h => by cases h⟩
  · obtain ⟨-, u, hu, hdone⟩ := interval_results (a := a) (b := b) (z := z) hm hw hc
    obtain ⟨hel, pend, hpend⟩ := hdone ⟨hok, hfit, hctl⟩
    refine ⟨u, hu, hel, hpend.flagsRaised fun i _ => ?_⟩
    by_cases h0 : i = 0
    · subst h0
      exact (if_neg fun h => h.1 rfl).trans (congrArg some (ite_self _).symm)
    · refine (ite_congr (propext (and_iff_right h0)) (fun _ => ?_) fun _ => rfl).trans (apply_ite some _ _ _).symm
      exact congrArg (fun r : FpResult => some r.flags) (State.intervalAt_pos s g a b h0).symm
  · have h1 := sigCount_eq hn
    subst h1
    exact sqrtIs_fpSqrt (signedA_ok _ (unpack_ok _ u)) ((inRange_iff _ _).mp (coefOf_inRange _ u))

end Sys2Proof
end

