-- ==== Sys2Proof/Proofs/Groups.lean ====
section
/-! PROOFS. Scatter and gather in Monitor mode (spec/47_sparse_compare_index.md R508, R510). -/

-- One declaration at a time, as in the tests: many at once need a thread each.
set_option Elab.async false

namespace Sys2Proof.Machine

variable {s : State} {g x a y b c : Byte}

/-! ### Item counts -/

theorem indexes_ok (hf : bitAt g 5 = true → x = 0) (hl : bitAt g 5 = false → s.sourceOk false x) :
    indexes g x a s = .ok (s.indexesOf g x a, s) := by
  unfold indexes State.indexesOf
  by_cases h : bitAt g 5 = true
  · rw [if_pos h, if_pos h, hf h]
    rfl
  · rw [if_neg h, if_neg h]
    exact (bind_ok (offset_ok ((hl (Bool.eq_false_iff.mpr h)).resolve_left Bool.false_ne_true))).trans rfl

theorem indexes_error {e : Refusal} (h : (bitAt g 5 = true ∧ x ≠ 0 ∧ e = .unusedFieldNonZero) ∨
    (bitAt g 5 = false ∧ 0x10000 ≤ s.offsetOf x ∧ e = .vectorOffsetRange)) : indexes g x a s = .error (.refuse e) := by
  unfold indexes
  rcases h with ⟨h5, hx, rfl⟩ | ⟨h5, hx, rfl⟩
  · rw [if_pos h5]
    exact bind_error (refuseIf_true (bne_iff_ne.mpr hx))
  · rw [if_neg (by rw [h5]; exact Bool.false_ne_true)]
    exact bind_error (offset_large hx)

/-- No item count shares a byte with what is stored. -/
def State.IndexesClear (s : State) (ix : Indexes) (stored : Nat → Prop) : Prop :=
  match ix with
  | .fixed _ _ => True
  | .listed start n => ∀ i, i < n → ∀ k, s.elemByte .w64 (itemAddr .w64 start i) ≤ k →
      k < s.elemByte .w64 (itemAddr .w64 start i) + 8 → ¬ stored k

theorem State.indexesClear_field {ix : Indexes} {w : Width} {p : Addr} {n : Nat} (h : s.indexesApart ix w p n) :
    s.IndexesClear ix (s.inField w p n) := by
  cases ix with
  | fixed m inc => exact trivial
  | listed start m =>
    rintro i hi k h1 h2 ⟨j, hj, h3, h4⟩
    have h8 : Width.bytes .w64 = 8 := rfl
    have := h i hi j hj
    omega

/-- An item count is what it was before the stores that are clear of it. -/
theorem Ends.indexGet {t : State} {changed : Byte → Prop} {flags : List Nat} {stored : Nat → Prop} {ix : Indexes} {j : Nat}
    (hm : s.mode = .monitor) (hw : Memory.wf s.mem = true) (h : s.Within t changed flags stored)
    (hc : s.IndexesClear ix stored) (hj : j < ix.count) :
    Ends (ix.get j) t fun v u => t.Looked u ∧ v = s.itemCount ix j := by
  cases ix with
  | fixed n inc => exact Ends.pure ⟨State.Looked.refl, rfl⟩
  | listed start n =>
    refine Ends.bind ⟨_, _, readWord_monitor (h.toFrame.mode.trans hm) _, Ends.pure ⟨State.Looked.refl.breakpoint _, ?_⟩⟩
    exact congrArg addrPart (h.toFrame.elemOfMemory (w := .w64) hw (hc j hj))

/-! ### The loop over the groups -/

theorem joined_eq {α β : Type} {p : Prop} [Decidable p] (m n : M α) (k : α → M β) :
    (if p then m >>= k else n >>= k) = (if p then m else n) >>= k := by
  split <;> rfl

/-- A choice between two computations that go on alike. -/
theorem Ends.joined {α β : Type} {p : Prop} [Decidable p] {m n : M α} {k : α → M β} {Q : β → State → Prop}
    (h : Ends (if p then m else n) s fun v t => Ends (k v) t Q) : Ends (if p then m >>= k else n >>= k) s Q := by
  rw [joined_eq]
  exact Ends.bind h

/-- A position of the loop, as a group and an element of it. -/
theorem group_position {size n i : Nat} (h : i < n * size) : i / size < n ∧ i % size < size ∧ i / size * size + i % size = i := by
  have hs : 0 < size := Nat.pos_of_ne_zero fun e => by
    rw [e, Nat.mul_zero] at h
    exact Nat.not_lt_zero _ h
  exact ⟨Nat.div_lt_of_lt_mul (by rwa [Nat.mul_comm]), Nat.mod_lt _ hs, Nat.div_add_mod' i size⟩

theorem group_of_position {size j e : Nat} (h : e < size) : (j * size + e) / size = j ∧ (j * size + e) % size = e := by
  rw [Nat.add_comm, Nat.add_mul_div_right _ _ (Nat.zero_lt_of_lt h), Nat.div_eq_of_lt h, Nat.zero_add,
    Nat.add_mul_mod_self_right, Nat.mod_eq_of_lt h]
  exact ⟨rfl, rfl⟩

/-- What the loop over the groups has done behind `i` positions: `cur` is the item count of a group that is under way. -/
structure State.GroupsDone (s : State) (ix : Indexes) (size : Nat) (w : Width) (dst : Nat → Nat → Addr) (stored : Nat → Prop)
    (claimed : Nat → Nat → Prop) (val : Nat → Nat → Word) (i : Nat) (cur : Addr) (t : State) : Prop where
  within : s.Within t nothing [47] stored
  current : i % size ≠ 0 → cur = s.itemCount ix (i / size)
  elems : ∀ j e, e < size → j * size + e < i → claimed j e → t.elemOfMemory w (dst j e) = val j e

theorem groupLoop_results {ix : Indexes} {size : Nat} {w : Width} {dst : Nat → Nat → Addr} {stored : Nat → Prop}
    {claimed : Nat → Nat → Prop} {val : Nat → Nat → Word} {body : Nat → Nat → Addr → M Unit}
    (hm : s.mode = .monitor) (hw : Memory.wf s.mem = true)
    (hstored : ∀ j e, j < ix.count → e < size → ∀ k, s.elemByte w (dst j e) ≤ k → k < s.elemByte w (dst j e) + w.bytes → stored k)
    (hix : s.IndexesClear ix stored)
    (hap : ∀ j e, j < ix.count → e < size → claimed j e → ∀ j' e', j' < ix.count → e' < size → (j', e') ≠ (j, e) →
      s.elemsApart w (dst j' e') w (dst j e))
    (hbody : ∀ j e t, j < ix.count → e < size → s.Within t nothing [47] stored →
      Ends (body j e (s.itemCount ix j)) t fun _ u => ∃ t' v, t.Looked t' ∧ u = t'.withElem w (dst j e) v ∧
        (claimed j e → narrow w v = val j e)) :
    Ends (groupLoop ix size body) s fun _ t => s.Within t nothing [47] stored ∧
      ∀ j e, j < ix.count → e < size → claimed j e → t.elemOfMemory w (dst j e) = val j e := by
  have h47 : 47 ∈ [47] := List.mem_cons_self
  refine Ends.bind ((Ends.elements (s.GroupsDone ix size w dst stored claimed val) (ix.count * size)
    ⟨State.Within.refl, fun h => absurd (Nat.zero_mod size) h, fun j e _ h => absurd h (Nat.not_lt_zero _)⟩ ?_).mono
    fun cur t h => Ends.pure ⟨h.within, fun j e hj he => h.elems j e he ?_⟩)
  · intro i cur t hi ⟨hwithin, hcur, helems⟩
    obtain ⟨hj, he, hpos⟩ := group_position hi
    have hget : Ends (if i % size = 0 then ix.get (i / size) else pure cur) t fun v u =>
        t.Looked u ∧ v = s.itemCount ix (i / size) := by
      by_cases h0 : i % size = 0
      · rw [if_pos h0]
        exact Ends.indexGet hm hw hwithin hix hj
      · rw [if_neg h0]
        exact Ends.pure ⟨State.Looked.refl, hcur h0⟩
    refine Ends.joined (k := fun v => body (i / size) (i % size) v >>= fun _ => pure v) (hget.mono fun v t1 ⟨hl, hv⟩ => ?_)
    subst hv
    refine Ends.bind ((hbody _ _ t1 hj he (hwithin.looked hl h47)).mono fun _ u ⟨t2, v, hl2, hu, hval⟩ => Ends.pure ?_)
    have hwithin2 : s.Within t2 nothing [47] stored := hwithin.looked (hl.trans hl2) h47
    have hw2 : Memory.wf t2.mem = true := hwithin2.toFrame.wf hw
    subst hu
    refine ⟨hwithin2.withElem v h47 (hstored _ _ hj he), fun h => ?_, fun j e he' hlt hc => ?_⟩
    · have hlt : i % size + 1 < size := by
        rcases Nat.lt_or_eq_of_le (Nat.succ_le_of_lt he) with h' | h'
        · exact h'
        · exact absurd (by rw [← hpos, Nat.add_assoc, show i % size + 1 = size from h', ← Nat.succ_mul, Nat.mul_mod_left]) h
      rw [← hpos, Nat.add_assoc, (group_of_position hlt).1, (group_of_position he).1]
    · have happart (hne : (i / size, i % size) ≠ (j, e)) (hjc : j < ix.count) :
          t2.elemsApart w (dst (i / size) (i % size)) w (dst j e) := by
        unfold State.elemsApart
        rw [hwithin2.toFrame.elemByte, hwithin2.toFrame.elemByte]
        exact hap j e hjc he' hc _ _ hj he hne
      rcases Nat.lt_succ_iff_lt_or_eq.mp hlt with hlt | heq
      · have hjc : j < ix.count := by
          have := group_position (Nat.lt_trans hlt hi)
          rw [(group_of_position he').1] at this
          exact this.1
        rw [State.elemOfMemory_withElem_ne t2 w _ v hw2 (happart (fun h => ?_) hjc), (hl.trans hl2).elemOfMemory]
        · exact helems j e he' hlt hc
        · obtain ⟨rfl, rfl⟩ := Prod.mk.inj h
          exact absurd hpos (Nat.ne_of_lt hlt)
      · subst heq
        obtain ⟨hd, hmod⟩ := group_of_position (j := j) he'
        rw [hd, hmod] at hval ⊢
        rw [State.elemOfMemory_withElem_self t2 w _ v hw2]
        exact hval hc
  · calc j * size + e < j * size + size := Nat.add_lt_add_left he _
      _ = (j + 1) * size := (Nat.succ_mul j size).symm
      _ ≤ ix.count * size := Nat.mul_le_mul_right _ hj

/-! ### Sources -/

theorem fileHalf_eq (s : State) (n : Nat) : s.fileHalf n = field (s.reg (BitVec.ofNat 8 (n / 64))) (32 * (n / 32 % 2)) 32 := by
  unfold State.fileHalf
  rcases Nat.mod_two_eq_zero_or_one (n / 32) with h | h
  · rw [h]; rfl
  · rw [h]; rfl

theorem fileElem_eq (s : State) (w : Width) (n : Nat) : s.fileElem w n = s.registerElem w n := by
  cases w
  · exact congrArg (0#32 ++ ·) (fileHalf_eq s n)
  · rfl

theorem narrow_fileElem (s : State) (w : Width) (n : Nat) : narrow w (s.registerElem w n) = s.registerElem w n := by
  cases w
  · exact congrArg (0#32 ++ ·) (rightHalf_append _ _)
  · rfl

theorem narrow_elemOfMemory (s : State) (w : Width) (p : Addr) : narrow w (s.elemOfMemory w p) = s.elemOfMemory w p := by
  cases w
  · exact congrArg (0#32 ++ ·) (rightHalf_append _ _)
  · rfl

/-- An element of the register file or of CP memory, below the limit of the register file. -/
theorem Ends.groupSource {t : State} {w : Width} {rf : Bool} {p : Addr} (hm : t.mode = .monitor)
    (hr : rf = true → p.toNat < 0x4000) : Ends (groupSource w rf p) t fun v u => t.Looked u ∧
      v = if rf then t.registerElem w p.toNat else t.elemOfMemory w p := by
  cases rf with
  | true =>
    refine Ends.bind (Ends.refuseIf (decide_eq_false (Nat.not_le.mpr (hr rfl))) (Ends.bind (Ends.get (Ends.pure
      ⟨State.Looked.refl, fileElem_eq t w _⟩))))
  | false => exact ⟨_, _, readElem_monitor hm w p, State.Looked.refl.breakpoint _, rfl⟩

/-- The value is what it was before the stores that are clear of it. -/
theorem groupValue_within {t : State} {w : Width} {rf : Bool} {p : Addr} {stored : Nat → Prop}
    (h : s.Within t nothing [47] stored) (hw : Memory.wf s.mem = true)
    (hc : rf = false → ∀ k, s.elemByte w p ≤ k → k < s.elemByte w p + w.bytes → ¬ stored k) :
    narrow w (if rf then t.registerElem w p.toNat else t.elemOfMemory w p) =
      if rf then s.registerElem w p.toNat else s.elemOfMemory w p := by
  cases rf with
  | true =>
    have hreg : t.registerElem w p.toNat = s.registerElem w p.toNat := by
      unfold State.registerElem
      rw [h.regs _ id]
    exact (narrow_fileElem t w _).trans hreg
  | false => exact (narrow_elemOfMemory t w p).trans (h.toFrame.elemOfMemory hw (hc rfl))

/-! ### The instructions -/

/-- The elements that #B7 stores. -/
def State.scattered (s : State) (ix : Indexes) (w : Width) (c : Byte) (size k : Nat) : Prop :=
  ∃ j, j < ix.count ∧ s.inField w (s.addr c + (s.itemCount ix j <<< w.shift)) size k

/-- One element of #B7. -/
def scatterBody (g b c : Byte) (s : State) (size off : Nat) (j e : Nat) (idx : Addr) : M Unit := do
  let w := gWidth g
  let v ← if bitAt g 4 then pure (s.regW w b)
    else groupSource w (bitAt g 7) (itemAddr w (s.addr b) (off + (j * size + e)))
  writeElem w (itemAddr w (s.addr c + scaled w.shift idx) e) v

/-- One element of #BA. -/
def gatherBody (g b c : Byte) (s : State) (size off : Nat) (j e : Nat) (idx : Addr) : M Unit := do
  let w := gWidth g
  let v ← groupSource w (bitAt g 7) (itemAddr w (itemAddr w (s.addr b) off + scaled w.shift idx) e)
  writeElem w (itemAddr w (s.addr c) (j * size + e)) v

/-- How many elements a group has. -/
def State.groupSize (s : State) (g r : Byte) : Nat := if bitAt g 6 then s.len r else 1

theorem exec_vtovx : exec (.vtovx g x a y b c) s = run64
    (refuseIf ((bitAt g 4 && bitAt g 6) || (bitAt g 6 && bitAt g 7)) .scatterGatherQualifier >>= fun _ =>
      indexes g x a >>= fun ix => if ix.count * s.groupSize g c = 0 then pure () else
        if bitAt g 4 then pure 0 >>= fun off => groupLoop ix (s.groupSize g c) (scatterBody g b c s (s.groupSize g c) off)
        else offset y >>= fun off => groupLoop ix (s.groupSize g c) (scatterBody g b c s (s.groupSize g c) off)) s := by
  show execVtovx g x a y b c s = _
  rfl

theorem exec_vxtov : exec (.vxtov g x a y b c) s = run64
    (refuseIf (bitAt g 6 && bitAt g 7) .scatterGatherQualifier >>= fun _ =>
      indexes g x a >>= fun ix => if ix.count * s.groupSize g b = 0 then pure () else
        offset y >>= fun off => groupLoop ix (s.groupSize g b) (gatherBody g b c s (s.groupSize g b) off)) s := by
  show execVxtov g x a y b c s = _
  rfl

theorem run64_congr {m n : M Unit} (h : m s = n s) : run64 m s = run64 n s := by
  unfold run64 run
  refine congrArg (settle s) ?_
  show Except.bind (m s) _ = Except.bind (n s) _
  rw [h]

section
variable (hf : bitAt g 5 = true → x = 0) (hl : bitAt g 5 = false → s.sourceOk false x)
  (h67 : (bitAt g 6 && bitAt g 7) = false)
include hf hl h67

/-- #B7 behind its checks. -/
theorem vtovx_checked (h46 : (bitAt g 4 && bitAt g 6) = false) : exec (.vtovx g x a y b c) s = run64
    (if (s.indexesOf g x a).count * s.groupSize g c = 0 then pure () else
      (if bitAt g 4 then pure 0 else offset y) >>= fun off =>
        groupLoop (s.indexesOf g x a) (s.groupSize g c) (scatterBody g b c s (s.groupSize g c) off)) s := by
  rw [← joined_eq, exec_vtovx]
  exact run64_congr ((bind_ok (refuseIf_false (by rw [h46, h67]; rfl))).trans (bind_ok (indexes_ok hf hl)))

/-- #BA behind its checks. -/
theorem vxtov_checked : exec (.vxtov g x a y b c) s = run64
    (if (s.indexesOf g x a).count * s.groupSize g b = 0 then pure () else
      offset y >>= fun off => groupLoop (s.indexesOf g x a) (s.groupSize g b) (gatherBody g b c s (s.groupSize g b) off)) s := by
  rw [exec_vxtov]
  exact run64_congr ((bind_ok (refuseIf_false h67)).trans (bind_ok (indexes_ok hf hl)))

end

/-- With no element the loop does nothing. -/
theorem groupLoop_empty {ix : Indexes} {size : Nat} {body : Nat → Nat → Addr → M Unit} (h : ix.count * size = 0) :
    groupLoop ix size body s = .ok ((), s) := by
  unfold groupLoop
  rw [h]
  rfl

section
variable (hm : s.mode = .monitor) (hw : Memory.wf s.mem = true)
include hm hw

theorem scatterLoop_results (size : Nat)
    (hrf : bitAt g 4 = false → bitAt g 7 = true → ∀ j e, j < (s.indexesOf g x a).count → e < size →
      (itemAddr (gWidth g) (s.addr b) (s.offsetOf y + (j * size + e))).toNat < 0x4000)
    (hix : ∀ j, j < (s.indexesOf g x a).count → s.indexesApart (s.indexesOf g x a) (gWidth g)
      (s.addr c + (s.itemCount (s.indexesOf g x a) j <<< (gWidth g).shift)) size) :
    let w := gWidth g
    let ix := s.indexesOf g x a
    let src (j e : Nat) : Addr := itemAddr w (s.addr b) (s.offsetOf y + (j * size + e))
    let dst (j e : Nat) : Addr := itemAddr w (s.addr c + (s.itemCount ix j <<< w.shift)) e
    Ends (groupLoop ix size (scatterBody g b c s size (s.offsetOf y))) s fun _ t =>
      s.Within t nothing [47] (s.scattered ix w c size) ∧ ∀ j e, j < ix.count → e < size →
        (∀ j' e', j' < ix.count → e' < size → (j', e') ≠ (j, e) → s.elemsApart w (dst j' e') w (dst j e)) →
        (bitAt g 4 = false → bitAt g 7 = false →
          ∀ j' e', j' < ix.count → e' < size → s.elemsApart w (src j e) w (dst j' e')) →
        t.elemOfMemory w (dst j e) = if bitAt g 4 then s.regW w b
          else if bitAt g 7 then s.registerElem w (src j e).toNat else s.elemOfMemory w (src j e) := by
  intro w ix src dst
  have hres := groupLoop_results (s := s) (ix := ix) (size := size) (w := w) (dst := dst) (stored := s.scattered ix w c size)
    (claimed := fun j e =>
      (∀ j' e', j' < ix.count → e' < size → (j', e') ≠ (j, e) → s.elemsApart w (dst j' e') w (dst j e)) ∧
      (bitAt g 4 = false → bitAt g 7 = false →
        ∀ j' e', j' < ix.count → e' < size → s.elemsApart w (src j e) w (dst j' e')))
    (val := fun j e => if bitAt g 4 then s.regW w b
      else if bitAt g 7 then s.registerElem w (src j e).toNat else s.elemOfMemory w (src j e))
    (body := scatterBody g b c s size (s.offsetOf y)) hm hw (fun j e hj he k h1 h2 => ⟨j, hj, e, he, h1, h2⟩) ?_
    (fun j e _ _ hc => hc.1) ?_
  · exact hres.mono fun _ t ⟨h1, h2⟩ => ⟨h1, fun j e hj he hd hs => h2 j e hj he ⟨hd, hs⟩⟩
  · have hix' : ∀ j, j < ix.count → s.indexesApart ix w (s.addr c + (s.itemCount ix j <<< w.shift)) size := hix
    clear_value ix
    cases ix with
    | fixed n inc => exact trivial
    | listed start n =>
      rintro i hi k h1 h2 ⟨j, hj, hin⟩
      exact State.indexesClear_field (hix' j hj) i hi k h1 h2 hin
  · intro j e t hj he hwithin
    have hmt := hwithin.toFrame.mode.trans hm
    have hout (h4 : bitAt g 4 = false) (h7 : bitAt g 7 = false)
        (hs : ∀ j' e', j' < ix.count → e' < size → s.elemsApart w (src j e) w (dst j' e')) :
        ∀ k, s.elemByte w (src j e) ≤ k → k < s.elemByte w (src j e) + w.bytes → ¬ s.scattered ix w c size k := by
      rintro k h1 h2 ⟨j', hj', hin⟩
      exact State.not_inField (fun i hi => State.elemsApart_symm (hs j' i hj' hi)) h1 h2 hin
    refine Ends.joined ?_
    by_cases h4 : bitAt g 4 = true
    · rw [if_pos h4]
      refine Ends.pure ⟨_, _, writeElem_monitor hmt w _ _, t, _, State.Looked.refl, rfl, fun _ => ?_⟩
      rw [if_pos h4]
      exact narrow_regW s w b
    · rw [if_neg h4]
      refine (Ends.groupSource hmt fun h7 => hrf (Bool.eq_false_iff.mpr h4) h7 j e hj he).mono fun v u ⟨hlu, hv⟩ => ?_
      refine ⟨_, _, writeElem_monitor (hlu.mode.trans hmt) w _ _, u, _, hlu, rfl, fun hc => ?_⟩
      rw [if_neg h4, hv]
      exact groupValue_within hwithin hw fun h7 => hout (Bool.eq_false_iff.mpr h4) h7 (hc.2 (Bool.eq_false_iff.mpr h4) h7)

theorem gatherLoop_results (size : Nat)
    (hrf : bitAt g 7 = true → ∀ j e, j < (s.indexesOf g x a).count → e < size → (itemAddr (gWidth g)
      (itemAddr (gWidth g) (s.addr b) (s.offsetOf y) +
        (s.itemCount (s.indexesOf g x a) j <<< (gWidth g).shift)) e).toNat < 0x4000)
    (hix : s.indexesApart (s.indexesOf g x a) (gWidth g) (s.addr c) ((s.indexesOf g x a).count * size)) :
    let w := gWidth g
    let ix := s.indexesOf g x a
    let src (j e : Nat) : Addr := itemAddr w (itemAddr w (s.addr b) (s.offsetOf y) + (s.itemCount ix j <<< w.shift)) e
    let dst (k : Nat) : Addr := itemAddr w (s.addr c) k
    Ends (groupLoop ix size (gatherBody g b c s size (s.offsetOf y))) s fun _ t =>
      s.Within t nothing [47] (s.inField w (s.addr c) (ix.count * size)) ∧
      (s.params.ok = true → ix.count * size * w.bits ≤ 2 ^ s.params.cpmLog → ∀ j e, j < ix.count → e < size →
        (bitAt g 7 = false → ∀ k, k < ix.count * size → s.elemsApart w (src j e) w (dst k)) →
        t.elemOfMemory w (dst (j * size + e)) =
          if bitAt g 7 then s.registerElem w (src j e).toNat else s.elemOfMemory w (src j e)) := by
  intro w ix src dst
  have hlt (j e : Nat) (hj : j < ix.count) (he : e < size) : j * size + e < ix.count * size :=
    calc j * size + e < j * size + size := Nat.add_lt_add_left he _
      _ = (j + 1) * size := (Nat.succ_mul j size).symm
      _ ≤ ix.count * size := Nat.mul_le_mul_right _ hj
  have hres := groupLoop_results (s := s) (ix := ix) (size := size) (w := w) (dst := fun j e => dst (j * size + e))
    (stored := s.inField w (s.addr c) (ix.count * size))
    (claimed := fun j e => s.params.ok = true ∧ ix.count * size * w.bits ≤ 2 ^ s.params.cpmLog ∧
      (bitAt g 7 = false → ∀ k, k < ix.count * size → s.elemsApart w (src j e) w (dst k)))
    (val := fun j e => if bitAt g 7 then s.registerElem w (src j e).toNat else s.elemOfMemory w (src j e))
    (body := gatherBody g b c s size (s.offsetOf y)) hm hw (fun j e hj he k h1 h2 => ⟨_, hlt j e hj he, h1, h2⟩) ?_
    (fun j e hj he hc j' e' hj' he' hne => State.items_apart hc.1 hc.2.1 _ (hlt j' e' hj' he') (hlt j e hj he) fun h => hne ?_) ?_
  · exact hres.mono fun _ t ⟨h1, h2⟩ => ⟨h1, fun hok hfit j e hj he hs => h2 j e hj he ⟨hok, hfit, hs⟩⟩
  · exact State.indexesClear_field hix
  · rw [← (group_of_position (j := j) he).1, ← (group_of_position (j := j') he').1, h,
      ← (group_of_position (j := j) he).2, ← (group_of_position (j := j') he').2, h]
  · intro j e t hj he hwithin
    have hmt := hwithin.toFrame.mode.trans hm
    refine Ends.bind ((Ends.groupSource hmt fun h7 => hrf h7 j e hj he).mono fun v u ⟨hlu, hv⟩ => ?_)
    refine ⟨_, _, writeElem_monitor (hlu.mode.trans hmt) w _ _, u, _, hlu, rfl, fun hc => ?_⟩
    rw [hv]
    refine groupValue_within hwithin hw fun h7 k h1 h2 => ?_
    exact State.not_inField (fun i hi => State.elemsApart_symm (hc.2.2 h7 i hi)) h1 h2

end

/-- The loop of #B7 with the offset that it uses; a constant needs none. -/
theorem vtovx_loop {ix : Indexes} {t : State} {n : Nat} (hy : s.sourceOk (bitAt g 4) y)
    (h : groupLoop ix n (scatterBody g b c s n (s.offsetOf y)) s = .ok ((), t)) :
    (if ix.count * n = 0 then pure () else
      (if bitAt g 4 then pure 0 else offset y) >>= fun off => groupLoop ix n (scatterBody g b c s n off) : M Unit) s =
        .ok ((), t) := by
  by_cases h0 : ix.count * n = 0
  · rw [if_pos h0]
    exact (groupLoop_empty h0).symm.trans h
  · rw [if_neg h0]
    by_cases h4 : bitAt g 4 = true
    · have hbody : scatterBody g b c s n 0 = scatterBody g b c s n (s.offsetOf y) := by
        unfold scatterBody
        simp only [h4, if_true]
      rw [if_pos h4]
      exact (congrArg (groupLoop ix n · s) hbody).trans h
    · rw [if_neg h4]
      exact (bind_ok (offset_ok (hy.resolve_left h4))).trans h

theorem itemAddr_zero (w : Width) (p : Addr) : itemAddr w p 0 = p := by
  unfold itemAddr scaled
  rw [show (BitVec.ofNat 48 0) <<< w.shift = 0#48 by simp, BitVec.add_zero]

end Sys2Proof.Machine

namespace Sys2Proof
open Machine

/-- Settles O50. -/
theorem scatterGather : Obligations.ScatterGather := by
  intro s g x a y b c hm hw hf hl h67
  have hone (n : Byte) (h6 : bitAt g 7 = true) : s.groupSize g n = 1 := if_neg (by
    rw [h6, Bool.and_true] at h67
    rw [h67]
    exact Bool.false_ne_true)
  refine ⟨fun h46 => ⟨fun h0 => ?_, fun hy hrf hix => ?_⟩, fun h0 => ?_, fun hy hix hrf => ?_⟩
  · rw [vtovx_checked hf hl h67 h46, if_pos (show (s.indexesOf g x a).count * s.groupSize g c = 0 from h0)]
    rfl
  · obtain ⟨_, t, ht, hwithin, hval⟩ := scatterLoop_results (b := b) (y := y) hm hw (s.groupSize g c)
      (fun h4 h7 j e hj he => by
        rw [hone c h7] at he ⊢
        rw [Nat.lt_one_iff.mp he, Nat.mul_one, Nat.add_zero]
        exact hrf h4 h7 j hj) hix
    refine hwithin.completes64 hw ?_ fun _ => hval
    rw [vtovx_checked hf hl h67 h46]
    exact run64_of_ok (vtovx_loop hy ht)
  · rw [vxtov_checked hf hl h67, if_pos (show (s.indexesOf g x a).count * s.groupSize g b = 0 from h0)]
    rfl
  · obtain ⟨_, t, ht, hwithin, hval⟩ := gatherLoop_results (b := b) (c := c) (y := y) hm hw (s.groupSize g b)
      (fun h7 j e hj he => by
        rw [hone b h7] at he
        rw [Nat.lt_one_iff.mp he, itemAddr_zero]
        exact hrf h7 j hj) hix
    refine hwithin.completes64 hw ?_ hval
    rw [vxtov_checked hf hl h67]
    refine run64_of_ok ?_
    by_cases h0 : (s.indexesOf g x a).count * s.groupSize g b = 0
    · rw [if_pos h0]
      exact (groupLoop_empty h0).symm.trans ht
    · rw [if_neg h0]
      exact (bind_ok (offset_ok (hy.resolve_left Bool.false_ne_true))).trans ht

end Sys2Proof
end

