-- ==== Sys2Proof/Proofs/UndefinedVector.lean ====
section
/-! PROOFS. The undefined forms of the vector, compare and semaphore instructions
(spec/93_implementation_defined.md). -/

-- One declaration at a time, as in the tests: many at once need a thread each.
set_option Elab.async false

namespace Sys2Proof.Machine

variable {s : State} {g x a y b z c : Byte}

/-! ### Sources and destinations that are refused -/

section TwoSources

variable {w : Width} {ext : Word} {f : Word → Word → M FpResult} {i : Instr}
  (hi : exec i s = vector2 w ext f g x a y b z c s)
include hi

theorem vector2_large_x (hb : bitAt g 3 = false) (h : 0x10000 ≤ s.offsetOf x) : exec i s = .refused .vectorOffsetRange :=
  hi.trans (run64_refused (bind_error (source_large w a hb h)))

theorem vector2_large_y (hx : s.sourceOk (bitAt g 3) x) (hb : bitAt g 4 = false) (h : 0x10000 ≤ s.offsetOf y) :
    exec i s = .refused .vectorOffsetRange :=
  hi.trans (run64_refused ((bind_ok (source_ok w a hx)).trans (bind_error (source_large w b hb h))))

theorem vector2_dest (hx : s.sourceOk (bitAt g 3) x) (hy : s.sourceOk (bitAt g 4) y) (hc : c ≠ 0) (ho : bitAt g 2 = true)
    (e : Refusal) (h : s.destRefusal c = some e) : exec i s = .refused e :=
  hi.trans (run64_refused ((bind_ok (source_ok w a hx)).trans ((bind_ok (source_ok w b hy)).trans
    (bind_error (dest_refused w hc ho h)))))

end TwoSources

section OneSource

variable {wa wc : Width} {f : Word → M FpResult} {i : Instr} (hi : exec i s = vector1 wa wc f g x a z c s)
include hi

theorem vector1_large (hb : bitAt g 3 = false) (h : 0x10000 ≤ s.offsetOf x) : exec i s = .refused .vectorOffsetRange :=
  hi.trans (run64_refused (bind_error (source_large wa a hb h)))

theorem vector1_dest (hx : s.sourceOk (bitAt g 3) x) (hc : c ≠ 0) (ho : bitAt g 2 = true)
    (e : Refusal) (h : s.destRefusal c = some e) : exec i s = .refused e :=
  hi.trans (run64_refused ((bind_ok (source_ok wa a hx)).trans (bind_error (dest_refused wc hc ho h))))

end OneSource

theorem compareVector_large_x {cond : Cmp → Bool} {i : Instr} (hi : exec i s = compareVector cond g x a y b z s)
    (hb : bitAt g 3 = false) (h : 0x10000 ≤ s.offsetOf x) : exec i s = .refused .vectorOffsetRange :=
  hi.trans (run64_refused (bind_error (source_large _ a hb h)))

theorem compareVector_large_y {cond : Cmp → Bool} {i : Instr} (hi : exec i s = compareVector cond g x a y b z s)
    (hx : s.sourceOk (bitAt g 3) x) (hb : bitAt g 4 = false) (h : 0x10000 ≤ s.offsetOf y) :
    exec i s = .refused .vectorOffsetRange :=
  hi.trans (run64_refused ((bind_ok (source_ok _ a hx)).trans (bind_error (source_large _ b hb h))))

theorem adjacent_large {f : Width → Num → Num → FpResult} {i : Instr} (hi : exec i s = adjacent f g x a z c s)
    (h : 0x10000 ≤ s.offsetOf x) : exec i s = .refused .vectorOffsetRange :=
  hi.trans (run64_refused (bind_error (source_large _ a rfl h)))

theorem adjacent_dest {f : Width → Num → Num → FpResult} {i : Instr} (hi : exec i s = adjacent f g x a z c s)
    (hx : s.sourceOk false x) (hc : c ≠ 0) (ho : bitAt g 2 = true) (e : Refusal) (h : s.destRefusal c = some e) :
    exec i s = .refused e :=
  hi.trans (run64_refused ((bind_ok (source_ok _ a hx)).trans (bind_error (dest_refused _ hc ho h))))

theorem searchList_large_x {cond : Cmp → Bool} {i : Instr} (hi : exec i s = searchList cond g x a y b z c s)
    (h : 0x10000 ≤ s.offsetOf x) : exec i s = .refused .vectorOffsetRange :=
  hi.trans (run64_refused (bind_error (source_large _ a rfl h)))

theorem searchList_large_y {cond : Cmp → Bool} {i : Instr} (hi : exec i s = searchList cond g x a y b z c s)
    (hx : s.sourceOk false x) (hn : s.len a - s.offsetOf x ≠ 0) (h : 0x10000 ≤ s.offsetOf y) :
    exec i s = .refused .vectorOffsetRange := by
  refine hi.trans (run64_refused ((bind_ok (source_ok _ a hx)).trans ?_))
  rw [if_neg (show ¬ (s.streamOf (gWidth g) false a x).length.getD 0 = 0 from hn)]
  exact bind_error (source_large _ b rfl h)

section Pairs

variable {i : Instr} {k : Stream → Stream → M Unit}
  (hi : exec i s = run64 (refuseIf (bitAt g 3 && bitAt g 4) .broadcastBoth >>= fun _ =>
    source (gWidth g) (bitAt g 3) a x >>= fun p => source (gWidth g) (bitAt g 4) b y >>= fun q => k p q) s)
include hi

/-- Select and dot product refuse two constants (R575, R580). -/
theorem pairs_broadcast (h3 : bitAt g 3 = true) (h4 : bitAt g 4 = true) : exec i s = .refused .broadcastBoth :=
  hi.trans (run64_refused (bind_error (refuseIf_true (by rw [h3, h4]; rfl))))

theorem pairs_large (hq : (bitAt g 3 && bitAt g 4) = false) (h : (bitAt g 3 = false ∧ 0x10000 ≤ s.offsetOf x) ∨
    (s.sourceOk (bitAt g 3) x ∧ bitAt g 4 = false ∧ 0x10000 ≤ s.offsetOf y)) : exec i s = .refused .vectorOffsetRange := by
  refine hi.trans (run64_refused ((bind_ok (refuseIf_false hq)).trans ?_))
  rcases h with ⟨hb, h⟩ | ⟨hx, hb, h⟩
  · exact bind_error (source_large _ a hb h)
  · exact (bind_ok (source_ok _ a hx)).trans (bind_error (source_large _ b hb h))

end Pairs

theorem vrevv_large (h : 0x10000 ≤ s.offsetOf x) : exec (.vrevv g x a z c) s = .refused .vectorOffsetRange :=
  run64_refused (bind_error (offset_large h))

theorem vrevv_dest (hx : s.sourceOk false x) (hc : c ≠ 0) (ho : bitAt g 2 = true) (e : Refusal)
    (h : s.destRefusal c = some e) : exec (.vrevv g x a z c) s = .refused e :=
  run64_refused ((bind_ok (offset_ok (hx.resolve_left Bool.false_ne_true))).trans (bind_error (dest_refused _ hc ho h)))

theorem interval_dest (hc : c ≠ 0) (ho : bitAt g 2 = true) (e : Refusal) (h : s.destRefusal c = some e) :
    exec (.interval g a b z c) s = .refused e :=
  run64_refused (bind_error (dest_refused _ hc ho h))

/-- An instruction that begins with its source A, a field. -/
theorem field_large {w : Width} {k : Stream → M Unit} {i : Instr} (hi : exec i s = run64 (source w false a x >>= k) s)
    (h : 0x10000 ≤ s.offsetOf x) : exec i s = .refused .vectorOffsetRange :=
  hi.trans (run64_refused (bind_error (source_large w a rfl h)))

theorem acps_large_y (hx : s.sourceOk false x) (hn : s.len a - s.offsetOf x ≠ 0) (hb : bitAt g 4 = false)
    (h : 0x10000 ≤ s.offsetOf y) : exec (.acps g x a y b z c) s = .refused .vectorOffsetRange := by
  refine run64_refused ((bind_ok (source_ok (gWidth g) a hx)).trans ?_)
  rw [if_neg (show ¬ (s.streamOf (gWidth g) false a x).length.getD 0 = 0 from hn)]
  exact bind_error (source_large _ b hb h)

/-! ### Compares (R491, R492) -/

theorem intBranch_qualifier {fwc : Bool} {cond : Int → Int → Bool} {i : Instr}
    (hi : exec i s = intBranch fwc cond g x a y b z c s) (hf : fwc = true) (h0 : bitAt g 0 = true) :
    exec i s = .refused .compareQualifier :=
  hi.trans (if_pos (by rw [hf]; exact h0))

theorem intSet_qualifier {fwc : Bool} {cond : Int → Int → Bool} {i : Instr}
    (hi : exec i s = intSet fwc cond g x a y z c s) (hf : fwc = true) (h0 : bitAt g 0 = true) :
    exec i s = .refused .compareQualifier :=
  hi.trans (if_pos (by rw [hf]; exact h0))

theorem intSet_same {fwc : Bool} {cond : Int → Int → Bool} {i : Instr}
    (hi : exec i s = intSet fwc cond g x a y z c s) (hq : (fwc && bitAt g 0) = false) (hc : c = z) :
    exec i s = .refused .sameRegister :=
  hi.trans ((if_neg (Bool.eq_false_iff.mp hq)).trans (if_pos hc))

theorem branchMet_none {met : Bool} (h : met = true) : branchMet met none s = .refused .branchQualifier := by
  subst h
  rfl

theorem intBranch_none {fwc : Bool} {cond met : Int → Int → Bool} {i : Instr}
    (hi : exec i s = intBranch fwc cond g x a y b z c s) (hcond : ∀ u v, cond u v = met u v)
    (ht : compareTarget g y b s = none) (hq : (fwc && bitAt g 0) = false)
    (h : met (intCompare g x a z fwc s).left (intCompare g x a z fwc s).right = true) :
    exec i s = .refused .branchQualifier := by
  obtain rfl : cond = met := funext fun u => funext fun v => hcond u v
  unfold intBranch badCompare at hi
  rw [if_neg (by rw [hq]; exact Bool.false_ne_true), ht] at hi
  exact hi.trans (branchMet_none h)

theorem fpBranch_none {cond : Cmp → Bool} {i : Instr} (hi : exec i s = fpBranch cond g x a y b s)
    (ht : compareTarget g y b s = none) (h : cond (fpCompared g x a s) = true) : exec i s = .refused .branchQualifier := by
  unfold fpBranch at hi
  rw [ht] at hi
  exact hi.trans (branchMet_none h)

/-! ### Scatter and gather (R508, R510) -/

theorem vtovx_indexes (h67 : (bitAt g 6 && bitAt g 7) = false) (h46 : (bitAt g 4 && bitAt g 6) = false) {e : Refusal}
    (h : indexes g x a s = .error (.refuse e)) : exec (.vtovx g x a y b c) s = .refused e := by
  rw [exec_vtovx]
  exact run64_refused ((bind_ok (refuseIf_false (by rw [h46, h67]; rfl))).trans (bind_error h))

theorem vxtov_indexes (h67 : (bitAt g 6 && bitAt g 7) = false) {e : Refusal}
    (h : indexes g x a s = .error (.refuse e)) : exec (.vxtov g x a y b c) s = .refused e := by
  rw [exec_vxtov]
  exact run64_refused ((bind_ok (refuseIf_false h67)).trans (bind_error h))

/-- A loop of which one round is refused, and the rounds before it are refused alike or keep an invariant. -/
theorem upTo_error {α : Type} {f : Nat → α → M α} {v : α} {e : Stop} {J : State → Prop} {n j : Nat} (h0 : J s)
    (hs : ∀ k u t, k < n → J t → Ends (f k u) t (fun _ => J) ∨ f k u t = .error e) (hj : j < n)
    (hbad : ∀ u t, J t → f j u t = .error e) : upTo n f v s = .error e := by
  have hround : ∀ k, k ≤ n → upTo k f v s = .error e ∨ k ≤ j ∧ Ends (upTo k f v) s fun _ => J := by
    intro k
    induction k with
    | zero => exact fun _ => .inr ⟨Nat.zero_le j, Ends.pure h0⟩
    | succ k ih =>
      intro hk
      rcases ih (Nat.le_of_succ_le hk) with he | ⟨hkj, u, t, ht, hJ⟩
      · exact .inl (bind_error he)
      · rcases Nat.lt_or_eq_of_le hkj with hlt | rfl
        · rcases hs k u t hk hJ with h | h
          · exact .inr ⟨hlt, Ends.bind ⟨u, t, ht, h⟩⟩
          · exact .inl ((bind_ok ht).trans h)
        · exact .inl ((bind_ok ht).trans (hbad u t hJ))
  rcases hround n (Nat.le_refl n) with h | ⟨h, -⟩
  · exact h
  · exact absurd hj (Nat.not_lt.mpr h)

theorem elements_refused {α : Type} {f : Nat → α → M α} {v : α} {r : Refusal} {n : Nat} (h : upTo n f v s = .error (.refuse r)) :
    elements n f v s = .error (.refuse r) := by
  unfold elements
  rw [h]

/-- The loop over groups of one element, of which one is refused. -/
theorem groupLoop_refused {ix : Indexes} {body : Nat → Nat → Addr → M Unit} {r : Refusal} {J : State → Prop}
    {P : Nat → Addr → Prop} {j : Nat} (h0 : J s)
    (hget : ∀ k t, k < ix.count → J t → Ends (ix.get k) t fun v u => J u ∧ P k v)
    (hs : ∀ k v t, k < ix.count → J t → P k v → Ends (body k 0 v) t (fun _ => J) ∨ body k 0 v t = .error (.refuse r))
    (hj : j < ix.count) (hbad : ∀ v t, J t → P j v → body j 0 v t = .error (.refuse r)) :
    groupLoop ix 1 body s = .error (.refuse r) := by
  unfold groupLoop
  rw [Nat.mul_one]
  have hround (k : Nat) (cur : Addr) (t : State) (hk : k < ix.count) (hJ : J t) :
      ∃ v u, J u ∧ P k v ∧ (do
        let idx ← if k % 1 = 0 then ix.get (k / 1) else pure cur
        body (k / 1) (k % 1) idx
        return idx : M Addr) t = (body k 0 v >>= fun _ => pure v : M Addr) u := by
    obtain ⟨v, u, hu, hJu, hP⟩ := hget k t hk hJ
    refine ⟨v, u, hJu, hP, ?_⟩
    rw [Nat.mod_one, if_pos rfl, Nat.div_one]
    exact bind_ok hu
  refine bind_error (elements_refused (upTo_error (J := J) h0 (fun k cur t hk hJ => ?_) hj fun cur t hJ => ?_))
  · obtain ⟨v, u, hJu, hP, he⟩ := hround k cur t hk hJ
    rcases hs k v u hk hJu hP with h | h
    · obtain ⟨_, u', hu', hJ'⟩ := h
      exact .inl ⟨v, u', he.trans (bind_ok hu'), hJ'⟩
    · exact .inr (he.trans (bind_error h))
  · obtain ⟨v, u, hJu, hP, he⟩ := hround j cur t hj hJ
    exact he.trans (bind_error (hbad v u hJu hP))

theorem groupSource_out {w : Width} {p : Addr} (h : 0x4000 ≤ p.toNat) :
    groupSource w true p s = .error (.refuse .rfRange) :=
  bind_error (refuseIf_true (decide_eq_true h))

/-- Where a place of the register file is in range its element is read, else it is refused. -/
theorem groupSource_file {w : Width} {p : Addr} (hm : s.mode = .monitor) :
    (p.toNat < 0x4000 ∧ Ends (groupSource w true p) s fun _ u => s.Looked u) ∨
      groupSource w true p s = .error (.refuse .rfRange) := by
  rcases Nat.lt_or_ge p.toNat 0x4000 with h | h
  · exact .inl ⟨h, (Ends.groupSource hm fun _ => h).mono fun _ _ hq => hq.1⟩
  · exact .inr (groupSource_out h)

section
variable (hm : s.mode = .monitor) (hf : bitAt g 5 = true → x = 0) (hl : bitAt g 5 = false → s.sourceOk false x)
  (hy : s.sourceOk false y) (h6 : bitAt g 6 = false) (h7 : bitAt g 7 = true)
include hm hf hl hy h6 h7

theorem vtovx_rfRange (h4 : bitAt g 4 = false) {j : Nat} (hj : j < (s.indexesOf g x a).count)
    (hbad : 0x4000 ≤ (itemAddr (gWidth g) (s.addr b) (s.offsetOf y + j)).toNat) :
    exec (.vtovx g x a y b c) s = .refused .rfRange := by
  have hsize : s.groupSize g c = 1 := if_neg (by rw [h6]; exact Bool.false_ne_true)
  have h4' : ¬ bitAt g 4 = true := by rw [h4]; exact Bool.false_ne_true
  have hbody (k : Nat) (v : Addr) : scatterBody g b c s 1 (s.offsetOf y) k 0 v =
      groupSource (gWidth g) true (itemAddr (gWidth g) (s.addr b) (s.offsetOf y + k)) >>= fun e =>
        writeElem (gWidth g) (itemAddr (gWidth g) (s.addr c + scaled (gWidth g).shift v) 0) e := by
    unfold scatterBody
    rw [if_neg h4', h7, Nat.mul_one, Nat.add_zero]
  rw [vtovx_checked hf hl (by rw [h6]; rfl) (by rw [h4]; rfl), hsize, Nat.mul_one, if_neg (Nat.ne_zero_of_lt hj), if_neg h4']
  refine run64_refused ((bind_ok (offset_ok (hy.resolve_left Bool.false_ne_true))).trans
    (groupLoop_refused (J := fun t => t.mode = .monitor) (P := fun _ _ => True) hm (fun k t _ ht => ?_)
      (fun k v t _ ht _ => ?_) hj fun v t _ _ => ?_))
  · cases s.indexesOf g x a with
    | fixed n inc => exact Ends.pure ⟨ht, trivial⟩
    | listed start n => exact Ends.bind ⟨_, _, readWord_monitor ht _, Ends.pure ⟨by simpa using ht, trivial⟩⟩
  · rw [hbody]
    rcases groupSource_file ht with ⟨-, h⟩ | h
    · refine .inl (Ends.bind (h.mono fun e u hu => ⟨_, _, writeElem_monitor (hu.mode.trans ht) _ _ _, ?_⟩))
      exact (State.withElem_mode ..).trans (hu.mode.trans ht)
    · exact .inr (bind_error h)
  · rw [hbody]
    exact bind_error (groupSource_out hbad)

theorem vxtov_rfRange (hw : Memory.wf s.mem = true)
    (hix : s.indexesApart (s.indexesOf g x a) (gWidth g) (s.addr c) (s.indexesOf g x a).count) {j : Nat}
    (hj : j < (s.indexesOf g x a).count)
    (hbad : 0x4000 ≤ (itemAddr (gWidth g) (s.addr b) (s.offsetOf y) +
      (s.itemCount (s.indexesOf g x a) j <<< (gWidth g).shift)).toNat) :
    exec (.vxtov g x a y b c) s = .refused .rfRange := by
  have hsize : s.groupSize g b = 1 := if_neg (by rw [h6]; exact Bool.false_ne_true)
  have hbody (k : Nat) (v : Addr) : gatherBody g b c s 1 (s.offsetOf y) k 0 v =
      groupSource (gWidth g) true (itemAddr (gWidth g) (s.addr b) (s.offsetOf y) + scaled (gWidth g).shift v) >>= fun e =>
        writeElem (gWidth g) (itemAddr (gWidth g) (s.addr c) k) e := by
    unfold gatherBody
    rw [h7, Nat.mul_one, Nat.add_zero]
    simp only [itemAddr_zero]
  have hclear : s.IndexesClear (s.indexesOf g x a) (s.inField (gWidth g) (s.addr c) (s.indexesOf g x a).count) :=
    State.indexesClear_field hix
  rw [vxtov_checked hf hl (by rw [h6]; rfl), hsize, Nat.mul_one, if_neg (Nat.ne_zero_of_lt hj)]
  refine run64_refused ((bind_ok (offset_ok (hy.resolve_left Bool.false_ne_true))).trans
    (groupLoop_refused (J := fun t => s.Within t nothing [47] (s.inField (gWidth g) (s.addr c) (s.indexesOf g x a).count))
      (P := fun k v => v = s.itemCount (s.indexesOf g x a) k) State.Within.refl (fun k t hk ht => ?_)
      (fun k v t hk ht _ => ?_) hj fun v t _ hv => ?_))
  · exact (Ends.indexGet hm hw ht hclear hk).mono fun v u ⟨h1, h2⟩ => ⟨ht.looked h1 List.mem_cons_self, h2⟩
  · have hmt := ht.toFrame.mode.trans hm
    rw [hbody]
    rcases groupSource_file hmt with ⟨-, h⟩ | h
    · refine .inl (Ends.bind (h.mono fun e u hu => ⟨_, _, writeElem_monitor (hu.mode.trans hmt) _ _ _, ?_⟩))
      exact (ht.looked hu List.mem_cons_self).withElem e List.mem_cons_self fun b h1 h2 => ⟨k, hk, h1, h2⟩
    · exact .inr (bind_error h)
  · rw [hbody, hv]
    exact bind_error (groupSource_out hbad)

end

/-! ### Wait (R611) -/

theorem wait_side (hf : s.forbidden 27 = false) (hl : s.lockedOut (semaphorePair g) true true = false)
    (hl' : s.lockedOut (dataPair g) true true = false)
    (hb : s.beyondLimit (semaphorePair g) (s.cbAddr (semaphorePair g) x) = false)
    (hb' : s.beyondLimit (dataPair g) (s.cbAddr (dataPair g) a) = false)
    (hne : s.cbAddr (semaphorePair g) x ≠ s.cbAddr (dataPair g) a)
    (hside : Config.cbSide (s.cbAddr (semaphorePair g) x).toNat ≠ Config.cbSide (s.cbAddr (dataPair g) a).toNat) :
    exec (.wait g x a b c) s = .refused .cbSideMismatch :=
  run_refused (checks_pass hf (by rw [hl, hl']; rfl) (by rw [hb, hb']; rfl)
    (bind_error (refuseIf_true (by rw [bne_iff_ne.mpr hne, bne_iff_ne.mpr hside]; rfl))))

/-! ### The instructions, by the operation they are -/

/-- The vector instructions with two sources. -/
def twoSourceInstrs (g x a y b z c : Byte) : List Instr :=
  [.adduv g x a y b z c, .addlv g x a y b z c, .addnv g x a y b z c, .addxv g x a y b z c, .subuv g x a y b z c,
    .sublv g x a y b z c, .subnv g x a y b z c, .subxv g x a y b z c, .mpyuv g x a y b z c, .mpylv g x a y b z c,
    .shiftv g x a y b z c, .mpysv g x a y b z c, .divuv g x a y b z c, .divsv g x a y b z c, .adjsv g x a y b z c,
    .adjev g x a y b z c, .packv g x a y b z c, .xorv g x a y b z c, .andv g x a y b z c, .iorv g x a y b z c,
    .nandv g x a y b z c, .norv g x a y b z c, .ornv g x a y b z c, .andnv g x a y b z c, .xornv g x a y b z c,
    .avg g x a y b z c, .avgd g x a y b z c]

theorem twoSourceInstrs_form (s : State) (g x a y b z c : Byte) : ∀ i ∈ twoSourceInstrs g x a y b z c, ∃ w ext f, exec i s = vector2 w ext f g x a y b z c s := by
  unfold twoSourceInstrs
  simp only [List.forall_mem_cons]
  exact ⟨⟨_, _, _, rfl⟩, ⟨_, _, _, rfl⟩, ⟨_, _, _, rfl⟩, ⟨_, _, _, rfl⟩, ⟨_, _, _, rfl⟩, ⟨_, _, _, rfl⟩, ⟨_, _, _, rfl⟩, ⟨_, _, _, rfl⟩, ⟨_, _, _, rfl⟩, ⟨_, _, _, rfl⟩, ⟨_, _, _, rfl⟩, ⟨_, _, _, rfl⟩, ⟨_, _, _, rfl⟩, ⟨_, _, _, rfl⟩, ⟨_, _, _, rfl⟩, ⟨_, _, _, rfl⟩, ⟨_, _, _, rfl⟩, ⟨_, _, _, rfl⟩, ⟨_, _, _, rfl⟩, ⟨_, _, _, rfl⟩, ⟨_, _, _, rfl⟩, ⟨_, _, _, rfl⟩, ⟨_, _, _, rfl⟩, ⟨_, _, _, rfl⟩, ⟨_, _, _, rfl⟩, ⟨_, _, _, rfl⟩, ⟨_, _, _, rfl⟩, fun _ h => by cases h⟩

/-- Those with one source. -/
def oneSourceInstrs (g x a z c : Byte) : List Instr :=
  [.truv g x a z c, .flrv g x a z c, .clgv g x a z c, .sqrtv g x a z c, .conv g x a z c, .rconv g x a z c, .vtov
    g x a z c, .absv g x a z c, .expv g x a z c, .extv g x a z c]

theorem oneSourceInstrs_form (s : State) (g x a z c : Byte) : ∀ i ∈ oneSourceInstrs g x a z c, ∃ wa wc f, exec i s = vector1 wa wc f g x a z c s := by
  unfold oneSourceInstrs
  simp only [List.forall_mem_cons]
  exact ⟨⟨_, _, _, rfl⟩, ⟨_, _, _, rfl⟩, ⟨_, _, _, rfl⟩, ⟨_, _, _, rfl⟩, ⟨_, _, _, rfl⟩, ⟨_, _, _, rfl⟩, ⟨_, _, _, rfl⟩, ⟨_, _, _, rfl⟩, ⟨_, _, _, rfl⟩, ⟨_, _, _, rfl⟩, fun _ h => by cases h⟩

/-- The compares that give an order vector. -/
def orderInstrs (g x a y b z : Byte) : List Instr :=
  [.cmpeq g x a y b z, .cmpne g x a y b z, .cmpge g x a y b z, .cmplt g x a y b z]

theorem orderInstrs_form (s : State) (g x a y b z : Byte) : ∀ i ∈ orderInstrs g x a y b z, ∃ cond, exec i s = compareVector cond g x a y b z s := by
  unfold orderInstrs
  simp only [List.forall_mem_cons]
  exact ⟨⟨_, rfl⟩, ⟨_, rfl⟩, ⟨_, rfl⟩, ⟨_, rfl⟩, fun _ h => by cases h⟩

/-- Vector search. -/
def searchInstrs (g x a y b z c : Byte) : List Instr :=
  [.srcheq g x a y b z c, .srchne g x a y b z c, .srchge g x a y b z c, .srchlt g x a y b z c]

theorem searchInstrs_form (s : State) (g x a y b z c : Byte) : ∀ i ∈ searchInstrs g x a y b z c, ∃ cond, exec i s = searchList cond g x a y b z c s := by
  unfold searchInstrs
  simp only [List.forall_mem_cons]
  exact ⟨⟨_, rfl⟩, ⟨_, rfl⟩, ⟨_, rfl⟩, ⟨_, rfl⟩, fun _ h => by cases h⟩

/-- Select and dot product. -/
def pairInstrs (g x a y b z c : Byte) : List Instr :=
  [.seleq g x a y b z c, .selne g x a y b z c, .selge g x a y b z c, .sellt g x a y b z c, .dotv g x a y b z c]

theorem pairInstrs_form (s : State) (g x a y b z c : Byte) : ∀ i ∈ pairInstrs g x a y b z c, ∃ k : Stream → Stream → M Unit, exec i s = run64
    (refuseIf (bitAt g 3 && bitAt g 4) .broadcastBoth >>= fun _ => source (gWidth g) (bitAt g 3) a x >>= fun p =>
      source (gWidth g) (bitAt g 4) b y >>= fun q => k p q) s := by
  unfold pairInstrs
  simp only [List.forall_mem_cons]
  exact ⟨⟨_, rfl⟩, ⟨_, rfl⟩, ⟨_, rfl⟩, ⟨_, rfl⟩, ⟨_, rfl⟩, fun _ h => by cases h⟩

end Sys2Proof.Machine

namespace Sys2Proof
open Machine

/-- Settles O60. -/
theorem undefinedVectorForms : Obligations.UndefinedVectorForms := by
  intro s g x a y b z c
  refine ⟨fun hb h => ?_, fun h => ?_, fun hx hb h => ?_, fun hq h => ?_, fun hx hn h => ⟨?_, fun hb => acps_large_y hx hn hb h⟩,
    ?_, fun h3 h0 => ?_, fun hq hc => ?_, fun hc => ?_, fun ht => ?_, fun ht => ?_, fun h6 h7 => ⟨?_, ?_⟩, fun h4 h6 => ?_, ?_,
    fun h => ⟨?_, ?_⟩, fun h => ?_, fun h3 h4 => ?_, fun hf hl hl' hb hb' hne => ?_⟩
  · intro i hi
    rcases List.mem_append.mp hi with hi | hi
    · rcases List.mem_append.mp hi with hi | hi
      · obtain ⟨_, _, _, he⟩ := twoSourceInstrs_form s g x a y b z c i hi
        exact vector2_large_x he hb h
      · obtain ⟨_, _, _, he⟩ := oneSourceInstrs_form s g x a z c i hi
        exact vector1_large he hb h
    · obtain ⟨_, he⟩ := orderInstrs_form s g x a y b z i hi
      exact compareVector_large_x he hb h
  · refine List.forall_mem_append.mpr ⟨List.forall_mem_append.mpr ⟨?_, fun i hi => ?_⟩, ?_⟩
    · simp only [List.forall_mem_cons]
      exact ⟨vrevv_large h, adjacent_large (i := .adjmean g x a z c) rfl h, adjacent_large (i := .delta g x a z c) (f := fun w => fpSub w .norm) rfl h,
        fun _ h => by cases h⟩
    · obtain ⟨_, he⟩ := searchInstrs_form s g x a y b z c i hi
      exact searchList_large_x he h
    · simp only [List.forall_mem_cons]
      exact ⟨field_large (i := .acps g x a y b z c) rfl h, field_large (i := .max g x a b z c) rfl h,
        field_large (i := .min g x a b z c) rfl h, field_large (i := .sum g x a z c) rfl h,
        field_large (i := .product g x a z c) rfl h, fun _ h => by cases h⟩
  · intro i hi
    rcases List.mem_append.mp hi with hi | hi
    · obtain ⟨_, _, _, he⟩ := twoSourceInstrs_form s g x a y b z c i hi
      exact vector2_large_y he hx hb h
    · obtain ⟨_, he⟩ := orderInstrs_form s g x a y b z i hi
      exact compareVector_large_y he hx hb h
  · intro i hi
    obtain ⟨_, he⟩ := pairInstrs_form s g x a y b z c i hi
    exact pairs_large he hq h
  · intro i hi
    obtain ⟨_, he⟩ := searchInstrs_form s g x a y b z c i hi
    exact searchList_large_y he hx hn h
  · refine List.forall_mem_cons.2 ⟨fun ⟨hx, hy⟩ hc ho i hi => ?_, List.forall_mem_cons.2 ⟨fun hx hc ho i hi => ?_,
      List.forall_mem_cons.2 ⟨fun hx hc ho => ?_, List.forall_mem_cons.2 ⟨fun _ hc ho => ?_, fun _ h => by cases h⟩⟩⟩⟩
    · obtain ⟨_, _, _, he⟩ := twoSourceInstrs_form s g x a y b z c i hi
      exact destRefusals (vector2_dest he hx hy hc ho)
    · obtain ⟨_, _, _, he⟩ := oneSourceInstrs_form s g x a z c i hi
      exact destRefusals (vector1_dest he hx hc ho)
    · exact List.forall_mem_cons.2 ⟨destRefusals (vrevv_dest hx hc ho), List.forall_mem_cons.2
        ⟨destRefusals (adjacent_dest (i := .adjmean g x a z c) rfl hx hc ho), List.forall_mem_cons.2
          ⟨destRefusals (adjacent_dest (i := .delta g x a z c) (f := fun w => fpSub w .norm) rfl hx hc ho), fun _ h => by cases h⟩⟩⟩
    · exact List.forall_mem_cons.2 ⟨destRefusals (interval_dest hc ho), fun _ h => by cases h⟩
  · simp only [List.forall_mem_cons]
    exact ⟨intBranch_qualifier (i := .ibxeqBr g x a y b z c) rfl h3 h0, intBranch_qualifier (i := .ibxneBr g x a y b z c) rfl h3 h0,
      intSet_qualifier (exec_ibxeqSc ..) h3 h0, intSet_qualifier (exec_ibxneSc ..) h3 h0,
      fun _ h => by cases h⟩
  · simp only [List.forall_mem_cons]
    exact ⟨intSet_same (exec_ibxeqSc ..) hq hc, intSet_same (exec_ibxneSc ..) hq hc,
      fun _ h => by cases h⟩
  · simp only [List.forall_mem_cons]
    exact ⟨intSet_same (exec_ibxgeSc ..) rfl hc, intSet_same (exec_ibxltSc ..) rfl hc,
      intSet_same (exec_ibxleSc ..) rfl hc, intSet_same (exec_ibxgtSc ..) rfl hc,
      fun _ h => by cases h⟩
  · have hne (u v : Int) : (!(u == v)) = decide (u ≠ v) := (decide_not (p := u = v)).symm
    exact List.forall_mem_cons.2 ⟨intBranch_none (fwc := bitAt g 3) (met := fun u v => decide (u = v)) (i := .ibxeqBr g x a y b z c) rfl (fun _ _ => rfl) ht,
      List.forall_mem_cons.2 ⟨intBranch_none (fwc := bitAt g 3) (met := fun u v => decide (u ≠ v)) (i := .ibxneBr g x a y b z c) rfl hne ht,
      List.forall_mem_cons.2 ⟨intBranch_none (fwc := false) (met := fun u v => decide (v ≤ u)) (i := .ibxgeBr g x a y b z c) rfl (fun _ _ => rfl) ht,
      List.forall_mem_cons.2 ⟨intBranch_none (fwc := false) (met := fun u v => decide (u < v)) (i := .ibxltBr g x a y b z c) rfl (fun _ _ => rfl) ht,
      List.forall_mem_cons.2 ⟨intBranch_none (fwc := false) (met := fun u v => decide (u ≤ v)) (i := .ibxleBr g x a y b z c) rfl (fun _ _ => rfl) ht,
      List.forall_mem_cons.2 ⟨intBranch_none (fwc := false) (met := fun u v => decide (v < u)) (i := .ibxgtBr g x a y b z c) rfl (fun _ _ => rfl) ht, fun _ h => by cases h⟩⟩⟩⟩⟩⟩
  · exact List.forall_mem_cons.2 ⟨fpBranch_none (cond := Cmp.eq) (i := .cfpeqBr g x a y b) rfl ht,
      List.forall_mem_cons.2 ⟨fpBranch_none (cond := Cmp.ne) (i := .cfpneBr g x a y b) rfl ht,
      List.forall_mem_cons.2 ⟨fpBranch_none (cond := Cmp.ge) (i := .cfpgeBr g x a y b) rfl ht,
      List.forall_mem_cons.2 ⟨fpBranch_none (cond := Cmp.lt) (i := .cfpltBr g x a y b) rfl ht,
      List.forall_mem_cons.2 ⟨fpBranch_none (cond := Cmp.le) (i := .cfpleBr g x a y b) rfl ht,
      List.forall_mem_cons.2 ⟨fpBranch_none (cond := Cmp.gt) (i := .cfpgtBr g x a y b) rfl ht, fun _ h => by cases h⟩⟩⟩⟩⟩⟩
  · rw [exec_vtovx]
    exact run64_refused (bind_error (refuseIf_true (by rw [h6, h7, Bool.and_true, Bool.and_true, Bool.or_true])))
  · rw [exec_vxtov]
    exact run64_refused (bind_error (refuseIf_true (by rw [h6, h7]; rfl)))
  · rw [exec_vtovx]
    exact run64_refused (bind_error (refuseIf_true (by rw [h4, h6]; rfl)))
  · refine ⟨fun h5 hx => ⟨fun ⟨h67, h46⟩ => ?_, fun h67 => ?_⟩, fun h5 hx => ⟨fun ⟨h67, h46⟩ => ?_, fun h67 => ?_⟩,
      fun ⟨hf, hl⟩ hy => ⟨fun ⟨h67, h46⟩ h4 hn => ?_, fun h67 hn => ?_⟩, fun hm hw ⟨hf, hl⟩ hy h6 h7 =>
      ⟨fun h4 ⟨_, hj, hbad⟩ => vtovx_rfRange hm hf hl hy h6 h7 h4 hj hbad,
        fun hix ⟨_, hj, hbad⟩ => vxtov_rfRange hm hf hl hy h6 h7 hw hix hj hbad⟩⟩
    · exact vtovx_indexes h67 h46 (indexes_error (.inl ⟨h5, hx, rfl⟩))
    · exact vxtov_indexes h67 (indexes_error (.inl ⟨h5, hx, rfl⟩))
    · exact vtovx_indexes h67 h46 (indexes_error (.inr ⟨h5, hx, rfl⟩))
    · exact vxtov_indexes h67 (indexes_error (.inr ⟨h5, hx, rfl⟩))
    · rw [vtovx_checked hf hl h67 h46, if_neg (show ¬ (s.indexesOf g x a).count * s.groupSize g c = 0 from hn),
        if_neg (by rw [h4]; exact Bool.false_ne_true)]
      exact run64_refused (bind_error (offset_large hy))
    · rw [vxtov_checked hf hl h67, if_neg (show ¬ (s.indexesOf g x a).count * s.groupSize g b = 0 from hn)]
      exact run64_refused (bind_error (offset_large hy))
  · exact run64_refused (bind_error (refuseIf_true (by simpa using h)))
  · exact run64_refused (bind_error (refuseIf_true (by simpa using h)))
  · exact run64_refused (bind_error (refuseIf_true (bne_iff_ne.mpr h)))
  · intro i hi
    obtain ⟨_, he⟩ := pairInstrs_form s g x a y b z c i hi
    exact pairs_broadcast he h3 h4
  · by_cases hside : Config.cbSide (s.cbAddr (semaphorePair g) x).toNat = Config.cbSide (s.cbAddr (dataPair g) a).toNat
    · exact .inl hside
    · exact .inr (wait_side hf hl hl' hb hb' hne hside)

end Sys2Proof
end

