-- ==== Sys2Proof/Proofs/Bits.lean ====
section
/-! PROOFS. Loops over bits and bytes in Monitor mode: scans, bit strings, masks and Move Bytes Left
(spec/42_bit_byte_sm.md, spec/49_string_cb.md R600 to R609). -/

-- One declaration at a time, as in the tests: many at once need a thread each.
set_option Elab.async false

namespace Sys2Proof.Machine

variable {s : State}

/-! ### The free data flags (R24) -/

section
variable (t : State) (v : Bool) (f g h : Option Bool)

theorem State.bitAt_setFreeFlags_53 : bitAt (t.setFreeFlags (some v) f g).dfr 53 = v := by
  unfold State.setFreeFlags
  rw [State.setDfr_dfr, bitAt_deriveDfr_stored _ (by decide) (by decide), bitAt_setBitAt_ne _ _ (by decide) (by decide) (by decide),
    bitAt_setBitAt_ne _ _ (by decide) (by decide) (by decide), bitAt_setBitAt_self _ _ (by decide)]
  rfl

theorem State.bitAt_setFreeFlags_54 : bitAt (t.setFreeFlags f (some v) g).dfr 54 = v := by
  unfold State.setFreeFlags
  rw [State.setDfr_dfr, bitAt_deriveDfr_stored _ (by decide) (by decide), bitAt_setBitAt_ne _ _ (by decide) (by decide) (by decide),
    bitAt_setBitAt_self _ _ (by decide)]
  rfl

theorem State.bitAt_setFreeFlags_55 : bitAt (t.setFreeFlags f g (some v)).dfr 55 = v := by
  unfold State.setFreeFlags
  rw [State.setDfr_dfr, bitAt_deriveDfr_stored _ (by decide) (by decide), bitAt_setBitAt_self _ _ (by decide)]
  rfl

end

theorem State.Within.setFreeFlags {t : State} {changed : Byte → Prop} {flags : List Nat} {stored : Nat → Prop}
    (h : s.Within t changed flags stored) (e f g : Option Bool) (hf : ∀ k, k ∈ [53, 54, 55] → k ∈ flags) :
    s.Within (t.setFreeFlags e f g) changed flags stored := ⟨h.toFrame.setFreeFlags e f g hf, h.pc⟩

/-- An instruction of 32 bits completes behind its computation. -/
theorem State.Within.completes32 {t : State} {changed : Byte → Prop} {flags : List Nat} {stored : Nat → Prop}
    (h : s.Within t changed flags stored) {i : Instr} {result : State → Prop} (hw : Memory.wf s.mem = true)
    (he : exec i s = .next t.next32) (hr : result t.next32) : Completes i s s.behind32 changed flags stored result :=
  h.toFrame.next32.completes hw he hr (State.next32_pc_of h.pc)

theorem State.Within.completes32_nothing {t : State} {changed : Byte → Prop} {flags : List Nat}
    (h : s.Within t changed flags nothing) {i : Instr} {result : State → Prop}
    (he : exec i s = .next t.next32) (hr : result t.next32) : Completes i s s.behind32 changed flags nothing result :=
  h.toFrame.next32.completes_nothing he hr (State.next32_pc_of h.pc)

/-! ### Loops that only read -/

theorem State.Looked.reg {u : State} (h : s.Looked u) (r : Byte) : u.reg r = s.reg r := congrArg (fun v => v[r.toNat]'r.isLt) h.regs

/-- A loop whose rounds only read and draw free values, by an invariant over what it computes. -/
theorem Ends.readLoop {α : Type} {f : Nat → α → M α} {v : α} (I : Nat → α → Prop) (n : Nat) (h0 : I 0 v)
    (hs : ∀ k y t, k < n → s.Looked t → I k y → Ends (f k y) t fun z u => t.Looked u ∧ I (k + 1) z) :
    Ends (Machine.elements n f v) s fun z u => s.Looked u ∧ I n z :=
  Ends.elements (fun k y t => s.Looked t ∧ I k y) n ⟨State.Looked.refl, h0⟩ fun k y t hk ⟨hl, hI⟩ =>
    (hs k y t hk hl hI).mono fun _ _ ⟨h1, h2⟩ => ⟨hl.trans h1, h2⟩

/-- Bit `k` of a field, read behind other reads. -/
theorem Ends.bitOf {t : State} (hm : s.mode = .monitor) (hl : s.Looked t) (a : Addr) (k : Nat) :
    Ends (bitOf a k) t fun v u => t.Looked u ∧ v = s.bitOfMemory (a + BitVec.ofNat 48 k) :=
  ⟨_, _, readBit_monitor (hl.mode.trans hm) _, State.Looked.refl.breakpoint _, hl.bitOfMemory _⟩

/-- The scan for a byte: before the answer no byte is equal, and behind a finished scan it is. -/
theorem scanBytes_results (hm : s.mode = .monitor) (v : Byte) (a idx : Addr) (n : Nat) :
    let item (k : Nat) : Byte := Memory.byte s.mem (s.oneByte (a + ((idx + BitVec.ofNat 48 k) <<< 3)))
    Ends (scanBytes v a idx n) s fun c u => s.Looked u ∧ c.1 ≤ n ∧ (∀ k, k < c.1 → item k ≠ v) ∧
      if c.2 then c.1 = n else c.1 < n ∧ item c.1 = v := by
  intro item
  refine Ends.readLoop (fun j (c : Nat × Bool) => c.1 ≤ j ∧ (∀ k, k < c.1 → item k ≠ v) ∧
    if c.2 then c.1 = j else c.1 < j ∧ item c.1 = v) n ⟨Nat.le_refl 0, fun k hk => absurd hk (Nat.not_lt_zero k), rfl⟩ ?_
  rintro j ⟨c, going⟩ t hj hl ⟨hc, hne, hgo⟩
  cases going with
  | false => exact Ends.pure ⟨State.Looked.refl, Nat.le_succ_of_le hc, hne, Nat.lt_succ_of_lt hgo.1, hgo.2⟩
  | true =>
    obtain rfl : c = j := hgo
    have hitem : Memory.byte t.mem (t.oneByte (a + scaled 3 (idx + BitVec.ofNat 48 c))) = item c := by
      unfold State.oneByte
      rw [hl.mem, State.wrap_congr hl.params]
      rfl
    refine Ends.bind ⟨_, _, readByte_monitor (hl.mode.trans hm) _, ?_⟩
    rw [hitem]
    dsimp only
    have hlook : t.Looked (t.breakpoint false (byteAligned (a + scaled 3 (idx + BitVec.ofNat 48 c)))) :=
      State.Looked.refl.breakpoint _
    by_cases hv : item c = v
    · rw [if_pos hv]
      exact Ends.pure ⟨hlook, Nat.le_succ _, hne, Nat.lt_succ_self _, hv⟩
    · rw [if_neg hv]
      refine Ends.pure ⟨hlook, Nat.le_refl _, fun k hk => ?_, rfl⟩
      rcases Nat.lt_succ_iff_lt_or_eq.mp hk with hk | rfl
      · exact hne k hk
      · exact hv

/-- The scan of #1E: the first bit, and how many bits after it equal it. -/
theorem leadingEquals_results (hm : s.mode = .monitor) (a : Addr) {n : Nat} (hn : n ≠ 0) :
    let bit (k : Nat) : Bool := s.bitOfMemory (a + BitVec.ofNat 48 k)
    Ends (leadingEquals a n) s fun c u => s.Looked u ∧ c.first = bit 0 ∧ c.count < n ∧
      (∀ k, k < c.count → bit (k + 1) = bit 0) ∧ (c.count + 1 < n → bit (c.count + 1) ≠ bit 0) := by
  intro bit
  refine (Ends.readLoop (s := s) (fun j (c : Leading) => (j = 0 → c.going = true) ∧ (j ≠ 0 → c.first = bit 0 ∧ c.count < j ∧
    (∀ k, k < c.count → bit (k + 1) = bit 0) ∧
      if c.going then c.count + 1 = j else c.count + 1 < j ∧ bit (c.count + 1) ≠ bit 0)) n
    ⟨fun _ => rfl, fun h => absurd rfl h⟩ ?_).mono fun c u ⟨hl, _, hc⟩ => ?_
  · rintro j ⟨first, count, going⟩ t hj hl ⟨h0, hc⟩
    cases going with
    | false =>
      have hj0 : j ≠ 0 := fun h => Bool.false_ne_true (h0 h)
      obtain ⟨hf, hlt, hall, hgo⟩ := hc hj0
      exact Ends.pure ⟨State.Looked.refl, fun h => absurd h (Nat.succ_ne_zero j),
        fun _ => ⟨hf, Nat.lt_succ_of_lt hlt, hall, Nat.lt_succ_of_lt hgo.1, hgo.2⟩⟩
    | true =>
      refine Ends.bind ((Ends.bitOf hm hl a j).mono fun v u ⟨hlu, hv⟩ => ?_)
      subst hv
      by_cases hj0 : j = 0
      · subst hj0
        exact Ends.pure ⟨hlu, fun h => absurd h (Nat.succ_ne_zero 0), fun _ => ⟨rfl, Nat.zero_lt_one,
          fun k hk => absurd hk (Nat.not_lt_zero k), rfl⟩⟩
      · rw [if_neg hj0]
        obtain ⟨hf, hlt, hall, hgo⟩ := hc hj0
        have hgo' : count + 1 = j := hgo
        have hf' : first = bit 0 := hf
        by_cases hb : bit j = bit 0
        · rw [if_pos (show s.bitOfMemory (a + BitVec.ofNat 48 j) = first from hb.trans hf'.symm)]
          refine Ends.pure ⟨hlu, fun h => absurd h (Nat.succ_ne_zero j), fun _ => ⟨hf, Nat.succ_lt_succ hlt, fun k hk => ?_,
            congrArg (· + 1) hgo'⟩⟩
          rcases Nat.lt_succ_iff_lt_or_eq.mp hk with hk | rfl
          · exact hall k hk
          · rw [hgo']
            exact hb
        · rw [if_neg (show ¬ s.bitOfMemory (a + BitVec.ofNat 48 j) = first from fun h => hb (h.trans hf'))]
          refine Ends.pure ⟨hlu, fun h => absurd h (Nat.succ_ne_zero j), fun _ => ⟨hf, Nat.lt_succ_of_lt hlt, hall, ?_, ?_⟩⟩
          · exact Nat.lt_succ_of_le (Nat.le_of_eq hgo')
          · show bit (count + 1) ≠ bit 0
            rw [hgo']
            exact hb
  · obtain ⟨hf, hlt, hall, hgo⟩ := hc hn
    refine ⟨hl, hf, hlt, hall, fun h => ?_⟩
    cases hg : c.going with
    | true =>
      rw [hg, if_pos rfl] at hgo
      exact absurd h (Nat.not_lt.mpr (Nat.le_of_eq hgo.symm))
    | false =>
      rw [hg] at hgo
      exact hgo.2

theorem countP_range_succ (p : Nat → Bool) (n : Nat) :
    (List.range (n + 1)).countP p = (List.range n).countP p + (p n).toNat := by
  rw [List.range_succ, List.countP_append, List.countP_singleton]
  cases p n <;> rfl

theorem countOnes_results (hm : s.mode = .monitor) (a : Addr) (n : Nat) :
    Ends (elements n (fun k c => do return c + (← bitOf a k).toNat) 0) s fun c u =>
      s.Looked u ∧ c = (List.range n).countP fun k => s.bitOfMemory (a + BitVec.ofNat 48 k) :=
  Ends.readLoop (fun j c => c = (List.range j).countP fun k => s.bitOfMemory (a + BitVec.ofNat 48 k)) n rfl
    fun k y t _ hl hy => Ends.bind ((Ends.bitOf hm hl a k).mono fun v u ⟨hlu, hv⟩ => Ends.pure ⟨hlu, by
      rw [countP_range_succ, hv, hy]⟩)

section
variable {r sd t : Byte}

theorem exec_scnleq : exec (.scnleq r sd t) s = run32 (if s.len t = 0 then pure () else
    scanBytes r (s.addr t) (s.addr sd) (s.len t) >>= fun c => update fun u =>
      (u.setReg sd (joinLen (lenPart (u.reg sd)) (u.addr sd + BitVec.ofNat 48 c.1))).setFreeFlags (some c.2) none none) s := rfl

theorem exec_enteq : exec (.enteq r sd t) s = run32 (if s.len r = 0 then pure () else
    leadingEquals (s.addr r + s.addr sd) (s.len r) >>= fun c => update fun u =>
      (u.setReg t (BitVec.ofNat 64 c.count)).setFreeFlags (some c.first) none none) s := rfl

theorem exec_ento : exec (.ento r sd t) s = run32 (if s.len r = 0 then pure () else
    elements (s.len r) (fun k c => do return c + (← bitOf (s.addr r + s.addr sd) k).toNat) 0 >>= fun c =>
      update (·.setReg t (BitVec.ofNat 64 c))) s := rfl

end

end Sys2Proof.Machine

namespace Sys2Proof
open Machine

/-- Settles O40. -/
theorem scanResults : Obligations.ScanResults := by
  intro s r sd t hm a
  have h47 : 47 ∈ [47, 53, 54, 55] := List.mem_cons_self
  have hfree : ∀ k, k ∈ [53, 54, 55] → k ∈ [47, 53, 54, 55] := fun _ h => List.mem_cons_of_mem 47 h
  refine ⟨fun hn => ?_, fun hn => ?_, fun hn => ?_, fun h0 => ?_, fun h0 => ⟨?_, ?_⟩⟩
  · obtain ⟨c, u, hu, hl, hle, hne, hgo⟩ := scanBytes_results hm r (s.addr t) (s.addr sd) (s.len t)
    have hreg : u.reg sd = s.reg sd := State.Looked.reg hl sd
    have he := (exec_scnleq (r := r) (sd := sd) (t := t)).trans (run32_of_ok (by rw [if_neg hn]; exact (bind_ok hu).trans rfl))
    refine (((State.Within.refl.looked (changed := (· = sd)) hl h47).setReg _ rfl).setFreeFlags (some c.2) none none
      hfree).completes32_nothing he ?_
    refine ⟨c.1, hle, hne, fun hc => ?_, (State.setReg_reg_self ..).trans (by rw [State.addr, hreg]; rfl),
        (State.bitAt_setFreeFlags_53 ..).trans ?_⟩
    · cases hg : c.2 with
      | true => rw [hg, if_pos rfl] at hgo; exact absurd hgo (Nat.ne_of_lt hc)
      | false => rw [hg] at hgo; exact hgo.2
    · cases hg : c.2 with
      | true => rw [hg, if_pos rfl] at hgo; rw [decide_eq_true hgo]
      | false => rw [hg] at hgo; rw [decide_eq_false (Nat.ne_of_lt hgo.1)]
  · obtain ⟨c, u, hu, hl, hf, hlt, hall, hstop⟩ := leadingEquals_results hm a hn
    have h0 : s.bitOfMemory (a + BitVec.ofNat 48 0) = s.bitOfMemory a := by rw [BitVec.add_zero]
    simp only [h0] at hf hall hstop
    have he := (exec_enteq (r := r) (sd := sd) (t := t)).trans (run32_of_ok (by rw [if_neg hn]; exact (bind_ok hu).trans rfl))
    exact (((State.Within.refl.looked (changed := (· = t)) hl h47).setReg _ rfl).setFreeFlags (some c.first) none none
      hfree).completes32_nothing he ⟨c.count, hlt, hall, hstop, State.setReg_reg_self ..,
        (State.bitAt_setFreeFlags_53 ..).trans hf⟩
  · obtain ⟨c, u, hu, hl, rfl⟩ := countOnes_results hm a (s.len r)
    have he := (exec_ento (r := r) (sd := sd) (t := t)).trans (run32_of_ok (by rw [if_neg hn]; exact (bind_ok hu).trans rfl))
    exact ((State.Within.refl.looked (changed := (· = t)) hl List.mem_cons_self).setReg _ rfl).completes32_nothing he
      (State.setReg_reg_self ..)
  · rw [exec_scnleq, if_pos h0]
    rfl
  · rw [exec_enteq, if_pos h0]
    rfl
  · rw [exec_ento, if_pos h0]
    rfl

end Sys2Proof
end

