-- ==== Sys2Proof/Proofs/Strings.lean ====
section
/-! PROOFS. Loops that store bits and bytes in Monitor mode (spec/42_bit_byte_sm.md R234 to R243,
spec/49_string_cb.md R600 to R609). -/

-- One declaration at a time, as in the tests: many at once need a thread each.
set_option Elab.async false

namespace Sys2Proof.Machine

variable {s : State}

/-! ### Storing the bits of a string one by one -/

/-- The first `k` bits from `start` on are as `value` says. -/
def State.BitsAre (t : State) (start : Addr) (k : Nat) (value : Nat → Bool) : Prop :=
  ∀ i, i < k → t.bitOfMemory (start + BitVec.ofNat 48 i) = value i

theorem State.BitsAre.congr {t u : State} {start : Addr} {k : Nat} {value : Nat → Bool} (h : t.BitsAre start k value)
    (hp : u.params = t.params) (hmem : u.mem = t.mem) : u.BitsAre start k value := fun i hi =>
  (State.bitOfMemory_congr hp (by rw [hmem])).trans (h i hi)

theorem State.BitsAre.store {t : State} {start : Addr} {k n : Nat} {value : Nat → Bool} (h : t.BitsAre start k value)
    (hw : Memory.wf t.mem = true) (hok : t.params.ok = true) (hn : n ≤ 2 ^ t.params.cpmLog) (hk : k < n) :
    (t.withBit (start + BitVec.ofNat 48 k) (value k)).BitsAre start (k + 1) value := by
  intro i hi
  rw [State.bitOfMemory_withBit t _ _ hw]
  rcases Nat.lt_succ_iff_lt_or_eq.mp hi with hi | rfl
  · rw [if_neg (State.bits_ne hok hn start (Nat.lt_trans hi hk) hk (Nat.ne_of_lt hi))]
    exact h i hi
  · rw [if_pos rfl]

/-- A loop that stores one bit of a string in each round, by an invariant of what it computes. -/
theorem bitLoop_results {α : Type} {body : Nat → α → M α} {v : α} {n : Nat} {dst : Addr} {flags : List Nat}
    {value : Nat → Bool} {P : Prop} (A : Nat → α → State → Prop) (hw : Memory.wf s.mem = true) (h47 : 47 ∈ flags)
    (h0 : A 0 v s)
    (hbody : ∀ k a t, k < n → s.Within t nothing flags (s.inBits dst k) → A k a t → Ends (body k a) t fun a' u =>
      ∃ t' b, s.Within t' nothing flags (s.inBits dst k) ∧ t'.mem = t.mem ∧ u = t'.withBit (dst + BitVec.ofNat 48 k) b ∧
        (P → b = value k) ∧ A (k + 1) a' u) :
    Ends (elements n body v) s fun a t => s.Within t nothing flags (s.inBits dst n) ∧ A n a t ∧
      (P → s.params.ok = true → n ≤ 2 ^ s.params.cpmLog → t.BitsAre dst n value) := by
  refine Ends.elements (fun k a t => s.Within t nothing flags (s.inBits dst k) ∧ A k a t ∧
      (P → s.params.ok = true → n ≤ 2 ^ s.params.cpmLog → t.BitsAre dst k value)) n
    ⟨State.Within.refl, h0, fun _ _ _ i hi => absurd hi (Nat.not_lt_zero i)⟩ fun k a t hk ⟨hwithin, hA, hbits⟩ => ?_
  refine (hbody k a t hk hwithin hA).mono fun a' u ⟨t', b, hwithin', hmem, hu, hb, hA'⟩ => ?_
  subst hu
  refine ⟨hwithin'.storeBit b h47, hA', fun hP hok hn => ?_⟩
  rw [hb hP]
  have hp : t'.params = s.params := hwithin'.toFrame.params
  exact ((hbits hP hok hn).congr (hp.trans hwithin.toFrame.params.symm) hmem).store (hwithin'.toFrame.wf hw)
    (by rw [hp]; exact hok) (by rw [hp]; exact hn) hk

/-- A bit outside the string is what it was. -/
theorem State.Frame.bit_outside {t : State} {changed : Byte → Prop} {flags : List Nat} {dst x : Addr} {k n : Nat}
    (h : s.Frame t changed flags (s.inBits dst k)) (hw : Memory.wf s.mem = true) (hk : k ≤ n)
    (hx : ∀ j, j < n → s.bitByte x ≠ s.bitByte (dst + BitVec.ofNat 48 j)) : t.bitOfMemory x = s.bitOfMemory x :=
  h.bitOfMemory hw fun ⟨j, hj, he⟩ => hx j (Nat.lt_of_lt_of_le hj hk) he

/-- A loop of #14, #15, #16, #1C, #1D. -/
theorem fillBits_results {src : Nat → M Bool} {n : Nat} {dst : Addr} {value : Nat → Bool} {P : Prop}
    (hm : s.mode = .monitor) (hw : Memory.wf s.mem = true)
    (hsrc : ∀ k t, k < n → s.Within t nothing [47] (s.inBits dst k) →
      Ends (src k) t fun b u => t.Looked u ∧ (P → b = value k)) :
    Ends (fillBits n dst src) s fun _ t => s.Within t nothing [47] (s.inBits dst n) ∧
      (P → s.params.ok = true → n ≤ 2 ^ s.params.cpmLog → t.BitsAre dst n value) := by
  refine (bitLoop_results (fun _ _ _ => True) hw List.mem_cons_self trivial fun k _ t hk hwithin _ => ?_).mono
    fun _ _ ⟨h1, _, h2⟩ => ⟨h1, h2⟩
  refine Ends.bind ((hsrc k t hk hwithin).mono fun b u ⟨hl, hb⟩ => ?_)
  exact ⟨_, _, writeBit_withBit (hl.mode.trans (hwithin.toFrame.mode.trans hm)) _ b, u, b,
    hwithin.looked hl List.mem_cons_self, hl.mem, rfl, hb, trivial⟩

/-! ### Bits compressed, merged and masked (R234, R235, R236) -/

/-- A source of bits: a place in memory, or none for a zero. -/
def sourceBit : Option Addr → M Bool
  | some x => readBit x
  | none => pure false

/-- The instruction that fills field T with bits of other fields. -/
theorem fillBits_copy {i : Instr} {skip : Bool} {p : Prop} [Decidable p] {n : Nat} {dst : Addr} {src : Nat → Option Addr}
    {f : Nat → M Bool} (hm : s.mode = .monitor) (hw : Memory.wf s.mem = true)
    (hi : exec i s = run32 (if p then pure () else fillBits n dst f) s) (hskip : skip = decide p)
    (hf : ∀ k, f k = sourceBit (src k)) :
    (skip = true → exec i s = .next { s with pc := s.behind32 }) ∧
    (skip = false → Completes i s s.behind32 nothing [47] (s.inBits dst n) fun u =>
      s.params.ok = true → n ≤ 2 ^ s.params.cpmLog →
      (∀ k, k < n → ∀ x, src k = some x → ∀ j, j < n → s.bitByte x ≠ s.bitByte (dst + BitVec.ofNat 48 j)) →
      ∀ k, k < n → u.bitOfMemory (dst + BitVec.ofNat 48 k) = match src k with
        | some x => s.bitOfMemory x
        | none => false) := by
  subst hskip
  refine ⟨fun h => ?_, fun h => ?_⟩
  · rw [hi, if_pos (of_decide_eq_true h)]
    rfl
  · have hres := fillBits_results (src := f) (n := n) (dst := dst)
      (value := fun k => match src k with | some x => s.bitOfMemory x | none => false)
      (P := ∀ k, k < n → ∀ x, src k = some x → ∀ j, j < n → s.bitByte x ≠ s.bitByte (dst + BitVec.ofNat 48 j)) hm hw
      fun k t hk hwithin => by
        rw [hf k]
        cases hx : src k with
        | none => exact Ends.pure ⟨State.Looked.refl, fun _ => by simp only⟩
        | some x =>
          refine ⟨_, _, readBit_monitor (hwithin.toFrame.mode.trans hm) x, State.Looked.refl.breakpoint _, fun hP => ?_⟩
          simp only
          exact hwithin.toFrame.bit_outside hw (Nat.le_of_lt hk) (hP k hk x hx)
    obtain ⟨_, t, ht, hwithin, hbits⟩ := hres
    have he : exec i s = .next t.next32 := by
      rw [hi, if_neg (of_decide_eq_false h)]
      exact run32_of_ok ht
    exact hwithin.completes32 hw he fun hok hn hP => hbits hP hok hn

theorem bitOrZero_eq (x : Addr) (k : Nat) :
    bitOrZero x k = sourceBit (if x = 0 then none else some (x + BitVec.ofNat 48 k)) := by
  unfold bitOrZero
  by_cases h : x = 0
  · rw [if_pos h, if_pos h]; rfl
  · rw [if_neg h, if_neg h]; rfl

theorem sourceBit_ite {p : Prop} [Decidable p] (u v : Option Addr) :
    sourceBit (if p then u else v) = if p then sourceBit u else sourceBit v := by
  split <;> rfl

/-! ### Repeated masks (R242, R243) -/

theorem repeatedMask_results {v : Bool} {lead m n : Nat} {dst : Addr} {i : Instr} (hm : s.mode = .monitor)
    (hw : Memory.wf s.mem = true) (hi : exec i s = run32 (repeatedMask v lead m n dst) s) (hlead : lead ≤ m) :
    Completes i s s.behind32 nothing [47] (s.inBits dst n) fun u => s.params.ok = true → n ≤ 2 ^ s.params.cpmLog → m ≠ 0 →
      ∀ k, k < n → u.bitOfMemory (dst + BitVec.ofNat 48 k) = if k % m < lead then v else !v := by
  by_cases h0 : m = 0
  · refine State.Within.completes32 (t := s) State.Within.refl hw ?_ fun _ _ h => absurd h0 h
    rw [hi, repeatedMask, if_pos h0]
    rfl
  · obtain ⟨_, t, ht, hwithin, hbits⟩ := fillBits_results (s := s) (n := n) (dst := dst) (P := True)
      (src := fun k => pure (if k % m < lead then v else !v)) (value := fun k => if k % m < lead then v else !v) hm hw
      fun k t _ _ => Ends.pure ⟨State.Looked.refl, fun _ => rfl⟩
    refine hwithin.completes32 hw ?_ fun hok hn _ => hbits trivial hok hn
    rw [hi, repeatedMask, if_neg h0]
    exact run32_of_ok ((bind_ok (refuseIf_false (decide_eq_false (Nat.not_lt.mpr hlead)))).trans ht)

/-! ### Logical operations on strings (R600) -/

/-- Bit `i` of a string of `n` bits, zero beyond its end. -/
def State.stringBitOf (s : State) (n : Nat) (a : Addr) (i : Nat) : Bool :=
  decide (i < n) && s.bitOfMemory (a + BitVec.ofNat 48 i)

/-- A string is read as it was before the stores that are apart from it. -/
theorem Ends.stringBit {t : State} {n m k j : Nat} {a dst : Addr} {flags : List Nat} (hm : s.mode = .monitor)
    (hw : Memory.wf s.mem = true) (h : s.Within t nothing flags (s.inBits dst k)) (hk : k ≤ m) :
    Ends (stringBit n a j) t fun v u => t.Looked u ∧ (s.stringsApart a n dst m → v = s.stringBitOf n a j) := by
  unfold Machine.stringBit State.stringBitOf
  by_cases hj : j < n
  · rw [if_pos hj, decide_eq_true hj]
    refine ⟨_, _, readBit_monitor (h.toFrame.mode.trans hm) _, State.Looked.refl.breakpoint _, fun hap => ?_⟩
    exact h.toFrame.bit_outside hw hk (hap j hj)
  · rw [if_neg hj, decide_eq_false hj]
    exact Ends.pure ⟨State.Looked.refl, fun _ => rfl⟩

theorem all_not_iff (p : Nat → Bool) (n : Nat) : ((List.range n).countP p == 0) = (List.range n).all fun i => !p i := by
  rw [Bool.eq_iff_iff, beq_iff_eq, List.countP_eq_zero, List.all_eq_true]
  exact forall_congr' fun i => imp_congr_right fun _ => by simp

theorem all_iff (p : Nat → Bool) (n : Nat) : ((List.range n).countP p == n) = (List.range n).all p := by
  rw [Bool.eq_iff_iff, beq_iff_eq, List.all_eq_true]
  have h := List.countP_eq_length (p := p) (l := List.range n)
  rwa [List.length_range] at h

/-- The string is mixed exactly if it has a one and a zero. -/
theorem mixed_iff (p : Nat → Bool) (n : Nat) : ((List.range n).countP p != 0 && (List.range n).countP p != n) =
    ((List.range n).any p && (List.range n).any fun i => !p i) := by
  unfold bne
  rw [all_not_iff, all_iff, List.not_all_eq_any_not, List.not_all_eq_any_not]
  simp only [Bool.not_not]

/-- One round of a logical operation. -/
def stringRound (f : Bool → Bool → Bool) (la lb : Nat) (a b dst : Addr) (i k : Nat) : M Nat := do
  let p ← stringBit la a i
  let q ← stringBit lb b i
  writeBit (dst + BitVec.ofNat 48 i) (f p q)
  return k + (f p q).toNat

theorem stringRounds_results {f : Bool → Bool → Bool} {la lb n : Nat} {a b dst : Addr} (hm : s.mode = .monitor)
    (hw : Memory.wf s.mem = true) :
    let value (i : Nat) : Bool := f (s.stringBitOf la a i) (s.stringBitOf lb b i)
    let P := s.stringsApart a la dst n ∧ s.stringsApart b lb dst n
    Ends (elements n (stringRound f la lb a b dst) 0) s fun c t =>
      s.Within t nothing [47, 53, 54, 55] (s.inBits dst n) ∧ (P → c = (List.range n).countP value) ∧
        (P → s.params.ok = true → n ≤ 2 ^ s.params.cpmLog → t.BitsAre dst n value) := by
  intro value P
  have h47 : 47 ∈ [47, 53, 54, 55] := List.mem_cons_self
  refine bitLoop_results (fun k c _ => P → c = (List.range k).countP value) hw h47 (fun _ => rfl)
    fun k c t hk hwithin hc => ?_
  refine Ends.bind ((Ends.stringBit hm hw hwithin (Nat.le_of_lt hk)).mono fun p t1 ⟨hl1, hp⟩ => ?_)
  have hwithin1 := hwithin.looked hl1 h47
  refine Ends.bind ((Ends.stringBit hm hw hwithin1 (Nat.le_of_lt hk)).mono fun q t2 ⟨hl2, hq⟩ => ?_)
  have hwithin2 := hwithin1.looked hl2 h47
  have hv (hP : P) : f p q = value k := (congrArg (f · q) (hp hP.1)).trans (congrArg (f _) (hq hP.2))
  refine Ends.bind ⟨_, _, writeBit_withBit (hwithin2.toFrame.mode.trans hm) _ _, Ends.pure
    ⟨t2, f p q, hwithin2, hl2.mem.trans hl1.mem, rfl, hv, fun hP => ?_⟩⟩
  rw [countP_range_succ, hv hP, hc hP]

/-- A logical operation on strings. -/
theorem stringLogic_results {f h : Bool → Bool → Bool} {x a y b z c : Byte} {i : Instr}
    (hi : exec i s = stringLogic f x a y b z c s) (hf : ∀ u v, f u v = h u v) (hm : s.mode = .monitor)
    (hw : Memory.wf s.mem = true) :
    let n := s.len c - (s.index z).toNat
    let la := s.len a - (s.index x).toNat
    let lb := s.len b - (s.index y).toNat
    let dst := s.addr c + s.index z
    (n = 0 → exec i s = .next { s with pc := s.behind64 }) ∧
    (n ≠ 0 → Completes i s s.behind64 nothing [47, 53, 54, 55] (s.inBits dst n) fun u =>
      s.params.ok = true → n ≤ 2 ^ s.params.cpmLog → s.stringsApart (s.addr a + s.index x) la dst n →
      s.stringsApart (s.addr b + s.index y) lb dst n →
        let v (i : Nat) : Bool := h (s.stringBitOf la (s.addr a + s.index x) i) (s.stringBitOf lb (s.addr b + s.index y) i)
        (∀ i, i < n → u.bitOfMemory (dst + BitVec.ofNat 48 i) = v i) ∧
        bitAt u.dfr 53 = (List.range n).all (fun i => !v i) ∧ bitAt u.dfr 55 = (List.range n).all v ∧
        bitAt u.dfr 54 = ((List.range n).any v && (List.range n).any fun i => !v i)) := by
  intro n la lb dst
  obtain rfl : f = h := funext fun u => funext fun v => hf u v
  have he : exec i s = run64 (if n = 0 then pure () else
    elements n (stringRound f la lb (s.addr a + s.index x) (s.addr b + s.index y) dst) 0 >>= fun ones =>
      update (·.setFreeFlags (some (ones == 0)) (some (ones != 0 && ones != n)) (some (ones == n)))) s := hi
  refine ⟨fun h0 => ?_, fun hn => ?_⟩
  · rw [he, if_pos h0]
    rfl
  · obtain ⟨ones, t, ht, hwithin, hones, hbits⟩ := stringRounds_results (s := s) (f := f) (la := la) (lb := lb) (n := n)
      (a := s.addr a + s.index x) (b := s.addr b + s.index y) (dst := dst) hm hw
    rw [if_neg hn] at he
    refine (hwithin.setFreeFlags _ _ _ fun _ h => List.mem_cons_of_mem 47 h).completes64 hw
      (he.trans (run64_of_ok ((bind_ok ht).trans rfl))) fun hok hfit ha hb => ⟨?_, ?_, ?_, ?_⟩
    · exact (hbits ⟨ha, hb⟩ hok hfit).congr rfl rfl
    · exact (State.bitAt_setFreeFlags_53 ..).trans (by rw [hones ⟨ha, hb⟩]; exact all_not_iff ..)
    · exact (State.bitAt_setFreeFlags_55 ..).trans (by rw [hones ⟨ha, hb⟩]; exact all_iff ..)
    · exact (State.bitAt_setFreeFlags_54 ..).trans (by rw [hones ⟨ha, hb⟩]; exact mixed_iff ..)

/-! ### Move Bytes Left (R609) -/

/-- A byte of a field that is counted from an item on. -/
theorem oneByte_item (s : State) (p ix : Addr) (i : Nat) : s.oneByte (p + ((ix + BitVec.ofNat 48 i) <<< 3)) =
    s.oneByte (p + ix <<< 3 + scaled 3 (BitVec.ofNat 48 i)) := by
  rw [BitVec.shiftLeft_add_distrib, ← BitVec.add_assoc]
  rfl

/-- The state with a byte stored, behind the breakpoint compare. -/
def State.withByte (s : State) (a : Addr) (v : Byte) : State :=
  (s.breakpoint true (byteAligned a)).putByte (s.wrap (byteAligned a).toNat) v

theorem State.byte_withByte (hw : Memory.wf s.mem = true) (a : Addr) (v : Byte) (k : Nat) :
    Memory.byte (s.withByte a v).mem k = if k = s.oneByte a then v else Memory.byte s.mem k := by
  refine (congrArg (Memory.byte · k) (State.putByte_mem ..)).trans ((Memory.byte_setByte (by simpa using hw) _ _ _).trans ?_)
  rw [State.breakpoint_mem]
  rfl

theorem State.Within.withByte {t : State} {changed : Byte → Prop} {flags : List Nat} {stored : Nat → Prop}
    (h : s.Within t changed flags stored) {a : Addr} (v : Byte) (hf : 47 ∈ flags) (hb : stored (s.oneByte a)) :
    s.Within (t.withByte a v) changed flags stored := by
  refine ⟨(h.toFrame.breakpoint true _ hf).putByte v ?_, by unfold State.withByte; simpa using h.pc⟩
  rw [h.toFrame.wrap]
  exact hb

/-- Each round stores a byte of a source, or the fill byte behind its end. -/
theorem moveBytes_results {n la : Nat} {src dst : Nat → Addr} {b : Byte} (hm : s.mode = .monitor)
    (hw : Memory.wf s.mem = true) :
    Ends (elements n (fun i _ => do
      let v ← if i < la then readByte (src i) else pure b
      writeByte (dst i) v) ()) s fun _ t => s.Within t nothing [47] (fun k => ∃ i, i < n ∧ k = s.oneByte (dst i)) ∧
        ((∀ i j, i < n → j < n → i ≠ j → s.oneByte (dst i) ≠ s.oneByte (dst j)) →
          (∀ i, i < la → ∀ j, j < n → s.oneByte (src i) ≠ s.oneByte (dst j)) → ∀ i, i < n →
          Memory.byte t.mem (s.oneByte (dst i)) = if i < la then Memory.byte s.mem (s.oneByte (src i)) else b) := by
  have h47 : 47 ∈ [47] := List.mem_cons_self
  refine Ends.elements (fun k _ t => s.Within t nothing [47] (fun l => ∃ i, i < k ∧ l = s.oneByte (dst i)) ∧
    ((∀ i j, i < n → j < n → i ≠ j → s.oneByte (dst i) ≠ s.oneByte (dst j)) →
      (∀ i, i < la → ∀ j, j < n → s.oneByte (src i) ≠ s.oneByte (dst j)) → ∀ i, i < k →
      Memory.byte t.mem (s.oneByte (dst i)) = if i < la then Memory.byte s.mem (s.oneByte (src i)) else b)) n
    ⟨State.Within.refl, fun _ _ i hi => absurd hi (Nat.not_lt_zero i)⟩ fun k _ t hk ⟨hwithin, hval⟩ => ?_
  have hone {u : State} (hp : u.params = s.params) (a : Addr) : u.oneByte a = s.oneByte a := by
    unfold State.oneByte
    rw [State.wrap_congr hp]
  have hmt := hwithin.toFrame.mode.trans hm
  have hread : Ends (if k < la then readByte (src k) else pure b) t fun v u => t.Looked u ∧
      ((∀ i, i < la → ∀ j, j < n → s.oneByte (src i) ≠ s.oneByte (dst j)) →
        v = if k < la then Memory.byte s.mem (s.oneByte (src k)) else b) := by
    by_cases hl : k < la
    · rw [if_pos hl, if_pos hl]
      refine ⟨_, _, readByte_monitor hmt _, State.Looked.refl.breakpoint _, fun hap => ?_⟩
      rw [hone hwithin.toFrame.params]
      exact hwithin.toFrame.bytes hw _ fun ⟨j, hj, he⟩ => hap k hl j (Nat.lt_trans hj hk) he
    · rw [if_neg hl, if_neg hl]
      exact Ends.pure ⟨State.Looked.refl, fun _ => rfl⟩
  refine Ends.joined (hread.mono fun v u ⟨hlu, hv⟩ => ⟨_, u.withByte (dst k) v, writeByte_monitor (hlu.mode.trans hmt) _ _, ?_, ?_⟩)
  · exact ((hwithin.looked hlu h47).mono fun _ ⟨i, hi, he⟩ => ⟨i, Nat.lt_succ_of_lt hi, he⟩).withByte v h47
      ⟨k, Nat.lt_succ_self k, rfl⟩
  · intro hne hap i hi
    rw [State.byte_withByte ((hwithin.looked hlu h47).toFrame.wf hw), hone (hwithin.looked hlu h47).toFrame.params]
    rcases Nat.lt_succ_iff_lt_or_eq.mp hi with hi | rfl
    · rw [if_neg (hne i k (Nat.lt_trans hi hk) hk (Nat.ne_of_lt hi)), hlu.mem]
      exact hval hne hap i hi
    · rw [if_pos rfl]
      exact hv hap

theorem movl_result {x a b z c : Byte} (hm : s.mode = .monitor) (hw : Memory.wf s.mem = true) :
    let n := s.len c - (s.index z).toNat
    let la := s.len a - (s.index x).toNat
    let dst (i : Nat) : Addr := s.addr c + ((s.index z + BitVec.ofNat 48 i) <<< 3)
    let src (i : Nat) : Addr := s.addr a + ((s.index x + BitVec.ofNat 48 i) <<< 3)
    Completes (.movl x a b z c) s s.behind64 nothing [47] (fun k => ∃ i, i < n ∧ k = s.oneByte (dst i)) fun u =>
      s.params.ok = true → 8 * n ≤ 2 ^ s.params.cpmLog →
      (∀ i, i < la → ∀ j, j < n → s.oneByte (src i) ≠ s.oneByte (dst j)) →
      ∀ i, i < n → Memory.byte u.mem (s.oneByte (dst i)) = if i < la then Memory.byte s.mem (s.oneByte (src i)) else b := by
  intro n la dst src
  obtain ⟨_, t, ht, hwithin, hval⟩ := moveBytes_results (s := s) (n := n) (la := la) (src := src) (dst := dst) (b := b) hm hw
  refine hwithin.completes64 hw (run64_of_ok ht) fun hok hfit hap => hval (fun i j hi hj hij => ?_) hap
  rw [oneByte_item, oneByte_item]
  exact State.bytes_ne hok hfit _ hi hj hij

end Sys2Proof.Machine

namespace Sys2Proof
open Machine

/-- Settles O41. -/
theorem bitFieldStores : Obligations.BitFieldStores := by
  intro s r sd t hm hw m n dst one two
  refine ⟨List.forall_mem_cons.2 ⟨?_, List.forall_mem_cons.2 ⟨?_, List.forall_mem_cons.2 ⟨?_, fun _ h => by cases h⟩⟩⟩,
    fun h0 => ?_, fun hle => ?_⟩
  · exact fillBits_copy (i := .cpsb r sd t) hm hw rfl rfl fun _ => rfl
  · refine fillBits_copy (i := .mrgb r sd t) hm hw rfl rfl fun k => ?_
    rw [sourceBit_ite, ← bitOrZero_eq]
    rfl
  · refine fillBits_copy (i := .maskb r sd t) hm hw rfl rfl fun k => ?_
    rw [sourceBit_ite, ← bitOrZero_eq]
    rfl
  · have hz (v : Bool) : repeatedMask v m n (s.len t) (s.addr t) = pure () := if_pos h0
    refine List.forall_mem_cons.2 ⟨?_, List.forall_mem_cons.2 ⟨?_, fun _ h => by cases h⟩⟩
    · exact (congrArg (run32 · s) (hz false)).trans rfl
    · exact (congrArg (run32 · s) (hz true)).trans rfl
  · exact List.forall_mem_cons.2 ⟨repeatedMask_results (i := .maskz r sd t) hm hw rfl hle,
      List.forall_mem_cons.2 ⟨repeatedMask_results (i := .masko r sd t) hm hw rfl hle, fun _ h => by cases h⟩⟩

/-- Settles O55. -/
theorem stringsAndBytes : Obligations.StringsAndBytes := by
  intro s x a y b z c hm hw
  refine ⟨?_, movl_result hm hw⟩
  simp only [List.forall_mem_cons]
  exact ⟨stringLogic_results (i := .xor x a y b z c) rfl (by decide) hm hw,
    stringLogic_results (i := .and x a y b z c) rfl (fun _ _ => rfl) hm hw,
    stringLogic_results (i := .ior x a y b z c) rfl (fun _ _ => rfl) hm hw,
    stringLogic_results (i := .nand x a y b z c) rfl (fun _ _ => rfl) hm hw,
    stringLogic_results (i := .nor x a y b z c) rfl (fun _ _ => rfl) hm hw,
    stringLogic_results (i := .orn x a y b z c) rfl (fun _ _ => rfl) hm hw,
    stringLogic_results (i := .andn x a y b z c) rfl (fun _ _ => rfl) hm hw,
    stringLogic_results (h := fun u v => !(xor u v)) (i := .xorn x a y b z c) rfl (by decide) hm hw, fun _ h => by cases h⟩

end Sys2Proof
end

