-- ==== Sys2Proof/Proofs/Selects.lean ====
section
/-! PROOFS. Select and masked search (spec/48_vector_macro.md R551 to R554, R563, R580). -/

-- One declaration at a time, as in the tests: many at once need a thread each.
set_option Elab.async false

namespace Sys2Proof.Machine

variable {s : State}

/-! ### Frames and raised flags -/

namespace State.Within

variable {t : State} {changed : Byte → Prop} {flags : List Nat} {stored : Nat → Prop}

theorem moreFlags (h : s.Within t changed flags stored) {flags' : List Nat} (hs : ∀ k ∈ flags, k ∈ flags') (hne : flags' ≠ []) :
    s.Within t changed flags' stored :=
  ⟨⟨h.regs, ⟨fun e => absurd e hne, fun k hk hf hd => h.flagsOnly.2 k hk (fun hc => hf (hs k hc)) hd⟩, h.wf, h.bytes, h.same, h.rest⟩,
    h.pc⟩

theorem moreRegs (h : s.Within t changed flags stored) {changed' : Byte → Prop} (hs : ∀ n, changed n → changed' n) :
    s.Within t changed' flags stored :=
  ⟨⟨fun n hn => h.regs n fun hc => hn (hs n hc), h.flagsOnly, h.wf, h.bytes, h.same, h.rest⟩, h.pc⟩

theorem mem_nothing (h : s.Within t changed flags nothing) : t.mem = s.mem := (h.same fun _ => id).1

theorem streamElem_nothing (h : s.Within t changed flags nothing) (st : Stream) (w : Width) (ext : Word) (i : Nat) :
    t.streamElem st w ext i = s.streamElem st w ext i := by
  unfold State.streamElem
  split
  · rfl
  · rw [State.elemOfMemory_congr h.toFrame.params fun _ _ _ => by rw [h.mem_nothing]]

theorem permissive_nothing (h : s.Within t changed flags nothing) (ctl : Control) (i : Nat) :
    t.permissive ctl i = s.permissive ctl i := by
  unfold State.permissive
  split
  · rfl
  · rw [State.bitOfMemory_congr h.toFrame.params (by rw [h.mem_nothing])]

theorem completes64_nothing (h : s.Within t changed flags nothing) {i : Instr} {result : State → Prop}
    (he : exec i s = .next t.next64) (hr : result t.next64) : Completes i s s.behind64 changed flags nothing result :=
  h.toFrame.next64.completes_nothing he hr (State.next64_pc_of h.pc)

end State.Within

namespace State.FlagsRaised

variable {t u : State} {n : Nat} {raised raised' : Nat → Option FpFlags}

theorem of_bits (h : s.FlagsRaised t n raised) (hd : ∀ p ∈ arithmeticFlags, bitAt u.dfr p.2 = bitAt t.dfr p.2) :
    s.FlagsRaised u n raised := fun p hp => by
  rw [hd p hp]
  exact h p hp

theorem congr_raised (h : s.FlagsRaised t n raised) (hr : ∀ i, i < n → raised i = raised' i) : s.FlagsRaised t n raised' := by
  intro p hp
  refine ⟨fun hs => (h p hp).1 (hs.imp id fun ⟨i, f, hi, hf, hpf⟩ => ⟨i, f, hi, (hr i hi).trans hf, hpf⟩),
    fun hu => ((h p hp).2 hu).imp id fun ⟨i, hi, hall⟩ => ⟨i, hi, fun f hf => hall f ((hr i hi).trans hf)⟩⟩

theorem next64 (h : s.FlagsRaised t n raised) : s.FlagsRaised t.next64 n raised := h.of_bits fun _ _ => by rw [State.next64_dfr]

/-- Setting flag 37 is not raising an arithmetic flag. -/
theorem setFlag_37 (h : s.FlagsRaised t n raised) (v : Bool) : s.FlagsRaised (t.setFlag 37 v) n raised := by
  refine h.of_bits fun p hp => ?_
  obtain ⟨h1, h2, h3⟩ := arithmeticFlags_plain p hp
  rw [bitAt_setFlag_stored t v (by decide) h1 h3, if_neg]
  revert p
  simp [arithmeticFlags]

end State.FlagsRaised

theorem among_cmp (c : Cmp) : c.flags.Among [46] := ⟨nofun, nofun, nofun, nofun, fun _ => by decide⟩

/-! ### Comparing two elements -/

/-- The pair is read and compared, and the flag of the comparison raised. -/
theorem Ends.comparePair {t : State} {w : Width} {p q : Stream} {i : Nat} (hm : t.mode = .monitor) :
    Ends (comparePair w p q i) t fun c u => ∃ t', t.Looked t' ∧ u = t'.raiseFlags .vector c.flags ∧
      c = fpCompare w (t.streamElem p w (machineZero w) i) (t.streamElem q w (machineZero w) i) := by
  refine Ends.bind (Ends.bind (Ends.elem hm fun t1 h1 => ?_))
  have hl1 := State.Looked.of_breakpoint h1
  refine Ends.bind (Ends.elem (hl1.mode.trans hm) fun t2 h2 => Ends.pure (Ends.bind (Ends.update (Ends.pure
    ⟨t2, hl1.trans (State.Looked.of_breakpoint h2), rfl, ?_⟩))))
  rw [hl1.streamElem]

theorem Ends.permits_looked {t : State} {ctl : Control} {i : Nat} (hm : t.mode = .monitor) :
    Ends (ctl.permits i) t fun v u => t.Looked u ∧ v = t.permissive ctl i :=
  Ends.permits hm fun _ hu => ⟨State.Looked.of_breakpoint hu, rfl⟩

/-! ### Select (R580) -/

/-- The flags that select raises at position `i` where the search ends at `k`. -/
def selectFlags (perm : Nat → Bool) (cmp : Nat → Cmp) (k i : Nat) : Option FpFlags :=
  if i ≤ k ∧ perm i = true then some (cmp i).flags else some {}

/-- The search behind `j` positions: `found` is the first permitted pair that meets the condition. -/
structure SearchedTo (perm : Nat → Bool) (met : Nat → Bool) (n j : Nat) (found : Option Nat) : Prop where
  before : ∀ i, i < j → i < found.getD n → perm i = true → met i = false
  at_found : ∀ k, found = some k → k < j ∧ perm k = true ∧ met k = true

namespace SearchedTo

variable {perm met : Nat → Bool} {n j : Nat}

theorem start : SearchedTo perm met n 0 none := ⟨fun i hi => absurd hi (Nat.not_lt_zero i), fun _ h => by cases h⟩

theorem goneOn {k : Nat} (h : SearchedTo perm met n j (some k)) : SearchedTo perm met n (j + 1) (some k) := by
  obtain ⟨hk, hp, hc⟩ := h.at_found k rfl
  refine ⟨fun i _ hik hpi => h.before i (Nat.lt_trans hik hk) hik hpi, fun l hl => ?_⟩
  cases hl
  exact ⟨Nat.lt_succ_of_lt hk, hp, hc⟩

theorem hit (h : SearchedTo perm met n j none) (hj : j < n) (hp : perm j = true) (hm : met j = true) :
    SearchedTo perm met n (j + 1) (some j) := by
  refine ⟨fun i _ hij hpi => h.before i hij (Nat.lt_trans hij hj) hpi, fun k hk => ?_⟩
  cases hk
  exact ⟨Nat.lt_succ_self j, hp, hm⟩

theorem miss (h : SearchedTo perm met n j none) (hm : perm j = true → met j = false) : SearchedTo perm met n (j + 1) none := by
  refine ⟨fun i hi hin hpi => ?_, fun k hk => by cases hk⟩
  rcases Nat.lt_succ_iff_lt_or_eq.mp hi with hi | rfl
  · exact h.before i hi hin hpi
  · exact hm hpi

end SearchedTo

theorem selectRounds_results {w : Width} {cond : Cmp → Bool} {p q : Stream} {ctl : Control} {n : Nat}
    (hm : s.mode = .monitor) :
    let cmp (i : Nat) : Cmp := fpCompare w (s.streamElem p w (machineZero w) i) (s.streamElem q w (machineZero w) i)
    Ends (elements n (selectStep w cond p q ctl) none) s fun found t => s.Within t nothing (vectorFlags [46]) nothing ∧
      SearchedTo (s.permissive ctl) (fun i => cond (cmp i)) n n found ∧
      s.FlagsRaised t n (selectFlags (s.permissive ctl) cmp (found.getD n)) := by
  intro cmp
  have h47 : 47 ∈ vectorFlags [46] := List.mem_cons_self
  refine Ends.elements (fun j found t => s.Within t nothing (vectorFlags [46]) nothing ∧
    SearchedTo (s.permissive ctl) (fun i => cond (cmp i)) n j found ∧
    s.FlagsRaised t j (selectFlags (s.permissive ctl) cmp (found.getD n))) n
    ⟨State.Within.refl, .start, State.FlagsRaised.zero s _⟩ ?_
  rintro j (_ | k) t hj ⟨hwithin, hsearch, hraised⟩
  · have hmt := hwithin.toFrame.mode.trans hm
    refine Ends.bind ((Ends.permits_looked hmt).mono fun v t1 ⟨hl1, hv⟩ => ?_)
    rw [hwithin.permissive_nothing] at hv
    have hwithin1 := hwithin.looked hl1 h47
    by_cases hp : s.permissive ctl j = true
    · rw [if_pos (hv.trans hp)]
      refine Ends.bind ((Ends.comparePair (hl1.mode.trans hmt)).mono fun c u ⟨t2, hl2, hu, hc⟩ => ?_)
      rw [hwithin1.streamElem_nothing, hwithin1.streamElem_nothing] at hc
      obtain rfl : c = cmp j := hc
      subst hu
      have hraised' (k : Nat) (hk : j ≤ k) (hkn : k ≤ n) :
          s.FlagsRaised (t2.raiseFlags .vector (cmp j).flags) (j + 1) (selectFlags (s.permissive ctl) cmp k) := by
        refine ((hraised.looked (hl1.trans hl2)).congr_raised fun i hi => ?_).raise fun e he => ?_
        · unfold selectFlags
          rw [Option.getD_none]
          simp only [Nat.le_trans (Nat.le_of_lt hi) hk, Nat.le_trans (Nat.le_of_lt hi) (Nat.le_of_lt hj)]
        · unfold selectFlags at he
          rw [if_pos ⟨hk, hp⟩] at he
          exact (Option.some.inj he).symm
      refine Ends.pure ⟨(hwithin1.looked hl2 h47).raiseFlags (among_cmp _).vector, ?_⟩
      by_cases hc : cond (cmp j) = true
      · rw [if_pos hc]
        exact ⟨hsearch.hit hj hp hc, hraised' j (Nat.le_refl j) (Nat.le_of_lt hj)⟩
      · rw [if_neg hc]
        exact ⟨hsearch.miss fun _ => Bool.eq_false_iff.mpr hc, hraised' n (Nat.le_of_lt hj) (Nat.le_refl n)⟩
    · rw [if_neg fun h => hp (hv.symm.trans h)]
      refine Ends.pure ⟨hwithin1, hsearch.miss fun h => absurd h hp, (hraised.looked hl1).skip fun e he => ?_⟩
      unfold selectFlags at he
      rw [if_neg fun h => hp h.2] at he
      exact (Option.some.inj he).symm
  · obtain ⟨hk, -, -⟩ := hsearch.at_found k rfl
    refine Ends.pure ⟨hwithin, hsearch.goneOn, hraised.skip fun e he => ?_⟩
    unfold selectFlags at he
    rw [if_neg fun h => absurd (Nat.lt_of_lt_of_le hk h.1) (Nat.lt_irrefl _)] at he
    exact (Option.some.inj he).symm

/-- A search ends at a hit or behind the last position. -/
theorem SearchedTo.ends {perm met : Nat → Bool} {n : Nat} {found : Option Nat} (h : SearchedTo perm met n n found) :
    found.getD n ≤ n ∧ (∀ i, i < found.getD n → perm i = true → met i = false) ∧
    (found.getD n < n → perm (found.getD n) = true ∧ met (found.getD n) = true) ∧
    (found.isNone = decide (found.getD n = n)) := by
  cases found with
  | none => exact ⟨Nat.le_refl n, fun i hi hp => h.before i hi hi hp, fun hlt => absurd hlt (Nat.lt_irrefl n), (decide_eq_true rfl).symm⟩
  | some k =>
    obtain ⟨hk, hp, hm⟩ := h.at_found k rfl
    exact ⟨Nat.le_of_lt hk, fun i hi hpi => h.before i (Nat.lt_trans hi hk) hi hpi, fun _ => ⟨hp, hm⟩,
      (decide_eq_false (Nat.ne_of_lt hk)).symm⟩

/-- A result register gets its value; designator zero a free one. -/
theorem setResult_ok (c : Byte) (v : Word) (t : State) : ∃ k v', setResult c v t = .ok ((), { t with free := k }.setReg c v') ∧
    (c ≠ 0 → v' = v) := by
  unfold setResult
  split
  · next h0 => exact ⟨_, _, rfl, fun h => absurd h0 h⟩
  · exact ⟨t.free, _, rfl, fun _ => rfl⟩

/-- Flag 37 where the search found nothing. -/
def State.noteMiss (s : State) (missed : Bool) : State := if missed then s.setFlag 37 true else s

theorem update_noteMiss {b : Bool} {t : State} :
    (if b then update (·.setFlag 37 true) else pure () : M Unit) t = .ok ((), t.noteMiss b) := by
  cases b <;> rfl

theorem State.noteMiss_reg (t : State) (b : Bool) (r : Byte) : (t.noteMiss b).reg r = t.reg r := by cases b <;> rfl

theorem State.bitAt_noteMiss (t : State) (b : Bool) : bitAt (t.noteMiss b).dfr 37 = (bitAt t.dfr 37 || b) := by
  cases b
  · exact (Bool.or_false _).symm
  · exact (bitAt_setFlag_stored t true (by decide) (by decide) (by decide)).trans (Bool.or_true _).symm

theorem State.Within.noteMiss {t : State} {changed : Byte → Prop} {flags : List Nat} {stored : Nat → Prop}
    (h : s.Within t changed flags stored) (hf : 37 ∈ flags) (b : Bool) : s.Within (t.noteMiss b) changed flags stored := by
  cases b
  · exact h
  · exact h.setFlag true (by decide) hf

theorem State.FlagsRaised.noteMiss {t : State} {n : Nat} {raised : Nat → Option FpFlags} (h : s.FlagsRaised t n raised)
    (b : Bool) : s.FlagsRaised (t.noteMiss b) n raised := by
  cases b
  · exact h
  · exact h.setFlag_37 true

section
variable {g x a y b z c : Byte} {i : Instr} {cond : Cmp → Bool}

theorem select_results (hi : exec i s = select cond g x a y b z c s) (hm : s.mode = .monitor)
    (hx : s.sourceOk (bitAt g 3) x) (hy : s.sourceOk (bitAt g 4) y) (hq : (bitAt g 3 && bitAt g 4) = false) :
    let w := gWidth g
    let p := s.streamOf w (bitAt g 3) a x
    let q := s.streamOf w (bitAt g 4) b y
    let n := pairCount p q
    let cmp (i : Nat) : Cmp := fpCompare w (s.streamElem p w (machineZero w) i) (s.streamElem q w (machineZero w) i)
    (n = 0 → exec i s = .next { s with pc := s.behind64 }) ∧
    (n ≠ 0 → Completes i s s.behind64 (· = c) (37 :: vectorFlags [46]) nothing fun u =>
      ∃ k, k ≤ n ∧ (c ≠ 0 → u.reg c = BitVec.ofNat 64 k) ∧
        s.FlagsRaised u n (selectFlags (s.permissive (s.control g z 0)) cmp k) ∧
        (∀ i, i < k → s.permissive (s.control g z 0) i = true → cond (cmp i) = false) ∧
        (k < n → s.permissive (s.control g z 0) k = true ∧ cond (cmp k) = true) ∧
        bitAt u.dfr 37 = (bitAt s.dfr 37 || decide (k = n))) := by
  intro w p q n cmp
  have he : exec i s = run64 (if n = 0 then pure () else
      elements n (selectStep w cond p q (s.control g z 0)) none >>= fun found =>
        setResult c (BitVec.ofNat 64 (found.getD n)) >>= fun _ =>
          if found.isNone then update (·.setFlag 37 true) else pure ()) s :=
    hi.trans (run64_congr ((bind_ok (refuseIf_false hq)).trans ((bind_ok (source_ok w a hx)).trans
      ((bind_ok (source_ok w b hy)).trans rfl))))
  refine ⟨fun h0 => ?_, fun hn => ?_⟩
  · rw [he, if_pos h0]
    rfl
  · obtain ⟨found, t, ht, hwithin, hsearch, hraised⟩ := selectRounds_results (s := s) (w := w) (cond := cond) (p := p) (q := q)
      (ctl := s.control g z 0) (n := n) hm
    obtain ⟨hle, hbefore, hfound, hnone⟩ := hsearch.ends
    obtain ⟨k, v, hk, hv⟩ := setResult_ok c (BitVec.ofNat 64 (found.getD n)) t
    have h37 : bitAt t.dfr 37 = bitAt s.dfr 37 := hwithin.flagsOnly.2 37 (by decide) (by decide) (by decide)
    refine State.Within.completes64_nothing (t := ({ t with free := k }.setReg c v).noteMiss found.isNone)
      (((((hwithin.moreFlags (fun _ => List.mem_cons_of_mem 37) (List.cons_ne_nil _ _)).moreRegs (changed' := (· = c))
        fun _ h => h.elim).draw k).setReg v rfl).noteMiss List.mem_cons_self _)
      ((he.trans (run64_of_ok (by
        rw [if_neg hn]
        exact (bind_ok ht).trans ((bind_ok hk).trans update_noteMiss))))) ⟨found.getD n, hle, fun hc => ?_, ?_, hbefore, hfound, ?_⟩
    · rw [State.next64_reg, State.noteMiss_reg, State.setReg_reg_self, hv hc]
    · exact ((hraised.of_bits (u := { t with free := k }.setReg c v) fun _ _ => rfl).noteMiss _).next64
    · refine (State.bitAt_noteMiss ..).trans ?_
      rw [hnone]
      exact congrArg (· || _) h37

end

/-! ### Masked binary compare (R563) -/

/-- One round of the search: the first word that meets the condition ends it. -/
def maskedRound (g x a b c : Byte) (s : State) (j : Nat) (r : Option Nat) : M (Option Nat) :=
  match r with
  | some k => pure (some k)
  | none => do
    let v ← readWord (s.addr a + scaled 6 (s.addr x + BitVec.ofNat 48 j))
    return if ((v &&& s.reg c) == (s.reg b &&& s.reg c)) != bitAt g 7 then some j else none

theorem mcmpw_result {g x a b c : Byte} (hm : s.mode = .monitor) :
    let n := s.len a - (s.addr x).toNat
    let hit (j : Nat) : Bool :=
      ((s.elemOfMemory .w64 (s.addr a + ((s.addr x + BitVec.ofNat 48 j) <<< 6)) &&& s.reg c) == (s.reg b &&& s.reg c))
        != bitAt g 7
    (n = 0 → exec (.mcmpw g x a b c) s = .next { s with pc := s.behind64 }) ∧
    (n ≠ 0 → Completes (.mcmpw g x a b c) s s.behind64 (· = x) [37, 47] nothing fun u =>
      ∃ k, k ≤ n ∧ u.reg x = lenPart (s.reg x) ++ (s.addr x + BitVec.ofNat 48 k) ∧
        (∀ j, j < k → hit j = false) ∧ (k < n → hit k = true) ∧
        bitAt u.dfr 37 = (bitAt s.dfr 37 || decide (k = n))) := by
  intro n hit
  have he : exec (.mcmpw g x a b c) s = run64 (if n = 0 then pure () else
      elements n (maskedRound g x a b c s) none >>= fun found =>
        update (·.setReg x (joinLen (lenPart (s.reg x)) (s.addr x + BitVec.ofNat 48 (found.getD n)))) >>= fun _ =>
          if found.isNone then update (·.setFlag 37 true) else pure ()) s := rfl
  refine ⟨fun h0 => ?_, fun hn => ?_⟩
  · rw [he, if_pos h0]
    rfl
  · have hloop := Ends.readLoop (s := s) (v := none) (fun j (r : Option Nat) => SearchedTo (fun _ => true) hit n j r) n .start
      (f := maskedRound g x a b c s) ?_
    · obtain ⟨found, t, ht, hl, hsearch⟩ := hloop
      obtain ⟨hle, hbefore, hfound, hnone⟩ := hsearch.ends
      have hwithin : s.Within t (· = x) [47] nothing := State.Within.refl.looked hl List.mem_cons_self
      have h37 : bitAt t.dfr 37 = bitAt s.dfr 37 := hwithin.flagsOnly.2 37 (by decide) (by decide) (by decide)
      refine State.Within.completes64_nothing (((hwithin.moreFlags (fun _ => List.mem_cons_of_mem 37)
        (List.cons_ne_nil _ _)).setReg
        (joinLen (lenPart (s.reg x)) (s.addr x + BitVec.ofNat 48 (found.getD n))) rfl).noteMiss List.mem_cons_self found.isNone) (he.trans (run64_of_ok ?_))
        ⟨found.getD n, hle, ?_, fun j hj => hbefore j hj rfl, fun h => (hfound h).2, ?_⟩
      · rw [if_neg hn]
        exact (bind_ok ht).trans ((bind_ok rfl).trans update_noteMiss)
      · exact (State.noteMiss_reg ..).trans (State.setReg_reg_self ..)
      · refine (State.bitAt_noteMiss ..).trans ?_
        rw [hnone]
        exact congrArg (· || _) h37
    · rintro j (_ | k) t hj hl hsearch
      · have hv : t.elemOfMemory .w64 (s.addr a + scaled 6 (s.addr x + BitVec.ofNat 48 j)) =
            s.elemOfMemory .w64 (s.addr a + ((s.addr x + BitVec.ofNat 48 j) <<< 6)) := hl.elemOfMemory ..
        refine Ends.bind ⟨_, _, readElem_monitor (w := .w64) (hl.mode.trans hm) _, ?_⟩
        rw [hv]
        refine Ends.pure ⟨State.Looked.refl.breakpoint _, ?_⟩
        show SearchedTo (fun _ => true) hit n (j + 1) (if hit j = true then some j else none)
        by_cases hh : hit j = true
        · rw [if_pos hh]
          exact hsearch.hit hj rfl hh
        · rw [if_neg hh]
          exact hsearch.miss fun _ => Bool.eq_false_iff.mpr hh
      · exact Ends.pure ⟨State.Looked.refl, hsearch.goneOn⟩

end Sys2Proof.Machine

namespace Sys2Proof
open Machine

/-- Settles O52. -/
theorem selectResults : Obligations.SelectResults := by
  intro s g x a y b z c hm
  refine ⟨fun hx hy hq => ?_, mcmpw_result hm⟩
  simp only [List.forall_mem_cons]
  exact ⟨select_results (i := .seleq g x a y b z c) rfl hm hx hy hq, select_results (i := .selne g x a y b z c) rfl hm hx hy hq,
    select_results (i := .selge g x a y b z c) rfl hm hx hy hq, select_results (i := .sellt g x a y b z c) rfl hm hx hy hq,
    fun _ h => by cases h⟩

end Sys2Proof
end

