-- ==== Sys2Proof/Proofs/Searches.lean ====
section
/-! PROOFS. Compare to an order vector, and vector search (spec/48_vector_macro.md R555 to R562, R581, R582). -/

-- One declaration at a time, as in the tests: many at once need a thread each.
set_option Elab.async false

namespace Sys2Proof.Machine

variable {s : State}

/-! ### Order vectors (R581) -/

/-- A source apart from a string is what it was. -/
theorem State.Frame.streamElem_outBits {t : State} {changed : Byte → Prop} {flags : List Nat} {st : Stream} {w : Width}
    {start : Addr} {k n : Nat} (h : s.Frame t changed flags (s.inBits start k)) (hw : Memory.wf s.mem = true)
    (ha : s.apartFromBits st w start n) (hk : k ≤ n) (ext : Word) (i : Nat) : t.streamElem st w ext i = s.streamElem st w ext i := by
  unfold State.streamElem
  cases st with
  | const v => rfl
  | vec a len =>
    simp only
    split
    · next hi =>
      refine h.elemOfMemory hw fun b h1 h2 => ?_
      rintro ⟨j, hj, rfl⟩
      have := ha j (Nat.lt_of_lt_of_le hj hk) i hi
      omega
    · rfl

theorem State.bitAt_withBit_dfr (t : State) (a : Addr) (v : Bool) {k : Nat} (hk : k < 64) (h47 : k ≠ 47)
    (hd : k ∉ derivedBits) : bitAt (t.withBit a v).dfr k = bitAt t.dfr k := by
  rw [State.withBit_dfr]
  exact t.bitAt_breakpoint true a hk h47 hd

theorem compareVector_result {g x a y b z : Byte} {i : Instr} {cond : Cmp → Bool}
    (hi : exec i s = compareVector cond g x a y b z s) (hm : s.mode = .monitor) (hw : Memory.wf s.mem = true)
    (hx : s.sourceOk (bitAt g 3) x) (hy : s.sourceOk (bitAt g 4) y) :
    let w := gWidth g
    let p := s.streamOf w (bitAt g 3) a x
    let q := s.streamOf w (bitAt g 4) b y
    Completes i s s.behind64 nothing (vectorFlags [46]) (s.inBits (s.addr z) (s.len z)) fun u =>
      s.params.ok = true → s.len z ≤ 2 ^ s.params.cpmLog → s.apartFromBits p w (s.addr z) (s.len z) →
      s.apartFromBits q w (s.addr z) (s.len z) →
        let cmp (i : Nat) : Cmp := fpCompare w (s.streamElem p w (machineZero w) i) (s.streamElem q w (machineZero w) i)
        (∀ i, i < s.len z → u.bitOfMemory (s.addr z + BitVec.ofNat 48 i) = cond (cmp i)) ∧
        s.FlagsRaised u (s.len z) fun i => some (cmp i).flags := by
  intro w p q
  have h47 : 47 ∈ vectorFlags [46] := List.mem_cons_self
  have hloop := bitLoop_results (s := s) (n := s.len z) (dst := s.addr z) (flags := vectorFlags [46]) (v := ())
    (body := fun i _ => do
      let c ← comparePair w p q i
      writeBit (s.addr z + BitVec.ofNat 48 i) (cond c))
    (value := fun i => cond (fpCompare w (s.streamElem p w (machineZero w) i) (s.streamElem q w (machineZero w) i)))
    (P := s.apartFromBits p w (s.addr z) (s.len z) ∧ s.apartFromBits q w (s.addr z) (s.len z))
    (fun k _ t => s.apartFromBits p w (s.addr z) (s.len z) ∧ s.apartFromBits q w (s.addr z) (s.len z) →
      s.FlagsRaised t k fun i => some (fpCompare w (s.streamElem p w (machineZero w) i) (s.streamElem q w (machineZero w) i)).flags)
    hw h47 (fun _ => State.FlagsRaised.zero s _) fun k _ t hk hwithin hraised => by
      have hmt := hwithin.toFrame.mode.trans hm
      refine Ends.bind ((Ends.comparePair hmt).mono fun c u ⟨t2, hl, hu, hc⟩ => ?_)
      have hwithin2 := (hwithin.looked hl h47).raiseFlags (among_cmp c).vector
      subst hu
      have hcmp (hP : s.apartFromBits p w (s.addr z) (s.len z) ∧ s.apartFromBits q w (s.addr z) (s.len z)) :
          c = fpCompare w (s.streamElem p w (machineZero w) k) (s.streamElem q w (machineZero w) k) := by
        rw [hc, hwithin.toFrame.streamElem_outBits hw hP.1 (Nat.le_of_lt hk),
          hwithin.toFrame.streamElem_outBits hw hP.2 (Nat.le_of_lt hk)]
      refine ⟨_, _, writeBit_withBit (hwithin2.toFrame.mode.trans hm) _ _, _, cond c, hwithin2, hl.mem, rfl,
        fun hP => by rw [hcmp hP], fun hP => ?_⟩
      refine (((hraised hP).looked hl).raise fun e he => ?_).congr fun i hi h47 hd => State.bitAt_withBit_dfr _ _ _ hi h47 hd
      rw [← Option.some.inj he, hcmp hP]
  obtain ⟨_, t, ht, hwithin, hraised, hbits⟩ := hloop
  exact hwithin.completes64 hw (hi.trans (run64_of_ok ((bind_ok (source_ok w a hx)).trans ((bind_ok (source_ok w b hy)).trans ht))))
    fun hok hn hp hq => ⟨hbits ⟨hp, hq⟩ hok hn, hraised ⟨hp, hq⟩⟩

/-! ### One search (R582) -/

/-- Where a search of `n` elements from `start` on ends: at the first that meets the condition, or behind the last. -/
structure SearchEnds (met : Nat → Bool) (start n k : Nat) : Prop where
  lower : start ≤ k
  upper : k ≤ n
  before : ∀ i, start ≤ i → i < k → met i = false
  hit : k < n → met k = true

/-- The flags gathered by a search: those of the comparisons it makes. -/
def SearchFlags (cmp : Nat → Cmp) (start n k : Nat) (f : FpFlags) : Prop :=
  ∀ p ∈ arithmeticFlags, p.1 f = true ↔ ∃ i, start ≤ i ∧ i ≤ k ∧ i < n ∧ p.1 (cmp i).flags = true

/-- One more comparison of a search that goes on. -/
theorem SearchFlags.next {cmp : Nat → Cmp} {start n k m : Nat} {f : FpFlags} (h : SearchFlags cmp start n k f) (hs : start ≤ n)
    (hk : n ≤ k) (hm : n ≤ m) : SearchFlags cmp start (n + 1) m (f.or (cmp n).flags) := by
  intro p hp
  rw [arithmeticFlags_or _ _ p hp, Bool.or_eq_true, h p hp]
  constructor
  · rintro (⟨i, h1, h2, h3, h4⟩ | h4)
    · exact ⟨i, h1, Nat.le_trans (Nat.le_of_lt h3) hm, Nat.lt_succ_of_lt h3, h4⟩
    · exact ⟨n, hs, hm, Nat.lt_succ_self n, h4⟩
  · rintro ⟨i, h1, h2, h3, h4⟩
    rcases Nat.lt_succ_iff_lt_or_eq.mp h3 with h3 | rfl
    · exact .inl ⟨i, h1, Nat.le_trans (Nat.le_of_lt h3) hk, h3, h4⟩
    · exact .inr h4

theorem searchFrom_results {t : State} {w : Width} {cond : Cmp → Bool} {p q : Stream} {j start n : Nat}
    (hm : t.mode = .monitor) (hs : start ≤ n) :
    let cmp (k : Nat) : Cmp := fpCompare w (t.streamElem p w (machineZero w) j) (t.streamElem q w (machineZero w) k)
    Ends (searchFrom w cond p q j start (n - start)) t fun r u => t.Looked u ∧ r.2.Among [46] ∧
      SearchEnds (fun k => cond (cmp k)) start n (r.1.getD n) ∧ SearchFlags cmp start n (r.1.getD n) r.2 := by
  intro cmp
  have hloop := Ends.upTo (s := t) (x := ((none : Option Nat), ({} : FpFlags)))
    (b := fun k (acc : Option Nat × FpFlags) => match acc.1 with
      | some _ => pure acc
      | none => do
        let x ← p.elem w (machineZero w) j
        let y ← q.elem w (machineZero w) (start + k)
        let c := fpCompare w x y
        return (if cond c then some (start + k) else none, acc.2.or c.flags))
    (fun k r u => t.Looked u ∧ r.2.Among [46] ∧
      SearchedTo (fun i => decide (start ≤ i)) (fun k => cond (cmp k)) n (start + k) r.1 ∧
      SearchFlags cmp start (start + k) (r.1.getD n) r.2) (n - start)
    ⟨State.Looked.refl, FpFlags.among_none, ⟨fun i hi _ hp => absurd hi (Nat.not_lt.mpr (of_decide_eq_true hp)), fun _ h => by cases h⟩,
      fun f hf => ⟨fun h => ?_, fun ⟨i, hi, _, hi', _⟩ => absurd hi' (Nat.not_lt.mpr hi)⟩⟩ ?_
  · obtain ⟨r, u, hu, hl, ha, hsearch, hflags⟩ := hloop
    rw [Nat.add_sub_cancel' hs] at hsearch hflags
    obtain ⟨hle, hbefore, hfound, -⟩ := hsearch.ends
    refine ⟨r, u, hu, hl, ha, ⟨?_, hle, fun i hi hik => hbefore i hik (decide_eq_true hi), fun hk => (hfound hk).2⟩, ?_⟩
    · rcases Nat.lt_or_eq_of_le hle with hk | hk
      · exact of_decide_eq_true (hfound hk).1
      · rw [hk]
        exact hs
    · exact hflags
  · exact absurd ((arithmeticFlags_none f hf).symm.trans h) Bool.false_ne_true
  · rintro k ⟨_ | l, f⟩ u hk ⟨hl, ha, hsearch, hflags⟩
    · have hpos : start + k < n := by omega
      have hcmp : fpCompare w (u.streamElem p w (machineZero w) j) (u.streamElem q w (machineZero w) (start + k)) =
          cmp (start + k) := by rw [hl.streamElem, hl.streamElem]
      refine Ends.bind (Ends.elem (hl.mode.trans hm) fun u1 h1 => ?_)
      have hl1 := State.Looked.of_breakpoint h1
      refine Ends.bind (Ends.elem (hl1.mode.trans (hl.mode.trans hm)) fun u2 h2 => ?_)
      rw [hl1.streamElem]
      simp only [hcmp]
      refine Ends.pure ⟨(hl.trans hl1).trans (State.Looked.of_breakpoint h2), among_or ha (among_cmp _), ?_, ?_⟩
      · by_cases hc : cond (cmp (start + k)) = true
        · rw [if_pos hc]
          exact hsearch.hit hpos (decide_eq_true (Nat.le_add_right start k)) hc
        · rw [if_neg hc]
          exact hsearch.miss fun _ => Bool.eq_false_iff.mpr hc
      · have hlast (m : Nat) (hm : start + k ≤ m) : SearchFlags cmp start (start + k + 1) m (f.or (cmp (start + k)).flags) :=
          hflags.next (Nat.le_add_right start k) (Nat.le_of_lt hpos) hm
        by_cases hc : cond (cmp (start + k)) = true
        · rw [if_pos hc]
          exact hlast _ (Nat.le_refl _)
        · rw [if_neg hc]
          exact hlast _ (Nat.le_of_lt hpos)
    · refine Ends.pure ⟨hl, ha, hsearch.goneOn, fun p hp => (hflags p hp).trans (exists_congr fun i => ?_)⟩
      have hlt := (hsearch.at_found l rfl).1
      exact and_congr_right fun _ => and_congr_right fun hil => and_congr_left' ⟨Nat.lt_succ_of_lt,
        fun _ => Nat.lt_of_le_of_lt hil hlt⟩

/-! ### Flags raised in blocks -/

namespace State.FlagsRaised

variable {t : State} {n m : Nat} {r : Nat → FpFlags}

/-- The flags of a block of results are raised together. -/
theorem raiseBlock (h : s.FlagsRaised t n fun i => some (r i)) (hnm : n ≤ m) {f : FpFlags}
    (hf : ∀ p ∈ arithmeticFlags, p.1 f = true ↔ ∃ i, n ≤ i ∧ i < m ∧ p.1 (r i) = true) :
    s.FlagsRaised (t.raiseFlags .vector f) m fun i => some (r i) := by
  intro p hp
  obtain ⟨h1, h2, h3⟩ := arithmeticFlags_plain p hp
  have hbit : bitAt (t.raiseFlags .vector f).dfr p.2 = (bitAt t.dfr p.2 || p.1 f) := by
    rw [State.raiseFlags_dfr, bitAt_deriveDfr_stored _ h1 h3, bitAt_or, bitAt_raisedBits_vector f p hp]
  obtain ⟨hset, hback⟩ := h p hp
  rw [hbit, Bool.or_eq_true, hf p hp]
  refine ⟨fun hs => ?_, fun hu => ?_⟩
  · rcases hs with hs | ⟨i, e, hi, he, hpe⟩
    · exact .inl (hset (.inl hs))
    · rcases Nat.lt_or_ge i n with hin | hin
      · exact .inl (hset (.inr ⟨i, e, hin, he, hpe⟩))
      · exact .inr ⟨i, hin, hi, by rw [Option.some.inj he]; exact hpe⟩
  · rcases hu with hu | ⟨i, _, hi, hpi⟩
    · exact (hback hu).imp id fun ⟨i, hi, hall⟩ => ⟨i, Nat.lt_of_lt_of_le hi hnm, hall⟩
    · exact .inr ⟨i, hi, fun e he => by rw [← Option.some.inj he]; exact hpi⟩

/-- A block of results that raise none. -/
theorem skipBlock (h : s.FlagsRaised t n fun i => some (r i)) (hnm : n ≤ m) (hr : ∀ i, n ≤ i → i < m → r i = {}) :
    s.FlagsRaised t m fun i => some (r i) := by
  induction hnm with
  | refl => exact h
  | @step m hnm ih =>
    refine (ih fun i h1 h2 => hr i h1 (Nat.lt_succ_of_lt h2)).skip fun e he => ?_
    rw [← Option.some.inj he]
    exact hr m hnm (Nat.lt_succ_self m)

end State.FlagsRaised

/-! ### Vector search (R582) -/

/-- Where search `j` starts: at the first element, or with `lh` where the last search ended (decision D45). -/
def searchStart (lh : Bool) (found : Nat → Nat) (j : Nat) : Nat := if lh = true ∧ j ≠ 0 then found (j - 1) else 0

/-- The flags of comparison `e` of search `j`, at place `j * nb + e`. -/
def searchRaised (lh : Bool) (perm : Nat → Bool) (cmp : Nat → Nat → Cmp) (nb : Nat) (found : Nat → Nat) (i : Nat) : FpFlags :=
  if searchStart lh found (i / nb) ≤ i % nb ∧ i % nb ≤ found (i / nb) ∧ perm (i / nb) = true then (cmp (i / nb) (i % nb)).flags
  else {}

/-- What the first `k` searches have found, stored and raised. -/
structure State.SearchesDone (s t : State) (lh : Bool) (cond : Cmp → Bool) (perm : Nat → Bool) (cmp : Nat → Nat → Cmp)
    (nb : Nat) (start : Addr) (found : Nat → Nat) (k : Nat) : Prop where
  raised : s.FlagsRaised t (k * nb) fun i => some (searchRaised lh perm cmp nb found i)
  ends : ∀ j, j < k → SearchEnds (fun e => cond (cmp j e)) (searchStart lh found j) nb (found j)
  stored : ∀ j, j < k → t.elemOfMemory .w64 (itemAddr .w64 start j) =
    if perm j then BitVec.ofNat 64 (found j) else s.elemOfMemory .w64 (itemAddr .w64 start j)

section
variable {t : State} {lh : Bool} {cond : Cmp → Bool} {perm : Nat → Bool} {cmp : Nat → Nat → Cmp} {nb k : Nat} {start : Addr}
  {found : Nat → Nat}

theorem searchStart_congr {found' : Nat → Nat} {j : Nat} (h : ∀ i, i < j → found' i = found i) :
    searchStart lh found' j = searchStart lh found j := by
  unfold searchStart
  split
  · next hj => exact h _ (Nat.sub_lt (Nat.pos_of_ne_zero hj.2) Nat.zero_lt_one)
  · rfl

/-- What the first `k` searches have done does not depend on what later ones find. -/
theorem State.SearchesDone.congr {found' : Nat → Nat} (h : s.SearchesDone t lh cond perm cmp nb start found k)
    (hf : ∀ j, j < k → found' j = found j) : s.SearchesDone t lh cond perm cmp nb start found' k := by
  have hs (j : Nat) (hj : j < k) : searchStart lh found' j = searchStart lh found j :=
    searchStart_congr fun i hi => hf i (Nat.lt_trans hi hj)
  refine ⟨h.raised.congr_raised fun i hi => congrArg some ?_, fun j hj => ?_, fun j hj => ?_⟩
  · have hj : i / nb < k := Nat.div_lt_of_lt_mul (by rwa [Nat.mul_comm])
    unfold searchRaised
    rw [hs _ hj, hf _ hj]
  · rw [hs j hj, hf j hj]
    exact h.ends j hj
  · rw [hf j hj]
    exact h.stored j hj

/-- The flags of search `k` as a block. -/
theorem searchRaised_block {f : FpFlags} (hf : SearchFlags (cmp k) (searchStart lh found k) nb (found k) f)
    (hp : perm k = true) : ∀ p ∈ arithmeticFlags, p.1 f = true ↔
      ∃ i, k * nb ≤ i ∧ i < (k + 1) * nb ∧ p.1 (searchRaised lh perm cmp nb found i) = true := by
  intro p hp'
  rw [hf p hp']
  have hval (e : Nat) (he : e < nb) : searchRaised lh perm cmp nb found (k * nb + e) =
      if searchStart lh found k ≤ e ∧ e ≤ found k then (cmp k e).flags else {} := by
    unfold searchRaised
    rw [(group_of_position he).1, (group_of_position he).2]
    simp only [hp, and_true]
  constructor
  · rintro ⟨e, h1, h2, he, h4⟩
    refine ⟨k * nb + e, Nat.le_add_right _ _, by rw [Nat.succ_mul]; exact Nat.add_lt_add_left he _, ?_⟩
    rw [hval e he, if_pos ⟨h1, h2⟩]
    exact h4
  · rintro ⟨i, h1, h2, h3⟩
    obtain ⟨e, rfl⟩ := Nat.exists_eq_add_of_le h1
    have he : e < nb := by
      rw [Nat.succ_mul] at h2
      exact Nat.lt_of_add_lt_add_left h2
    rw [hval e he] at h3
    by_cases hc : searchStart lh found k ≤ e ∧ e ≤ found k
    · rw [if_pos hc] at h3
      exact ⟨e, hc.1, hc.2, he, h3⟩
    · rw [if_neg hc, arithmeticFlags_none p hp'] at h3
      cases h3

theorem searchRaised_skip (hp : perm k = false) {i : Nat} (h1 : k * nb ≤ i) (h2 : i < (k + 1) * nb) :
    searchRaised lh perm cmp nb found i = {} := by
  obtain ⟨e, rfl⟩ := Nat.exists_eq_add_of_le h1
  have he : e < nb := by
    rw [Nat.succ_mul] at h2
    exact Nat.lt_of_add_lt_add_left h2
  unfold searchRaised
  rw [(group_of_position he).1, if_neg fun h => Bool.false_ne_true (hp.symm.trans h.2.2)]

end

section
variable {t : State} {lh : Bool} {cond : Cmp → Bool} {perm : Nat → Bool} {cmp : Nat → Nat → Cmp} {nb k index : Nat} {start : Addr}
  {found : Nat → Nat} {f : FpFlags}

/-- The results of the searches with that of search `k`. -/
def foundWith (found : Nat → Nat) (k index : Nat) (j : Nat) : Nat := if j = k then index else found j

theorem foundWith_ne {j : Nat} (h : j ≠ k) : foundWith found k index j = found j := if_neg h

theorem foundWith_self (found : Nat → Nat) (k index : Nat) : foundWith found k index k = index := if_pos rfl

/-- One more search, of a permitted position. -/
theorem State.SearchesDone.store (h : s.SearchesDone t lh cond perm cmp nb start found k)
    (hends : SearchEnds (fun e => cond (cmp k e)) (searchStart lh found k) nb index)
    (hf : SearchFlags (cmp k) (searchStart lh found k) nb index f) (hp : perm k = true) (hw : Memory.wf t.mem = true)
    (hap : ∀ j, j < k → t.elemsApart .w64 (itemAddr .w64 start k) .w64 (itemAddr .w64 start j)) :
    s.SearchesDone ((t.withElem .w64 (itemAddr .w64 start k) (BitVec.ofNat 64 index)).raiseFlags .vector f) lh cond perm cmp nb
      start (foundWith found k index) (k + 1) := by
  have hold (j : Nat) (hj : j < k) : foundWith found k index j = found j := foundWith_ne (Nat.ne_of_lt hj)
  have hnew : foundWith found k index k = index := foundWith_self ..
  have hs : searchStart lh (foundWith found k index) k = searchStart lh found k := searchStart_congr hold
  have hdone := h.congr hold
  refine ⟨?_, fun j hj => ?_, fun j hj => ?_⟩
  · refine (hdone.raised.congr fun i hi h47 hd => ?_).raiseBlock (Nat.mul_le_mul_right nb (Nat.le_succ k))
      (searchRaised_block (by rw [hs, hnew]; exact hf) hp)
    rw [State.withElem_dfr, t.bitAt_breakpoint true _ hi h47 hd]
  · rcases Nat.lt_succ_iff_lt_or_eq.mp hj with hj | rfl
    · exact hdone.ends j hj
    · rw [hs, hnew]
      exact hends
  · rcases Nat.lt_succ_iff_lt_or_eq.mp hj with hj | rfl
    · exact (State.elemOfMemory_withElem_ne t .w64 _ _ hw (hap j hj)).trans (hdone.stored j hj)
    · rw [if_pos hp, hnew]
      exact State.elemOfMemory_withElem_self t .w64 _ _ hw

/-- One more search, of a position that is not permitted. -/
theorem State.SearchesDone.skip (h : s.SearchesDone t lh cond perm cmp nb start found k)
    (hends : SearchEnds (fun e => cond (cmp k e)) (searchStart lh found k) nb index) (hp : perm k = false)
    (hk : t.elemOfMemory .w64 (itemAddr .w64 start k) = s.elemOfMemory .w64 (itemAddr .w64 start k)) :
    s.SearchesDone t lh cond perm cmp nb start (foundWith found k index) (k + 1) := by
  have hold (j : Nat) (hj : j < k) : foundWith found k index j = found j := foundWith_ne (Nat.ne_of_lt hj)
  have hs : searchStart lh (foundWith found k index) k = searchStart lh found k := searchStart_congr hold
  have hdone := h.congr hold
  refine ⟨hdone.raised.skipBlock (Nat.mul_le_mul_right nb (Nat.le_succ k)) fun i h1 h2 => searchRaised_skip hp h1 h2,
    fun j hj => ?_, fun j hj => ?_⟩
  · rcases Nat.lt_succ_iff_lt_or_eq.mp hj with hj | rfl
    · exact hdone.ends j hj
    · rw [hs, foundWith_self]
      exact hends
  · rcases Nat.lt_succ_iff_lt_or_eq.mp hj with hj | rfl
    · exact hdone.stored j hj
    · rw [if_neg (by rw [hp]; exact Bool.false_ne_true)]
      exact hk

theorem State.SearchesDone.looked {u : State} (h : s.SearchesDone t lh cond perm cmp nb start found k) (hl : t.Looked u) :
    s.SearchesDone u lh cond perm cmp nb start found k :=
  ⟨h.raised.looked hl, h.ends, fun j hj => (hl.elemOfMemory ..).trans (h.stored j hj)⟩

end

/-- One search and the store of its item count. -/
def searchRound (w : Width) (cond : Cmp → Bool) (p q : Stream) (ctl : Control) (lh : Bool) (dst : Addr) (n j start : Nat) : M Nat := do
  let r ← searchFrom w cond p q j start (n - start)
  let index := r.1.getD n
  if ← ctl.permits j then
    writeWord (itemAddr .w64 dst j) (BitVec.ofNat 64 index)
    update (·.raiseFlags .vector r.2)
  return if lh then index else 0

theorem searchRounds_results {w : Width} {cond : Cmp → Bool} {p q : Stream} {ctl : Control} {lh : Bool} {dst : Addr}
    {na nb : Nat} (hm : s.mode = .monitor) (hw : Memory.wf s.mem = true) :
    let cmp (j k : Nat) : Cmp := fpCompare w (s.streamElem p w (machineZero w) j) (s.streamElem q w (machineZero w) k)
    Ends (elements na (searchRound w cond p q ctl lh dst nb) 0) s fun _ t =>
      s.Within t nothing (vectorFlags [46]) (s.inField .w64 dst na) ∧
      (s.params.ok = true → na * 64 ≤ 2 ^ s.params.cpmLog → s.apart p w .w64 dst na → s.apart q w .w64 dst na →
        s.controlApart ctl .w64 dst na → ∃ found, s.SearchesDone t lh cond (s.permissive ctl) cmp nb dst found na) := by
  intro cmp
  have h47 : 47 ∈ vectorFlags [46] := List.mem_cons_self
  refine (Ends.elements (fun k start t => s.Within t nothing (vectorFlags [46]) (s.inField .w64 dst k) ∧ start ≤ nb ∧
    (s.params.ok = true → na * 64 ≤ 2 ^ s.params.cpmLog → s.apart p w .w64 dst na → s.apart q w .w64 dst na →
      s.controlApart ctl .w64 dst na → ∃ found, start = searchStart lh found k ∧
        s.SearchesDone t lh cond (s.permissive ctl) cmp nb dst found k)) na
    ⟨State.Within.refl, Nat.zero_le _, fun _ _ _ _ _ => ⟨fun _ => 0, (if_neg fun h => h.2 rfl).symm, ?_, ?_, ?_⟩⟩ ?_).mono
    fun _ t ⟨h1, _, h2⟩ => ⟨h1, fun hok hfit hp hq hctl => (h2 hok hfit hp hq hctl).imp fun _ h => h.2⟩
  · rw [Nat.zero_mul]
    exact State.FlagsRaised.zero s _
  · exact fun j hj => absurd hj (Nat.not_lt_zero j)
  · exact fun j hj => absurd hj (Nat.not_lt_zero j)
  · rintro k start t hk ⟨hwithin, hstart, hdone⟩
    have hmt := hwithin.toFrame.mode.trans hm
    refine Ends.bind ((searchFrom_results hmt hstart).mono fun r t1 ⟨hl1, hamong, hends, hflags⟩ => ?_)
    refine Ends.bind ((Ends.permits_looked (hl1.mode.trans hmt)).mono fun v t2 ⟨hl2, hv⟩ => ?_)
    rw [hl1.permissive] at hv
    have hl : t.Looked t2 := hl1.trans hl2
    have hwithin2 := hwithin.looked hl h47
    have hcmp (hp : s.apart p w .w64 dst na) (hq : s.apart q w .w64 dst na) (e : Nat) :
        fpCompare w (t.streamElem p w (machineZero w) k) (t.streamElem q w (machineZero w) e) = cmp k e := by
      rw [hwithin.toFrame.streamElem_out hw hp (Nat.le_of_lt hk), hwithin.toFrame.streamElem_out hw hq (Nat.le_of_lt hk)]
    have happart (hok : s.params.ok = true) (hfit : na * 64 ≤ 2 ^ s.params.cpmLog) (j : Nat) (hj : j < k) :
        s.elemsApart .w64 (itemAddr .w64 dst k) .w64 (itemAddr .w64 dst j) :=
      State.items_apart (w := .w64) hok hfit dst hk (Nat.lt_trans hj hk) (Nat.ne_of_gt hj)
    have hperm (hctl : s.controlApart ctl .w64 dst na) : v = s.permissive ctl k :=
      hv.trans (hwithin.toFrame.permissive_out hw hctl hk (Nat.le_of_lt hk))
    have hnext {u : State} (hu : s.params.ok = true → na * 64 ≤ 2 ^ s.params.cpmLog → s.apart p w .w64 dst na →
        s.apart q w .w64 dst na → s.controlApart ctl .w64 dst na → ∃ found, r.1.getD nb = found k ∧
          s.SearchesDone u lh cond (s.permissive ctl) cmp nb dst found (k + 1)) :
        (if lh then r.1.getD nb else 0) ≤ nb ∧ (s.params.ok = true → na * 64 ≤ 2 ^ s.params.cpmLog → s.apart p w .w64 dst na →
        s.apart q w .w64 dst na → s.controlApart ctl .w64 dst na → ∃ found,
          (if lh then r.1.getD nb else 0) = searchStart lh found (k + 1) ∧
          s.SearchesDone u lh cond (s.permissive ctl) cmp nb dst found (k + 1)) := by
      refine ⟨?_, fun hok hfit hp hq hctl => (hu hok hfit hp hq hctl).imp fun found ⟨hf, hd⟩ => ⟨?_, hd⟩⟩
      · split
        · exact hends.upper
        · exact Nat.zero_le _
      · rw [hf]
        unfold searchStart
        cases lh
        · rfl
        · rw [if_pos rfl, if_pos ⟨rfl, Nat.succ_ne_zero k⟩, Nat.add_sub_cancel]
    cases hvb : v with
    | true =>
      rw [if_pos rfl]
      refine Ends.bind ⟨_, _, writeElem_monitor (w := .w64) (hl2.mode.trans (hl1.mode.trans hmt)) _ _, Ends.bind (Ends.update (Ends.pure
        ⟨(hwithin2.storeItem (BitVec.ofNat 64 (r.1.getD nb)) h47).raiseFlags hamong.vector, hnext fun hok hfit hp hq hctl => ?_⟩))⟩
      obtain ⟨found, hs, hd⟩ := hdone hok hfit hp hq hctl
      simp only [hcmp hp hq] at hends hflags
      rw [hs] at hends hflags
      refine ⟨_, (foundWith_self found k (r.1.getD nb)).symm, (hd.looked hl).store hends hflags ((hperm hctl).symm.trans hvb)
        (hwithin2.toFrame.wf hw) fun j hj => ?_⟩
      unfold State.elemsApart
      rw [hwithin2.toFrame.elemByte, hwithin2.toFrame.elemByte]
      exact happart hok hfit j hj
    | false =>
      rw [if_neg Bool.false_ne_true]
      refine Ends.pure ⟨hwithin2.mono fun _ ⟨j, hj, hb⟩ => ⟨j, Nat.lt_succ_of_lt hj, hb⟩, hnext fun hok hfit hp hq hctl => ?_⟩
      obtain ⟨found, hs, hd⟩ := hdone hok hfit hp hq hctl
      simp only [hcmp hp hq] at hends
      rw [hs] at hends
      refine ⟨_, (foundWith_self found k (r.1.getD nb)).symm, (hd.looked hl).skip hends ((hperm hctl).symm.trans hvb) ?_⟩
      exact hwithin2.toFrame.elem_out hw fun j hj => State.elemsApart_symm (happart hok hfit j hj)

theorem searchList_results {g x a y b z c : Byte} {i : Instr} {cond : Cmp → Bool}
    (hi : exec i s = searchList cond g x a y b z c s) (hm : s.mode = .monitor) (hw : Memory.wf s.mem = true)
    (hx : s.sourceOk false x) :
    let w := gWidth g
    let p := s.streamOf w false a x
    let q := s.streamOf w false b y
    let na := s.len a - s.offsetOf x
    let nb := s.len b - s.offsetOf y
    let ctl := s.control g z 0
    let cmp (j k : Nat) : Cmp := fpCompare w (s.streamElem p w (machineZero w) j) (s.streamElem q w (machineZero w) k)
    (na = 0 → exec i s = .next { s with pc := s.behind64 }) ∧
    (na ≠ 0 → s.sourceOk false y →
      Completes i s s.behind64 nothing (vectorFlags [46]) (s.inField .w64 (s.addr c) na) fun u =>
        s.params.ok = true → na * 64 ≤ 2 ^ s.params.cpmLog → s.apart p w .w64 (s.addr c) na →
        s.apart q w .w64 (s.addr c) na → s.controlApart ctl .w64 (s.addr c) na →
        ∃ found : Nat → Nat,
        let start (j : Nat) : Nat := if bitAt g 2 = true ∧ j ≠ 0 then found (j - 1) else 0
        (s.FlagsRaised u (na * nb) fun n =>
          if start (n / nb) ≤ n % nb ∧ n % nb ≤ found (n / nb) ∧ s.permissive ctl (n / nb) = true then
            some (cmp (n / nb) (n % nb)).flags
          else some {}) ∧
        ∀ j, j < na →
          start j ≤ found j ∧ found j ≤ nb ∧ (∀ k, start j ≤ k → k < found j → cond (cmp j k) = false) ∧
          (found j < nb → cond (cmp j (found j)) = true) ∧
          u.elemOfMemory .w64 (itemAddr .w64 (s.addr c) j) =
            if s.permissive ctl j then BitVec.ofNat 64 (found j)
            else s.elemOfMemory .w64 (itemAddr .w64 (s.addr c) j)) := by
  intro w p q na nb ctl cmp
  have he : exec i s = run64 (if na = 0 then pure () else source w false b y >>= fun q =>
      elements na (searchRound w cond p q ctl (bitAt g 2) (s.addr c) (q.length.getD 0)) 0 >>= fun _ => pure ()) s :=
    hi.trans (run64_congr ((bind_ok (source_ok w a hx)).trans rfl))
  refine ⟨fun h0 => ?_, fun hn hy => ?_⟩
  · rw [he, if_pos h0]
    rfl
  · obtain ⟨_, t, ht, hwithin, hdone⟩ := searchRounds_results (s := s) (w := w) (cond := cond) (p := p) (q := q) (ctl := ctl)
      (lh := bitAt g 2) (dst := s.addr c) (na := na) (nb := nb) hm hw
    refine hwithin.completes64 hw (he.trans (run64_of_ok ?_)) fun hok hfit hp hq hctl => ?_
    · rw [if_neg hn]
      exact (bind_ok (source_ok w b hy)).trans (bind_ok ht)
    · obtain ⟨found, hd⟩ := hdone hok hfit hp hq hctl
      refine ⟨found, hd.raised.congr_raised fun i _ => ?_, fun j hj => ⟨(hd.ends j hj).lower, (hd.ends j hj).upper,
        (hd.ends j hj).before, (hd.ends j hj).hit, hd.stored j hj⟩⟩
      exact apply_ite some _ _ _

end Sys2Proof.Machine

namespace Sys2Proof
open Machine

/-- Settles O53. -/
theorem orderVectorsAndSearch : Obligations.OrderVectorsAndSearch := by
  intro s g x a y b z c hm hw w
  refine ⟨fun hx hy => ?_, fun hx => ?_⟩
  · simp only [List.forall_mem_cons]
    exact ⟨compareVector_result (i := .cmpeq g x a y b z) rfl hm hw hx hy,
      compareVector_result (i := .cmpne g x a y b z) rfl hm hw hx hy, compareVector_result (i := .cmpge g x a y b z) rfl hm hw hx hy,
      compareVector_result (i := .cmplt g x a y b z) rfl hm hw hx hy, fun _ h => by cases h⟩
  · simp only [List.forall_mem_cons]
    exact ⟨searchList_results (i := .srcheq g x a y b z c) rfl hm hw hx, searchList_results (i := .srchne g x a y b z c) rfl hm hw hx,
      searchList_results (i := .srchge g x a y b z c) rfl hm hw hx, searchList_results (i := .srchlt g x a y b z c) rfl hm hw hx,
      fun _ h => by cases h⟩

end Sys2Proof
end

