-- ==== Sys2Proof/Proofs/Macros.lean ====
section
/-! PROOFS. Maximum, minimum, sum, product and dot product (spec/48_vector_macro.md R571 to R575, R584, R585). -/

-- One declaration at a time, as in the tests: many at once need a thread each.
set_option Elab.async false

namespace Sys2Proof.Machine

variable {s : State}

/-! ### Steps of the accumulator and of the scan -/

theorem accAddIs_add (w : Width) (e t : Int) (a : Acc) : AccAddIs w e t a (a.add w e t) := by
  cases a with
  | zero => rfl
  | ind => rfl
  | value f u =>
    unfold AccAddIs
    simp only
    rw [roundedSum_iff]
    split
    · next h => exact if_pos h
    · next h => exact if_neg h

theorem sumStepIs_sumStep (w : Width) (v : Word) (k : Acc × FpFlags) : SumStepIs w (unpack w v) k (sumStep w v k) := by
  unfold SumStepIs sumStep
  cases unpack w v with
  | ind => rfl
  | mz => rfl
  | normal e c => exact ⟨_, accAddIs_add w _ _ k.1, rfl⟩

theorem dotStepIs_dotStep (w : Width) (v u : Word) (k : Acc × FpFlags) :
    DotStepIs w (unpack w v) (unpack w u) k (dotStep w v u k) := by
  unfold DotStepIs dotStep
  cases unpack w v with
  | ind => rfl
  | mz => cases unpack w u <;> rfl
  | normal e c =>
    cases unpack w u with
    | ind => rfl
    | mz => rfl
    | normal f d =>
      simp only [fix8000_eq]
      split
      · next h1 => exact if_pos h1
      · next h1 =>
        split
        · next h2 => exact (if_neg h1).trans (if_pos h2)
        · next h2 => exact ⟨_, accAddIs_add w _ _ k.1, (if_neg h1).trans (if_neg h2)⟩

theorem accEnds_of_inRange {w : Width} {a : Acc} (h : a.inRange w) : AccEnds w a := by
  cases a with
  | zero => exact ⟨rfl, rfl⟩
  | ind => exact ⟨rfl, rfl⟩
  | value e v =>
    obtain ⟨h1, h2, h3, h4⟩ := h
    have hr : InRange w (floorScale v (-w.n)) := inRange_upper ((magnitudeBits_le_iff _ _).mpr ⟨h3, h4⟩)
    refine ⟨?_, _, rfl, ?_⟩
    · unfold Acc.upper finish
      simp only
      rw [if_neg (Int.not_lt.mpr h2), if_neg (Int.not_lt.mpr h1), asr_eq]
      exact unpack_pack w h1 h2 hr
    · split
      · rfl
      · next h5 => exact unpack_pack w (Int.not_lt.mp h5) (by omega) (inRange_lower w v)

theorem scanned_eq (w : Width) (magnitude : Bool) (v : Word) :
    (if magnitude then magnitudeNum w (unpack w v) else unpack w v) = scanned w magnitude v := by
  rw [scanned, ← onA_eq _ (unpack_ok w v)]
  cases magnitude <;> rfl

theorem scanStepIs_step {w : Width} {better : Cmp → Bool} {magnitude : Bool} {i : Nat} {v : Word} {k : Scan}
    (h : ∀ t, k.best = some t → t.num = scanned w magnitude t.value) :
    ScanStepIs w better magnitude i v k (k.step w better magnitude i v) := by
  unfold ScanStepIs Scan.step
  simp only [scanned_eq]
  split
  · rfl
  · cases hb : k.best with
    | none => rfl
    | some t =>
      have ht : t.num.Ok w := by
        rw [h t hb]
        exact signedA_ok _ (unpack_ok w _)
      exact ⟨_, compareIs_fpCmp (signedA_ok _ (unpack_ok w v)) ht, rfl⟩

/-! ### Values that fit an element -/

theorem narrow_machineZero (w : Width) : narrow w (machineZero w) = machineZero w := by cases w <;> rfl

theorem narrow_indefinite (w : Width) : narrow w (indefinite w) = indefinite w := by cases w <;> rfl

theorem narrow_pack (w : Width) (e c : Int) : narrow w (pack w e c) = pack w e c := by
  cases w
  · exact narrow_right _ _
  · rfl

theorem narrow_finish (w : Width) (e c : Int) : narrow w (finish w e c).value = (finish w e c).value := by
  unfold finish
  split
  · exact narrow_indefinite w
  · split
    · exact narrow_machineZero w
    · exact narrow_pack w e c

theorem narrow_product (w : Width) (g : Sign) (u v : Word) :
    narrow w (fpBinary w (.mul .signif) g u v).value = (fpBinary w (.mul .signif) g u v).value := by
  unfold fpBinary fpMul
  simp only
  split
  · exact narrow_indefinite w
  · exact narrow_indefinite w
  · exact narrow_machineZero w
  · exact narrow_machineZero w
  · exact narrow_finish w _ _

theorem narrow_upper (w : Width) (a : Acc) : narrow w (a.upper w) = a.upper w := by
  cases a with
  | zero => exact narrow_machineZero w
  | ind => exact narrow_indefinite w
  | value e v => exact narrow_finish w _ _

theorem narrow_lower {w : Width} {a : Acc} {v : Word} (h : a.lower w = some v) : narrow w v = v := by
  cases a with
  | zero => exact Option.some.inj h ▸ narrow_machineZero w
  | ind => cases h
  | value e t =>
    obtain rfl := Option.some.inj h
    split
    · exact narrow_machineZero w
    · exact narrow_pack w _ _

theorem freeElem_ok (w : Width) (t : State) : ∃ v k, freeElem w t = .ok (v, { t with free := k }) ∧ narrow w v = v := by
  cases w
  · exact ⟨_, _, rfl, congrArg (0#32 ++ ·) (rightHalf_append _ _)⟩
  · exact ⟨_, _, rfl, rfl⟩

/-! ### The loop over the permitted elements -/

/-- What the permitted positions below `n` make of `v`. -/
def permittedFold {α : Type} (ok : Nat → Bool) (step : Nat → α → α) (v : α) (n : Nat) : α :=
  (List.range n).foldl (fun k i => if ok i then step i k else k) v

theorem permittedFold_succ {α : Type} (ok : Nat → Bool) (step : Nat → α → α) (v : α) (n : Nat) :
    permittedFold ok step v (n + 1) =
      if ok n then step n (permittedFold ok step v n) else permittedFold ok step v n := by
  unfold permittedFold
  rw [List.range_succ, List.foldl_append]
  rfl

theorem permittedLoop_results {α : Type} {ctl : Control} {m : Nat → α → M α} {step : Nat → α → α} {v : α} {n : Nat}
    (hm : s.mode = .monitor)
    (hbody : ∀ i k t, s.Looked t → Ends (m i k) t fun z u => t.Looked u ∧ z = step i k) :
    Ends (elements n (fun i k => do if ← ctl.permits i then m i k else return k) v) s fun z u =>
      s.Looked u ∧ z = permittedFold (s.permissive ctl) step v n := by
  refine Ends.readLoop (fun j k => k = permittedFold (s.permissive ctl) step v j) n rfl fun j k t _ hl hk => ?_
  subst hk
  refine Ends.bind ((Ends.permits_looked (hl.mode.trans hm)).mono fun b u ⟨hlu, hb⟩ => ?_)
  rw [hl.permissive] at hb
  subst hb
  cases hp : s.permissive ctl j with
  | true =>
    rw [if_pos rfl]
    refine (hbody j _ u (hl.trans hlu)).mono fun z u' ⟨h1, h2⟩ => ⟨hlu.trans h1, ?_⟩
    rw [permittedFold_succ, hp, if_pos rfl, h2]
  | false =>
    rw [if_neg Bool.false_ne_true]
    refine Ends.pure ⟨hlu, ?_⟩
    rw [permittedFold_succ, hp, if_neg Bool.false_ne_true]

/-- A property of the permitted elements that each step keeps. -/
theorem permittedFold_induction {α : Type} {ok : Nat → Bool} {step : Nat → α → α} {v : α} (P : Nat → α → Prop) (h0 : P 0 v)
    (hstep : ∀ i k, ok i = true → P i k → P (i + 1) (step i k)) (hskip : ∀ i k, ok i = false → P i k → P (i + 1) k) :
    ∀ n, P n (permittedFold ok step v n) := by
  intro n
  induction n with
  | zero => exact h0
  | succ n ih =>
    rw [permittedFold_succ]
    cases h : ok n with
    | true => exact hstep n _ h ih
    | false => exact hskip n _ h ih

/-- The element of a stream, read behind other reads. -/
theorem Ends.elem_looked {t : State} {st : Stream} {w : Width} {ext : Word} {i : Nat} (hm : s.mode = .monitor) (hl : s.Looked t) :
    Ends (st.elem w ext i) t fun v u => t.Looked u ∧ v = s.streamElem st w ext i :=
  Ends.elem (hl.mode.trans hm) fun _ hu => ⟨State.Looked.of_breakpoint hu, hl.streamElem ..⟩

/-! ### Sum and dot product (R573, R575, R584) -/

/-- What the end of a sum leaves: the two halves of the accumulator, and the flags. -/
theorem finishSum_ok (w : Width) (c : Byte) (acc : Acc) (f : FpFlags) (t : State) :
    ∃ up lo k, finishSum w c acc f t = .ok ((), (((({ t with free := k } : State).setRegW w c up).setRegW w (c + 1) lo).raiseFlags
      .vector (f.or { zero := unpack w lo = .mz, indefinite := unpack w up = .ind }))) ∧ narrow w up = up ∧ narrow w lo = lo ∧
      (badPair c = false → up = acc.upper w ∧ ∀ v, acc.lower w = some v → lo = v) := by
  unfold finishSum
  cases hb : badPair c with
  | true =>
    obtain ⟨up, k, hk, hup⟩ := freeElem_ok w t
    obtain ⟨lo, l, hl, hlo⟩ := freeElem_ok w { t with free := k }
    exact ⟨up, lo, l, (bind_ok hk).trans ((bind_ok hl).trans rfl), hup, hlo, nofun⟩
  | false =>
    cases ha : acc.lower w with
    | some v => exact ⟨_, v, t.free, rfl, narrow_upper w acc, narrow_lower ha, fun _ => ⟨rfl, fun _ h => Option.some.inj h⟩⟩
    | none =>
      obtain ⟨lo, l, hl, hlo⟩ := freeElem_ok w t
      refine ⟨_, lo, l, ?_, narrow_upper w acc, hlo, fun _ => ⟨rfl, fun _ h => by cases h⟩⟩
      rw [if_neg Bool.false_ne_true]
      exact (bind_ok rfl).trans ((bind_ok hl).trans rfl)

theorem among_accAdd (w : Width) (e t : Int) (a : Acc) : (a.add w e t).2.Among endFlags := by
  unfold Acc.add
  split
  · exact FpFlags.among_none
  · exact FpFlags.among_none
  · dsimp only
    split
    · exact FpFlags.among_ovf (by decide) (by decide)
    · exact FpFlags.among_none

theorem among_sumStep {w : Width} {v : Word} {k : Acc × FpFlags} (h : k.2.Among endFlags) :
    (sumStep w v k).2.Among endFlags := by
  unfold sumStep
  split
  · exact h
  · exact h
  · exact among_or h (among_accAdd w _ _ k.1)

theorem among_dotStep {w : Width} {u v : Word} {k : Acc × FpFlags} (h : k.2.Among endFlags) :
    (dotStep w u v k).2.Among endFlags := by
  unfold dotStep
  split
  · exact h
  · exact h
  · dsimp only
    split
    · exact among_or h ⟨nofun, fun _ => by decide, nofun, nofun, nofun⟩
    · split
      · exact h
      · exact among_or h (among_accAdd w _ _ k.1)
  · exact h

theorem regW_raised (t : State) (w : Width) (d : Byte) (k : FlagKind) (f : FpFlags) :
    (t.raiseFlags k f).next64.regW w d = t.regW w d := (State.next64_regW ..).trans (State.raiseFlags_regW ..)

theorem add_one_ne (c : Byte) : c ≠ c + 1 := by bv_omega

/-- An instruction that sums and then ends its sum. -/
theorem sum_results {i : Instr} {c : Byte} {w : Width} {n : Nat} {m : M (Acc × FpFlags)} {k : Acc × FpFlags}
    (he : exec i s = run64 (if n = 0 then pure () else m >>= fun k => finishSum w c k.1 k.2) s)
    (hloop : Ends m s fun z u => s.Looked u ∧ z = k) (hk : k.2.Among endFlags) :
    (n = 0 → exec i s = .next { s with pc := s.behind64 }) ∧
    (n ≠ 0 → Completes i s s.behind64 (fun r => r = regOfW w c ∨ r = regOfW w (c + 1)) (vectorFlags endFlags) nothing fun u =>
      (badPair c = false → u.regW w c = k.1.upper w ∧ ∀ v, k.1.lower w = some v → u.regW w (c + 1) = v) ∧
      s.FlagsRaised u 1 fun _ => some (k.2.or
        { zero := unpack w (u.regW w (c + 1)) = .mz, indefinite := unpack w (u.regW w c) = .ind })) := by
  refine ⟨fun h0 => ?_, fun hn => ?_⟩
  · rw [he, if_pos h0]
    rfl
  · obtain ⟨_, t, ht, hl, rfl⟩ := hloop
    rename_i k
    obtain ⟨up, lo, l, hfin, hup, hlo, hvals⟩ := finishSum_ok w c k.1 k.2 t
    rw [if_neg hn] at he
    have hwithin : s.Within t (fun r => r = regOfW w c ∨ r = regOfW w (c + 1)) (vectorFlags endFlags) nothing :=
      State.Within.refl.looked hl List.mem_cons_self
    have hamong : (k.2.or { zero := unpack w lo = .mz, indefinite := unpack w up = .ind }).Among endFlags :=
      among_or hk ⟨nofun, nofun, fun _ => by decide, nofun, fun _ => by decide⟩
    have hc1 : ((({ t with free := l } : State).setRegW w c up).setRegW w (c + 1) lo).regW w c = up := by
      rw [State.regW_setRegW_ne _ _ (add_one_ne c), State.regW_setRegW_self, hup]
    have hc2 : ((({ t with free := l } : State).setRegW w c up).setRegW w (c + 1) lo).regW w (c + 1) = lo := by
      rw [State.regW_setRegW_self, hlo]
    refine ((((hwithin.draw l).setRegW up (.inl rfl)).setRegW lo (.inr rfl)).raiseFlags hamong.vector).completes64_nothing
      (he.trans (run64_of_ok ((bind_ok ht).trans hfin))) ⟨fun hb => ?_, ?_⟩
    · rw [regW_raised, regW_raised, hc1, hc2]
      exact hvals hb
    · rw [regW_raised, regW_raised, hc1, hc2]
      refine State.FlagsRaised.next64 (State.FlagsRaised.raise (((State.FlagsRaised.zero s _).looked hl).of_bits fun _ _ => ?_)
        fun e he => (Option.some.inj he).symm)
      cases w <;> rfl

section
variable {g x a y b z c : Byte}

theorem sum_result (hm : s.mode = .monitor) (hx : s.sourceOk false x) :
    let w := gWidth g
    let n := s.len a - s.offsetOf x
    let k := permittedFold (s.permissive (s.control g z 0))
      (fun i k => sumStep w (s.streamElem (s.streamOf w false a x) w (machineZero w) i) k) (.zero, {}) n
    (n = 0 → exec (.sum g x a z c) s = .next { s with pc := s.behind64 }) ∧
    (n ≠ 0 → Completes (.sum g x a z c) s s.behind64 (fun r => r = regOfW w c ∨ r = regOfW w (c + 1)) (vectorFlags endFlags)
      nothing fun u =>
      (badPair c = false → u.regW w c = k.1.upper w ∧ ∀ v, k.1.lower w = some v → u.regW w (c + 1) = v) ∧
      s.FlagsRaised u 1 fun _ => some (k.2.or
        { zero := unpack w (u.regW w (c + 1)) = .mz, indefinite := unpack w (u.regW w c) = .ind })) := by
  intro w n k
  have hloop := permittedLoop_results (s := s) (ctl := s.control g z 0) (n := n) (v := ((Acc.zero, {}) : Acc × FpFlags))
    (m := fun i k => do return sumStep w (← (s.streamOf w false a x).elem w (machineZero w) i) k)
    (step := fun i k => sumStep w (s.streamElem (s.streamOf w false a x) w (machineZero w) i) k) hm
    fun i k t hl => Ends.bind ((Ends.elem_looked hm hl).mono fun v u ⟨h1, h2⟩ => Ends.pure ⟨h1, by rw [h2]⟩)
  exact sum_results (i := .sum g x a z c) (run64_congr ((bind_ok (source_ok w a hx)).trans rfl)) hloop
    (permittedFold_induction (fun _ (k : Acc × FpFlags) => k.2.Among endFlags) FpFlags.among_none (fun _ _ _ h => among_sumStep h)
      (fun _ _ _ h => h) n)

theorem dotv_result (hm : s.mode = .monitor) (hx : s.sourceOk (bitAt g 3) x) (hy : s.sourceOk (bitAt g 4) y)
    (hq : (bitAt g 3 && bitAt g 4) = false) :
    let w := gWidth g
    let p := s.streamOf w (bitAt g 3) a x
    let q := s.streamOf w (bitAt g 4) b y
    let n := pairCount p q
    let k := permittedFold (s.permissive (s.control g z 0)) (fun i k =>
      dotStep w (s.streamElem p w (machineZero w) i) (s.streamElem q w (machineZero w) i) k) (.zero, {}) n
    (n = 0 → exec (.dotv g x a y b z c) s = .next { s with pc := s.behind64 }) ∧
    (n ≠ 0 → Completes (.dotv g x a y b z c) s s.behind64 (fun r => r = regOfW w c ∨ r = regOfW w (c + 1))
      (vectorFlags endFlags) nothing fun u =>
      (badPair c = false → u.regW w c = k.1.upper w ∧ ∀ v, k.1.lower w = some v → u.regW w (c + 1) = v) ∧
      s.FlagsRaised u 1 fun _ => some (k.2.or
        { zero := unpack w (u.regW w (c + 1)) = .mz, indefinite := unpack w (u.regW w c) = .ind })) := by
  intro w p q n k
  have hloop := permittedLoop_results (s := s) (ctl := s.control g z 0) (n := n) (v := ((Acc.zero, {}) : Acc × FpFlags))
    (m := fun i k => do let v ← pairAt w p q i; return dotStep w v.1 v.2 k)
    (step := fun i k => dotStep w (s.streamElem p w (machineZero w) i) (s.streamElem q w (machineZero w) i) k) hm
    fun i k t hl => Ends.bind (Ends.bind ((Ends.elem_looked hm hl).mono fun v u ⟨h1, h2⟩ =>
      Ends.bind ((Ends.elem_looked hm (hl.trans h1)).mono fun v' u' ⟨h3, h4⟩ =>
        Ends.pure (Ends.pure ⟨h1.trans h3, by rw [h2, h4]⟩))))
  exact sum_results (i := .dotv g x a y b z c) (run64_congr ((bind_ok (refuseIf_false hq)).trans
    ((bind_ok (source_ok w a hx)).trans ((bind_ok (source_ok w b hy)).trans rfl)))) hloop
    (permittedFold_induction (fun _ (k : Acc × FpFlags) => k.2.Among endFlags) FpFlags.among_none (fun _ _ _ h => among_dotStep h)
      (fun _ _ _ h => h) n)

end

/-! ### Product (R574) -/

/-- One multiplication, and whether any has overflowed. -/
def productStep (w : Width) (e : Nat → Word) (i : Nat) (k : Word × Bool) : Word × Bool :=
  ((fpBinary w (.mul .signif) {} k.1 (e i)).value, k.2 || (fpBinary w (.mul .signif) {} k.1 (e i)).flags.overflow)

/-- The product of the permitted elements below `n`. -/
def productBelow (w : Width) (ok : Nat → Bool) (e : Nat → Word) (n : Nat) : Word :=
  permittedFold ok (fun i k => (fpBinary w (.mul .signif) {} k (e i)).value) (normalizedOne w) n

theorem productBelow_succ (w : Width) (ok : Nat → Bool) (e : Nat → Word) (n : Nat) : productBelow w ok e (n + 1) =
    if ok n then (fpBinary w (.mul .signif) {} (productBelow w ok e n) (e n)).value else productBelow w ok e n :=
  permittedFold_succ ..

theorem productFold_eq (w : Width) (ok : Nat → Bool) (e : Nat → Word) (n : Nat) :
    permittedFold ok (productStep w e) (normalizedOne w, false) n = (productBelow w ok e n,
      (List.range n).any fun i => ok i && (fpBinary w (.mul .signif) {} (productBelow w ok e i) (e i)).flags.overflow) := by
  induction n with
  | zero => rfl
  | succ n ih =>
    rw [permittedFold_succ, ih, List.range_succ, List.any_append, productBelow_succ]
    cases h : ok n with
    | true => simp [productStep, h]
    | false => simp [h]

theorem narrow_productBelow (w : Width) (ok : Nat → Bool) (e : Nat → Word) (n : Nat) :
    narrow w (productBelow w ok e n) = productBelow w ok e n := by
  unfold productBelow
  exact permittedFold_induction (fun _ v => narrow w v = v) (by cases w <;> rfl) (fun _ _ _ _ => narrow_product w {} _ _)
    (fun _ _ _ h => h) n

section
variable {g x a b z c : Byte}

theorem product_result (hm : s.mode = .monitor) (hx : s.sourceOk false x) :
    let w := gWidth g
    let n := s.len a - s.offsetOf x
    let ok := s.permissive (s.control g z 0)
    let e (i : Nat) : Word := s.streamElem (s.streamOf w false a x) w (machineZero w) i
    (n = 0 → exec (.product g x a z c) s = .next { s with pc := s.behind64 }) ∧
    (n ≠ 0 → Completes (.product g x a z c) s s.behind64 (· = regOfW w c) (vectorFlags endFlags) nothing fun u =>
      (c ≠ 0 → u.regW w c = productBelow w ok e n) ∧
      s.FlagsRaised u 1 fun _ => some {
        overflow := (List.range n).any fun i => ok i && (fpBinary w (.mul .signif) {} (productBelow w ok e i) (e i)).flags.overflow
        zero := u.regW w c == machineZero w
        indefinite := unpack w (u.regW w c) = .ind }) := by
  intro w n ok e
  have hloop := permittedLoop_results (s := s) (ctl := s.control g z 0) (n := n) (v := (normalizedOne w, false))
    (m := fun i k => do
      let r := fpBinary w (.mul .signif) {} k.1 (← (s.streamOf w false a x).elem w (machineZero w) i)
      return (r.value, k.2 || r.flags.overflow))
    (step := productStep w e) hm
    fun i k t hl => Ends.bind ((Ends.elem_looked hm hl).mono fun v u ⟨h1, h2⟩ => Ends.pure ⟨h1, by rw [h2]; rfl⟩)
  obtain ⟨r, t, ht, hl, hr⟩ := hloop
  rw [productFold_eq] at hr
  have hfree : ∃ v k, (if c = 0 then freeElem w else pure r.1 : M Word) t = .ok (v, { t with free := k }) ∧ narrow w v = v ∧
      (c ≠ 0 → v = r.1) := by
    by_cases h0 : c = 0
    · rw [if_pos h0]
      obtain ⟨v, k, hv, hn⟩ := freeElem_ok w t
      exact ⟨v, k, hv, hn, fun h => absurd h0 h⟩
    · rw [if_neg h0]
      exact ⟨r.1, t.free, rfl, by rw [hr]; exact narrow_productBelow w _ _ _, fun _ => rfl⟩
  obtain ⟨v, k, hv, hnv, hvr⟩ := hfree
  have he : exec (.product g x a z c) s = run64 (if n = 0 then pure () else
      elements n _ (normalizedOne w, false) >>= fun k =>
        (if c = 0 then freeElem w else pure k.1) >>= fun v => update fun u => (u.setRegW w c v).raiseFlags .vector
          { overflow := k.2, zero := v == machineZero w, indefinite := unpack w v = .ind }) s :=
    (run64_congr ((bind_ok (source_ok w a hx)).trans (by simp only [← joined_eq]; rfl)))
  refine ⟨fun h0 => by rw [he, if_pos h0]; rfl, fun hn => ?_⟩
  rw [if_neg hn] at he
  have hwithin : s.Within t (· = regOfW w c) (vectorFlags endFlags) nothing := State.Within.refl.looked hl List.mem_cons_self
  have hamong : ({ overflow := r.2, zero := v == machineZero w, indefinite := unpack w v = .ind } : FpFlags).Among endFlags :=
    ⟨nofun, fun _ => by decide, fun _ => by decide, nofun, fun _ => by decide⟩
  have hval : (({ t with free := k } : State).setRegW w c v).regW w c = v := by rw [State.regW_setRegW_self, hnv]
  refine (((hwithin.draw k).setRegW v rfl).raiseFlags hamong.vector).completes64_nothing
    (he.trans (run64_of_ok ((bind_ok ht).trans ((bind_ok hv).trans rfl)))) ⟨fun hc => ?_, ?_⟩
  · rw [regW_raised, hval, hvr hc, hr]
  · rw [regW_raised, hval]
    refine State.FlagsRaised.next64 (State.FlagsRaised.raise (((State.FlagsRaised.zero s _).looked hl).of_bits fun _ _ => ?_)
      fun e he => (Option.some.inj he).symm.trans (by rw [hr]))
    cases w <;> rfl

end

/-! ### Maximum and minimum (R571, R572, R585) -/

theorem Scan.step_cases (w : Width) (better : Cmp → Bool) (magnitude : Bool) (i : Nat) (v : Word) (k : Scan) :
    (unpack w v = .ind ∧ k.step w better magnitude i v = { k with ind := true }) ∨
    (unpack w v ≠ .ind ∧ (k.step w better magnitude i v).ind = k.ind ∧ ∃ t, (k.step w better magnitude i v).best = some t ∧
      (t.value = v ∨ k.best = some t)) := by
  unfold Scan.step
  simp only
  generalize (if magnitude then magnitudeNum w (unpack w v) else unpack w v) = m
  by_cases hi : unpack w v = .ind
  · exact .inl ⟨hi, if_pos hi⟩
  · rw [if_neg hi]
    refine .inr ⟨hi, ?_⟩
    cases hb : k.best with
    | none => exact ⟨rfl, _, rfl, .inl rfl⟩
    | some t =>
      dsimp only
      split
      · exact ⟨rfl, _, rfl, .inl rfl⟩
      · split
        · exact ⟨rfl, t, rfl, .inr rfl⟩
        · exact ⟨rfl, t, hb, .inr rfl⟩

/-- What a scan knows of the permitted elements below `n`. -/
structure ScannedTo (w : Width) (ok : Nat → Bool) (e : Nat → Word) (n : Nat) (k : Scan) : Prop where
  ind : k.ind = true ↔ ∃ i, i < n ∧ ok i = true ∧ unpack w (e i) = .ind
  none : k.best = none ↔ ∀ i, i < n → ok i = true → unpack w (e i) = .ind
  narrow : ∀ t, k.best = some t → narrow w t.value = t.value

namespace ScannedTo

variable {w : Width} {ok : Nat → Bool} {e : Nat → Word} {n : Nat} {k : Scan}

theorem start : ScannedTo w ok e 0 {} :=
  ⟨⟨nofun, fun ⟨_, hi, _⟩ => absurd hi (Nat.not_lt_zero _)⟩, ⟨fun _ _ hi => absurd hi (Nat.not_lt_zero _), fun _ => rfl⟩, nofun⟩

theorem skip (h : ScannedTo w ok e n k) (hok : ok n = false) : ScannedTo w ok e (n + 1) k := by
  refine ⟨h.ind.trans ⟨fun ⟨i, hi, hr⟩ => ⟨i, Nat.lt_succ_of_lt hi, hr⟩, fun ⟨i, hi, h1, h2⟩ => ?_⟩,
    h.none.trans ⟨fun ha i hi h1 => ?_, fun ha i hi => ha i (Nat.lt_succ_of_lt hi)⟩, h.narrow⟩
  · rcases Nat.lt_succ_iff_lt_or_eq.mp hi with hi | rfl
    · exact ⟨i, hi, h1, h2⟩
    · exact absurd (hok.symm.trans h1) Bool.false_ne_true
  · rcases Nat.lt_succ_iff_lt_or_eq.mp hi with hi | rfl
    · exact ha i hi h1
    · exact absurd (hok.symm.trans h1) Bool.false_ne_true

theorem step (h : ScannedTo w ok e n k) (hok : ok n = true) (hn : Machine.narrow w (e n) = e n) (better : Cmp → Bool) (magnitude : Bool) :
    ScannedTo w ok e (n + 1) (k.step w better magnitude n (e n)) := by
  rcases Scan.step_cases w better magnitude n (e n) k with ⟨hi, hk⟩ | ⟨hi, hk, t, ht, hval⟩
  · rw [hk]
    refine ⟨⟨fun _ => ⟨n, Nat.lt_succ_self n, hok, hi⟩, fun _ => rfl⟩, h.none.trans ⟨fun ha i hi' h1 => ?_,
      fun ha i hi' => ha i (Nat.lt_succ_of_lt hi')⟩, h.narrow⟩
    rcases Nat.lt_succ_iff_lt_or_eq.mp hi' with hi' | rfl
    · exact ha i hi' h1
    · exact hi
  · refine ⟨?_, ⟨fun hb => (nomatch hb.symm.trans ht), fun ha => absurd (ha n (Nat.lt_succ_self n) hok) hi⟩, fun t' ht' => ?_⟩
    · rw [hk]
      refine h.ind.trans ⟨fun ⟨i, hi, hr⟩ => ⟨i, Nat.lt_succ_of_lt hi, hr⟩, fun ⟨i, hi', h1, h2⟩ => ?_⟩
      rcases Nat.lt_succ_iff_lt_or_eq.mp hi' with hi' | rfl
      · exact ⟨i, hi', h1, h2⟩
      · exact absurd h2 hi
    · obtain rfl := Option.some.inj (ht.symm.trans ht')
      rcases hval with hval | hval
      · rw [hval, hn]
      · exact h.narrow t hval

theorem fold (hn : ∀ i, Machine.narrow w (e i) = e i) (better : Cmp → Bool) (magnitude : Bool) (n : Nat) :
    ScannedTo w ok e n (permittedFold ok (fun i k => Scan.step w better magnitude i (e i) k) {} n) :=
  permittedFold_induction (fun n k => ScannedTo w ok e n k) start (fun i _ hok h => h.step hok (hn i) better magnitude)
    (fun _ _ hok h => h.skip hok) n

end ScannedTo

/-- Registers C and B as a scan leaves them. -/
def State.withPair (t : State) (w : Width) (b c : Byte) (v m : Word) (k : Nat) : State :=
  (({ t with free := k } : State).setRegW w c v).setReg b m

theorem setPair_ok (w : Width) (b c : Byte) (value count : Word) (hn : narrow w value = value) (t : State) :
    ∃ v m k, setPair w b c value count t = .ok ((), t.withPair w b c v m k) ∧ narrow w v = v ∧ (b ≠ c → v = value ∧ m = count) := by
  unfold setPair
  by_cases h : b = c
  · simp only [if_pos h]
    obtain ⟨v, k, hv, hnv⟩ := freeElem_ok w t
    exact ⟨v, _, _, (bind_ok hv).trans rfl, hnv, fun hne => absurd h hne⟩
  · simp only [if_neg h]
    exact ⟨value, count, t.free, rfl, hn, fun _ => ⟨rfl, rfl⟩⟩

/-- What the end of a scan leaves. -/
theorem finishScan_ok {w : Width} {n : Nat} {b c : Byte} {k : Scan} (hn : ∀ t, k.best = some t → narrow w t.value = t.value) (t : State) :
    ∃ v m j tie, finishScan w n b c k t = .ok ((),
        (if k.ind then (t.withPair w b c v m j).raiseFlags .vector flagInd else t.withPair w b c v m j).setFreeFlags none tie none) ∧
      narrow w v = v ∧ (k.ind = false → tie = some (k.best.isSome && k.tie)) ∧
      (b ≠ c → (k.ind = true → v = indefinite w) ∧ (k.ind = false → k.best = none → m = BitVec.ofNat 64 n) ∧
        ∀ q, k.ind = false → k.best = some q → m = BitVec.ofNat 64 q.index ∧ v = q.value) := by
  unfold finishScan
  cases hi : k.ind with
  | true =>
    obtain ⟨v, m, j, hk, hv, hp⟩ := setPair_ok w b c (indefinite w) (Config.freeWord t.free) (narrow_indefinite w)
      { t with free := t.free + 1 }
    exact ⟨v, m, j, none, (bind_ok rfl).trans ((bind_ok hk).trans rfl), hv, nofun, fun hne => ⟨fun _ => (hp hne).1, nofun, nofun⟩⟩
  | false =>
    cases hb : k.best with
    | none =>
      obtain ⟨x, l, hx, hnx⟩ := freeElem_ok w t
      obtain ⟨v, m, j, hk, hv, hp⟩ := setPair_ok w b c x (BitVec.ofNat 64 n) hnx { t with free := l }
      exact ⟨v, m, j, some false, (bind_ok hx).trans ((bind_ok hk).trans rfl), hv, fun _ => rfl,
        fun hne => ⟨nofun, fun _ _ => (hp hne).2, nofun⟩⟩
    | some q =>
      obtain ⟨v, m, j, hk, hv, hp⟩ := setPair_ok w b c q.value (BitVec.ofNat 64 q.index) (hn q hb) t
      exact ⟨v, m, j, some k.tie, (bind_ok hk).trans rfl, hv, fun _ => rfl, fun hne => ⟨nofun, nofun,
        fun q' _ hq => by cases hq; exact ⟨(hp hne).2, (hp hne).1⟩⟩⟩

theorem State.FlagsRaised.setFreeFlags {t : State} {n : Nat} {raised : Nat → Option FpFlags} (h : s.FlagsRaised t n raised)
    (e f g : Option Bool) : s.FlagsRaised (t.setFreeFlags e f g) n raised := by
  refine h.of_bits fun p hp => ?_
  obtain ⟨h1, _, h3⟩ := arithmeticFlags_plain p hp
  have hne : p.2 ∉ [53, 54, 55] := by
    revert p
    simp [arithmeticFlags]
  exact ((State.Frame.refl (changed := fun _ => False) (flags := [53, 54, 55]) (stored := nothing)).setFreeFlags e f g
    fun _ h => h).flagsOnly.2 p.2 h1 hne h3

theorem narrow_streamElem {w : Width} {ext : Word} (hext : narrow w ext = ext) (a x : Byte) (f : Bool) (i : Nat) :
    narrow w (s.streamElem (s.streamOf w f a x) w ext i) = s.streamElem (s.streamOf w f a x) w ext i := by
  cases f with
  | false =>
    simp only [State.streamOf, State.streamElem, Bool.false_eq_true, if_false]
    split
    · exact narrow_elemOfMemory ..
    · exact hext
  | true => exact narrow_regW ..

theorem State.regW_congr {t u : State} {w : Width} {d : Byte} (h : u.reg (regOfW w d) = t.reg (regOfW w d)) :
    u.regW w d = t.regW w d := by
  cases w with
  | w32 =>
    have h' : u.reg (halfOf d) = t.reg (halfOf d) := h
    unfold State.regW State.operand32 State.reg32
    rw [h']
  | w64 => exact h

theorem extreme_result {i : Instr} {better : Cmp → Bool} {g x a b z c : Byte} (hm : s.mode = .monitor) (hx : s.sourceOk false x)
    (he : exec i s = extreme better g x a b z c s) :
    let w := gWidth g
    let n := s.len a - s.offsetOf x
    let ok := s.permissive (s.control g z 0)
    let e (i : Nat) : Word := s.streamElem (s.streamOf w false a x) w (machineZero w) i
    (n = 0 → exec i s = .next { s with pc := s.behind64 }) ∧
    (n ≠ 0 →
      let k := permittedFold ok (fun i k => Scan.step w better (bitAt g 5) i (e i) k) {} n
      Completes i s s.behind64 (fun r => r = b ∨ r = regOfW w c) (vectorFlags [46] ++ [53, 54, 55]) nothing fun u =>
        (s.FlagsRaised u 1 fun _ => some { indefinite := k.ind }) ∧
        (k.ind = true ↔ ∃ i, i < n ∧ ok i = true ∧ unpack w (e i) = .ind) ∧
        (k.best = none ↔ ∀ i, i < n → ok i = true → unpack w (e i) = .ind) ∧
        (b ≠ c → regOfW w c ≠ b →
          (k.ind = true → u.regW w c = indefinite w) ∧
          (k.ind = false → k.best = none → u.reg b = BitVec.ofNat 64 n) ∧
          ∀ t, k.ind = false → k.best = some t → u.reg b = BitVec.ofNat 64 t.index ∧ u.regW w c = t.value) ∧
        (k.ind = false → bitAt u.dfr 54 = (k.best.isSome && k.tie))) := by
  intro w n ok e
  have hloop := permittedLoop_results (s := s) (ctl := s.control g z 0) (n := n) (v := ({} : Scan))
    (m := fun i k => do
      return k.step w better (bitAt g 5) i (← (s.streamOf w false a x).elem w (machineZero w) i))
    (step := fun i k => Scan.step w better (bitAt g 5) i (e i) k) hm
    fun i k t hl => Ends.bind ((Ends.elem_looked hm hl).mono fun v u ⟨h1, h2⟩ => Ends.pure ⟨h1, by rw [h2]⟩)
  obtain ⟨k, t, ht, hl, hr⟩ := hloop
  have he' := he.trans (run64_congr ((bind_ok (source_ok w a hx)).trans rfl) : _ = run64 (if n = 0 then pure () else
      elements n _ {} >>= fun k => finishScan w n b c k) s)
  refine ⟨fun h0 => by rw [he', if_pos h0]; rfl, fun hn => ?_⟩
  rw [if_neg hn] at he'
  intro kk
  have hs : ScannedTo w ok e n k := by
    rw [hr]
    exact ScannedTo.fold (narrow_streamElem (narrow_machineZero w) a x false) ..
  obtain ⟨v, m, j, tie, hfin, hv, htie, hvals⟩ := finishScan_ok (n := n) (b := b) (c := c) hs.narrow t
  have hkk : kk = k := hr.symm
  rw [hkk]
  have hpair : s.Within (t.withPair w b c v m j) (fun r => r = b ∨ r = regOfW w c) (vectorFlags [46] ++ [53, 54, 55]) nothing :=
    (((State.Within.refl.looked hl (List.mem_append_left _ List.mem_cons_self)).draw j).setRegW v (.inr rfl)).setReg m (.inl rfl)
  have hreg : ∀ u : State, u.regs = (t.withPair w b c v m j).regs → u.reg b = m ∧ (regOfW w c ≠ b → u.regW w c = v) := by
    intro u hu
    have hat (r : Byte) : u.reg r = (t.withPair w b c v m j).reg r := by
      unfold State.reg
      rw [hu]
    refine ⟨(hat b).trans (State.setReg_reg_self ..), fun hne => ?_⟩
    rw [State.regW_congr (hat _), State.withPair, State.regW_congr (State.setReg_reg_ne _ _ hne), State.regW_setRegW_self, hv]
  have hraised : (s.Within (if k.ind then (t.withPair w b c v m j).raiseFlags .vector flagInd else t.withPair w b c v m j)
      (fun r => r = b ∨ r = regOfW w c) (vectorFlags [46] ++ [53, 54, 55]) nothing) ∧
      (if k.ind then (t.withPair w b c v m j).raiseFlags .vector flagInd else t.withPair w b c v m j).regs =
        (t.withPair w b c v m j).regs ∧
      s.FlagsRaised (if k.ind then (t.withPair w b c v m j).raiseFlags .vector flagInd else t.withPair w b c v m j) 1
        fun _ => some { indefinite := k.ind } := by
    have hflags : ∀ raised, s.FlagsRaised (t.withPair w b c v m j) 0 raised := fun raised =>
      ((State.FlagsRaised.zero s raised).looked hl).of_bits fun _ _ => by cases w <;> rfl
    cases hi : k.ind with
    | true =>
      have hamong : flagInd.Among [46] := ⟨nofun, nofun, nofun, nofun, fun _ => by decide⟩
      exact ⟨hpair.raiseFlags ⟨List.cons_ne_nil _ _, fun k h1 h2 => List.mem_append_left _ (hamong.vector.2 k h1 h2)⟩, rfl, State.FlagsRaised.raise (hflags _)
        fun e he => (Option.some.inj he).symm⟩
    | false => exact ⟨hpair, rfl, State.FlagsRaised.skip (hflags _) fun e he => (Option.some.inj he).symm⟩
  generalize (if k.ind then (t.withPair w b c v m j).raiseFlags .vector flagInd else t.withPair w b c v m j) = q at hfin hraised
  obtain ⟨hwithin, hregs, hflags⟩ := hraised
  obtain ⟨hb, hc⟩ := hreg (q.setFreeFlags none tie none).next64 hregs
  refine (hwithin.setFreeFlags none tie none fun _ h => List.mem_append_right _ h).completes64_nothing
    (he'.trans (run64_of_ok ((bind_ok ht).trans hfin))) ⟨(hflags.setFreeFlags none tie none).next64, hs.ind, hs.none, fun hbc hne => ?_,
    fun hi => ?_⟩
  · obtain ⟨h1, h2, h3⟩ := hvals hbc
    exact ⟨fun hi => (hc hne).trans (h1 hi), fun hi hn => hb.trans (h2 hi hn), fun p hi hp =>
      ⟨hb.trans (h3 p hi hp).1, (hc hne).trans (h3 p hi hp).2⟩⟩
  · rw [State.next64_dfr, htie hi]
    exact State.bitAt_setFreeFlags_54 ..

end Sys2Proof.Machine

namespace Sys2Proof

open Machine

/-- Settles O54: a loop over the permitted elements leaves their fold, and each end of an instruction stores the results
of that fold and raises their flags; the steps are those of the exact sums. -/
theorem macroResults : Obligations.MacroResults := by
  unfold Obligations.MacroResults
  refine ⟨fun s g x a y b z c hm => ⟨fun hx => ⟨fun h0 => ?_, fun hn => ⟨?_, (sum_result hm hx).2 hn, (product_result hm hx).2 hn⟩⟩,
    fun hx hy hq => dotv_result hm hx hy hq⟩, fun w v u k => ⟨sumStepIs_sumStep w v k, dotStepIs_dotStep w v u k⟩,
    fun w a h => accEnds_of_inRange h, fun w magnitude i v k h better _ => scanStepIs_step fun t ht => (h t ht).2⟩
  · simp only [List.forall_mem_cons, List.not_mem_nil, false_imp_iff, implies_true, and_true]
    exact ⟨(extreme_result (i := .max g x a b z c) (better := Cmp.gt) hm hx rfl).1 h0,
      (extreme_result (i := .min g x a b z c) (better := Cmp.lt) hm hx rfl).1 h0, (sum_result hm hx).1 h0, (product_result hm hx).1 h0⟩
  · refine List.forall_mem_cons.2 ⟨(extreme_result (i := .max g x a b z c) (better := Cmp.gt) hm hx rfl).2 hn, List.forall_mem_cons.2
      ⟨(extreme_result (i := .min g x a b z c) (better := Cmp.lt) hm hx rfl).2 hn, List.forall_mem_nil _⟩⟩

end Sys2Proof

end

