-- ==== Sys2Proof/Proofs/Masks.lean ====
section
/-! PROOFS. Mask, compress, merge and arithmetic compress (spec/47_sparse_compare_index.md R511 to R513;
spec/48_vector_macro.md R566). -/

-- One declaration at a time, as in the tests: many at once need a thread each.
set_option Elab.async false

namespace Sys2Proof.Machine

variable {s : State}

/-! ### Counting the selected positions -/

theorem countBelow_succ (p : Nat → Bool) (n : Nat) : countBelow p (n + 1) = countBelow p n + (p n).toNat := countP_range_succ p n

theorem countBelow_le (p : Nat → Bool) (n : Nat) : countBelow p n ≤ n :=
  Nat.le_trans List.countP_le_length (Nat.le_of_eq List.length_range)

theorem countBelow_mono (p : Nat → Bool) {m n : Nat} (h : m ≤ n) : countBelow p m ≤ countBelow p n := by
  induction h with
  | refl => exact Nat.le_refl _
  | step _ ih =>
    rw [countBelow_succ]
    exact Nat.le_add_right_of_le ih

/-- A selected position counts for those behind it. -/
theorem countBelow_lt {p : Nat → Bool} {m n : Nat} (hp : p m = true) (h : m < n) : countBelow p m < countBelow p n := by
  refine Nat.lt_of_lt_of_le ?_ (countBelow_mono p h)
  rw [countBelow_succ, hp]
  exact Nat.lt_succ_self _

theorem countBelow_not_add (p : Nat → Bool) (n : Nat) : countBelow (!p ·) n + countBelow p n = n := by
  induction n with
  | zero => rfl
  | succ n ih =>
    rw [countBelow_succ, countBelow_succ]
    cases p n <;> simp only [Bool.not_true, Bool.not_false, Bool.toNat_true, Bool.toNat_false] <;> omega

/-! ### Fields of stored elements -/

/-- The selected positions below `k` have their values in the elements of the field, one behind the other. -/
def State.Packed (t : State) (w : Width) (dst : Addr) (sel : Nat → Bool) (value : Nat → Word) (k : Nat) : Prop :=
  ∀ j, j < k → sel j = true → t.elemOfMemory w (itemAddr w dst (countBelow sel j)) = narrow w (value j)

namespace State.Packed

variable {t u : State} {w : Width} {dst : Addr} {sel : Nat → Bool} {value : Nat → Word} {k : Nat}

theorem zero : t.Packed w dst sel value 0 := fun j hj => absurd hj (Nat.not_lt_zero j)

theorem skip (h : t.Packed w dst sel value k) (hsel : sel k = false)
    (hu : ∀ j, j < countBelow sel k → u.elemOfMemory w (itemAddr w dst j) = t.elemOfMemory w (itemAddr w dst j)) :
    u.Packed w dst sel value (k + 1) := fun j hj hs => by
  rcases Nat.lt_succ_iff_lt_or_eq.mp hj with hj | rfl
  · exact (hu _ (countBelow_lt hs hj)).trans (h j hj hs)
  · exact absurd (hsel.symm.trans hs) Bool.false_ne_true

theorem congr (h : t.Packed w dst sel value k)
    (hu : ∀ j, j < countBelow sel k → u.elemOfMemory w (itemAddr w dst j) = t.elemOfMemory w (itemAddr w dst j)) :
    u.Packed w dst sel value k := fun j hj hs => (hu _ (countBelow_lt hs hj)).trans (h j hj hs)

/-- The value of one more selected position is stored behind the others. -/
theorem store {n : Nat} {v : Word} (h : t.Packed w dst sel value k) (hw : Memory.wf t.mem = true) (hok : t.params.ok = true)
    (hfit : n * w.bits ≤ 2 ^ t.params.cpmLog) (hlt : countBelow sel k < n) (hv : narrow w v = narrow w (value k)) :
    (t.withElem w (itemAddr w dst (countBelow sel k)) v).Packed w dst sel value (k + 1) := fun j hj hs => by
  rcases Nat.lt_succ_iff_lt_or_eq.mp hj with hj | rfl
  · have hc := countBelow_lt hs hj
    rw [State.elemOfMemory_withElem_ne t w _ v hw (State.items_apart hok hfit dst hlt (Nat.lt_trans hc hlt) (Nat.ne_of_gt hc))]
    exact h j hj hs
  · exact (State.elemOfMemory_withElem_self t w _ v hw).trans hv

/-- A bit stored outside the field. -/
theorem withBit {a : Addr} {v : Bool} (h : t.Packed w dst sel value k) (hw : Memory.wf t.mem = true)
    (hap : ∀ j, j < countBelow sel k → t.bitByte a < t.elemByte w (itemAddr w dst j) ∨
      t.elemByte w (itemAddr w dst j) + w.bytes ≤ t.bitByte a) : (t.withBit a v).Packed w dst sel value k :=
  h.congr fun j hj => State.elemOfMemory_congr (State.withBit_params ..) fun b h1 h2 =>
    State.byte_withBit_out _ _ _ hw fun he => by
      have := hap j hj
      omega

end State.Packed

/-- An element stored outside the string. -/
theorem State.BitsAre.withElem {t : State} {z a : Addr} {k : Nat} {value : Nat → Bool} {w : Width} {v : Word}
    (h : t.BitsAre z k value) (hw : Memory.wf t.mem = true) (hap : ∀ j, j < k → t.bitByte (z + BitVec.ofNat 48 j) < t.elemByte w a ∨
      t.elemByte w a + w.bytes ≤ t.bitByte (z + BitVec.ofNat 48 j)) : (t.withElem w a v).BitsAre z k value := fun j hj =>
  (State.bitOfMemory_congr (State.withElem_params ..) (State.byte_withElem_out _ _ _ _ hw (hap j hj))).trans (h j hj)

theorem countBelow_all (n : Nat) : countBelow (fun _ => true) n = n := by
  induction n with
  | zero => rfl
  | succ n ih => rw [countBelow_succ, ih]; rfl

/-- A loop that stores one element at each position. -/
theorem fieldLoop_results {α : Type} {body : Nat → α → M α} {v : α} {w : Width} {dst : Addr} {n : Nat} {flags : List Nat}
    {value : Nat → Word} {P : Prop} (A : Nat → α → Prop) (hw : Memory.wf s.mem = true) (h47 : 47 ∈ flags) (h0 : A 0 v)
    (hbody : ∀ k a t, k < n → s.Within t nothing flags (s.inField w dst k) → Ends (body k a) t fun a' u =>
      ∃ t' x, t.Looked t' ∧ u = t'.withElem w (itemAddr w dst k) x ∧ (P → A k a → narrow w x = narrow w (value k) ∧ A (k + 1) a')) :
    Ends (elements n body v) s fun _ t => s.Within t nothing flags (s.inField w dst n) ∧
      (P → s.params.ok = true → n * w.bits ≤ 2 ^ s.params.cpmLog → ∀ i, i < n →
        t.elemOfMemory w (itemAddr w dst i) = narrow w (value i)) := by
  refine (Ends.elements (fun k a t => s.Within t nothing flags (s.inField w dst k) ∧
      (P → s.params.ok = true → n * w.bits ≤ 2 ^ s.params.cpmLog → A k a ∧ t.Packed w dst (fun _ => true) value k)) n
    ⟨State.Within.refl, fun _ _ _ => ⟨h0, State.Packed.zero⟩⟩ fun k a t hk ⟨hwithin, hpacked⟩ => ?_).mono
    fun _ t ⟨h1, h2⟩ => ⟨h1, fun hP hok hfit i hi => ?_⟩
  · refine (hbody k a t hk hwithin).mono fun a' u ⟨t', x, hl, hu, hx⟩ => ?_
    subst hu
    have hwithin' := hwithin.looked hl h47
    refine ⟨hwithin'.storeItem x h47, fun hP hok hfit => ?_⟩
    obtain ⟨hA, hpk⟩ := hpacked hP hok hfit
    obtain ⟨hv, hA'⟩ := hx hP hA
    have hp : t'.params = s.params := hwithin'.toFrame.params
    refine ⟨hA', ?_⟩
    have hst := State.Packed.store (v := x) (hpk.congr (u := t') fun j _ => hl.elemOfMemory ..) (hwithin'.toFrame.wf hw)
      (by rw [hp]; exact hok) (by rw [hp]; exact hfit) (Nat.lt_of_le_of_lt (countBelow_le _ k) hk) hv
    rwa [countBelow_all] at hst
  · have := (h2 hP hok hfit).2 i hi rfl
    rwa [countBelow_all] at this

/-! ### Mask and merge (R511, R513) -/

theorem Ends.pickElem {t : State} {w : Width} {broadcast : Bool} {r : Byte} {i : Nat} (hm : t.mode = .monitor) :
    Ends (pickElem w broadcast r i s) t fun v u => t.Looked u ∧
      v = if broadcast then s.regW w r else t.elemOfMemory w (itemAddr w (s.addr r) i) := by
  unfold Machine.pickElem
  cases broadcast with
  | true => exact Ends.pure ⟨State.Looked.refl, rfl⟩
  | false => exact ⟨_, _, readElem_monitor hm _ _, State.Looked.refl.breakpoint _, rfl⟩

theorem Ends.readBit_looked {t : State} {a : Addr} (hm : t.mode = .monitor) :
    Ends (Machine.readBit a) t fun v u => t.Looked u ∧ v = t.bitOfMemory a :=
  ⟨_, _, readBit_monitor hm a, State.Looked.refl.breakpoint _, rfl⟩

/-- What an instruction that fills field C leaves. -/
theorem filled_completes {α : Type} {x : α} {i : Instr} {c z : Byte} {w : Width} {m : M α} {value : Nat → Word} {P : Prop} {t : State}
    (hw : Memory.wf s.mem = true) (hm : m s = .ok (x, t))
    (he : exec i s = run64 (m >>= fun _ => setLength s c (s.len z)) s)
    (hwithin : s.Within t nothing [47] (s.inField w (s.addr c) (s.len z)))
    (hval : P → s.params.ok = true → s.len z * w.bits ≤ 2 ^ s.params.cpmLog → ∀ i, i < s.len z →
      t.elemOfMemory w (itemAddr w (s.addr c) i) = narrow w (value i)) :
    Completes i s s.behind64 (· = c) [47] (s.inField w (s.addr c) (s.len z)) fun u =>
      u.reg c = lenPart (s.reg z) ++ s.addr c ∧
      (s.params.ok = true → s.len z * w.bits ≤ 2 ^ s.params.cpmLog → P → ∀ i, i < s.len z →
        u.elemOfMemory w (itemAddr w (s.addr c) i) = narrow w (value i)) := by
  refine ((hwithin.moreRegs (changed' := (· = c)) nofun).setReg _ rfl).completes64 hw
    (he.trans (run64_of_ok ((bind_ok hm).trans rfl))) ⟨?_, fun hok hfit hP i hi => hval hP hok hfit i hi⟩
  rw [State.next64_reg, State.setReg_reg_self]
  exact congrArg (· ++ s.addr c) (BitVec.ofNat_toNat .. |>.trans (BitVec.setWidth_eq _))

/-- The constant, or an element of a field. -/
def State.picked (s : State) (w : Width) (broadcast : Bool) (r : Byte) (i : Nat) : Word :=
  if broadcast then s.regW w r else s.elemOfMemory w (itemAddr w (s.addr r) i)

theorem State.narrow_picked (s : State) (w : Width) (broadcast : Bool) (r : Byte) (i : Nat) :
    narrow w (s.picked w broadcast r i) = s.picked w broadcast r i := by
  unfold State.picked
  split
  · exact narrow_regW ..
  · exact narrow_elemOfMemory ..

section
variable {g a b z c : Byte} {t : State} {w : Width} {n k : Nat}

theorem Ends.picked {broadcast : Bool} {r : Byte} {i : Nat} {dst : Addr} (hm : s.mode = .monitor) (hw : Memory.wf s.mem = true)
    (hwithin : s.Within t nothing [47] (s.inField w dst k)) (hk : k ≤ n) :
    Ends (Machine.pickElem w broadcast r i s) t fun v u => t.Looked u ∧
      ((broadcast = false → s.fieldsApart w (s.addr r) n w dst n) → i < n → v = s.picked w broadcast r i) := by
  refine (Ends.pickElem (hwithin.toFrame.mode.trans hm)).mono fun v u ⟨hl, hv⟩ => ⟨hl, fun hcl hi => ?_⟩
  rw [hv]
  unfold State.picked
  cases broadcast with
  | true => rfl
  | false => exact hwithin.toFrame.elem_out hw fun j hj => State.elemsApart_symm (hcl rfl i hi j (Nat.lt_of_lt_of_le hj hk))

theorem Ends.orderBit {dst src : Addr} (hm : s.mode = .monitor) (hw : Memory.wf s.mem = true)
    (hwithin : s.Within t nothing [47] (s.inField w dst k)) (hk : k ≤ n) {i : Nat} (hi : i < n) :
    Ends (Machine.readBit (src + BitVec.ofNat 48 i)) t fun v u => t.Looked u ∧
      (s.bitsApart src n w dst n → v = s.bitOfMemory (src + BitVec.ofNat 48 i)) :=
  (Ends.readBit_looked (hwithin.toFrame.mode.trans hm)).mono fun _ _ ⟨hl, hv⟩ => ⟨hl, fun hap =>
    hv.trans (hwithin.toFrame.bit_out hw fun j hj => hap i hi j (Nat.lt_of_lt_of_le hj hk))⟩

theorem mask_result (hm : s.mode = .monitor) (hw : Memory.wf s.mem = true) (hn : s.len z ≠ 0) :
    let w := gWidth g
    let nz := s.len z
    let zb (i : Nat) : Bool := s.bitOfMemory (s.addr z + BitVec.ofNat 48 i)
    Completes (.maskv g 0 a 0 b z c) s s.behind64 (· = c) [47] (s.inField w (s.addr c) nz) fun u =>
      u.reg c = lenPart (s.reg z) ++ s.addr c ∧
      (s.params.ok = true → nz * w.bits ≤ 2 ^ s.params.cpmLog → s.bitsApart (s.addr z) nz w (s.addr c) nz →
        (bitAt g 3 = false → s.fieldsApart w (s.addr a) nz w (s.addr c) nz) →
        (bitAt g 4 = false → s.fieldsApart w (s.addr b) nz w (s.addr c) nz) → ∀ i, i < nz →
          u.elemOfMemory w (itemAddr w (s.addr c) i) = if zb i then s.picked w (bitAt g 3) a i else s.picked w (bitAt g 4) b i) := by
  intro w nz zb
  obtain ⟨_, t, ht, hwithin, hval⟩ := fieldLoop_results (s := s) (n := nz) (dst := s.addr c) (w := w) (v := ())
    (body := fun i _ => do
        let zb ← readBit (s.addr z + BitVec.ofNat 48 i)
        let v ← if zb then pickElem w (bitAt g 3) a i s else pickElem w (bitAt g 4) b i s
        writeElem w (itemAddr w (s.addr c) i) v)
    (value := fun i => if zb i then s.picked w (bitAt g 3) a i else s.picked w (bitAt g 4) b i)
    (P := s.bitsApart (s.addr z) nz w (s.addr c) nz ∧ (bitAt g 3 = false → s.fieldsApart w (s.addr a) nz w (s.addr c) nz) ∧
      (bitAt g 4 = false → s.fieldsApart w (s.addr b) nz w (s.addr c) nz)) (fun _ _ => True) hw (flags := [47])
    List.mem_cons_self trivial fun k _ t hk hwithin => by
      refine Ends.bind ((Ends.orderBit hm hw hwithin (Nat.le_of_lt hk) hk).mono fun v u ⟨hl, hv⟩ => ?_)
      have hwithin' := hwithin.looked hl List.mem_cons_self
      have hpick : Ends (if v then pickElem w (bitAt g 3) a k s else pickElem w (bitAt g 4) b k s) u fun x u' => u.Looked u' ∧
          ((bitAt g 3 = false → s.fieldsApart w (s.addr a) nz w (s.addr c) nz) →
            (bitAt g 4 = false → s.fieldsApart w (s.addr b) nz w (s.addr c) nz) →
            x = if v then s.picked w (bitAt g 3) a k else s.picked w (bitAt g 4) b k) := by
        cases v with
        | true => exact (Ends.picked hm hw hwithin' (Nat.le_of_lt hk)).mono fun x u' ⟨h1, h2⟩ => ⟨h1, fun ha _ => h2 ha hk⟩
        | false => exact (Ends.picked hm hw hwithin' (Nat.le_of_lt hk)).mono fun x u' ⟨h1, h2⟩ => ⟨h1, fun _ hb => h2 hb hk⟩
      refine Ends.joined (hpick.mono fun x u' ⟨hl', hx⟩ => ?_)
      exact ⟨_, _, writeElem_monitor (hl'.mode.trans (hwithin'.toFrame.mode.trans hm)) _ _ _, u', x, hl.trans hl', rfl,
        fun ⟨hz, ha, hb⟩ _ => ⟨by rw [hx ha hb, hv hz], trivial⟩⟩
  refine (filled_completes (i := .maskv g 0 a 0 b z c) (z := z) hw ht ?_ hwithin hval).mono fun u ⟨h1, h2⟩ => ⟨h1,
    fun hok hfit hz ha hb i hi => (h2 hok hfit ⟨hz, ha, hb⟩ i hi).trans ?_⟩
  · exact run64_congr ((bind_ok (refuseIf_false rfl)).trans (by rw [if_neg hn]))
  · split <;> exact State.narrow_picked ..

theorem merge_result (hm : s.mode = .monitor) (hw : Memory.wf s.mem = true) (hn : s.len z ≠ 0) :
    let w := gWidth g
    let nz := s.len z
    let zb (i : Nat) : Bool := s.bitOfMemory (s.addr z + BitVec.ofNat 48 i)
    Completes (.mrgv g 0 a 0 b z c) s s.behind64 (· = c) [47] (s.inField w (s.addr c) nz) fun u =>
      u.reg c = lenPart (s.reg z) ++ s.addr c ∧
      (s.params.ok = true → nz * w.bits ≤ 2 ^ s.params.cpmLog → s.bitsApart (s.addr z) nz w (s.addr c) nz →
        (bitAt g 3 = false → s.fieldsApart w (s.addr a) nz w (s.addr c) nz) →
        (bitAt g 4 = false → s.fieldsApart w (s.addr b) nz w (s.addr c) nz) → ∀ i, i < nz →
          u.elemOfMemory w (itemAddr w (s.addr c) i) = if zb i then s.picked w (bitAt g 3) a (countBelow zb i)
            else s.picked w (bitAt g 4) b (countBelow (!zb ·) i + if bitAt g 7 then countBelow zb i else 0)) := by
  intro w nz zb
  have hbelow (k : Nat) : (countBelow (!zb ·) k + if bitAt g 7 then countBelow zb k else 0) ≤ k := by
    have := countBelow_not_add zb k
    split <;> omega
  obtain ⟨_, t, ht, hwithin, hval⟩ := fieldLoop_results (s := s) (n := nz) (dst := s.addr c) (w := w) (v := ((0, 0) : Nat × Nat))
    (body := fun i n => do
        let zb ← readBit (s.addr z + BitVec.ofNat 48 i)
        if zb then
          writeElem w (itemAddr w (s.addr c) i) (← pickElem w (bitAt g 3) a n.1 s)
          return (n.1 + 1, n.2 + (bitAt g 7).toNat)
        else
          writeElem w (itemAddr w (s.addr c) i) (← pickElem w (bitAt g 4) b n.2 s)
          return (n.1, n.2 + 1))
    (value := fun i => if zb i then s.picked w (bitAt g 3) a (countBelow zb i)
      else s.picked w (bitAt g 4) b (countBelow (!zb ·) i + if bitAt g 7 then countBelow zb i else 0))
    (P := s.bitsApart (s.addr z) nz w (s.addr c) nz ∧ (bitAt g 3 = false → s.fieldsApart w (s.addr a) nz w (s.addr c) nz) ∧
      (bitAt g 4 = false → s.fieldsApart w (s.addr b) nz w (s.addr c) nz))
    (fun k v => v = (countBelow zb k, countBelow (!zb ·) k + if bitAt g 7 then countBelow zb k else 0)) hw (flags := [47])
    List.mem_cons_self (by show _ = (0, 0 + if bitAt g 7 then 0 else 0); rw [ite_self]) fun k v t hk hwithin => by
      refine Ends.bind ((Ends.orderBit hm hw hwithin (Nat.le_of_lt hk) hk).mono fun x u ⟨hl, hx⟩ => ?_)
      have hwithin' := hwithin.looked hl List.mem_cons_self
      have hstore {v' : Nat × Nat} {bc : Bool} {r : Byte} {i : Nat} (h : s.bitsApart (s.addr z) nz w (s.addr c) nz →
          v = (countBelow zb k, countBelow (!zb ·) k + if bitAt g 7 then countBelow zb k else 0) → i ≤ k ∧
          s.picked w bc r i = (if zb k then s.picked w (bitAt g 3) a (countBelow zb k)
            else s.picked w (bitAt g 4) b (countBelow (!zb ·) k + if bitAt g 7 then countBelow zb k else 0)) ∧
          v' = (countBelow zb (k + 1), countBelow (!zb ·) (k + 1) + if bitAt g 7 then countBelow zb (k + 1) else 0))
          (hap : (bitAt g 3 = false → s.fieldsApart w (s.addr a) nz w (s.addr c) nz) →
            (bitAt g 4 = false → s.fieldsApart w (s.addr b) nz w (s.addr c) nz) → bc = false → s.fieldsApart w (s.addr r) nz w (s.addr c) nz) :
          Ends (do writeElem w (itemAddr w (s.addr c) k) (← pickElem w bc r i s); return v') u fun a' u' => ∃ t' x,
            t.Looked t' ∧ u' = t'.withElem w (itemAddr w (s.addr c) k) x ∧ (s.bitsApart (s.addr z) nz w (s.addr c) nz ∧
              (bitAt g 3 = false → s.fieldsApart w (s.addr a) nz w (s.addr c) nz) ∧
              (bitAt g 4 = false → s.fieldsApart w (s.addr b) nz w (s.addr c) nz) →
              v = (countBelow zb k, countBelow (!zb ·) k + if bitAt g 7 then countBelow zb k else 0) →
              narrow w x = narrow w (if zb k then s.picked w (bitAt g 3) a (countBelow zb k)
                else s.picked w (bitAt g 4) b (countBelow (!zb ·) k + if bitAt g 7 then countBelow zb k else 0)) ∧
              a' = (countBelow zb (k + 1), countBelow (!zb ·) (k + 1) + if bitAt g 7 then countBelow zb (k + 1) else 0)) := by
        refine Ends.bind ((Ends.picked hm hw hwithin' (Nat.le_of_lt hk)).mono fun y u' ⟨hl', hy⟩ => ?_)
        refine Ends.bind ⟨_, _, writeElem_monitor (hl'.mode.trans (hwithin'.toFrame.mode.trans hm)) _ _ _, Ends.pure
          ⟨u', y, hl.trans hl', rfl, fun ⟨hz, ha, hb⟩ hv => ?_⟩⟩
        obtain ⟨hi, hp, hv'⟩ := h hz hv
        exact ⟨by rw [hy (hap ha hb) (Nat.lt_of_le_of_lt hi hk), hp], hv'⟩
      cases x with
      | true =>
        refine hstore (fun hz hv => ?_) fun ha _ => ha
        have hzk : zb k = true := (hx hz).symm
        subst hv
        refine ⟨countBelow_le zb k, (if_pos hzk).symm, ?_⟩
        rw [countBelow_succ, countBelow_succ, hzk]
        cases bitAt g 7 <;> rfl
      | false =>
        refine hstore (fun hz hv => ?_) fun _ hb => hb
        have hzk : zb k = false := (hx hz).symm
        subst hv
        refine ⟨hbelow k, (if_neg (by rw [hzk]; exact Bool.false_ne_true)).symm, ?_⟩
        rw [countBelow_succ, countBelow_succ, hzk]
        exact congrArg (countBelow zb k, ·) (Nat.add_right_comm ..)
  refine (filled_completes (i := .mrgv g 0 a 0 b z c) (z := z) hw ht ?_ hwithin hval).mono fun u ⟨h1, h2⟩ => ⟨h1,
    fun hok hfit hz ha hb i hi => (h2 hok hfit ⟨hz, ha, hb⟩ i hi).trans ?_⟩
  · exact run64_congr ((bind_ok (refuseIf_false rfl)).trans (by rw [if_neg hn]))
  · split <;> exact State.narrow_picked ..

/-! ### Compress (R512) -/

theorem compress_result (hm : s.mode = .monitor) (hw : Memory.wf s.mem = true) (hn : s.len z ≠ 0) :
    let w := gWidth g
    let nz := s.len z
    let selected (i : Nat) : Bool := s.bitOfMemory (s.addr z + BitVec.ofNat 48 i) != bitAt g 1
    ∃ n, n ≤ nz ∧ Completes (.cpsv g 0 a z c) s s.behind64 (· = c) [47] (s.inField w (s.addr c) n) fun u =>
      u.reg c = BitVec.ofNat 16 n ++ s.addr c ∧
        (s.params.ok = true → nz * w.bits ≤ 2 ^ s.params.cpmLog → s.bitsApart (s.addr z) nz w (s.addr c) nz →
          s.fieldsApart w (s.addr a) nz w (s.addr c) nz → n = countBelow selected nz ∧ ∀ i, i < nz → selected i = true →
            u.elemOfMemory w (itemAddr w (s.addr c) (countBelow selected i)) = s.elemOfMemory w (itemAddr w (s.addr a) i)) := by
  intro w nz selected
  have hloop := Ends.elements (s := s) (n := nz) (x := (0 : Nat))
    (b := fun i k => do
        let zb ← readBit (s.addr z + BitVec.ofNat 48 i)
        if zb != bitAt g 1 then
          let v ← readElem w (itemAddr w (s.addr a) i)
          writeElem w (itemAddr w (s.addr c) k) v
          return k + 1
        else return k)
    (fun i k t => s.Within t nothing [47] (s.inField w (s.addr c) k) ∧ k ≤ i ∧
      (s.params.ok = true → nz * w.bits ≤ 2 ^ s.params.cpmLog → s.bitsApart (s.addr z) nz w (s.addr c) nz →
        s.fieldsApart w (s.addr a) nz w (s.addr c) nz → k = countBelow selected i ∧
        t.Packed w (s.addr c) selected (fun i => s.elemOfMemory w (itemAddr w (s.addr a) i)) i))
    ⟨State.Within.refl, Nat.le_refl 0, fun _ _ _ _ => ⟨rfl, State.Packed.zero⟩⟩ ?_
  · obtain ⟨n, t, ht, hwithin, hle, hval⟩ := hloop
    refine ⟨n, hle, ((hwithin.moreRegs (changed' := (· = c)) nofun).setReg (joinLen (BitVec.ofNat 16 n) (s.addr c)) rfl).completes64 hw
      ((run64_congr ((bind_ok (refuseIf_false rfl)).trans (by rw [if_neg hn]))).trans (run64_of_ok ((bind_ok ht).trans rfl)))
      ⟨?_, fun hok hfit hz ha => ?_⟩⟩
    · exact (State.next64_reg ..).trans (State.setReg_reg_self ..)
    · obtain ⟨hk, hpk⟩ := hval hok hfit hz ha
      exact ⟨hk, fun i hi hs => (hpk i hi hs).trans (narrow_elemOfMemory ..)⟩
  · rintro i k t hi ⟨hwithin, hle, hval⟩
    have hkn : k ≤ nz := Nat.le_trans hle (Nat.le_of_lt hi)
    refine Ends.bind ((Ends.orderBit hm hw hwithin hkn hi).mono fun x u ⟨hl, hx⟩ => ?_)
    have hwithin' := hwithin.looked hl List.mem_cons_self
    have hsel (hz : s.bitsApart (s.addr z) nz w (s.addr c) nz) : selected i = (x != bitAt g 1) := by rw [hx hz]
    cases hxs : (x != bitAt g 1) with
    | true =>
      rw [if_pos rfl]
      have hmu := hwithin'.toFrame.mode.trans hm
      have hl' : u.Looked (u.breakpoint false (w.aligned (itemAddr w (s.addr a) i))) := State.Looked.refl.breakpoint _
      have hwithin2 := hwithin'.looked hl' List.mem_cons_self
      refine Ends.bind ⟨_, _, readElem_monitor hmu _ _, Ends.bind ⟨_, _, writeElem_monitor (hl'.mode.trans hmu) _ _ _, Ends.pure
        ⟨hwithin2.storeItem _ List.mem_cons_self, Nat.succ_le_succ hle, fun hok hfit hz ha => ?_⟩⟩⟩
      obtain ⟨hk, hpk⟩ := hval hok hfit hz ha
      have hs : selected i = true := (hsel hz).trans hxs
      have hp := hwithin2.toFrame.params
      refine ⟨by rw [countBelow_succ, hs, hk]; rfl, ?_⟩
      rw [hk]
      refine State.Packed.store (hpk.congr fun j _ => (hl.trans hl').elemOfMemory ..) (hwithin2.toFrame.wf hw) (by rw [hp]; exact hok)
        (by rw [hp]; exact hfit) (Nat.lt_of_le_of_lt (countBelow_le _ i) hi) (congrArg (narrow w) ?_)
      exact hwithin'.toFrame.elem_out hw fun j hj => State.elemsApart_symm (ha i hi j (Nat.lt_of_lt_of_le hj hkn))
    | false =>
      rw [if_neg Bool.false_ne_true]
      refine Ends.pure ⟨hwithin', Nat.le_succ_of_le hle, fun hok hfit hz ha => ?_⟩
      obtain ⟨hk, hpk⟩ := hval hok hfit hz ha
      have hs : selected i = false := (hsel hz).trans hxs
      exact ⟨by rw [countBelow_succ, hs, hk]; rfl, hpk.skip hs fun j _ => hl.elemOfMemory ..⟩

theorem noOrder_result (x y : Byte) (hx : x = 0) (hy : y = 0) (hn : s.len z = 0) :
    ∀ i ∈ [Instr.maskv g x a y b z c, .mrgv g x a y b z c, .cpsv g x a z c], exec i s = .next { s with pc := s.behind64 } := by
  subst hx hy
  have hstop {i : Instr} {m : M Unit} (he : exec i s = run64 (if s.len z = 0 then pure () else m) s) :
      exec i s = .next { s with pc := s.behind64 } := by
    rw [he, if_pos hn]
    rfl
  simp only [List.forall_mem_cons]
  exact ⟨hstop (run64_congr (bind_ok (refuseIf_false rfl))), hstop (run64_congr (bind_ok (refuseIf_false rfl))),
    hstop (run64_congr (bind_ok (refuseIf_false rfl))), fun _ h => by cases h⟩

end

/-! ### Arithmetic compress (R566) -/

theorem addrPart_joinLen (l : BitVec 16) (a : Addr) : addrPart (joinLen l a) = a := BitVec.extractLsb'_append_eq_right

theorem lenPart_joinLen (l : BitVec 16) (a : Addr) : lenPart (joinLen l a) = l := BitVec.extractLsb'_append_eq_left

theorem Ends.pairAt_looked {t : State} {w : Width} {p q : Stream} {i : Nat} (hm : t.mode = .monitor) :
    Ends (pairAt w p q i) t fun v u => t.Looked u ∧
      v = (t.streamElem p w (machineZero w) i, t.streamElem q w (machineZero w) i) :=
  Ends.bind ((Ends.elem_looked hm State.Looked.refl).mono fun v u ⟨h1, h2⟩ =>
    Ends.bind ((Ends.elem_looked hm h1).mono fun v' u' ⟨h3, h4⟩ => Ends.pure ⟨h1.trans h3, by rw [h2, h4]⟩))

/-- A source apart from a string and from a field is what it was. -/
theorem State.Frame.streamElem_outBoth {t : State} {changed : Byte → Prop} {flags : List Nat} {st : Stream} {w v : Width}
    {z c : Addr} {i k n : Nat} (h : s.Frame t changed flags fun b => s.inBits z i b ∨ s.inField v c k b)
    (hw : Memory.wf s.mem = true) (hz : s.apartFromBits st w z n) (hc : s.apart st w v c n) (hi : i ≤ n) (hk : k ≤ n) (ext : Word)
    (e : Nat) : t.streamElem st w ext e = s.streamElem st w ext e := by
  unfold State.streamElem
  cases st with
  | const v => rfl
  | vec a len =>
    simp only
    split
    · next he =>
      refine h.elemOfMemory hw fun b h1 h2 => ?_
      rintro (⟨j, hj, rfl⟩ | hb)
      · have := hz j (Nat.lt_of_lt_of_le hj hi) e he
        omega
      · exact State.not_inField (fun j hj => State.elemsApart_symm (hc e he j (Nat.lt_of_lt_of_le hj hk))) h1 h2 hb
    · rfl

section
variable {g : Byte} {w : Width} {p q : Stream} {z c : Addr} {n : Nat}

/-- The comparison of arithmetic compress at a position. -/
def State.compressCmp (s : State) (w : Width) (g : Byte) (p q : Stream) (i : Nat) : Cmp :=
  fpCmp w ((gSign g).onA w (unpack w (s.streamElem p w (machineZero w) i)))
    ((gSign g).onB w (unpack w (s.streamElem q w (machineZero w) i)))

/-- The fields of arithmetic compress lie apart. -/
structure State.CompressApart (s : State) (w : Width) (p q : Stream) (z c : Addr) (n : Nat) : Prop where
  ok : s.params.ok = true
  fit : n * w.bits ≤ 2 ^ s.params.cpmLog
  sourceA : s.apart p w w c n
  sourceB : s.apart q w w c n
  bitsA : s.apartFromBits p w z n
  bitsB : s.apartFromBits q w z n

theorem acps_same (hm : s.mode = .monitor) (hw : Memory.wf s.mem = true) :
    Ends (elements n (compressStep w g p q z c true) 0) s fun _ t =>
      s.Within t nothing (vectorFlags [46]) (s.inField w c n) ∧
      (s.apart p w w c n → s.apart q w w c n → s.FlagsRaised t n fun i => some (s.compressCmp w g p q i).flags) := by
  have h47 : 47 ∈ vectorFlags [46] := List.mem_cons_self
  refine Ends.elements (fun i _ t => s.Within t nothing (vectorFlags [46]) (s.inField w c i) ∧
      (s.apart p w w c n → s.apart q w w c n → s.FlagsRaised t i fun i => some (s.compressCmp w g p q i).flags)) n
    ⟨State.Within.refl, fun _ _ => State.FlagsRaised.zero s _⟩ fun i k t hi ⟨hwithin, hraised⟩ => ?_
  refine Ends.bind ((Ends.pairAt_looked (hwithin.toFrame.mode.trans hm)).mono fun v u ⟨hl, hv⟩ => ?_)
  subst hv
  refine Ends.bind (Ends.update ?_)
  rw [if_pos rfl]
  generalize hcmp : fpCmp w ((gSign g).onA w (unpack w (t.streamElem p w (machineZero w) i)))
    ((gSign g).onB w (unpack w (t.streamElem q w (machineZero w) i))) = r
  have hwithin' := (hwithin.looked hl h47).raiseFlags (among_cmp r).vector
  obtain ⟨x, f, hx, -⟩ := freeElem_ok w (u.raiseFlags .vector r.flags)
  refine Ends.bind ⟨_, _, hx, Ends.bind ⟨_, _, writeElem_monitor ((hwithin'.draw f).toFrame.mode.trans hm) _ _ _, Ends.pure
    ⟨(hwithin'.draw f).storeItem _ h47, fun hp hq => ?_⟩⟩⟩
  have hr : r = s.compressCmp w g p q i := by
    rw [← hcmp, hwithin.toFrame.streamElem_out hw hp (Nat.le_of_lt hi), hwithin.toFrame.streamElem_out hw hq (Nat.le_of_lt hi)]
    rfl
  have hbase := ((hraised hp hq).looked hl).raise (f := r.flags) fun e he => (Option.some.inj he).symm.trans (by rw [hr])
  exact hbase.congr fun j hj h47 hd => by
    rw [State.withElem_dfr]
    exact State.bitAt_breakpoint { u.raiseFlags .vector r.flags with free := f } true _ hj h47 hd

/-- What the first `i` positions of arithmetic compress have stored and raised, `k` of them selected. -/
structure State.CompressedTo (s t : State) (w : Width) (g : Byte) (p q : Stream) (z c : Addr) (n i k : Nat) : Prop where
  within : s.Within t nothing (vectorFlags [46]) fun b => s.inBits z i b ∨ s.inField w c k b
  below : k ≤ i
  raised : s.CompressApart w p q z c n → s.FlagsRaised t i fun i => some (s.compressCmp w g p q i).flags
  count : s.CompressApart w p q z c n → s.bitsApart z n w c n → k = countBelow (fun i => (s.compressCmp w g p q i).ge) i
  bits : s.CompressApart w p q z c n → s.bitsApart z n w c n → t.BitsAre z i fun i => (s.compressCmp w g p q i).ge
  packed : s.CompressApart w p q z c n → s.bitsApart z n w c n →
    t.Packed w c (fun i => (s.compressCmp w g p q i).ge) (fun i => s.streamElem p w (machineZero w) i) i

theorem acps_apart (hm : s.mode = .monitor) (hw : Memory.wf s.mem = true) :
    Ends (elements n (compressStep w g p q z c false) 0) s fun k t => s.CompressedTo t w g p q z c n n k := by
  have h47 : 47 ∈ vectorFlags [46] := List.mem_cons_self
  refine Ends.elements (fun i k t => s.CompressedTo t w g p q z c n i k) n ⟨State.Within.refl, Nat.le_refl 0,
    fun _ => State.FlagsRaised.zero s _, fun _ _ => rfl, fun _ _ i hi => absurd hi (Nat.not_lt_zero i),
    fun _ _ => State.Packed.zero⟩ fun i k t hi h => ?_
  have hkn : k < n := Nat.lt_of_le_of_lt h.below hi
  refine Ends.bind ((Ends.pairAt_looked (h.within.toFrame.mode.trans hm)).mono fun v u ⟨hl, hv⟩ => ?_)
  subst hv
  refine Ends.bind (Ends.update ?_)
  rw [if_neg Bool.false_ne_true]
  generalize hcmp : fpCmp w ((gSign g).onA w (unpack w (t.streamElem p w (machineZero w) i)))
    ((gSign g).onB w (unpack w (t.streamElem q w (machineZero w) i))) = r
  have hr (ha : s.CompressApart w p q z c n) : r = s.compressCmp w g p q i := by
    rw [← hcmp, h.within.toFrame.streamElem_outBoth hw ha.bitsA ha.sourceA (Nat.le_of_lt hi) (Nat.le_of_lt hkn),
      h.within.toFrame.streamElem_outBoth hw ha.bitsB ha.sourceB (Nat.le_of_lt hi) (Nat.le_of_lt hkn)]
    rfl
  have hwithin := (h.within.looked hl h47).raiseFlags (among_cmp r).vector
  have hraised (ha : s.CompressApart w p q z c n) := ((h.raised ha).looked hl).raise (f := r.flags) fun e he =>
    (Option.some.inj he).symm.trans (by rw [hr ha])
  have hbit {v : State} (hv : s.Within v nothing (vectorFlags [46]) fun b => s.inBits z i b ∨ s.inField w c (k + r.ge.toNat) b)
      (hf : s.CompressApart w p q z c n → s.FlagsRaised v (i + 1) fun i => some (s.compressCmp w g p q i).flags)
      (hb : s.CompressApart w p q z c n → s.bitsApart z n w c n → v.BitsAre z i fun i => (s.compressCmp w g p q i).ge)
      (hpk : s.CompressApart w p q z c n → s.bitsApart z n w c n →
        v.Packed w c (fun i => (s.compressCmp w g p q i).ge) (fun i => s.streamElem p w (machineZero w) i) (i + 1)) :
      Ends (do writeBit (z + BitVec.ofNat 48 i) r.ge; return k + r.ge.toNat) v fun k' u =>
        s.CompressedTo u w g p q z c n (i + 1) k' := by
    have hwv := hv.toFrame.wf hw
    have hpar := hv.toFrame.params
    refine Ends.bind ⟨_, _, writeBit_withBit (hv.toFrame.mode.trans hm) _ _, Ends.pure ⟨?_, ?_, fun ha => ?_, fun ha hz => ?_,
      fun ha hz => ?_, fun ha hz => ?_⟩⟩
    · exact (hv.mono fun b hb => hb.imp (fun ⟨j, hj, hb⟩ => ⟨j, Nat.lt_succ_of_lt hj, hb⟩) id).withBit _ h47
        (.inl ⟨i, Nat.lt_succ_self i, rfl⟩)
    · exact Nat.add_le_add h.below (Bool.toNat_le _)
    · exact (hf ha).congr fun j hj h47 hd => State.bitAt_withBit_dfr _ _ _ hj h47 hd
    · rw [countBelow_succ, ← h.count ha hz, hr ha]
    · have hfit : n ≤ 2 ^ v.params.cpmLog := by
        rw [hpar]
        exact Nat.le_trans (Nat.le_mul_of_pos_right n (by cases w <;> decide)) ha.fit
      have := (hb ha hz).store hwv (by rw [hpar]; exact ha.ok) hfit hi
      rwa [← hr ha] at this
    · refine (hpk ha hz).withBit hwv fun j hj => ?_
      rw [hv.toFrame.elemByte, hv.toFrame.bitByte]
      exact hz i hi j (Nat.lt_of_lt_of_le hj (Nat.le_trans (countBelow_le _ _) hi))
  cases hge : r.ge with
  | true =>
    rw [if_pos rfl]
    rw [hge] at hbit
    refine Ends.bind ⟨_, _, writeElem_monitor (hwithin.toFrame.mode.trans hm) _ _ _, hbit ?_ (fun ha => ?_) (fun ha hz => ?_) fun ha hz => ?_⟩
    · exact (hwithin.mono fun b hb => hb.imp id fun ⟨j, hj, hb⟩ => ⟨j, Nat.lt_succ_of_lt hj, hb⟩).withElem _ h47 fun b h1 h2 =>
        .inr ⟨k, Nat.lt_succ_self k, h1, h2⟩
    · exact (hraised ha).congr fun j hj h47 hd => by
        rw [State.withElem_dfr]
        exact State.bitAt_breakpoint _ _ _ hj h47 hd
    · refine State.BitsAre.withElem (fun j hj => (hl.bitOfMemory ..).trans (h.bits ha hz j hj)) (hwithin.toFrame.wf hw) fun j hj => ?_
      rw [hwithin.toFrame.elemByte, hwithin.toFrame.bitByte]
      exact hz j (Nat.lt_trans hj hi) k hkn
    · have hpar : (u.raiseFlags .vector r.flags).params = s.params := hwithin.toFrame.params
      rw [h.count ha hz]
      refine State.Packed.store (State.Packed.congr (h.packed ha hz) fun j _ => hl.elemOfMemory ..) (hwithin.toFrame.wf hw)
        (by rw [hpar]; exact ha.ok) (by rw [hpar]; exact ha.fit) (Nat.lt_of_le_of_lt (countBelow_le _ i) hi) ?_
      rw [h.within.toFrame.streamElem_outBoth hw ha.bitsA ha.sourceA (Nat.le_of_lt hi) (Nat.le_of_lt hkn)]
  | false =>
    rw [if_neg Bool.false_ne_true]
    rw [hge] at hbit
    exact hbit hwithin hraised (fun ha hz j hj => (hl.bitOfMemory ..).trans (h.bits ha hz j hj)) fun ha hz =>
      (h.packed ha hz).skip ((congrArg Cmp.ge (hr ha)).symm.trans hge) fun j _ => hl.elemOfMemory ..

end

section
variable {g x a y b z c : Byte}

theorem acps_result (hm : s.mode = .monitor) (hw : Memory.wf s.mem = true) (hx : s.sourceOk false x) :
    let w := gWidth g
    let n := s.len a - s.offsetOf x
    (n = 0 → exec (.acps g x a y b z c) s = .next { s with pc := s.behind64 }) ∧
    (n ≠ 0 → s.sourceOk (bitAt g 4) y →
      let p := s.streamOf w false a x
      let q := s.streamOf w (bitAt g 4) b y
      let cmp (i : Nat) : Cmp := s.compressCmp w g p q i
      let met (i : Nat) : Bool := (cmp i).ge
      let bitsClear := s.apartFromBits p w (s.addr z) n ∧ s.apartFromBits q w (s.addr z) n
      Completes (.acps g x a y b z c) s s.behind64 (fun k => k = z ∨ k = c) (vectorFlags [46])
      (fun k => s.inBits (s.addr z) n k ∨ s.inField w (s.addr c) n k) fun u =>
        s.addr z = addrPart (u.reg z) ∧ s.addr c = addrPart (u.reg c) ∧
        (s.params.ok = true → n * w.bits ≤ 2 ^ s.params.cpmLog → s.apart p w w (s.addr c) n →
          s.apart q w w (s.addr c) n → (z ≠ c → bitsClear) → s.FlagsRaised u n fun i => some (cmp i).flags) ∧
        (z ≠ c → u.reg z = BitVec.ofNat 16 n ++ s.addr z ∧ u.len c ≤ n ∧
          (s.params.ok = true → n * w.bits ≤ 2 ^ s.params.cpmLog → s.apart p w w (s.addr c) n →
            s.apart q w w (s.addr c) n → bitsClear → s.bitsApart (s.addr z) n w (s.addr c) n →
            u.len c = countBelow met n ∧ ∀ i, i < n →
              u.bitOfMemory (s.addr z + BitVec.ofNat 48 i) = met i ∧
              (met i = true → u.elemOfMemory w (itemAddr w (s.addr c) (countBelow met i)) =
                s.streamElem p w (machineZero w) i)))) := by
  intro w n
  have he : exec (.acps g x a y b z c) s = run64 (if n = 0 then pure () else source w (bitAt g 4) b y >>= fun q =>
      elements n (compressStep w g (s.streamOf w false a x) q (s.addr z) (s.addr c) (z = c)) 0 >>= fun k =>
        if z = c then do
          let f ← drawFree
          update (·.setReg c (joinLen (lenPart f) (s.addr c)))
        else do
          update (·.setReg z (joinLen (BitVec.ofNat 16 n) (s.addr z)))
          update (·.setReg c (joinLen (BitVec.ofNat 16 k) (s.addr c)))) s := run64_congr ((bind_ok (source_ok w a hx)).trans rfl)
  refine ⟨fun h0 => by rw [he, if_pos h0]; rfl, fun hn hy => ?_⟩
  intro p q cmp met bitsClear
  rw [if_neg hn, run64_congr (bind_ok (source_ok w b hy))] at he
  by_cases hzc : z = c
  · subst hzc
    simp only [decide_true, if_true] at he
    obtain ⟨_, t, ht, hwithin, hraised⟩ := acps_same (s := s) (g := g) (w := w) (p := p) (q := q) (z := s.addr z) (c := s.addr z) (n := n) hm hw
    have haddr (v : BitVec 16) : s.addr z = addrPart (({ t with free := t.free + 1 } : State).setReg z (joinLen v (s.addr z)) |>.next64.reg z) := by
      rw [State.next64_reg, State.setReg_reg_self]
      exact (addrPart_joinLen ..).symm
    refine (((((hwithin.moreRegs (changed' := fun k => k = z ∨ k = z) nofun).mono fun _ hb => Or.inr hb).draw (t.free + 1)).setReg
      (joinLen (lenPart (Config.freeWord t.free)) (s.addr z)) (.inl rfl)).completes64 hw (he.trans (run64_of_ok ((bind_ok ht).trans rfl)))
      ⟨haddr _, haddr _, fun _ _ hp hq _ => ?_, fun h => absurd rfl h⟩)
    exact ((hraised hp hq).of_bits fun _ _ => rfl).next64
  · simp only [hzc, decide_false, if_false] at he
    obtain ⟨k, t, ht, hdone⟩ := acps_apart (s := s) (g := g) (w := w) (p := p) (q := q) (z := s.addr z) (c := s.addr c) (n := n) hm hw
    have hn16 : n < 2 ^ 16 := Nat.lt_of_le_of_lt (Nat.sub_le ..) (lenPart (s.reg a)).isLt
    have hlt : k < 2 ^ 16 := Nat.lt_of_le_of_lt hdone.below hn16
    have hz : ((t.setReg z (joinLen (BitVec.ofNat 16 n) (s.addr z))).setReg c (joinLen (BitVec.ofNat 16 k) (s.addr c))).next64.reg z =
        joinLen (BitVec.ofNat 16 n) (s.addr z) := by
      rw [State.next64_reg, State.setReg_reg_ne _ _ hzc, State.setReg_reg_self]
    have hc : ((t.setReg z (joinLen (BitVec.ofNat 16 n) (s.addr z))).setReg c (joinLen (BitVec.ofNat 16 k) (s.addr c))).next64.reg c =
        joinLen (BitVec.ofNat 16 k) (s.addr c) := by
      rw [State.next64_reg, State.setReg_reg_self]
    have hlen : ((t.setReg z (joinLen (BitVec.ofNat 16 n) (s.addr z))).setReg c (joinLen (BitVec.ofNat 16 k) (s.addr c))).next64.len c = k := by
      rw [State.len, hc, lenPart_joinLen, BitVec.toNat_ofNat, Nat.mod_eq_of_lt hlt]
    have hwithin : s.Within t nothing (vectorFlags [46]) fun b => s.inBits (s.addr z) n b ∨ s.inField w (s.addr c) n b :=
      hdone.within.mono fun _ hb => hb.imp id fun ⟨j, hj, hb⟩ => ⟨j, Nat.lt_of_lt_of_le hj hdone.below, hb⟩
    refine (((hwithin.moreRegs (changed' := fun k => k = z ∨ k = c) nofun).setReg (joinLen (BitVec.ofNat 16 n) (s.addr z)) (.inl rfl)).setReg
      (joinLen (BitVec.ofNat 16 k) (s.addr c)) (.inr rfl)).completes64 hw (he.trans (run64_of_ok ((bind_ok ht).trans rfl)))
      ⟨by rw [hz, addrPart_joinLen], by rw [hc, addrPart_joinLen], fun hok hfit hp hq hb => ?_, fun _ => ⟨hz, hlen.symm ▸ hdone.below,
        fun hok hfit hp hq hb hzb => ?_⟩⟩
    · exact ((hdone.raised ⟨hok, hfit, hp, hq, (hb hzc).1, (hb hzc).2⟩).of_bits fun _ _ => rfl).next64
    · have hap : s.CompressApart w p q (s.addr z) (s.addr c) n := ⟨hok, hfit, hp, hq, hb.1, hb.2⟩
      refine ⟨hlen.trans (hdone.count hap hzb), fun i hi => ⟨hdone.bits hap hzb i hi, fun hmet => ?_⟩⟩
      exact (hdone.packed hap hzb i hi hmet).trans (narrow_streamElem (narrow_machineZero w) a x false i)

end

end Sys2Proof.Machine

namespace Sys2Proof
open Machine

/-- Settles O51. -/
theorem maskCompressMerge : Obligations.MaskCompressMerge := by
  intro s g x a y b z c hm hw
  refine ⟨fun hn => ⟨?_, compress_result hm hw hn⟩, noOrder_result 0 0 rfl rfl, fun hx => ?_⟩
  · simp only [List.forall_mem_cons]
    exact ⟨mask_result hm hw hn, merge_result hm hw hn, fun _ h => by cases h⟩
  · exact acps_result hm hw hx

end Sys2Proof
end

