-- ==== Sys2Proof/Proofs/Sparse.lean ====
section
/-! PROOFS. Sparse vector arithmetic (spec/47_sparse_compare_index.md R470 to R485). -/

-- One declaration at a time, as in the tests: many at once need a thread each.
set_option Elab.async false

namespace Sys2Proof.Machine

variable {s : State}

/-- Bit `i` of the order vector of a descriptor, extended with zero bits (R470). -/
def State.orderOf (s : State) (r : Byte) (i : Nat) : Bool :=
  decide (i < s.len r) && s.bitOfMemory (s.addr r + BitVec.ofNat 48 i)

/-- The next element of a sparse field whose order bit is one, or the fill value (R472). -/
def State.sparseOperand (s : State) (w : Width) (broadcast : Bool) (r : Byte) (bit : Nat → Bool) (fill : Word) (i : Nat) : Word :=
  if bit i then if broadcast then s.regW w r else s.elemOfMemory w (itemAddr w (s.addr r) (countBelow bit i)) else fill

/-- What a sparse vector instruction is made of. -/
structure SparseForm where
  orDefault : Bool
  op : FpOp
  g : Byte
  x : Byte
  a : Byte
  y : Byte
  b : Byte
  z : Byte
  c : Byte

namespace SparseForm

variable (f : SparseForm) (s : State)

def width : Width := gWidth f.g

def fill : Word := if f.orDefault then machineZero f.width else normalizedOne f.width

/-- The order vector that the instruction stores. -/
def order (i : Nat) : Bool := orderFunction f.orDefault f.g (s.orderOf f.x i) (s.orderOf f.y i)

def result (i : Nat) : FpResult :=
  fpBinary f.width f.op ⟨bitAt f.g 5 && s.orderOf f.x i, bitAt f.g 6 && s.orderOf f.x i, bitAt f.g 7 && s.orderOf f.y i⟩
    (s.sparseOperand f.width (bitAt f.g 3) f.a (s.orderOf f.x) f.fill i)
    (s.sparseOperand f.width (bitAt f.g 4) f.b (s.orderOf f.y) f.fill i)

def stored : Nat := countBelow (f.order s) (s.len f.z)

/-- Sparse field `r` with its order vector lies apart from what is stored. -/
structure SourceApart (order r : Byte) (broadcast : Bool) : Prop where
  strings : s.stringsApart (s.addr order) (s.len order) (s.addr f.z) (s.len f.z)
  bits : s.bitsApart (s.addr order) (s.len order) f.width (s.addr f.c) (f.stored s)
  elements : broadcast = false →
    s.bitsApart (s.addr f.z) (s.len f.z) f.width (s.addr r) (countBelow (s.orderOf order) (s.len f.z)) ∧
    s.fieldsApart f.width (s.addr r) (countBelow (s.orderOf order) (s.len f.z)) f.width (s.addr f.c) (f.stored s)

/-- The fields lie apart and fit into memory. -/
structure Apart : Prop where
  ok : s.params.ok = true
  fitBits : s.len f.z ≤ 2 ^ s.params.cpmLog
  fitElems : f.stored s * f.width.bits ≤ 2 ^ s.params.cpmLog
  order : s.bitsApart (s.addr f.z) (s.len f.z) f.width (s.addr f.c) (f.stored s)
  sourceA : f.SourceApart s f.x f.a (bitAt f.g 3)
  sourceB : f.SourceApart s f.y f.b (bitAt f.g 4)

/-- The bytes stored behind `i` positions, `k` of them with a one bit. -/
def storing (i k : Nat) (b : Nat) : Prop := s.inBits (s.addr f.z) i b ∨ s.inField f.width (s.addr f.c) k b

/-- What the first `i` positions have stored and raised. -/
structure Done (flags : List Nat) (i : Nat) (k : SparseCount) (t : State) : Prop where
  within : s.Within t nothing (vectorFlags flags) (f.storing s i k.c)
  below : k.c ≤ i
  apart : f.Apart s → k = ⟨countBelow (s.orderOf f.x) i, countBelow (s.orderOf f.y) i, countBelow (f.order s) i⟩ ∧
    (s.FlagsRaised t i fun j => if f.order s j then some (f.result s j).flags else some {}) ∧
    t.BitsAre (s.addr f.z) i (f.order s) ∧
    t.Packed f.width (s.addr f.c) (f.order s) (fun j => (f.result s j).value) i

end SparseForm

section
variable {f : SparseForm} {t : State} {flags : List Nat} {i k : Nat}

theorem Ends.orderBit_sparse {r src : Byte} {broadcast : Bool} (hm : s.mode = .monitor) (hw : Memory.wf s.mem = true)
    (h : s.Within t nothing flags (f.storing s i k)) (hi : i ≤ s.len f.z) :
    Ends (Machine.orderBit (s.len r) (s.addr r) i) t fun v u => t.Looked u ∧
      (f.SourceApart s r src broadcast → k ≤ f.stored s → v = s.orderOf r i) := by
  unfold Machine.orderBit State.orderOf
  by_cases hlt : i < s.len r
  · rw [if_pos hlt]
    refine (Ends.readBit_looked (h.toFrame.mode.trans hm)).mono fun v u ⟨hl, hv⟩ => ⟨hl, fun ha hk => ?_⟩
    rw [decide_eq_true hlt, Bool.true_and, hv]
    refine h.toFrame.bitOfMemory hw ?_
    rintro (⟨j, hj, he⟩ | ⟨j, hj, h1, h2⟩)
    · exact ha.strings i hlt j (Nat.lt_of_lt_of_le hj hi) he
    · have := ha.bits i hlt j (Nat.lt_of_lt_of_le hj hk)
      omega
  · rw [if_neg hlt]
    refine Ends.pure ⟨State.Looked.refl, fun _ _ => ?_⟩
    rw [decide_eq_false hlt]
    rfl

theorem Ends.sparseElem {order r : Byte} {broadcast bit : Bool} {j : Nat} {fill : Word} (hm : s.mode = .monitor)
    (hw : Memory.wf s.mem = true) (h : s.Within t nothing flags (f.storing s i k)) (hi : i < s.len f.z) :
    Ends (Machine.sparseElem f.width bit broadcast (s.regW f.width r) (s.addr r) j fill) t fun v u => t.Looked u ∧
      (f.SourceApart s order r broadcast → k ≤ f.stored s → bit = s.orderOf order i → j = countBelow (s.orderOf order) i →
        v = s.sparseOperand f.width broadcast r (s.orderOf order) fill i) := by
  unfold Machine.sparseElem State.sparseOperand
  cases bit with
  | false => exact Ends.pure ⟨State.Looked.refl, fun _ _ hb _ => by rw [← hb]; rfl⟩
  | true =>
    cases broadcast with
    | true => exact Ends.pure ⟨State.Looked.refl, fun _ _ hb _ => by rw [← hb]; rfl⟩
    | false =>
      refine ⟨_, _, readElem_monitor (h.toFrame.mode.trans hm) _ _, State.Looked.refl.breakpoint _, fun ha hk hb hj => ?_⟩
      rw [← hb, if_pos rfl, if_neg Bool.false_ne_true, ← hj]
      have hlt : j < countBelow (s.orderOf order) (s.len f.z) := by
        rw [hj]
        exact countBelow_lt hb.symm hi
      obtain ⟨hz, hc⟩ := ha.elements rfl
      refine h.toFrame.elemOfMemory hw fun b h1 h2 => ?_
      rintro (⟨l, hl, he⟩ | hin)
      · have := hz l (Nat.lt_trans hl hi) j hlt
        omega
      · exact State.not_inField (fun l hl => State.elemsApart_symm (hc j hlt l (Nat.lt_of_lt_of_le hl hk))) h1 h2 hin

end

section
variable {f : SparseForm} {flags : List Nat}

/-- One position of a sparse vector instruction. -/
def SparseForm.round (f : SparseForm) (s : State) (i : Nat) (k : SparseCount) : M SparseCount := do
  let xb ← orderBit (s.len f.x) (s.addr f.x) i
  let yb ← orderBit (s.len f.y) (s.addr f.y) i
  let ea ← sparseElem f.width xb (bitAt f.g 3) (s.regW f.width f.a) (s.addr f.a) k.a f.fill
  let eb ← sparseElem f.width yb (bitAt f.g 4) (s.regW f.width f.b) (s.addr f.b) k.b f.fill
  let zb := orderFunction f.orDefault f.g xb yb
  writeBit (s.addr f.z + BitVec.ofNat 48 i) zb
  if zb then
    storeElem f.width (itemAddr f.width (s.addr f.c) k.c)
      (fpBinary f.width f.op ⟨(gSign f.g).g5 && xb, (gSign f.g).g6 && xb, (gSign f.g).g7 && yb⟩ ea eb)
  return ⟨k.a + xb.toNat, k.b + yb.toNat, k.c + zb.toNat⟩

/-- The order bit of a position is stored. -/
theorem SparseForm.storeOrder {i k : Nat} {t : State} {v : Bool} (hw : Memory.wf s.mem = true)
    (h : s.Within t nothing (vectorFlags flags) (f.storing s i k)) (hi : i < s.len f.z) :
    s.Within (t.withBit (s.addr f.z + BitVec.ofNat 48 i) v) nothing (vectorFlags flags) (f.storing s (i + 1) k) ∧
    (f.Apart s → k ≤ f.stored s → v = f.order s i → t.BitsAre (s.addr f.z) i (f.order s) →
      (t.withBit (s.addr f.z + BitVec.ofNat 48 i) v).BitsAre (s.addr f.z) (i + 1) (f.order s)) ∧
    (f.Apart s → k ≤ f.stored s → k = countBelow (f.order s) i →
      t.Packed f.width (s.addr f.c) (f.order s) (fun j => (f.result s j).value) i →
      (t.withBit (s.addr f.z + BitVec.ofNat 48 i) v).Packed f.width (s.addr f.c) (f.order s) (fun j => (f.result s j).value) i) := by
  have hwt := h.toFrame.wf hw
  have hpar := h.toFrame.params
  refine ⟨(h.mono fun b hb => hb.imp (fun ⟨j, hj, hb⟩ => ⟨j, Nat.lt_succ_of_lt hj, hb⟩) id).withBit v List.mem_cons_self
    (.inl ⟨i, Nat.lt_succ_self i, rfl⟩), fun ha _ hv hb => ?_, fun ha hk hkc hp => hp.withBit hwt fun j hj => ?_⟩
  · rw [hv]
    exact hb.store hwt (by rw [hpar]; exact ha.ok) (by rw [hpar]; exact ha.fitBits) hi
  · rw [h.toFrame.elemByte, h.toFrame.bitByte]
    exact ha.order i hi j (Nat.lt_of_lt_of_le hj (by rw [← hkc]; exact hk))

theorem SparseForm.round_results (hm : s.mode = .monitor) (hw : Memory.wf s.mem = true)
    (hop : ∀ g u v, (fpBinary f.width f.op g u v).flags.Among flags) {i : Nat} {k : SparseCount} {t : State}
    (hi : i < s.len f.z) (h : f.Done s flags i k t) : Ends (f.round s i k) t fun k' u => f.Done s flags (i + 1) k' u := by
  have h47 : 47 ∈ vectorFlags flags := List.mem_cons_self
  have hkc (ha : f.Apart s) : k.c ≤ f.stored s := by
    rw [(h.apart ha).1]
    exact countBelow_mono _ (Nat.le_of_lt hi)
  have hle := Nat.le_of_lt hi
  refine Ends.bind ((Ends.orderBit_sparse (r := f.x) (src := f.a) (broadcast := bitAt f.g 3) hm hw h.within hle).mono fun xb t1 ⟨hl1, hx⟩ => ?_)
  have hw1 := h.within.looked hl1 h47
  refine Ends.bind ((Ends.orderBit_sparse (r := f.y) (src := f.b) (broadcast := bitAt f.g 4) hm hw hw1 hle).mono fun yb t2 ⟨hl2, hy⟩ => ?_)
  have hw2 := hw1.looked hl2 h47
  refine Ends.bind ((Ends.sparseElem (order := f.x) hm hw hw2 hi).mono fun ea t3 ⟨hl3, hea⟩ => ?_)
  have hw3 := hw2.looked hl3 h47
  refine Ends.bind ((Ends.sparseElem (order := f.y) hm hw hw3 hi).mono fun eb t4 ⟨hl4, heb⟩ => ?_)
  have hw4 := hw3.looked hl4 h47
  have hl : t.Looked t4 := ((hl1.trans hl2).trans hl3).trans hl4
  generalize hr : fpBinary f.width f.op ⟨(gSign f.g).g5 && xb, (gSign f.g).g6 && xb, (gSign f.g).g7 && yb⟩ ea eb = r
  generalize hz : orderFunction f.orDefault f.g xb yb = zb
  have hxy (ha : f.Apart s) : xb = s.orderOf f.x i ∧ yb = s.orderOf f.y i := ⟨hx ha.sourceA (hkc ha), hy ha.sourceB (hkc ha)⟩
  have hzb (ha : f.Apart s) : zb = f.order s i := by
    rw [← hz, (hxy ha).1, (hxy ha).2]
    rfl
  have hres (ha : f.Apart s) : r = f.result s i := by
    obtain ⟨hk, -⟩ := h.apart ha
    rw [← hr, hea ha.sourceA (hkc ha) (hxy ha).1 (by rw [hk]), heb ha.sourceB (hkc ha) (hxy ha).2 (by rw [hk]), (hxy ha).1, (hxy ha).2]
    rfl
  have hcount (ha : f.Apart s) : (⟨k.a + xb.toNat, k.b + yb.toNat, k.c + zb.toNat⟩ : SparseCount) =
      ⟨countBelow (s.orderOf f.x) (i + 1), countBelow (s.orderOf f.y) (i + 1), countBelow (f.order s) (i + 1)⟩ := by
    obtain ⟨hk, -⟩ := h.apart ha
    rw [hk, countBelow_succ, countBelow_succ, countBelow_succ, ← hzb ha, ← (hxy ha).1, ← (hxy ha).2]
  obtain ⟨hw5, hbits, hpacked⟩ := SparseForm.storeOrder (v := zb) hw hw4 hi
  refine Ends.bind ⟨_, _, writeBit_withBit (hw4.toFrame.mode.trans hm) _ _, ?_⟩
  have hbits' (ha : f.Apart s) : (t4.withBit (s.addr f.z + BitVec.ofNat 48 i) zb).BitsAre (s.addr f.z) (i + 1) (f.order s) :=
    hbits ha (hkc ha) (hzb ha) fun j hj => (hl.bitOfMemory ..).trans ((h.apart ha).2.2.1 j hj)
  have hpacked' (ha : f.Apart s) : (t4.withBit (s.addr f.z + BitVec.ofNat 48 i) zb).Packed f.width (s.addr f.c) (f.order s)
      (fun j => (f.result s j).value) i :=
    hpacked ha (hkc ha) (by rw [(h.apart ha).1]) ((h.apart ha).2.2.2.congr fun j _ => hl.elemOfMemory ..)
  have hraised (ha : f.Apart s) : s.FlagsRaised (t4.withBit (s.addr f.z + BitVec.ofNat 48 i) zb) i
      fun j => if f.order s j then some (f.result s j).flags else some {} :=
    ((h.apart ha).2.1.looked hl).congr fun j hj h47 hd => State.bitAt_withBit_dfr _ _ _ hj h47 hd
  generalize t4.withBit (s.addr f.z + BitVec.ofNat 48 i) zb = t5 at hw5 hbits' hpacked' hraised
  cases hzt : zb with
  | true =>
    rw [hzt] at hzb hcount
    rw [if_pos rfl]
    refine Ends.bind (Ends.bind ⟨_, _, writeElem_monitor (hw5.toFrame.mode.trans hm) _ _ _, Ends.update (Ends.pure ⟨?_, ?_, fun ha => ⟨hcount ha, ?_, ?_, ?_⟩⟩)⟩)
    · refine ((hw5.mono fun b hb => hb.imp id fun ⟨j, hj, hb⟩ => ⟨j, Nat.lt_succ_of_lt hj, hb⟩).withElem _ h47 fun b h1 h2 =>
        .inr ⟨k.c, Nat.lt_succ_self k.c, h1, h2⟩).raiseFlags (FpFlags.Among.vector ?_)
      rw [← hr]
      exact hop ..
    · exact Nat.succ_le_succ h.below
    · refine ((hraised ha).congr fun j hj h47 hd => ?_).raise fun e he => ?_
      · rw [State.withElem_dfr]
        exact State.bitAt_breakpoint _ _ _ hj h47 hd
      · rw [← hzb ha, if_pos rfl] at he
        rw [hres ha]
        exact (Option.some.inj he).symm
    · refine State.BitsAre.withElem (hbits' ha) (hw5.toFrame.wf hw) fun j hj => ?_
      rw [hw5.toFrame.elemByte, hw5.toFrame.bitByte]
      refine ha.order j (Nat.lt_of_lt_of_le hj hi) k.c ?_
      rw [(h.apart ha).1]
      exact countBelow_lt (hzb ha).symm hi
    · have hpar := hw5.toFrame.params
      rw [(h.apart ha).1, hres ha]
      exact State.Packed.store (hpacked' ha) (hw5.toFrame.wf hw) (by rw [hpar]; exact ha.ok) (by rw [hpar]; exact ha.fitElems)
        (countBelow_lt (hzb ha).symm hi) rfl
  | false =>
    rw [hzt] at hzb hcount
    rw [if_neg Bool.false_ne_true]
    refine Ends.pure ⟨hw5, Nat.le_succ_of_le h.below, fun ha => ⟨hcount ha, (hraised ha).skip fun e he => ?_, hbits' ha,
      (hpacked' ha).skip (hzb ha).symm fun _ _ => rfl⟩⟩
    rw [← hzb ha, if_neg Bool.false_ne_true] at he
    exact (Option.some.inj he).symm

theorem SparseForm.completes {j : Instr} (hm : s.mode = .monitor) (hw : Memory.wf s.mem = true)
    (hop : ∀ g u v, (fpBinary f.width f.op g u v).flags.Among flags)
    (he : exec j s = sparse f.orDefault f.op f.g f.x f.a f.y f.b f.z f.c s) :
    (s.len f.z ≠ 0 → ∃ n, n ≤ s.len f.z ∧ Completes j s s.behind64 (· = f.c) (vectorFlags flags) (f.storing s (s.len f.z) n) fun u =>
      u.reg f.c = BitVec.ofNat 16 n ++ s.addr f.c ∧
      (f.Apart s → n = f.stored s ∧
        (s.FlagsRaised u (s.len f.z) fun i => if f.order s i then some (f.result s i).flags else some {}) ∧
        ∀ i, i < s.len f.z → u.bitOfMemory (s.addr f.z + BitVec.ofNat 48 i) = f.order s i ∧
          (f.order s i = true → u.elemOfMemory f.width (itemAddr f.width (s.addr f.c) (countBelow (f.order s) i)) =
            narrow f.width (f.result s i).value))) ∧
    (s.len f.z = 0 → exec j s = .next { s with pc := s.behind64 }) := by
  have he' : exec j s = run64 (if s.len f.z = 0 then pure () else elements (s.len f.z) (f.round s) {} >>= fun n =>
      update (·.setReg f.c (joinLen (BitVec.ofNat 16 n.c) (s.addr f.c)))) s := he
  refine ⟨fun hn => ?_, fun h0 => by rw [he', if_pos h0]; rfl⟩
  rw [if_neg hn] at he'
  obtain ⟨k, t, ht, hdone⟩ := Ends.elements (s := s) (x := ({} : SparseCount)) (fun i k t => f.Done s flags i k t) (s.len f.z)
    ⟨State.Within.refl, Nat.le_refl 0, fun _ => ⟨rfl, State.FlagsRaised.zero s _, fun i hi => absurd hi (Nat.not_lt_zero i),
      State.Packed.zero⟩⟩ fun i k t hi h => SparseForm.round_results hm hw hop hi h
  refine ⟨k.c, hdone.below, ((hdone.within.moreRegs (changed' := (· = f.c)) nofun).setReg
    (joinLen (BitVec.ofNat 16 k.c) (s.addr f.c)) rfl).completes64 hw (he'.trans (run64_of_ok ((bind_ok ht).trans rfl)))
    ⟨(State.next64_reg ..).trans (State.setReg_reg_self ..), fun ha => ?_⟩⟩
  obtain ⟨hk, hraised, hbits, hpacked⟩ := hdone.apart ha
  exact ⟨congrArg SparseCount.c hk, (hraised.of_bits fun _ _ => rfl).next64, fun i hi => ⟨hbits i hi, hpacked i hi⟩⟩

end

/-- What a row of the sparse vector instructions does. -/
theorem sparse_result {i : Instr} {g x a y b z c : Byte} {orDefault : Bool} {op : FpOp} {flags : List Nat} (hm : s.mode = .monitor)
    (hw : Memory.wf s.mem = true) (hop : ∀ w g u v, (fpBinary w op g u v).flags.Among flags)
    (he : exec i s = sparse orDefault op g x a y b z c s) :
    let f : SparseForm := ⟨orDefault, op, g, x, a, y, b, z, c⟩
    let w := f.width
    let nz := s.len z
    let stored := f.stored s
    (nz ≠ 0 → ∃ n, n ≤ nz ∧
      Completes i s s.behind64 (· = c) (vectorFlags flags) (f.storing s nz n) fun u =>
        u.reg c = BitVec.ofNat 16 n ++ s.addr c ∧
        (s.params.ok = true → nz ≤ 2 ^ s.params.cpmLog → stored * w.bits ≤ 2 ^ s.params.cpmLog →
          s.stringsApart (s.addr x) (s.len x) (s.addr z) nz → s.stringsApart (s.addr y) (s.len y) (s.addr z) nz →
          s.bitsApart (s.addr x) (s.len x) w (s.addr c) stored →
          s.bitsApart (s.addr y) (s.len y) w (s.addr c) stored → s.bitsApart (s.addr z) nz w (s.addr c) stored →
          (bitAt g 3 = false → s.bitsApart (s.addr z) nz w (s.addr a) (countBelow (s.orderOf x) nz) ∧
            s.fieldsApart w (s.addr a) (countBelow (s.orderOf x) nz) w (s.addr c) stored) →
          (bitAt g 4 = false → s.bitsApart (s.addr z) nz w (s.addr b) (countBelow (s.orderOf y) nz) ∧
            s.fieldsApart w (s.addr b) (countBelow (s.orderOf y) nz) w (s.addr c) stored) →
          n = stored ∧ (s.FlagsRaised u nz fun i => if f.order s i then some (f.result s i).flags else some {}) ∧
          ∀ i, i < nz → u.bitOfMemory (s.addr z + BitVec.ofNat 48 i) = f.order s i ∧
            (f.order s i = true → u.elemOfMemory w (itemAddr w (s.addr c) (countBelow (f.order s) i)) =
              narrow w (f.result s i).value))) ∧
    (nz = 0 → exec i s = .next { s with pc := s.behind64 }) := by
  intro f w nz stored
  obtain ⟨h1, h2⟩ := SparseForm.completes (f := f) hm hw (fun g u v => hop _ g u v) he
  refine ⟨fun hn => (h1 hn).imp fun n ⟨hle, hc⟩ => ⟨hle, hc.mono fun u ⟨hreg, hap⟩ => ⟨hreg,
    fun hok hfz hfe hxz hyz hxc hyc hzc ha hb => hap ⟨hok, hfz, hfe, hzc, ⟨hxz, hxc, ha⟩, ⟨hyz, hyc, hb⟩⟩⟩⟩, h2⟩

end Sys2Proof.Machine

namespace Sys2Proof
open Machine

/-- Settles O47: every row is the one loop of R472, whose positions store an order bit and, where it is one, an element. -/
theorem sparseVectors : Obligations.SparseVectors := by
  intro s g x a y b z c hm hw
  have hplain {op : FpOp} (h : op.divides = false) (w : Width) (g : Sign) (u v : Word) :
      (fpBinary w op g u v).flags.Among [42, 43, 46] := among_fpBinary h g u v
  simp only [List.forall_mem_cons]
  exact ⟨sparse_result (op := .add .upper) hm hw (hplain rfl) rfl, sparse_result (op := .add .lower) hm hw (hplain rfl) rfl,
    sparse_result (op := .add .norm) hm hw (hplain rfl) rfl, sparse_result (op := .sub .upper) hm hw (hplain rfl) rfl,
    sparse_result (op := .sub .lower) hm hw (hplain rfl) rfl, sparse_result (op := .sub .norm) hm hw (hplain rfl) rfl,
    sparse_result (op := .mul .upper) hm hw (hplain rfl) rfl, sparse_result (op := .mul .lower) hm hw (hplain rfl) rfl,
    sparse_result (op := .mul .signif) hm hw (hplain rfl) rfl,
    sparse_result (op := .div .upper) hm hw (fun w g u v => among_fpBinary_div w .upper g u v) rfl,
    sparse_result (op := .div .signif) hm hw (fun w g u v => among_fpBinary_div w .signif g u v) rfl, fun _ h => by cases h⟩

end Sys2Proof
end

