-- ==== Sys2Proof/Proofs/Swaps.lean ====
section
/-! PROOFS. Swap registers with memory (spec/45_scalar_fp64.md R389). -/

-- One declaration at a time, as in the tests: many at once need a thread each.
set_option Elab.async false

namespace Sys2Proof.Machine

variable {s : State}

theorem toNat_register {n : Nat} (h : n < 256) : (BitVec.ofNat 8 n).toNat = n := Nat.mod_eq_of_lt h

/-- One transfer of #7D. -/
def Swap.transfer (w : Swap) (s : State) (k : Nat) : M Unit :=
  if k < w.nStore then
    writeWord (w.aStore + scaled 6 (BitVec.ofNat 48 k)) (s.reg (BitVec.ofNat 8 (w.first + k)))
  else do
    let v ← readWord (w.aLoad + scaled 6 (BitVec.ofNat 48 (k - w.nStore)))
    update (·.setReg (BitVec.ofNat 8 (w.first + (k - w.nStore))) v)

/-- What the first `k` stores and the first `j` loads have done. -/
structure Swap.Done (w : Swap) (s : State) (k j : Nat) (t : State) : Prop where
  within : s.Within t (fun n => w.first ≤ n.toNat ∧ n.toNat < w.first + w.nLoad) [47] (s.inField .w64 w.aStore k)
  stored : ∀ i, i < k → t.elemOfMemory .w64 (itemAddr .w64 w.aStore i) = s.reg (BitVec.ofNat 8 (w.first + i))
  loaded : ∀ i, i < j → t.reg (BitVec.ofNat 8 (w.first + i)) = t.elemOfMemory .w64 (itemAddr .w64 w.aLoad i)

namespace Swap.Done

variable {w : Swap} {t : State} {k j : Nat}

theorem store (h : w.Done s k 0 t) (hw : Memory.wf s.mem = true) (hok : s.params.ok = true) (hfit : w.nStore * 64 ≤ 2 ^ s.params.cpmLog)
    (hk : k < w.nStore) : w.Done s (k + 1) 0 (t.withElem .w64 (itemAddr .w64 w.aStore k) (s.reg (BitVec.ofNat 8 (w.first + k)))) := by
  have hwt := h.within.toFrame.wf hw
  refine ⟨h.within.storeItem _ List.mem_cons_self, fun i hi => ?_, fun i hi => absurd hi (Nat.not_lt_zero i)⟩
  rcases Nat.lt_succ_iff_lt_or_eq.mp hi with hi | rfl
  · refine (State.elemOfMemory_withElem_ne t .w64 _ _ hwt ?_).trans (h.stored i hi)
    unfold State.elemsApart
    rw [h.within.toFrame.elemByte, h.within.toFrame.elemByte]
    exact State.items_apart (w := .w64) hok hfit _ hk (Nat.lt_trans hi hk) (Nat.ne_of_gt hi)
  · exact State.elemOfMemory_withElem_self t .w64 _ _ hwt

theorem load (h : w.Done s k j t) (hj : j < w.nLoad) (hr : w.first + w.nLoad ≤ 256) (a : Addr) :
    w.Done s k (j + 1) ((t.breakpoint false a).setReg (BitVec.ofNat 8 (w.first + j)) (t.elemOfMemory .w64 (itemAddr .w64 w.aLoad j))) := by
  have hl : t.Looked (t.breakpoint false a) := State.Looked.refl.breakpoint a
  have hnum {i : Nat} (hi : i < w.nLoad) : (BitVec.ofNat 8 (w.first + i)).toNat = w.first + i := toNat_register (by omega)
  refine ⟨(h.within.looked hl List.mem_cons_self).setReg _ ⟨?_, ?_⟩, fun i hi => (hl.elemOfMemory ..).trans (h.stored i hi), fun i hi => ?_⟩
  · rw [hnum hj]
    exact Nat.le_add_right ..
  · rw [hnum hj]
    exact Nat.add_lt_add_left hj _
  · refine Eq.trans ?_ (hl.elemOfMemory .w64 (itemAddr .w64 w.aLoad i)).symm
    rcases Nat.lt_succ_iff_lt_or_eq.mp hi with hi | rfl
    · rw [State.setReg_reg_ne, State.reg, hl.regs]
      · exact h.loaded i hi
      · intro he
        have := congrArg BitVec.toNat he
        rw [hnum hj, hnum (Nat.lt_trans hi hj)] at this
        omega
    · exact State.setReg_reg_self ..

end Swap.Done

theorem Swap.transfers_results {w : Swap} (hm : s.mode = .monitor) (hw : Memory.wf s.mem = true) (hok : s.params.ok = true)
    (h1 : w.first + w.nStore ≤ 256) (h2 : w.first + w.nLoad ≤ 256) :
    Ends (elements (w.nStore + w.nLoad) (fun k _ => w.transfer s k) ()) s fun _ t => w.Done s w.nStore w.nLoad t := by
  have hfit : w.nStore * 64 ≤ 2 ^ s.params.cpmLog :=
    calc w.nStore * 64 ≤ 2 ^ 15 := by omega
      _ ≤ 2 ^ s.params.cpmLog := Nat.pow_le_pow_right (by decide) (Params.cpmLog_range hok).1
  refine (Ends.elements (fun k _ t => w.Done s (min k w.nStore) (k - w.nStore) t) (w.nStore + w.nLoad) ?_ fun k _ t hk h => ?_).mono
    fun _ t h => by rwa [Nat.min_eq_right (Nat.le_add_right ..), Nat.add_sub_cancel_left] at h
  · rw [Nat.zero_min, Nat.zero_sub]
    exact ⟨State.Within.refl, fun i hi => absurd hi (Nat.not_lt_zero i), fun i hi => absurd hi (Nat.not_lt_zero i)⟩
  · have hmt := h.within.toFrame.mode.trans hm
    unfold Swap.transfer
    by_cases hlt : k < w.nStore
    · rw [if_pos hlt]
      rw [Nat.min_eq_left (Nat.le_of_lt hlt), Nat.sub_eq_zero_of_le (Nat.le_of_lt hlt)] at h
      refine ⟨_, _, writeElem_monitor (w := .w64) hmt _ _, ?_⟩
      rw [Nat.min_eq_left hlt, Nat.sub_eq_zero_of_le hlt]
      exact h.store hw hok hfit hlt
    · have hge := Nat.le_of_not_lt hlt
      rw [if_neg hlt]
      rw [Nat.min_eq_right hge] at h
      refine Ends.bind ⟨_, _, readElem_monitor (w := .w64) hmt _, Ends.update ?_⟩
      rw [Nat.min_eq_right (Nat.le_succ_of_le hge), Nat.succ_sub hge]
      exact h.load (Nat.sub_lt_left_of_lt_add hge hk) h2 _

end Sys2Proof.Machine

namespace Sys2Proof
open Machine

/-- Settles O36. -/
theorem registerSwap : Obligations.RegisterSwap := by
  intro s r sd t w hm hw hok hill h1 h2 hov
  obtain ⟨_, u, hu, hdone⟩ := Swap.transfers_results (s := s) (w := w) hm hw hok h1 h2
  have he : exec (.rgap r sd t) s = run32 (if w.illegal then stop .typeOne
      else if 256 < w.first + w.nStore ∨ 256 < w.first + w.nLoad then refuse .swapRange
      else if w.overlaps then refuse .swapOverlap
      else elements (w.nStore + w.nLoad) (fun k _ => w.transfer s k) ()) s := rfl
  rw [if_neg (by rw [hill]; exact Bool.false_ne_true), if_neg (by omega), if_neg (by rw [hov]; exact Bool.false_ne_true)] at he
  refine hdone.within.completes32 hw (he.trans (run32_of_ok hu)) ⟨hdone.stored, fun k hk => ?_⟩
  rw [State.next32_reg]
  exact hdone.loaded k hk

end Sys2Proof
end

