-- ==== Sys2Proof/Proofs/Bcd.lean ====
section
/-! PROOFS. BCD conversions (spec/42_bit_byte_sm.md R230, R231, R247). -/

-- One declaration at a time, as in the tests: many at once need a thread each.
set_option Elab.async false

namespace Sys2Proof.Machine

variable {s : State}

/-! ### Digits -/

theorem bcdDigits_digit : ∀ (n m j : Nat), j < n → bcdDigits n m / 16 ^ j % 16 = m / 10 ^ j % 10
  | n + 1, m, 0, _ => by
    rw [bcdDigits]
    simp only [Nat.pow_zero, Nat.div_one]
    omega
  | n + 1, m, j + 1, h => by
    have ih := bcdDigits_digit n (m / 10) j (Nat.lt_of_succ_lt_succ h)
    have hq : (m % 10 + 16 * bcdDigits n (m / 10)) / 16 = bcdDigits n (m / 10) := by omega
    rw [bcdDigits, Nat.pow_succ', Nat.pow_succ', ← Nat.div_div_eq_div_mul, ← Nat.div_div_eq_div_mul, hq, ih]

theorem bcdDigits_lt : ∀ n m : Nat, bcdDigits n m < 16 ^ n
  | 0, _ => Nat.one_pos
  | n + 1, m => by
    have ih := bcdDigits_lt n (m / 10)
    rw [bcdDigits, Nat.pow_succ]
    omega

/-- A number of 15 digits and a sign code. -/
def bcdOf (m : Nat) (sign : BitVec 4) : Word := BitVec.ofNat 60 (bcdDigits 15 m) ++ sign

theorem toNat_bcdOf (m : Nat) (sign : BitVec 4) : (bcdOf m sign).toNat = bcdDigits 15 m * 16 + sign.toNat := by
  have h : bcdDigits 15 m < 2 ^ 60 := Nat.lt_of_lt_of_le (bcdDigits_lt 15 m) (by decide)
  rw [bcdOf, BitVec.toNat_append, BitVec.toNat_ofNat, Nat.mod_eq_of_lt h, ← Nat.shiftLeft_add_eq_or_of_lt sign.isLt,
    Nat.shiftLeft_eq]

theorem bcdDigit_eq (b : Word) (k : Nat) : bcdDigit b k = b.toNat / 2 ^ (64 - 4 * k - 4) % 16 := by
  rw [bcdDigit, field, BitVec.extractLsb'_toNat, Nat.shiftRight_eq_div_pow]

theorem bcdDigit_bcdOf (m : Nat) (sign : BitVec 4) {k : Nat} (h : k < 15) : bcdDigit (bcdOf m sign) k = m / 10 ^ (14 - k) % 10 := by
  have hp : 2 ^ (64 - 4 * k - 4) = 16 * 16 ^ (14 - k) := by
    rw [← Nat.pow_succ', show (16 : Nat) = 2 ^ 4 from rfl, ← Nat.pow_mul]
    exact congrArg (2 ^ ·) (by omega)
  have hq : (bcdDigits 15 m * 16 + sign.toNat) / 16 = bcdDigits 15 m := by
    have := sign.isLt
    omega
  rw [bcdDigit_eq, toNat_bcdOf, hp, ← Nat.div_div_eq_div_mul, hq, bcdDigits_digit 15 m (14 - k) (by omega)]

theorem bcdDigit_bcdOf_sign (m : Nat) (sign : BitVec 4) : bcdDigit (bcdOf m sign) 15 = sign.toNat := by
  have := sign.isLt
  rw [bcdDigit_eq, toNat_bcdOf, show 2 ^ (64 - 4 * 15 - 4) = 1 from rfl, Nat.div_one]
  omega

theorem bcdValue_bcdOf (m : Nat) (sign : BitVec 4) : ∀ n, n ≤ 15 → bcdValue (bcdOf m sign) n = m / 10 ^ (15 - n) % 10 ^ n
  | 0, _ => (Nat.mod_one _).symm
  | n + 1, h => by
    have hp : (10 : Nat) ^ (15 - n) = 10 ^ (14 - n) * 10 := by
      rw [← Nat.pow_succ]
      exact congrArg (10 ^ ·) (by omega)
    have he : 15 - (n + 1) = 14 - n := by omega
    rw [bcdValue, bcdValue_bcdOf m sign n (Nat.le_of_succ_le h), bcdDigit_bcdOf m sign h, hp, ← Nat.div_div_eq_div_mul, he,
      Nat.pow_succ', Nat.mod_mul, Nat.add_comm]

theorem bcdValid_bcdOf (m : Nat) {sign : BitVec 4} (h : 10 ≤ sign.toNat) : bcdValid (bcdOf m sign) = true := by
  unfold bcdValid
  rw [Bool.and_eq_true, List.all_eq_true, bcdDigit_bcdOf_sign]
  refine ⟨fun k hk => decide_eq_true ?_, decide_eq_true h⟩
  rw [bcdDigit_bcdOf m sign (List.mem_range.mp hk)]
  exact Nat.le_of_lt_succ (Nat.mod_lt _ (by decide))

theorem bcdInt_bcdOf {m : Nat} (hm : m < 10 ^ 15) (sign : BitVec 4) :
    bcdInt (bcdOf m sign) = if sign.toNat = 11 ∨ sign.toNat = 13 then -(m : Int) else m := by
  have hv : bcdValue (bcdOf m sign) 15 = m := by
    rw [bcdValue_bcdOf m sign 15 (Nat.le_refl 15), Nat.sub_self, Nat.pow_zero, Nat.div_one, Nat.mod_eq_of_lt hm]
  rw [bcdInt, bcdDigit_bcdOf_sign, hv]

theorem signCode_toNat (s : State) (n : Bool) : (s.signCode n).toNat = if s.mode = .job && s.dom.ebcdic then
    (if n then 13 else 12) else (if n then 11 else 10) := by
  unfold State.signCode
  cases n <;> split <;> rfl

/-! ### The conversions -/

theorem btod_value (v : Int) (hv : v.natAbs < 10 ^ 15) (s : State) :
    bcdValid (bcdOf v.natAbs (s.signCode (decide (v < 0)))) = true ∧ bcdInt (bcdOf v.natAbs (s.signCode (decide (v < 0)))) = v := by
  refine ⟨bcdValid_bcdOf _ ?_, ?_⟩
  · rw [signCode_toNat]
    split <;> split <;> decide
  · rw [bcdInt_bcdOf hv, signCode_toNat]
    by_cases h : v < 0
    · rw [decide_eq_true h, if_pos (by split <;> simp)]
      omega
    · rw [decide_eq_false h, if_neg (by split <;> simp)]
      omega

/-- Flags 39 and 58 raised as a mask says, and a free value in register T. -/
theorem completes_of_convertFlags {i : Instr} {t : Byte} {d : Word} {k : Nat}
    (he : exec i s = State.putFree (({ s with free := k } : State).setDfr d) t)
    (hd : ∀ k, k < 64 → k ∉ [39, 58] → bitAt d k = bitAt s.dfr k) {result : State → Prop}
    (hr : ∀ u : State, u.dfr = deriveDfr d → result u) : Completes i s s.behind32 (· = t) [39, 58] nothing result := by
  have hframe : s.Frame (({ s with free := k } : State).setDfr d) (· = t) [39, 58] nothing :=
    (State.Frame.refl.draw k).setDfr (List.cons_ne_nil _ _) fun j hj hf _ => hd j hj hf
  exact ((hframe.draw (k + 1)).setReg _ rfl).next32.completes_nothing he (hr _ (State.next32_dfr ..)) rfl

theorem bitAt_convertMask {k : Nat} (hk : k < 64) (h : k ∉ [39, 58]) : bitAt (oneBit 64 39 ||| oneBit 64 58 : Word) k = false := by
  simp only [List.mem_cons, List.not_mem_nil, or_false, not_or] at h
  rw [bitAt_or, bitAt_oneBit 39 k (by decide) hk, bitAt_oneBit 58 k (by decide) hk, decide_eq_false h.1, decide_eq_false h.2]
  rfl

end Sys2Proof.Machine

namespace Sys2Proof
open Machine

/-- Settles O30. -/
theorem bcdConversions : Obligations.BcdConversions := by
  intro s r t
  have hv : (s.addr r).toInt.natAbs < 10 ^ 15 := by
    have h1 := BitVec.toInt_lt (x := s.addr r)
    have h2 := BitVec.le_toInt (x := s.addr r)
    omega
  have hdtob : exec (.dtob r t) s = if !bcdValid (s.reg r) then
      (({ s with free := s.free + 1 } : State).setDfr (s.dfr ||| (Config.freeWord s.free &&& (oneBit 64 39 ||| oneBit 64 58)))).putFree t
    else if (2 ^ 47 : Int) ≤ bcdInt (s.reg r) ∨ bcdInt (s.reg r) < -(2 ^ 47 : Int) then
      (s.setDfr (s.dfr ||| oneBit 64 39 ||| oneBit 64 58)).putFree t
    else s.put t (joinLen 0 (BitVec.ofInt 48 (bcdInt (s.reg r)))) := rfl
  refine ⟨?_, fun hval hlo hhi => ?_, fun hval hout => ?_, fun hval => ?_⟩
  · have hb := btod_value (s.addr r).toInt hv s
    refine Completes.mono (registerResult_of_put (i := .btod r t) (d := t)
      (v := bcdOf (s.addr r).toInt.natAbs (s.signCode (decide ((s.addr r).toInt < 0)))) rfl) fun u hu => ?_
    rw [hu]
    exact ⟨hb.1, hb.2, BitVec.extractLsb'_append_eq_right⟩
  · rw [hval, if_neg (show ¬ (!true) = true from Bool.false_ne_true), if_neg (by omega)] at hdtob
    exact registerResult_of_put hdtob
  · rw [hval, if_neg (show ¬ (!true) = true from Bool.false_ne_true), if_pos (by omega)] at hdtob
    refine completes_of_convertFlags (k := s.free) hdtob (fun k hk h => ?_) fun u hu => ?_
    · rw [BitVec.or_assoc, bitAt_or, bitAt_convertMask hk h, Bool.or_false]
    · rw [hu, bitAt_deriveDfr_stored _ (by decide) (by decide), bitAt_deriveDfr_stored _ (by decide) (by decide), BitVec.or_assoc]
      exact ⟨(bitAt_or ..).trans (Bool.or_true _), (bitAt_or ..).trans (Bool.or_true _)⟩
  · rw [hval, if_pos (show (!false) = true from rfl)] at hdtob
    refine completes_of_convertFlags hdtob (fun k hk h => ?_) fun _ _ => trivial
    rw [bitAt_or, bitAt_and, bitAt_convertMask hk h, Bool.and_false, Bool.or_false]

end Sys2Proof
end

