-- ==== Sys2Proof/Proofs/Links.lean ====
section
/-! PROOFS. Select Link and the pair of vector instructions it links (spec/44_scalar_fp32.md R330, spec/46_vector.md R419). -/

-- One declaration at a time, as in the tests: many at once need a thread each.
set_option Elab.async false

namespace Sys2Proof.Machine

variable {s : State}

/-! ### What an instruction of a pair computes -/

/-- Operation `f` with extension `e` is what a linkable instruction computes of two elements. -/
structure LinkOp (l : Linkable) (e : Word) (f : Word → Word → Option FpResult) : Prop where
  ext : l.ext = e
  one : l.two = false → ∀ u v v', f u v = f u v'
  ends : ∀ u v t, Ends (l.op u v) t fun r t' => t.Looked t' ∧ r.flags.Among endFlags ∧ (∀ x, f u v = some x → r = x) ∧
    (f u v = none → r.flags = {})

theorem linkOp_pure {l : Linkable} {e : Word} {op : Word → Word → FpResult} (hop : l.op = fun u v => pure (op u v)) (hext : l.ext = e)
    (htwo : l.two = false → ∀ u v v', op u v = op u v') (ha : ∀ u v, (op u v).flags.Among endFlags) :
    LinkOp l e fun u v => some (op u v) :=
  ⟨hext, fun h u v v' => congrArg some (htwo h u v v'), fun u v t => by
    rw [hop]
    exact Ends.pure ⟨State.Looked.refl, ha u v, fun _ hx => Option.some.inj hx, nofun⟩⟩

section
variable {unit : Nat} {g x a y b z c : Byte}

theorem linkOp_arith {e : Word} {op : FpOp} (h : op.divides = false) :
    LinkOp ⟨unit, g, x, a, y, b, z, c, true, false, e, fpElem op g⟩ e fun u v => some (fpBinary (gWidth g) op (gSign g) u v) :=
  linkOp_pure rfl rfl nofun fun u v => among_fpBinary h (gSign g) u v

theorem linkOp_plain {e : Word} (f : Word → Word → Word) :
    LinkOp ⟨unit, g, x, a, y, b, z, c, true, false, e, fun u v => plain (f u v)⟩ e fun u v => some ⟨f u v, {}⟩ :=
  linkOp_pure rfl rfl nofun fun _ _ => FpFlags.among_none

theorem linkOp_round {e : Word} (k : Rounding) :
    LinkOp ⟨unit, g, x, a, y, b, z, c, false, false, e, fun v _ => roundElem k g v⟩ e fun u _ => some (fpRound (gWidth g) k u) :=
  linkOp_pure rfl rfl (fun _ _ _ _ => rfl) fun u _ => (among_fpRound (gWidth g) k u).mono (by decide)

theorem linkOp_compare {e : Word} (cond : Cmp → Bool) :
    LinkOp ⟨unit, g, x, a, y, b, z, c, true, true, e, fun u v =>
      pure ⟨if cond (fpCompare (gWidth g) u v) then 1 else 0, (fpCompare (gWidth g) u v).flags⟩⟩ e
      fun u v => some ⟨if cond (fpCompare (gWidth g) u v) then 1 else 0, (fpCompare (gWidth g) u v).flags⟩ :=
  linkOp_pure rfl rfl nofun fun _ _ => (among_cmp _).mono (by decide)

theorem linkOp_shift {e : Word} : LinkOp ⟨unit, g, x, a, y, b, z, c, true, false, e, shiftElem⟩ e fun u v =>
    (shiftWord u (v.extractLsb' 0 8).toNat).map fun r => ⟨r, {}⟩ := by
  refine ⟨rfl, nofun, fun u v t => ?_⟩
  show Ends (shiftElem u v) t _
  unfold shiftElem
  cases shiftWord u (v.extractLsb' 0 8).toNat with
  | some r => exact Ends.pure ⟨State.Looked.refl, FpFlags.among_none, fun _ hx => Option.some.inj hx, nofun⟩
  | none => exact Ends.bind (Ends.drawFree (Ends.pure ⟨State.Looked.refl.draw _, FpFlags.among_none, nofun, fun _ => rfl⟩))

end

/-- Every linkable instruction has its operation. -/
theorem linkOp_of_linkable {i : Instr} {l : Linkable} (h : linkable i = some l) : ∃ e f, pairOp i = some (e, f) ∧ LinkOp l e f := by
  cases i
  all_goals cases h
  all_goals refine ⟨_, _, rfl, ?_⟩
  case shiftv => exact linkOp_shift
  case truv | flrv | clgv => exact linkOp_round _
  case cmpeq | cmpne | cmpge | cmplt => exact linkOp_compare _
  case addxv | subxv | xorv | andv | iorv | nandv | norv | ornv | andnv | xornv => exact linkOp_plain _
  all_goals exact linkOp_arith rfl

/-! ### One position of a pair -/

section
variable {w : Width} {k : Link} {l m : Linkable} {e e' : Word} {f f' : Word → Word → Option FpResult}

/-- The first operation at a position. -/
def State.pairFirst (s : State) (w : Width) (l : Linkable) (e : Word) (f : Word → Word → Option FpResult) (i : Nat) : Option FpResult :=
  f (s.streamElem (s.streamOf w (bitAt l.g 3) l.a l.x) w e i) (s.streamElem (s.streamOf w (bitAt l.g 4) l.b l.y) w e i)

/-- The second operation at a position, with the first one's value as its linked input. -/
def State.pairValue (s : State) (w : Width) (k : Link) (m : Linkable) (e' : Word) (f' : Word → Word → Option FpResult)
    (first : Option FpResult) (i : Nat) : Option FpResult :=
  first.bind fun v => f' (if k = .rb then s.streamElem (s.streamOf w (bitAt m.g 3) m.a m.x) w e' i else v.value)
    (if k = .ra then s.streamElem (s.streamOf w (bitAt m.g 4) m.b m.y) w e' i else v.value)

/-- The flags raised at a position (decision D37). -/
def pairFlags (permitted : Bool) (first value : Option FpResult) : Option FpFlags :=
  first.map fun v => if permitted then match value with
    | some r => v.flags.or r.flags
    | none => v.flags
  else v.flags

/-- What is said of each source that the pair reads. -/
def State.EachSource (s : State) (w : Width) (k : Link) (l m : Linkable) (apart : Stream → Prop) : Prop :=
  apart (s.streamOf w (bitAt l.g 3) l.a l.x) ∧ (l.two = true → apart (s.streamOf w (bitAt l.g 4) l.b l.y)) ∧
  (k = .rb → apart (s.streamOf w (bitAt m.g 3) m.a m.x)) ∧ (k = .ra → m.two = true → apart (s.streamOf w (bitAt m.g 4) m.b m.y))

theorem State.EachSource.mono {a b : Stream → Prop} (h : s.EachSource w k l m a) (hab : ∀ st, a st → b st) : s.EachSource w k l m b :=
  ⟨hab _ h.1, fun h2 => hab _ (h.2.1 h2), fun h3 => hab _ (h.2.2.1 h3), fun h3 h4 => hab _ (h.2.2.2 h3 h4)⟩

/-- The streams of the first and of the second instruction. -/
def State.linkFirst (s : State) (w : Width) (l : Linkable) : Stream × Stream :=
  (s.streamOf w (bitAt l.g 3) l.a l.x, if l.two then s.streamOf w (bitAt l.g 4) l.b l.y else .const 0)

def State.linkSecond (s : State) (w : Width) (k : Link) (m : Linkable) : Stream × Stream :=
  (if k = .ra || k = .both then .const 0 else s.streamOf w (bitAt m.g 3) m.a m.x,
    if k = .rb || k = .both || !m.two then .const 0 else s.streamOf w (bitAt m.g 4) m.b m.y)

theorem Ends.linkInput {t : State} {chained : Bool} {out : Word} {st : Stream} {i : Nat} (hm : t.mode = .monitor) :
    Ends (Machine.linkInput m chained out st i) t fun v u => t.Looked u ∧
      v = if chained then out else t.streamElem st (gWidth m.g) m.ext i := by
  unfold Machine.linkInput
  cases chained with
  | true => exact Ends.pure ⟨State.Looked.refl, rfl⟩
  | false => exact Ends.elem_looked hm State.Looked.refl

/-- What a position of a pair computes, in terms of a state whose sources are unchanged where `P` holds. -/
theorem linkStep_results {t : State} {i : Nat} {P : Prop} (hm : t.mode = .monitor) (hl : LinkOp l e f) (hm' : LinkOp m e' f')
    (hk : k ≠ .none) (hwl : gWidth l.g = w) (hwm : gWidth m.g = w)
    (hread : P → s.EachSource w k l m fun st => ∀ ext, t.streamElem st w ext i = s.streamElem st w ext i) :
    Ends (linkStep k l m (s.linkFirst w l) (s.linkSecond w k m) i) t fun r u => ∃ r1 t1, t.Looked t1 ∧
      (t1.raiseFlags .vector r1.flags).Looked u ∧ r1.flags.Among endFlags ∧ r.flags.Among endFlags ∧
      (P → (∀ v, s.pairFirst w l e f i = some v → r1 = v ∧ (s.pairValue w k m e' f' (some v) i = none → r.flags = {})) ∧
        ∀ x, s.pairValue w k m e' f' (s.pairFirst w l e f i) i = some x → r = x) := by
  refine Ends.bind ((Ends.elem_looked hm State.Looked.refl).mono fun x u1 ⟨h1, hx⟩ => ?_)
  refine Ends.bind ((Ends.elem_looked hm h1).mono fun y u2 ⟨h2, hy⟩ => ?_)
  refine Ends.bind ((hl.ends x y u2).mono fun r1 t1 ⟨h3, ha1, hr1, _⟩ => Ends.bind (Ends.update ?_))
  have hlook : t.Looked t1 := (h1.trans h2).trans h3
  have hmode : (t1.raiseFlags .vector r1.flags).mode = .monitor := hlook.mode.trans hm
  refine Ends.bind ((Ends.linkInput hmode).mono fun u u3 ⟨h4, hu⟩ => ?_)
  refine Ends.bind ((Ends.linkInput (h4.mode.trans hmode)).mono fun v u4 ⟨h5, hv⟩ => ?_)
  refine (hm'.ends u v u4).mono fun r u5 ⟨h6, ha, hr, hfree⟩ => ?_
  refine ⟨r1, t1, hlook, (h4.trans h5).trans h6, ha1, ha, fun hP => ?_⟩
  obtain ⟨hp, hp', hq, hq'⟩ := hread hP
  rw [hwl, hl.ext] at hx hy
  rw [hwm, hm'.ext] at hu hv
  have hin : f x y = s.pairFirst w l e f i := by
    have hx' : x = s.streamElem (s.streamOf w (bitAt l.g 3) l.a l.x) w e i := hx.trans (hp e)
    rw [hx', State.pairFirst]
    cases htwo : l.two with
    | false => exact hl.one htwo ..
    | true =>
      have hy' : y = s.streamElem (s.streamOf w (bitAt l.g 4) l.b l.y) w e i := by
        rw [hy, State.linkFirst, htwo]
        exact hp' htwo e
      rw [hy']
  have hback (st : Stream) (ext : Word) : (t1.raiseFlags .vector r1.flags).streamElem st w ext i = t.streamElem st w ext i :=
    hlook.streamElem ..
  have hout (w1 : FpResult) (h : r1 = w1) : f' u v = s.pairValue w k m e' f' (some w1) i := by
    subst h
    have hu' : u = if k = .rb then s.streamElem (s.streamOf w (bitAt m.g 3) m.a m.x) w e' i else r1.value := by
      rw [hu, hback]
      cases k with
      | none => exact absurd rfl hk
      | ra => rfl
      | rb => exact hq rfl e'
      | both => rfl
    rw [hu']
    show _ = f' _ _
    have hv0 := hv
    rw [h4.streamElem, hback] at hv0
    cases k with
    | none => exact absurd rfl hk
    | rb => rw [hv0]; rfl
    | both => rw [hv0]; rfl
    | ra =>
      cases htwo : m.two with
      | false => exact hm'.one htwo ..
      | true =>
        have hv' : v = s.streamElem (s.streamOf w (bitAt m.g 4) m.b m.y) w e' i := by
          rw [hv0, State.linkSecond, htwo]
          exact hq' rfl htwo e'
        rw [hv']
        rfl
  refine ⟨fun v1 h => ?_, fun x' h => ?_⟩
  · have h1 := hr1 v1 (hin.trans h)
    exact ⟨h1, fun hn => hfree ((hout v1 h1).trans hn)⟩
  · obtain ⟨v1, hfirst, -⟩ := Option.bind_eq_some_iff.mp h
    rw [hfirst] at h
    exact hr x' ((hout v1 (hr1 v1 (hin.trans hfirst))).trans h)

/-! ### The flags of both operations -/

theorem State.bitAt_raised (t : State) (f1 : FpFlags) : ∀ p ∈ arithmeticFlags,
    bitAt (t.raiseFlags .vector f1).dfr p.2 = (bitAt t.dfr p.2 || p.1 f1) := fun p hp => by
  obtain ⟨h1, _, h3⟩ := arithmeticFlags_plain p hp
  rw [State.raiseFlags_dfr, bitAt_deriveDfr_stored _ h1 h3, bitAt_or, bitAt_raisedBits_vector f1 p hp]

theorem State.Looked.arithmetic {t u : State} (h : t.Looked u) : ∀ p ∈ arithmeticFlags, bitAt u.dfr p.2 = bitAt t.dfr p.2 := fun p hp => by
  obtain ⟨h1, h2, h3⟩ := arithmeticFlags_plain p hp
  exact h.flags p.2 h1 h2 h3

/-- Both operations at a position have raised their flags. -/
theorem State.FlagsRaised.raiseTwo {t u : State} {n : Nat} {raised : Nat → Option FpFlags} {f1 f2 : FpFlags}
    (h : s.FlagsRaised t n raised) (hu : ∀ p ∈ arithmeticFlags, bitAt u.dfr p.2 = ((bitAt t.dfr p.2 || p.1 f1) || p.1 f2))
    (hf : ∀ g, raised n = some g → g = f1.or f2) : s.FlagsRaised u (n + 1) raised :=
  (h.raise hf).of_bits fun p hp => by rw [hu p hp, State.bitAt_raised _ _ p hp, arithmeticFlags_or _ _ p hp, Bool.or_assoc]

theorem FpFlags.or_none (a : FpFlags) : a.or {} = a := by
  unfold FpFlags.or
  simp only [Bool.or_false]

/-- The flags claimed at a position, where both results are as claimed. -/
theorem pairFlags_eq {permitted : Bool} {first value : Option FpResult} {r1 r : FpResult} {g : FpFlags}
    (h : pairFlags permitted first value = some g) (h1 : ∀ v, first = some v → r1 = v) (hr : ∀ x, value = some x → r = x)
    (hfree : ∀ v, first = some v → value = none → r.flags = {}) : g = r1.flags.or (if permitted then r.flags else {}) := by
  obtain ⟨v, hv, rfl⟩ := Option.map_eq_some_iff.mp h
  rw [h1 v hv]
  cases permitted with
  | false => exact (FpFlags.or_none _).symm
  | true =>
    cases hval : value with
    | some x =>
      rw [hr x hval]
      rfl
    | none =>
      rw [hfree v hv hval]
      exact (FpFlags.or_none _).symm

/-! ### A pair that stores a field -/

/-- The claimed elements and flags of the first `n` positions. -/
def State.PairDone (s t : State) (w : Width) (d : Dest) (ctl : Control) (first value : Nat → Option FpResult) (n : Nat) : Prop :=
  s.ElementsAre t w { d with len := n } ctl (fun i => (value i).map FpResult.value) ∧
  s.FlagsRaised t n fun i => pairFlags (s.permissive ctl i) (first i) (value i)

theorem pairField_results {d : Dest} {ctl : Control} (hm : s.mode = .monitor) (hw : Memory.wf s.mem = true) (hl : LinkOp l e f)
    (hm' : LinkOp m e' f') (hk : k ≠ .none) (hwl : gWidth l.g = w) (hwm : gWidth m.g = w) :
    Ends (vectorLoop w d ctl (linkStep k l m (s.linkFirst w l) (s.linkSecond w k m))) s fun _ t =>
      s.Within t nothing (vectorFlags endFlags) (s.inField w d.start d.len) ∧
      (s.EachSource w k l m (s.apart · w w d.start d.len) → s.FieldsClear w d ctl →
        s.PairDone t w d ctl (s.pairFirst w l e f) (fun i => s.pairValue w k m e' f' (s.pairFirst w l e f i) i) d.len) := by
  have h47 : 47 ∈ vectorFlags endFlags := List.mem_cons_self
  refine Ends.vectorLoop (fun n t => s.Within t nothing (vectorFlags endFlags) (s.inField w d.start n) ∧
      (s.EachSource w k l m (s.apart · w w d.start d.len) → s.FieldsClear w d ctl →
        s.PairDone t w d ctl (s.pairFirst w l e f) (fun i => s.pairValue w k m e' f' (s.pairFirst w l e f i) i) n))
    ⟨State.Within.refl, fun _ _ => ⟨fun j hj => absurd hj (Nat.not_lt_zero j), State.FlagsRaised.zero s _⟩⟩
    fun n t hn ⟨hwithin, hdone⟩ => ?_
  refine (linkStep_results (s := s) (P := s.EachSource w k l m (s.apart · w w d.start d.len)) (hwithin.toFrame.mode.trans hm) hl hm' hk
    hwl hwm fun hP => hP.mono fun st hst ext => hwithin.toFrame.streamElem_out hw hst (Nat.le_of_lt hn) ext n).mono
    fun r u ⟨r1, t1, hl1, hl2, ha1, ha, hres⟩ => ?_
  have hw1 := (hwithin.looked hl1 h47).raiseFlags ha1.vector
  have hw2 := hw1.looked hl2 h47
  refine ⟨hw2.toFrame.mode.trans hm, fun u' hu' => ?_⟩
  have hlu : u.Looked u' := State.Looked.of_breakpoint hu'
  have hw3 := hw2.looked hlu h47
  have happart (hc : s.FieldsClear w d ctl) (j : Nat) (hj : j < n) :
      s.elemsApart w (itemAddr w d.start n) w (itemAddr w d.start j) :=
    State.items_apart hc.ok hc.fits d.start hn (Nat.lt_trans hj hn) (Nat.ne_of_gt hj)
  have hperm (hc : s.FieldsClear w d ctl) : u.permissive ctl n = s.permissive ctl n :=
    hw2.toFrame.permissive_out hw hc.control hn (Nat.le_of_lt hn)
  have hback : ∀ (w' : Width) (a : Addr), u'.elemOfMemory w' a = t.elemOfMemory w' a := fun w' a =>
    (hlu.elemOfMemory w' a).trans ((hl2.elemOfMemory w' a).trans (hl1.elemOfMemory w' a))
  have hbits : ∀ p ∈ arithmeticFlags, bitAt u'.dfr p.2 = (bitAt t.dfr p.2 || p.1 r1.flags) := fun p hp => by
    rw [hlu.arithmetic p hp, hl2.arithmetic p hp, State.bitAt_raised _ _ p hp, hl1.arithmetic p hp]
  have hflags (hP : s.EachSource w k l m (s.apart · w w d.start d.len)) (permitted : Bool) (g : FpFlags)
      (hg : pairFlags permitted (s.pairFirst w l e f n) (s.pairValue w k m e' f' (s.pairFirst w l e f n) n) = some g) :
      g = r1.flags.or (if permitted then r.flags else {}) :=
    pairFlags_eq hg (fun v h => ((hres hP).1 v h).1) (hres hP).2 fun v h hv => ((hres hP).1 v h).2 (by rwa [h] at hv)
  cases hctl : u.permissive ctl n with
  | true =>
    rw [if_pos rfl]
    refine Ends.bind ⟨_, _, writeElem_monitor (hw3.toFrame.mode.trans hm) _ _ _, Ends.update ⟨?_, fun hP hc => ?_⟩⟩
    · exact (hw3.storeItem r.value h47).raiseFlags ha.vector
    · have hs : s.permissive ctl n = true := (hperm hc).symm.trans hctl
      refine ⟨State.ElementsAre.store (fun j hj => by rw [hback]; exact (hdone hP hc).1 j hj) (fun x hx => ?_) (hw3.toFrame.wf hw)
        hw3.toFrame.params hs (happart hc), (hdone hP hc).2.raiseTwo (f1 := r1.flags) (f2 := r.flags) (fun p hp => ?_) fun g hg => ?_⟩
      · obtain ⟨y, hy, rfl⟩ := Option.map_eq_some_iff.mp hx
        rw [(hres hP).2 y hy]
      · obtain ⟨h1, h2, h3⟩ := arithmeticFlags_plain p hp
        rw [State.bitAt_raised _ _ p hp, State.withElem_dfr, State.bitAt_breakpoint _ _ _ h1 h2 h3, hbits p hp]
      · have := hflags hP _ g hg
        rwa [hs] at this
  | false =>
    rw [if_neg Bool.false_ne_true]
    refine ⟨hw3.mono fun _ ⟨j, hj, hb⟩ => ⟨j, Nat.lt_succ_of_lt hj, hb⟩, fun hP hc => ?_⟩
    have hs : s.permissive ctl n = false := (hperm hc).symm.trans hctl
    refine ⟨State.ElementsAre.skip (fun j hj => by rw [hback]; exact (hdone hP hc).1 j hj) hs ?_,
      (hdone hP hc).2.raiseTwo (f1 := r1.flags) (f2 := {}) (fun p hp => ?_) fun g hg => ?_⟩
    · exact hw3.toFrame.elem_out hw fun j hj => State.elemsApart_symm (happart hc j hj)
    · rw [hbits p hp, arithmeticFlags_none p hp, Bool.or_false]
    · have := hflags hP _ g hg
      rwa [hs] at this

/-! ### A pair that stores an order vector -/

theorem pairOrder_results {z : Addr} {n : Nat} (hm : s.mode = .monitor) (hw : Memory.wf s.mem = true) (hl : LinkOp l e f)
    (hm' : LinkOp m e' f') (hk : k ≠ .none) (hwl : gWidth l.g = w) (hwm : gWidth m.g = w) :
    Ends (elements n (fun i _ => do
        let r ← linkStep k l m (s.linkFirst w l) (s.linkSecond w k m) i
        writeBit (z + BitVec.ofNat 48 i) (r.value == 1)
        update (·.raiseFlags .vector r.flags)) ()) s fun _ t =>
      s.Within t nothing (vectorFlags endFlags) (s.inBits z n) ∧
      (s.EachSource w k l m (s.apartFromBits · w z n) →
        (s.FlagsRaised t n fun i => pairFlags true (s.pairFirst w l e f i) (s.pairValue w k m e' f' (s.pairFirst w l e f i) i)) ∧
        (s.params.ok = true → n ≤ 2 ^ s.params.cpmLog → ∀ i, i < n → ∀ v, s.pairValue w k m e' f' (s.pairFirst w l e f i) i = some v →
          t.bitOfMemory (z + BitVec.ofNat 48 i) = (v.value == 1))) := by
  have h47 : 47 ∈ vectorFlags endFlags := List.mem_cons_self
  refine Ends.elements (fun j _ t => s.Within t nothing (vectorFlags endFlags) (s.inBits z j) ∧
      (s.EachSource w k l m (s.apartFromBits · w z n) →
        (s.FlagsRaised t j fun i => pairFlags true (s.pairFirst w l e f i) (s.pairValue w k m e' f' (s.pairFirst w l e f i) i)) ∧
        (s.params.ok = true → n ≤ 2 ^ s.params.cpmLog → ∀ i, i < j → ∀ v, s.pairValue w k m e' f' (s.pairFirst w l e f i) i = some v →
          t.bitOfMemory (z + BitVec.ofNat 48 i) = (v.value == 1)))) n
    ⟨State.Within.refl, fun _ => ⟨State.FlagsRaised.zero s _, fun _ _ i hi => absurd hi (Nat.not_lt_zero i)⟩⟩
    fun j _ t hj ⟨hwithin, hdone⟩ => ?_
  refine Ends.bind ((linkStep_results (s := s) (P := s.EachSource w k l m (s.apartFromBits · w z n)) (hwithin.toFrame.mode.trans hm) hl hm'
    hk hwl hwm fun hP => hP.mono fun st hst ext => hwithin.toFrame.streamElem_outBits hw hst (Nat.le_of_lt hj) ext j).mono
    fun r u ⟨r1, t1, hl1, hl2, ha1, ha, hres⟩ => ?_)
  have hw2 := ((hwithin.looked hl1 h47).raiseFlags ha1.vector).looked hl2 h47
  refine Ends.bind ⟨_, _, writeBit_withBit (hw2.toFrame.mode.trans hm) _ _, Ends.update
    ⟨(hw2.storeBit _ h47).raiseFlags ha.vector, fun hP => ⟨(hdone hP).1.raiseTwo (f1 := r1.flags) (f2 := r.flags) (fun p hp => ?_)
      fun g hg => ?_, fun hok hn i hi v hv => ?_⟩⟩⟩
  · obtain ⟨h1, h2, h3⟩ := arithmeticFlags_plain p hp
    rw [State.bitAt_raised _ _ p hp, State.bitAt_withBit_dfr _ _ _ h1 h2 h3, hl2.arithmetic p hp, State.bitAt_raised _ _ p hp,
      hl1.arithmetic p hp]
  · exact pairFlags_eq hg (fun v h => ((hres hP).1 v h).1) (hres hP).2 fun v h hv => ((hres hP).1 v h).2 (by rwa [h] at hv)
  · refine (State.bitOfMemory_withBit u _ _ (hw2.toFrame.wf hw) _).trans ?_
    rw [hw2.toFrame.wrap, hw2.toFrame.wrap]
    rcases Nat.lt_succ_iff_lt_or_eq.mp hi with hi | rfl
    · rw [if_neg (State.bits_ne hok hn z (Nat.lt_trans hi hj) hj (Nat.ne_of_lt hi))]
      exact ((hl2.bitOfMemory _).trans (hl1.bitOfMemory _)).trans ((hdone hP).2 hok hn i hi v hv)
    · rw [if_pos rfl, (hres hP).2 v hv]

end

/-! ### The pair as one instruction -/

theorem fetchLinked_eq {i : Instr} {pc : Addr} (hm : s.mode = .monitor) (hs : s.stale = []) (hw : i.wf = true)
    (hb : s.instructionBytes pc = encode i) : fetchLinked pc s = (match linkable i with
      | some l => pure l
      | none => refuse .linkInvalid : M Linkable) s := by
  have hd : decode (encode i) = .ok ⟨i, true⟩ := by
    have := decode_encode i [] hw
    rwa [List.append_nil] at this
  refine (bind_ok ((fetchBytes_monitor hm hs pc).trans (by rw [hb]))).trans ?_
  rw [hd]
  exact bind_ok (refuseIf_false rfl)

/-- The frame of a pair, whose link is set while it runs. -/
theorem State.Frame.unlinked {t : State} {k : Link} {changed : Byte → Prop} {flags : List Nat} {stored : Nat → Prop}
    (h : ({ s with link := k } : State).Frame t changed flags stored) (hl : s.link = .none) :
    s.Frame { t with link := .none } changed flags stored :=
  ⟨h.regs, h.flagsOnly, h.wf, h.bytes, h.same,
    (congrArg (fun v : State => { v with link := Link.none }) h.rest).trans (by rw [← hl])⟩

section
variable {r : Byte} {l m : Linkable} {k : Link}

/-- Where the links, units and qualifiers of two instructions agree, their operand widths are the same. -/
theorem gWidth_of_linkValid (h : linkValid k l m = true) : gWidth l.g = gWidth m.g := by
  unfold linkValid at h
  simp only [Bool.and_eq_true, beq_iff_eq] at h
  unfold gWidth
  rw [h.1.2]

theorem sources_ok (h1 : s.sourceOk (bitAt l.g 3) l.x) (h2 : l.two = true → s.sourceOk (bitAt l.g 4) l.y) :
    l.sources s = .ok (s.linkFirst (gWidth l.g) l, s) := by
  unfold Linkable.sources State.linkFirst
  refine (bind_ok (source_ok _ l.a h1)).trans ?_
  cases htwo : l.two with
  | false => rfl
  | true => exact (bind_ok (source_ok _ l.b (h2 htwo))).trans rfl

theorem linkSources_ok (hk : k ≠ .none) (h1 : k = .rb → s.sourceOk (bitAt m.g 3) m.x)
    (h2 : k = .ra → m.two = true → s.sourceOk (bitAt m.g 4) m.y) :
    linkSources k m s = .ok (s.linkSecond (gWidth m.g) k m, s) := by
  unfold linkSources State.linkSecond
  cases k with
  | none => exact absurd rfl hk
  | both => rfl
  | rb => exact (bind_ok (source_ok _ m.a (h1 rfl))).trans rfl
  | ra =>
    cases htwo : m.two with
    | false => rfl
    | true =>
      show (source (gWidth m.g) (bitAt m.g 4) m.b m.y >>= fun q => pure (Stream.const 0, q) : M (Stream × Stream)) s = _
      exact (bind_ok (source_ok _ m.b (h2 rfl htwo))).trans rfl

/-- The operation of #56 on the two instructions that follow it. -/
theorem exec_linkv_pair {i j : Instr} (hm : s.mode = .monitor) (hs : s.stale = []) (hk : linkOf r ≠ .none) (hi : i.wf = true)
    (hj : j.wf = true) (hbi : s.instructionBytes (s.pc + 32) = encode i) (hbj : s.instructionBytes (s.pc + 96) = encode j)
    (hl : linkable i = some l) (hlm : linkable j = some m) : exec (.linkv r) s =
      settle s ((do
        refuseIf (!linkValid (linkOf r) l m) .linkInvalid
        linkedPair (linkOf r) l m s
        update fun t => { t with link := .none }.goto (s.pc + 160) : M Unit) { s with link := linkOf r }) := by
  have h1 := fetchLinked_eq (s := { s with link := linkOf r }) hm hs hi hbi
  have h2 := fetchLinked_eq (s := { s with link := linkOf r }) hm hs hj hbj
  rw [hl] at h1
  rw [hlm] at h2
  show execLinkv r s = _
  unfold execLinkv
  rw [if_neg hk]
  exact congrArg (settle s) ((bind_ok (t := { s with link := linkOf r }) rfl).trans ((bind_ok h1).trans (bind_ok h2)))

theorem exec_linkv_unlinkable {i j : Instr} (hm : s.mode = .monitor) (hs : s.stale = []) (hk : linkOf r ≠ .none) (hi : i.wf = true)
    (hj : j.wf = true) (hbi : s.instructionBytes (s.pc + 32) = encode i) (hbj : s.instructionBytes (s.pc + 96) = encode j)
    (h : linkable i = none ∨ linkable j = none) : exec (.linkv r) s = .refused .linkInvalid := by
  have h1 := fetchLinked_eq (s := { s with link := linkOf r }) hm hs hi hbi
  have h2 := fetchLinked_eq (s := { s with link := linkOf r }) hm hs hj hbj
  show execLinkv r s = _
  unfold execLinkv
  rw [if_neg hk]
  have hupdate := bind_ok (m := update fun t => { t with link := linkOf r }) (s := s) (t := { s with link := linkOf r }) (a := ()) rfl
    (k := fun _ => do
      let l ← fetchLinked (s.pc + 32)
      let m ← fetchLinked (s.pc + 96)
      refuseIf (!linkValid (linkOf r) l m) .linkInvalid
      linkedPair (linkOf r) l m s
      update fun t => { t with link := .none }.goto (s.pc + 160))
  refine run_of_error (hupdate.trans (?_ : _ = Except.error (Stop.refuse .linkInvalid)))
  cases hli : linkable i with
  | none =>
    rw [hli] at h1
    exact bind_error h1
  | some l =>
    rw [hli] at h1
    rw [h.resolve_left (by rw [hli]; exact nofun)] at h2
    exact (bind_ok h1).trans (bind_error h2)

/-- What a pair whose operation has run leaves. -/
theorem pair_completes {i j : Instr} {t : State} {stored : Nat → Prop} {result : State → Prop} (hm : s.mode = .monitor)
    (hs : s.stale = []) (hn : s.link = .none) (hw : Memory.wf s.mem = true) (hk : linkOf r ≠ .none) (hi : i.wf = true)
    (hj : j.wf = true) (hbi : s.instructionBytes (s.pc + 32) = encode i) (hbj : s.instructionBytes (s.pc + 96) = encode j)
    (hl : linkable i = some l) (hlm : linkable j = some m) (hv : linkValid (linkOf r) l m = true)
    (ht : linkedPair (linkOf r) l m s { s with link := linkOf r } = .ok ((), t))
    (h : ({ s with link := linkOf r } : State).Within t nothing (vectorFlags endFlags) stored)
    (hr : result (({ t with link := .none } : State).goto (s.pc + 160))) :
    Completes (.linkv r) s (halfAligned (s.pc + 160)) nothing (vectorFlags endFlags) stored result :=
  have he : (do
      refuseIf (!linkValid (linkOf r) l m) .linkInvalid
      linkedPair (linkOf r) l m s
      update fun t => { t with link := .none }.goto (s.pc + 160) : M Unit) { s with link := linkOf r } =
        .ok ((), ({ t with link := .none } : State).goto (s.pc + 160)) :=
    (bind_ok (refuseIf_false (by rw [hv]; rfl))).trans ((bind_ok ht).trans rfl)
  ((h.toFrame.unlinked hn).goto _).completes hw ((exec_linkv_pair hm hs hk hi hj hbi hbj hl hlm).trans (by rw [he]; rfl)) hr rfl

end

end Sys2Proof.Machine

namespace Sys2Proof
open Machine

/-- Settles O43: a pair is the loop of the second instruction with the first operation before its own at each position. -/
theorem linkedPair : Obligations.LinkedPair := by
  refine ⟨fun s r hk => if_pos hk, fun s r i j hm hs hn hw hk hi hj hbi hbj => ⟨exec_linkv_unlinkable hm hs hk hi hj hbi hbj,
    fun l m hl hlm => ⟨fun hv => ?_, fun hv hx hy hqx hqy hd => ?_⟩⟩⟩
  · exact (exec_linkv_pair hm hs hk hi hj hbi hbj hl hlm).trans (congrArg (settle s) (bind_error (refuseIf_true (b := !linkValid (linkOf r) l m) (by rw [hv]; rfl))))
  · intro w d p p' q q'
    have hwl : gWidth l.g = w := gWidth_of_linkValid hv
    have hwl' : gWidth l.g = gWidth m.g := hwl
    obtain ⟨e0, f0, he0, hop⟩ := linkOp_of_linkable hl
    obtain ⟨e1, f1, he1, hop'⟩ := linkOp_of_linkable hlm
    have hsrc := sources_ok (s := { s with link := linkOf r }) hx hy
    rw [hwl'] at hsrc
    have hsrc' := linkSources_ok (s := { s with link := linkOf r }) hk hqx hqy
    cases ho : m.order with
    | true =>
      obtain ⟨_, t, ht, hwithin, hres⟩ := pairOrder_results (s := { s with link := linkOf r }) (z := s.addr m.z) (n := s.len m.z)
        hm hw hop hop' hk hwl rfl
      refine pair_completes hm hs hn hw hk hi hj hbi hbj hl hlm hv ?_ hwithin ?_
      · unfold Machine.linkedPair
        refine (bind_ok hsrc).trans ((bind_ok hsrc').trans ?_)
        rw [ho, if_pos rfl]
        exact ht
      · intro e f e' f' he he' first value clear hok
        cases he0.symm.trans he
        cases he1.symm.trans he'
        exact ⟨nofun, fun _ hn hc => (hres hc).2 hok hn, fun ⟨hn, hc⟩ => (hres hc).1⟩
    | false =>
      obtain ⟨_, t, ht, hwithin, hres⟩ := pairField_results (s := { s with link := linkOf r }) (d := d) (ctl := s.control m.g m.z d.off)
        hm hw hop hop' hk hwl rfl
      refine pair_completes hm hs hn hw hk hi hj hbi hbj hl hlm hv ?_ hwithin ?_
      · unfold Machine.linkedPair
        refine (bind_ok hsrc).trans ((bind_ok hsrc').trans ?_)
        rw [ho, if_neg Bool.false_ne_true]
        exact (bind_ok (dest_ok (s := { s with link := linkOf r }) _ (hd ho))).trans ht
      · intro e f e' f' he he' first value clear hok
        cases he0.symm.trans he
        cases he1.symm.trans he'
        refine ⟨fun _ hfit hc hctl k hk => ?_, nofun, fun ⟨hfit, hc, hctl⟩ => (hres hc ⟨hok, hfit, hctl⟩).2⟩
        obtain ⟨helem, -⟩ := hres hc ⟨hok, hfit, hctl⟩
        exact ⟨fun hp v hv => (helem k hk).1 hp v.value (congrArg (Option.map FpResult.value) hv), (helem k hk).2⟩

end Sys2Proof
end

