-- ==== Sys2Proof/Proofs/Words.lean ====
section
/-! PROOFS. Words that the hardware's own sequences store: packages, register files and associative registers in CP memory
(spec/20_memory.md R62; spec/60_exceptions.md R641, R642). -/

-- One declaration at a time, as in the tests: many at once need a thread each.
set_option Elab.async false

namespace Sys2Proof.Machine

variable {s : State}

/-! ### One word -/

theorem wrap_mod_word (hp : s.params.ok = true) (a : Nat) : s.wrap a % 64 = a % 64 := by
  obtain ⟨h15, -⟩ := Params.cpmLog_range hp
  have hd : 64 ∣ 2 ^ s.params.cpmLog := Nat.pow_dvd_pow 2 (Nat.le_trans (by decide : 6 ≤ 15) h15)
  rw [State.wrap, Nat.mod_mod_of_dvd _ hd]

theorem absWord_setAbsWord_self (h : Memory.wf s.mem = true) (a : Nat) (v : Word) : (s.setAbsWord a v).absWord a = v := by
  rw [State.absWord, wrap_setAbsWord, setAbsWord_mem]
  exact Memory.word_setWord h _ _

/-- Two words at the same place of a word's 64 bits share no byte. -/
theorem absWord_setAbsWord_ne (h : Memory.wf s.mem = true) (hp : s.params.ok = true) {a b : Nat}
    (hab : a % 64 = b % 64) (hne : s.wrap a ≠ s.wrap b) (v : Word) : (s.setAbsWord a v).absWord b = s.absWord b := by
  have h1 := wrap_mod_word hp a
  have h2 := wrap_mod_word hp b
  rw [State.absWord, wrap_setAbsWord]
  refine Memory.word_congr fun k h3 h4 => byte_setAbsWord_out h v ?_
  unfold State.inAbsWord
  omega

/-! ### Lists of words -/

/-- Store words at absolute bit addresses, one after the other. -/
def State.storeAll (s : State) : List (Nat × Word) → State
  | [] => s
  | p :: l => (s.setAbsWord p.1 p.2).storeAll l

theorem storeAll_eq (l : List (Nat × Word)) : ∀ s : State,
    s.storeAll l = { s with mem := (s.storeAll l).mem, stale := (s.storeAll l).stale } := by
  induction l with
  | nil => exact fun _ => rfl
  | cons p l ih =>
    intro s
    have h : s.storeAll (p :: l) = (s.setAbsWord p.1 p.2).storeAll l := rfl
    rw [h, ih, setAbsWord_eq]

theorem storeAll_wrap (l : List (Nat × Word)) (a : Nat) : (s.storeAll l).wrap a = s.wrap a := by
  rw [storeAll_eq]
  rfl

theorem wf_storeAll (l : List (Nat × Word)) : ∀ {s : State}, Memory.wf s.mem = true → Memory.wf (s.storeAll l).mem = true := by
  induction l with
  | nil => exact fun h => h
  | cons p l ih => exact fun h => ih (wf_setAbsWord h _ _)

theorem byte_storeAll_out (l : List (Nat × Word)) {b : Nat} : ∀ {s : State}, Memory.wf s.mem = true →
    (∀ p ∈ l, ¬ s.inAbsWord p.1 b) → Memory.byte (s.storeAll l).mem b = Memory.byte s.mem b := by
  induction l with
  | nil => exact fun _ _ => rfl
  | cons p l ih =>
    intro s h hb
    refine (ih (wf_setAbsWord h p.1 p.2) fun q hq => ?_).trans (byte_setAbsWord_out h _ (hb p List.mem_cons_self))
    have := hb q (List.mem_cons_of_mem _ hq)
    rwa [State.inAbsWord, wrap_setAbsWord]

/-- A word that none of them is stays. -/
theorem absWord_storeAll_out (l : List (Nat × Word)) {b : Nat} : ∀ {s : State}, Memory.wf s.mem = true →
    s.params.ok = true → (∀ p ∈ l, p.1 % 64 = b % 64 ∧ s.wrap p.1 ≠ s.wrap b) → (s.storeAll l).absWord b = s.absWord b := by
  induction l with
  | nil => exact fun _ _ _ => rfl
  | cons p l ih =>
    intro s h hp hl
    obtain ⟨ha, hne⟩ := hl p List.mem_cons_self
    refine (ih (wf_setAbsWord h _ _) (by rw [setAbsWord_eq]; exact hp) fun q hq => ?_).trans
      (absWord_setAbsWord_ne h hp ha hne p.2)
    rw [wrap_setAbsWord, wrap_setAbsWord]
    exact hl q (List.mem_cons_of_mem _ hq)

/-- Each of them holds its value, if they are different words. -/
theorem absWord_storeAll_mem (l : List (Nat × Word)) {m : Nat} : ∀ {s : State}, Memory.wf s.mem = true → s.params.ok = true →
    (∀ p ∈ l, p.1 % 64 = m) → l.Pairwise (fun p q => s.wrap p.1 ≠ s.wrap q.1) → ∀ p ∈ l, (s.storeAll l).absWord p.1 = p.2 := by
  induction l with
  | nil => exact fun _ _ _ _ p hp => absurd hp List.not_mem_nil
  | cons q l ih =>
    intro s h hp hal hpw p hmem
    obtain ⟨hq, hpw'⟩ := List.pairwise_cons.mp hpw
    have hp' : (s.setAbsWord q.1 q.2).params.ok = true := by rw [setAbsWord_eq]; exact hp
    rcases List.mem_cons.mp hmem with rfl | hmem
    · refine (absWord_storeAll_out l (wf_setAbsWord h _ _) hp' fun r hr =>
        ⟨(hal r (List.mem_cons_of_mem _ hr)).trans (hal p List.mem_cons_self).symm, ?_⟩).trans
        (absWord_setAbsWord_self h p.1 p.2)
      rw [wrap_setAbsWord, wrap_setAbsWord]
      exact (hq r hr).symm
    · refine ih (wf_setAbsWord h _ _) hp' (fun r hr => hal r (List.mem_cons_of_mem _ hr)) ?_ p hmem
      simpa only [wrap_setAbsWord] using hpw'

/-! ### Packages, register files, associative registers -/

/-- The words of a package by their addresses. -/
def packageAt (base : Addr) (l : List (Nat × Word)) : List (Nat × Word) := l.map fun p => (base.toNat + 64 * p.1, p.2)

/-- The first `n` of some numbered words, from the last one down, by their addresses. -/
def fileAt (base : Nat) (value : Nat → Word) (n : Nat) : List (Nat × Word) :=
  (List.range n).reverse.map fun k => (base + 64 * k, value k)

theorem storePkg_storeAll (base : Addr) (l : List (Nat × Word)) : ∀ s : State, s.storePkg base l = s.storeAll (packageAt base l) := by
  induction l with
  | nil => exact fun _ => rfl
  | cons p l ih => exact fun s => ih _

theorem fileAt_succ (base : Nat) (value : Nat → Word) (n : Nat) :
    fileAt base value (n + 1) = (base + 64 * n, value n) :: fileAt base value n := by
  unfold fileAt
  rw [List.range_succ, List.reverse_append, List.map_append]
  rfl

theorem storeRegs_storeAll (base n : Nat) : ∀ s : State,
    s.storeRegs base n = s.storeAll (fileAt base (fun k => s.reg (BitVec.ofNat 8 k)) n) := by
  induction n with
  | zero => exact fun _ => rfl
  | succ n ih =>
    intro s
    have hreg (k : Byte) : (s.setAbsWord (base + 64 * n) (s.reg (BitVec.ofNat 8 n))).reg k = s.reg k := by
      rw [setAbsWord_eq]
      rfl
    rw [fileAt_succ]
    show (s.setAbsWord (base + 64 * n) (s.reg (BitVec.ofNat 8 n))).storeRegs base n = _
    rw [ih]
    simp only [hreg]
    rfl

theorem storeAssoc_storeAll (n : Nat) : ∀ s : State,
    s.storeAssoc n = s.storeAll (fileAt assocBase (fun k => s.ar.toList.getD k 0) n) := by
  induction n with
  | zero => exact fun _ => rfl
  | succ n ih =>
    intro s
    have har : (s.setAbsWord (assocBase + 64 * n) (s.ar.toList.getD n 0)).ar = s.ar := by
      rw [setAbsWord_eq]
    rw [fileAt_succ]
    show (s.setAbsWord (assocBase + 64 * n) (s.ar.toList.getD n 0)).storeAssoc n = _
    rw [ih, har]
    rfl

theorem mem_fileAt {base n : Nat} {value : Nat → Word} {p : Nat × Word} :
    p ∈ fileAt base value n ↔ ∃ k, k < n ∧ p = (base + 64 * k, value k) := by
  unfold fileAt
  rw [List.mem_map]
  exact exists_congr fun k => by rw [List.mem_reverse, List.mem_range]; exact and_congr_right fun _ => eq_comm

theorem mem_packageAt {base : Addr} {l : List (Nat × Word)} {p : Nat × Word} :
    p ∈ packageAt base l ↔ ∃ q ∈ l, p = (base.toNat + 64 * q.1, q.2) := by
  unfold packageAt
  rw [List.mem_map]
  exact exists_congr fun k => and_congr_right fun _ => eq_comm

/-- Words of one area that fits into memory are different words. -/
theorem wrap_ne_of_area {base n i j : Nat} (hfit : 64 * n ≤ 2 ^ s.params.cpmLog) (hi : i < n) (hj : j < n) (h : i ≠ j) :
    s.wrap (base + 64 * i) ≠ s.wrap (base + 64 * j) :=
  unit_ne hfit (by omega) (by omega) (by omega)

theorem fileAt_pairwise {base n : Nat} {value : Nat → Word} (hfit : 64 * n ≤ 2 ^ s.params.cpmLog) :
    (fileAt base value n).Pairwise fun p q => s.wrap p.1 ≠ s.wrap q.1 := by
  unfold fileAt
  rw [List.pairwise_map, List.pairwise_reverse]
  refine List.Pairwise.imp_of_mem (fun {i j} hi hj hij => ?_) (List.pairwise_lt_range (n := n))
  exact wrap_ne_of_area hfit (List.mem_range.mp hj) (List.mem_range.mp hi) (Nat.ne_of_gt hij)

theorem packageAt_pairwise {base : Addr} {l : List (Nat × Word)} {n : Nat} (hfit : 64 * n ≤ 2 ^ s.params.cpmLog)
    (hn : ∀ p ∈ l, p.1 < n) (hd : (l.map Prod.fst).Nodup) :
    (packageAt base l).Pairwise fun p q => s.wrap p.1 ≠ s.wrap q.1 := by
  unfold packageAt
  rw [List.pairwise_map]
  refine List.Pairwise.imp_of_mem (fun {p q} hp hq hpq => ?_) (List.pairwise_map.mp hd)
  exact wrap_ne_of_area hfit (hn p hp) (hn q hq) hpq

end Sys2Proof.Machine
end

