-- ==== Sys2Proof/Proofs/Assoc.lean ====
section
/-! PROOFS. Associative registers and keys (spec/41_monitor_system.md R209, R210, R212). -/

-- One declaration at a time, as in the tests: many at once need a thread each.
set_option Elab.async false

namespace Sys2Proof.Machine

variable {s : State} {r sd t : Byte}

/-! ### Load associative registers (R210) -/

theorem compareReads_iff (s : State) (a n : Nat) : ((List.range n).any fun k => s.breaks false (BitVec.ofNat 48 (a + 64 * k))) = true ↔
    bitAt s.bkpt 62 = true ∧ ∃ k, k < n ∧ ∀ j, 16 ≤ j → j < 59 → bitAt s.bkpt j = bitAt (BitVec.ofNat 48 (a + 64 * k)) (j - 16) := by
  rw [List.any_eq_true]
  constructor
  · rintro ⟨k, hk, h⟩
    obtain ⟨h1, h2⟩ := (s.breaks_iff false _).mp h
    exact ⟨h1, k, List.mem_range.mp hk, h2⟩
  · rintro ⟨h1, k, hk, h2⟩
    exact ⟨k, List.mem_range.mpr hk, (s.breaks_iff false _).mpr ⟨h1, h2⟩⟩

theorem exec_lodar (hm : s.mode = .monitor) : exec .lodar s = .next ({ s.compareReads assocBase 16 with
    ar := Vector.ofFn fun k => s.absWord (assocBase + 64 * k.val), arValid := true } : State).next32 :=
  run32_of_ok ((bind_ok (monitorOnly_monitor hm)).trans rfl)

theorem lodar_result (hm : s.mode = .monitor) :
    let hit := bitAt s.bkpt 62 = true ∧ ∃ n, n < 16 ∧ ∀ k, 16 ≤ k → k < 59 →
      bitAt s.bkpt k = bitAt (BitVec.ofNat 48 (0x4000 + 64 * n)) (k - 16)
    let loaded : State := { s with
      ar := Vector.ofFn fun k => s.absWord (0x4000 + 64 * k.val), arValid := true, pc := s.behind32 }
    (hit → exec .lodar s = .next { loaded with dfr := deriveDfr (setBitAt s.dfr 47 true) }) ∧
    (¬ hit → exec .lodar s = .next loaded) := by
  intro hit loaded
  have h (b : Bool) (hb : ((List.range 16).any fun k => s.breaks false (BitVec.ofNat 48 (0x4000 + 64 * k))) = b) :
      s.compareReads assocBase 16 = if b then s.setFlag 47 true else s := by
    rw [← hb]
    rfl
  refine ⟨fun hh => ?_, fun hh => ?_⟩
  · rw [exec_lodar hm, h true ((compareReads_iff s 0x4000 16).mpr hh)]
    rfl
  · rw [exec_lodar hm, h false (Bool.eq_false_iff.mpr fun hc => hh ((compareReads_iff s 0x4000 16).mp hc))]
    rfl

/-! ### Store associative registers (R209) -/

theorem assoc_wrap (hp : s.params.ok = true) {k : Nat} (hk : k < 16) : s.wrap (0x4000 + 64 * k) = 0x4000 + 64 * k := by
  obtain ⟨h15, -⟩ := Params.cpmLog_range hp
  have : 2 ^ 15 ≤ 2 ^ s.params.cpmLog := Nat.pow_le_pow_right (by decide) h15
  exact Nat.mod_eq_of_lt (by omega)

/-- What the stores of the first `n` associative registers leave. -/
theorem storeAssoc_results (hw : Memory.wf s.mem = true) (hp : s.params.ok = true) {n : Nat} (hn : n ≤ 16) :
    (∀ k, k < n → (s.storeAssoc n).absWord (0x4000 + 64 * k) = s.ar.toList.getD k 0) ∧
    (∀ b, ¬ (0x4000 ≤ 8 * b ∧ 8 * b < 0x4400) → Memory.byte (s.storeAssoc n).mem b = Memory.byte s.mem b) ∧
    s.storeAssoc n = { s with mem := (s.storeAssoc n).mem, stale := (s.storeAssoc n).stale } := by
  have hfit : 64 * n ≤ 2 ^ s.params.cpmLog :=
    Nat.le_trans (by omega : 64 * n ≤ 2 ^ 15) (Nat.pow_le_pow_right (by decide) (Params.cpmLog_range hp).1)
  rw [storeAssoc_storeAll]
  refine ⟨fun k hk => ?_, fun b hb => byte_storeAll_out _ hw fun p h => ?_, storeAll_eq _ s⟩
  · refine absWord_storeAll_mem (m := 0) (fileAt assocBase (fun k => s.ar.toList.getD k 0) n) hw hp (fun p h => ?_) (fileAt_pairwise hfit)
      (assocBase + 64 * k, s.ar.toList.getD k 0) (mem_fileAt.mpr ⟨k, hk, rfl⟩)
    obtain ⟨k, -, rfl⟩ := mem_fileAt.mp h
    simp only [assocBase]
    omega
  · obtain ⟨k, hk, rfl⟩ := mem_fileAt.mp h
    have := assoc_wrap hp (Nat.lt_of_lt_of_le hk hn)
    unfold State.inAbsWord
    simp only [assocBase]
    omega

theorem exec_stoar (hm : s.mode = .monitor) (hv : s.arValid = true) : exec .stoar s = .next (State.next32
    { s.storeAssoc 16 with arValid := false, free := s.free + 16, ar := Vector.ofFn fun k => Config.freeWord (s.free + k.val) }) :=
  run32_of_ok ((bind_ok (monitorOnly_monitor hm)).trans ((bind_ok (refuseIf_false (by rw [hv]; rfl))).trans rfl))

theorem stoar_result (hm : s.mode = .monitor) (hv : s.arValid = true) (hw : Memory.wf s.mem = true) (hp : s.params.ok = true) :
    ∃ u, exec .stoar s = .next u ∧ u.arValid = false ∧ (∀ k : Fin 16, u.absWord (0x4000 + 64 * k.val) = s.ar[k]) ∧
      (∀ b, ¬ (0x4000 ≤ 8 * b ∧ 8 * b < 0x4400) → Memory.byte u.mem b = Memory.byte s.mem b) ∧
      u = { s with ar := u.ar, arValid := false, mem := u.mem, stale := u.stale, free := u.free, pc := s.behind32 } := by
  obtain ⟨hwords, hbytes, heq⟩ := storeAssoc_results hw hp (Nat.le_refl 16)
  have he := exec_stoar hm hv
  generalize s.storeAssoc 16 = v at he hwords hbytes heq
  refine ⟨_, he, rfl, fun k => (hwords k.val k.isLt).trans ?_, hbytes, ?_⟩
  · rw [List.getD_eq_getElem?_getD, List.getElem?_eq_getElem (by rw [Vector.length_toList]; exact k.isLt)]
    exact Vector.getElem_toList ..
  · exact congrArg (fun v : State => State.next32
      { v with arValid := false, free := s.free + 16, ar := Vector.ofFn fun k => Config.freeWord (s.free + k.val) }) heq

/-! ### Load keys (R212) -/

theorem smallBits_defined : ∀ v : BitVec 2, v ≠ 1 → (smallBits v).isSome = true := by decide

theorem largeBits_defined : ∀ v : BitVec 1, (largeBits (0#1 ++ v)).isSome = true := by decide

theorem keys_large {w : Word} (h : w &&& keysReserved = 0) : (largeBits (keysOfWord w).large).isSome = true := by
  have hbit : bitAt w 32 = false := by
    have h32 := congrArg (bitAt · 32) h
    simp only [bitAt_and] at h32
    rwa [show bitAt keysReserved 32 = true from rfl, Bool.and_true] at h32
  have hfield : field w 32 1 = 0#1 := by
    refine BitVec.eq_of_getLsbD_eq fun i hi => ?_
    obtain rfl : i = 0 := by omega
    rw [field, BitVec.getLsbD_extractLsb']
    exact hbit
  show (largeBits (field w 32 1 ++ field w 48 1)).isSome = true
  rw [hfield]
  exact largeBits_defined _

theorem run32_congr {m n : M Unit} (h : m s = n s) : run32 m s = run32 n s := by
  unfold run32 run
  refine congrArg (settle s) ?_
  show Except.bind (m s) _ = Except.bind (n s) _
  rw [h]

theorem exec_lodkey (hm : s.mode = .monitor) (hv : s.arValid = true) : exec (.lodkey r sd t) s =
    run32 (do
      refuseIf (s.reg r &&& keysReserved != 0 || (keysOfWord (s.reg r)).small == 1) .reservedBitsNonZero
      update fun s => { s with keys := keysOfWord (s.reg r) }.translate sd t) s :=
  run32_congr ((bind_ok (monitorOnly_monitor hm)).trans (bind_ok (refuseIf_false (by rw [hv]; rfl))))

theorem lodkey_refused (hm : s.mode = .monitor) (hv : s.arValid = true) (h : (keysOfWord (s.reg r)).small = 1) :
    exec (.lodkey r sd t) s = .refused .reservedBitsNonZero :=
  (exec_lodkey hm hv).trans (run32_of_error (bind_error (refuseIf_true (by rw [h]; exact Bool.or_true _))))

/-- A state as another one with a register and the program address changed. -/
theorem next32_setReg_eq {p : State} {x : Word} (h : p.pc = s.pc) :
    (p.setReg t x).next32 = { p with regs := (p.setReg t x).next32.regs, pc := s.behind32 } := by
  unfold State.behind32
  rw [← h]
  rfl

theorem pushDown_eq (s : State) (i : Nat) (w : Word) : s.pushDown i w =
    { s with ar := (s.pushDown i w).ar, mem := (s.pushDown i w).mem, stale := (s.pushDown i w).stale } := by
  unfold State.pushDown State.keepStale
  split <;> rfl

theorem pushDown_top (s : State) (i : Nat) (w : Word) : (s.pushDown i w).ar[0] = w := by
  unfold State.pushDown
  simp only [Vector.getElem_ofFn, if_true]

theorem lodkey_result (hm : s.mode = .monitor) (hv : s.arValid = true) (hr : s.reg r &&& keysReserved = 0)
    (hs : (keysOfWord (s.reg r)).small ≠ 1) :
    let v : State := { s with keys := keysOfWord (s.reg r) }
    ∃ u sb lb, exec (.lodkey r sd t) s = .next u ∧ smallBits v.keys.small = some sb ∧ largeBits v.keys.large = some lb ∧
      (∀ n : Byte, n ≠ t → u.reg n = s.reg n) ∧
      match v.search .translate (s.addr sd) sb lb with
      | none => u.reg t = joinLen (lenPart (s.reg sd)) 0 ∧ u = { v with regs := u.regs, pc := s.behind32 }
      | some (h, bits) =>
        u.reg t = joinLen (lenPart (s.reg sd)) (BitVec.ofNat 48 (hitAddress h bits (s.addr sd))) ∧
        u.ar[0] = v.entry h.index ∧
        u = { (v.pushDown h.index (v.entry h.index)) with regs := u.regs, pc := s.behind32 } := by
  intro v
  obtain ⟨sb, hsb⟩ := Option.isSome_iff_exists.mp (smallBits_defined _ hs)
  obtain ⟨lb, hlb⟩ := Option.isSome_iff_exists.mp (keys_large hr)
  have hrun : exec (.lodkey r sd t) s = .next (v.translate sd t).next32 :=
    (exec_lodkey hm hv).trans (run32_of_ok ((bind_ok (refuseIf_false (by rw [hr, beq_false_of_ne hs]; rfl))).trans rfl))
  refine ⟨(v.translate sd t).next32, sb, lb, hrun, hsb, hlb, ?_⟩
  have htr : v.translate sd t = match v.search .translate (s.addr sd) sb lb with
      | some (h, bits) => (v.pushDown h.index (v.entry h.index)).setReg t
          (joinLen (lenPart (s.reg sd)) (BitVec.ofNat 48 (hitAddress h bits (s.addr sd))))
      | none => v.setReg t (joinLen (lenPart (s.reg sd)) 0) := by
    unfold State.translate
    rw [show smallBits v.keys.small = some sb from hsb, show largeBits v.keys.large = some lb from hlb]
    rfl
  rw [htr]
  cases v.search .translate (s.addr sd) sb lb with
  | none => exact ⟨fun n hn => State.setReg_reg_ne v _ hn, State.setReg_reg_self v .., rfl⟩
  | some h =>
    obtain ⟨h, bits⟩ := h
    dsimp only
    have hpush := pushDown_eq v h.index (v.entry h.index)
    have htop := pushDown_top v h.index (v.entry h.index)
    generalize v.pushDown h.index (v.entry h.index) = p at hpush htop
    have hreg (n : Byte) : p.reg n = s.reg n := by
      rw [hpush]
      rfl
    have hpc : p.pc = s.pc := by rw [hpush]
    exact ⟨fun n hn => (State.setReg_reg_ne _ _ hn).trans (hreg n), State.setReg_reg_self .., htop, next32_setReg_eq hpc⟩

end Sys2Proof.Machine

namespace Sys2Proof
open Machine

/-- Settles O24. -/
theorem associativeResults : Obligations.AssociativeResults := fun _ _ _ _ hm =>
  ⟨lodar_result hm, stoar_result hm, fun hv _ hs => lodkey_refused hm hv hs, lodkey_result hm⟩

end Sys2Proof
end

