-- ==== Sys2Proof/Proofs/PackageWords.lean ====
section
/-! PROOFS. What the words of a package hold (spec/60_exceptions.md R641; places are parameters, log entry 9). -/

-- One declaration at a time, as in the tests: many at once need a thread each.
set_option Elab.async false

namespace Sys2Proof.Machine

/-! ### Fields of a stored word -/

theorem keysOfWord_keysWord (k : Keys) : keysOfWord (keysWord k) = k := by
  have hkey (n : Nat) (hn : n < 4) : field (keysWord k) (4 + 16 * n) 12 = k.key[n] := by
    unfold field keysWord
    rcases (by omega : n = 0 ∨ n = 1 ∨ n = 2 ∨ n = 3) with rfl | rfl | rfl | rfl <;> ext i hi <;>
      simp only [BitVec.getElem_extractLsb', BitVec.getLsbD_append] <;> grind
  have hsmall : field (keysWord k) 0 1 ++ field (keysWord k) 16 1 = k.small := by
    unfold field keysWord
    ext i hi
    simp only [BitVec.getElem_append, BitVec.getElem_extractLsb', BitVec.getLsbD_extractLsb', BitVec.getLsbD_append]
    grind
  have hlarge : field (keysWord k) 32 1 ++ field (keysWord k) 48 1 = k.large := by
    unfold field keysWord
    ext i hi
    simp only [BitVec.getElem_append, BitVec.getElem_extractLsb', BitVec.getLsbD_extractLsb', BitVec.getLsbD_append]
    grind
  have hvec : #v[field (keysWord k) 4 12, field (keysWord k) 20 12, field (keysWord k) 36 12, field (keysWord k) 52 12] = k.key := by
    refine Vector.ext fun n hn => ?_
    rcases (by omega : n = 0 ∨ n = 1 ∨ n = 2 ∨ n = 3) with rfl | rfl | rfl | rfl
    · exact hkey 0 hn
    · exact hkey 1 hn
    · exact hkey 2 hn
    · exact hkey 3 hn
  unfold keysOfWord
  rw [hsmall, hlarge, hvec]

section
variable (d : Domain)

theorem field_word_stackIndex : field d.word 0 13 = d.stackIndex := by
  unfold field Domain.word
  ext i hi
  simp only [BitVec.getElem_extractLsb', BitVec.getLsbD_append]
  grind

theorem field_word_stackLimit : field d.word 16 13 = d.stackLimit := by
  unfold field Domain.word
  ext i hi
  simp only [BitVec.getElem_extractLsb', BitVec.getLsbD_append]
  grind

theorem field_word_prev : field d.word 32 7 = d.prev := by
  unfold field Domain.word
  ext i hi
  simp only [BitVec.getElem_extractLsb', BitVec.getLsbD_append]
  grind

theorem field_word_cur : field d.word 48 7 = d.cur := by
  unfold field Domain.word
  ext i hi
  simp only [BitVec.getElem_extractLsb', BitVec.getLsbD_append]
  grind

end

theorem bitAt_ebcdic (b : Bool) (v : Half) : bitAt (BitVec.ofBool b ++ 0#31 ++ v) 0 = b := by
  unfold bitAt
  rw [BitVec.getMsbD_eq_getLsbD]
  simp only [BitVec.getLsbD_append]
  cases b <;> rfl

theorem joined_changeMask (m : BitVec 128) : (m.extractLsb' 64 64 ++ m.extractLsb' 0 64 : BitVec 128) = m :=
  BitVec.extractLsb'_append_extractLsb' (w := 64) (len := 64)

end Sys2Proof.Machine
end

