-- ==== Sys2Proof/Proofs/Exchanges.lean ====
section
/-! PROOFS. The exchanges between Job and Monitor mode (spec/60_exceptions.md R641, R642; spec/41_monitor_system.md R207). -/

-- One declaration at a time, as in the tests: many at once need a thread each.
set_option Elab.async false

namespace Sys2Proof.Machine

variable {s : State}

/-! ### Areas that do not overlap -/

/-- The distance upwards from one address to another in a memory that wraps. -/
theorem distance_mod {m a b : Nat} (hm : 0 < m) : (b + m - a % m) % m = (b % m + m - a % m) % m := by
  have ha := Nat.mod_lt a hm
  have hb := Nat.div_add_mod b m
  rw [show b + m - a % m = b % m + m - a % m + m * (b / m) by omega, Nat.add_mul_mod_self_left]

/-- Two areas that do not overlap share no address. -/
theorem fieldsOverlap_false {m a la b lb : Nat} (h : fieldsOverlap m a la b lb = false) (hm : 0 < m) {i j : Nat} (hi : i < la)
    (hj : j < lb) : (a + i) % m ≠ (b + j) % m := by
  unfold fieldsOverlap at h
  rw [Bool.or_eq_false_iff, decide_eq_false_iff_not, decide_eq_false_iff_not, distance_mod (a := a) (b := b) hm,
    distance_mod (a := b) (b := a) hm] at h
  obtain ⟨h1, h2⟩ := h
  rw [← Nat.mod_add_mod a m i, ← Nat.mod_add_mod b m j]
  have ha := Nat.mod_lt a hm
  have hb := Nat.mod_lt b hm
  generalize a % m = x at *
  generalize b % m = y at *
  rw [mod_below_twice (x := y + m - x) (by omega)] at h1
  rw [mod_below_twice (x := x + m - y) (by omega)] at h2
  intro he
  rw [mod_below_twice (by split at h1 <;> omega), mod_below_twice (by split at h2 <;> omega)] at he
  split at h1 <;> split at h2 <;> split at he <;> split at he <;> omega

/-! ### The words of a package -/

theorem Params.package_fits {p : Params} (h : p.ok = true) : 64 * p.layout.size ≤ 2 ^ p.cpmLog := by
  unfold Params.ok at h
  simp only [Bool.and_eq_true, decide_eq_true_eq] at h
  exact h.2.2

theorem Params.package_words {p : Params} (h : p.ok = true) : p.layout.pWord < p.layout.size ∧ p.layout.bkptWord < p.layout.size ∧
    p.layout.keysWord < p.layout.size ∧ p.layout.iimWord < p.layout.size ∧ 4 < p.layout.size ∧ p.layout.jitWord < p.layout.size ∧
    p.layout.domWord < p.layout.size ∧ p.layout.maskWord + 1 < p.layout.size ∧ p.layout.blapWord + 7 < p.layout.size ∧
    p.layout.icWord + 7 < p.layout.size := by
  unfold Params.ok at h
  simp only [Bool.and_eq_true, List.all_cons, List.all_nil, decide_eq_true_eq, and_true] at h
  exact h.2.1.2

/-- The words of a package that a stored package holds, its counters aside. -/
def rightsAt (l : Layout) : List Nat :=
  [l.maskWord, l.maskWord + 1, l.blapWord, l.blapWord + 1, l.blapWord + 2, l.blapWord + 3, l.blapWord + 4, l.blapWord + 5,
   l.blapWord + 6, l.blapWord + 7]

/-- The words of the instrumentation counters. -/
def countersAt (l : Layout) : List Nat := (List.finRange 8).map fun k => l.icWord + k.val

theorem Params.words_nodup {p : Params} (h : p.ok = true) :
    ([p.layout.pWord, p.layout.bkptWord] ++ ([p.layout.keysWord, p.layout.iimWord] ++ [4, p.layout.jitWord, p.layout.domWord]) ++
      rightsAt p.layout ++ countersAt p.layout).Nodup := by
  unfold Params.ok at h
  simp only [Bool.and_eq_true, decide_eq_true_eq] at h
  exact h.2.1.1

theorem invisibleWords_nodup (hp : s.params.ok = true) (saved : Addr) : ((s.invisibleWords saved).map Prod.fst).Nodup := by
  have h := (List.nodup_append.mp (Params.words_nodup hp)).1
  exact ((List.perm_append_comm.append_left _).append_right _).nodup_iff.mp h

theorem invisibleWords_lt (hp : s.params.ok = true) (saved : Addr) : ∀ p ∈ s.invisibleWords saved, p.1 < s.params.layout.size := by
  obtain ⟨_, _, _, _, _, _, _, _, _, _⟩ := Params.package_words hp
  simp only [State.invisibleWords, State.rightsWords, Layout.dfrWord, List.cons_append, List.nil_append, List.forall_mem_cons]
  refine ⟨?_, ?_, ?_, ?_, ?_, ?_, ?_, ?_, ?_, ?_, ?_, ?_, ?_, ?_, ?_, ?_, ?_, fun _ h => absurd h List.not_mem_nil⟩ <;> omega

/-! ### What the exchange to Monitor mode stores (R642) -/

theorem storeAll_append (l k : List (Nat × Word)) : ∀ s : State, s.storeAll (l ++ k) = (s.storeAll l).storeAll k := by
  induction l with
  | nil => exact fun _ => rfl
  | cons p l ih => exact fun s => ih _

theorem storeAll_params (l : List (Nat × Word)) : (s.storeAll l).params = s.params := by rw [storeAll_eq]

theorem storeAll_regs (l : List (Nat × Word)) : (s.storeAll l).regs = s.regs := by rw [storeAll_eq]

/-- The words of the job's register file by their addresses. -/
def State.jobFile (s : State) : List (Nat × Word) :=
  if s.jobRF = 0 then [] else fileAt s.jobRF.toNat (fun k => s.reg (BitVec.ofNat 8 k)) 256

/-- What an exchange to Monitor mode stores. -/
def State.savedWords (s : State) (saved : Addr) : List (Nat × Word) := packageAt s.invPkg (s.invisibleWords saved) ++ s.jobFile

/-- The state with a job's words stored, and the Monitor's registers loaded. -/
def State.monitorLoaded (s : State) (saved : Addr) : State :=
  if s.jobRF = 0 then s.storeAll (s.savedWords saved) else (s.storeAll (s.savedWords saved)).loadRegs 0

theorem monitorLoaded_eq (s : State) (saved : Addr) : s.monitorLoaded saved = { s with
    mem := (s.storeAll (s.savedWords saved)).mem, stale := (s.storeAll (s.savedWords saved)).stale,
    regs := (s.monitorLoaded saved).regs } := by
  unfold State.monitorLoaded
  rw [storeAll_eq]
  split <;> rfl

theorem toMonitor_monitorLoaded (s : State) (saved : Addr) : s.toMonitor saved =
    ((({ s.monitorLoaded saved with bkpt := 0, mode := .monitor, link := .none } : State).setDfr 0).voidStack).goto
      ((s.monitorLoaded saved).addr 3) := by
  have hload : (if (s.storePkg s.invPkg (s.invisibleWords saved)).jobRF = 0 then s.storePkg s.invPkg (s.invisibleWords saved) else
      ((s.storePkg s.invPkg (s.invisibleWords saved)).storeRegs (s.storePkg s.invPkg (s.invisibleWords saved)).jobRF.toNat
        256).loadRegs 0) = s.monitorLoaded saved := by
    have hrf : (s.storePkg s.invPkg (s.invisibleWords saved)).jobRF = s.jobRF := by rw [storePkg_eq]
    have hreg (n : Byte) : (s.storePkg s.invPkg (s.invisibleWords saved)).reg n = s.reg n := by rw [storePkg_eq]; rfl
    unfold State.monitorLoaded State.savedWords State.jobFile
    rw [hrf, storeAll_append]
    split
    · rw [storePkg_storeAll]; rfl
    · rw [storeRegs_storeAll]
      simp only [hreg]
      rw [storePkg_storeAll]
  unfold State.toMonitor
  dsimp only
  rw [hload]
  rfl

theorem toMonitor_eq (s : State) (saved : Addr) : s.toMonitor saved =
    { s with mode := .monitor, dfr := 0, bkpt := 0, stale := [], link := .none, pc := halfAligned ((s.monitorLoaded saved).addr 3),
             regs := (s.monitorLoaded saved).regs, mem := (s.storeAll (s.savedWords saved)).mem } := by
  have h0 : deriveDfr 0 = 0 := by decide
  rw [toMonitor_monitorLoaded]
  generalize hu : (s.monitorLoaded saved).addr 3 = a
  rw [monitorLoaded_eq]
  unfold State.goto State.voidStack State.setDfr
  rw [h0]

section
variable (hp : s.params.ok = true) (hpkg : s.invPkg.toNat % 64 = 0) (hrf : s.jobRF.toNat % 64 = 0)
include hpkg hrf

theorem savedWords_aligned (saved : Addr) : ∀ p ∈ s.savedWords saved, p.1 % 64 = 0 := by
  intro p h
  rcases List.mem_append.mp h with h | h
  · obtain ⟨q, -, rfl⟩ := mem_packageAt.mp h
    dsimp only
    omega
  · unfold State.jobFile at h
    split at h
    · exact absurd h List.not_mem_nil
    · obtain ⟨k, -, rfl⟩ := mem_fileAt.mp h
      dsimp only
      omega

end

theorem packageApart {rf pkg : Addr} (ho : s.packagesOverlap rf pkg = false) :
    fieldsOverlap (2 ^ s.params.cpmLog) 0 0x4000 pkg.toNat (64 * s.params.layout.size) = false := by
  unfold State.packagesOverlap at ho
  exact (Bool.or_eq_false_iff.mp ho).1

theorem filesApart {rf pkg : Addr} (ho : s.packagesOverlap rf pkg = false) (hrf : rf ≠ 0) :
    fieldsOverlap (2 ^ s.params.cpmLog) rf.toNat 0x4000 pkg.toNat (64 * s.params.layout.size) = false ∧
    fieldsOverlap (2 ^ s.params.cpmLog) 0 0x4000 rf.toNat 0x4000 = false := by
  unfold State.packagesOverlap at ho
  have h := (Bool.or_eq_false_iff.mp ho).2
  rw [bne_iff_ne.mpr hrf, Bool.true_and] at h
  exact Bool.or_eq_false_iff.mp h

section
variable (hp : s.params.ok = true) (ho : s.packagesOverlap s.jobRF s.invPkg = false)
include hp ho

/-- The words saved are different words. -/
theorem savedWords_pairwise (saved : Addr) : (s.savedWords saved).Pairwise fun p q => s.wrap p.1 ≠ s.wrap q.1 := by
  have hm := Nat.two_pow_pos s.params.cpmLog
  have hlt := invisibleWords_lt hp saved
  have hpack : (packageAt s.invPkg (s.invisibleWords saved)).Pairwise fun p q => s.wrap p.1 ≠ s.wrap q.1 :=
    packageAt_pairwise (Params.package_fits hp) hlt (invisibleWords_nodup hp saved)
  unfold State.savedWords State.jobFile
  split
  · rwa [List.append_nil]
  next hrf =>
    obtain ⟨h15, -⟩ := Params.cpmLog_range hp
    have hfit : 64 * 256 ≤ 2 ^ s.params.cpmLog := Nat.le_trans (by decide) (Nat.pow_le_pow_right (by decide) h15)
    refine List.pairwise_append.mpr ⟨hpack, fileAt_pairwise hfit, fun p h1 q h2 => ?_⟩
    obtain ⟨r, hr, rfl⟩ := mem_packageAt.mp h1
    obtain ⟨k, hk, rfl⟩ := mem_fileAt.mp h2
    have := hlt r hr
    exact (fieldsOverlap_false (filesApart ho hrf).1 hm (by omega) (by omega)).symm

/-- None of them is a word of the Monitor's register file. -/
theorem savedWords_high (saved : Addr) {n : Nat} (hn : n < 256) : ∀ p ∈ s.savedWords saved, s.wrap p.1 ≠ s.wrap (64 * n) := by
  have hm := Nat.two_pow_pos s.params.cpmLog
  intro p h
  unfold State.wrap
  rw [show 64 * n = 0 + 64 * n by omega]
  rcases List.mem_append.mp h with h | h
  · obtain ⟨q, hq, rfl⟩ := mem_packageAt.mp h
    have := invisibleWords_lt hp saved q hq
    exact (fieldsOverlap_false (packageApart ho) hm (by omega) (by omega)).symm
  · unfold State.jobFile at h
    split at h
    · exact absurd h List.not_mem_nil
    next hrf =>
      obtain ⟨k, hk, rfl⟩ := mem_fileAt.mp h
      exact (fieldsOverlap_false (filesApart ho hrf).2 hm (by omega) (by omega)).symm

end

theorem absWord_congr {s t : State} (hm : t.mem = s.mem) (hp : t.params = s.params) (a : Nat) : t.absWord a = s.absWord a := by
  unfold State.absWord State.wrap
  rw [hm, hp]

theorem toMonitor_absWord (s : State) (saved : Addr) (a : Nat) :
    (s.toMonitor saved).absWord a = (s.storeAll (s.savedWords saved)).absWord a :=
  absWord_congr (by rw [toMonitor_eq]) (by rw [toMonitor_eq, storeAll_params]) a

theorem toMonitor_regs_none (hrf : s.jobRF = 0) (saved : Addr) : (s.toMonitor saved).regs = s.regs := by
  rw [toMonitor_eq]
  show (s.monitorLoaded saved).regs = s.regs
  unfold State.monitorLoaded
  rw [if_pos hrf, storeAll_regs]

theorem loadRegs_reg (s : State) (a : Nat) (n : Byte) : (s.loadRegs a).reg n = s.absWord (a + 64 * n.toNat) := by
  unfold State.loadRegs State.reg
  exact Vector.getElem_ofFn _

section
variable (hw : Memory.wf s.mem = true) (hp : s.params.ok = true) (hpkg : s.invPkg.toNat % 64 = 0) (hrf : s.jobRF.toNat % 64 = 0)
  (ho : s.packagesOverlap s.jobRF s.invPkg = false)
include hw hp hpkg hrf ho

/-- Each word saved stands at its address after the exchange. -/
theorem toMonitor_saved (saved : Addr) : ∀ p ∈ s.savedWords saved, (s.toMonitor saved).absWord p.1 = p.2 := fun p h =>
  (toMonitor_absWord s saved p.1).trans
    (absWord_storeAll_mem _ hw hp (savedWords_aligned hpkg hrf saved) (savedWords_pairwise hp ho saved) p h)

theorem toMonitor_package (saved : Addr) :
    ∀ p ∈ s.invisibleWords saved, (s.toMonitor saved).pkgWord s.invPkg p.1 = p.2 := fun p h =>
  toMonitor_saved hw hp hpkg hrf ho saved (s.invPkg.toNat + 64 * p.1, p.2)
    (List.mem_append_left _ (mem_packageAt.mpr ⟨p, h, rfl⟩))

theorem toMonitor_file (hne : s.jobRF ≠ 0) (saved : Addr) (n : Byte) :
    (s.toMonitor saved).absWord (s.jobRF.toNat + 64 * n.toNat) = s.reg n := by
  refine toMonitor_saved hw hp hpkg hrf ho saved (s.jobRF.toNat + 64 * n.toNat, s.reg n) (List.mem_append_right _ ?_)
  unfold State.jobFile
  rw [if_neg hne]
  exact mem_fileAt.mpr ⟨n.toNat, n.isLt, by rw [BitVec.ofNat_toNat, BitVec.setWidth_eq]⟩

/-- The Monitor's registers stay in memory. -/
theorem toMonitor_low (saved : Addr) (n : Byte) : (s.toMonitor saved).absWord (64 * n.toNat) = s.absWord (64 * n.toNat) :=
  (toMonitor_absWord s saved _).trans (absWord_storeAll_out _ hw hp fun p h =>
    ⟨(savedWords_aligned hpkg hrf saved p h).trans (Nat.mul_mod_right 64 _).symm, savedWords_high hp ho saved n.isLt p h⟩)

theorem toMonitor_reg (hne : s.jobRF ≠ 0) (saved : Addr) (n : Byte) : (s.toMonitor saved).reg n = s.absWord (64 * n.toNat) := by
  have hload : (s.toMonitor saved).reg n = ((s.storeAll (s.savedWords saved)).loadRegs 0).reg n := by
    rw [toMonitor_eq]
    unfold State.reg State.monitorLoaded
    rw [if_neg hne]
  rw [hload, loadRegs_reg, Nat.zero_add, ← toMonitor_absWord]
  exact toMonitor_low hw hp hpkg hrf ho saved n

end

/-- Every other byte of memory is as before the exchange. -/
theorem byte_toMonitor_out (hw : Memory.wf s.mem = true) (saved : Addr) {b : Nat}
    (hpack : ∀ p ∈ s.invisibleWords saved, ¬ s.inAbsWord (s.invPkg.toNat + 64 * p.1) b)
    (hfile : s.jobRF = 0 ∨ ∀ n : Byte, ¬ s.inAbsWord (s.jobRF.toNat + 64 * n.toNat) b) :
    Memory.byte (s.toMonitor saved).mem b = Memory.byte s.mem b := by
  rw [toMonitor_eq]
  refine byte_storeAll_out _ hw fun p h => ?_
  rcases List.mem_append.mp h with h | h
  · obtain ⟨q, hq, rfl⟩ := mem_packageAt.mp h
    exact hpack q hq
  · unfold State.jobFile at h
    split at h
    · exact absurd h List.not_mem_nil
    next hne =>
      obtain ⟨k, hk, rfl⟩ := mem_fileAt.mp h
      have := (hfile.resolve_left hne) (BitVec.ofNat 8 k)
      rwa [BitVec.toNat_ofNat, Nat.mod_eq_of_lt hk] at this

/-! ### The exchange to Job mode (R641) -/

/-- What an exchange to Job mode with a job register file stores: the Monitor's registers from address 0 on. -/
def State.monitorFile (s : State) (rf : Addr) : List (Nat × Word) :=
  if rf = 0 then [] else fileAt 0 (fun k => s.reg (BitVec.ofNat 8 k)) 256

/-- The state with the Monitor's registers stored, and a job's registers loaded. -/
def State.jobLoaded (s : State) (rf pkg : Addr) : State :=
  if rf = 0 then { s with jobRF := rf, invPkg := pkg } else
    (State.storeAll { s with jobRF := rf, invPkg := pkg } (s.monitorFile rf)).loadRegs rf.toNat

theorem setAbsWord_params (s : State) (a : Nat) (v : Word) : (s.setAbsWord a v).params = s.params := by rw [setAbsWord_eq]

theorem storeAll_congr (l : List (Nat × Word)) : ∀ {s t : State}, t.mem = s.mem → t.params = s.params →
    (t.storeAll l).mem = (s.storeAll l).mem := by
  induction l with
  | nil => exact fun h _ => h
  | cons p l ih =>
    intro s t hm hp
    refine ih ?_ (by rw [setAbsWord_params, setAbsWord_params, hp])
    rw [setAbsWord_mem, setAbsWord_mem, State.wrap_congr hp, hm]

theorem jobLoaded_eq (s : State) (rf pkg : Addr) : s.jobLoaded rf pkg = { s with
    jobRF := rf, invPkg := pkg, mem := (s.storeAll (s.monitorFile rf)).mem, stale := (s.jobLoaded rf pkg).stale,
    regs := (s.jobLoaded rf pkg).regs } := by
  unfold State.jobLoaded State.monitorFile
  split
  · rfl
  · generalize fileAt 0 (fun k => s.reg (BitVec.ofNat 8 k)) 256 = l
    have hm := storeAll_congr l (s := s) (t := { s with jobRF := rf, invPkg := pkg }) rfl rfl
    rw [storeAll_eq, hm]
    rfl

theorem toJob_jobLoaded (s : State) (rf pkg : Addr) :
    s.toJob rf pkg = State.voidStack { (s.jobLoaded rf pkg).loadInvisible pkg with mode := .job } := by
  have hload : (if rf = 0 then ({ s with jobRF := rf, invPkg := pkg } : State) else
      (State.storeRegs { s with jobRF := rf, invPkg := pkg } 0 256).loadRegs rf.toNat) = s.jobLoaded rf pkg := by
    unfold State.jobLoaded State.monitorFile
    split
    · rfl
    · rw [storeRegs_storeAll]
      rfl
  unfold State.toJob
  dsimp only
  rw [hload]

/-- The four BLAPs of a domain. -/
def fourBlaps (b c d e : Blap) : Vector Blap 4 := #v[b, c, d, e]

/-- The domain registers that a package holds. -/
def State.packageDomain (s : State) (pkg : Addr) : Domain :=
  { stackIndex := field (s.pkgWord pkg s.params.layout.domWord) 0 13
    stackLimit := field (s.pkgWord pkg s.params.layout.domWord) 16 13
    prev := field (s.pkgWord pkg s.params.layout.domWord) 32 7
    cur := field (s.pkgWord pkg s.params.layout.domWord) 48 7
    ebcdic := bitAt (s.pkgWord pkg s.params.layout.jitWord) 0
    iim := leftHalf (s.pkgWord pkg s.params.layout.iimWord)
    changeMask := s.pkgWord pkg s.params.layout.maskWord ++ s.pkgWord pkg (s.params.layout.maskWord + 1)
    blaps := fourBlaps
      (blapOfWords (s.pkgWord pkg s.params.layout.blapWord) (s.pkgWord pkg (s.params.layout.blapWord + 1)))
      (blapOfWords (s.pkgWord pkg (s.params.layout.blapWord + 2)) (s.pkgWord pkg (s.params.layout.blapWord + 3)))
      (blapOfWords (s.pkgWord pkg (s.params.layout.blapWord + 4)) (s.pkgWord pkg (s.params.layout.blapWord + 5)))
      (blapOfWords (s.pkgWord pkg (s.params.layout.blapWord + 6)) (s.pkgWord pkg (s.params.layout.blapWord + 7))) }

/-- The process status that package `pkg` of state `m` holds, in `s`. -/
def State.withPackage (s m : State) (pkg : Addr) : State :=
  { s with
    pc := halfAligned (addrPart (m.pkgWord pkg m.params.layout.pWord))
    dfr := deriveDfr (m.pkgWord pkg Layout.dfrWord)
    bkpt := m.pkgWord pkg m.params.layout.bkptWord
    jit := rightHalf (m.pkgWord pkg m.params.layout.jitWord)
    keys := keysOfWord (m.pkgWord pkg m.params.layout.keysWord)
    dom := m.packageDomain pkg }

theorem loadInvisible_eq (s : State) (pkg : Addr) : s.loadInvisible pkg = s.withPackage s pkg := rfl

section
variable {m n : State} {pkg : Addr} (hp : n.params = m.params) (hok : m.params.ok = true)
  (h : ∀ k, k < m.params.layout.size → n.pkgWord pkg k = m.pkgWord pkg k)
include hp hok h

theorem packageDomain_congr : n.packageDomain pkg = m.packageDomain pkg := by
  obtain ⟨_, _, _, _, _, _, _, _, _, _⟩ := Params.package_words hok
  unfold State.packageDomain
  rw [hp, h m.params.layout.domWord (by omega), h m.params.layout.jitWord (by omega), h m.params.layout.iimWord (by omega),
    h m.params.layout.maskWord (by omega), h (m.params.layout.maskWord + 1) (by omega), h m.params.layout.blapWord (by omega),
    h (m.params.layout.blapWord + 1) (by omega), h (m.params.layout.blapWord + 2) (by omega),
    h (m.params.layout.blapWord + 3) (by omega), h (m.params.layout.blapWord + 4) (by omega),
    h (m.params.layout.blapWord + 5) (by omega), h (m.params.layout.blapWord + 6) (by omega),
    h (m.params.layout.blapWord + 7) (by omega)]

theorem withPackage_congr (s : State) : s.withPackage n pkg = s.withPackage m pkg := by
  obtain ⟨_, _, _, _, hdfr, _, _, _, _, _⟩ := Params.package_words hok
  unfold State.withPackage
  rw [packageDomain_congr hp hok h, hp, h m.params.layout.pWord (by omega), h Layout.dfrWord hdfr,
    h m.params.layout.bkptWord (by omega), h m.params.layout.jitWord (by omega), h m.params.layout.keysWord (by omega)]

end

section
variable {rf pkg : Addr} (hw : Memory.wf s.mem = true) (hp : s.params.ok = true) (hpkg : pkg.toNat % 64 = 0)
  (hrf : rf.toNat % 64 = 0) (ho : s.packagesOverlap rf pkg = false)

theorem monitorFile_aligned : ∀ p ∈ s.monitorFile rf, p.1 % 64 = 0 := by
  intro p h
  unfold State.monitorFile at h
  split at h
  · exact absurd h List.not_mem_nil
  · obtain ⟨k, -, rfl⟩ := mem_fileAt.mp h
    dsimp only
    omega

include hp in
theorem monitorFile_pairwise : (s.monitorFile rf).Pairwise fun p q => s.wrap p.1 ≠ s.wrap q.1 := by
  obtain ⟨h15, -⟩ := Params.cpmLog_range hp
  unfold State.monitorFile
  split
  · exact List.Pairwise.nil
  · exact fileAt_pairwise (Nat.le_trans (by decide) (Nat.pow_le_pow_right (by decide) h15))

include hw hp in
/-- A word that is apart from the Monitor's register file. -/
theorem absWord_monitorFile_out {b : Nat} (hb : b % 64 = 0)
    (h : ∀ k, k < 256 → s.wrap (64 * k) ≠ s.wrap b) : (s.storeAll (s.monitorFile rf)).absWord b = s.absWord b := by
  refine absWord_storeAll_out _ hw hp fun p h' => ⟨(monitorFile_aligned p h').trans hb.symm, ?_⟩
  unfold State.monitorFile at h'
  split at h'
  · exact absurd h' List.not_mem_nil
  · obtain ⟨k, hk, rfl⟩ := mem_fileAt.mp h'
    rw [Nat.zero_add]
    exact h k hk

theorem jobLoaded_absWord (a : Nat) : (s.jobLoaded rf pkg).absWord a = (s.storeAll (s.monitorFile rf)).absWord a :=
  absWord_congr (by rw [jobLoaded_eq]) (by rw [jobLoaded_eq, storeAll_params]) a

include hw hp hpkg ho in
theorem jobLoaded_pkgWord {n : Nat} (hn : n < s.params.layout.size) : (s.jobLoaded rf pkg).pkgWord pkg n = s.pkgWord pkg n := by
  refine (jobLoaded_absWord _).trans (absWord_monitorFile_out hw hp (by omega) fun k hk => ?_)
  have := fieldsOverlap_false (packageApart ho) (Nat.two_pow_pos _) (show 64 * k < 0x4000 by omega) (show 64 * n < 64 * s.params.layout.size by omega)
  rwa [Nat.zero_add] at this

include hw hp hpkg ho in
theorem toJob_eq : s.toJob rf pkg =
    { s.withPackage s pkg with mode := .job, jobRF := rf, invPkg := pkg, stale := [], regs := (s.jobLoaded rf pkg).regs,
                               mem := (s.storeAll (s.monitorFile rf)).mem } := by
  have hpar : (s.jobLoaded rf pkg).params = s.params := by rw [jobLoaded_eq]
  rw [toJob_jobLoaded, loadInvisible_eq, withPackage_congr hpar hp fun k hk => jobLoaded_pkgWord hw hp hpkg ho hk]
  conv => lhs; rw [jobLoaded_eq]
  rfl

theorem jobLoaded_regs_none (h : rf = 0) : (s.jobLoaded rf pkg).regs = s.regs := by
  unfold State.jobLoaded
  rw [if_pos h]

include hw hp hrf ho in
theorem jobLoaded_reg (h : rf ≠ 0) (n : Byte) : (s.jobLoaded rf pkg).reg n = s.absWord (rf.toNat + 64 * n.toNat) := by
  have hout : (s.jobLoaded rf pkg).absWord (rf.toNat + 64 * n.toNat) = s.absWord (rf.toNat + 64 * n.toNat) := by
    refine (jobLoaded_absWord _).trans (absWord_monitorFile_out hw hp (by omega) fun k hk => ?_)
    have := fieldsOverlap_false (filesApart ho h).2 (Nat.two_pow_pos _) (show 64 * k < 0x4000 by omega)
      (show 64 * n.toNat < 0x4000 by omega)
    rwa [Nat.zero_add] at this
  rw [← hout]
  unfold State.jobLoaded
  rw [if_neg h, loadRegs_reg]
  exact (absWord_congr (State.loadRegs_mem _ _) (State.loadRegs_params _ _) _).symm

include hw hp in
theorem monitorFile_stored (h : rf ≠ 0) (n : Byte) : (s.storeAll (s.monitorFile rf)).absWord (64 * n.toNat) = s.reg n := by
  refine absWord_storeAll_mem _ hw hp monitorFile_aligned (monitorFile_pairwise hp) (64 * n.toNat, s.reg n) ?_
  unfold State.monitorFile
  rw [if_neg h]
  exact mem_fileAt.mpr ⟨n.toNat, n.isLt, by rw [BitVec.ofNat_toNat, BitVec.setWidth_eq, Nat.zero_add]⟩

include hw hp in
theorem byte_monitorFile_out {b : Nat} (hb : 0x800 ≤ b) : Memory.byte (s.storeAll (s.monitorFile rf)).mem b = Memory.byte s.mem b := by
  obtain ⟨h15, -⟩ := Params.cpmLog_range hp
  have hfit : 2 ^ 15 ≤ 2 ^ s.params.cpmLog := Nat.pow_le_pow_right (by decide) h15
  refine byte_storeAll_out _ hw fun p h => ?_
  unfold State.monitorFile at h
  split at h
  · exact absurd h List.not_mem_nil
  · obtain ⟨k, hk, rfl⟩ := mem_fileAt.mp h
    unfold State.inAbsWord State.wrap
    rw [Nat.mod_eq_of_lt (by omega)]
    omega

end

/-! ### #09 in Monitor mode (R207) -/

theorem exchangeToJob_ok {rf pkg : Addr} (hf : s.faultTest = 0) (hv : s.arValid = true) (hrf : rf.toNat % 4096 = 0)
    (hpkg : pkg.toNat % 4096 = 0) (hr : rf = 0 ∨ 0x4000 ≤ rf.toNat) (ho : s.packagesOverlap rf pkg = false)
    (hs : s.storageOverlaps rf pkg = false) : exchangeToJob rf pkg s = .ok ((), s.toJob rf pkg) := by
  have hlow : ¬ ((rf ≠ 0 ∧ rf.toNat < 0x4000) ∨ s.packagesOverlap rf pkg = true ∨ s.storageOverlaps rf pkg = true) := by
    rw [ho, hs]
    rintro (⟨h1, h2⟩ | h | h)
    · exact hr.elim h1 (Nat.not_le.mpr h2)
    · exact Bool.false_ne_true h
    · exact Bool.false_ne_true h
  rw [exchangeToJob_loaded hf hv, if_neg (Classical.not_not.mpr ⟨hrf, hpkg⟩), if_neg hlow]

theorem exec_exit_exchange {sd t : Byte} (hm : s.mode = .monitor) {u : State}
    (h : exchangeToJob (if sd = 0 then 0 else s.addr sd) (s.addr t) s = .ok ((), u)) : exec (.exit 0 sd t) s = .next u := by
  rw [exec_exit_monitor hm]
  exact congrArg (settle s) h

/-! ### The two exchanges in a row -/

theorem fourBlaps_eta (v : Vector Blap 4) : fourBlaps v[0] v[1] v[2] v[3] = v :=
  Vector.ext fun k hk => by
    rcases (by omega : k = 0 ∨ k = 1 ∨ k = 2 ∨ k = 3) with rfl | rfl | rfl | rfl <;> rfl

/-- A package that holds what an exchange to Monitor mode stores gives the domain registers back. -/
theorem packageDomain_of_saved {m : State} {saved : Addr} (hp : m.params = s.params) {pkg : Addr}
    (h : ∀ p ∈ s.invisibleWords saved, m.pkgWord pkg p.1 = p.2) : m.packageDomain pkg = s.dom := by
  simp only [State.invisibleWords, State.rightsWords, List.cons_append, List.nil_append, List.forall_mem_cons] at h
  obtain ⟨-, -, -, hjit, hdom, -, hiim, hmask, hmask', h0, h1, h2, h3, h4, h5, h6, h7, -⟩ := h
  unfold State.packageDomain
  rw [hp, hjit, hdom, hiim, hmask, hmask', h0, h1, h2, h3, h4, h5, h6, h7, field_word_stackIndex, field_word_stackLimit,
    field_word_prev, field_word_cur, bitAt_ebcdic, leftHalf_append, joined_changeMask, blapOfWords_words, blapOfWords_words,
    blapOfWords_words, blapOfWords_words, fourBlaps_eta]

/-- And the other process status registers. -/
theorem withPackage_of_saved {m : State} {saved : Addr} (hp : m.params = s.params) {pkg : Addr}
    (h : ∀ p ∈ s.invisibleWords saved, m.pkgWord pkg p.1 = p.2) (u : State) : u.withPackage m pkg =
      { u with pc := halfAligned saved, dfr := deriveDfr s.dfr, bkpt := s.bkpt, jit := s.jit, keys := s.keys, dom := s.dom } := by
  have hd := packageDomain_of_saved hp h
  simp only [State.invisibleWords, State.rightsWords, List.cons_append, List.nil_append, List.forall_mem_cons] at h
  obtain ⟨hpc, hbkpt, hdfr, hjit, -, hkeys, -⟩ := h
  unfold State.withPackage
  rw [hd, hp, hpc, hbkpt, hdfr, hjit, hkeys, addrPart_joinLen, rightHalf_append, keysOfWord_keysWord]

theorem regs_ext {s t : State} (h : ∀ n, t.reg n = s.reg n) : t.regs = s.regs :=
  Vector.ext fun k hk => by
    have := h (BitVec.ofNat 8 k)
    unfold State.reg at this
    simpa [Nat.mod_eq_of_lt hk] using this

/-- The job's registers, stored and loaded again. -/
theorem roundTrip_regs (hw : Memory.wf s.mem = true) (hp : s.params.ok = true) (hpkg : s.invPkg.toNat % 64 = 0)
    (hrf : s.jobRF.toNat % 64 = 0) (ho : s.packagesOverlap s.jobRF s.invPkg = false) (saved : Addr) {m : State}
    (hm : m = s.toMonitor saved) (hmw : Memory.wf m.mem = true) (hmp : m.params = s.params) :
    (m.jobLoaded s.jobRF s.invPkg).regs = s.regs := by
  have hmo : m.packagesOverlap s.jobRF s.invPkg = false := by
    unfold State.packagesOverlap
    rw [hmp]
    exact ho
  by_cases hne : s.jobRF = 0
  · rw [jobLoaded_regs_none hne, hm]
    exact toMonitor_regs_none hne saved
  · refine regs_ext fun n => ?_
    rw [jobLoaded_reg hmw (by rw [hmp]; exact hp) hrf hmo hne, hm]
    exact toMonitor_file hw hp hpkg hrf ho hne saved n

theorem fourBlaps_word (w : Nat → Word) (b : Nat) (k : Fin 4) :
    (fourBlaps (blapOfWords (w b) (w (b + 1))) (blapOfWords (w (b + 2)) (w (b + 3))) (blapOfWords (w (b + 4)) (w (b + 5)))
      (blapOfWords (w (b + 6)) (w (b + 7))))[k] = blapOfWords (w (b + 2 * k.val)) (w (b + 2 * k.val + 1)) := by
  obtain ⟨k, hk⟩ := k
  rcases (by omega : k = 0 ∨ k = 1 ∨ k = 2 ∨ k = 3) with rfl | rfl | rfl | rfl <;> rfl

end Sys2Proof.Machine

namespace Sys2Proof
open Machine

/-- Settles O11: the words saved are different words and none of the Monitor's register file. -/
theorem jobToMonitorExchange : Obligations.JobToMonitorExchange := by
  unfold Obligations.JobToMonitorExchange
  intro s saved hw hp hpkg hrf ho t
  have ht : t = s.toMonitor saved := rfl
  have hpack := toMonitor_package hw hp hpkg hrf ho saved
  have heq := toMonitor_eq s saved
  rw [← ht] at hpack heq
  have hpc : t.pc = halfAligned (t.addr 3) := by
    rw [heq]
    rfl
  refine ⟨by rw [heq], by rw [heq], by rw [heq], by rw [heq], by rw [heq], hpc, hpack (s.params.layout.pWord, joinLen 0 saved) List.mem_cons_self,
    hpack (Layout.dfrWord, s.dfr) ?_, hpack, fun h => toMonitor_regs_none h saved, fun h n => ⟨?_, ?_⟩, fun b h1 h2 => ?_, ?_⟩
  · exact List.mem_cons_of_mem _ (List.mem_cons_of_mem _ List.mem_cons_self)
  · exact toMonitor_file hw hp hpkg hrf ho h saved n
  · exact toMonitor_reg hw hp hpkg hrf ho h saved n
  · exact byte_toMonitor_out hw saved h1 h2
  · rw [heq]

/-- Settles O12: the Monitor's registers are stored apart from the job's package and register file. -/
theorem monitorToJobExchange : Obligations.MonitorToJobExchange := by
  unfold Obligations.MonitorToJobExchange
  intro s sd t rf pkg l d hm hw hp hf hv hrf hpkg hr ho hs
  have hpkg64 : pkg.toNat % 64 = 0 := by omega
  have hrf64 : rf.toNat % 64 = 0 := by omega
  have heq := toJob_eq hw hp hpkg64 ho
  refine ⟨s.toJob rf pkg, exec_exit_exchange hm (exchangeToJob_ok hf hv hrf hpkg hr ho hs), ?_⟩
  generalize s.toJob rf pkg = u at heq
  have hregs : u.regs = (s.jobLoaded rf pkg).regs := by rw [heq]
  have hmem : u.mem = (s.storeAll (s.monitorFile rf)).mem := by rw [heq]
  have hpar : u.params = (s.storeAll (s.monitorFile rf)).params := by
    rw [heq, storeAll_params]
    rfl
  have hdom : u.dom = s.packageDomain pkg := by rw [heq]; rfl
  have hrights : u.RightsFrom s pkg := by
    refine ⟨by rw [heq]; rfl, by rw [hdom]; rfl, by rw [hdom]; rfl, fun k => ?_⟩
    rw [hdom]
    exact fourBlaps_word (s.pkgWord pkg) _ k
  refine ⟨by rw [heq], by rw [heq], by rw [heq], by rw [heq], by rw [heq]; rfl, by rw [heq]; rfl, by rw [heq]; rfl,
    by rw [heq]; rfl, hrights, by rw [hdom]; rfl, by rw [hdom]; rfl, by rw [hdom]; rfl, by rw [hdom]; rfl, by rw [hdom]; rfl,
    fun h => ⟨?_, ?_⟩, fun h n => ⟨?_, ?_⟩, fun b hb => ?_, ?_⟩
  · rw [hregs, jobLoaded_regs_none h]
  · rw [hmem]
    unfold State.monitorFile
    rw [if_pos h]
    rfl
  · unfold State.reg
    rw [hregs]
    exact jobLoaded_reg hw hp hrf64 ho h n
  · exact (absWord_congr hmem hpar _).trans (monitorFile_stored hw hp h n)
  · rw [hmem]
    exact byte_monitorFile_out hw hp hb
  · rw [heq]
    rfl

/-- Settles O13: the package gives back each word that the first exchange stored, and so does the register file. -/
theorem exchangeRoundTrip : Obligations.ExchangeRoundTrip := by
  unfold Obligations.ExchangeRoundTrip
  intro s hinv hmode hp hpkg hrf ho u
  obtain ⟨hw, -, hpc, hdfr, hlink, -⟩ := hinv
  have heq := toMonitor_eq s s.pc
  have hpack := toMonitor_package hw hp hpkg hrf ho s.pc
  have hmw : Memory.wf (s.toMonitor s.pc).mem = true := by
    rw [heq]
    exact wf_storeAll _ hw
  have hmp : (s.toMonitor s.pc).params = s.params := by rw [heq]
  have hregs := roundTrip_regs hw hp hpkg hrf ho s.pc rfl hmw hmp
  have hmo : (s.toMonitor s.pc).packagesOverlap s.jobRF s.invPkg = false := by
    unfold State.packagesOverlap
    rw [hmp]
    exact ho
  have hu : u = _ := toJob_eq hmw (by rw [hmp]; exact hp) hpkg hmo
  rw [withPackage_of_saved hmp hpack, hregs, hpc, hdfr] at hu
  rw [hu, heq, ← hmode, ← hlink]

end Sys2Proof
end

