-- ==== Sys2Proof/Proofs/Domains.lean ====
section
/-! PROOFS. Domain changes (spec/60_exceptions.md R653, R654; spec/42_bit_byte_sm.md R237; spec/43_branch_register.md R283). -/

-- One declaration at a time, as in the tests: many at once need a thread each.
set_option Elab.async false

namespace Sys2Proof.Machine

variable {s : State}

/-! ### Bytes apart from a store, whatever form the memory has -/

theorem byte_setByte_apart {a b : Nat} (v : Byte) (h : b ≠ a) (m : List Host.Cell) :
    Memory.byte (Memory.setByte m a v) b = Memory.byte m b := by
  have hcons (u : Byte) (l : List Host.Cell) : Memory.byte ((a, u) :: l) b = Memory.byte l b := if_neg (Ne.symm h)
  induction m with
  | nil =>
    unfold Memory.setByte
    split
    · rfl
    · exact hcons v []
  | cons c rest ih =>
    obtain ⟨k, u⟩ := c
    unfold Memory.setByte
    by_cases h1 : a < k
    · rw [if_pos h1]
      split
      · rfl
      · exact hcons v _
    rw [if_neg h1]
    by_cases h2 : a = k
    · subst h2
      rw [if_pos rfl, hcons]
      split
      · rfl
      · exact hcons v _
    · rw [if_neg h2]
      unfold Memory.byte
      rw [ih]

theorem byte_setHalf_apart {a b : Nat} (v : Half) (h : b < a ∨ a + 4 ≤ b) (m : List Host.Cell) :
    Memory.byte (Memory.setHalf m a v) b = Memory.byte m b := by
  unfold Memory.setHalf
  rw [byte_setByte_apart _ (by omega), byte_setByte_apart _ (by omega), byte_setByte_apart _ (by omega),
    byte_setByte_apart _ (by omega)]

theorem byte_setAbsWord_apart {a b : Nat} (v : Word) (h : ¬ s.inAbsWord a b) :
    Memory.byte (s.setAbsWord a v).mem b = Memory.byte s.mem b := by
  unfold State.inAbsWord at h
  rw [setAbsWord_mem, Memory.setWord, byte_setHalf_apart _ (by omega), byte_setHalf_apart _ (by omega)]

theorem byte_storePkg_apart (base : Addr) (l : List (Nat × Word)) {b : Nat} : ∀ {s : State},
    (∀ p ∈ l, ¬ s.inAbsWord (base.toNat + 64 * p.1) b) → Memory.byte (s.storePkg base l).mem b = Memory.byte s.mem b := by
  induction l with
  | nil => exact fun _ => rfl
  | cons c rest ih =>
    intro s hb
    refine (ih fun p hp => ?_).trans (byte_setAbsWord_apart c.2 (hb c List.mem_cons_self))
    rw [State.inAbsWord, wrap_setAbsWord]
    exact hb p (List.mem_cons_of_mem _ hp)

/-! ### Words stored into a package -/

/-- A word stored into a package, wherever that package is, is read back from it. -/
theorem pkgWord_storePkg (hw : Memory.wf s.mem = true) (hp : s.params.ok = true) (base : Addr) {l : List (Nat × Word)}
    (hlt : ∀ p ∈ l, p.1 < s.params.layout.size) (hd : (l.map Prod.fst).Nodup) :
    ∀ p ∈ l, (s.storePkg base l).pkgWord base p.1 = p.2 := by
  intro p h
  rw [storePkg_storeAll]
  refine absWord_storeAll_mem (packageAt base l) (m := base.toNat % 64) hw hp (fun q hq => ?_)
    (packageAt_pairwise (Params.package_fits hp) hlt hd) (base.toNat + 64 * p.1, p.2) (mem_packageAt.mpr ⟨p, h, rfl⟩)
  obtain ⟨r, -, rfl⟩ := mem_packageAt.mp hq
  exact Nat.add_mul_mod_self_left _ _ _

theorem stackedWords_nodup {p : Params} (h : p.ok = true) :
    [p.layout.pWord, p.layout.bkptWord, Layout.dfrWord, p.layout.domWord].Nodup := by
  refine (Params.words_nodup h).sublist ?_
  exact .cons_cons _ (.cons_cons _ (.cons _ (.cons _ (.cons_cons _ (.cons _ (.cons_cons _ (List.nil_sublist _)))))))

theorem counterWords_nodup (h : s.params.ok = true) : (s.counterWords.map Prod.fst).Nodup := by
  have hc : s.counterWords.map Prod.fst = countersAt s.params.layout := by
    unfold State.counterWords countersAt
    rw [List.map_map]
    rfl
  rw [hc]
  exact (List.nodup_append.mp (Params.words_nodup h)).2.1

theorem mem_counterWords {p : Nat × Word} :
    p ∈ s.counterWords ↔ ∃ k : Fin 8, p = (s.params.layout.icWord + k.val, joinLen 0 s.ic[k]) := by
  unfold State.counterWords
  rw [List.mem_map]
  exact exists_congr fun k => by simp only [List.mem_finRange, true_and]; exact eq_comm

/-! ### What a forward domain change stores (R653) -/

/-- The state with the return words stored into the Stacked Domain Package. -/
def State.stackedDomain (s : State) : State :=
  s.saveBreakpoint.storePkg (Config.stackedPackage s.dom.stackIndex s.invPkg)
    [(s.params.layout.pWord, joinLen 0 (s.pc + 32)), (s.params.layout.bkptWord, s.bkpt), (Layout.dfrWord, s.dfr),
     (s.params.layout.domWord, s.dom.word)]

/-- And the counters into the Domain Package that is left. -/
def State.leftDomain (s : State) : State :=
  s.stackedDomain.storePkg (Config.domainPackage s.dom.cur s.invPkg) s.counterWords

theorem saveBreakpoint_eq (s : State) :
    s.saveBreakpoint = { s with mem := s.saveBreakpoint.mem, stale := s.saveBreakpoint.stale } := storePkg_eq _ _ s

theorem stackedDomain_eq (s : State) :
    s.stackedDomain = { s with mem := s.stackedDomain.mem, stale := s.stackedDomain.stale } := by
  unfold State.stackedDomain
  rw [storePkg_eq, saveBreakpoint_eq]

theorem leftDomain_eq (s : State) : s.leftDomain = { s with mem := s.leftDomain.mem, stale := s.leftDomain.stale } := by
  unfold State.leftDomain
  rw [storePkg_eq, stackedDomain_eq]

theorem wf_saveBreakpoint (hw : Memory.wf s.mem = true) : Memory.wf s.saveBreakpoint.mem = true := wf_storePkg _ _ hw

theorem wf_stackedDomain (hw : Memory.wf s.mem = true) : Memory.wf s.stackedDomain.mem = true :=
  wf_storePkg _ _ (wf_saveBreakpoint hw)

section
variable (hw : Memory.wf s.mem = true) (hp : s.params.ok = true)
include hw hp

theorem saveBreakpoint_word : s.saveBreakpoint.pkgWord s.invPkg s.params.layout.bkptWord = s.bkpt := by
  obtain ⟨_, hlt, -⟩ := Params.package_words hp
  exact pkgWord_storePkg hw hp s.invPkg (l := [(s.params.layout.bkptWord, s.bkpt)]) (by simpa using hlt)
    (by simp) (s.params.layout.bkptWord, s.bkpt) List.mem_cons_self

theorem stackedDomain_words : ∀ p ∈ [(s.params.layout.pWord, joinLen 0 (s.pc + 32)), (s.params.layout.bkptWord, s.bkpt),
    (Layout.dfrWord, s.dfr), (s.params.layout.domWord, s.dom.word)],
    s.stackedDomain.pkgWord (Config.stackedPackage s.dom.stackIndex s.invPkg) p.1 = p.2 := by
  have hpar : s.saveBreakpoint.params = s.params := by rw [saveBreakpoint_eq]
  obtain ⟨hpw, hbw, _, _, h4, _, hdw, _⟩ := Params.package_words hp
  refine pkgWord_storePkg (wf_saveBreakpoint hw) (by rw [hpar]; exact hp) _ ?_ (stackedWords_nodup hp)
  rw [hpar]
  simp only [List.forall_mem_cons]
  exact ⟨hpw, hbw, h4, hdw, fun _ h => absurd h List.not_mem_nil⟩

theorem leftDomain_counters (k : Fin 8) :
    s.leftDomain.pkgWord (Config.domainPackage s.dom.cur s.invPkg) (s.params.layout.icWord + k.val) = joinLen 0 s.ic[k] := by
  have hpar : s.stackedDomain.params = s.params := by rw [stackedDomain_eq]
  obtain ⟨_, _, _, _, _, _, _, _, _, hic⟩ := Params.package_words hp
  refine pkgWord_storePkg (wf_stackedDomain hw) (by rw [hpar]; exact hp) _ (fun p h => ?_) (counterWords_nodup hp)
    (s.params.layout.icWord + k.val, joinLen 0 s.ic[k]) (mem_counterWords.mpr ⟨k, rfl⟩)
  obtain ⟨j, rfl⟩ := mem_counterWords.mp h
  rw [hpar]
  dsimp only
  omega

end

/-- The three stores reach no other byte. -/
theorem byte_leftDomain_out {b : Nat}
    (hold : ∀ k, k < 8 → ¬ s.inAbsWord ((Config.domainPackage s.dom.cur s.invPkg).toNat + 64 * (s.params.layout.icWord + k)) b)
    (hstack : ∀ n ∈ [s.params.layout.pWord, s.params.layout.bkptWord, Layout.dfrWord, s.params.layout.domWord],
      ¬ s.inAbsWord ((Config.stackedPackage s.dom.stackIndex s.invPkg).toNat + 64 * n) b)
    (hbkpt : ¬ s.inAbsWord (s.invPkg.toNat + 64 * s.params.layout.bkptWord) b) :
    Memory.byte s.leftDomain.mem b = Memory.byte s.mem b := by
  have hin {t : State} (ht : t.params = s.params) (a : Nat) : t.inAbsWord a b ↔ s.inAbsWord a b := by
    unfold State.inAbsWord
    rw [State.wrap_congr ht]
  have h1 : Memory.byte s.saveBreakpoint.mem b = Memory.byte s.mem b :=
    byte_storePkg_apart _ _ fun p h => by
      rw [List.mem_singleton.mp h]
      exact hbkpt
  have h2 : Memory.byte s.stackedDomain.mem b = Memory.byte s.saveBreakpoint.mem b :=
    byte_storePkg_apart _ _ fun p h => by
      rw [hin (by rw [saveBreakpoint_eq])]
      exact hstack p.1 (List.mem_map_of_mem (f := Prod.fst) h)
  have h3 : Memory.byte s.leftDomain.mem b = Memory.byte s.stackedDomain.mem b :=
    byte_storePkg_apart _ _ fun p h => by
      obtain ⟨k, rfl⟩ := mem_counterWords.mp h
      rw [hin (by rw [stackedDomain_eq])]
      exact hold k.val k.isLt
  exact h3.trans (h2.trans h1)

/-! ### Where a forward domain change goes (R653) -/

/-- The rights and the DFR of the package at `base` are loaded, and the program goes on at the address in its word `n`. -/
def State.enterPackage (s : State) (base : Addr) (n : Nat) : State :=
  let u := (s.loadRights base).setDfr (s.pkgWord base Layout.dfrWord)
  u.voidStack.goto (addrPart (u.pkgWord base n))

theorem enterPackage_eq (s : State) (base : Addr) (n : Nat) : s.enterPackage base n =
    { s with
      keys := keysOfWord (s.pkgWord base s.params.layout.keysWord), dfr := deriveDfr (s.pkgWord base Layout.dfrWord), stale := []
      pc := halfAligned (addrPart (s.pkgWord base n))
      dom := { s.dom with
        iim := (s.packageDomain base).iim, changeMask := (s.packageDomain base).changeMask
        blaps := (s.packageDomain base).blaps } } := rfl

/-- The state a forward domain change to `target` goes on with. -/
def State.enterDomain (s : State) (target : BitVec 7) : State :=
  State.enterPackage { s.leftDomain with bkpt := 0, dom := { s.leftDomain.dom with
    stackIndex := s.dom.stackIndex + 1, prev := s.dom.cur, cur := target } } (Config.domainPackage target s.invPkg) s.params.layout.pWord

theorem forwardDomain_allowed {w : Word} (hi : s.dom.stackIndex.toNat < s.dom.stackLimit.toNat)
    (hm : bitAt s.dom.changeMask (Config.domainNumber w).toNat = true) :
    forwardDomain w s = .ok ((), s.enterDomain (Config.domainNumber w)) := by
  unfold forwardDomain
  dsimp only
  rw [if_neg (by simpa using hi), if_neg (by simp [hm])]
  unfold State.enterDomain State.enterPackage State.leftDomain State.stackedDomain
  rfl

/-- What that state has of `s`, and of the memory it stored. -/
theorem enterDomain_eq (s : State) (target : BitVec 7) : s.enterDomain target =
    { s with
      bkpt := 0, mem := s.leftDomain.mem, stale := [], dfr := (s.enterDomain target).dfr, keys := (s.enterDomain target).keys
      pc := (s.enterDomain target).pc
      dom := { (s.enterDomain target).dom with
        stackIndex := s.dom.stackIndex + 1, stackLimit := s.dom.stackLimit, prev := s.dom.cur, cur := target
        ebcdic := s.dom.ebcdic } } := by
  unfold State.enterDomain
  rw [enterPackage_eq]
  generalize hk : keysOfWord _ = k
  generalize hd : deriveDfr _ = d
  generalize hp : halfAligned _ = p
  generalize hx : State.packageDomain _ _ = x
  rw [leftDomain_eq]

theorem forwardDomain_refused {w : Word}
    (h : ¬ (s.dom.stackIndex.toNat < s.dom.stackLimit.toNat ∧ bitAt s.dom.changeMask (Config.domainNumber w).toNat = true)) :
    forwardDomain w s = .error .typeTwo := by
  unfold forwardDomain
  dsimp only
  by_cases hi : s.dom.stackIndex.toNat < s.dom.stackLimit.toNat
  · rw [if_neg (by simpa using hi), if_pos (by simpa [hi] using h)]
  · rw [if_pos (by simpa using hi)]

theorem exec_bsave_forward {r sd t : Byte} (hm : s.mode = .job) (hb : bitAt (s.reg t) 0 = true) (hr : r ≠ t) :
    exec (.bsave r sd t) s = settle s (forwardDomain (s.reg t) s) := by
  show execBsave r sd t s = _
  unfold execBsave
  rw [if_neg (by simp [hb, hr]), if_neg (by rw [hm]; decide)]
  rfl

/-! ### What was loaded from a package -/

theorem rightsFrom_congr {u m n : State} {base : Addr} (hm : n.mem = m.mem) (hp : n.params = m.params) (h : u.RightsFrom m base) :
    u.RightsFrom n base := by
  have hw : n.pkgWord base = m.pkgWord base := funext fun k => pkgWord_congr hm hp base k
  unfold State.RightsFrom
  rw [hp, hw]
  exact h

theorem loadRights_eq (s : State) (base : Addr) : s.loadRights base =
    { s with
      keys := keysOfWord (s.pkgWord base s.params.layout.keysWord)
      dom := { s.dom with
        iim := (s.packageDomain base).iim, changeMask := (s.packageDomain base).changeMask
        blaps := (s.packageDomain base).blaps } } := rfl

theorem loadRights_rightsFrom (s : State) (base : Addr) : (s.loadRights base).RightsFrom s base :=
  ⟨rfl, rfl, rfl, fun k => fourBlaps_word (s.pkgWord base) s.params.layout.blapWord k⟩

/-- The rights depend on keys and domain registers alone. -/
theorem rightsFrom_of_eq {u v m : State} {base : Addr} (hk : v.keys = u.keys) (hd : v.dom = u.dom) (h : u.RightsFrom m base) :
    v.RightsFrom m base := by
  unfold State.RightsFrom
  rw [hk, hd]
  exact h

section
variable (s : State) (target : BitVec 7)

theorem enterDomain_pkgWord (base : Addr) (n : Nat) : (s.enterDomain target).pkgWord base n = s.leftDomain.pkgWord base n :=
  pkgWord_congr (by rw [enterDomain_eq]) (by rw [enterDomain_eq, leftDomain_eq]) base n

theorem enterDomain_pc : (s.enterDomain target).pc =
    halfAligned (addrPart ((s.enterDomain target).pkgWord (Config.domainPackage target s.invPkg) s.params.layout.pWord)) := by
  rw [enterDomain_pkgWord]
  unfold State.enterDomain
  rw [enterPackage_eq]
  exact congrArg (fun w => halfAligned (addrPart w)) (pkgWord_congr rfl rfl _ _)

theorem enterDomain_dfr : (s.enterDomain target).dfr =
    deriveDfr ((s.enterDomain target).pkgWord (Config.domainPackage target s.invPkg) Layout.dfrWord) := by
  rw [enterDomain_pkgWord]
  unfold State.enterDomain
  rw [enterPackage_eq]
  exact congrArg deriveDfr (pkgWord_congr rfl rfl _ _)

theorem enterDomain_rights : (s.enterDomain target).RightsFrom (s.enterDomain target) (Config.domainPackage target s.invPkg) := by
  refine rightsFrom_congr (m := s.leftDomain) (by rw [enterDomain_eq]) (by rw [enterDomain_eq, leftDomain_eq]) ?_
  unfold State.enterDomain
  generalize hv : ({ s.leftDomain with bkpt := 0, dom := { s.leftDomain.dom with
    stackIndex := s.dom.stackIndex + 1, prev := s.dom.cur, cur := target } } : State) = v
  have h := loadRights_rightsFrom v (Config.domainPackage target s.invPkg)
  refine rightsFrom_congr (m := v) (by rw [← hv]) (by rw [← hv]) (rightsFrom_of_eq ?_ ?_ h)
  · rw [enterPackage_eq, loadRights_eq]
  · rw [enterPackage_eq, loadRights_eq]

end

/-! ### The way back (R654) -/

/-- The place of the stacked package that a backward domain change uses. -/
def State.returnPackage (s : State) : Addr := Config.stackedPackage (s.dom.stackIndex - 1) s.invPkg

/-- The domain that a backward domain change returns to. -/
def State.returnDomain (s : State) : BitVec 7 := field (s.saveBreakpoint.pkgWord s.returnPackage s.params.layout.domWord) 48 7

/-- The state with the registers of the stacked package loaded, before its rights. -/
def State.unstacked (s : State) : State :=
  { s.saveBreakpoint with
    bkpt := s.saveBreakpoint.pkgWord s.returnPackage s.params.layout.bkptWord
    ic := Vector.ofFn fun k => addrPart (s.saveBreakpoint.pkgWord (Config.domainPackage s.returnDomain s.invPkg) (s.params.layout.icWord + k.val))
    dom := { s.saveBreakpoint.dom with
      stackIndex := s.dom.stackIndex - 1, cur := s.returnDomain
      prev := field (s.saveBreakpoint.pkgWord s.returnPackage s.params.layout.domWord) 32 7 } }

/-- The state a backward domain change goes on with. -/
def State.leaveDomain (s : State) : State :=
  (((s.unstacked.loadRights (Config.domainPackage s.returnDomain s.invPkg)).setDfr
    (s.saveBreakpoint.pkgWord s.returnPackage Layout.dfrWord)).voidStack).goto
    (addrPart (s.saveBreakpoint.pkgWord s.returnPackage s.params.layout.pWord))

theorem backwardDomain_ok (h : s.dom.stackIndex ≠ 0) : backwardDomain s = .ok ((), s.leaveDomain) := by
  have hp : s.saveBreakpoint.params = s.params := by rw [saveBreakpoint_eq]
  have hd : s.saveBreakpoint.dom = s.dom := by rw [saveBreakpoint_eq]
  have hi : s.saveBreakpoint.invPkg = s.invPkg := by rw [saveBreakpoint_eq]
  unfold backwardDomain State.leaveDomain State.unstacked State.returnDomain State.returnPackage
  dsimp only
  rw [if_neg h, hp, hd, hi]

theorem exec_exdom (hm : s.mode = .job) (h : s.dom.stackIndex ≠ 0) : exec .exdom s = .next s.leaveDomain := by
  show settle s ((refuseIf (s.mode = .monitor) .domainChangeInMonitor >>= fun _ => backwardDomain) s) = _
  rw [bind_ok (refuseIf_false (b := decide (s.mode = .monitor)) (by rw [hm]; rfl)), backwardDomain_ok h]
  rfl

/-- What that state has of `s`. -/
theorem leaveDomain_eq (s : State) : s.leaveDomain =
    { s with
      bkpt := s.leaveDomain.bkpt, dfr := s.leaveDomain.dfr, keys := s.leaveDomain.keys, ic := s.leaveDomain.ic
      mem := s.saveBreakpoint.mem, stale := [], pc := s.leaveDomain.pc
      dom := { s.leaveDomain.dom with
        stackIndex := s.dom.stackIndex - 1, stackLimit := s.dom.stackLimit, cur := s.returnDomain
        prev := field (s.saveBreakpoint.pkgWord s.returnPackage s.params.layout.domWord) 32 7, ebcdic := s.dom.ebcdic } } := by
  unfold State.leaveDomain
  rw [loadRights_eq]
  unfold State.unstacked
  generalize keysOfWord _ = k
  generalize State.packageDomain _ _ = x
  generalize addrPart (s.saveBreakpoint.pkgWord s.returnPackage s.params.layout.pWord) = p
  generalize s.saveBreakpoint.pkgWord s.returnPackage Layout.dfrWord = d
  generalize (Vector.ofFn fun k => addrPart (s.saveBreakpoint.pkgWord (Config.domainPackage s.returnDomain s.invPkg)
    (s.params.layout.icWord + k.val))) = ic
  generalize s.saveBreakpoint.pkgWord s.returnPackage s.params.layout.bkptWord = b
  generalize field (s.saveBreakpoint.pkgWord s.returnPackage s.params.layout.domWord) 32 7 = q
  rw [saveBreakpoint_eq]
  rfl

section
variable (s : State)

theorem leaveDomain_pkgWord (base : Addr) (n : Nat) : s.leaveDomain.pkgWord base n = s.saveBreakpoint.pkgWord base n :=
  pkgWord_congr (by rw [leaveDomain_eq]) (by rw [leaveDomain_eq, saveBreakpoint_eq]) base n

theorem leaveDomain_words : s.leaveDomain.dfr = deriveDfr (s.saveBreakpoint.pkgWord s.returnPackage Layout.dfrWord) ∧
    s.leaveDomain.bkpt = s.saveBreakpoint.pkgWord s.returnPackage s.params.layout.bkptWord ∧
    s.leaveDomain.pc = halfAligned (addrPart (s.saveBreakpoint.pkgWord s.returnPackage s.params.layout.pWord)) ∧
    s.leaveDomain.ic = Vector.ofFn fun k =>
      addrPart (s.saveBreakpoint.pkgWord (Config.domainPackage s.returnDomain s.invPkg) (s.params.layout.icWord + k.val)) := by
  unfold State.leaveDomain
  rw [loadRights_eq]
  exact ⟨rfl, rfl, rfl, rfl⟩

theorem leaveDomain_rights : s.leaveDomain.RightsFrom s.leaveDomain (Config.domainPackage s.returnDomain s.invPkg) := by
  refine rightsFrom_congr (m := s.saveBreakpoint) (by rw [leaveDomain_eq]) (by rw [leaveDomain_eq, saveBreakpoint_eq]) ?_
  have h := loadRights_rightsFrom s.unstacked (Config.domainPackage s.returnDomain s.invPkg)
  exact rightsFrom_congr (m := s.unstacked) rfl rfl (rightsFrom_of_eq rfl rfl h)

end

/-! ### #57 (R331) -/

/-- The register that a selector of #57 reads. -/
def State.domainRegister (s : State) (r : Byte) : Option Word :=
  if s.mode = .monitor then none
  else if r = 0 then some (0#48 ++ s.dom.stackIndex ++ 0#3)
  else if r = 2 then some (0#52 ++ s.dom.prev ++ 0#5)
  else if r = 3 then some (0#52 ++ s.dom.cur ++ 0#5)
  else none

theorem exec_rddom {r t : Byte} (hf : s.forbidden 15 = false) : exec (.rddom r t) s = s.putOpt t (s.domainRegister r) := by
  have h : exec (.rddom r t) s = .next (match s.domainRegister r with
      | some v => s.setReg t v
      | none => { s with free := s.free + 1 }.setReg t (Config.freeWord s.free)).next32 :=
    run32_of_ok (bind_ok (maskedBy_allowed hf))
  rw [h]
  cases s.domainRegister r <;> rfl

/-- A selector that names no register, and Monitor mode, leave a free value. -/
theorem rddom_free {r t : Byte} (hf : s.forbidden 15 = false) (h : s.domainRegister r = none) :
    ∃ f, RegisterResult (.rddom r t) s s.behind32 t f :=
  registerResult_of_putFree ((exec_rddom hf).trans (by rw [h]; rfl))

theorem rddom_value {r t : Byte} {v : Word} (hf : s.forbidden 15 = false) (h : s.domainRegister r = some v) :
    RegisterResult (.rddom r t) s s.behind32 t v :=
  registerResult_of_put ((exec_rddom hf).trans (by rw [h]; rfl))

/-! ### The two changes as a whole -/

theorem forward_result {r sd t : Byte} (hm : s.mode = .job) (hb : bitAt (s.reg t) 0 = true) (hr : r ≠ t)
    (hi : s.dom.stackIndex.toNat < s.dom.stackLimit.toNat)
    (hc : bitAt s.dom.changeMask (Config.domainNumber (s.reg t)).toNat = true) :
    exec (.bsave r sd t) s = .next (s.enterDomain (Config.domainNumber (s.reg t))) :=
  (exec_bsave_forward hm hb hr).trans (congrArg (settle s) (forwardDomain_allowed hi hc))

end Sys2Proof.Machine

namespace Sys2Proof
open Machine

/-- Settles O42: what each change stores is read back from its package, and the state it goes on with is that of the
package loaded. -/
theorem domainChanges : Obligations.DomainChanges := by
  unfold Obligations.DomainChanges
  refine ⟨fun s r sd t hm => ⟨fun hb hr => ⟨fun ha => ?_, fun ha => ?_⟩, fun hi => ?_, fun hf => ?_⟩, fun s r t h => ?_⟩
  · have heq := enterDomain_eq s (Config.domainNumber (s.reg t))
    have hpc := enterDomain_pc s (Config.domainNumber (s.reg t))
    have hdfr := enterDomain_dfr s (Config.domainNumber (s.reg t))
    have hrights := enterDomain_rights s (Config.domainNumber (s.reg t))
    have hword := enterDomain_pkgWord s (Config.domainNumber (s.reg t))
    refine ⟨s.enterDomain (Config.domainNumber (s.reg t)), forward_result hm hb hr ha.1 ha.2, ?_⟩
    generalize s.enterDomain (Config.domainNumber (s.reg t)) = u at heq hpc hdfr hrights hword ⊢
    have hmem : u.mem = s.leftDomain.mem := by rw [heq]
    refine ⟨by rw [heq]; exact hm, by rw [heq], by rw [heq], by rw [heq], by rw [heq], by rw [heq], by rw [heq], by rw [heq],
      by rw [heq], hpc, hdfr, hrights, hmem, fun hw hp => ⟨fun k => ?_, ?_⟩, fun b h1 h2 h3 => ?_, ?_⟩
    · exact (hword _ _).trans (leftDomain_counters hw hp k)
    · have hst := stackedDomain_words hw hp
      simp only [List.forall_mem_cons] at hst
      obtain ⟨hp1, hp2, hp3, hp4, -⟩ := hst
      exact ⟨hp1, hp2, hp3, hp4, saveBreakpoint_word hw hp⟩
    · rw [hmem]
      exact byte_leftDomain_out h1 h2 h3
    · rw [heq]
  · exact (exec_bsave_forward hm hb hr).trans (congrArg (settle s) (forwardDomain_refused ha))
  · have heq := leaveDomain_eq s
    have hword := leaveDomain_pkgWord s
    obtain ⟨hdfr, hbkpt, hpc, hic⟩ := leaveDomain_words s
    have hrights := leaveDomain_rights s
    refine ⟨s.leaveDomain, exec_exdom hm hi, ?_⟩
    generalize s.leaveDomain = u at heq hword hdfr hbkpt hpc hic hrights ⊢
    have hmem : u.mem = s.saveBreakpoint.mem := by rw [heq]
    have hcur : u.dom.cur = s.returnDomain := by rw [heq]
    refine ⟨by rw [heq]; exact hm, by rw [heq], by rw [heq], by rw [heq], ?_, ?_, by rw [heq], by rw [heq], ?_, ?_, ?_, ?_, fun k => ?_,
      fun hw hp => (hword _ _).trans (saveBreakpoint_word hw hp), fun b hb => ?_, by rw [heq]⟩
    · rw [hword, heq]; rfl
    · rw [hword, heq]; rfl
    · rw [hword]; exact hpc
    · rw [hword]; exact hdfr
    · rw [hword]; exact hbkpt
    · rw [hcur]; exact hrights
    · rw [hword, hcur, hic]
      exact Vector.getElem_ofFn _
    · rw [hmem]
      exact byte_storePkg_apart _ _ fun p h => by rwa [List.mem_singleton.mp h]
  · have hrow (n : Byte) : s.domainRegister n = _ := if_neg (by rw [hm]; decide)
    exact ⟨rddom_value hf (hrow 0), rddom_value hf (hrow 2), rddom_value hf (hrow 3), rddom_free hf (hrow 1)⟩
  · rcases h with hm | ⟨hf, h0, h2, h3⟩
    · exact rddom_free (by unfold State.forbidden; rw [hm]; rfl) (if_pos hm)
    · refine rddom_free hf ?_
      unfold State.domainRegister
      rw [if_neg h0, if_neg h2, if_neg h3]
      split <;> rfl

end Sys2Proof
end

