-- ==== Sys2Proof/Proofs/Translation.lean ====
section
/-! PROOFS. Accesses of a Job through the page table (spec/20_memory.md R62 to R75), and the access interrupt of a loop over
elements (spec/60_exceptions.md R636). -/

-- One declaration at a time, as in the tests: many at once need a thread each.
set_option Elab.async false

namespace Sys2Proof.Machine

variable {s t u : State}

/-! ### Translation (R75) -/

/-- A Job whose addresses the page table translates, with pages of `2 ^ sb` and of `2 ^ lb` bits. -/
structure State.Translates (s : State) (sb lb : Nat) : Prop where
  mode : s.mode = .job
  loaded : s.arValid = true
  small : smallBits s.keys.small = some sb
  large : largeBits s.keys.large = some lb

section
variable {sb lb : Nat} (h : s.Translates sb lb) {kind : Access} {va : Addr}
include h

theorem physical_hit {k : Hit} {bits : Nat} (hs : s.search kind va sb lb = some (k, bits)) :
    physical kind va s = .ok (s.wrap (hitAddress k bits va), s.useEntry k) := by
  unfold physical
  rw [h.mode]
  dsimp only
  rw [if_pos h.loaded, h.small, h.large]
  dsimp only
  rw [hs]

theorem physical_miss (hs : s.search kind va sb lb = none) : physical kind va s = .error (.access s.free) := by
  unfold physical
  rw [h.mode]
  dsimp only
  rw [if_pos h.loaded, h.small, h.large]
  dsimp only
  rw [hs]

end

/-- The entry used stands at the top, with no bit but those of its code changed (R37, R75). -/
theorem useEntry_top (s : State) (k : Hit) : (s.useEntry k).ar[0] &&& ~~~codeMask = s.entry k.index &&& ~~~codeMask := by
  unfold State.useEntry
  rw [pushDown_top]
  exact withCode_and _ _

theorem wf_useEntry (hw : Memory.wf s.mem = true) (k : Hit) : Memory.wf (s.useEntry k).mem = true := by
  unfold State.useEntry
  rw [pushDown_eq]
  exact wf_pushTable hw _ _ _

/-- An entry in an associative register moves up without a store into CP memory. -/
theorem pushDown_low {i : Nat} (hi : i < 16) (w : Word) : (s.pushDown i w).mem = s.mem ∧ (s.pushDown i w).stale = s.stale := by
  have h0 : i - 15 = 0 := by omega
  unfold State.pushDown State.keepStale
  rw [h0]
  split <;> exact ⟨rfl, rfl⟩

/-- The breakpoint compare is the same behind the translation. -/
theorem useEntry_breakpoint (k : Hit) (write : Bool) (va : Addr) :
    ((s.useEntry k).breakpoint write va).dfr = (s.breakpoint write va).dfr := by
  have hb : (s.useEntry k).breaks write va = s.breaks write va := by
    unfold State.breaks
    rw [State.useEntry_bkpt]
  unfold State.breakpoint
  rw [hb]
  split
  · rw [State.setFlag_dfr, State.setFlag_dfr, State.useEntry_dfr]
  · exact State.useEntry_dfr s k

/-! ### #7E and #7F (R390, R391) -/

section
variable {sb lb : Nat} (h : s.Translates sb lb) {a : Addr}
include h

theorem readWord_hit {k : Hit} {bits : Nat} (hs : s.search .read (wordAligned a) sb lb = some (k, bits)) :
    readWord a s = .ok (Memory.word (s.useEntry k).mem (s.wrap (hitAddress k bits (wordAligned a)) / 8),
      (s.useEntry k).breakpoint false (wordAligned a)) := by
  have hmem : ((s.useEntry k).breakpoint false (wordAligned a)).mem = (s.useEntry k).mem := by rw [State.breakpoint_eq]
  rw [← hmem]
  exact (bind_ok (physical_hit h hs)).trans rfl

theorem writeWord_hit {k : Hit} {bits : Nat} (hs : s.search .write (wordAligned a) sb lb = some (k, bits)) (v : Word) :
    writeWord a v s = .ok ((), ((s.useEntry k).breakpoint true (wordAligned a)).putWord
      (s.wrap (hitAddress k bits (wordAligned a))) v) := (bind_ok (physical_hit h hs)).trans rfl

theorem lod_miss {r sd t : Byte} (hs : s.search .read (wordAligned (s.addr r + (s.addr sd <<< 6))) sb lb = none) :
    exec (.lod r sd t) s = .next ((s.post 61).toMonitor s.pc) :=
  run32_of_error (bind_error (bind_error (physical_miss h hs)))

theorem sto_miss {r sd t : Byte} (hs : s.search .write (wordAligned (s.addr r + (s.addr sd <<< 6))) sb lb = none) :
    exec (.sto r sd t) s = .next ((s.post 61).toMonitor s.pc) :=
  run32_of_error (bind_error (physical_miss h hs))

theorem lod_hit {r sd t : Byte} {k : Hit} {bits : Nat} (va : Addr) (hva : va = wordAligned (s.addr r + (s.addr sd <<< 6)))
    (hs : s.search .read va sb lb = some (k, bits)) :
    exec (.lod r sd t) s = .next ((((s.useEntry k).breakpoint false va).setReg t
      (Memory.word (s.useEntry k).mem (s.wrap (hitAddress k bits va) / 8))).next32) := by
  subst hva
  exact run32_of_ok ((bind_ok (readWord_hit h hs)).trans rfl)

theorem sto_hit {r sd t : Byte} {k : Hit} {bits : Nat} (va : Addr) (hva : va = wordAligned (s.addr r + (s.addr sd <<< 6)))
    (hs : s.search .write va sb lb = some (k, bits)) :
    exec (.sto r sd t) s = .next ((((s.useEntry k).breakpoint true va).putWord (s.wrap (hitAddress k bits va)) (s.reg t)).next32) := by
  subst hva
  exact run32_of_ok (writeWord_hit h hs (s.reg t))

/-- What a load leaves (R390). -/
theorem lod_translated {r sd t : Byte} {k : Hit} {bits : Nat} (va : Addr) (hva : va = wordAligned (s.addr r + (s.addr sd <<< 6)))
    (hs : s.search .read va sb lb = some (k, bits)) :
    ∃ u, exec (.lod r sd t) s = .next u ∧ u.ar[0] &&& ~~~codeMask = s.entry k.index &&& ~~~codeMask ∧
      u.reg t = Memory.word (s.useEntry k).mem (s.wrap (hitAddress k bits va) / 8) ∧
      (∀ n : Byte, n ≠ t → u.reg n = s.reg n) ∧ u.dfr = (s.breakpoint false va).dfr ∧
      u = { s.useEntry k with regs := u.regs, dfr := u.dfr, pc := s.behind32 } := by
  refine ⟨_, lod_hit h va hva hs, ?_⟩
  generalize Memory.word (s.useEntry k).mem (s.wrap (hitAddress k bits va) / 8) = v
  have hdfr := useEntry_breakpoint (s := s) k false va
  have htop := useEntry_top s k
  have hpc := State.useEntry_pc s k
  have hreg := State.useEntry_reg s k
  generalize s.useEntry k = p at hdfr htop hpc hreg ⊢
  rw [State.breakpoint_eq p]
  generalize hd : (p.breakpoint false va).dfr = d at hdfr ⊢
  refine ⟨htop, State.setReg_reg_self _ t v, fun n hn => ?_, hdfr, ?_⟩
  · rw [← hreg n]
    exact State.setReg_reg_ne _ v hn
  · unfold State.behind32
    rw [← hpc]
    rfl

/-- What a store leaves (R391). -/
theorem sto_translated (hw : Memory.wf s.mem = true) {r sd t : Byte} {k : Hit} {bits : Nat} (va : Addr)
    (hva : va = wordAligned (s.addr r + (s.addr sd <<< 6))) (hs : s.search .write va sb lb = some (k, bits)) :
    let n := s.wrap (hitAddress k bits va) / 8
    ∃ u, exec (.sto r sd t) s = .next u ∧ u.ar[0] &&& ~~~codeMask = s.entry k.index &&& ~~~codeMask ∧
      Memory.word u.mem n = s.reg t ∧
      (∀ b, ¬ (n ≤ b ∧ b < n + 8) → Memory.byte u.mem b = Memory.byte (s.useEntry k).mem b) ∧
      u.dfr = (s.breakpoint true va).dfr ∧
      u = { s.useEntry k with dfr := u.dfr, mem := u.mem, stale := u.stale, pc := s.behind32 } := by
  intro n
  refine ⟨_, sto_hit h va hva hs, ?_⟩
  have hdfr := useEntry_breakpoint (s := s) k true va
  have htop := useEntry_top s k
  have hpc := State.useEntry_pc s k
  have hwf := wf_useEntry hw k
  generalize s.useEntry k = p at hdfr htop hpc hwf ⊢
  rw [State.breakpoint_eq p]
  generalize (p.breakpoint true va).dfr = d at hdfr ⊢
  rw [State.putWord_eq]
  refine ⟨htop, Memory.word_setWord hwf n (s.reg t), fun b hb => Memory.byte_setWord_out hwf (s.reg t) (by omega), hdfr, ?_⟩
  unfold State.behind32
  rw [← hpc]
  rfl

/-! ### Fetches (R66, R69) -/

theorem fetchHalf_miss {va : Addr} (hs : s.search .fetch va sb lb = none) : fetchHalf va s = .error (.access s.free) :=
  bind_error (physical_miss h hs)

/-- A fetch through an associative register, with nothing stale. -/
theorem fetchHalf_hit {va : Addr} {k : Hit} {bits : Nat} (hs : s.search .fetch va sb lb = some (k, bits)) (hk : k.index < 16)
    (hst : s.stale = []) :
    fetchHalf va s = .ok (Memory.half s.mem (4 * (s.wrap (hitAddress k bits va) / 32)), s.useEntry k) := by
  obtain ⟨hmem, hstale⟩ := pushDown_low (s := s) hk (withCode (s.entry k.index) k.code)
  have hf : (s.useEntry k).fetchable (s.wrap (hitAddress k bits va) / 32) =
      [Memory.half s.mem (4 * (s.wrap (hitAddress k bits va) / 32))] := by
    unfold State.fetchable State.useEntry
    rw [hmem, hstale, hst]
    rfl
  unfold fetchHalf
  refine (bind_ok (physical_hit h hs)).trans ((bind_ok (m := get) rfl).trans ?_)
  rw [hf]
  rfl

end

/-- The operations that accesses are made of keep a translating Job so. -/
theorem translates_steady (sb lb : Nat) : Steady fun u => u.Translates sb lb where
  pushDown s i w h := ⟨by rw [State.pushDown_mode, h.mode], by rw [State.pushDown_arValid, h.loaded],
    by rw [State.pushDown_keys, h.small], by rw [State.pushDown_keys, h.large]⟩
  setDfr _ _ h := ⟨h.mode, h.loaded, h.small, h.large⟩
  setReg _ _ _ h := ⟨h.mode, h.loaded, h.small, h.large⟩
  draw _ _ h := ⟨h.mode, h.loaded, h.small, h.large⟩
  putWord s p v h := by rw [State.putWord_eq]; exact ⟨h.mode, h.loaded, h.small, h.large⟩
  putHalf s p v h := by rw [State.putHalf_eq]; exact ⟨h.mode, h.loaded, h.small, h.large⟩
  putByte s p v h := by rw [State.putByte_eq]; exact ⟨h.mode, h.loaded, h.small, h.large⟩

theorem fetchHalf_translates {sb lb : Nat} (h : s.Translates sb lb) {va : Addr} {v : Half} (hf : fetchHalf va s = .ok (v, t)) :
    t.Translates sb lb := by
  have hk := (translates_steady sb lb).fetchHalf va s h
  rwa [hf] at hk

/-- The steps that end in an access interrupt of a fetch. -/
theorem step_fetch_interrupt (hs : s.stopped = false) {f : Nat} (h : fetchBytes s.pc s = .error (.access f)) :
    step s = .next ((State.post { s with free := f } 61).toMonitor s.pc).after := by
  unfold step
  rw [if_neg (by rw [hs]; exact Bool.false_ne_true), h]
  rfl

theorem fetchBytes_second {v : Half} {f : Nat} {pc : Addr} (h1 : fetchHalf pc s = .ok (v, t)) (hv : 0x80 ≤ (v.extractLsb' 24 8).toNat)
    (h2 : fetchHalf (pc + 32) t = .error (.access f)) : fetchBytes pc s = .error (.access f) := by
  unfold fetchBytes
  refine (bind_ok h1).trans ?_
  rw [if_neg (Nat.not_lt.mpr hv)]
  exact bind_error h2

/-! ### Computations that only translate, whatever the registers hold -/

/-- From `s` to `t` registers, program address, mode and what translation needs are kept. -/
structure State.Kept (s t : State) : Prop where
  regs : t.regs = s.regs
  pc : t.pc = s.pc
  mode : t.mode = s.mode
  loaded : t.arValid = s.arValid
  keys : t.keys = s.keys

theorem State.Kept.trans (h : s.Kept t) (h' : t.Kept u) : s.Kept u :=
  ⟨h'.regs.trans h.regs, h'.pc.trans h.pc, h'.mode.trans h.mode, h'.loaded.trans h.loaded, h'.keys.trans h.keys⟩

theorem State.Translates.kept {sb lb : Nat} (h : s.Translates sb lb) (hk : s.Kept t) : t.Translates sb lb :=
  ⟨hk.mode.trans h.mode, hk.loaded.trans h.loaded, by rw [hk.keys]; exact h.small, by rw [hk.keys]; exact h.large⟩

/-- The state with other registers. -/
def State.withRegs (s : State) (R : Vector Word 256) : State := { s with regs := R }

/-- A computation that in a translating Job ends or is an access interrupt, keeps what `State.Kept` says, and does the
same whatever the registers hold. -/
def Translated {α : Type} (m : M α) : Prop :=
  ∀ (s : State) (sb lb : Nat), s.Translates sb lb → ∀ R : Vector Word 256,
    (∃ a t, m s = .ok (a, t) ∧ m (s.withRegs R) = .ok (a, t.withRegs R) ∧ s.Kept t) ∨
    ∃ f, m s = .error (.access f) ∧ m (s.withRegs R) = .error (.access f)

namespace Translated

variable {α β : Type} {m : M α}

theorem pure (a : α) : Translated (Pure.pure a : M α) := fun _ _ _ _ _ => .inl ⟨a, _, rfl, rfl, rfl, rfl, rfl, rfl, rfl⟩

theorem bind {k : α → M β} (hm : Translated m) (hk : ∀ a, Translated (k a)) : Translated (m >>= k) := by
  intro s sb lb hs R
  rcases hm s sb lb hs R with ⟨a, t, h1, h2, ht⟩ | ⟨f, h1, h2⟩
  · rw [bind_ok h1, bind_ok h2]
    rcases hk a t sb lb (hs.kept ht) R with ⟨b, u, h3, h4, hu⟩ | h
    · exact .inl ⟨b, u, h3, h4, ht.trans hu⟩
    · exact .inr h
  · exact .inr ⟨f, bind_error h1, bind_error h2⟩

/-- A look at a part of the state that is no register. -/
theorem look {f : State → α} (hf : ∀ s R, f (State.withRegs s R) = f s) : Translated (do return f (← get) : M α) := fun s _ _ _ R =>
  .inl ⟨f s, s, rfl, congrArg (fun a => Except.ok (a, s.withRegs R)) (hf s R), rfl, rfl, rfl, rfl, rfl⟩

theorem update {f : State → State} (hf : ∀ s R, f (State.withRegs s R) = (f s).withRegs R) (hk : ∀ s : State, s.Kept (f s)) :
    Translated (Machine.update f) := fun s _ _ _ R =>
  .inl ⟨(), f s, rfl, congrArg (fun t => Except.ok ((), t)) (hf s R), hk s⟩

theorem useEntry_kept (s : State) (k : Hit) : s.Kept (s.useEntry k) :=
  ⟨State.useEntry_regs s k, State.useEntry_pc s k, State.useEntry_mode s k, State.useEntry_arValid s k, State.useEntry_keys s k⟩

theorem useEntry_withRegs (s : State) (R : Vector Word 256) (k : Hit) : (s.withRegs R).useEntry k = (s.useEntry k).withRegs R := by
  unfold State.useEntry
  rw [State.pushDown_eq, State.pushDown_eq]
  unfold State.keepStale
  by_cases h : s.serial = true
  · rw [if_pos h, if_pos (show (s.withRegs R).serial = true from h)]
    rfl
  · rw [if_neg h, if_neg (show ¬ (s.withRegs R).serial = true from h)]
    rfl

theorem physical (kind : Access) (va : Addr) : Translated (Machine.physical kind va) := by
  intro s sb lb hs R
  have hR : (s.withRegs R).Translates sb lb := ⟨hs.mode, hs.loaded, hs.small, hs.large⟩
  cases h : s.search kind va sb lb with
  | none => exact .inr ⟨s.free, physical_miss hs h, physical_miss hR h⟩
  | some p =>
    refine .inl ⟨_, _, physical_hit hs h, ?_, useEntry_kept s p.1⟩
    rw [← useEntry_withRegs]
    exact physical_hit hR h

/-! #### Accesses -/

theorem keepStale_withRegs (s : State) (R : Vector Word 256) (k n : Nat) :
    (s.withRegs R).keepStale k n = (s.keepStale k n).withRegs R := by
  unfold State.keepStale
  by_cases h : s.serial = true
  · rw [if_pos h, if_pos (show (s.withRegs R).serial = true from h)]
  · rw [if_neg h, if_neg (show ¬ (s.withRegs R).serial = true from h)]
    rfl

theorem breakpoint (write : Bool) (va : Addr) : Translated (Machine.update (·.breakpoint write va)) := by
  refine update (fun s R => ?_) fun s => ?_
  · unfold State.breakpoint
    by_cases h : s.breaks write va = true
    · rw [if_pos h, if_pos (show (s.withRegs R).breaks write va = true from h)]
      rfl
    · rw [if_neg h, if_neg (show ¬ (s.withRegs R).breaks write va = true from h)]
  · rw [State.breakpoint_eq]
    exact ⟨rfl, rfl, rfl, rfl, rfl⟩

theorem putWord (p : Nat) (v : Word) : Translated (Machine.update (·.putWord p v)) := by
  refine update (fun s R => ?_) fun s => ?_
  · unfold State.putWord
    rw [keepStale_withRegs]
    rfl
  · rw [State.putWord_eq]
    exact ⟨rfl, rfl, rfl, rfl, rfl⟩

theorem putHalf (p : Nat) (v : Half) : Translated (Machine.update (·.putHalf p v)) := by
  refine update (fun s R => ?_) fun s => ?_
  · unfold State.putHalf
    rw [keepStale_withRegs]
    rfl
  · rw [State.putHalf_eq]
    exact ⟨rfl, rfl, rfl, rfl, rfl⟩

theorem raiseFlags (k : FlagKind) (f : FpFlags) : Translated (Machine.update (·.raiseFlags k f)) :=
  update (fun _ _ => rfl) fun _ => ⟨rfl, rfl, rfl, rfl, rfl⟩

theorem readBit (a : Addr) : Translated (Machine.readBit a) :=
  (physical _ _).bind fun _ => (breakpoint _ _).bind fun _ => look fun _ _ => rfl

theorem readElem (w : Width) (a : Addr) : Translated (Machine.readElem w a) := by
  cases w with
  | w32 => exact ((physical _ _).bind fun _ => (breakpoint _ _).bind fun _ => look fun _ _ => rfl).bind fun _ => pure _
  | w64 => exact (physical _ _).bind fun _ => (breakpoint _ _).bind fun _ => look fun _ _ => rfl

theorem writeElem (w : Width) (a : Addr) (v : Word) : Translated (Machine.writeElem w a v) := by
  cases w with
  | w32 => exact (physical _ _).bind fun _ => (breakpoint _ _).bind fun _ => putHalf _ _
  | w64 => exact (physical _ _).bind fun _ => (breakpoint _ _).bind fun _ => putWord _ _

theorem permits (ctl : Control) (i : Nat) : Translated (ctl.permits i) := by
  unfold Control.permits
  split
  · exact pure true
  · exact (readBit _).bind fun _ => pure _

theorem streamElem (st : Stream) (w : Width) (ext : Word) (i : Nat) : Translated (st.elem w ext i) := by
  unfold Stream.elem
  split
  · exact pure _
  · split
    · exact readElem w _
    · exact pure _

theorem storeElem (w : Width) (a : Addr) (r : FpResult) : Translated (Machine.storeElem w a r) :=
  (writeElem w a r.value).bind fun _ => raiseFlags _ _

end Translated

/-- One round of the loop of R415. -/
def loopBody (wc : Width) (start : Addr) (ctl : Control) (elem : Nat → M FpResult) (i : Nat) (_ : Unit) : M Unit := do
  let r ← elem i
  if ← ctl.permits i then storeElem wc (itemAddr wc start i) r

theorem vectorLoop_eq (wc : Width) (d : Dest) (ctl : Control) (elem : Nat → M FpResult) :
    vectorLoop wc d ctl elem = elements d.len (loopBody wc d.start ctl elem) () := rfl

theorem Translated.loopBody {wc : Width} {d : Addr} {ctl : Control} {elem : Nat → M FpResult} (h : ∀ i, Translated (elem i))
    (i : Nat) (x : Unit) : Translated (Machine.loopBody wc d ctl elem i x) := by
  refine (h i).bind fun r => (Translated.permits ctl i).bind fun b => ?_
  cases b
  · exact Translated.pure ()
  · exact Translated.storeElem _ _ _

theorem Translated.upTo {α : Type} {b : Nat → α → M α} (h : ∀ i x, Translated (b i x)) (n : Nat) (x : α) :
    Translated (Machine.upTo n b x) := by
  induction n with
  | zero => exact Translated.pure x
  | succ n ih => exact ih.bind fun y => h n y

/-! ### A loop that an access interrupt ends (R636, decision D55) -/

section
variable {α : Type} {b : Nat → α → M α} {x : α}

theorem upTo_prefix {n k : Nat} (hk : k ≤ n) {y : α} (h : upTo n b x s = .ok (y, t)) : ∃ z u, upTo k b x s = .ok (z, u) := by
  induction hk generalizing y t with
  | refl => exact ⟨y, t, h⟩
  | @step m hk ih =>
    cases he : upTo m b x s with
    | ok p => exact ih (y := p.1) (t := p.2) he
    | error e =>
      rw [show upTo (m + 1) b x s = _ from bind_error (k := b m) he] at h
      cases h

/-- The elements completed are so many that the loop over them ends. -/
theorem upTo_completed (n : Nat) : completed b x s n ≤ n ∧ ∃ y t, upTo (completed b x s n) b x s = .ok (y, t) := by
  induction n with
  | zero => exact ⟨Nat.le_refl _, x, s, rfl⟩
  | succ n ih =>
    unfold completed
    split
    next p h => exact ⟨Nat.le_refl _, p.1, p.2, h⟩
    next e h => exact ⟨Nat.le_succ_of_le ih.1, ih.2⟩

/-- The loop completes; or it is left behind fewer elements than it has, with any of their flags, and is the loop over
those elements, whatever the registers hold. -/
theorem elements_translated {b : Nat → Unit → M Unit} (hb : ∀ i x, Translated (b i x)) {sb lb : Nat} (hs : s.Translates sb lb) (n : Nat) :
    (∃ t, elements n b () s = .ok ((), t) ∧ s.Kept t) ∨
    ∃ k t choice free, k < n ∧ s.Kept t ∧ (∀ R, elements k b () (s.withRegs R) = .ok ((), t.withRegs R)) ∧
      elements n b () s = .error (.partly { t with dfr := someFlags s.dfr t.dfr choice, free := free, regs := s.regs }) := by
  rcases Translated.upTo hb n () s sb lb hs s.regs with ⟨⟨⟩, t, h1, -, ht⟩ | ⟨f, h1, -⟩
  · refine .inl ⟨t, ?_, ht⟩
    unfold elements
    rw [h1]
  · right
    obtain ⟨hle, y, v, hc⟩ := upTo_completed (b := b) (x := ()) (s := s) n
    have hlt : completed b () s n < n := Nat.lt_of_le_of_ne hle fun he => by
      rw [he, h1] at hc
      cases hc
    have hkc : (Config.freeWord f).toNat % (completed b () s n + 1) ≤ completed b () s n :=
      Nat.lt_succ_iff.mp (Nat.mod_lt _ (Nat.succ_pos _))
    obtain ⟨⟨⟩, u, hk⟩ := upTo_prefix hkc hc
    have herr : elements n b () s = .error (.partly { u with
        dfr := someFlags s.dfr u.dfr (Config.freeWord (f + 1)), free := f + 2, regs := s.regs }) := by
      unfold elements
      rw [h1]
      dsimp only
      rw [hk]
    generalize (Config.freeWord f).toNat % (completed b () s n + 1) = k at hkc hk
    have hall (R : Vector Word 256) : s.Kept u ∧ elements k b () (s.withRegs R) = .ok ((), u.withRegs R) := by
      rcases Translated.upTo hb k () s sb lb hs R with ⟨⟨⟩, u', h2, h3, hu⟩ | ⟨f', h2, -⟩
      · rw [hk] at h2
        cases h2
        refine ⟨hu, ?_⟩
        unfold elements
        rw [h3]
      · rw [hk] at h2
        cases h2
    exact ⟨k, u, _, _, Nat.lt_of_le_of_lt hkc hlt, (hall s.regs).1, fun R => (hall R).2, herr⟩

end

/-! ### #98 (R443) -/

/-- One round of the loop of #98. -/
def State.transmit (s : State) (g x a z c : Byte) : Nat → Unit → M Unit :=
  loopBody (gWidth g) (s.destOf (gWidth g) false c).start (s.control g z (s.destOf (gWidth g) false c).off) fun i => do
    plain (← (s.streamOf (gWidth g) false a x).elem (gWidth g) (machineZero (gWidth g)) i)

theorem transmit_translated (s : State) (g x a z c : Byte) (i : Nat) (y : Unit) : Translated (s.transmit g x a z c i y) :=
  Translated.loopBody (fun _ => (Translated.streamElem _ _ _ _).bind fun _ => Translated.pure _) i y

/-- #98 as its loop. -/
theorem exec_vtov_loop {g x a z c : Byte} (h2 : bitAt g 2 = false) (h3 : bitAt g 3 = false) (hx : s.sourceOk false x) :
    exec (.vtov g x a z c) s = run64 (elements (s.destOf (gWidth g) false c).len (s.transmit g x a z c) ()) s := by
  show execVtov g x a z c s = _
  unfold execVtov vector1
  rw [h2, h3]
  exact run64_congr ((bind_ok (source_ok _ a hx)).trans ((bind_ok (dest_ok _ (.inr (.inl rfl)))).trans rfl))

/-- The state with another length in the descriptor of the destination. -/
def State.withLen (s : State) (c : Byte) (k : Nat) : State := s.setReg c (BitVec.ofNat 16 k ++ s.addr c)

/-- A destination without an offset. -/
theorem destOf_plain (s : State) (w : Width) (c : Byte) :
    s.destOf w false c = if c = 0 then ⟨0, 0, 0⟩ else ⟨s.addr c, s.len c, 0⟩ := rfl

section
variable (s : State) {c : Byte} (k : Nat)

theorem withLen_addr (n : Byte) : (s.withLen c k).addr n = s.addr n := by
  unfold State.addr State.withLen
  by_cases h : n = c
  · subst h
    rw [State.setReg_reg_self]
    exact addrPart_joinLen _ _
  · rw [State.setReg_reg_ne _ _ h]

theorem withLen_offsetOf (x : Byte) : (s.withLen c k).offsetOf x = s.offsetOf x := by
  unfold State.offsetOf
  rw [withLen_addr]

theorem withLen_len_ne {a : Byte} (h : a ≠ c) : (s.withLen c k).len a = s.len a := by
  unfold State.len State.withLen
  rw [State.setReg_reg_ne _ _ h]

theorem withLen_len (hk : k < 2 ^ 16) : (s.withLen c k).len c = k := by
  unfold State.len State.withLen
  rw [State.setReg_reg_self, show lenPart (BitVec.ofNat 16 k ++ s.addr c) = BitVec.ofNat 16 k from lenPart_joinLen _ _,
    BitVec.toNat_ofNat, Nat.mod_eq_of_lt hk]

/-- The loop of #98 does not depend on that length. -/
theorem withLen_transmit {g x a z : Byte} (h : a ≠ c) : (s.withLen c k).transmit g x a z c = s.transmit g x a z c := by
  have hstart (w : Width) : ((s.withLen c k).destOf w false c).start = (s.destOf w false c).start := by
    rw [destOf_plain, destOf_plain]
    split
    · rfl
    · exact withLen_addr s k c
  have hoff (w : Width) : ((s.withLen c k).destOf w false c).off = (s.destOf w false c).off := by
    rw [destOf_plain, destOf_plain]
    split <;> rfl
  have hcontrol (n : Nat) : (s.withLen c k).control g z n = s.control g z n := by
    unfold State.control
    rw [withLen_addr]
  have hstream (w : Width) : (s.withLen c k).streamOf w false a x = s.streamOf w false a x := by
    unfold State.streamOf
    rw [withLen_addr, withLen_offsetOf, withLen_len_ne s k h]
    rfl
  unfold State.transmit
  rw [hstart, hoff, hcontrol, hstream]

end

/-- The flags of an abandoned instruction: each as before, or as the elements done left it. -/
theorem bitAt_someFlags (old new choice : Word) {k : Nat} (hk : k < 64) (hd : k ∉ derivedBits) :
    bitAt (someFlags old new choice) k = bitAt old k ∨ bitAt (someFlags old new choice) k = bitAt new k := by
  unfold someFlags
  rw [bitAt_deriveDfr_stored _ hk hd, bitAt_or, bitAt_and]
  cases bitAt old k <;> cases bitAt new k <;> cases bitAt choice k <;> decide

/-- What is left of an abandoned loop, from the state behind the shorter instruction. -/
theorem abandoned_eq (hpc : t.pc = s.pc) (R : Vector Word 256) (dfr : Word) (free : Nat) :
    ({ (t.withRegs R).next64 with regs := s.regs, dfr := dfr, free := free, pc := s.pc } : State) =
      { t with dfr := dfr, free := free, regs := s.regs } := by
  rw [← hpc]
  rfl

/-- #98 in Job mode completes, or is #98 with fewer elements and an access interrupt (R636, decision D55). -/
theorem vtov_translated {g x a z c : Byte} {sb lb : Nat} (h : s.Translates sb lb) (h2 : bitAt g 2 = false) (h3 : bitAt g 3 = false)
    (hac : a ≠ c) (hx : s.sourceOk false x) :
    (∃ v, exec (.vtov g x a z c) s = .next v ∧ v.mode = .job ∧ v.pc = s.behind64 ∧ v.regs = s.regs) ∨
    ∃ (k : Nat) (v : State) (dfr : Word) (free : Nat), k < s.len c ∧
      exec (.vtov g x a z c) (s.withLen c k) = .next v ∧ v.mode = .job ∧
      (∀ b, b < 64 → b ∉ derivedBits → bitAt dfr b = bitAt s.dfr b ∨ bitAt dfr b = bitAt v.dfr b) ∧
      exec (.vtov g x a z c) s =
        .next ((State.post { v with regs := s.regs, dfr := dfr, free := free, pc := s.pc } 61).toMonitor s.pc) := by
  have hloop := exec_vtov_loop (a := a) (z := z) (c := c) h2 h3 hx
  rcases elements_translated (transmit_translated s g x a z c) h (s.destOf (gWidth g) false c).len with
    ⟨t, he, ht⟩ | ⟨k, t, choice, free, hk, ht, hall, he⟩
  · refine .inl ⟨t.next64, hloop.trans (run64_of_ok he), ht.mode.trans h.mode, ?_, ht.regs⟩
    unfold State.behind64
    rw [← ht.pc]
    rfl
  · have hc : c ≠ 0 := fun hc => by
      subst hc
      exact absurd hk (Nat.not_lt_zero k)
    have hd (u : State) : u.destOf (gWidth g) false c = ⟨u.addr c, u.len c, 0⟩ := if_neg hc
    rw [hd] at hk
    have hk16 : k < 2 ^ 16 := Nat.lt_trans hk (lenPart (s.reg c)).isLt
    have hshort : exec (.vtov g x a z c) (s.withLen c k) = .next (t.withRegs (s.withLen c k).regs).next64 := by
      rw [exec_vtov_loop h2 h3 (.inr (by rw [withLen_offsetOf]; exact hx.resolve_left Bool.false_ne_true)), hd,
        withLen_len s k hk16, withLen_transmit s k hac]
      exact run64_of_ok (hall (s.withLen c k).regs)
    refine .inr ⟨k, _, someFlags s.dfr t.dfr choice, free, hk, hshort, ht.mode.trans h.mode,
      fun b hb hbd => bitAt_someFlags _ _ _ hb hbd, hloop.trans ((run64_of_error he).trans ?_)⟩
    rw [abandoned_eq ht.pc]
    rfl

end Sys2Proof.Machine

namespace Sys2Proof
open Machine

/-- Settles O18: each access is the translated one or an access interrupt, and the loop of #98 does not depend on the
registers. -/
theorem jobAccessesTranslate : Obligations.JobAccessesTranslate := by
  unfold Obligations.JobAccessesTranslate
  refine ⟨fun s r sd t sb lb hm hv hw hsm hla => ?_, fun s sb lb hm hs hv hsm hla => ?_,
    fun s g x a z c sb lb hm hv hsm hla h2 h3 hac hx => vtov_translated ⟨hm, hv, hsm, hla⟩ h2 h3 hac hx⟩
  · have ht : s.Translates sb lb := ⟨hm, hv, hsm, hla⟩
    refine ⟨?_, ?_⟩
    · split
      next hn => exact lod_miss ht hn
      next k bits hk => exact lod_translated ht _ rfl hk
    · split
      next hn => exact sto_miss ht hn
      next k bits hk => exact sto_translated ht hw _ rfl hk
  · have ht : s.Translates sb lb := ⟨hm, hv, hsm, hla⟩
    split
    next hn => exact step_fetch_interrupt hs (bind_error (fetchHalf_miss ht hn))
    next k bits hk =>
      refine ⟨fun hi hst => fetchHalf_hit ht hk hi hst, fun v t hf hop hn => ?_⟩
      have hkept : t.Translates sb lb := fetchHalf_translates ht hf
      exact step_fetch_interrupt hs (fetchBytes_second hf hop (fetchHalf_miss hkept hn))

end Sys2Proof
end
